-- ==== Sys2Proof/Word.lean ====
section
/-! DEFINITION. The word types of the machine and their plainest arithmetic (R2, R3, R6, R12). -/

namespace Sys2Proof

/-- One byte of memory. -/
abbrev Byte := BitVec 8
/-- A 32-bit v register, instruction word or literal (R12, R34). -/
abbrev Word := BitVec 32
/-- A 64-bit k register or system register (R11). -/
abbrev DWord := BitVec 64
/-- A 128-bit tile descriptor (R179). -/
abbrev QWord := BitVec 128
/-- One bit for each of the 16 slots of a group (R11). -/
abbrev Mask := BitVec 16

/-- The bit range [lo + n − 1 : lo] of a number (R2, R6). -/
def bitsOf (x lo n : Nat) : Nat := x / 2 ^ lo % 2 ^ n

/-- Bit `i` of a number. -/
def bitOf (x i : Nat) : Bool := x / 2 ^ i % 2 == 1

/-- 1 for true, 0 for false. -/
def b2n (b : Bool) : Nat := if b then 1 else 0

/-- A number read as a signed number of `n` bits. -/
def toSigned (n x : Nat) : Int :=
  if x % 2 ^ n < 2 ^ (n - 1) then (x % 2 ^ n : Nat) else ((x % 2 ^ n : Nat) : Int) - (2 ^ n : Nat)

/-- An integer wrapped modulo 2^n (R6). -/
def wrapTo (n : Nat) (x : Int) : Nat := (x % ((2 ^ n : Nat) : Int)).toNat

/-- The little-endian bytes of a number, `n` of them (R2). -/
def bytesLE : Nat → Nat → List Byte
  | 0, _ => []
  | n + 1, x => BitVec.ofNat 8 x :: bytesLE n (x / 256)

/-- The number that little-endian bytes hold (R2). -/
def ofBytesLE : List Byte → Nat
  | [] => 0
  | b :: bs => b.toNat + 256 * ofBytesLE bs

/-- The pair v2n:v2n+1 as one 64-bit value (R12). -/
def pairOf (lo hi : Word) : DWord := BitVec.ofNat 64 (lo.toNat + 2 ^ 32 * hi.toNat)

/-- The low word of a 64-bit value. -/
def loOf (x : DWord) : Word := BitVec.ofNat 32 x.toNat

/-- The high word of a 64-bit value. -/
def hiOf (x : DWord) : Word := BitVec.ofNat 32 (x.toNat / 2 ^ 32)

/-- `sext(x, 64)` of a 32-bit value (R6). -/
def sext64 (x : Word) : DWord := BitVec.ofInt 64 x.toInt

/-- `zext(x, 64)` of a 32-bit value (R6). -/
def zext64 (x : Word) : DWord := BitVec.ofNat 64 x.toNat

/-- An address is canonical in 57 bits: bits [63:57] all equal bit 56 (R36, R212). -/
def canonical (a : DWord) : Bool :=
  bitsOf a.toNat 56 8 == 0 || bitsOf a.toNat 56 8 == 255

/-- The numbers 0, 1, ..., n − 1 in increasing order. -/
def upTo : Nat → List Nat
  | 0 => []
  | n + 1 => upTo n ++ [n]

end Sys2Proof
end

