-- ==== Sys2Proof/Machine/Flags.lean ====
section
/-! DEFINITION. The exception conditions of the floating-point instructions (R72, R96, R404). -/

namespace Sys2Proof

/-- The five exception conditions (R72). -/
structure Conds where
  invalid : Bool
  divz : Bool
  ovfl : Bool
  unfl : Bool
  inexact : Bool
  deriving DecidableEq, Repr

/-- No condition. -/
def Conds.none : Conds := ⟨false, false, false, false, false⟩
/-- Invalid. -/
def Conds.inv : Conds := ⟨true, false, false, false, false⟩
/-- Divide-by-zero. -/
def Conds.dz : Conds := ⟨false, true, false, false, false⟩
/-- Inexact. -/
def Conds.inx : Conds := ⟨false, false, false, false, true⟩
/-- Overflow and inexact (R77). -/
def Conds.ovf : Conds := ⟨false, false, true, false, true⟩
/-- Underflow and inexact (R72). -/
def Conds.unf : Conds := ⟨false, false, false, true, true⟩

/-- The conditions raised by either of two results (R110). -/
def Conds.or (a b : Conds) : Conds :=
  ⟨a.invalid || b.invalid, a.divz || b.divz, a.ovfl || b.ovfl, a.unfl || b.unfl, a.inexact || b.inexact⟩

/-- Invalid when `b` holds. -/
def Conds.invIf (b : Bool) : Conds := ⟨b, false, false, false, false⟩

/-- The conditions as bits in the order of ARITHEN (R404): invalid, divide-by-zero, overflow, underflow, inexact. -/
def Conds.bits (c : Conds) : BitVec 5 :=
  BitVec.ofNat 5 (b2n c.invalid + 2 * b2n c.divz + 4 * b2n c.ovfl + 8 * b2n c.unfl + 16 * b2n c.inexact)

/-- The conditions that ARITHEN enables (R96, R404). -/
def Conds.enabled (c : Conds) (arithen : BitVec 5) : BitVec 5 := c.bits &&& arithen

end Sys2Proof
end

