-- ==== Sys2Proof/Syntax.lean ====
section
/-! DEFINITION. The instructions and steps of the machine: one constructor of `Instr` for each row of the opcode
table. A word of the code stream carries its decoded fields; a step of the hardware or of the host (a row without an
encoding) carries the names of what it acts on. -/

namespace Sys2Proof

/-- A v register number (R12). -/
abbrev VReg := BitVec 6
/-- A k register number (R14). -/
abbrev KReg := BitVec 5
/-- A tile register, a z register, or one of k0–k15 named by a KX field (R52). -/
abbrev XReg := BitVec 4
/-- A predicate p0–p7 (R13). -/
abbrev PReg := BitVec 3
/-- A uniform predicate q0–q3 (R14). -/
abbrev QReg := BitVec 2
/-- A barrier object b0–b31 (R147). -/
abbrev BReg := BitVec 5

/-- The guard of a T-format word: GN and GP (R47, R48). -/
structure Guard where
  neg : Bool
  p : PReg
  deriving DecidableEq, Repr

/-- The uniform guard of a K-format word: absent, or QGN and QG (R50). -/
abbrev UGuard := Option (Bool × QReg)

/-- The address fields and guard of an M-format word (R51). -/
structure MAddr where
  kbase : KReg
  xi : Bool
  off : BitVec 6
  gp : PReg
  deriving DecidableEq, Repr

/-- The completion fields of an X.a word: the barrier when BCE = 1, and FOE (R52). -/
structure Compl where
  bar : Option BReg
  foe : Bool
  deriving DecidableEq, Repr

/-- MOD of iadd, isub and imad (R64). -/
inductive SatKind where
  | wrap | satI | satN
  deriving DecidableEq, Repr
/-- MOD of imul (R64). -/
inductive MulKind where
  | lo | hiI | hiN
  deriving DecidableEq, Repr
/-- MOD of iminmax (R64). -/
inductive MinMaxKind where
  | minI | maxI | minN | maxN
  deriving DecidableEq, Repr
/-- MOD of opcode 0x06 (R64). -/
inductive AbsKind where
  | abs | neg | absSat
  deriving DecidableEq, Repr
/-- MOD of logic (R64). -/
inductive LogicOp where
  | and | or | xor | andn
  deriving DecidableEq, Repr
/-- MOD of bitop (R64). -/
inductive BitOp where
  | not | popc | clz | brev
  deriving DecidableEq, Repr
/-- MOD of shift (R64). -/
inductive ShiftOp where
  | shl | shr | sar | rotl
  deriving DecidableEq, Repr
/-- Natural or signed (R64, bfe). -/
inductive Sgn where
  | nat | int
  deriving DecidableEq, Repr
/-- MOD of icmp (R64). -/
inductive IcmpKind where
  | i32 | n32 | i64 | n64
  deriving DecidableEq, Repr
/-- The integer conditions 000 to 101 (R64). -/
inductive Cond where
  | eq | ne | lt | le | gt | ge
  deriving DecidableEq, Repr
/-- MOD of add64 (R64). -/
inductive Add64Kind where
  | add | sub | addSx
  deriving DecidableEq, Repr
/-- The rounding modes (R64, R76). -/
inductive Rm where
  | rne | rz | rup | rdn
  deriving DecidableEq, Repr
/-- Minimum or maximum (R108, R110). -/
inductive MinMax where
  | min | max
  deriving DecidableEq, Repr
/-- The operand formats of fcmp and fspec (R64). -/
inductive FFmt where
  | f32 | bf16 | f16
  deriving DecidableEq, Repr
/-- The operand formats of the half forms (R64). -/
inductive HFmt where
  | bf16 | f16
  deriving DecidableEq, Repr
/-- The conditions of fcmp (R64, R103). -/
inductive FCond where
  | eq | ne | lt | le | gt | ge | un | ord
  deriving DecidableEq, Repr
/-- MOD of fsign (R64). -/
inductive FSignOp where
  | abs | neg | copysign
  deriving DecidableEq, Repr
/-- The formats of cvt, by code (R64). -/
inductive CvtFmt where
  | f32 | bf16 | f16 | e4m3 | e5m2 | l6 | i32 | n32
  deriving DecidableEq, Repr
/-- The formats of pack and unpk, by code (R64). -/
inductive PackFmt where
  | e4m3 | e5m2 | l6 | bf16
  deriving DecidableEq, Repr
/-- The functions of fspec, by code (R64). -/
inductive Fn where
  | rcp | rsqrt | sqrt | exp2 | log2 | sin | cos | tanh
  deriving DecidableEq, Repr
/-- The grades of fspec (R89). -/
inductive Grade where
  | fast | accurate
  deriving DecidableEq, Repr
/-- MOD of rand (R64). -/
inductive RandKind where
  | b32 | f32
  deriving DecidableEq, Repr
/-- The operations of plop and qlop, by code (R64). -/
inductive PlopOp where
  | and | or | xor | andn | orn | nand | nor | xnor
  deriving DecidableEq, Repr
/-- MODE of br: per-thread, any, all; code 01 is reserved (R63, R116). -/
inductive BrMode where
  | thread | any | all
  deriving DecidableEq, Repr
/-- MOD of shfl (R64). -/
inductive ShflMode where
  | idx | up | down | xor
  deriving DecidableEq, Repr
/-- MOD of vote (R64). -/
inductive VoteOp where
  | any | all | eq
  deriving DecidableEq, Repr
/-- MOD of redt and scan (R64). -/
inductive RedOp where
  | addF | addI | maxF | minF
  deriving DecidableEq, Repr
/-- MOD of fragq (R64). -/
inductive FragqKind where
  | mask | count | occ | spill
  deriving DecidableEq, Repr
/-- FUNC of ualu (R64). -/
inductive UaluOp where
  | uadd | usub | umul | uand | uor | uxor | ushl | ushr | usar | uminI | umaxI | uminN | umaxN | umov
  deriving DecidableEq, Repr
/-- FUNC of ucmp (R64). -/
inductive UcmpOp where
  | eq | ne | ltI | leI | gtI | geI | ltN | leN | gtN | geN
  deriving DecidableEq, Repr
/-- FUNC of umovl (R173). -/
inductive UmovlKind where
  | sext | zext | hi
  deriving DecidableEq, Repr
/-- FUNC of bart (R175). -/
inductive BartOp where
  | word | q | take
  deriving DecidableEq, Repr
/-- What acq and rel move (R178). -/
inductive Res where
  | smem | tile
  deriving DecidableEq, Repr
/-- The output formats of mdrain, cvt codes 000 to 100 (R191). -/
inductive DrainFmt where
  | f32 | bf16 | f16 | e4m3 | e5m2
  deriving DecidableEq, Repr
/-- FUNC of cpy (R64). -/
inductive CpyForm where
  | in1d | in2d | in3d | inGather | out1d | out2d | out3d | outScatter
  deriving DecidableEq, Repr
/-- FUNC[4:3] of fence (R252). -/
inductive FenceKind where
  | full | rel | acq
  deriving DecidableEq, Repr
/-- The scopes, by code (R10, R252). -/
inductive Scope where
  | thread | group | team | core | die | package | domain | system
  deriving DecidableEq, Repr
/-- FUNC of hflush (R254). -/
inductive FlushKind where
  | wb | inv | wbinv
  deriving DecidableEq, Repr
/-- FUNC of coll (R64). -/
inductive CollForm where
  | allreduce | reducescatter | allgather | bcast | alltoall
  deriving DecidableEq, Repr
/-- FUNC[1:0] of upd (R64). -/
inductive UpdOpt where
  | sgdm | adam | lamb
  deriving DecidableEq, Repr
/-- FUNC[3:2] of upd (R64). -/
inductive UpdMask where
  | none | m24 | m48
  deriving DecidableEq, Repr
/-- FUNC of place (R64). -/
inductive PlaceOp where
  | promote | demote | pin | unpin
  deriving DecidableEq, Repr
/-- The engine kinds of estat and ewait (R64). -/
inductive EngKind where
  | copy | collective | rotation | exchange | update | placement | snapshot
  deriving DecidableEq, Repr

/-- A core of the domain: package rank, die, logical row and column (R61). -/
structure CoreId where
  rank : Nat
  die : Nat
  row : Nat
  col : Nat
  deriving DecidableEq, Repr

/-- A home slice of the domain: package rank and slice 0–127 (R229). -/
structure SliceId where
  rank : Nat
  slice : Nat
  deriving DecidableEq, Repr

/-- A die of the domain. -/
structure DieId where
  rank : Nat
  die : Nat
  deriving DecidableEq, Repr

/-- One direction of the link at a port of a package: out of port `port`, or into it (R422, R440). -/
structure LinkId where
  rank : Nat
  port : Nat
  out : Bool
  deriving DecidableEq, Repr

/-- A node of the fabric: a package port, or a Col switch of level 1 or 2 of a plane (R425). -/
inductive NodeId where
  | port (rank port : Nat)
  | col1 (plane idx : Nat)
  | col2 (plane idx : Nat)
  deriving DecidableEq, Repr

/-- A plane of the fabric, or one level 2 switch of it (R427). -/
structure PlanePart where
  plane : Nat
  sw : Option Nat
  deriving DecidableEq, Repr

/-- What an uncorrectable error strikes (R416): a v register position of a slot, a tile word, a word of a team's shared
memory, of a die's segment, of a spill-buffer line, of a memory-side cache line, or a 256-byte line of HBM; or nothing, when the
error is a correctable one of a die's SRAM. -/
inductive ErrSite where
  | backing (gid slot pos : Nat)
  | tile (tid z word : Nat)
  | shared (tid word : Nat)
  | scratch (seg word : Nat)
  | spill (core : CoreId) (va : Nat)
  | cache (rank ctx va : Nat)
  | hbm (rank line : Nat)
  | corrected (d : DieId)
  deriving DecidableEq, Repr

/-- The result of one attempt at a step of the start sequence, as the package's own tests find it (R452, R453). -/
inductive Attempt where
  | ok | failed (code : Nat) | checkFailed
  /-- the package loses its supply during the step (R455) -/
  | supplyLost
  deriving DecidableEq, Repr

/-- One instruction word, or one step of the hardware or of the host, of the opcode table. -/
inductive Instr where
  -- steps of a group and its lane
  | boundaryTrapEntry (gid : Nat)
  | blockedWordComplete (gid entry : Nat)
  | memoryReply (gid seq : Nat)
  | wcbAgeDrain (core : CoreId) (line : Nat)
  | fragmentExchange (gid entry : Nat)
  | acqGrant (core : CoreId)
  | gridRetire (grid : Nat)
  | queueDoorbell (rank : Nat) (value : Nat)
  | queueMapRound (rank : Nat)
  | gridDispatch (rank : Nat)
  | teamPlace (rank die : Nat)
  | preemptRequest (rank : Nat)
  | timerExpire (gid : Nat)
  | deadlineExpire (gid : Nat)
  | idleTimeout (gid entry : Nat)
  | matrixEntryStart (core : CoreId)
  | matrixEntryComplete (core : CoreId)
  | drainMerge (core : CoreId)
  | rampWindowEnd (core : CoreId)
  | rampTargetExpire (core : CoreId)
  | throttleWindow (core : CoreId) (temp droop : Bool)
  | energyUpdate (rank : Nat)
  | sliceAtomic (sl : SliceId)
  | windowCloseIdle (sl : SliceId) (win : Nat)
  | dwfenceSliceClose (fence : Nat) (sl : SliceId)
  | waitcTest (sl : SliceId)
  | monitorTimeout (sl : SliceId) (entry : Nat)
  | monitorReclaim (sl : SliceId) (ctx : Nat)
  | combCallArrive (sl : SliceId)
  | waveStart (sl : SliceId)
  | waveCommit (sl : SliceId)
  | cfclrClear (sl : SliceId)
  | methregSliceUpdate (reg : Nat) (sl : SliceId)
  | engineChunkStart (d : DieId) (engine : Nat)
  | faultResume (d : DieId) (index : Nat)
  | faultAbort (d : DieId) (index : Nat)
  | tlbInvalidate (d : DieId) (value : Nat)
  | tlbInvalidateDone (d : DieId)
  | gtsyncGo (rank : Nat) (value : Nat)
  | gtsyncReload (rank : Nat)
  | rstoLineArrive (op line : Nat)
  | planeDown (part : PlanePart)
  | xchgTokenAccept (op token : Nat)
  | rotChunkArrive (ring : Nat)
  | rotSlotReturn (ring slot : Nat)
  | rotCreditArrive (ring slot : Nat)
  | placeCopyDone (rank entry : Nat)
  | moraineWrite (d : DieId)
  | tierReadError (rank line : Nat) (damaged : List Nat)
  | reconstructDone (rank line : Nat)
  | stepBoundary (rank : Nat)
  | memberStepReport (rank member stepNo : Nat)
  | supplyLoss (rank : Nat)
  | supplyOn (rank : Nat) (found : List Attempt)
  | startRestart (rank : Nat) (found : List Attempt)
  | domainGo (rank : Nat) (found : List Attempt)
  | trimGo (rank : Nat)
  | trimApply (rank : Nat)
  | packageLossDeclare (rank : Nat) (lost : Nat)
  | lossDetectTimeout (lost : Nat)
  | lossReportArrive (rank lost : Nat)
  | fenceComplete (rank : Nat)
  | rebuildUnit (rank : Nat)
  | bufferSuspectTimeout (node : NodeId) (buf : Nat)
  | thawTokenArrive (node : NodeId)
  | meltwaterMove (node : NodeId) (buf : Nat)
  | thawStallTimeout (node : NodeId) (buf : Nat)
  | deflectionEnter (node : NodeId)
  | deflectionExit (node : NodeId)
  | flitSend (link : LinkId)
  | flitReceive (link : LinkId)
  | nakReceive (link : LinkId)
  | nakHoldoffExpire (link : LinkId)
  | linkKeyLoad (link : LinkId) (tx : Bool)
  | linkKeySwitch (link : LinkId)
  | linkRetrain (link : LinkId)
  | linkTrainDone (link : LinkId)
  | partnerRegWrite (link : LinkId) (offset : Nat) (value : Nat)
  | hostWindowWrite (rank offset : Nat) (bytes : List Byte)
  | attestGo (rank : Nat)
  | attestReportWritten (rank : Nat)
  | registerWrite (rank offset : Nat) (value : Nat)
  | switchSramEnable (node : NodeId)
  | contextDestroy (rank ctx : Nat)
  | uncorrectableError (site : ErrSite)
  -- thread-class words
  | iadd (k : SatKind) (d a b : VReg) (g : Guard)
  | isub (k : SatKind) (d a b : VReg) (g : Guard)
  | imul (k : MulKind) (d a b : VReg) (g : Guard)
  | imad (k : SatKind) (d a b : VReg) (g : Guard)
  | iminmax (k : MinMaxKind) (d a b : VReg) (g : Guard)
  | iabs (k : AbsKind) (d a : VReg) (g : Guard)
  | logic (op : LogicOp) (d a b : VReg) (g : Guard)
  | bitop (op : BitOp) (d a : VReg) (g : Guard)
  | shift (op : ShiftOp) (d a b : VReg) (g : Guard)
  | bfe (k : Sgn) (d a b : VReg) (g : Guard)
  | bfi (d a b : VReg) (g : Guard)
  | icmp (k : IcmpKind) (c : Cond) (p : PReg) (a b : VReg) (g : Guard)
  | sel (d a b : VReg) (g : Guard)
  | add64 (k : Add64Kind) (d a b : VReg) (g : Guard)
  | lea (sh : BitVec 2) (d a b : VReg) (g : Guard)
  | iaddi (d a : VReg) (i : BitVec 12)
  | imuli (d a : VReg) (i : BitVec 12)
  | andi (d a : VReg) (i : BitVec 12)
  | ori (d a : VReg) (i : BitVec 12)
  | xori (d a : VReg) (i : BitVec 12)
  | shli (d a : VReg) (n : BitVec 5)
  | shri (d a : VReg) (n : BitVec 5)
  | sari (d a : VReg) (n : BitVec 5)
  | icmpiI32 (c : Cond) (p : PReg) (a : VReg) (i : BitVec 12)
  | icmpiN32 (c : Cond) (p : PReg) (a : VReg) (i : BitVec 12)
  | movi (d : VReg) (i : BitVec 12)
  | movl (d : VReg) (x : Word)
  | add64i (d a : VReg) (i : BitVec 12)
  | enter (n : BitVec 12)
  | fadd (rm : Rm) (d a b : VReg) (g : Guard)
  | fsub (rm : Rm) (d a b : VReg) (g : Guard)
  | fmul (rm : Rm) (d a b : VReg) (g : Guard)
  | ffma (rm : Rm) (d a b : VReg) (g : Guard)
  | fminmax (op : MinMax) (d a b : VReg) (g : Guard)
  | fcmp (f : FFmt) (c : FCond) (p : PReg) (a b : VReg) (g : Guard)
  | fsign (op : FSignOp) (d a b : VReg) (g : Guard)
  | padd2 (f : HFmt) (d a b : VReg) (g : Guard)
  | pmul2 (f : HFmt) (d a b : VReg) (g : Guard)
  | pfma2 (f : HFmt) (d a b : VReg) (g : Guard)
  | pminmax2 (f : HFmt) (op : MinMax) (d a b : VReg) (g : Guard)
  | hadd (f : HFmt) (d a b : VReg) (g : Guard)
  | hmul (f : HFmt) (d a b : VReg) (g : Guard)
  | hfma (f : HFmt) (d a b : VReg) (g : Guard)
  | cvt (src dst : CvtFmt) (rm : Rm) (d a : VReg) (g : Guard)
  | pack (f : PackFmt) (d a b : VReg) (g : Guard)
  | unpk (f : PackFmt) (j : BitVec 6) (d a : VReg) (g : Guard)
  | frnd (rm : Rm) (d a : VReg) (g : Guard)
  | fspec (fn : Fn) (gr : Grade) (f : FFmt) (d a : VReg) (g : Guard)
  | rand (k : RandKind) (d : VReg) (g : Guard)
  | plop (op : PlopOp) (pd pa pb : PReg) (g : Guard)
  | pmovV (d : VReg) (pa : PReg) (g : Guard)
  | pmovP (pd : PReg) (a : VReg) (g : Guard)
  | rep (n : BitVec 6) (sd sa sb : Bool)
  -- control words
  | br (rcv : BitVec 18) (g : Guard) (m : BrMode) (disp : Word)
  | call (g : Guard) (disp : Word)
  | callk (ka : KReg) (g : UGuard)
  | exit (g : Guard)
  -- uniform words
  | ualu (op : UaluOp) (d a b : KReg) (g : UGuard)
  | ucmp (op : UcmpOp) (q : QReg) (a b : KReg) (g : UGuard)
  | umovl (k : UmovlKind) (d : KReg) (x : Word) (g : UGuard)
  | uaddl (d a : KReg) (x : Word) (g : UGuard)
  | qlop (op : PlopOp) (qd qa qb : QReg) (g : UGuard)
  -- thread combiners
  | shfl (m : ShflMode) (d a b : VReg) (g : Guard)
  | vote (op : VoteOp) (pd pa : PReg) (g : Guard)
  | ballot (d : VReg) (pa : PReg) (g : Guard)
  | redt (op : RedOp) (d a : VReg) (g : Guard)
  | scan (op : RedOp) (d a : VReg) (g : Guard)
  | bcast (kd : KReg) (a : VReg) (w64 : Bool) (src : Option (BitVec 4)) (g : Guard)
  | fragq (k : FragqKind) (d : VReg) (g : Guard)
  -- barriers, child grids, resources, tiles
  | barinit (b : BReg) (kb : KReg) (g : UGuard)
  | barx (arr : Bool) (b : BReg) (kb : KReg) (g : UGuard)
  | bara (b : BReg) (g : UGuard)
  | barw (kd : Option KReg) (b : BReg) (g : UGuard)
  | bart (op : BartOp) (d : KReg) (b : BReg) (g : UGuard)
  | launch (kd ka : KReg) (g : UGuard)
  | cwait (kd : KReg) (ka : Option KReg) (g : UGuard)
  | acq (what : Res) (kd ka : KReg) (g : UGuard)
  | rel (what : Res) (ka : KReg) (g : UGuard)
  | tset (t : XReg) (ka kb : KReg) (g : UGuard)
  | tget (kd : KReg) (t : XReg) (h : Bool) (g : UGuard)
  -- matrix words
  | mmaE4m3 (z tb : XReg) (va : VReg) (scl : Option (VReg × BitVec 2)) (ru : Bool)
  | mmaE5m2 (z tb : XReg) (va : VReg) (scl : Option (VReg × BitVec 2)) (ru : Bool)
  | mmaL6 (z tb : XReg) (va : VReg) (scl : Option (VReg × BitVec 2)) (ru : Bool)
  | mmaI8 (z tb : XReg) (va : VReg) (ru : Bool)
  | mmaBf16 (z tb : XReg) (va : VReg) (ru : Bool)
  | mmaF16 (z tb : XReg) (va : VReg) (ru : Bool)
  | mzero (z : XReg) (bar : Option BReg)
  | mld (z ta : XReg) (f : Compl)
  | mst (ta z : XReg) (f : Compl)
  | mdrain (fmt : DrainFmt) (ta z : XReg) (kx : Option XReg) (clr : Bool) (f : Compl)
  | mramp (n : BitVec 5) (g : UGuard)
  -- memory words
  | ldlB32 (d : VReg) (m : MAddr)
  | ldlB64 (d : VReg) (m : MAddr)
  | stlB32 (d : VReg) (m : MAddr)
  | stlB64 (d : VReg) (m : MAddr)
  | ldsB32 (d : VReg) (m : MAddr)
  | ldsB64 (d : VReg) (m : MAddr)
  | ldsB128 (d : VReg) (m : MAddr)
  | stsB32 (d : VReg) (m : MAddr)
  | stsB64 (d : VReg) (m : MAddr)
  | stsB128 (d : VReg) (m : MAddr)
  | ldxB32 (d : VReg) (m : MAddr)
  | ldxB64 (d : VReg) (m : MAddr)
  | ldxB128 (d : VReg) (m : MAddr)
  | stxB32 (d : VReg) (m : MAddr)
  | stxB64 (d : VReg) (m : MAddr)
  | stxB128 (d : VReg) (m : MAddr)
  | cpy (form : CpyForm) (td ta n : XReg) (f : Compl)
  | put (d : VReg) (m : MAddr)
  | get (d : VReg) (m : MAddr)
  | waitp (p : BitVec 3) (ka : KReg) (g : UGuard)
  | fence (k : FenceKind) (sc : Scope) (g : UGuard)
  | afence (g : UGuard)
  | hflush (k : FlushKind) (ka kb : KReg) (g : UGuard)
  | dwfence (g : UGuard)
  | methreg (ka : KReg) (x : Word) (g : UGuard)
  | atomAddI32 (d : VReg) (m : MAddr)
  | atomAddF32 (d : VReg) (m : MAddr)
  | atomMinI32 (d : VReg) (m : MAddr)
  | atomMaxI32 (d : VReg) (m : MAddr)
  | atomMinN32 (d : VReg) (m : MAddr)
  | atomMaxN32 (d : VReg) (m : MAddr)
  | atomAnd (d : VReg) (m : MAddr)
  | atomOr (d : VReg) (m : MAddr)
  | atomXor (d : VReg) (m : MAddr)
  | atomXchg (d : VReg) (m : MAddr)
  | cas (d : VReg) (m : MAddr)
  | casgt (d : VReg) (m : MAddr)
  | casv (d : VReg) (m : MAddr)
  | caspt (d : VReg) (m : MAddr)
  | waitc (d : VReg) (m : MAddr) (x : Word)
  | comb (d : VReg) (m : MAddr) (x : Word)
  -- asynchronous engine words
  | coll (form : CollForm) (td ta kn : XReg) (f : Compl)
  | rotOpen (td kn : XReg) (b : BReg)
  | rotRun (ta kn : XReg) (foe : Bool)
  | rotClose (kn : XReg)
  | xchg (td ta n : XReg) (f : Compl)
  | bpri (kn : XReg)
  | bpriGet (kn : XReg)
  | rsto (ta kn : XReg) (f : Compl)
  | upd (opt : UpdOpt) (msk : UpdMask) (pair : Bool) (td ta kn : XReg) (f : Compl)
  | pairst (td ta n : XReg) (f : Compl)
  | place (op : PlaceOp) (ta kn : XReg) (f : Compl)
  | pfence (stripe : Bool)
  | step (kn : XReg) (bar : Option BReg)
  | snap (kn : XReg) (bar : Option BReg)
  | estat (k : EngKind) (kn : XReg)
  | ewait (k : EngKind) (kn : XReg)
  -- system words
  | srr (reg : BitVec 6) (idx : BitVec 12) (rk : Bool)
  | srw (reg : BitVec 6) (idx : BitVec 12) (rk : Bool)
  | trap (c : BitVec 12)
  | rinj (m : BitVec 8)
  | engs (ka : KReg)
  | engr (ka : KReg)
  -- words without a field, and steps that find what they act on in the state (`State.subj`, `State.who`)
  | clauseStart
  | repRepeat
  | thawTokenReissue
  | copyChunkCommit
  | copyComplete
  | chunkLinkTimeout
  | collChunkCommit
  | collComplete
  | rstoComplete
  | xchgComplete
  | rotOpenComplete
  | rotRunComplete
  | rotCloseComplete
  | updBlockWrite
  | updComplete
  | pairstComplete
  | putAck
  | putLineApply
  | peerAccess
  | packetHop
  | packetDeliver
  | parityDeltaArrive
  | parityAckArrive
  | reduceMergeApply
  | join
  | ret
  | reti
  | idle
  | halt
  deriving DecidableEq, Repr

end Sys2Proof
end

