-- ==== Sys2Proof/Machine/Float.lean ====
section
/-! DEFINITION. The floating-point, logarithmic and integer number formats, their rounding (R68 to
R78), exact arithmetic with one rounding (R107 to R111), and the transcendental functions (R89 to R92). A number is held
exactly as a sign, a natural significand and a power of two; `roundTo` is the one place where a number is rounded. -/

namespace Sys2Proof

/-- An exact value: a NaN, quiet or not; an infinity; or (−1)^neg × m × 2^e. -/
inductive Val where
  | nan (quiet : Bool)
  | inf (neg : Bool)
  | num (neg : Bool) (m : Nat) (e : Int)
  deriving DecidableEq, Repr

/-- Exponent bits of a floating-point format (R69). -/
def CvtFmt.eb : CvtFmt → Nat
  | .f32 => 8 | .bf16 => 8 | .f16 => 5 | .e4m3 => 4 | .e5m2 => 5 | .l6 => 0 | .i32 => 0 | .n32 => 0
/-- Fraction bits (R69). -/
def CvtFmt.fb : CvtFmt → Nat
  | .f32 => 23 | .bf16 => 7 | .f16 => 10 | .e4m3 => 3 | .e5m2 => 2 | .l6 => 0 | .i32 => 0 | .n32 => 0
/-- Bias (R69). -/
def CvtFmt.bias : CvtFmt → Nat
  | .f32 => 127 | .bf16 => 127 | .f16 => 15 | .e4m3 => 7 | .e5m2 => 15 | .l6 => 0 | .i32 => 0 | .n32 => 0
/-- Width in bits (R68). -/
def CvtFmt.width : CvtFmt → Nat
  | .f32 => 32 | .bf16 => 16 | .f16 => 16 | .e4m3 => 8 | .e5m2 => 8 | .l6 => 6 | .i32 => 32 | .n32 => 32
/-- The canonical NaN; 0 where the format has none (R71, R77). -/
def CvtFmt.nan : CvtFmt → Nat
  | .f32 => 0x7FC00000 | .bf16 => 0x7FC0 | .f16 => 0x7E00 | .e4m3 => 0x7F | .e5m2 => 0x7E
  | .l6 => 0 | .i32 => 0 | .n32 => 0

/-- The format of an fcmp or fspec operand. -/
def FFmt.cvt : FFmt → CvtFmt
  | .f32 => .f32 | .bf16 => .bf16 | .f16 => .f16
/-- The format of a half form. -/
def HFmt.cvt : HFmt → CvtFmt
  | .bf16 => .bf16 | .f16 => .f16

/-- The code of +∞ and the first code above the finite ones (R70). -/
def CvtFmt.infCode (f : CvtFmt) : Nat := (2 ^ f.eb - 1) * 2 ^ f.fb

/-- The largest finite code (R69, R70). -/
def CvtFmt.maxCode (f : CvtFmt) : Nat := if f == .e4m3 then 0x7E else f.infCode - 1

/-- A code with its sign bit. -/
def CvtFmt.signed (f : CvtFmt) (neg : Bool) (code : Nat) : Nat := b2n neg * 2 ^ (f.width - 1) + code

/-- The constants T of L6 (R73). -/
def l6T (f : Nat) : Nat := [0x8000, 0x9838, 0xB505, 0xD745].getD f 0x8000

/-- The value of a code of a format (R69, R70, R73, R75); bits above the format are ignored (R68). -/
def valOf (f : CvtFmt) (x : Nat) : Val :=
  match f with
  | .i32 => .num (toSigned 32 x < 0) (toSigned 32 x).natAbs 0
  | .n32 => .num false (x % 2 ^ 32) 0
  | .l6 =>
    let e := x % 32
    if e == 0 then .num (bitOf x 5) 0 0 else .num (bitOf x 5) (l6T (e % 4)) ((e : Int) / 4 - 4 - 15)
  | .f32 | .bf16 | .f16 | .e4m3 | .e5m2 =>
    let neg := bitOf x (f.width - 1)
    let ex := bitsOf x f.fb f.eb
    let fr := bitsOf x 0 f.fb
    let top := ex == 2 ^ f.eb - 1
    if f == .e4m3 && top && fr == 7 then .nan true
    else if f != .e4m3 && top then if fr == 0 then .inf neg else .nan (bitOf fr (f.fb - 1))
    else if ex == 0 then .num neg fr (1 - (f.bias : Int) - f.fb)
    else .num neg (fr + 2 ^ f.fb) ((ex : Int) - f.bias - f.fb)

/-- A subnormal or zero code of a format (R69). -/
def isTinyCode (f : CvtFmt) (x : Nat) : Bool := bitsOf x f.fb f.eb == 0

/-- m × 2^e rounded to a multiple of 2^q: the multiple, and whether it is inexact (R76). -/
def roundAt (rm : Rm) (neg : Bool) (m : Nat) (e q : Int) : Nat × Bool :=
  if q ≤ e then (m * 2 ^ (e - q).toNat, false)
  else
    let sh := (q - e).toNat
    let n := m / 2 ^ sh
    let r := m % 2 ^ sh
    let up := match rm with
      | .rne => 2 * r > 2 ^ sh || (2 * r == 2 ^ sh && n % 2 == 1)
      | .rz => false
      | .rup => !neg && r != 0
      | .rdn => neg && r != 0
    (n + b2n up, r != 0)

/-- The overflow result of a format (R77). -/
def overflowed (f : CvtFmt) (rm : Rm) (neg : Bool) : Nat × Conds :=
  let toInf := match rm with
    | .rne => true
    | .rz => false
    | .rup => !neg
    | .rdn => neg
  (f.signed neg (if f != .e4m3 && toInf then f.infCode else f.maxCode), Conds.ovf)

/-- Rounds a non-zero number to an IEEE-like format (R69, R72, R76, R77). Tininess is judged after rounding with an
unbounded exponent, as in IEEE 754; overflow likewise (DEDUCED, log entry 9). -/
def roundFloat (f : CvtFmt) (rm : Rm) (neg : Bool) (m : Nat) (e : Int) : Nat × Conds :=
  let top : Int := (Nat.log2 m : Int) + e
  let emin : Int := 1 - f.bias
  let ex := max top emin
  let (n, inx) := roundAt rm neg m e (ex - f.fb)
  let code := ((ex - emin).toNat) * 2 ^ f.fb + n
  if code > f.maxCode then overflowed f rm neg
  else
    let (n2, _) := roundAt rm neg m e (top - f.fb)
    let tiny := top < emin && !(top == emin - 1 && n2 == 2 ^ (f.fb + 1))
    (f.signed neg code, ⟨false, false, false, tiny && inx, inx⟩)

/-- Compares m1 × 2^e1 with m2 × 2^e2. -/
def cmpPow (m1 : Nat) (e1 : Int) (m2 : Nat) (e2 : Int) : Ordering :=
  let e := min e1 e2
  compare (m1 * 2 ^ (e1 - e).toNat) (m2 * 2 ^ (e2 - e).toNat)

/-- Rounds a non-zero number to L6 (R77, R78). -/
def roundL6 (rm : Rm) (neg : Bool) (m : Nat) (e : Int) : Nat × Conds :=
  let n : Int := (Nat.log2 m : Int) + e
  let bounds : List Nat := if rm == .rne then [0x8B97, 0xA5FF, 0xC567, 0xEAC1] else [l6T 1, l6T 2, l6T 3]
  let q := (bounds.filter fun b => cmpPow m e b (n - 15) != .lt).length
  let c : Int := 16 + 4 * n + q
  let away := (rm == .rup && !neg) || (rm == .rdn && neg)
  let exact := c ≥ 1 && cmpPow m e (l6T (c % 4).toNat) (c / 4 - 4 - 15) == .eq
  let c' := if away && !exact then c + 1 else c
  if c' < 1 then (b2n neg * 32 + b2n away, Conds.unf)
  else if c' > 31 then (b2n neg * 32 + 31, Conds.ovf)
  else (b2n neg * 32 + c'.toNat, if exact then Conds.none else Conds.inx)

/-- Rounds a non-zero number to an integer format, saturating (R65, R77). -/
def roundInt (f : CvtFmt) (rm : Rm) (neg : Bool) (m : Nat) (e : Int) : Nat × Conds :=
  let (n, inx) := roundAt rm neg m e 0
  let v : Int := if neg then -(n : Int) else n
  let lo : Int := if f == .i32 then -(2 ^ 31) else 0
  let hi : Int := if f == .i32 then 2 ^ 31 - 1 else 2 ^ 32 - 1
  if v < lo then (wrapTo 32 lo, Conds.inv)
  else if v > hi then (wrapTo 32 hi, Conds.inv)
  else (wrapTo 32 v, if inx then Conds.inx else Conds.none)

/-- round(x, fmt, mode) of (−1)^neg × m × 2^e, with its conditions (R76 to R78). A zero keeps its sign. -/
def roundTo (f : CvtFmt) (rm : Rm) (neg : Bool) (m : Nat) (e : Int) : Nat × Conds :=
  match f with
  | .l6 => if m == 0 then (b2n neg * 32, Conds.none) else roundL6 rm neg m e
  | .i32 | .n32 => if m == 0 then (0, Conds.none) else roundInt f rm neg m e
  | .f32 | .bf16 | .f16 | .e4m3 | .e5m2 =>
    if m == 0 then (f.signed neg 0, Conds.none) else roundFloat f rm neg m e

/-- An infinity in a format (R77). -/
def ofInf (f : CvtFmt) (rm : Rm) (neg : Bool) : Nat × Conds :=
  match f with
  | .i32 => (if neg then 0x80000000 else 0x7FFFFFFF, Conds.inv)
  | .n32 => (if neg then 0 else 0xFFFFFFFF, Conds.inv)
  | .l6 => (b2n neg * 32 + 31, Conds.ovf)
  | .e4m3 => overflowed f rm neg
  | .f32 | .bf16 | .f16 | .e5m2 => (f.signed neg f.infCode, Conds.none)

/-- A NaN in a format: canonical, or 0 with invalid where the format has none (R71, R77). -/
def ofNan (f : CvtFmt) (quiet : Bool) : Nat × Conds :=
  match f with
  | .i32 | .n32 | .l6 => (0, Conds.inv)
  | .f32 | .bf16 | .f16 | .e4m3 | .e5m2 => (f.nan, Conds.invIf (!quiet))

/-- A value in a format, rounded once. -/
def toFmt (f : CvtFmt) (rm : Rm) : Val → Nat × Conds
  | .nan q => ofNan f q
  | .inf n => ofInf f rm n
  | .num n m e => roundTo f rm n m e

/-- cvt from one format to another (R111). -/
def convert (src dst : CvtFmt) (rm : Rm) (x : Nat) : Nat × Conds := toFmt dst rm (valOf src x)

/-- The negated value. -/
def Val.neg : Val → Val
  | .nan q => .nan q
  | .inf n => .inf (!n)
  | .num n m e => .num (!n) m e

/-- The value is a signalling NaN. -/
def Val.snan : Val → Bool
  | .nan q => !q
  | .inf _ => false
  | .num _ _ _ => false

/-- The value is a NaN. -/
def Val.isNan : Val → Bool
  | .nan _ => true
  | .inf _ => false
  | .num _ _ _ => false

/-- The value is an infinity. -/
def Val.isInf : Val → Bool
  | .inf _ => true
  | .nan _ => false
  | .num _ _ _ => false

/-- The value is a zero. -/
def Val.isZero : Val → Bool
  | .num _ m _ => m == 0
  | .nan _ => false
  | .inf _ => false

/-- The sign of a value that is not a NaN. -/
def Val.sign : Val → Bool
  | .nan _ => false
  | .inf n => n
  | .num n _ _ => n

/-- A signed significand. -/
def signedMag (neg : Bool) (m : Nat) : Int := if neg then -(m : Int) else m

/-- The exact sum of two numbers, with the sign that IEEE 754 gives an exact zero (R76). -/
def sumVal (rm : Rm) (a b : Val) : Val :=
  match a, b with
  | .nan q, _ => .nan q
  | _, .nan q => .nan q
  | .inf x, .inf y => if x == y then .inf x else .nan true
  | .inf x, .num _ _ _ => .inf x
  | .num _ _ _, .inf y => .inf y
  | .num n1 m1 e1, .num n2 m2 e2 =>
    let e := min e1 e2
    let v := signedMag n1 (m1 * 2 ^ (e1 - e).toNat) + signedMag n2 (m2 * 2 ^ (e2 - e).toNat)
    if v == 0 then .num (if m1 == 0 && m2 == 0 && n1 == n2 then n1 else rm == .rdn) 0 0
    else .num (v < 0) v.natAbs e

/-- The exact product of two values. -/
def mulVal (a b : Val) : Val :=
  match a, b with
  | .nan q, _ => .nan q
  | _, .nan q => .nan q
  | .inf x, .inf y => .inf (x != y)
  | .inf x, .num n m _ => if m == 0 then .nan true else .inf (x != n)
  | .num n m _, .inf y => if m == 0 then .nan true else .inf (n != y)
  | .num n1 m1 e1, .num n2 m2 e2 => .num (n1 != n2) (m1 * m2) (e1 + e2)

/-- Zero times infinity. -/
def zeroInf (a b : Val) : Bool := (a.isZero && b.isInf) || (a.isInf && b.isZero)

/-- Infinities of opposite signs. -/
def infMinusInf (a b : Val) : Bool := a.isInf && b.isInf && a.sign != b.sign

/-- A result computed from NaN operands or an invalid operation: the canonical NaN (R71, R107). -/
def invalidOr (f : CvtFmt) (inv isNan : Bool) (r : Nat × Conds) : Nat × Conds :=
  if inv || isNan then (f.nan, Conds.invIf inv) else r

/-- a + b, rounded once (R107, R110). -/
def faddF (f : CvtFmt) (rm : Rm) (a b : Val) : Nat × Conds :=
  invalidOr f (a.snan || b.snan || infMinusInf a b) (a.isNan || b.isNan) (toFmt f rm (sumVal rm a b))

/-- a × b, rounded once (R107, R110). -/
def fmulF (f : CvtFmt) (rm : Rm) (a b : Val) : Nat × Conds :=
  invalidOr f (a.snan || b.snan || zeroInf a b) (a.isNan || b.isNan) (toFmt f rm (mulVal a b))

/-- a × b + d, rounded once; 0 × inf is invalid even beside a quiet NaN (R107, R110). -/
def ffmaF (f : CvtFmt) (rm : Rm) (a b d : Val) : Nat × Conds :=
  let p := mulVal a b
  invalidOr f (a.snan || b.snan || d.snan || zeroInf a b || infMinusInf p d) (a.isNan || b.isNan || d.isNan)
    (toFmt f rm (sumVal rm p d))

/-- The order of two values that are not NaNs; −0 equals +0. -/
def cmpVal (a b : Val) : Ordering :=
  match a, b with
  | .inf x, .inf y => if x == y then .eq else if x then .lt else .gt
  | .inf x, _ => if x then .lt else .gt
  | _, .inf y => if y then .gt else .lt
  | .num n1 m1 e1, .num n2 m2 e2 =>
    let e := min e1 e2
    compare (signedMag n1 (m1 * 2 ^ (e1 - e).toNat)) (signedMag n2 (m2 * 2 ^ (e2 - e).toNat))
  | .nan _, .num _ _ _ => .eq
  | .num _ _ _, .nan _ => .eq
  | .nan _, .nan _ => .eq

/-- The order of minimumNumber and maximumNumber: −0 below +0 (R87). -/
def cmpTotal (a b : Val) : Ordering :=
  match cmpVal a b with
  | .eq => if a.sign && !b.sign then .lt else if !a.sign && b.sign then .gt else .eq
  | o => o

/-- fcmp: the predicate and the conditions (R103). -/
def fcmpF (c : FCond) (a b : Val) : Bool × Conds :=
  let nan := a.isNan || b.isNan
  let o := cmpVal a b
  let loud := match c with
    | .lt | .le | .gt | .ge => nan
    | .eq | .ne | .un | .ord => a.snan || b.snan
  let r := match c with
    | .eq => !nan && o == .eq
    | .ne => nan || o != .eq
    | .lt => !nan && o == .lt
    | .le => !nan && o != .gt
    | .gt => !nan && o == .gt
    | .ge => !nan && o != .lt
    | .un => nan
    | .ord => !nan
  (r, Conds.invIf loud)

/-- minimumNumber and maximumNumber of two codes of a format (R87, R108). -/
def fminmaxF (f : CvtFmt) (op : MinMax) (x y : Nat) : Nat × Conds :=
  let a := valOf f x
  let b := valOf f y
  let x := x % 2 ^ f.width
  let y := y % 2 ^ f.width
  let c := Conds.invIf (a.snan || b.snan)
  if a.isNan && b.isNan then (f.nan, c)
  else if a.isNan then (y, c)
  else if b.isNan then (x, c)
  else
    match op with
    | .min => (if cmpTotal a b == .gt then y else x, c)
    | .max => (if cmpTotal a b == .lt then y else x, c)

/-- fabs, fneg and fcopysign of FP32 codes (R108). -/
def fsignF (op : FSignOp) (x y : Nat) : Nat × Conds :=
  let a := valOf .f32 x
  if a.isNan then ofNan .f32 (!a.snan)
  else
    let mag := x % 2 ^ 31
    match op with
    | .abs => (mag, Conds.none)
    | .neg => (mag + b2n (!bitOf x 31) * 2 ^ 31, Conds.none)
    | .copysign => (mag + b2n (bitOf y 31) * 2 ^ 31, Conds.none)

/-- frnd: an integral FP32 value, never inexact (R109). -/
def frndF (rm : Rm) (x : Nat) : Nat × Conds :=
  match valOf .f32 x with
  | .nan q => ofNan .f32 q
  | .inf n => (CvtFmt.signed .f32 n (CvtFmt.infCode .f32), Conds.none)
  | .num n m e => ((roundTo .f32 .rne n (roundAt rm n m e 0).1 0).1, Conds.none)

/-! ### Transcendentals (R89 to R92)

Each value is found to far more bits than any rounding needs, as an integer count of 2^−512, and passed on with a bit
that says that the true value lies strictly above it. -/

/-- Fraction bits of the fixed-point values. -/
def fixP : Nat := 512
/-- One in fixed point. -/
def fixOne : Nat := 2 ^ 512
/-- floor(π × 2^512). -/
def fixPi : Nat :=
  0x3243f6a8885a308d313198a2e03707344a4093822299f31d0082efa98ec4e6c89452821e638d01377be5466cf34e90c6cc0ac29b7c97c50dd3f84d5b5b5470917
/-- floor(ln 2 × 2^512). -/
def fixLn2 : Nat :=
  0xb17217f7d1cf79abc9e3b39803f2f6af40f343267298b62d8a0d175b8baafa2be7b876206debac98559552fb4afa1b10ed2eae35c138214427573b291169b825

/-- m × 2^e in fixed point, rounded down. -/
def fixOf (m : Nat) (e : Int) : Nat :=
  if e + fixP ≥ 0 then m * 2 ^ (e + fixP).toNat else m / 2 ^ (-(e + fixP)).toNat

/-- The sum of y^i / i! from the term `t` of index `i`, for `n` terms. -/
def expSeries : Nat → Nat → Nat → Nat → Nat
  | 0, _, _, _ => 0
  | n + 1, i, t, y => t + expSeries n (i + 1) (t * y / fixOne / (i + 1)) y

/-- e^y for 0 ≤ y < 1 in fixed point. -/
def fixExp (y : Nat) : Nat := expSeries 110 0 fixOne y

/-- 2^f for a fraction 0 ≤ f < 1 in fixed point. -/
def fixExp2 (f : Nat) : Nat := fixExp (f * fixLn2 / fixOne)

/-- The sum of z^(2i+1) / (2i+1) from the power `t`, for `n` terms. -/
def atanhSeries : Nat → Nat → Nat → Nat → Nat
  | 0, _, _, _ => 0
  | n + 1, i, t, z2 => t / (2 * i + 1) + atanhSeries n (i + 1) (t * z2 / fixOne) z2

/-- ln g for 1 ≤ g < 2 in fixed point. -/
def fixLn (g : Nat) : Nat :=
  let z := (g - fixOne) * fixOne / (g + fixOne)
  2 * atanhSeries 170 0 z (z * z / fixOne)

/-- The alternating series of sine and cosine: t, −t r² / ((i+1)(i+2)), and so on, for `n` terms. -/
def trigSeries : Nat → Nat → Int → Int → Int
  | 0, _, _, _ => 0
  | n + 1, i, t, r2 => t + trigSeries n (i + 2) (-(t * r2 / (fixOne : Int) / ((i + 1) * (i + 2) : Nat))) r2

/-- sin r and cos r for 0 ≤ r < 2 in fixed point. -/
def fixSin (r : Nat) : Int := trigSeries 60 1 r ((r * r / fixOne : Nat) : Int)
def fixCos (r : Nat) : Int := trigSeries 60 0 fixOne ((r * r / fixOne : Nat) : Int)

/-- The integer square root, bit by bit from bit `n − 1` down. -/
def isqrtFrom : Nat → Nat → Nat → Nat
  | 0, r, _ => r
  | n + 1, r, x => isqrtFrom n (if (r + 2 ^ n) * (r + 2 ^ n) ≤ x then r + 2 ^ n else r) x

/-- The integer square root of a number below 2^400. -/
def isqrt (x : Nat) : Nat := isqrtFrom 200 0 x

/-- A value that is not a dyadic number: (−1)^neg × (m + a fraction strictly between 0 and 1) × 2^e. -/
def above (neg : Bool) (m : Nat) (e : Int) : Val := .num neg (2 * m + 1) (e - 1)

/-- 1 / (m × 2^e). -/
def recipVal (neg : Bool) (m : Nat) (e : Int) : Val :=
  let k := Nat.log2 m + 64
  if 2 ^ k % m == 0 then .num neg (2 ^ k / m) (-(e + k)) else above neg (2 ^ k / m) (-(e + k))

/-- The square root of m × 2^e. -/
def sqrtVal (m : Nat) (e : Int) : Val :=
  let (m, e) := if e % 2 == 0 then (m, e) else (2 * m, e - 1)
  let r := isqrt (m * 2 ^ 128)
  if r * r == m * 2 ^ 128 then .num false r (e / 2 - 64) else above false r (e / 2 - 64)

/-- 1 over the square root of m × 2^e. -/
def rsqrtVal (m : Nat) (e : Int) : Val :=
  let (m, e) := if e % 2 == 0 then (m, e) else (2 * m, e - 1)
  let r := isqrt (2 ^ 256 / m)
  if r * r * m == 2 ^ 256 then .num false r (-(e / 2) - 128) else above false r (-(e / 2) - 128)

/-- 2^x of x = (−1)^neg × m × 2^e, whose result lies far outside FP32 when |x| ≥ 256. -/
def exp2Val (neg : Bool) (m : Nat) (e : Int) : Val :=
  if cmpPow m e 256 0 != .lt then .num false 1 (if neg then -1000 else 1000)
  else
    let x := signedMag neg (fixOf m e)
    let n := x / (fixOne : Int)
    let f := (x % (fixOne : Int)).toNat
    if f == 0 then .num false 1 n else above false (fixExp2 f) (n - fixP)

/-- log2 of m × 2^e. -/
def log2Val (m : Nat) (e : Int) : Val :=
  let l := Nat.log2 m
  let k : Int := l + e
  if m == 2 ^ l then .num (k < 0) k.natAbs 0
  else
    let y : Int := k * fixOne + ((fixLn (fixOf m (-(l : Int))) * fixOne / fixLn2 : Nat) : Int)
    if y < 0 then above true ((-y).toNat - 1) (-(fixP : Int)) else above false y.toNat (-(fixP : Int))

/-- sin or cos of (−1)^neg × m × 2^e, reduced by quarter turns. -/
def trigVal (isCos neg : Bool) (m : Nat) (e : Int) : Val :=
  let x := fixOf m e
  let q := 2 * x / fixPi
  let r := x - q * fixPi / 2
  let y := match (q + b2n isCos) % 4 with
    | 0 => fixSin r
    | 1 => fixCos r
    | 2 => -fixSin r
    | _ => -fixCos r
  let y := if neg && !isCos then -y else y
  above (y < 0) y.natAbs (-(fixP : Int))

/-- tanh of (−1)^neg × m × 2^e, which differs from ±1 by far less than any rounding sees when |x| ≥ 128. -/
def tanhVal (neg : Bool) (m : Nat) (e : Int) : Val :=
  let x := if cmpPow m e 128 0 == .lt then fixOf m e else 128 * fixOne
  let y := 2 * x * fixOne / fixLn2
  let k := (y + fixOne - 1) / fixOne
  let t := fixExp2 (k * fixOne - y) / 2 ^ k
  above neg ((fixOne - t) * fixOne / (fixOne + t) - 1) (-(fixP : Int))

/-- The special inputs of the transcendental functions (R91); none where the function is evaluated. -/
def fspecSpecial (fn : Fn) (v : Val) : Option (Nat × Conds) :=
  let inf (n : Bool) := CvtFmt.signed .f32 n (CvtFmt.infCode .f32)
  let zero (n : Bool) := CvtFmt.signed .f32 n 0
  let bad := (CvtFmt.nan .f32, Conds.inv)
  match fn, v with
  | _, .nan q => some (ofNan .f32 q)
  | .rcp, .inf n => some (zero n, Conds.none)
  | .rcp, .num n m _ => if m == 0 then some (inf n, Conds.dz) else none
  | .rsqrt, .inf n => some (if n then bad else (zero false, Conds.none))
  | .rsqrt, .num n m _ => if m == 0 then some (inf n, Conds.dz) else if n then some bad else none
  | .sqrt, .inf n => some (if n then bad else (inf false, Conds.none))
  | .sqrt, .num n m _ => if m == 0 then some (zero n, Conds.none) else if n then some bad else none
  | .exp2, .inf n => some (if n then zero false else inf false, Conds.none)
  | .exp2, .num _ m _ => if m == 0 then some (0x3F800000, Conds.none) else none
  | .log2, .inf n => some (if n then bad else (inf false, Conds.none))
  | .log2, .num n m _ => if m == 0 then some (inf true, Conds.dz) else if n then some bad else none
  | .sin, .inf _ => some bad
  | .sin, .num n m _ => if m == 0 then some (zero n, Conds.none) else none
  | .cos, .inf _ => some bad
  | .cos, .num _ m _ => if m == 0 then some (0x3F800000, Conds.none) else none
  | .tanh, .inf n => some (CvtFmt.signed .f32 n 0x3F800000, Conds.none)
  | .tanh, .num n m _ => if m == 0 then some (zero n, Conds.none) else none

/-- The exact value of a function at a number that is not a special input (R89). -/
def fnVal (fn : Fn) (neg : Bool) (m : Nat) (e : Int) : Val :=
  match fn with
  | .rcp => recipVal neg m e
  | .rsqrt => rsqrtVal m e
  | .sqrt => sqrtVal m e
  | .exp2 => exp2Val neg m e
  | .log2 => log2Val m e
  | .sin => trigVal false neg m e
  | .cos => trigVal true neg m e
  | .tanh => tanhVal neg m e

/-- A subnormal result flushed to the zero of its sign (R89, R92). -/
def flushed (f : CvtFmt) (r : Nat × Conds) : Nat × Conds :=
  if isTinyCode f r.1 && bitsOf r.1 0 f.fb != 0 then (f.signed (bitOf r.1 (f.width - 1)) 0, r.2.or Conds.unf) else r

/-- The FP32 function at a value, in the fast or the accurate grade (R89). -/
def fspec32 (fn : Fn) (fast : Bool) (v : Val) : Nat × Conds :=
  match fspecSpecial fn v, v with
  | some r, _ => r
  | none, .num n m e =>
    let big := (fn == .sin || fn == .cos) && cmpPow m e 1 15 == .gt
    if fast && !big then flushed .f32 (toFmt .f32 .rz (fnVal fn n m e)) else toFmt .f32 .rne (fnVal fn n m e)
  | none, .nan q => ofNan .f32 q
  | none, .inf n => (CvtFmt.signed .f32 n (CvtFmt.infCode .f32), Conds.none)

/-- The conditions of a narrow result from those of the FP32 evaluation and of the last rounding: what either raises, but for
underflow, which is judged by the narrow result (R72; log 66). -/
def narrowConds (f : CvtFmt) (x : Nat) (c : Conds) : Conds := { c with unfl := c.inexact && isTinyCode f x }

/-- fspec (R89 to R92, R114): a narrow input is widened exactly, and the FP32 result rounded once. A subnormal input that the
fast grade takes as zero raises no inexact of its own: the result is the exact value at zero (log 65). -/
def fspecF (fn : Fn) (gr : Grade) (f : FFmt) (x : Nat) : Nat × Conds :=
  let fast := gr == .fast
  let v := if fast && isTinyCode f.cvt x then Val.num (bitOf x (f.cvt.width - 1)) 0 0 else valOf f.cvt x
  let r := fspec32 fn fast v
  match f with
  | .f32 => r
  | .bf16 | .f16 =>
    if v.isNan then ofNan f.cvt (!v.snan)
    else
      let n := toFmt f.cvt .rne (valOf .f32 r.1)
      let n := if fast then flushed f.cvt n else n
      (n.1, narrowConds f.cvt n.1 (r.2.or n.2))

/-! ### Reductions (R87, R88) -/

/-- The identity of a reduction (R87). -/
def RedOp.ident : RedOp → Word
  | .addF => 0x80000000
  | .addI => 0
  | .maxF => 0xFF800000
  | .minF => 0x7F800000

/-- One step of a reduction (R87). -/
def redStep (op : RedOp) (x y : Word) : Word :=
  match op with
  | .addF => BitVec.ofNat 32 (faddF .f32 .rne (valOf .f32 x.toNat) (valOf .f32 y.toNat)).1
  | .addI => x + y
  | .maxF => BitVec.ofNat 32 (fminmaxF .f32 .max x.toNat y.toNat).1
  | .minF => BitVec.ofNat 32 (fminmaxF .f32 .min x.toNat y.toNat).1

/-- One level of the tree: neighbours combined in pairs. -/
def redLevel (op : RedOp) : List Word → List Word
  | x :: y :: r => redStep op x y :: redLevel op r
  | x => x

/-- REDT over the 16 positions, none where a slot is not in the execution mask (R87). The one operand of an NBV 1 reduction is
passed on as it is, a NaN with its payload (log 65). -/
def redTree (op : RedOp) (nbv : Nat) (xs : List (Option Word)) : Word :=
  if nbv == 1 && op != .addI then
    match xs.filterMap id with
    | [] => op.ident
    | x :: r => r.foldl (redStep op) x
  else
    let x := xs.map fun o => o.getD op.ident
    (redLevel op (redLevel op (redLevel op (redLevel op x)))).headD op.ident

/-- The inclusive prefixes of SCAN from the value so far (R88). -/
def scanFrom (op : RedOp) (acc : Word) : List (Option Word) → List Word
  | [] => []
  | o :: r =>
    let y := redStep op acc (o.getD op.ident)
    y :: scanFrom op y r

/-- SCAN over the 16 positions (R88). y[0] is x[0] as it is, a NaN with its payload (log 65). -/
def scanAll (op : RedOp) (xs : List (Option Word)) : List Word :=
  match xs with
  | [] => []
  | o :: r => o.getD op.ident :: scanFrom op (o.getD op.ident) r

end Sys2Proof
end

