-- ==== Sys2Proof/WellFormed.lean ====
section
/-! DEFINITION. Which instruction words are well formed: the checks that the fate of an encoding makes on operands that
a field can hold but an instruction cannot take (R12, R65, R66, R67, R112, R113, R186, R234). -/

namespace Sys2Proof

/-- The register number is even: it can name a 64-bit operand (R12). -/
def even {n : Nat} (r : BitVec n) : Bool := r.toNat % 2 == 0

/-- The register number is a multiple of 4: it can name a 16-byte operand (R234). -/
def quad {n : Nat} (r : BitVec n) : Bool := r.toNat % 4 == 0

/-- The formats of cvt that are narrower than BF16 (R65). -/
def CvtFmt.tiny : CvtFmt → Bool
  | .e4m3 | .e5m2 | .l6 => true
  | .f32 | .bf16 | .f16 | .i32 | .n32 => false

/-- The integer formats of cvt (R65). -/
def CvtFmt.integer : CvtFmt → Bool
  | .i32 | .n32 => true
  | .f32 | .bf16 | .f16 | .e4m3 | .e5m2 | .l6 => false

/-- A pair of cvt formats that is not reserved (R65). -/
def cvtOk (src dst : CvtFmt) : Bool :=
  src != dst && !(src.tiny && dst.tiny) && !(src == .l6 && dst.integer) && !(dst == .l6 && src.integer)

/-- The indices that unpk takes (R113). -/
def PackFmt.elems : PackFmt → Nat
  | .e4m3 => 4
  | .e5m2 => 4
  | .l6 => 16
  | .bf16 => 2

/-- A group of three registers that stays within v63 when the format is L6 (R112, R113). -/
def PackFmt.fits (f : PackFmt) (r : VReg) : Bool := f != .l6 || r.toNat ≤ 61

/-- The scales of an MMA lie within v63 (R80, R186). -/
def sclOk (scl : Option (VReg × BitVec 2)) : Bool :=
  match scl with
  | none => true
  | some (vs, _) => vs.toNat ≤ 59

/-- The literal of WAITC holds no reserved value (R67, R259). -/
def waitcLitOk (x : Nat) : Bool :=
  bitsOf x 0 3 ≤ 4 && !(bitOf x 3 && (bitsOf x 0 3 == 0 || bitsOf x 0 3 == 1 || bitsOf x 0 3 == 4)) &&
    bitsOf x 16 16 == 0

/-- The literal of COMB holds no reserved value (R67, R262). -/
def combLitOk (x : Nat) : Bool := x / 2 ^ 6 == 0

/-- The literal and the register of METHREG hold no reserved value (R67, R261). -/
def methregLitOk (ka : KReg) (x : Nat) : Bool :=
  x / 2 ^ 12 == 0 && (!bitOf x 11 || (bitsOf x 6 5 == 0 && ka == 0))

/-- The register of SRR and SRW: a k register number with RK = 1 (R54). -/
def sysRegOk (reg : BitVec 6) (rk : Bool) : Bool := !rk || reg.toNat < 32

/-- The instruction passes every check that R66 and R67 make on the operands its fields hold. A step of the hardware
or of the host has no encoding and always passes. -/
def Instr.wf : Instr → Bool
  | .icmp k _ _ a b _ => (k == .i32 || k == .n32) || (even a && even b)
  | .add64 k d a b _ => even d && even a && (k == .addSx || even b)
  | .lea _ d a _ _ => even d && even a
  | .add64i d a _ => even d && even a
  | .cvt s t _ _ _ _ => cvtOk s t
  | .fsign op _ _ b _ => op == .copysign || b == 0
  | .pack f d _ _ _ => f.fits d
  | .unpk f j _ a _ => j.toNat < f.elems && f.fits a
  | .ualu op _ _ b _ => op != .umov || b == 0
  | .bcast _ a w64 _ _ => !w64 || even a
  | .bart op d _ _ => op == .word || d.toNat < 4
  | .mmaE4m3 _ _ va scl _ => va.toNat ≤ 48 && sclOk scl
  | .mmaE5m2 _ _ va scl _ => va.toNat ≤ 48 && sclOk scl
  | .mmaL6 _ _ va scl _ => va.toNat ≤ 52 && sclOk scl
  | .mmaI8 _ _ va _ => va.toNat ≤ 48
  | .mmaBf16 _ _ va _ => va.toNat ≤ 48
  | .mmaF16 _ _ va _ => va.toNat ≤ 48
  | .mramp n _ => n.toNat ≤ 10
  | .ldlB64 d _ => even d
  | .stlB64 d _ => even d
  | .ldsB64 d _ => even d
  | .stsB64 d _ => even d
  | .ldxB64 d _ => even d
  | .stxB64 d _ => even d
  | .ldsB128 d _ => quad d
  | .stsB128 d _ => quad d
  | .ldxB128 d _ => quad d
  | .stxB128 d _ => quad d
  | .cas d _ => even d
  | .casv d _ => even d
  | .caspt d _ => quad d
  | .waitc d _ x => even d && waitcLitOk x.toNat
  | .comb d _ x => quad d && combLitOk x.toNat
  | .methreg ka x _ => methregLitOk ka x.toNat
  | .srr reg _ rk => sysRegOk reg rk
  | .srw reg _ rk => sysRegOk reg rk
  | _ => true

/-- No field holds a reserved value, and every unused field is zero: the part of `Instr.wf` that REP checks on the word that
it repeats (R57). The registers that operands name are left to R125 and to the issue of each repeat. -/
def Instr.encOk : Instr → Bool
  | .cvt s t _ _ _ _ => cvtOk s t
  | .fsign op _ _ b _ => op == .copysign || b == 0
  | .unpk f j _ _ _ => j.toNat < f.elems
  | .ualu op _ _ b _ => op != .umov || b == 0
  | .bart op d _ _ => op == .word || d.toNat < 4
  | .mramp n _ => n.toNat ≤ 10
  | .waitc _ _ x => waitcLitOk x.toNat
  | .comb _ _ x => combLitOk x.toNat
  | .methreg ka x _ => methregLitOk ka x.toNat
  | .srr reg _ rk => sysRegOk reg rk
  | .srw reg _ rk => sysRegOk reg rk
  | _ => true

end Sys2Proof
end

