-- ==== Sys2Proof/Decode.lean ====
section
/-! DEFINITION. Decoding and encoding of instruction words (R46 to R67). A word is a number below 2^32. `pick` reads the
fields that the format of the word's opcode gives; `decode` then refuses a word that holds a non-zero reserved or unused
field (the encoding of what was read is not the word itself) and a word whose operands fail R66. `encode` is written from
the same tables. Steps of the hardware and of the host have no encoding. -/

namespace Sys2Proof

/-- The value at a code of a table (R64). -/
def ofCode {α : Type} (t : List α) (n : Nat) : Option α := t[n]?

/-- The code of a value in a table (R64). -/
def codeOf {α : Type} [BEq α] (t : List α) (a : α) : Nat := t.idxOf a

/-! The sub-operation tables of R64, each in the order of its codes. -/

def satKinds : List SatKind := [.wrap, .satI, .satN]
def mulKinds : List MulKind := [.lo, .hiI, .hiN]
def minMaxKinds : List MinMaxKind := [.minI, .maxI, .minN, .maxN]
def absKinds : List AbsKind := [.abs, .neg, .absSat]
def logicOps : List LogicOp := [.and, .or, .xor, .andn]
def bitOps : List BitOp := [.not, .popc, .clz, .brev]
def shiftOps : List ShiftOp := [.shl, .shr, .sar, .rotl]
def sgns : List Sgn := [.nat, .int]
def icmpKinds : List IcmpKind := [.i32, .n32, .i64, .n64]
def conds : List Cond := [.eq, .ne, .lt, .le, .gt, .ge]
def add64Kinds : List Add64Kind := [.add, .sub, .addSx]
def rms : List Rm := [.rne, .rz, .rup, .rdn]
def minMaxes : List MinMax := [.min, .max]
def ffmts : List FFmt := [.f32, .bf16, .f16]
def hfmts : List HFmt := [.bf16, .f16]
def fconds : List FCond := [.eq, .ne, .lt, .le, .gt, .ge, .un, .ord]
def fsignOps : List FSignOp := [.abs, .neg, .copysign]
def cvtFmts : List CvtFmt := [.f32, .bf16, .f16, .e4m3, .e5m2, .l6, .i32, .n32]
def packFmts : List PackFmt := [.e4m3, .e5m2, .l6, .bf16]
def fns : List Fn := [.rcp, .rsqrt, .sqrt, .exp2, .log2, .sin, .cos, .tanh]
def grades : List Grade := [.fast, .accurate]
def randKinds : List RandKind := [.b32, .f32]
def plopOps : List PlopOp := [.and, .or, .xor, .andn, .orn, .nand, .nor, .xnor]
def shflModes : List ShflMode := [.idx, .up, .down, .xor]
def voteOps : List VoteOp := [.any, .all, .eq]
def redOps : List RedOp := [.addF, .addI, .maxF, .minF]
def fragqKinds : List FragqKind := [.mask, .count, .occ, .spill]
def ualuOps : List UaluOp :=
  [.uadd, .usub, .umul, .uand, .uor, .uxor, .ushl, .ushr, .usar, .uminI, .umaxI, .uminN, .umaxN, .umov]
def ucmpOps : List UcmpOp := [.eq, .ne, .ltI, .leI, .gtI, .geI, .ltN, .leN, .gtN, .geN]
def umovlKinds : List UmovlKind := [.sext, .zext, .hi]
def bartOps : List BartOp := [.word, .q, .take]
def ress : List Res := [.smem, .tile]
def drainFmts : List DrainFmt := [.f32, .bf16, .f16, .e4m3, .e5m2]
def cpyForms : List CpyForm := [.in1d, .in2d, .in3d, .inGather, .out1d, .out2d, .out3d, .outScatter]
def fenceKinds : List FenceKind := [.full, .rel, .acq]
def scopes : List Scope := [.thread, .group, .team, .core, .die, .package, .domain, .system]
def flushKinds : List FlushKind := [.wb, .inv, .wbinv]
def collForms : List CollForm := [.allreduce, .reducescatter, .allgather, .bcast, .alltoall]
def updOpts : List UpdOpt := [.sgdm, .adam, .lamb]
def updMasks : List UpdMask := [.none, .m24, .m48]
def placeOps : List PlaceOp := [.promote, .demote, .pin, .unpin]
def engKinds : List EngKind := [.copy, .collective, .rotation, .exchange, .update, .placement, .snapshot]

/-- BR's modes: 00 per-thread, 10 any, 11 all (R63). -/
def BrMode.code : BrMode → Nat
  | .thread => 0
  | .any => 2
  | .all => 3

/-- The BR mode of a code; 01 is reserved (R63). -/
def BrMode.ofBits : Nat → Option BrMode
  | 0 => some .thread
  | 2 => some .any
  | 3 => some .all
  | _ => none

/-! ### Encoding -/

/-- GN and GP in their T-format places (R47). -/
def encG (g : Guard) : Nat := b2n g.neg * 32 + g.p.toNat * 4

/-- QGE, QGN and QG in their K-format places (R50). -/
def encQ : UGuard → Nat
  | none => 0
  | some (n, q) => 256 + b2n n * 128 + q.toNat * 32

/-- Format T (R47). -/
def fmtT (op d a b : Nat) (g : Guard) (m : Nat) : Nat :=
  op * 2 ^ 24 + d * 2 ^ 18 + a * 2 ^ 12 + b * 2 ^ 6 + encG g + m

/-- Format I (R49). -/
def fmtI (op d a i : Nat) : Nat := op * 2 ^ 24 + d * 2 ^ 18 + a * 2 ^ 12 + i

/-- Format K (R50). -/
def fmtK (op kd ka kb : Nat) (g : UGuard) (f : Nat) : Nat :=
  op * 2 ^ 24 + kd * 2 ^ 19 + ka * 2 ^ 14 + kb * 2 ^ 9 + encQ g + f

/-- Format M on a path (R51). -/
def fmtM (op path : Nat) (d : VReg) (m : MAddr) : Nat :=
  op * 2 ^ 24 + d.toNat * 2 ^ 18 + m.kbase.toNat * 2 ^ 13 + b2n m.xi * 2 ^ 12 + m.off.toNat * 2 ^ 6 + path * 8 +
    m.gp.toNat

/-- BAR and BCE in their X.a places (R52). -/
def encBar : Option BReg → Nat
  | none => 0
  | some b => b.toNat * 128 + 32

/-- Format X.a (R52). -/
def fmtX (op td ta n : Nat) (f : Compl) (func : Nat) : Nat :=
  op * 2 ^ 24 + td * 2 ^ 20 + ta * 2 ^ 16 + n * 2 ^ 12 + encBar f.bar + b2n f.foe * 64 + func

/-- VS, SBYTE and SCL in their X.m places (R53). -/
def encScl : Option (VReg × BitVec 2) → Nat
  | none => 0
  | some (vs, y) => vs.toNat * 16 + y.toNat * 4 + 1

/-- Format X.m (R53). -/
def fmtXm (op : Nat) (z tb : XReg) (va : VReg) (scl : Option (VReg × BitVec 2)) (ru : Bool) : Nat :=
  op * 2 ^ 24 + z.toNat * 2 ^ 20 + tb.toNat * 2 ^ 16 + va.toNat * 2 ^ 10 + encScl scl + b2n ru * 2

/-- Format S (R54). -/
def fmtS (op reg idx : Nat) (rk : Bool) : Nat := op * 2 ^ 24 + reg * 2 ^ 18 + idx * 2 ^ 6 + b2n rk * 32

/-- The condition over the predicate that a comparison writes (R64, R102). -/
def condP (c : Nat) (p : PReg) : Nat := c * 8 + p.toNat

/-- The unguarded guard, GP = 7 with GN = 0 (R48). -/
def Guard.all : Guard := ⟨false, 7⟩

/-- The words of an instruction, the literal of an L form second; a step of the hardware or host has none (R62 to R64). -/
def encode : Instr → List Nat
  | .iadd k d a b g => [fmtT 0x01 d.toNat a.toNat b.toNat g (codeOf satKinds k)]
  | .isub k d a b g => [fmtT 0x02 d.toNat a.toNat b.toNat g (codeOf satKinds k)]
  | .imul k d a b g => [fmtT 0x03 d.toNat a.toNat b.toNat g (codeOf mulKinds k)]
  | .imad k d a b g => [fmtT 0x04 d.toNat a.toNat b.toNat g (codeOf satKinds k)]
  | .iminmax k d a b g => [fmtT 0x05 d.toNat a.toNat b.toNat g (codeOf minMaxKinds k)]
  | .iabs k d a g => [fmtT 0x06 d.toNat a.toNat 0 g (codeOf absKinds k)]
  | .logic op d a b g => [fmtT 0x07 d.toNat a.toNat b.toNat g (codeOf logicOps op)]
  | .bitop op d a g => [fmtT 0x08 d.toNat a.toNat 0 g (codeOf bitOps op)]
  | .shift op d a b g => [fmtT 0x09 d.toNat a.toNat b.toNat g (codeOf shiftOps op)]
  | .bfe k d a b g => [fmtT 0x0A d.toNat a.toNat b.toNat g (codeOf sgns k)]
  | .bfi d a b g => [fmtT 0x0B d.toNat a.toNat b.toNat g 0]
  | .icmp k c p a b g => [fmtT 0x0C (condP (codeOf conds c) p) a.toNat b.toNat g (codeOf icmpKinds k)]
  | .sel d a b g => [fmtT 0x0D d.toNat a.toNat b.toNat g 0]
  | .add64 k d a b g => [fmtT 0x0E d.toNat a.toNat b.toNat g (codeOf add64Kinds k)]
  | .lea sh d a b g => [fmtT 0x0F d.toNat a.toNat b.toNat g sh.toNat]
  | .iaddi d a i => [fmtI 0x10 d.toNat a.toNat i.toNat]
  | .imuli d a i => [fmtI 0x11 d.toNat a.toNat i.toNat]
  | .andi d a i => [fmtI 0x12 d.toNat a.toNat i.toNat]
  | .ori d a i => [fmtI 0x13 d.toNat a.toNat i.toNat]
  | .xori d a i => [fmtI 0x14 d.toNat a.toNat i.toNat]
  | .shli d a n => [fmtI 0x15 d.toNat a.toNat n.toNat]
  | .shri d a n => [fmtI 0x16 d.toNat a.toNat n.toNat]
  | .sari d a n => [fmtI 0x17 d.toNat a.toNat n.toNat]
  | .icmpiI32 c p a i => [fmtI 0x18 (condP (codeOf conds c) p) a.toNat i.toNat]
  | .icmpiN32 c p a i => [fmtI 0x19 (condP (codeOf conds c) p) a.toNat i.toNat]
  | .movi d i => [fmtI 0x1A d.toNat 0 i.toNat]
  | .movl d x => [fmtI 0x1B d.toNat 0 0, x.toNat]
  | .add64i d a i => [fmtI 0x1C d.toNat a.toNat i.toNat]
  | .enter n => [fmtI 0x1D 0 0 n.toNat]
  | .fadd rm d a b g => [fmtT 0x20 d.toNat a.toNat b.toNat g (codeOf rms rm)]
  | .fsub rm d a b g => [fmtT 0x21 d.toNat a.toNat b.toNat g (codeOf rms rm)]
  | .fmul rm d a b g => [fmtT 0x22 d.toNat a.toNat b.toNat g (codeOf rms rm)]
  | .ffma rm d a b g => [fmtT 0x23 d.toNat a.toNat b.toNat g (codeOf rms rm)]
  | .fminmax op d a b g => [fmtT 0x24 d.toNat a.toNat b.toNat g (codeOf minMaxes op)]
  | .fcmp f c p a b g => [fmtT 0x25 (condP (codeOf fconds c) p) a.toNat b.toNat g (codeOf ffmts f)]
  | .fsign op d a b g => [fmtT 0x26 d.toNat a.toNat b.toNat g (codeOf fsignOps op)]
  | .padd2 f d a b g => [fmtT 0x28 d.toNat a.toNat b.toNat g (codeOf hfmts f)]
  | .pmul2 f d a b g => [fmtT 0x29 d.toNat a.toNat b.toNat g (codeOf hfmts f)]
  | .pfma2 f d a b g => [fmtT 0x2A d.toNat a.toNat b.toNat g (codeOf hfmts f)]
  | .pminmax2 f op d a b g =>
    [fmtT 0x2B d.toNat a.toNat b.toNat g (codeOf hfmts f * 2 + codeOf minMaxes op)]
  | .hadd f d a b g => [fmtT 0x2C d.toNat a.toNat b.toNat g (codeOf hfmts f)]
  | .hmul f d a b g => [fmtT 0x2D d.toNat a.toNat b.toNat g (codeOf hfmts f)]
  | .hfma f d a b g => [fmtT 0x2E d.toNat a.toNat b.toNat g (codeOf hfmts f)]
  | .cvt s t rm d a g => [fmtT 0x30 d.toNat a.toNat (codeOf cvtFmts s * 8 + codeOf cvtFmts t) g (codeOf rms rm)]
  | .pack f d a b g => [fmtT 0x31 d.toNat a.toNat b.toNat g (codeOf packFmts f)]
  | .unpk f j d a g => [fmtT 0x32 d.toNat a.toNat j.toNat g (codeOf packFmts f)]
  | .frnd rm d a g => [fmtT 0x33 d.toNat a.toNat 0 g (codeOf rms rm)]
  | .fspec fn gr f d a g => [fmtT 0x34 d.toNat a.toNat (codeOf grades gr * 8 + codeOf fns fn) g (codeOf ffmts f)]
  | .rand k d g => [fmtT 0x35 d.toNat 0 0 g (codeOf randKinds k)]
  | .plop op pd pa pb g => [fmtT 0x36 (condP (codeOf plopOps op) pd) pa.toNat pb.toNat g 0]
  | .pmovV d pa g => [fmtT 0x37 d.toNat pa.toNat 0 g 0]
  | .pmovP pd a g => [fmtT 0x37 pd.toNat a.toNat 0 g 1]
  | .join => [fmtT 0x38 0 0 0 Guard.all 0]
  | .rep n sd sa sb =>
    [0x39 * 2 ^ 24 + n.toNat * 2 ^ 18 + b2n sd * 2 ^ 17 + b2n sa * 2 ^ 16 + b2n sb * 2 ^ 15]
  | .br rcv g m disp => [0x40 * 2 ^ 24 + rcv.toNat * 2 ^ 6 + encG g + m.code, disp.toNat]
  | .call g disp => [fmtT 0x42 0 0 0 g 0, disp.toNat]
  | .callk ka g => [fmtK 0x43 0 ka.toNat 0 g 0]
  | .ret => [fmtT 0x44 0 0 0 Guard.all 0]
  | .exit g => [fmtT 0x45 0 0 0 g 0]
  | .ualu op d a b g => [fmtK 0x50 d.toNat a.toNat b.toNat g (codeOf ualuOps op)]
  | .ucmp op q a b g => [fmtK 0x51 q.toNat a.toNat b.toNat g (codeOf ucmpOps op)]
  | .umovl k d x g => [fmtK 0x52 d.toNat 0 0 g (codeOf umovlKinds k), x.toNat]
  | .uaddl d a x g => [fmtK 0x53 d.toNat a.toNat 0 g 0, x.toNat]
  | .qlop op qd qa qb g => [fmtK 0x54 qd.toNat qa.toNat qb.toNat g (codeOf plopOps op)]
  | .shfl m d a b g => [fmtT 0x58 d.toNat a.toNat b.toNat g (codeOf shflModes m)]
  | .vote op pd pa g => [fmtT 0x59 pd.toNat pa.toNat 0 g (codeOf voteOps op)]
  | .ballot d pa g => [fmtT 0x5A d.toNat pa.toNat 0 g 0]
  | .redt op d a g => [fmtT 0x5B d.toNat a.toNat 0 g (codeOf redOps op)]
  | .scan op d a g => [fmtT 0x5C d.toNat a.toNat 0 g (codeOf redOps op)]
  | .bcast kd a w64 src g =>
    [match src with
     | some s => fmtT 0x5D kd.toNat a.toNat (b2n w64 * 16 + s.toNat) g 0
     | none => fmtT 0x5D kd.toNat a.toNat (b2n w64 * 16) g 1]
  | .fragq k d g => [fmtT 0x5E d.toNat 0 0 g (codeOf fragqKinds k)]
  | .barinit b kb g => [fmtK 0x60 0 b.toNat kb.toNat g 0]
  | .barx arr b kb g => [fmtK 0x61 0 b.toNat kb.toNat g (b2n arr)]
  | .bara b g => [fmtK 0x62 0 b.toNat 0 g 0]
  | .barw kd b g =>
    [match kd with
     | some k => fmtK 0x63 k.toNat b.toNat 0 g 1
     | none => fmtK 0x63 0 b.toNat 0 g 0]
  | .bart op d b g => [fmtK 0x64 d.toNat b.toNat 0 g (codeOf bartOps op)]
  | .launch kd ka g => [fmtK 0x65 kd.toNat ka.toNat 0 g 0]
  | .cwait kd ka g =>
    [match ka with
     | some k => fmtK 0x66 kd.toNat k.toNat 0 g 0
     | none => fmtK 0x66 kd.toNat 0 0 g 1]
  | .acq what kd ka g => [fmtK 0x67 kd.toNat ka.toNat 0 g (codeOf ress what)]
  | .rel what ka g => [fmtK 0x68 0 ka.toNat 0 g (codeOf ress what)]
  | .tset t ka kb g => [fmtK 0x69 t.toNat ka.toNat kb.toNat g 0]
  | .tget kd t h g => [fmtK 0x6A kd.toNat t.toNat 0 g (b2n h)]
  | .mmaE4m3 z tb va scl ru => [fmtXm 0x70 z tb va scl ru]
  | .mmaE5m2 z tb va scl ru => [fmtXm 0x71 z tb va scl ru]
  | .mmaL6 z tb va scl ru => [fmtXm 0x72 z tb va scl ru]
  | .mmaI8 z tb va ru => [fmtXm 0x73 z tb va none ru]
  | .mmaBf16 z tb va ru => [fmtXm 0x74 z tb va none ru]
  | .mmaF16 z tb va ru => [fmtXm 0x75 z tb va none ru]
  | .mzero z bar => [fmtX 0x76 z.toNat 0 0 ⟨bar, false⟩ 0]
  | .mld z ta f => [fmtX 0x77 z.toNat ta.toNat 0 f 0]
  | .mst ta z f => [fmtX 0x78 z.toNat ta.toNat 0 f 0]
  | .mdrain fmt ta z kx clr f =>
    [match kx with
     | some k => fmtX 0x79 z.toNat ta.toNat k.toNat f (b2n clr * 16 + 8 + codeOf drainFmts fmt)
     | none => fmtX 0x79 z.toNat ta.toNat 0 f (b2n clr * 16 + codeOf drainFmts fmt)]
  | .mramp n g => [fmtK 0x7A 0 0 0 g n.toNat]
  | .ldlB32 d m => [fmtM 0x80 0 d m]
  | .ldlB64 d m => [fmtM 0x81 0 d m]
  | .stlB32 d m => [fmtM 0x82 0 d m]
  | .stlB64 d m => [fmtM 0x83 0 d m]
  | .ldsB32 d m => [fmtM 0x84 1 d m]
  | .ldsB64 d m => [fmtM 0x85 1 d m]
  | .ldsB128 d m => [fmtM 0x86 1 d m]
  | .stsB32 d m => [fmtM 0x87 1 d m]
  | .stsB64 d m => [fmtM 0x88 1 d m]
  | .stsB128 d m => [fmtM 0x89 1 d m]
  | .ldxB32 d m => [fmtM 0x8A 2 d m]
  | .ldxB64 d m => [fmtM 0x8B 2 d m]
  | .ldxB128 d m => [fmtM 0x8C 2 d m]
  | .stxB32 d m => [fmtM 0x8D 2 d m]
  | .stxB64 d m => [fmtM 0x8E 2 d m]
  | .stxB128 d m => [fmtM 0x8F 2 d m]
  | .cpy form td ta n f => [fmtX 0x90 td.toNat ta.toNat n.toNat f (codeOf cpyForms form)]
  | .put d m => [fmtM 0x91 5 d m]
  | .get d m => [fmtM 0x92 5 d m]
  | .waitp p ka g => [fmtK 0x93 0 ka.toNat 0 g p.toNat]
  | .fence k sc g => [fmtK 0x94 0 0 0 g (codeOf fenceKinds k * 8 + codeOf scopes sc)]
  | .afence g => [fmtK 0x95 0 0 0 g 0]
  | .hflush k ka kb g => [fmtK 0x96 0 ka.toNat kb.toNat g (codeOf flushKinds k)]
  | .dwfence g => [fmtK 0x97 0 0 0 g 0]
  | .methreg ka x g => [fmtK 0x98 0 ka.toNat 0 g 0, x.toNat]
  | .atomAddI32 d m => [fmtM 0xA0 6 d m]
  | .atomAddF32 d m => [fmtM 0xA1 6 d m]
  | .atomMinI32 d m => [fmtM 0xA2 6 d m]
  | .atomMaxI32 d m => [fmtM 0xA3 6 d m]
  | .atomMinN32 d m => [fmtM 0xA4 6 d m]
  | .atomMaxN32 d m => [fmtM 0xA5 6 d m]
  | .atomAnd d m => [fmtM 0xA6 6 d m]
  | .atomOr d m => [fmtM 0xA7 6 d m]
  | .atomXor d m => [fmtM 0xA8 6 d m]
  | .atomXchg d m => [fmtM 0xA9 6 d m]
  | .cas d m => [fmtM 0xAA 6 d m]
  | .casgt d m => [fmtM 0xAB 6 d m]
  | .casv d m => [fmtM 0xAC 6 d m]
  | .caspt d m => [fmtM 0xAD 6 d m]
  | .waitc d m x => [fmtM 0xAE 6 d m, x.toNat]
  | .comb d m x => [fmtM 0xAF 6 d m, x.toNat]
  | .coll form td ta n f => [fmtX 0xB0 td.toNat ta.toNat n.toNat f (codeOf collForms form)]
  | .rotOpen td n b => [fmtX 0xB1 td.toNat 0 n.toNat ⟨some b, false⟩ 0]
  | .rotRun ta n foe => [fmtX 0xB1 0 ta.toNat n.toNat ⟨none, foe⟩ 1]
  | .rotClose n => [fmtX 0xB1 0 0 n.toNat ⟨none, false⟩ 2]
  | .xchg td ta n f => [fmtX 0xB2 td.toNat ta.toNat n.toNat f 0]
  | .bpri n => [fmtX 0xB3 0 0 n.toNat ⟨none, false⟩ 0]
  | .bpriGet n => [fmtX 0xB3 0 0 n.toNat ⟨none, false⟩ 1]
  | .rsto ta n f => [fmtX 0xB4 0 ta.toNat n.toNat f 0]
  | .upd opt msk pair td ta n f =>
    [fmtX 0xB5 td.toNat ta.toNat n.toNat f (b2n pair * 16 + codeOf updMasks msk * 4 + codeOf updOpts opt)]
  | .pairst td ta n f => [fmtX 0xB6 td.toNat ta.toNat n.toNat f 0]
  | .place op ta n f => [fmtX 0xB7 0 ta.toNat n.toNat f (codeOf placeOps op)]
  | .pfence stripe => [fmtX 0xB8 0 0 0 ⟨none, false⟩ (b2n stripe)]
  | .step n bar => [fmtX 0xB9 0 0 n.toNat ⟨bar, false⟩ 0]
  | .snap n bar => [fmtX 0xBA 0 0 n.toNat ⟨bar, false⟩ 0]
  | .estat k n => [fmtX 0xBB 0 0 n.toNat ⟨none, false⟩ (codeOf engKinds k)]
  | .ewait k n => [fmtX 0xBC 0 0 n.toNat ⟨none, false⟩ (codeOf engKinds k)]
  | .srr reg idx rk => [fmtS 0xC0 reg.toNat idx.toNat rk]
  | .srw reg idx rk => [fmtS 0xC1 reg.toNat idx.toNat rk]
  | .trap c => [fmtS 0xC2 0 c.toNat false]
  | .reti => [fmtS 0xC3 0 0 false]
  | .rinj m => [fmtS 0xC4 0 m.toNat false]
  | .engs ka => [fmtS 0xC5 ka.toNat 0 true]
  | .engr ka => [fmtS 0xC6 ka.toNat 0 true]
  | .idle => [fmtS 0xC7 0 0 false]
  | .halt => [fmtS 0xC8 0 0 false]
  | _ => []

/-! ### Fields -/

/-- The field of `n` bits from bit `lo` (R2). -/
def fld (n lo w : Nat) : BitVec n := BitVec.ofNat n (w / 2 ^ lo)

def fD (w : Nat) : VReg := fld 6 18 w
def fA (w : Nat) : VReg := fld 6 12 w
def fB (w : Nat) : VReg := fld 6 6 w
def fI (w : Nat) : BitVec 12 := fld 12 0 w
def fG (w : Nat) : Guard := ⟨bitOf w 5, fld 3 2 w⟩
def fM (w : Nat) : Nat := bitsOf w 0 2
def fKD (w : Nat) : KReg := fld 5 19 w
def fKA (w : Nat) : KReg := fld 5 14 w
def fKB (w : Nat) : KReg := fld 5 9 w
def fQ (w : Nat) : UGuard := if bitOf w 8 then some (bitOf w 7, fld 2 5 w) else none
def fF (w : Nat) : Nat := bitsOf w 0 5
def fMA (w : Nat) : MAddr := ⟨fld 5 13 w, bitOf w 12, fld 6 6 w, fld 3 0 w⟩
def fTD (w : Nat) : XReg := fld 4 20 w
def fTA (w : Nat) : XReg := fld 4 16 w
def fN (w : Nat) : XReg := fld 4 12 w
def fBar (w : Nat) : Option BReg := if bitOf w 5 then some (fld 5 7 w) else none
def fC (w : Nat) : Compl := ⟨fBar w, bitOf w 6⟩
def fScl (w : Nat) : Option (VReg × BitVec 2) := if bitOf w 0 then some (fld 6 4 w, fld 2 2 w) else none
def fSR (w : Nat) : BitVec 6 := fld 6 18 w

/-- Opcodes 0x00 to 0x0F (R62, R64). -/
def pick0 (lo w : Nat) : Option Instr :=
  match lo with
  | 1 => (ofCode satKinds (fM w)).map fun k => .iadd k (fD w) (fA w) (fB w) (fG w)
  | 2 => (ofCode satKinds (fM w)).map fun k => .isub k (fD w) (fA w) (fB w) (fG w)
  | 3 => (ofCode mulKinds (fM w)).map fun k => .imul k (fD w) (fA w) (fB w) (fG w)
  | 4 => (ofCode satKinds (fM w)).map fun k => .imad k (fD w) (fA w) (fB w) (fG w)
  | 5 => (ofCode minMaxKinds (fM w)).map fun k => .iminmax k (fD w) (fA w) (fB w) (fG w)
  | 6 => (ofCode absKinds (fM w)).map fun k => .iabs k (fD w) (fA w) (fG w)
  | 7 => (ofCode logicOps (fM w)).map fun k => .logic k (fD w) (fA w) (fB w) (fG w)
  | 8 => (ofCode bitOps (fM w)).map fun k => .bitop k (fD w) (fA w) (fG w)
  | 9 => (ofCode shiftOps (fM w)).map fun k => .shift k (fD w) (fA w) (fB w) (fG w)
  | 10 => (ofCode sgns (fM w)).map fun k => .bfe k (fD w) (fA w) (fB w) (fG w)
  | 11 => some (.bfi (fD w) (fA w) (fB w) (fG w))
  | 12 =>
    (ofCode icmpKinds (fM w)).bind fun k =>
      (ofCode conds (bitsOf w 21 3)).map fun c => .icmp k c (fld 3 18 w) (fA w) (fB w) (fG w)
  | 13 => some (.sel (fD w) (fA w) (fB w) (fG w))
  | 14 => (ofCode add64Kinds (fM w)).map fun k => .add64 k (fD w) (fA w) (fB w) (fG w)
  | 15 => some (.lea (fld 2 0 w) (fD w) (fA w) (fB w) (fG w))
  | _ => none

/-- Opcodes 0x10 to 0x1F. -/
def pick1 (lo w lit : Nat) : Option Instr :=
  match lo with
  | 0 => some (.iaddi (fD w) (fA w) (fI w))
  | 1 => some (.imuli (fD w) (fA w) (fI w))
  | 2 => some (.andi (fD w) (fA w) (fI w))
  | 3 => some (.ori (fD w) (fA w) (fI w))
  | 4 => some (.xori (fD w) (fA w) (fI w))
  | 5 => some (.shli (fD w) (fA w) (fld 5 0 w))
  | 6 => some (.shri (fD w) (fA w) (fld 5 0 w))
  | 7 => some (.sari (fD w) (fA w) (fld 5 0 w))
  | 8 => (ofCode conds (bitsOf w 21 3)).map fun c => .icmpiI32 c (fld 3 18 w) (fA w) (fI w)
  | 9 => (ofCode conds (bitsOf w 21 3)).map fun c => .icmpiN32 c (fld 3 18 w) (fA w) (fI w)
  | 10 => some (.movi (fD w) (fI w))
  | 11 => some (.movl (fD w) (BitVec.ofNat 32 lit))
  | 12 => some (.add64i (fD w) (fA w) (fI w))
  | 13 => some (.enter (fI w))
  | _ => none

/-- Opcodes 0x20 to 0x2F. -/
def pick2 (lo w : Nat) : Option Instr :=
  match lo with
  | 0 => (ofCode rms (fM w)).map fun r => .fadd r (fD w) (fA w) (fB w) (fG w)
  | 1 => (ofCode rms (fM w)).map fun r => .fsub r (fD w) (fA w) (fB w) (fG w)
  | 2 => (ofCode rms (fM w)).map fun r => .fmul r (fD w) (fA w) (fB w) (fG w)
  | 3 => (ofCode rms (fM w)).map fun r => .ffma r (fD w) (fA w) (fB w) (fG w)
  | 4 => (ofCode minMaxes (fM w)).map fun o => .fminmax o (fD w) (fA w) (fB w) (fG w)
  | 5 =>
    (ofCode ffmts (fM w)).bind fun f =>
      (ofCode fconds (bitsOf w 21 3)).map fun c => .fcmp f c (fld 3 18 w) (fA w) (fB w) (fG w)
  | 6 => (ofCode fsignOps (fM w)).map fun o => .fsign o (fD w) (fA w) (fB w) (fG w)
  | 8 => (ofCode hfmts (fM w)).map fun f => .padd2 f (fD w) (fA w) (fB w) (fG w)
  | 9 => (ofCode hfmts (fM w)).map fun f => .pmul2 f (fD w) (fA w) (fB w) (fG w)
  | 10 => (ofCode hfmts (fM w)).map fun f => .pfma2 f (fD w) (fA w) (fB w) (fG w)
  | 11 =>
    (ofCode hfmts (bitsOf w 1 1)).bind fun f =>
      (ofCode minMaxes (bitsOf w 0 1)).map fun o => .pminmax2 f o (fD w) (fA w) (fB w) (fG w)
  | 12 => (ofCode hfmts (fM w)).map fun f => .hadd f (fD w) (fA w) (fB w) (fG w)
  | 13 => (ofCode hfmts (fM w)).map fun f => .hmul f (fD w) (fA w) (fB w) (fG w)
  | 14 => (ofCode hfmts (fM w)).map fun f => .hfma f (fD w) (fA w) (fB w) (fG w)
  | _ => none

/-- Opcodes 0x30 to 0x3F. -/
def pick3 (lo w : Nat) : Option Instr :=
  match lo with
  | 0 =>
    (ofCode cvtFmts (bitsOf w 9 3)).bind fun s =>
      (ofCode cvtFmts (bitsOf w 6 3)).bind fun t =>
        (ofCode rms (fM w)).map fun r => .cvt s t r (fD w) (fA w) (fG w)
  | 1 => (ofCode packFmts (fM w)).map fun f => .pack f (fD w) (fA w) (fB w) (fG w)
  | 2 => (ofCode packFmts (fM w)).map fun f => .unpk f (fB w) (fD w) (fA w) (fG w)
  | 3 => (ofCode rms (fM w)).map fun r => .frnd r (fD w) (fA w) (fG w)
  | 4 =>
    (ofCode fns (bitsOf w 6 3)).bind fun fn =>
      (ofCode grades (bitsOf w 9 1)).bind fun gr =>
        (ofCode ffmts (fM w)).map fun f => .fspec fn gr f (fD w) (fA w) (fG w)
  | 5 => (ofCode randKinds (fM w)).map fun k => .rand k (fD w) (fG w)
  | 6 => (ofCode plopOps (bitsOf w 21 3)).map fun o => .plop o (fld 3 18 w) (fld 3 12 w) (fld 3 6 w) (fG w)
  | 7 => if fM w == 0 then some (.pmovV (fD w) (fld 3 12 w) (fG w)) else some (.pmovP (fld 3 18 w) (fA w) (fG w))
  | 8 => some .join
  | 9 => some (.rep (fld 6 18 w) (bitOf w 17) (bitOf w 16) (bitOf w 15))
  | _ => none

/-- Opcodes 0x40 to 0x4F. -/
def pick4 (lo w lit : Nat) : Option Instr :=
  match lo with
  | 0 => (BrMode.ofBits (fM w)).map fun m => .br (fld 18 6 w) (fG w) m (BitVec.ofNat 32 lit)
  | 2 => some (.call (fG w) (BitVec.ofNat 32 lit))
  | 3 => some (.callk (fKA w) (fQ w))
  | 4 => some .ret
  | 5 => some (.exit (fG w))
  | _ => none

/-- Opcodes 0x50 to 0x5F. -/
def pick5 (lo w lit : Nat) : Option Instr :=
  match lo with
  | 0 => (ofCode ualuOps (fF w)).map fun o => .ualu o (fKD w) (fKA w) (fKB w) (fQ w)
  | 1 => (ofCode ucmpOps (fF w)).map fun o => .ucmp o (fld 2 19 w) (fKA w) (fKB w) (fQ w)
  | 2 => (ofCode umovlKinds (fF w)).map fun k => .umovl k (fKD w) (BitVec.ofNat 32 lit) (fQ w)
  | 3 => some (.uaddl (fKD w) (fKA w) (BitVec.ofNat 32 lit) (fQ w))
  | 4 => (ofCode plopOps (fF w)).map fun o => .qlop o (fld 2 19 w) (fld 2 14 w) (fld 2 9 w) (fQ w)
  | 8 => (ofCode shflModes (fM w)).map fun m => .shfl m (fD w) (fA w) (fB w) (fG w)
  | 9 => (ofCode voteOps (fM w)).map fun o => .vote o (fld 3 18 w) (fld 3 12 w) (fG w)
  | 10 => some (.ballot (fD w) (fld 3 12 w) (fG w))
  | 11 => (ofCode redOps (fM w)).map fun o => .redt o (fD w) (fA w) (fG w)
  | 12 => (ofCode redOps (fM w)).map fun o => .scan o (fD w) (fA w) (fG w)
  | 13 =>
    some (.bcast (fld 5 18 w) (fA w) (bitOf w 10) (if fM w == 0 then some (fld 4 6 w) else none) (fG w))
  | 14 => (ofCode fragqKinds (fM w)).map fun k => .fragq k (fD w) (fG w)
  | _ => none

/-- Opcodes 0x60 to 0x6F. -/
def pick6 (lo w : Nat) : Option Instr :=
  match lo with
  | 0 => some (.barinit (fKA w) (fKB w) (fQ w))
  | 1 => some (.barx (bitOf w 0) (fKA w) (fKB w) (fQ w))
  | 2 => some (.bara (fKA w) (fQ w))
  | 3 => some (.barw (if bitOf w 0 then some (fKD w) else none) (fKA w) (fQ w))
  | 4 => (ofCode bartOps (fF w)).map fun o => .bart o (fKD w) (fKA w) (fQ w)
  | 5 => some (.launch (fKD w) (fKA w) (fQ w))
  | 6 => some (.cwait (fKD w) (if bitOf w 0 then none else some (fKA w)) (fQ w))
  | 7 => (ofCode ress (fF w)).map fun r => .acq r (fKD w) (fKA w) (fQ w)
  | 8 => (ofCode ress (fF w)).map fun r => .rel r (fKA w) (fQ w)
  | 9 => some (.tset (fld 4 19 w) (fKA w) (fKB w) (fQ w))
  | 10 => some (.tget (fKD w) (fld 4 14 w) (bitOf w 0) (fQ w))
  | _ => none

/-- Opcodes 0x70 to 0x7F. -/
def pick7 (lo w : Nat) : Option Instr :=
  match lo with
  | 0 => some (.mmaE4m3 (fTD w) (fTA w) (fld 6 10 w) (fScl w) (bitOf w 1))
  | 1 => some (.mmaE5m2 (fTD w) (fTA w) (fld 6 10 w) (fScl w) (bitOf w 1))
  | 2 => some (.mmaL6 (fTD w) (fTA w) (fld 6 10 w) (fScl w) (bitOf w 1))
  | 3 => some (.mmaI8 (fTD w) (fTA w) (fld 6 10 w) (bitOf w 1))
  | 4 => some (.mmaBf16 (fTD w) (fTA w) (fld 6 10 w) (bitOf w 1))
  | 5 => some (.mmaF16 (fTD w) (fTA w) (fld 6 10 w) (bitOf w 1))
  | 6 => some (.mzero (fTD w) (fBar w))
  | 7 => some (.mld (fTD w) (fTA w) (fC w))
  | 8 => some (.mst (fTA w) (fTD w) (fC w))
  | 9 =>
    (ofCode drainFmts (bitsOf w 0 3)).map fun f =>
      .mdrain f (fTA w) (fTD w) (if bitOf w 3 then some (fN w) else none) (bitOf w 4) (fC w)
  | 10 => some (.mramp (fld 5 0 w) (fQ w))
  | _ => none

/-- Opcodes 0x80 to 0x8F. -/
def pick8 (lo w : Nat) : Option Instr :=
  match lo with
  | 0 => some (.ldlB32 (fD w) (fMA w))
  | 1 => some (.ldlB64 (fD w) (fMA w))
  | 2 => some (.stlB32 (fD w) (fMA w))
  | 3 => some (.stlB64 (fD w) (fMA w))
  | 4 => some (.ldsB32 (fD w) (fMA w))
  | 5 => some (.ldsB64 (fD w) (fMA w))
  | 6 => some (.ldsB128 (fD w) (fMA w))
  | 7 => some (.stsB32 (fD w) (fMA w))
  | 8 => some (.stsB64 (fD w) (fMA w))
  | 9 => some (.stsB128 (fD w) (fMA w))
  | 10 => some (.ldxB32 (fD w) (fMA w))
  | 11 => some (.ldxB64 (fD w) (fMA w))
  | 12 => some (.ldxB128 (fD w) (fMA w))
  | 13 => some (.stxB32 (fD w) (fMA w))
  | 14 => some (.stxB64 (fD w) (fMA w))
  | 15 => some (.stxB128 (fD w) (fMA w))
  | _ => none

/-- Opcodes 0x90 to 0x9F. -/
def pick9 (lo w lit : Nat) : Option Instr :=
  match lo with
  | 0 => (ofCode cpyForms (fF w)).map fun f => .cpy f (fTD w) (fTA w) (fN w) (fC w)
  | 1 => some (.put (fD w) (fMA w))
  | 2 => some (.get (fD w) (fMA w))
  | 3 => some (.waitp (fld 3 0 w) (fKA w) (fQ w))
  | 4 =>
    (ofCode fenceKinds (bitsOf w 3 2)).bind fun k =>
      (ofCode scopes (bitsOf w 0 3)).map fun sc => .fence k sc (fQ w)
  | 5 => some (.afence (fQ w))
  | 6 => (ofCode flushKinds (fF w)).map fun k => .hflush k (fKA w) (fKB w) (fQ w)
  | 7 => some (.dwfence (fQ w))
  | 8 => some (.methreg (fKA w) (BitVec.ofNat 32 lit) (fQ w))
  | _ => none

/-- Opcodes 0xA0 to 0xAF. -/
def pickA (lo w lit : Nat) : Option Instr :=
  match lo with
  | 0 => some (.atomAddI32 (fD w) (fMA w))
  | 1 => some (.atomAddF32 (fD w) (fMA w))
  | 2 => some (.atomMinI32 (fD w) (fMA w))
  | 3 => some (.atomMaxI32 (fD w) (fMA w))
  | 4 => some (.atomMinN32 (fD w) (fMA w))
  | 5 => some (.atomMaxN32 (fD w) (fMA w))
  | 6 => some (.atomAnd (fD w) (fMA w))
  | 7 => some (.atomOr (fD w) (fMA w))
  | 8 => some (.atomXor (fD w) (fMA w))
  | 9 => some (.atomXchg (fD w) (fMA w))
  | 10 => some (.cas (fD w) (fMA w))
  | 11 => some (.casgt (fD w) (fMA w))
  | 12 => some (.casv (fD w) (fMA w))
  | 13 => some (.caspt (fD w) (fMA w))
  | 14 => some (.waitc (fD w) (fMA w) (BitVec.ofNat 32 lit))
  | 15 => some (.comb (fD w) (fMA w) (BitVec.ofNat 32 lit))
  | _ => none

/-- Opcodes 0xB0 to 0xBF. -/
def pickB (lo w : Nat) : Option Instr :=
  match lo with
  | 0 => (ofCode collForms (fF w)).map fun f => .coll f (fTD w) (fTA w) (fN w) (fC w)
  | 1 =>
    match fF w with
    | 0 => some (.rotOpen (fTD w) (fN w) (fld 5 7 w))
    | 1 => some (.rotRun (fTA w) (fN w) (bitOf w 6))
    | 2 => some (.rotClose (fN w))
    | _ => none
  | 2 => some (.xchg (fTD w) (fTA w) (fN w) (fC w))
  | 3 => if bitOf w 0 then some (.bpriGet (fN w)) else some (.bpri (fN w))
  | 4 => some (.rsto (fTA w) (fN w) (fC w))
  | 5 =>
    (ofCode updOpts (bitsOf w 0 2)).bind fun o =>
      (ofCode updMasks (bitsOf w 2 2)).map fun m => .upd o m (bitOf w 4) (fTD w) (fTA w) (fN w) (fC w)
  | 6 => some (.pairst (fTD w) (fTA w) (fN w) (fC w))
  | 7 => (ofCode placeOps (fF w)).map fun o => .place o (fTA w) (fN w) (fC w)
  | 8 => some (.pfence (bitOf w 0))
  | 9 => some (.step (fN w) (fBar w))
  | 10 => some (.snap (fN w) (fBar w))
  | 11 => (ofCode engKinds (fF w)).map fun k => .estat k (fN w)
  | 12 => (ofCode engKinds (fF w)).map fun k => .ewait k (fN w)
  | _ => none

/-- Opcodes 0xC0 to 0xCF. -/
def pickC (lo w : Nat) : Option Instr :=
  match lo with
  | 0 => some (.srr (fSR w) (fld 12 6 w) (bitOf w 5))
  | 1 => some (.srw (fSR w) (fld 12 6 w) (bitOf w 5))
  | 2 => some (.trap (fld 12 6 w))
  | 3 => some .reti
  | 4 => some (.rinj (fld 8 6 w))
  | 5 => some (.engs (fld 5 18 w))
  | 6 => some (.engr (fld 5 18 w))
  | 7 => some .idle
  | 8 => some .halt
  | _ => none

/-- The instruction whose opcode and fields a word holds, before the checks of `decode` (R62). -/
def pick (w lit : Nat) : Option Instr :=
  let lo := bitsOf w 24 4
  match w / 2 ^ 28 with
  | 0 => pick0 lo w
  | 1 => pick1 lo w lit
  | 2 => pick2 lo w
  | 3 => pick3 lo w
  | 4 => pick4 lo w lit
  | 5 => pick5 lo w lit
  | 6 => pick6 lo w
  | 7 => pick7 lo w
  | 8 => pick8 lo w
  | 9 => pick9 lo w lit
  | 10 => pickA lo w lit
  | 11 => pickB lo w
  | 12 => pickC lo w
  | _ => none

/-- An L-form opcode: a literal word follows (R63). -/
def longOp (op : Nat) : Bool := [0x1B, 0x40, 0x42, 0x52, 0x53, 0x98, 0xAE, 0xAF].contains op

/-- The instruction of a word and, for an L form, its literal; none when the word raises the illegal-instruction trap
for its encoding (R46, R66, R67). -/
def decode (w lit : Nat) : Option Instr :=
  match pick w lit with
  | none => none
  | some i => if (encode i).headD 0 == w && i.wf then some i else none

/-- The instruction of a word that REP repeats, under the checks of R57 alone. -/
def decodeRep (w lit : Nat) : Option Instr :=
  match pick w lit with
  | none => none
  | some i => if (encode i).headD 0 == w && i.encOk then some i else none

/-- Why a word has no meaning as an instruction (R66). -/
inductive Reject where
  /-- an opcode marked unassigned in R62 -/
  | unassigned
  /-- a reserved MOD, FUNC, mode or condition -/
  | reservedOp
  /-- a reserved or unused field, or PATH, that is not what it must be -/
  | field
  /-- an operand, index or literal value that R66 refuses -/
  | operand
  deriving DecidableEq, Repr

/-- The assigned opcodes of R62, by row. -/
def assigned (op : Nat) : Bool :=
  op % 16 < ([0, 14, 15, 10, 6, 15, 11, 11, 16, 9, 16, 13, 9].getD (op / 16) 0) &&
    !([0x27, 0x41, 0x55, 0x56, 0x57].contains op) || (1 ≤ op && op ≤ 15)

/-- The name of the reason for which `decode` refuses a word (R66). -/
def rejection (w lit : Nat) : Option Reject :=
  match pick w lit with
  | none => some (if assigned (w / 2 ^ 24) then .reservedOp else .unassigned)
  | some i =>
    if (encode i).headD 0 != w then some .field
    else if i.wf then none else some .operand

/-- The instruction that the bits of an opcode-table row hold, the first word lowest (R34). -/
def decodeTableWord (_nbits w : Nat) : Option Instr := decode (w % 2 ^ 32) (w / 2 ^ 32 % 2 ^ 32)

/-! ### Classes and paths (R63) -/

/-- The instruction classes (R42, R63); `rep` takes the class of the repeated word. -/
inductive IClass where
  | thread | uniform | memory | matrix | async | control | system | rep
  deriving DecidableEq, Repr

/-- The class of an assigned opcode (R63). -/
def opClass (op : Nat) : IClass :=
  if op == 0x39 then .rep
  else if op < 0x40 then .thread
  else if op < 0x50 then .control
  else if op < 0x58 then .uniform
  else if op < 0x60 then .thread
  else if op < 0x70 then .uniform
  else if op < 0x80 then .matrix
  else if op < 0xB0 then .memory
  else if op < 0xC0 then .async
  else .system

end Sys2Proof
end

