-- ==== Sys2Proof/Config.lean ====
section
/-! DEFINITION. What an implementation fixes and the values that the spec leaves open. An `opaque` constant has no body:
no proof can see its value, so a statement that mentions it holds whatever the value is. -/

namespace Sys2Proof.Config

/-- A value that the spec leaves open, drawn fresh by a counter of the state: a word of memory whose contents the spec
calls undefined (R201), an unstated result. Log entry 2. -/
opaque freeWord : Nat → BitVec 32

/-- The energy in µJ that a block drew in the interval named by the counter: the spec bounds it but gives no amounts
(R447). Log entry 3. -/
opaque energy : Nat → Nat

/-- SHA-512 of a list of bytes (R448, R449): named by the spec, defined outside it. Log entry 4. -/
opaque sha512 : List Byte → List Byte

/-- The signature r ∥ s of the identity key over a digest, drawn by a counter (R449). Log entry 4. -/
opaque signature : Nat → List Byte → List Byte

/-- The serial number and the public key of a package, by rank (R449). Log entry 4. -/
opaque identity : Nat → List Byte

/-- The level 1 switch of a plane that a package attaches to, by rank: set at start, not given (R425). Log entry 38. -/
opaque l1Of : Nat → Nat

/-- The level 2 switch of a plane that serves a rank: for its windows (R427), and on the fixed route to it (R429). Log entry
38. -/
opaque l2Of : Nat → Nat

/-- Level 2 switches of a plane, less one (R425). Log entry 38. -/
opaque l2More : Nat

/-- Packets of the normal class that an input buffer holds, less one (R428, R429). Log entry 38. -/
opaque bufMore : Nat

/-- Bytes of the largest spill offset window that a core buffers, in 128-byte lines: 64 KiB (R201). -/
def spillLines : Nat := 512

/-- WMAX (R18). -/
def wmax : Nat := 2 ^ 20

/-- Nominal clock: cycles in one µs (R1, R3). -/
def usec : Nat := 1000

/-- Data slots free when a package has none in use (R334, R336). -/
def dataSlots : Nat := 858993456

/-- Stripe slots of a package (R336). -/
def stripeSlots : Nat := 1073741820

end Sys2Proof.Config
end

