-- ==== Sys2Proof/Machine/State.lean ====
section
/-! DEFINITION. The state of the machine as plain data: everything the spec gives the packages of one scale-up domain,
their host and their fabric. Each field's docstring gives the rule of spec/ that names it, its width, its value at
reset or at the creation of what holds it, and what it is. A field marked MODEL is the model's own bookkeeping. -/

namespace Sys2Proof.Machine

/-- A map held as a list of key and value pairs. -/
abbrev AL (κ α : Type) := List (κ × α)

/-- The bytes of one memory: address and byte, addresses rising, no zero byte listed; an unlisted address reads as 0. -/
abbrev Mem := List Host.Cell

/-- A memory with its poison marks. -/
structure Ram where
  /-- R2 | bytes | nothing listed (reads 0) | contents -/
  bytes : Mem
  /-- R416 | one mark per 4-byte word of SRAM or 256-byte line of HBM and tier | none | poison marks -/
  poison : List Nat
  deriving DecidableEq, Repr

/-- A memory with nothing listed. -/
def Ram.empty : Ram := ⟨[], []⟩

/-- One thread slot of a group (R11). -/
structure Thread where
  /-- R16 | 128 × 32 bits | 0 (R22, R133) | register backing of the slot, by position -/
  backing : Vector Word 128
  /-- R416 | one mark per position | none | poisoned positions of the backing -/
  bad : List Nat
  /-- R25 | 20 bits | 0 | WSTATE.WBASE, depth of v0 -/
  wbase : Nat
  /-- R25 | 20 bits | 0 | WSTATE.RBASE, depth of the lowest resident register -/
  rbase : Nat
  /-- R25 | 7 bits | 64 | WSTATE.FRAME -/
  frame : Nat
  /-- R25 | 13 bits | 0 | WSTATE.CDEPTH -/
  cdepth : Nat
  /-- R19 | up to 8 × 64 bits | none | resident link entries, oldest first; their number is WSTATE.LINKN -/
  links : List DWord
  /-- R13 | 7 bits | 0 (R133) | p0 to p6 -/
  p : BitVec 7
  /-- R29 | 64 bits | RNGSEED xor g | random-generator state s0 -/
  s0 : DWord
  /-- R29 | 64 bits | not RNGSEED | random-generator state s1 -/
  s1 : DWord
  deriving DecidableEq, Repr

/-- The STATE field of a split-table entry (R134, R142). -/
inductive FragSt where
  | ready | blocked | joinwait
  deriving DecidableEq, Repr

/-- What a blocked fragment waits for (R41). -/
inductive Wait where
  /-- a register with a write pending on a path counter (R41, R58) -/
  | scoreboard
  /-- the waits of this header, of the clause at word 0 (R38) -/
  | header (h : Word)
  /-- the waits of the header were met when its barrier's phase completed, or its barrier broke (R38, R150) -/
  | headerOver (h : Word) (broken : Bool)
  | barw (kd : Option KReg) (b : BReg)
  /-- the phase that BARW waited for has completed, or its barrier has broken (R149, R150) -/
  | barOver (kd : Option KReg) (b : BReg) (broken : Bool)
  | waitp (path thr : Nat)
  /-- an ACQ request in the core's queue (R154) -/
  | acq (id : Nat) (kd : KReg)
  /-- CWAIT of one handle, or of every child of the team (R177) -/
  | cwait (kd : KReg) (handle : Option DWord)
  /-- a fence of a kind waiting for the group's words before flight number `upto` (R252) -/
  | fence (k : FenceKind) (upto : Nat)
  | afence (upto : Nat)
  | hflush (k : FlushKind) (va len : Nat)
  /-- DWFENCE waits for the group's path 6 words (R255) -/
  | dwenter
  | dwfence (id : Nat)
  | methreg (id : Nat)
  /-- PFENCE: the flight bound, and the Moraine marks of step 3 once taken (R386) -/
  | pfence (stripe : Bool) (upto : Nat) (marks : Option (List (Nat × Nat)))
  | ewait (k : EngKind) (kn : XReg) (thr : Nat)
  /-- ENGS: the address its records go to (R420) -/
  | engs (ka : KReg)
  /-- IDLE, with the cycle it began (R421) -/
  | idle (since : Nat)
  /-- an IDLE whose event has happened (R421) -/
  | woken
  deriving DecidableEq, Repr

/-- One entry of the split table (R134). -/
structure Frag where
  /-- R134 | 16 bits | 0xFFFF for a new group | MASK -/
  mask : Mask
  /-- R134 | 57 bits, held with its sign extension to 64 | entry clause | PC clause address -/
  clause : DWord
  /-- R134 | 4 bits | 0 | PC word index -/
  word : Nat
  /-- R134 | 5 bits | 31 | REC, innermost reconvergence record or 31 -/
  recx : Nat
  /-- R134 | 2 bits | READY | STATE -/
  st : FragSt
  /-- R134 | 16 bits, saturating | 0 | AGE -/
  age : Nat
  /-- MODEL, R39 | 32 bits | none | the header of the clause once entered: the header checks and waits are done -/
  hdr : Option Word
  /-- MODEL, R41 | - | none | why the fragment is BLOCKED -/
  wait : Option Wait
  deriving DecidableEq, Repr

/-- A reconvergence record (R134). -/
structure RRec where
  /-- R134 | 57 bits | - | RCV, reconvergence clause -/
  rcv : DWord
  /-- R134 | 16 bits | - | OMASK -/
  omask : Mask
  /-- R134 | 16 bits | 0 | ARRIVED -/
  arrived : Mask
  /-- R134 | 13 bits | - | CDEPTH -/
  cdepth : Nat
  /-- R134 | 5 bits | - | PARENT, or 31 -/
  parent : Nat
  deriving DecidableEq, Repr

/-- A write to a system register that takes effect when the fragment of this entry leaves its clause (R32, R418); entry 8
stands for the fragments that a JOIN of that clause has parked (R138). -/
structure SrwPend where
  entry : Nat
  index : Nat
  value : DWord
  deriving DecidableEq, Repr

/-- What the model keeps of a spilled fragment beside its record in the spill stack (R140). -/
structure SpillNote where
  /-- MODEL, R39 | 32 bits | none | the header of its clause once entered -/
  hdr : Option Word
  /-- MODEL, R41 | - | none | why it is BLOCKED -/
  wait : Option Wait
  /-- R32, R418 | writes | none | its SRW writes that wait for the end of its clause -/
  srw : List SrwPend
  deriving DecidableEq, Repr

/-- Where the fragments parked at a JOIN continue (R138). -/
structure JoinPc where
  /-- MODEL, R138 | 57 bits | 0 | clause of the word after the JOIN -/
  clause : DWord
  /-- MODEL, R138 | 4 bits | 0 | its word index -/
  word : Nat
  /-- MODEL, R39 | 32 bits | none | header of that clause when it is already entered -/
  hdr : Option Word
  deriving DecidableEq, Repr

/-- No fragment parked. -/
def JoinPc.zero : JoinPc := ⟨0, 0, none⟩

/-- The repeat state REPS (R27). -/
structure Reps where
  /-- R27 | 6 bits | 0 | REMAIN -/
  remain : Nat
  /-- R27 | 6 bits | 0 | INDEX -/
  index : Nat
  /-- R27 | 1 bit | 0 | STEPB -/
  stepb : Bool
  /-- R27 | 1 bit | 0 | STEPA -/
  stepa : Bool
  /-- R27 | 1 bit | 0 | STEPD -/
  stepd : Bool
  /-- R27 | 1 bit | 0 | ACTIVE -/
  active : Bool
  /-- MODEL, R28 | 3 bits | 0 | split-table entry of the repeating fragment -/
  entry : Nat
  /-- MODEL, R126 | 32 bits | none | the literal of the repeated word, read once for all its repeats -/
  lit : Option Word
  deriving DecidableEq, Repr

/-- REPS with nothing in progress. -/
def Reps.zero : Reps := ⟨0, 0, false, false, false, false, 0, none⟩

/-- The kinds of words that raise an access-path counter (R214). -/
inductive FlightKind where
  | load | store | put | get | atomic | waitc | comb | engine | matrix
  deriving DecidableEq, Repr

/-- What one slot of a word in flight has received: the words for v[DATA] upwards, or poison (R237), or an
uninitialised scratchpad word (R210), or a fault met at a peer (R424). -/
inductive Reply where
  | pending
  | words (ws : List Word)
  | poison
  | uninit
  | fault (cause level : Nat)
  deriving DecidableEq, Repr

/-- One word that has issued and not returned (R214, R215, R405). The counter of a path is the number of its entries. -/
structure Flight where
  /-- MODEL, R215 | number | - | place in the group's order of issue -/
  seq : Nat
  /-- R214 | 3 bits | - | access path 0 to 7 -/
  path : Nat
  kind : FlightKind
  /-- R406 | 32 bits | - | WORD -/
  word : Word
  /-- R406 | 32 bits | - | LITERAL -/
  lit : Word
  /-- R406 | 16 bits | - | execution mask -/
  mask : Mask
  /-- MODEL, R266 | 16 bits | - | MASK of the issuing fragment: a later fragment with one of these slots comes after it -/
  fmask : Mask
  /-- R44 | 1 bit | - | issued under UNI: one access for the lowest active slot -/
  uni : Bool
  /-- R406 | 16 × 64 bits | - | address of each slot, as computed at issue -/
  addrs : List DWord
  /-- R23 | 16 depths | - | absolute depth of v[DATA] in each slot at issue -/
  depths : List Nat
  /-- MODEL, R58 | number | - | v registers per slot that its reply writes, 0 for none -/
  dstn : Nat
  /-- R235 | words per slot | - | data read at issue -/
  data : List (List Word)
  /-- R237 | per slot | pending | replies received -/
  got : List Reply
  /-- R219 | list | - | the buffer lines and transfers that hold bytes of a PUT and are not yet acknowledged -/
  lines : List Nat
  /-- MODEL, R412 | number | - | asynchronous operation or matrix entry it stands for -/
  op : Nat
  /-- R215 | 1 bit | 0 | it has returned, and waits for earlier returns of its path -/
  done : Bool
  deriving DecidableEq, Repr

/-- The detail of a pending event: TCAUSE.SUB, TINFO and TADDR to be (R404). -/
structure TrapD where
  sub : Nat
  tinfo : DWord
  taddr : DWord
  deriving DecidableEq, Repr

/-- A replay-queue entry (R405, R406). -/
structure Replay where
  /-- MODEL, R405 | number | 0 | place of the word in the group's order of issue -/
  seq : Nat
  /-- R406 | 32 bits | 0 | WORD -/
  word : Word
  /-- R406 | 16 bits | 0 | MASK -/
  mask : Mask
  /-- R406 | 1 bit | 0 | VALID -/
  valid : Bool
  /-- R406 | 4 bits | 0 | CLASS -/
  cls : Nat
  /-- R406 | 4 bits | 0 | SUB -/
  sub : Nat
  /-- R406 | 16 × 64 bits | 0 | address of each slot -/
  addrs : List DWord
  /-- R406 | 32 bits | 0 | LITERAL -/
  lit : Word
  /-- MODEL, R44 | 1 bit | 0 | the word issued under UNI -/
  uni : Bool
  deriving DecidableEq, Repr

/-- The frozen fragment state of a trap frame (R401). -/
structure Frozen where
  /-- R401 | R134 | - | split table as interrupted -/
  frags : Vector (Option Frag) 8
  /-- R401 | R134 | - | reconvergence store as interrupted -/
  recs : Vector (Option RRec) 16
  /-- R401 | R138 | - | join register as interrupted: JADDR -/
  jaddr : DWord
  /-- R401 | R138 | - | join register as interrupted: JMASK -/
  jmask : Mask
  /-- MODEL, R138 | - | - | where the JOIN of JADDR continues -/
  jpc : JoinPc
  /-- R401 | R140 | - | spill queue as interrupted, oldest first -/
  spilled : List SpillNote
  /-- R401 | 16 bits | - | REPS as interrupted -/
  reps : Reps
  /-- R418 | writes | - | SRW writes of the clauses under way when the trap was taken -/
  srwq : List SrwPend
  /-- R401 | 4 bits | - | entry of the interrupted fragment, 8 for none -/
  entry : Nat
  deriving DecidableEq, Repr

/-- The trap state of a group (R401 to R406). -/
structure TrapState where
  /-- R404 | 64 bits | 0 | TCAUSE.CLASS and SUB -/
  cls : Nat
  /-- R404 | 4 bits | 0 | TCAUSE.SUB -/
  sub : Nat
  /-- R404 | 8 bits | 0 | TCAUSE.SEL -/
  sel : BitVec 8
  /-- R404 | 64 bits | 0 | TPC -/
  tpc : DWord
  /-- R404 | 64 bits | 0 | TMASK -/
  tmask : DWord
  /-- R404 | 64 bits | 0 | TINFO -/
  tinfo : DWord
  /-- R404 | 64 bits | 0 | TADDR -/
  taddr : DWord
  /-- R404 | 16 bits | 0 | TPEND.PEND -/
  tpend : BitVec 16
  /-- R403 | 4 × 64 bits | 0 | TKS0 to TKS3 -/
  tks : Vector DWord 4
  /-- R401 | 1 bit | 0 | TMODE -/
  tmode : Bool
  /-- R402 | 1 bit | 0 | FAULTED -/
  faulted : Bool
  /-- R401 | - | none | the frozen table -/
  frozen : Option Frozen
  /-- R405 | 8 entries | empty | replay queue TRQ -/
  trq : List Replay
  /-- MODEL, R397 | list | none | the pending events, by class, oldest first -/
  events : List (Nat × TrapD)
  /-- MODEL, R397 | - | none | words whose replies raised a pending class 6 or 7 (R405) -/
  raised : List Replay
  deriving DecidableEq, Repr

/-- No trap taken or pending. -/
def TrapState.zero : TrapState :=
  ⟨0, 0, 0, 0, 0, 0, 0, 0, Vector.replicate 4 0, false, false, none, [], [], []⟩

/-- The operations of one engine kind that a group has issued (R389). -/
structure EngSum where
  /-- R389 | 4 bits | 0 | LASTST -/
  lastst : Nat
  /-- R389 | 1 bit | 0 | ANY -/
  any : Bool
  /-- R389 | list | none | operations that INFLIGHT counts, in the order of issue: their flights, and whether the record is
  written; the first is one whose record is not -/
  flying : List (Nat × Bool)
  deriving DecidableEq, Repr

/-- A temporal group: 16 slots pinned to a lane, or the wave of a combiner engine (R127, R300). -/
structure Group where
  /-- MODEL | number | - | identity of the group -/
  gid : Nat
  /-- R424 | 10 bits | - | package that runs it -/
  rank : Nat
  /-- R444 | 16 bits | - | CTXID -/
  ctx : Nat
  /-- R151 | number | - | its grid -/
  grid : Nat
  /-- R147 | number | - | its team -/
  tid : Nat
  /-- R33 | 6 bits | - | GROUPID -/
  num : Nat
  /-- R199 | 17 bits | - | spill-window number n -/
  win : Nat
  /-- R199 | 64 bits | - | WSPB -/
  wspb : DWord
  /-- R127 | place | - | core it is placed on -/
  core : CoreId
  /-- R127 | 5 bits | - | lane -/
  lane : Nat
  /-- R443 | 2 bits | - | place on its lane, 0 to 3 -/
  place : Nat
  /-- R300 | - | none | slice whose combiner runs this group as a wave -/
  wave : Option SliceId
  /-- R11 | 16 slots | R133 | thread slots -/
  threads : Vector Thread 16
  /-- R11 | 32 × 64 bits | R133 | k0 to k31 -/
  k : Vector DWord 32
  /-- R59 | 32 bits | 0 | k registers with a write pending (scoreboard) -/
  kbusy : BitVec 32
  /-- R11 | 4 bits | 0 | q0 to q3 -/
  q : BitVec 4
  /-- R179 | 16 × 128 bits | 0 | t0 to t15 -/
  t : Vector QWord 16
  /-- R31 | 2 bits | launch descriptor | NBV.VERSION -/
  nbv : Nat
  /-- R32, R418 | writes | none | SRW writes that wait for the end of their clause, in order -/
  srwq : List SrwPend
  /-- R137 | 16 bits | 0 | EXITED -/
  exited : Mask
  /-- R134 | 8 entries | one fragment | split table -/
  frags : Vector (Option Frag) 8
  /-- R134 | 16 records | none | reconvergence store -/
  recs : Vector (Option RRec) 16
  /-- R140 | up to 16 | none | fragments in the spill queue, oldest first -/
  spilled : List SpillNote
  /-- R141 | number | 0 | issue opportunities since the group's last exchange -/
  sinceExch : Nat
  /-- R138 | 57 bits | 0 | JADDR -/
  jaddr : DWord
  /-- R138 | 16 bits | 0 | JMASK -/
  jmask : Mask
  /-- MODEL, R138 | - | 0 | where the JOIN of JADDR continues -/
  jpc : JoinPc
  /-- R27 | 16 bits | 0 | REPS -/
  reps : Reps
  /-- R148 | 32 bits | the barriers' PHASE | barrier seen bits -/
  seen : BitVec 32
  /-- R130 | 64 bits | 0 | GTIME -/
  gtime : Nat
  /-- R403 | 64 bits | 0 (DESIGN CHOICE, log 1) | TIMER -/
  timer : Nat
  /-- R33 | 64 bits | 0 (DESIGN CHOICE, log 1) | DEADLINE -/
  deadline : Nat
  /-- R404 | 5 bits | 0 | ARITHEN -/
  arithen : BitVec 5
  /-- R325 | 32 bits | 0 (DESIGN CHOICE, log 1) | RSEQ -/
  rseq : Word
  /-- R404 | 64 bits | 0 | RSTPT -/
  rstpt : DWord
  /-- R403 | 32 bits | 0 (DESIGN CHOICE, log 1) | RSTSEQ -/
  rstseq : Word
  /-- R321 | 8 bits | 0 | bucket priority -/
  level : BitVec 8
  /-- R214 | 8 counters of 8 bits | empty | words in flight; the path counters count them -/
  flights : List Flight
  /-- MODEL, R215 | number | 0 | next place in the order of issue -/
  nextSeq : Nat
  /-- R389 | 7 summaries | 0 | per engine kind, the last completion -/
  eng : Vector EngSum 7
  /-- R401 | R403 | 0 | trap state -/
  trap : TrapState
  /-- R409 | 1 bit | 0 | stopped by a pre-emption -/
  stopped : Bool
  /-- R144 | number | 0 (DESIGN CHOICE, log 56) | opportunities since the lane last picked the group -/
  lastPick : Nat
  /-- MODEL, R41 | 1 bit | 0 | its word waits at issue for a resource, and the lane goes on with its other groups -/
  stalled : Bool
  /-- R301 | number | 0 | words issued by a combiner method -/
  budget : Nat
  deriving DecidableEq, Repr

/-- A barrier object (R148). -/
structure Barrier where
  /-- R148 | 40 bits, signed | 0 | PEND -/
  pend : Int
  /-- R148 | 10 bits | 0 | COUNT -/
  count : Nat
  /-- R148 | 10 bits | groups in the team | TARGET -/
  target : Nat
  /-- R148 | 1 bit | 0 | PHASE -/
  phase : Bool
  /-- R148 | 1 bit | 0 | BROKEN -/
  broken : Bool
  deriving DecidableEq, Repr

/-- The events of a barrier (R149). -/
inductive BEv where
  | init (target : Nat)
  | expect (n : Nat)
  | deliver (n : Nat)
  | arrive
  deriving DecidableEq, Repr

/-- What an engine holds for a team that is out: an event on a barrier, or a completion with its record and, for an RSTO that
ended ERROR, the tag of its trap (R413). -/
inductive HeldEv where
  | bar (b : BReg) (ev : BEv)
  | record (v : DWord) (trap : Option Nat)
  deriving DecidableEq, Repr

/-- The life of a team (R153, R155, R159, R160, R409). -/
inductive TeamSt where
  /-- dealt to a die and waiting for a core (R159) -/
  | waiting
  | resident
  /-- being switched out: waiting for boundaries and replies (R409 steps 1 and 2) -/
  | stopping
  /-- its handler group serialises its operations (R409 steps 3 and 4) -/
  | saving
  /-- switched out (R409 step 5) -/
  | out
  /-- every group has exited; the record remains (R153) -/
  | exited
  deriving DecidableEq, Repr

/-- A team of groups on one core (R147). -/
structure Team where
  /-- MODEL | number | - | identity of the team -/
  tid : Nat
  /-- R424 | 10 bits | - | package -/
  rank : Nat
  /-- R151 | number | - | grid -/
  grid : Nat
  /-- R33 | 32 bits | - | TEAMX -/
  x : Nat
  /-- R33 | 32 bits | - | TEAMY -/
  y : Nat
  /-- R33 | 32 bits | - | TEAMZ -/
  z : Nat
  /-- R158 | 2 bits | - | die it is dealt to -/
  die : Nat
  /-- R159 | place | - | core -/
  core : CoreId
  st : TeamSt
  /-- R160 | number | - | order of placement -/
  placed : Nat
  /-- R178 | 8 bits | launch | shared holding H in 4 KiB units -/
  holding : Nat
  /-- R178 | 5 bits | launch | accumulator tiles T -/
  tiles : Nat
  /-- R147 | 32 objects | R148 | barriers b0 to b31 -/
  bars : Vector Barrier 32
  /-- R203 | up to 512 KiB | 0 (R178) | team shared memory -/
  shared : Ram
  /-- R181 | 16 × 16 KiB | 0 (R178) | accumulator tiles, word (i, c) of tile z at 16,384 z + 1,024 i + 4 c -/
  acc : Ram
  /-- R199 | numbers | - | spill windows of the groups, by group number -/
  wins : List Nat
  /-- R409 | numbers | - | groups of the team, by group number -/
  gids : List Nat
  /-- R127, R153 | lanes and places | none | the group places that the team holds on its core, by group number -/
  seats : List (Nat × Nat)
  /-- R413 | list | none | engine events and completions held while the team is out, in their order, with their operation, 0 for
  the events of a ring's slots -/
  held : List (Nat × HeldEv)
  /-- R412, R413 | 128 bytes each | none | records of detached operations that have completed -/
  doneRecs : List (List Byte)
  /-- R420 | list | none | operations re-entered since the restore, as die and OPTAG -/
  rejoined : List (Nat × Nat)
  /-- R420 | 128 bytes each | none | DETACHED records that ENGS wrote -/
  detachedRecs : List (List Byte)
  deriving DecidableEq, Repr

/-- The numeric formats of the matrix engine's operands (R186). -/
inductive MmaFmt where
  | e4m3 | e5m2 | l6 | i8 | bf16 | f16
  deriving DecidableEq, Repr

/-- What a matrix FIFO entry does, with everything captured at issue (R188, R192). -/
inductive MWork where
  | mma (f : MmaFmt) (z : Nat) (b : QWord) (nbv : Nat) (a : List (List Word)) (ca cb : List Nat) (scl : Bool)
      (abad : Bool)
  | mzero (z : Nat)
  | mld (z : Nat) (d : QWord)
  | mst (d : QWord) (z : Nat)
  | mdrain (fmt : DrainFmt) (d : QWord) (z : Nat) (amx : Option Nat) (clr : Bool)
  deriving DecidableEq, Repr

/-- The phase of a matrix entry (R182, R190, R193). -/
inductive MPhase where
  | posted
  /-- its engine cycles are under way, and so many are left -/
  | running (left : Nat)
  /-- its engine cycles are done; it completes in this cycle -/
  | drained (ends : Nat)
  /-- MDRAIN with AMX: the merge of this magnitude is under way -/
  | merging (m : Nat) (ends : Nat)
  deriving DecidableEq, Repr

/-- A span of the footprint-ordering unit (R313): space, first and last 256-byte block, and write or read. -/
structure Span where
  /-- R274 | - | - | block space: 0 a team's shared memory, 1 a segment, 2 a context's virtual space; with its owner -/
  space : Nat × Nat
  first : Nat
  last : Nat
  write : Bool
  deriving DecidableEq, Repr

/-- An entry of the matrix FIFO (R182). -/
structure MEntry where
  /-- MODEL, R312 | number | - | identity, shared with operations -/
  id : Nat
  gid : Nat
  tid : Nat
  seq : Nat
  work : MWork
  bar : Option BReg
  foe : Bool
  /-- R314, R321 | 8 bits | - | level of its group at issue -/
  level : Nat
  spans : List Span
  preds : List Nat
  phase : MPhase
  deriving DecidableEq, Repr

/-- An operand latch (R189). -/
structure Latch where
  gid : Nat
  va : Nat
  count : Nat
  vals : List (List Word)
  deriving DecidableEq, Repr

/-- A line of the PUT write-combining buffer (R217). -/
structure WLine where
  /-- MODEL | number | - | identity -/
  id : Nat
  /-- R217 | 10 bits | - | destination package -/
  dest : Nat
  ctx : Nat
  /-- R217 | 57 bits | - | 256-byte aligned destination line -/
  va : Nat
  /-- R217 | 256 bytes with a mask | - | bytes present, by offset -/
  bytes : AL Nat Byte
  /-- R219 | per group | - | number of the last PUT of each group in the line -/
  last : AL Nat Nat
  /-- R218 | cycle | - | when the first byte entered -/
  since : Nat
  deriving DecidableEq, Repr

/-- A line of the spill buffer (R201). -/
structure SLine where
  gid : Nat
  ctx : Nat
  /-- R201 | 57 bits | - | 128-byte line, by virtual address -/
  va : Nat
  bytes : List Byte
  dirty : Bool
  /-- R416 | words | none | poisoned words of the line, by word address -/
  bad : List Nat
  deriving DecidableEq, Repr

/-- A pending ACQ request (R154). -/
structure AcqReq where
  id : Nat
  gid : Nat
  entry : Nat
  tid : Nat
  what : Res
  amount : Nat
  kd : KReg
  deriving DecidableEq, Repr

/-- A core with anything in it (R127); a core not listed is free and at reset. -/
structure Core where
  id : CoreId
  /-- R182 | 32 entries | empty | matrix FIFO -/
  fifo : List MEntry
  /-- R189 | 4 latches | none | operand latches, least recently used first -/
  latches : List Latch
  /-- R217 | 64 lines | none | write-combining buffer, oldest first -/
  wcb : List WLine
  /-- R201 | 512 lines | none | spill buffer -/
  spill : List SLine
  /-- R154 | queue | none | ACQ requests in the order of issue -/
  acqs : List AcqReq
  /-- R446 | 3 bits | 0 | THROTS.STEP -/
  step : Nat
  /-- R446 | 1 bit | 0 | THROTS.TEMP -/
  temp : Bool
  /-- R446 | 1 bit | 0 | THROTS.DROOP -/
  droop : Bool
  /-- R446 | 32 bits | 0 | THROTS.THCYC -/
  thcyc : Nat
  /-- R446 | 4 bits | 0 | consecutive windows with TEMP and DROOP both 0 -/
  cool : Nat
  /-- R196 | 10 bits | 0 (DESIGN CHOICE, log 1) | active cycles of the last window -/
  active : Nat
  /-- R196 | 10 bits | 0 (DESIGN CHOICE, log 1) | busy cycles so far in the current window -/
  busy : Nat
  /-- R194, R196 | 10 bits | 0 (DESIGN CHOICE, log 1) | filler cycles so far in the current window -/
  fill : Nat
  /-- R197 | 1 bit | 0 | an entry has started in the current window, or MRAMP has set the target in it (log 62) -/
  began : Bool
  /-- R195 | 4 bits | 0 | active cycles so far in the aligned run of 8 cycles -/
  run : Nat
  /-- R195 | 3 bits | 0 | throttle step of that run -/
  rstep : Nat
  /-- MODEL, R196 | number | 0 | cycles that have passed and that the engine has not yet accounted for -/
  lag : Nat
  /-- MODEL, R196 | 1 bit | 0 | the window's cycles are over, and its end is to be made -/
  ended : Bool
  /-- R197 | 10 bits | 0 (DESIGN CHOICE, log 1) | ramp target in active cycles -/
  ramp : Nat
  /-- R197 | 7 bits | 0 | consecutive windows in which no entry started -/
  quiet : Nat
  /-- R447 | 64 bits | 0 | ECORE -/
  ecore : Nat
  /-- R443 | 7 bits | 0 | GSEL.PLACE -/
  gselPlace : Nat
  /-- R443 | 4 bits | 0 | GSEL.SLOT -/
  gselSlot : Nat
  deriving DecidableEq, Repr

/-- A grid (R151). -/
structure Grid where
  /-- MODEL | number | - | identity -/
  id : Nat
  rank : Nat
  ctx : Nat
  /-- R33 | 32 bits | 0 for a host launch | DEPTH -/
  depth : Nat
  /-- R206 | number | - | depth-0 ancestor -/
  root : Nat
  /-- R153 | number | - | team that launched it -/
  parent : Option Nat
  /-- R176 | 64 bits | - | child handle -/
  handle : Nat
  nx : Nat
  ny : Nat
  nz : Nat
  entry : DWord
  args : DWord
  row0 : Nat
  col0 : Nat
  rows : Nat
  cols : Nat
  /-- R156 | 4 bits | - | dies of the mask, absolute -/
  dies : List Nat
  groups : Nat
  smem : Nat
  tiles : Nat
  /-- R31 | 2 bits | - | NBV of its groups -/
  nbv : Nat
  /-- R287 | 1 bit | - | deterministic atomic mode -/
  det : Bool
  priority : Nat
  /-- R33 | 64 bits | - | RNGSEED -/
  seed : DWord
  /-- R206 | 8 KiB units | - | segment size (depth 0) -/
  seg : Nat
  /-- R209 | 1 bit | launch | SPMODE.TRAP (depth 0) -/
  spTrap : Bool
  /-- R209 | 25 bits | 0 | SPMODE.FWORD -/
  spWord : Nat
  /-- R209 | 2 bits | 0 | SPMODE.FDIE -/
  spDie : Nat
  /-- R209 | 32 bits | 0 | SPMODE.WCOUNT -/
  spCount : Nat
  /-- R292 | 32 bits | 0 | DETOVF.OVF -/
  ovf : Nat
  /-- R292 | 32 bits | 0 | DETOVF.SPLIT -/
  split : Nat
  /-- R255 | 1,024 bits | 0 | peer map -/
  peers : List Nat
  /-- R447 | 64 bits | 0 | EGRID -/
  egrid : Nat
  /-- R158 | number | 0 | next linear team index to deal -/
  nextTeam : Nat
  /-- R158 | number | - | order in which the grid became eligible -/
  since : Nat
  /-- R158 | 1 bit | 0 | dispatched -/
  started : Bool
  /-- R445 | - | none | host queue header and descriptor address of a depth-0 grid -/
  desc : Option (Nat × Nat)
  /-- R445 | 4 bits | OK | STATUS at retirement -/
  status : Nat
  deriving DecidableEq, Repr

/-- The scratchpad segment of a depth-0 grid on one die (R206). -/
structure Segment where
  /-- MODEL | number | - | identity -/
  id : Nat
  rank : Nat
  die : Nat
  grid : Nat
  /-- R206 | bytes | launch | size -/
  size : Nat
  ram : Ram
  /-- R208 | one bit per word | 0 | valid bits, held as a memory of ones by word number -/
  valid : Mem
  deriving DecidableEq, Repr

/-- A context of a package (R199, R444). -/
structure Ctx where
  rank : Nat
  /-- R444 | 16 bits | - | CTXID -/
  id : Nat
  /-- R220 | 64 bits | 0 (R452) | PTROOT -/
  ptroot : Nat
  /-- R199 | 57 bits | 0 | SPBASE -/
  spbase : Nat
  /-- R199 | 41 bits | 0 | SPSTRIDE -/
  spstride : Nat
  /-- R199 | 18 bits | 0 | SPCOUNT -/
  spcount : Nat
  /-- R315 | 57 bits | 0 | GTBASE -/
  gtbase : Nat
  /-- R323 | 57 bits | 0 | RWBASE -/
  rwbase : Nat
  /-- R441 | 64 bits | 0 | rank map address -/
  rankmap : Nat
  /-- R403 | 64 bits | 0 (R452) | TRAPVEC -/
  trapvec : Nat
  /-- R403 | 64 bits | 0 (R452) | CSAVE -/
  csave : Nat
  /-- R403 | 64 bits | 0 (R452) | TSAVE -/
  tsave : Nat
  /-- R460 | 1 bit | 0 | fenced after a package loss -/
  fenced : Bool
  deriving DecidableEq, Repr

/-- A registered method of a context at a slice (R298): entry clause and object size in bytes. -/
structure Method where
  entry : DWord
  size : Nat
  deriving DecidableEq, Repr

/-- The operation that a path 6 request asks for (R256, R258). -/
inductive AtomOp where
  | addI32 | addF32 | minI32 | maxI32 | minN32 | maxN32 | and | or | xor | xchg | cas | casgt | casv | caspt
  deriving DecidableEq, Repr

/-- What a request at a slice does (R256, R259, R262). -/
inductive ReqKind where
  | atom (op : AtomOp) (data : List Word)
  /-- WAITC: condition code, signed, timeout in µs, value and mask -/
  | waitc (cond : Nat) (signed : Bool) (timeout : Nat) (val mask : Word)
  | comb (method : Nat) (arg : DWord)
  /-- a GET whose home is a peer (R424) -/
  | get
  deriving DecidableEq, Repr

/-- A path 6 request of one slot (R256, R283). -/
structure Req where
  /-- MODEL | number | - | identity -/
  id : Nat
  /-- R290 | - | - | issuer: group, flight and slot -/
  gid : Nat
  seq : Nat
  slot : Nat
  /-- R230 | - | - | context and virtual address -/
  ctx : Nat
  va : Nat
  /-- R424 | 10 bits | - | package of the home slice -/
  home : Nat
  kind : ReqKind
  /-- R287 | - | none | deterministic grid and issuer index g -/
  det : Option (Nat × Nat)
  /-- MODEL, R283 | number | 0 | order of arrival at the slice -/
  arr : Nat
  deriving DecidableEq, Repr

/-- Why a deterministic window closed (R288). -/
inductive CloseWhy where
  | full | fence | idle | evict
  deriving DecidableEq, Repr

/-- An open deterministic window (R288). -/
structure Window where
  id : Nat
  grid : Nat
  ctx : Nat
  va : Nat
  /-- R288 | up to 16 | - | entries in the order of arrival -/
  entries : List Req
  /-- R288 | cycle | - | arrival of the newest entry -/
  last : Nat
  deriving DecidableEq, Repr

/-- The states of a monitor entry that is not Free (R294). -/
inductive MonSt where
  | armed
  /-- its reply is on its way to the registers -/
  | replied
  /-- the held reply: status, reason and value -/
  | fired (status reason : Nat) (m : Word)
  deriving DecidableEq, Repr

/-- A monitor entry (R293). -/
structure Monitor where
  /-- R294 | 10 bits | - | entry number -/
  entry : Nat
  req : Req
  cond : Nat
  signed : Bool
  val : Word
  mask : Word
  /-- R293 | CYC | - | deadline, or none -/
  deadline : Option Nat
  st : MonSt
  deriving DecidableEq, Repr

/-- A wave that Confluence runs (R300). -/
structure Wave where
  gid : Nat
  calls : List Req
  ctx : Nat
  obj : Nat
  method : Nat
  size : Nat
  /-- R300 | 16 to 256 bytes | object | shadow -/
  shadow : Mem
  /-- R303 | 4 bits | 0 | cause of a method fault -/
  fault : Nat
  /-- R300 | 1 bit | 0 | every lane has exited -/
  ended : Bool
  /-- R289 | list | - | the rest of a deterministic window's entries, applied after this wave -/
  rest : List Req
  deriving DecidableEq, Repr

/-- A home slice with anything in it (R283). -/
structure Slice where
  /-- R283 | 512 requests | none | input queue, oldest first -/
  queue : List Req
  /-- R288 | 16 entries | none | open windows, oldest first -/
  windows : List Window
  /-- R292 | - | none | last close of each grid and address since the last FENCE close -/
  closes : AL (Nat × Nat) CloseWhy
  /-- R293 | 1,024 entries | none | monitors -/
  monitors : List Monitor
  /-- R298 | 64 per context | none | method table, by context and method number -/
  methods : AL (Nat × Nat) Method
  /-- R299 | 512 calls | none | pending calls, oldest first -/
  calls : List Req
  /-- R289 | list | none | closed deterministic windows still to be applied, oldest first, each in key order -/
  runs : List (List Req)
  /-- R300 | - | none | running wave -/
  wave : Option Wave
  /-- R303 | 57 bits | 0 | combiner fault record ADDR -/
  cfAddr : Nat
  /-- R303 | 6 bits | 0 | METHOD -/
  cfMethod : Nat
  /-- R303 | 4 bits | 0 | CAUSE -/
  cfCause : Nat
  /-- R303 | 16 bits | 0 | CTXID -/
  cfCtx : Nat
  /-- R303 | 32 bits | 0 | COUNT -/
  cfCount : Nat
  /-- R443 | 10 bits | 0 | MONSEL.ENTRY -/
  monsel : Nat
  /-- R296 | 16 bits | 0 (DESIGN CHOICE, log 1) | MONRCL.CTX -/
  mrCtx : Nat
  /-- R296 | 1 bit | 0 (DESIGN CHOICE, log 1) | MONRCL.BUSY -/
  mrBusy : Bool
  deriving DecidableEq, Repr

/-- A slice at reset. -/
def Slice.empty : Slice := ⟨[], [], [], [], [], [], [], none, 0, 0, 0, 0, 0, 0, 0, false⟩

/-- A drained write-combining transfer under way (R218, R219). -/
structure Xfer where
  id : Nat
  /-- accessing package -/
  src : Nat
  dest : Nat
  ctx : Nat
  va : Nat
  bytes : AL Nat Byte
  last : AL Nat Nat
  /-- R219 | 1 bit | 0 | applied at the destination -/
  applied : Bool
  deriving DecidableEq, Repr

/-- The forms of an asynchronous operation (R241, R365). -/
inductive OpForm where
  | cpy (f : CpyForm)
  | coll (f : CollForm)
  | rotOpen | rotRun | rotClose
  | xchg
  | rsto
  | upd (opt : UpdOpt) (msk : UpdMask) (pair : Bool)
  | pairst
  | place (op : PlaceOp)
  | step | snap
  deriving DecidableEq, Repr

/-- The life of an asynchronous operation (R313, R413). -/
inductive OpSt where
  | queued | running
  /-- its chunk is parked on a translation fault, with or without a record (R227) -/
  | parked
  /-- every effect is made; the record is due -/
  | ending
  /-- withdrawn by ENGS; what it had gathered from its peers waits for ENGR (R413, R420) -/
  | withdrawn
  deriving DecidableEq, Repr

/-- The life of a chunk that an engine has started and not committed (R244, R307, R309). -/
inductive ChunkSt where
  /-- read, and on its way to where it will be written -/
  | moving
  /-- it may be written once every lower chunk is committed -/
  | here
  /-- parked on a translation fault of a read or a write at this address (R227) -/
  | parked (va : Nat) (write : Bool)
  /-- failed with this status, which decides the operation's once every lower chunk is committed (R309) -/
  | failed (status : Nat)
  deriving DecidableEq, Repr

/-- A chunk that an engine has started and not committed (R244, R307). -/
structure OpChunk where
  idx : Nat
  st : ChunkSt
  /-- R244 | bytes | - | its bytes, with the destination address of each -/
  data : List (Nat × Byte × Bool)
  deriving DecidableEq, Repr

/-- Where a token of an exchange, or a line of an RSTO, is (R324, R328): on its way; at a member, or at the switch of a plane, that
has still to take it, with the replicas that it may go on to and its bytes; or taken or dropped, with its result on the way back.
One not listed has still to be sent. -/
inductive TokenAt where
  | flying
  | at_ (place : Nat) (reps : List Nat) (row : List (Byte × Bool))
  | answered
  deriving DecidableEq, Repr

/-- An asynchronous operation in flight (R412). -/
structure Op where
  /-- R412 | 56 bits | - | OPTAG -/
  id : Nat
  rank : Nat
  die : Nat
  ctx : Nat
  /-- R312 | place | - | core whose footprint-ordering unit it belongs to -/
  core : CoreId
  gid : Nat
  tid : Nat
  grid : Nat
  /-- R227 | 4 bits | - | engine kind, coded as ESTAT's FUNC -/
  kind : Nat
  form : OpForm
  /-- R412 | 32 bits | - | the issued word -/
  word : Word
  /-- R366 | 64 bits | - | parameter word -/
  param : DWord
  /-- R52 | 3 × 128 bits | - | captured t[TD], t[TA], t[n] -/
  td : QWord
  ta : QWord
  tn : QWord
  /-- R366 | 4 bits | - | k register of the record -/
  kn : XReg
  bar : Option BReg
  foe : Bool
  /-- R321 | 8 bits | - | carried level -/
  level : Nat
  /-- R317 | 32 bits | 0 | sequence number, or SEQV -/
  seqno : Nat
  /-- R306 | 2 bits | - | copy engine of the die -/
  engine : Nat
  /-- R215 | number | - | its flight in the group -/
  flight : Nat
  st : OpSt
  /-- R313 | spans | - | footprint -/
  spans : List Span
  /-- R313 | list | - | predecessors still to complete -/
  preds : List Nat
  /-- R412 | PIDX | 0 | chunks, blocks or blocks received -/
  pidx : Nat
  /-- R244, R307 | up to 32 per engine | none | chunks started and not committed, in order -/
  chunks : List OpChunk
  /-- R317 | ranks | none | members that its notice has reached -/
  told : List Nat
  /-- R309 | 4 bits | OK | status decided -/
  status : Nat
  /-- R325 | 27 bits | 0 | SRCID of an RSTO -/
  extra : Nat
  /-- R319 | bytes | - | a collective's source sequence as captured at its start -/
  src : Option (List (Byte × Bool))
  /-- R359 | FP32 each | 0 | LAMB: pass, nw and nd -/
  pass : Nat
  nw : Nat
  nd : Nat
  /-- R326 | counts | 0 | RSTO lines applied, duplicate and faulted; of a ROT run: the step being sent, and its bytes sent -/
  applied : Nat
  dups : Nat
  errs : Nat
  /-- R326, R327 | per token or line | none | XCHG results, in list order; for RSTO, what its switch has answered for each line:
  0 applied, 1 duplicate, 2 replay-window fault -/
  results : List (Option Word)
  /-- R324, R328 | per token or line | none | where the tokens of an XCHG, or the lines of an RSTO, are -/
  tokens : AL Nat TokenAt
  /-- R378 | counts | 0 | XCHG rows filled at this member -/
  filled : Nat
  /-- R376, R387 | number | 0 | N0 of a ROT run; boundaries still to pass for a STEP, the one it arrived at last -/
  bound : Nat
  /-- R413 | 1 bit | 0 | left running while its team is out -/
  detached : Bool
  deriving DecidableEq, Repr

/-- A group-table entry as the device holds it (R315, R316). -/
structure GtEntry where
  /-- R315 | 1,024 bits | - | MEMBERS, as ranks in increasing order -/
  members : List Nat
  rank : Nat
  mode : Nat
  /-- R315 | 32 bits | memory | SEQ, kept by the device -/
  seq : Nat
  exmap : Nat
  nexpert : Nat
  cap : Nat
  /-- R315 | 1 bit | - | a reserved byte is not zero -/
  badZero : Bool
  deriving DecidableEq, Repr

/-- A reduction-window entry as the device holds it (R323). -/
structure RwEntry where
  base : Nat
  length : Nat
  home : Nat
  op : Nat
  flags : Nat
  contrib : Nat
  doneaddr : Nat
  badZero : Bool
  deriving DecidableEq, Repr

/-- An open ring at one member (R330, R374). -/
structure Ring where
  /-- MODEL | number | - | identity -/
  id : Nat
  rank : Nat
  ctx : Nat
  entry : Nat
  tid : Nat
  die : Nat
  seg : Nat
  /-- R375 | bytes | - | offset of the slot region and block size B -/
  base : Nat
  bsize : Nat
  arrb : Nat
  doneb : Nat
  /-- R330 | 4 bits | all held | credits for the downstream slots -/
  credits : List Bool
  /-- R332 | 4 states: 0 FREE, 1 FILLING, 2 FULL, 3 FULL and held | FREE | slot states -/
  slots : List Nat
  /-- R332 | bytes | 0 | bytes committed in each slot -/
  fill : List Nat
  /-- R331 | number | - | number of the block that each slot holds, counted from the ring's first -/
  owner : List Nat
  /-- R332 | bytes | - | bytes of each slot forwarded so far -/
  fwd : List Nat
  /-- R332 | 4 bits | 0 | a phase of b[DONEB + j] has completed since slot j filled -/
  doneSeen : List Bool
  /-- R376 | number | 0 | blocks received once every run matched so far has completed: N0 of the next run -/
  received : Nat
  /-- R376 | 1 bit | 0 | broken -/
  broken : Bool
  deriving DecidableEq, Repr

/-- A pending fault record (R227). -/
structure FaultRec where
  va : Nat
  cause : Nat
  level : Nat
  wdrn : Bool
  access : Nat
  engine : Nat
  ctx : Nat
  /-- R227 | 32 bits | - | OPTAG -/
  optag : Nat
  deriving DecidableEq, Repr

/-- A translation held by a die's TLB (R223). -/
structure TlbEntry where
  ctx : Nat
  /-- first address and size of the page -/
  va : Nat
  size : Nat
  tgt : Nat
  peer : Nat
  pa : Nat
  w : Bool
  x : Bool
  level : Nat
  deriving DecidableEq, Repr

/-- A translation invalidation under way: ALLCTX, CTXID, TLBIVA and TLBISZ as its GO found them (R224). -/
structure TlbJob where
  all : Bool
  ctx : Nat
  iva : Nat
  isz : Nat
  deriving DecidableEq, Repr

/-- The registers and records of one die (R223 to R228, R341, R351, R362). -/
structure DieRegs where
  /-- R223 | 32,768 entries | empty | last-level TLB -/
  tlb : List TlbEntry
  /-- R224 | 45 bits | 0 | TLBIVA -/
  tlbiva : Nat
  /-- R224 | 33 bits | 0 | TLBISZ -/
  tlbisz : Nat
  /-- R224 | - | none | the invalidation under way; TLBICTL.BUSY is 1 while there is one -/
  tlbJob : Option TlbJob
  /-- R224 | 1 bit | 0 | TLBICTL.ALLCTX -/
  tlbAll : Bool
  /-- R224 | 16 bits | 0 | TLBICTL.CTXID -/
  tlbCtx : Nat
  /-- R227 | 64 records | none | fault records, by index -/
  faults : AL Nat FaultRec
  /-- R227 | list | none | faults parked without a record, oldest first -/
  unrecorded : List FaultRec
  /-- R341 | 32 bits | 0 | TIERELOG.CORR -/
  corr : Nat
  /-- R341 | 16 bits | 0 | TIERELOG.POIS -/
  pois : Nat
  /-- R341 | 42 bits | 0 | TIERELOG.LASTP -/
  lastp : Nat
  /-- R362 | 64 entries of 128 bits | none | update-error log: ADDR, WHICH and CTXID -/
  updLog : List (Nat × Nat × Nat)
  /-- R351 | 32 bits | 0 | MORSTAT.DRAINED -/
  drained : Nat
  /-- R416 | count | 0 (DESIGN CHOICE, log 1) | correctable soft errors of the die's SRAM -/
  soft : Nat
  deriving DecidableEq, Repr

/-- A die at reset. -/
def DieRegs.reset : DieRegs := ⟨[], 0, 0, none, false, 0, [], [], 0, 0, 0, [], 0, 0⟩

/-- One agent that may move next: a lane with an issue opportunity, or a step of the hardware or the host. -/
inductive Move where
  | lane (core : CoreId) (lane : Nat)
  /-- an issue opportunity of the combiner engine of a slice (R304) -/
  | wave (sl : SliceId)
  | event (i : Instr)
  /-- a step made for the operation, transfer, request, packet or message of this identity -/
  | subject (i : Instr) (x : Nat)
  deriving DecidableEq, Repr

/-- A write that waits at a home slice for room in the tier (R333, R349). -/
structure TierWait where
  /-- MODEL | move | - | the move that tries the write again -/
  by_ : Option Move
  /-- R334 | 1 bit | - | a thread-path write that waits for a slot; otherwise a persist that waits for a queue entry -/
  slot : Bool
  die : Nat
  deriving DecidableEq, Repr

/-- An entry of a Moraine queue (R348). -/
structure Moraine where
  /-- MODEL, R281 | number | - | place in the order of entry -/
  id : Nat
  /-- R348 | 42 bits | - | tier address of the line -/
  line : Nat
  /-- R348 | 256 bytes and mask | - | bytes, by offset -/
  bytes : AL Nat Byte
  /-- R352 | 64 bits | - | step tag -/
  tag : Nat
  /-- R353 | - | none | the entry is a pre-image of the line for this area -/
  pre : Option Nat
  /-- R336 | 30 bits | - | data slot that it is written to -/
  slot : Nat
  /-- R350, R416 | 1 bit | - | the bytes carry poison -/
  bad : Bool
  deriving DecidableEq, Repr

/-- A persist written to the tier whose parity is not yet acknowledged (R338). -/
structure Unstriped where
  id : Nat
  /-- R338 | address | - | its line, and whether it is a pre-image of it -/
  line : Nat
  pre : Bool
  /-- R352 | 64 bits | - | step tag -/
  tag : Nat
  /-- die whose queue the persist was in -/
  die : Nat
  acks : Nat
  deriving DecidableEq, Repr

/-- A parity delta or acknowledgement between packages (R338). -/
structure ParityMsg where
  id : Nat
  /-- the Moraine entry it protects, at package `src` -/
  persist : Nat
  src : Nat
  holder : Nat
  slot : Nat
  /-- R336 | 1 bit | - | true for Q -/
  isQ : Bool
  delta : AL Nat Byte
  /-- the delta has been applied and the acknowledgement is on its way -/
  acked : Bool
  deriving DecidableEq, Repr

/-- A reconstruction under way in one stripe (R339). -/
structure Recon where
  /-- R336 | 30 bits | - | slot of the stripe -/
  slot : Nat
  /-- R339 | lines | - | lines of the package that are being reconstructed -/
  lines : List Nat
  /-- R339 | positions | - | members whose units were found damaged when they were read -/
  damaged : List Nat
  /-- R339 | positions | - | members that have been asked -/
  asked : List Nat
  /-- R339 | positions | none | members that have answered -/
  answered : List Nat
  deriving DecidableEq, Repr

/-- A pre-image area's line (R353). -/
structure PreImage where
  area : Nat
  line : Nat
  bytes : List Byte
  tag : Nat
  /-- the unit was not backed when the image was taken -/
  unbacked : Bool
  /-- R353 | 30 bits | - | data slot that holds it -/
  slot : Nat
  /-- R340 | 1 bit | - | the line was poisoned -/
  bad : Bool
  deriving DecidableEq, Repr

/-- The storage-class tier of a package (R333 to R341, R352 to R356). -/
structure Tier where
  /-- R333 | 4 TiB | unbacked, reads 0 | performed contents -/
  view : Ram
  /-- R282 | 4 TiB | unbacked, reads 0 | contents written to the tier, which survive a loss of power -/
  store : Ram
  /-- R333 | map | none | slot that backs each unit -/
  units : AL Nat Nat
  /-- R338 | map | none | units as the durable tier holds them -/
  storeUnits : AL Nat Nat
  /-- R336 | parity slots | 0 | parity held for peers: P and Q bytes, at 8,192 slot + 4,096 (Q) + offset -/
  parity : Mem
  /-- R334 | 30 bits | 858,993,456 | TIERFREE.FREE -/
  free : Nat
  /-- R334, R351 | list | none | the writes that wait; TIERFREE.WAITW and the FULLW of each MORSTAT say whether there are any -/
  waits : List TierWait
  /-- R352 | per line | none | step tag of the last persist to each line -/
  tags : AL Nat Nat
  /-- R353 | areas | none | pre-images taken -/
  pre : List PreImage
  /-- R350 | areas | none | pre-images in the durable tier -/
  storePre : List PreImage
  /-- R348 | 4 queues of 65,536 | empty | Moraine queues, by die, oldest first -/
  moraine : Vector (List Moraine) 4
  /-- R338 | list | none | persists not yet stripe-durable -/
  unstriped : List Unstriped
  /-- R350 | list | none | parity-debt list -/
  debt : List ParityMsg
  /-- R339 | stripes | none | reconstructions under way -/
  recon : List Recon
  /-- R352 | 64 bits | 0 | PSTEP -/
  pstep : Nat
  /-- R356 | 1 bit | 0 | FIRNST.TRACK -/
  track : Bool
  /-- R356 | 8 bits | 0 | FIRNST.ENTRY -/
  entry : Nat
  /-- R356 | 1 bit | 0 | FIRNST.ROLL -/
  roll : Bool
  /-- R356 | 1 bit | 0 | FIRNST.SNAPV -/
  snapv : Bool
  /-- R356 | 64 bits kept, 32 read | 0 | FIRNST.SNAPC -/
  snapc : Nat
  /-- R354 | context | 0 | context of the tracked entry -/
  trackCtx : Nat
  /-- R388 | 64 bits | 0 | the step that PSTEP left when tracking began, whose pre-images are its first -/
  trackFrom : Nat
  /-- R387 | 4 counts | 0 | STEPs of each die that wait for a boundary, one for each boundary to come -/
  arrived : Vector Nat 4
  /-- R354 | per rank | none | step that each member is known to have reached -/
  reached : AL Nat Nat
  /-- R461 | 64 bits | 0 | the last step that the package has announced to the members -/
  announced : Nat
  deriving DecidableEq, Repr

/-- A tier with nothing written. -/
def Tier.reset : Tier :=
  { view := Ram.empty, store := Ram.empty, units := [], storeUnits := [], parity := [], free := Config.dataSlots,
    waits := [], tags := [], pre := [], storePre := [], moraine := Vector.replicate 4 [], unstriped := [],
    debt := [], recon := [], pstep := 0, track := false, entry := 0, roll := false, snapv := false, snapc := 0,
    trackCtx := 0, trackFrom := 0, arrived := Vector.replicate 4 0, reached := [], announced := 0 }

/-- The states of a placed object (R342, R344). -/
inductive PlaceSt where
  | tier | promoting | hbm | demoting
  deriving DecidableEq, Repr

/-- An entry of the placement table (R342). -/
structure PlaceEntry where
  /-- MODEL | 12 bits | - | table index -/
  idx : Nat
  base : Nat
  length : Nat
  st : PlaceSt
  pin : Bool
  ctx : Nat
  frame0 : Nat
  /-- R346 | number | - | order in which it reached HBM -/
  since : Nat
  /-- R344 | operations | none | requests that a copy under way will complete -/
  waiting : List Nat
  /-- R346 | table indexes | none | victims it waits for -/
  victims : List Nat
  /-- R345 | addresses | - | pages copied to HBM: virtual address, size and tier address, for the copy back -/
  pages : List (Nat × Nat × Nat)
  /-- R345 | number | 0 | 4 KiB chunks of the copy back that are written -/
  done : Nat
  /-- R345 | lines | none | lines written after their chunk was copied back, by virtual address -/
  marks : List Nat
  deriving DecidableEq, Repr

/-- A line of the memory-side cache (R284). -/
structure CLine where
  ctx : Nat
  va : Nat
  /-- R213 | 2 and 52 bits | - | target and physical address of the line -/
  tgt : Nat
  pa : Nat
  bytes : List Byte
  /-- R284 | 256 bits | 0 | bytes performed here and not yet written to the memory behind -/
  dirty : BitVec 256
  /-- R340, R416 | 1 bit | 0 | poison of the line as HBM or the tier holds it -/
  bad : Bool
  /-- R416 | 64 marks | none | poisoned words of the line, by word offset -/
  badw : List Nat
  deriving DecidableEq, Repr

/-- A mapped or waiting host queue (R157, R444). -/
structure Queue where
  /-- R444 | host address | - | queue header -/
  hdr : Nat
  ctx : Nat
  prio : Nat
  /-- R444 | 32 bits | header | HEAD, next descriptor to retire -/
  head : Nat
  /-- descriptors taken so far: next to dispatch -/
  next : Nat
  /-- R157 | round | - | round in which it was last mapped -/
  round : Nat
  /-- R157 | number | - | last service -/
  served : Nat
  /-- R158 | number | 0 | order in which its next descriptor became eligible, 0 while it is not -/
  since : Nat
  deriving DecidableEq, Repr

/-- A key slot of a link direction at one end (R437, R439): 0 EMPTY, 1 LOADED, 2 LIVE, 3 OLD. -/
structure KeySlot where
  st : Nat
  /-- R437 | 256 bits | 0 | key -/
  key : Nat
  /-- R437 | 32 bits | 0 | salt -/
  salt : Nat
  /-- R437 | 64 bits | 0 | invocation counter -/
  counter : Nat
  deriving DecidableEq, Repr

/-- An empty key slot. -/
def KeySlot.empty : KeySlot := ⟨0, 0, 0, 0⟩

/-- The register block of one end of a link direction (R440). -/
structure KeyRegs where
  /-- R440 | 4 × 64 bits | 0 | LKKEY0 to LKKEY3 -/
  key : Vector DWord 4
  /-- R440 | 32 bits | 0 | LKSALT -/
  salt : Nat
  /-- R440 | 1 bit | 0 | LKCTL.SLOT -/
  slot : Nat
  /-- R440 | 40 bits | 0xFF_0000_0000 | LKTHR -/
  thr : Nat
  /-- R440 | 2 slots | EMPTY | LKSTAT.S0, S1 and the slots -/
  slots : Vector KeySlot 2
  /-- R440 | 1 bit | 0 | LKSTAT.THRX -/
  thrx : Bool
  /-- R440 | 1 bit | 0 | LKSTAT.DOWN -/
  down : Bool
  /-- R440 | 2 bits | 0 | LKSTAT.DCAUSE -/
  dcause : Nat
  deriving DecidableEq, Repr

/-- A register block at reset. -/
def KeyRegs.reset : KeyRegs :=
  ⟨Vector.replicate 4 0, 0, 0, 0xFF00000000, Vector.replicate 2 KeySlot.empty, false, false, 0⟩

/-- What a flit carries (R436, R471): nothing, a packet, the slot that a MARKER names, or a partner register write. -/
inductive Payload where
  | idle
  | data (pkt : Nat)
  | marker (slot : Nat)
  | control (offset value : Nat)
  deriving DecidableEq, Repr

/-- A sealed flit (R436, R437). The seal stands for the GCM tag and ciphertext: the key, salt and counter under which it
was made. -/
structure Flit where
  /-- R436 | 4 bits | - | TYPE -/
  type : Nat
  /-- R436 | 1 bit | - | KSLOT -/
  kslot : Nat
  /-- R436 | 16 bits | - | FSEQ -/
  fseq : Nat
  /-- R436 | 16 bits | - | ACKSEQ -/
  ackseq : Nat
  /-- R436 | 1 bit | - | NAK -/
  nak : Bool
  /-- R436 | 8 bits | - | CREDIT -/
  credit : Nat
  /-- R436 | 1 bit | - | CVC -/
  cvc : Bool
  key : Nat
  salt : Nat
  counter : Nat
  payload : Payload
  /-- R438 | - | - | the flit was altered on the wire -/
  corrupt : Bool
  deriving DecidableEq, Repr

/-- One direction of a scale-up link: its transmitter, its receiver and what is between them (R436 to R440, R471). -/
structure Link where
  tx : KeyRegs
  rx : KeyRegs
  /-- R436 | 16 bits | 0 | next FSEQ to seal -/
  fseq : Nat
  /-- R438 | up to 64 | none | flits not yet acknowledged, oldest first -/
  unacked : List Flit
  /-- R438 | number | - | flits of `unacked` still to resend, from its end -/
  resend : Nat
  /-- R472 | 16 bits | none | FSEQ that the sender is resending from -/
  resending : Option Nat
  /-- R436 | queue | none | payloads waiting to be sealed -/
  sendq : List Payload
  /-- R436 | wire | none | flits sent and not yet received, oldest first -/
  wire : List Flit
  /-- R438 | 16 bits | 0 | FSEQ that the receiver expects -/
  expect : Nat
  /-- R438 | 2 bits | 0 | tag failures of the expected flit -/
  fails : Nat
  /-- R436, R438 | 1 bit | 0 | the receiver has a NAK to send in the next flit of the other direction -/
  nakDue : Bool
  /-- R436 | counts | 0 | packets sent, or queued to be, whose buffer slots have not been returned: of the normal class and of the
  meltwater lane -/
  used : Nat
  usedMelt : Nat
  /-- R436 | counts | 0 | buffer slots of the receiver that are free again and not yet returned by a CREDIT -/
  freed : Nat
  freedMelt : Nat
  /-- R438 | 16 bits | none | ACKSEQ of a NAK that has reached the sender -/
  nakIn : Option Nat
  /-- R472 | - | none | cycle of the last NAK, while the hold-off lasts -/
  holdoff : Option Nat
  /-- R439 | 16 bits | none | FSEQ of the MARKER that retires the OLD slot -/
  marker : Option Nat
  /-- R439 | 16 bits | none | FSEQ of the MARKER as the receiver accepted it -/
  rxMarker : Option Nat
  /-- R440 | 1 bit | 0 | training under way -/
  training : Bool
  deriving DecidableEq, Repr

/-- A link direction at reset. -/
def Link.reset : Link :=
  { tx := KeyRegs.reset, rx := KeyRegs.reset, fseq := 0, unacked := [], resend := 0, resending := none, sendq := [], wire := []
    expect := 0, fails := 0, nakDue := false, nakIn := none, used := 0, usedMelt := 0, freed := 0, freedMelt := 0, holdoff := none
    marker := none, rxMarker := none, training := false }

/-- An entry of the start log (R454). -/
structure StartEntry where
  step : Nat
  st : Nat
  attempt : Nat
  variant : Nat
  code : Nat
  start : Nat
  imgv : Nat
  duration : Nat
  /-- R454 | 32 bytes | 0 | PARAM -/
  param : Nat
  deriving DecidableEq, Repr

/-- The start and recovery registers of a package (R451, R456, R459, R465). -/
structure Start where
  /-- R451 | 4 bits | 1 | STARTST.STEP -/
  step : Nat
  /-- R451 | 1 bit | 0 | STARTST.FAIL -/
  fail : Bool
  /-- R451 | 1 bit | 0 | STARTST.WARM -/
  warm : Bool
  /-- R451 | 8 bits | 0 | STARTST.CODE -/
  code : Nat
  /-- R451 | 32 bits | 0 | STARTST.STARTS -/
  starts : Nat
  /-- R451 | 1 bit | 0 | STARTCTL.FULL -/
  full : Bool
  /-- R451 | 1 bit | 0 | STARTCTL.SPARE -/
  spare : Bool
  /-- R451 | 10 bits | 0 | STARTCTL.RANK -/
  rank : Nat
  /-- R451 | 4 bits | 15 | STARTCTL.POS -/
  pos : Nat
  /-- R451 | 15 bits | 0 | STARTCTL.SET -/
  set : Nat
  /-- R454 | 14 entries of 64 bytes | never run | start log -/
  log : AL Nat StartEntry
  /-- R454 | 64 bits | 0 (DESIGN CHOICE, log 1) | version of the running image set -/
  imgv : Nat
  /-- R456 | 64 bits | 0 (DESIGN CHOICE, log 1) | TRIMADDR -/
  trimaddr : Nat
  /-- R456 | 31 bits | 0 (DESIGN CHOICE, log 1) | TRIMLEN -/
  trimlen : Nat
  /-- R456 | 1 bit | 0 (DESIGN CHOICE, log 1) | TRIMCTL.BUSY -/
  trimBusy : Bool
  /-- R456 | 1 bit | 0 (DESIGN CHOICE, log 1) | TRIMCTL.ERR -/
  trimErr : Bool
  /-- R465 | 3 bits | 0 | RBSTAT.PHASE -/
  phase : Nat
  /-- R465 | 1 bit | 0 | RBSTAT.FAIL -/
  rbFail : Bool
  /-- R465 | 10 bits | 0 | RBSTAT.LOST -/
  lost : Nat
  /-- R465 | 1 bit | 0 | RBSTAT.NOSPARE -/
  nospare : Bool
  /-- R465 | 1 bit | 0 | RBSTAT.NOSNAP -/
  nosnap : Bool
  /-- R465 | 32 bits | 0 | RBSTAT.ROLLS -/
  rolls : Nat
  /-- R465 | 32 bits | 0 | RBPROG.DONE -/
  done : Nat
  /-- R465 | 32 bits | 0 | RBPROG.TOTAL -/
  total : Nat
  /-- R464 | list | none | units still to rebuild, as slots -/
  rebuild : List Nat
  /-- R459 | 10 bits | 0 (DESIGN CHOICE, log 1) | RBLOST.RANK -/
  rblost : Nat
  /-- R462 | 10 bits | 0 | rank that the package held as a spare, once it has taken another's -/
  standby : Nat
  /-- R452 | 1 bit | 0 | the package has supply -/
  powered : Bool
  /-- R452 | 1 bit | 0 | the package has joined its domain -/
  joined : Bool
  deriving DecidableEq, Repr

/-- The start registers at reset. -/
def Start.reset : Start :=
  { step := 1, fail := false, warm := false, code := 0, starts := 0, full := false, spare := false, rank := 0,
    pos := 15, set := 0, log := [], imgv := 0, trimaddr := 0, trimlen := 0, trimBusy := false, trimErr := false,
    phase := 0, rbFail := false, lost := 0, nospare := false, nosnap := false, rolls := 0, done := 0, total := 0,
    rebuild := [], rblost := 0, standby := 0, powered := true, joined := false }

/-- One package of the domain (R422). -/
structure Pkg where
  /-- R451 | 10 bits | 0 | package rank -/
  rank : Nat
  /-- R213 | 768 GiB | 0 (DESIGN CHOICE, log 5) | local HBM; poison per 256-byte line -/
  hbm : Ram
  /-- R231 | 1 MiB | 0 (DESIGN CHOICE, log 5) | host coherent window -/
  window : Ram
  /-- R284 | 128 × 2 MiB | empty | memory-side caches of the home slices -/
  cache : List CLine
  tier : Tier
  /-- R422 | 4 dies | R224 | registers of each die -/
  dies : Vector DieRegs 4
  /-- R283 | 128 slices | empty | home slices with anything in them -/
  slices : AL Nat Slice
  /-- R316 | 256 per context | not loaded | group-table entries the device holds, by context and entry -/
  gt : AL (Nat × Nat) GtEntry
  /-- R316 | 64 per context | not loaded | reduction-window entries the device holds -/
  rw : AL (Nat × Nat) RwEntry
  /-- R316 | 10 bits | 0 | GTSYNC.ENTRY, ALL and TABLE -/
  gtsync : Nat
  /-- R316 | 1 bit | 0 | GTSYNC.BUSY -/
  gtBusy : Bool
  /-- R316 | 1 bit | 0 | GTSYNC.FAULT -/
  gtFault : Bool
  /-- R343 | 64 bits | 0 | PLPOOLB -/
  plpoolb : Nat
  /-- R343 | 19 bits | 0 | PLPOOLS -/
  plpools : Nat
  /-- R342 | 4,096 entries | free | placement table -/
  place : List PlaceEntry
  /-- R374 | 8 rings | none | open rings -/
  rings : List Ring
  /-- R157 | 4,096 slots | free | queue-slot table -/
  qslots : AL Nat Queue
  /-- R157 | list | none | waiting queues, oldest first -/
  qwait : List Queue
  /-- R157 | number | 0 | mapping rounds made -/
  round : Nat
  /-- R176 | 4,096 slots | free | child handles: slot, grid and sequence number -/
  children : AL Nat (Nat × Nat)
  /-- R176 | 52 bits | 0 (DESIGN CHOICE, log 1) | launch sequence number -/
  launchSeq : Nat
  /-- R177 | per slot | none | last sequence number given for each child slot -/
  childSeq : AL Nat Nat
  /-- R435 | 16 bits | 0 | FABST.THAWS -/
  thaws : Nat
  /-- R435 | 16 bits | 0 | FABST.AUTHF -/
  authf : Nat
  /-- R447 | 64 bits | 0 (DESIGN CHOICE, log 1) | EPKG -/
  epkg : Nat
  /-- R427 | 64 words of 64 bits | 0 (DESIGN CHOICE, log 1) | RWLOSS, by window -/
  rwloss : AL Nat Nat
  /-- R448 | 8 × 64 bytes | 0 (DESIGN CHOICE, log 1) | MEAS0 to MEAS7 -/
  meas : Vector (List Byte) 8
  /-- R449 | 64 bytes | 0 (DESIGN CHOICE, log 1) | ATTNONCE -/
  nonce : List Byte
  /-- R449 | 1 bit | 0 | ATTCTL.BUSY -/
  attBusy : Bool
  /-- R449 | report | 0 (DESIGN CHOICE, log 1) | attestation report -/
  report : List Byte
  /-- R422 | 36 scale-up ports, then the 8 scale-out ports, 2 directions | R440 | links, by port and direction (true: out of the
  package) -/
  links : AL (Nat × Bool) Link
  /-- R459 | cycle | 0 | when its level 1 switches last accepted a flit from it, as far as the model has flits (log 44) -/
  heard : Nat
  start : Start
  deriving DecidableEq, Repr

/-- A memory access of an engine, a drain or a thread travelling to a peer (R424). -/
structure PeerReq where
  id : Nat
  src : Nat
  dest : Nat
  req : Req
  deriving DecidableEq, Repr

/-- What a message between packages does where it ends (R428). -/
inductive Cargo where
  /-- the steps that its arrival makes due -/
  | moves (ms : List Move)
  /-- the bytes of a chunk, at the last package they cross (R244) -/
  | chunk (op idx : Nat)
  /-- a member's operation is known at a rank (R317) -/
  | notice (op rank : Nat)
  /-- a reply to one slot of a word in flight (R214) -/
  | reply (gid seq slot : Nat) (r : Reply)
  /-- a token with its bytes on its way to a member, and the replicas that it may go on to; in replica mode a Col switch has still
  to pick its member (R329) -/
  | token (op i : Nat) (picked : Bool) (reps : List Nat) (row : List (Byte × Bool))
  /-- the result of a token or of an RSTO's line, on its way back (R326, R328) -/
  | result (op i : Nat) (w : Word)
  /-- a line of an RSTO on its way to its reducing switch (R324) -/
  | line (op i : Nat) (row : List (Byte × Bool))
  /-- the units of a stripe read for a reconstruction at a package: slot and position (R339) -/
  | stripe (rank slot pos : Nat)
  deriving DecidableEq, Repr

/-- What a packet carries (R424, R428): an access, a PUT transfer, or a message, of an operation or of none, that goes on to the
packages listed. -/
inductive PktBody where
  | req (id : Nat)
  | xfer (id : Nat)
  | msg (op : Option Nat) (legs : List Nat) (c : Cargo)
  deriving DecidableEq, Repr

/-- A packet of the fabric (R428). -/
structure Packet where
  id : Nat
  src : Nat
  dest : Nat
  /-- R428 | number | - | end-to-end sequence number per source and destination -/
  e2e : Nat
  body : PktBody
  /-- R433 | 12 bits | 0 | deflection age -/
  age : Nat
  /-- R431 | 1 bit | 0 | marked at the capture of the thaw token -/
  marked : Bool
  /-- R429 | 1 bit | 0 | on the meltwater lane -/
  melt : Bool
  /-- R425 | 6 bits | - | plane it travels on -/
  plane : Nat
  /-- R310 | cycle | none | when it first found no usable egress port, since it last advanced -/
  stuck : Option Nat
  /-- where it stands: a node and an input buffer of it; nothing while a flit carries it -/
  place : Option (NodeId × Nat)
  deriving DecidableEq, Repr

/-- The state of an input buffer (R431). -/
inductive BufSt where
  | normal | suspect | thawing
  deriving DecidableEq, Repr

/-- An input buffer of a node (R429, R431). -/
structure Buffer where
  st : BufSt
  /-- packets, oldest first -/
  pkts : List Nat
  /-- R431 | cycle | - | when the head last advanced -/
  since : Nat
  /-- R431 | cycle | - | when a marked packet last moved -/
  moved : Nat
  /-- R429 | 1 packet | none | the meltwater slot -/
  melt : Option Nat
  deriving DecidableEq, Repr

/-- A package port or Col switch (R425 to R434). -/
structure Node where
  /-- R431 | per input | NORMAL | input buffers, by number -/
  bufs : AL Nat Buffer
  /-- R433 | 1 bit | 0 | in deflection -/
  deflecting : Bool
  /-- R433 | 1 bit | 1 | buffer SRAM enabled -/
  sram : Bool
  /-- R433 | cycle | 0 | last meltwater stall -/
  stall : Nat
  deriving DecidableEq, Repr

/-- A node at reset. -/
def Node.reset : Node := ⟨[], false, true, 0⟩

/-- The replay filter of one source for one window at a reducing switch (R326). -/
structure Filter where
  h : Nat
  b : Nat
  deriving DecidableEq, Repr

/-- A contribution to a line of a window: its SRCID, its operation, and its words with their poison marks (R324, R416). -/
structure Contrib where
  src : Nat
  op : Nat
  words : List (Word × Bool)
  deriving DecidableEq, Repr

/-- A merged line on its way home, or a round being collected (R324). -/
structure Merge where
  id : Nat
  ctx : Nat
  win : Nat
  line : Nat
  home : Nat
  /-- R323 | address | - | the line's address at the home -/
  va : Nat
  /-- R323 | 8 bits | - | OP of the window -/
  op : Nat
  /-- R323 | address | - | DONEADDR -/
  done : Nat
  /-- contributions counted, in the order of arrival -/
  parts : List Contrib
  deriving DecidableEq, Repr

/-- The Col switches and what travels through them (R425 to R434, R324). -/
structure Fabric where
  /-- R425 | - | none | nodes with anything in them -/
  nodes : AL NodeId Node
  packets : List Packet
  /-- R428 | per pair | 0 | end-to-end sequence numbers: next to send -/
  e2e : AL (Nat × Nat) Nat
  /-- R428 | per pair | none | sequence numbers delivered -/
  delivered : AL (Nat × Nat) (List Nat)
  /-- R430 | node | - | where the thaw token is -/
  token : Option NodeId
  /-- R430 | 16 bits | 0 (DESIGN CHOICE, log 1) | epoch of the token -/
  epoch : Nat
  /-- R430 | cycle | 0 | when plane 0's lowest level 2 switch last saw a token -/
  seen : Nat
  /-- R430 | ring | start | nodes in the token's ring order -/
  ring : List NodeId
  /-- R427 | planes | none | planes that are down -/
  down : List Nat
  /-- R427 | switches | none | level 2 switches that are down, by plane and number -/
  downSw : List (Nat × Nat)
  /-- R326 | per context, window, SRCID and reducing switch | none | replay filters; a switch is plane + 36 × its number -/
  filters : AL (Nat × Nat × Nat × Nat) Filter
  /-- R324 | per context, window and line | none | rounds being collected -/
  rounds : AL (Nat × Nat × Nat) Merge
  /-- R324 | list | none | merged lines on their way to the home -/
  merges : List Merge
  /-- R283, R424 | list | none | accesses on their way to a slice: to a peer, or waiting in the die mesh, in the order of sending -/
  reqs : List PeerReq
  /-- R219 | list | none | drained PUT transfers -/
  xfers : List Xfer
  /-- R338 | list | none | parity messages -/
  parity : List ParityMsg
  deriving DecidableEq, Repr

/-- An outstanding DWFENCE or METHREG (R255, R261): the slices that have not acknowledged. -/
structure SliceWait where
  id : Nat
  gid : Nat
  ctx : Nat
  grid : Nat
  slices : List SliceId
  /-- METHREG: method number and the new entry, none to remove -/
  method : Nat
  entry : Option Method
  deriving DecidableEq, Repr

/-- The host side of the Tabad Link (R213, R442, R445). -/
structure HostSide where
  /-- R213 | 2^52 bytes | 0 (DESIGN CHOICE, log 5) | host memory -/
  mem : Ram
  /-- R445 | list | none | events delivered: package and vector 0 queues, 1 links, 2 fault records -/
  events : List (Nat × Nat)
  deriving DecidableEq, Repr

/-- The fragment that issues a word: its group and its split-table entry. -/
structure Issuer where
  gid : Nat
  entry : Nat
  deriving DecidableEq, Repr

/-- The state of the domain. -/
structure State where
  /-- R127 | - | none | groups and combiner waves -/
  groups : List Group
  /-- R147 | - | none | teams -/
  teams : List Team
  /-- R127 | 512 per package | at reset | cores with anything in them -/
  cores : List Core
  /-- R151 | - | none | grids -/
  grids : List Grid
  /-- R206 | 96 MiB per die | none | scratchpad segments -/
  segs : List Segment
  /-- R444 | - | none | contexts -/
  ctxs : List Ctx
  /-- R412 | - | none | asynchronous operations in flight -/
  ops : List Op
  /-- R255, R261 | - | none | DWFENCEs and METHREGs waiting for slices -/
  sliceWaits : List SliceWait
  /-- R422 | up to 1,024 | one package of rank 0 (DESIGN CHOICE, log 6) | packages of the domain -/
  pkgs : List Pkg
  fab : Fabric
  host : HostSide
  /-- R33 | 64 bits | 0 (DESIGN CHOICE, log 1) | CYC -/
  cyc : Nat
  /-- MODEL | number | 1 (DESIGN CHOICE, log 7) | cycles that one step takes -/
  dt : Nat
  /-- MODEL | list | empty (DESIGN CHOICE, log 8) | the moves to come, next first -/
  agenda : List Move
  /-- MODEL | - | none | the fragment whose word is being issued -/
  who : Option Issuer
  /-- MODEL | number | 0 | the operation, transfer, request, packet or message for which a step is being made -/
  subj : Nat
  /-- MODEL | move | none | the move that is being made -/
  cur : Option Move
  /-- MODEL | number | 0 (DESIGN CHOICE, log 2) | counter of identities and of free values -/
  fresh : Nat
  deriving DecidableEq, Repr

/-- Why a step of the model stops. -/
inductive Fault where
  /-- Raised by every instruction word when no resident fragment is issuing (`State.who` names none): the spec gives a
  word an effect only as a word of a fragment (R26). Safe: the hardware never issues a word without a fragment. -/
  | noIssuer
  deriving DecidableEq, Repr

/-- Why a step of the model has no meaning. -/
inductive Refusal where
  /-- Raised by an arm of `exec` whose instruction has no meaning yet. Safe: it only stops. -/
  | notModelled (mnemonic : String)
  deriving DecidableEq, Repr

/-- A package right after reset. -/
def Pkg.reset (rank : Nat) : Pkg :=
  { rank := rank, hbm := Ram.empty, window := Ram.empty, cache := [], tier := Tier.reset,
    dies := Vector.replicate 4 DieRegs.reset, slices := [], gt := [], rw := [], gtsync := 0, gtBusy := false,
    gtFault := false, plpoolb := 0, plpools := 0, place := [], rings := [], qslots := [], qwait := [], round := 0,
    children := [], launchSeq := 0, childSeq := [], thaws := 0, authf := 0, epkg := 0, rwloss := [],
    meas := Vector.replicate 8 (List.replicate 64 0), nonce := List.replicate 64 0, attBusy := false, report := [], links := [], heard := 0, start := Start.reset }

/-- The fabric right after reset. -/
def Fabric.reset : Fabric :=
  { nodes := [], packets := [], e2e := [], delivered := [], token := none, epoch := 0, seen := 0, ring := [],
    down := [], downSw := [], filters := [], rounds := [], merges := [], reqs := [], xfers := [], parity := [] }

/-- The machine right after reset: one package at the start of its sequence (R451, R452), nothing resident. -/
def State.reset : State :=
  { groups := [], teams := [], cores := [], grids := [], segs := [], ctxs := [], ops := [], sliceWaits := [],
    pkgs := [Pkg.reset 0], fab := Fabric.reset, host := ⟨Ram.empty, []⟩, cyc := 0, dt := 1, agenda := [], who := none,
    subj := 0, cur := none, fresh := 0 }

end Sys2Proof.Machine
end

