-- ==== Sys2Proof/Machine/Mem.lean ====
section
/-! DEFINITION. The bytes of one memory (R2): a list of address and byte in one canonical form, addresses rising and no
zero byte listed, since an unlisted address reads as zero. Poison marks stand beside the bytes (R416). -/

/-- An element put into a sorted list, before the elements that do not come earlier. -/
def List.insertLe {α : Type} (le : α → α → Bool) (x : α) : List α → List α
  | [] => [x]
  | y :: r => if le x y then x :: y :: r else y :: List.insertLe le x r

/-- A list sorted by `le`; equal elements keep their order. -/
def List.sortLe {α : Type} (l : List α) (le : α → α → Bool) : List α := l.foldr (List.insertLe le) []

namespace Sys2Proof.Machine

/-- The byte at an address. -/
def Mem.read : Mem → Nat → Byte
  | [], _ => 0
  | (k, v) :: r, a => if k == a then v else Mem.read r a

/-- The list with nothing at an address at or below `a`'s place, then `a`: insertion in rising order. -/
def Mem.write : Mem → Nat → Byte → Mem
  | [], a, b => if b == 0 then [] else [(a, b)]
  | (k, v) :: r, a, b =>
    if k < a then (k, v) :: Mem.write r a b
    else if k == a then if b == 0 then r else (a, b) :: r
    else if b == 0 then (k, v) :: r else (a, b) :: (k, v) :: r

/-- Every address is above `lo`, addresses rise and no byte is zero. -/
def Mem.wfFrom : Option Nat → Mem → Bool
  | _, [] => true
  | lo, (k, v) :: r => (match lo with | none => true | some l => l < k) && v != 0 && Mem.wfFrom (some k) r

/-- The canonical form. -/
def Mem.wf (m : Mem) : Bool := Mem.wfFrom none m

/-- Bytes a, a + 1, ..., n of them. -/
def Mem.readN (m : Mem) : Nat → Nat → List Byte
  | _, 0 => []
  | a, n + 1 => m.read a :: Mem.readN m (a + 1) n

/-- Bytes written at a, a + 1, and so on. -/
def Mem.writeL (m : Mem) : Nat → List Byte → Mem
  | _, [] => m
  | a, b :: bs => Mem.writeL (m.write a b) (a + 1) bs

/-- The little-endian number of n bytes at a (R2). -/
def Mem.num (m : Mem) (a n : Nat) : Nat := ofBytesLE (m.readN a n)

/-- The 32-bit word at an address. -/
def Mem.word (m : Mem) (a : Nat) : Word := BitVec.ofNat 32 (m.num a 4)

/-- The little-endian bytes of a word. -/
def wordBytes (w : Word) : List Byte := bytesLE 4 w.toNat

/-- The words that bytes hold, in order; a rest of fewer than 4 bytes is dropped. -/
def wordsOf : List Byte → List Word
  | a :: b :: c :: d :: r => BitVec.ofNat 32 (ofBytesLE [a, b, c, d]) :: wordsOf r
  | _ => []

/-- The bytes of words, in order. -/
def bytesOf (ws : List Word) : List Byte := ws.flatMap wordBytes

/-- The poison marks of the units of `gran` bytes that n bytes at a touch. -/
def Ram.bad (r : Ram) (gran a n : Nat) : Bool := r.poison.any fun g => g * gran < a + n && a < (g + 1) * gran

/-- Writes bytes, and clears the marks of the units that are wholly written (R416). -/
def Ram.write (r : Ram) (gran a : Nat) (bs : List Byte) : Ram :=
  { bytes := r.bytes.writeL a bs
    poison := r.poison.filter fun g => !(a ≤ g * gran && (g + 1) * gran ≤ a + bs.length) }

/-- Marks the unit that holds an address (R416). -/
def Ram.mark (r : Ram) (gran a : Nat) : Ram :=
  if r.poison.contains (a / gran) then r else { r with poison := r.poison ++ [a / gran] }

/-- A byte with its poison mark, as engines carry it (R416). -/
abbrev PByte := Byte × Bool

/-- Bytes with the marks of their 4-byte words (R416). -/
def Ram.readP (r : Ram) (a : Nat) : Nat → List PByte
  | 0 => []
  | n + 1 => (r.bytes.read a, r.bad 4 a 1) :: Ram.readP r (a + 1) n

/-- The words touched by n bytes at a. -/
def wordsTouched (a n : Nat) : List Nat :=
  (upTo ((a + n + 3) / 4 - a / 4)).map fun i => a / 4 + i

/-- Writes bytes with their marks: a word that receives a poisoned byte is marked, and a word wholly written with sound
bytes is cleared (R416). -/
def Ram.writeP (r : Ram) (a : Nat) (bs : List PByte) : Ram :=
  let r := r.write 4 a (bs.map (·.1))
  (upTo bs.length).foldl (fun r i => if (bs.getD i (0, false)).2 then r.mark 4 (a + i) else r) r

end Sys2Proof.Machine
end

