-- ==== Sys2Proof/Machine/Global.lean ====
section
/-! DEFINITION. Address translation (R212 to R228), the memories behind a translation (R213), the memory-side caches
(R284, R340), persists (R279, R333, R348 to R353), and global accesses as a home slice performs them. -/

namespace Sys2Proof.Machine

/-! ### Lookups and updates of what the state holds -/

/-- Changes the elements that satisfy `p`. -/
def modWhere {α : Type} (p : α → Bool) (f : α → α) (l : List α) : List α := l.map fun a => if p a then f a else a

/-- The value of a key. -/
def AL.get {κ α : Type} [BEq κ] (m : AL κ α) (k : κ) : Option α := (m.find? fun e => e.1 == k).map (·.2)
/-- A key's value replaced, or added. -/
def AL.put {κ α : Type} [BEq κ] (m : AL κ α) (k : κ) (a : α) : AL κ α := (k, a) :: m.filter fun e => e.1 != k
/-- A key removed. -/
def AL.del {κ α : Type} [BEq κ] (m : AL κ α) (k : κ) : AL κ α := m.filter fun e => e.1 != k

def State.pkg? (s : State) (rank : Nat) : Option Pkg := s.pkgs.find? fun p => p.rank == rank
def State.modPkg (s : State) (rank : Nat) (f : Pkg → Pkg) : State :=
  { s with pkgs := modWhere (fun p => p.rank == rank) f s.pkgs }
def State.ctx? (s : State) (rank id : Nat) : Option Ctx := s.ctxs.find? fun c => c.rank == rank && c.id == id
def State.modCtx (s : State) (rank id : Nat) (f : Ctx → Ctx) : State :=
  { s with ctxs := modWhere (fun c => c.rank == rank && c.id == id) f s.ctxs }

/-- Die `d` of a package. -/
def Pkg.die (p : Pkg) (d : Nat) : DieRegs := p.dies[d]?.getD DieRegs.reset
/-- Changes die `d` of a package. -/
def Pkg.modDie (p : Pkg) (d : Nat) (f : DieRegs → DieRegs) : Pkg :=
  { p with dies := p.dies.mapIdx fun i r => if i == d then f r else r }

/-- The slice `n` of a package. -/
def Pkg.slice (p : Pkg) (n : Nat) : Slice := (p.slices.get n).getD Slice.empty
/-- Changes slice `n` of a package. -/
def State.modSlice (s : State) (sl : SliceId) (f : Slice → Slice) : State :=
  s.modPkg sl.rank fun p => { p with slices := p.slices.put sl.slice (f (p.slice sl.slice)) }
def State.slice (s : State) (sl : SliceId) : Slice :=
  match s.pkg? sl.rank with
  | none => Slice.empty
  | some p => p.slice sl.slice

def State.group? (s : State) (gid : Nat) : Option Group := s.groups.find? fun g => g.gid == gid
def State.modGroup (s : State) (gid : Nat) (f : Group → Group) : State :=
  { s with groups := modWhere (fun g => g.gid == gid) f s.groups }
def State.team? (s : State) (tid : Nat) : Option Team := s.teams.find? fun t => t.tid == tid
def State.modTeam (s : State) (tid : Nat) (f : Team → Team) : State :=
  { s with teams := modWhere (fun t => t.tid == tid) f s.teams }

/-- Moves to come, added behind the others. -/
def State.owe (s : State) (ms : List Move) : State := { s with agenda := s.agenda ++ ms }

/-- A move that is to come, unless it already is. -/
def State.oweOnce (s : State) (m : Move) : State := if s.agenda.contains m then s else s.owe [m]

/-- A number not used before. -/
def State.gensym (s : State) : Nat × State := (s.fresh, { s with fresh := s.fresh + 1 })

/-! ### What a package hands to the fabric (R424, R428) -/

/-- The routing stage of a package, where a packet waits for an egress port (R428). -/
def stage (rank : Nat) : NodeId := .port rank 36
/-- The input buffer of a Col switch for what it sends itself. -/
def switchStage : Nat := 4096

/-- A node of the fabric. -/
def State.node (s : State) (n : NodeId) : Node := (s.fab.nodes.get n).getD Node.reset
def State.modNode (s : State) (n : NodeId) (f : Node → Node) : State :=
  { s with fab := { s.fab with nodes := s.fab.nodes.put n (f (s.node n)) } }
def State.packet? (s : State) (id : Nat) : Option Packet := s.fab.packets.find? fun p => p.id == id
def State.modPacket (s : State) (id : Nat) (f : Packet → Packet) : State :=
  { s with fab := { s.fab with packets := modWhere (fun p => p.id == id) f s.fab.packets } }

/-- An empty input buffer. -/
def Buffer.empty : Buffer := ⟨.normal, [], 0, 0, none⟩
/-- An input buffer of a node. -/
def Node.buf (n : Node) (i : Nat) : Buffer := (n.bufs.get i).getD Buffer.empty
def Node.modBuf (n : Node) (i : Nat) (f : Buffer → Buffer) : Node := { n with bufs := n.bufs.put i (f (n.buf i)) }

/-- A packet put at the tail of an input buffer; the buffer is watched from its first packet on (R431). -/
def enqueue (s : State) (n : NodeId) (i id : Nat) : State :=
  let first := ((s.node n).buf i).pkts.isEmpty
  let s := s.modNode n fun x => x.modBuf i fun b =>
    { b with pkts := b.pkts ++ [id], since := if first then s.cyc else b.since }
  let s := s.modPacket id fun p => { p with place := some (n, i) }
  if first then s.owe [.event (.bufferSuspectTimeout n i)] else s

/-- A packet made at a node, with its end-to-end sequence number (R428). -/
def sendFrom (s : State) (n : NodeId) (i src dest : Nat) (body : PktBody) : State :=
  let (id, s) := s.gensym
  let e := (s.fab.e2e.get (src, dest)).getD 0
  let p : Packet := { id := id, src := src, dest := dest, e2e := e, body := body, age := 0, marked := false, melt := false
                      plane := 0, stuck := none, place := none }
  let s := { s with fab := { s.fab with packets := s.fab.packets ++ [p], e2e := s.fab.e2e.put (src, dest) (e + 1) } }
  (enqueue s n i id).owe [.subject .packetHop id]

/-- A packet made by a package for a peer. -/
def sendPacket (s : State) (src dest : Nat) (body : PktBody) : State := sendFrom s (stage src) 0 src dest body

/-- A packet made by a level 2 switch of a plane, numbered as from a source of its own (R324). -/
def sendFromSwitch (s : State) (plane idx dest : Nat) (body : PktBody) : State :=
  sendFrom s (.col2 plane idx) switchStage (2048 + plane + 36 * idx) dest body

/-- The link of an identity. -/
def State.link (s : State) (l : LinkId) : Link := (((s.pkg? l.rank).bind fun p => p.links.get (l.port, l.out))).getD Link.reset
/-- Changes a link. -/
def State.modLink (s : State) (l : LinkId) (f : Link → Link) : State :=
  s.modPkg l.rank fun p => { p with links := p.links.put (l.port, l.out) (f ((p.links.get (l.port, l.out)).getD Link.reset)) }

/-- The other direction of a link. -/
def otherWay (l : LinkId) : LinkId := { l with out := !l.out }

/-- The input buffer of a level 1 switch for a package, and of a level 1 or 2 switch for a switch of the other level. -/
def fromPkg (rank : Nat) : Nat := rank
def fromL2 (idx : Nat) : Nat := 1024 + idx

/-- The link that fills an input buffer; the switches' own connections are none (R436). -/
def feedOf : NodeId → Nat → Option LinkId
  | .port rank q, _ => if q < 36 then some ⟨rank, q, false⟩ else none
  | .col1 plane _, i => if i < 1024 then some ⟨i, plane, true⟩ else none
  | .col2 _ _, _ => none

/-- A buffer slot that a link filled is free again; the next flit of the other direction returns it (R436). -/
def returnSlot (s : State) (l : LinkId) (melt : Bool) : State :=
  (s.modLink l fun k => if melt then { k with freedMelt := k.freedMelt + 1 } else { k with freed := k.freed + 1 }).oweOnce
    (.event (.flitSend (otherWay l)))

/-- A packet leaves its input buffer: a suspect buffer whose head leaves is normal again (R431). -/
def leave (s : State) (pk : Packet) : State :=
  match pk.place with
  | none => s
  | some (n, i) =>
    let melt := ((s.node n).buf i).melt == some pk.id
    let s := s.modNode n fun x => x.modBuf i fun b =>
      let head := b.pkts.head? == some pk.id
      { b with pkts := b.pkts.filter (· != pk.id), melt := if melt then none else b.melt
               since := if head then s.cyc else b.since
               st := if head && b.st != .thawing then .normal else b.st }
    match feedOf n i with
    | none => s
    | some l => returnSlot s l melt

/-- The packets that satisfy `p` are given up; one that a flit carries goes on with nothing to do. -/
def dropPackets (s : State) (p : Packet → Bool) : State :=
  let gone (x : Packet) : Bool := p x && x.place.isSome
  let s := (s.fab.packets.filter gone).foldl leave s
  let left := s.fab.packets.filter fun x => !gone x
  { s with fab := { s.fab with packets := modWhere p (fun x => { x with body := .msg none [] (.moves []) }) left } }

/-- A packet has found no usable egress port for 1 ms (R310). -/
def Packet.timedOut (pk : Packet) (cyc : Nat) : Bool := pk.stuck.any fun t => t + 1000 * Config.usec ≤ cyc

/-- Consecutive packages of a way, each once. -/
def legsOf : List Nat → List Nat
  | a :: b :: r => if a == b then legsOf (b :: r) else a :: legsOf (b :: r)
  | l => l

/-- A message goes from package to package, for an operation or for none; `here` is its effect when it stays in one (R428). -/
def travel (s : State) (op : Option Nat) (path : List Nat) (c : Cargo) (here : State → State) : State :=
  match legsOf path with
  | a :: b :: r => sendPacket s a b (.msg op r c)
  | _ => here s

/-! ### Domains (R441) -/

/-- The domain of a rank, by the rank map of a context; without a map every rank is of one domain (R441; log 71). -/
def domainOf (s : State) (c : Ctx) (r : Nat) : Nat := if c.rankmap == 0 then 0 else s.host.mem.bytes.num (c.rankmap + 4 * r) 2

/-- Another rank is of the domain of a package (R441). -/
def sameDomain (s : State) (rank ctx r : Nat) : Bool :=
  (s.ctx? rank ctx).all fun c => domainOf s c r == domainOf s c rank

/-! ### Translation -/

/-- What an access does (R222). -/
inductive Access where
  | read | write | atomic | fetch
  deriving DecidableEq, Repr

/-- The access writes (R222). -/
def Access.writes : Access → Bool
  | .write | .atomic => true
  | .read | .fetch => false

/-- A translation fault: its cause and its level (R225). -/
structure XFault where
  cause : Nat
  level : Nat
  deriving DecidableEq, Repr

/-- Where an access is performed: the home package, and target and physical address there (R213). -/
structure Phys where
  home : Nat
  tgt : Nat
  pa : Nat
  deriving DecidableEq, Repr

/-- The last HBM address plus one (R213). -/
def hbmEnd : Nat := 0xC000000000
/-- The host coherent window (R213). -/
def windowBase : Nat := 0xFFFFF00000
def windowEnd : Nat := 0x10000000000

/-- A local physical address of the host coherent window. -/
def inWindow (tgt pa : Nat) : Bool := tgt == 0 && windowBase ≤ pa && pa < windowEnd

/-- The home slice of a line, from its virtual address (R229). -/
def sliceOf (va : Nat) : Nat :=
  let l := bitsOf va 8 49
  let x (i : Nat) := bitsOf l (7 * i) 7
  x 0 ^^^ x 1 ^^^ x 2 ^^^ x 3 ^^^ x 4 ^^^ x 5 ^^^ x 6

/-- The die of a home slice (R229). -/
def dieOfSlice (sl : Nat) : Nat := sl / 32

/-- A physical address that a leaf may produce (R213). -/
def physOk (tgt pa : Nat) : Bool :=
  match tgt with
  | 0 => pa < hbmEnd || inWindow 0 pa
  | 1 => true
  | 2 => pa < 2 ^ 42
  | _ => pa < 2 ^ 52

/-- Reserved bits of a table entry at a level are zero (R221). -/
def entryOk (e level : Nat) : Bool :=
  let leaf := bitOf e 1
  let tgt := bitsOf e 6 2
  !bitOf e 5 && bitsOf e 8 4 == 0 && bitsOf e 62 2 == 0 && (level == 1 || !bitOf e 4) &&
    (level ≤ 3 || !leaf) && (level != 1 || leaf) && (bitsOf e 52 10 == 0 || (leaf && tgt == 1)) &&
    !(leaf && tgt == 1 && bitsOf e 12 40 != 0)

/-- The bytes that a leaf at a level maps (R222). -/
def leafSize (e level : Nat) : Nat := if level == 1 && bitOf e 4 then 2 ^ 16 else 2 ^ (12 + 9 * (level - 1))

/-- The walk from level `level` downwards at table address `a` (R222). -/
def walk (m : Mem) (ctx va : Nat) : Nat → Nat → Except XFault TlbEntry
  | 0, _ => .error ⟨2, 1⟩
  | level + 1, a =>
    let lv := level + 1
    let e := m.num (a + 8 * bitsOf va (12 + 9 * level) 9) 8
    if !bitOf e 0 then .error ⟨1, lv⟩
    else if !entryOk e lv then .error ⟨2, lv⟩
    else
      let frame := bitsOf e 12 40 * 2 ^ 12
      if bitOf e 1 then
        let size := leafSize e lv
        if frame % (if lv == 1 then 2 ^ 12 else size) != 0 then .error ⟨2, lv⟩
        else
          .ok { ctx := ctx, va := va / size * size, size := size, tgt := bitsOf e 6 2, peer := bitsOf e 52 10
                pa := frame / size * size, w := bitOf e 2, x := bitOf e 3, level := lv }
      else if bitsOf e 6 2 != 0 then .error ⟨2, lv⟩
      else if frame > 0xBFFFFFF000 then .error ⟨2, lv⟩
      else walk m ctx va level frame

/-- The rights and the physical address that a translation gives an access (R222). -/
def useEntry (e : TlbEntry) (va : Nat) (acc : Access) : Except XFault (TlbEntry × Nat) :=
  if acc.writes && !e.w then .error ⟨3, e.level⟩
  else if acc == .fetch && !e.x then .error ⟨4, e.level⟩
  else
    let pa := e.pa + (va - e.va)
    if e.tgt != 1 && !physOk e.tgt pa then .error ⟨6, 6⟩ else .ok (e, pa)

/-- The page that a die's TLB holds for an address (R223). -/
def tlbFind (d : DieRegs) (ctx va : Nat) : Option TlbEntry :=
  d.tlb.find? fun e => e.ctx == ctx && e.va ≤ va && va < e.va + e.size

/-- The translation at one package: the TLB of a die, else a walk whose result that TLB keeps (R222, R223; log 10). -/
def translate1 (s : State) (rank die ctx va : Nat) (acc : Access) : State × Except XFault (TlbEntry × Nat) :=
  if !canonical (BitVec.ofNat 64 va) then (s, .error ⟨5, 6⟩)
  else
    match s.pkg? rank, s.ctx? rank ctx with
    | some p, some c =>
      match tlbFind (p.die die) ctx va with
      | some e => (s, useEntry e va acc)
      | none =>
        if c.ptroot > 0xBFFFFFF000 then (s, .error ⟨2, 5⟩)
        else
          match walk p.hbm.bytes ctx va 5 c.ptroot with
          | .error f => (s, .error f)
          | .ok e =>
            let s' := s.modPkg rank fun p => p.modDie die fun d => if d.tlb.length < 32768 then { d with tlb := e :: d.tlb } else d
            match useEntry e va acc with
            | .error f => (s, .error f)
            | .ok r => (s', .ok r)
    | _, _ => (s, .error ⟨1, 5⟩)

/-- Where a global access is performed, through the peer's own tables when the leaf names a peer (R222, R424, R441). -/
def xlate (s : State) (rank die ctx va : Nat) (acc : Access) : State × Except XFault Phys :=
  match translate1 s rank die ctx va acc with
  | (s, .error f) => (s, .error f)
  | (s, .ok (e, pa)) =>
    if e.tgt != 1 then (s, .ok ⟨rank, e.tgt, pa⟩)
    else
      match s.pkg? e.peer with
      | none => (s, .error ⟨6, 6⟩)
      | some _ =>
        if !sameDomain s rank ctx e.peer then (s, .error ⟨6, 6⟩)
        else match translate1 s e.peer (dieOfSlice (sliceOf va)) ctx va acc with
        | (s, .error f) => (s, .error f)
        | (s, .ok (e', pa')) => if e'.tgt == 1 then (s, .error ⟨2, e'.level⟩) else (s, .ok ⟨e.peer, e'.tgt, pa'⟩)

/-! ### The start area (R450, R451, R454, R458, R465) -/

/-- Window offset of the start area (R450). -/
def startArea : Nat := 0xF0000

/-- STARTST (R451). -/
def Start.startst (x : Start) : Nat :=
  x.step % 16 + b2n x.fail * 2 ^ 4 + b2n x.warm * 2 ^ 5 + x.code % 256 * 2 ^ 8 + x.starts % 2 ^ 32 * 2 ^ 16

/-- STARTCTL as it reads (R451). -/
def Start.startctl (x : Start) : Nat :=
  b2n x.full * 2 + b2n x.spare * 4 + x.rank % 1024 * 2 ^ 3 + x.pos % 16 * 2 ^ 13 + x.set % 2 ^ 15 * 2 ^ 17

/-- RBSTAT (R465). -/
def Start.rbstat (x : Start) : Nat :=
  x.phase % 8 + b2n x.rbFail * 2 ^ 3 + x.lost % 1024 * 2 ^ 4 + b2n x.nospare * 2 ^ 14 + b2n x.nosnap * 2 ^ 15 +
    x.rolls % 2 ^ 32 * 2 ^ 32

/-- Word i of a start-log entry (R454). -/
def StartEntry.word (e : StartEntry) (i : Nat) : Nat :=
  match i with
  | 0 => e.step % 256 + e.st % 256 * 2 ^ 8 + e.attempt % 256 * 2 ^ 16 + e.variant % 256 * 2 ^ 24 + e.code % 2 ^ 32 * 2 ^ 32
  | 1 => e.start % 2 ^ 64
  | 2 => e.imgv % 2 ^ 64
  | 3 => e.duration % 2 ^ 64
  | _ => bitsOf e.param (64 * (i - 4)) 64

/-- The queue-slot entry of a slot (R458). -/
def queueEntry (s : State) (p : Pkg) (n : Nat) : Nat :=
  match p.qslots.get n with
  | none => 0
  | some q => q.hdr / 64 * 64 + (if q.next == s.host.mem.bytes.num (q.hdr + 0x1C) 4 then 1 else 2)

/-- The 8-byte word of the start area at an offset into it (R450). -/
def startWord (s : State) (p : Pkg) (o : Nat) : Nat :=
  let x := p.start
  if o == 0x00 then x.startst
  else if o == 0x08 then x.startctl
  else if o == 0x10 then x.trimaddr
  else if o == 0x18 then x.trimlen
  else if o == 0x20 then b2n x.trimBusy * 2 + b2n x.trimErr * 4
  else if o == 0x28 then x.rbstat
  else if o == 0x30 then x.done % 2 ^ 32 + x.total % 2 ^ 32 * 2 ^ 32
  else if o == 0x38 then x.rblost
  else if 0x1000 ≤ o && o < 0x1380 then ((x.log.get ((o - 0x1000) / 64 + 1)).map fun e => e.word (o % 64 / 8)).getD 0
  else if 0x8000 ≤ o then queueEntry s p ((o - 0x8000) / 8)
  else 0

/-- Bytes of the host coherent window of a package, the start area included (R231, R450). -/
def windowRead (s : State) (p : Pkg) (o n : Nat) : List PByte :=
  if o + n ≤ startArea then p.window.readP o n
  else (upTo n).map fun i =>
    let a := o + i
    if a < startArea then (p.window.bytes.read a, p.window.bad 4 a 1)
    else (BitVec.ofNat 8 (startWord s p ((a - startArea) / 8 * 8) / 2 ^ (8 * (a % 8))), false)

/-! ### The memories behind a translation -/

/-- The bytes behind a physical range, without any cache, and whether one is poisoned (R213, R416). -/
def rawRead (s : State) (h : Phys) (n : Nat) : List Byte × Bool :=
  match s.pkg? h.home with
  | none => (List.replicate n 0, false)
  | some p =>
    match h.tgt with
    | 0 =>
      if inWindow 0 h.pa then
        let bs := windowRead s p (h.pa - windowBase) n
        (bs.map (·.1), bs.any (·.2))
      else (p.hbm.bytes.readN h.pa n, p.hbm.bad 256 h.pa n)
    | 2 => (p.tier.view.bytes.readN h.pa n, p.tier.view.bad 256 h.pa n)
    | _ => (s.host.mem.bytes.readN h.pa n, s.host.mem.bad 256 h.pa n)

/-- Bytes written to HBM, the window or host memory behind any cache; `bad` marks the line (R416). -/
def rawWrite (s : State) (h : Phys) (bs : List Byte) (bad : Bool) : State :=
  match h.tgt with
  | 0 =>
    s.modPkg h.home fun p =>
      if inWindow 0 h.pa then
        let w := p.window.write 4 (h.pa - windowBase) bs
        { p with window := if bad then w.mark 4 (h.pa - windowBase) else w }
      else
        let m := p.hbm.write 256 h.pa bs
        { p with hbm := if bad then m.mark 256 h.pa else m }
  | 3 =>
    let m := s.host.mem.write 256 h.pa bs
    { s with host := { s.host with mem := if bad then m.mark 256 h.pa else m } }
  | _ => s

/-- The address of the line that holds an address. -/
def lineBase (a : Nat) : Nat := a / 256 * 256

/-- A line of the memory-side cache of a package. -/
def Pkg.cached (p : Pkg) (ctx va : Nat) : Option CLine := p.cache.find? fun c => c.ctx == ctx && c.va == lineBase va

/-- The bits o to o + n − 1 of a line's byte mask. -/
def byteMask (o n : Nat) : BitVec 256 := BitVec.ofNat 256 ((2 ^ n - 1) * 2 ^ o)

/-- Offsets in rising order gathered into runs of consecutive ones, each with its length. -/
def offsetRuns : List Nat → List (Nat × Nat)
  | [] => []
  | a :: r =>
    match offsetRuns r with
    | (b, n) :: rs => if a + 1 == b then (a, n + 1) :: rs else (a, 1) :: (b, n) :: rs
    | [] => [(a, 1)]

/-- The dirty bytes of a line in runs (R284). -/
def CLine.dirtyRuns (c : CLine) : List (Nat × Nat) := offsetRuns ((upTo 256).filter fun i => c.dirty.getLsbD i)

/-- The dirty bytes of a line written to the memory behind the cache, and no others, so that a clean byte of one alias never
replaces what another has written (R230, R253, R277, R284). -/
def writeBack (s : State) (home : Nat) (c : CLine) : State :=
  c.dirtyRuns.foldl (fun s r =>
    rawWrite s ⟨home, c.tgt, c.pa + r.1⟩ ((c.bytes.drop r.1).take r.2)
      (c.bad || c.badw.any fun w => r.1 < 4 * w + 4 && 4 * w < r.1 + r.2)) s

/-- Lines that a slice's memory-side cache holds: 2 MiB (R284). -/
def sliceLines : Nat := 8192

/-- A slice with a full cache evicts its oldest line, written back when it is dirty (R284; log 17). -/
def evictLine (s : State) (home va : Nat) : State :=
  match s.pkg? home with
  | none => s
  | some p =>
    let mine := p.cache.filter fun c => sliceOf c.va == sliceOf va
    if mine.length < sliceLines then s
    else match mine.getLast? with
      | none => s
      | some c => (writeBack s home c).modPkg home fun p => { p with cache := p.cache.filter fun x => !(x.ctx == c.ctx && x.va == c.va) }

/-- The line of an access in the memory-side cache of its home, fetched when absent (R284). -/
def fetchLine (s : State) (h : Phys) (ctx va : Nat) : State × CLine :=
  let miss (s : State) : CLine :=
    let r := rawRead s { h with pa := lineBase h.pa } 256
    { ctx := ctx, va := lineBase va, tgt := h.tgt, pa := lineBase h.pa, bytes := r.1, dirty := 0, bad := r.2, badw := [] }
  match s.pkg? h.home with
  | none => (s, miss s)
  | some p =>
    match p.cached ctx va with
    | some c => (s, c)
    | none =>
      let s := evictLine s h.home va
      (s.modPkg h.home fun p => { p with cache := miss s :: p.cache }, miss s)

/-- The bytes of one line, or part of it, as its home slice reads them (R231, R284). -/
def lineRead (s : State) (h : Phys) (ctx va n : Nat) : State × List PByte :=
  if inWindow h.tgt h.pa then
    match s.pkg? h.home with
    | none => (s, [])
    | some p => (s, windowRead s p (h.pa - windowBase) n)
  else
    let (s, c) := fetchLine s h ctx va
    let o := va % 256
    (s, (upTo n).map fun i => (c.bytes.getD (o + i) 0, c.bad || c.badw.contains ((o + i) / 4)))

/-- Bytes put over a list from an offset. -/
def overlay (l : List Byte) (o : Nat) (bs : List Byte) : List Byte :=
  l.take o ++ bs ++ l.drop (o + bs.length)

/-- A cache line after a write of some of its bytes, with the poison rules of R416. -/
def CLine.write (c : CLine) (o : Nat) (bs : List PByte) : CLine :=
  let whole (w : Nat) := o ≤ 4 * w && 4 * w + 4 ≤ o + bs.length
  let bads := ((upTo bs.length).filter fun i => (bs.getD i (0, false)).2).map fun i => (o + i) / 4
  { c with bytes := overlay c.bytes o (bs.map (·.1)), dirty := c.dirty ||| byteMask o bs.length
           bad := c.bad && bs.length != 256, badw := (c.badw.filter fun w => !whole w) ++ bads.dedup }

/-- Bytes of one line, by offset, put in rising order and gathered into runs. -/
def lineRuns (bytes : AL Nat PByte) : List (Nat × List PByte) :=
  (offsetRuns ((bytes.map (·.1)).sortLe fun a b => a ≤ b)).map fun r =>
    (r.1, (upTo r.2).map fun i => (bytes.get (r.1 + i)).getD (0, false))

/-- A cache line after a write under a mask. -/
def CLine.writeMask (c : CLine) (bytes : AL Nat PByte) : CLine :=
  { (lineRuns bytes).foldl (fun c r => c.write r.1 r.2) c with bad := c.bad && bytes.length != 256 }

/-! ### Persists -/

/-- The data slot of index `i` at position `pos` of a recovery set, which holds P of stripes σ with σ mod 10 = pos and Q
of those with (σ + 1) mod 10 = pos (R336); outside a set every slot holds data. -/
def dataSlot (pos i : Nat) : Nat :=
  if pos ≥ 10 then i
  else
    (((upTo 10).filter fun r => r != pos && (r + 1) % 10 != pos).getD (i % 8) 0) + 10 * (i / 8)

/-- The lowest data slot that no unit uses, among the first `n + 1`. -/
def freeSlot (pos : Nat) (used : List Nat) (n : Nat) : Nat :=
  match (upTo (n + 1)).find? fun i => !used.contains (dataSlot pos i) with
  | some i => dataSlot pos i
  | none => dataSlot pos n

/-- The step tag of a tier line (R352). -/
def Tier.tag (t : Tier) (line : Nat) : Nat := (t.tags.get line).getD 0

/-- The persist takes a pre-image first (R353). -/
def Tier.needsPre (t : Tier) (line : Nat) : Bool := t.track && t.pstep > 0 && t.tag line < t.pstep

/-- A persist to a line lacks entries of its die's queue, and data slots (R333, R349, R353). -/
def Tier.lacks (t : Tier) (die line : Nat) : Bool × Bool :=
  let pre := b2n (t.needsPre line)
  (65536 < (t.moraine[die]?.getD []).length + 1 + pre, t.free < b2n ((t.units.get (line / 4096)).isNone) + pre)

/-- One persist to a line: none while its Moraine queue lacks entries or no data slot is free (R333, R349, R353).
Otherwise the pre-image and the bytes enter the queue of the home slice's die, and the performed contents, the unit map
and the tag change (R279, R348, R352). -/
def Tier.persist (t : Tier) (pos die line : Nat) (bs : AL Nat Byte) (bad full : Bool) (id : Nat) : Option Tier :=
  let backed := (t.units.get (line / 4096)).isSome
  let pre := t.needsPre line
  let slots := b2n (!backed) + b2n pre
  if (t.lacks die line).1 || (t.lacks die line).2 then none
  else
    let old := t.view.bytes.readN line 256
    let area := t.pstep - 1
    let used := t.units.map (·.2) ++ t.pre.map (·.slot)
    let preSlot := freeSlot pos used used.length
    let slot := (t.units.get (line / 4096)).getD (freeSlot pos (if pre then preSlot :: used else used) (used.length + 1))
    let preE : List Moraine :=
      if pre then [{ id := id, line := line, bytes := (upTo 256).map fun i => (i, old.getD i 0), tag := t.tag line, pre := some area
                     slot := preSlot, bad := t.view.bad 256 line 1 }]
      else []
    let e : Moraine :=
      { id := id + b2n pre, line := line, bytes := bs, tag := t.pstep, pre := none, slot := slot, bad := bad }
    let bytes := bs.foldl (fun m x => m.write (line + x.1) x.2) t.view.bytes
    let marks := if full then t.view.poison.filter (· != line / 256) else t.view.poison
    let view : Ram := ⟨bytes, marks⟩
    some { t with
      view := if bad then view.mark 256 line else view
      units := if backed then t.units else t.units.put (line / 4096) slot
      free := t.free - slots
      tags := t.tags.put line t.pstep
      pre := if pre then { area := area, line := line, bytes := old, tag := t.tag line, unbacked := !backed, slot := preSlot
                           bad := t.view.bad 256 line 1 } :: t.pre
        else t.pre
      moraine := t.moraine.mapIdx fun i x => if i == die then x ++ preE ++ [e] else x }

/-! ### Replies and monitors -/

/-- The reply of one slot of a word in flight; when it is the last, the word's reply is due (R214). -/
def deliver (s : State) (gid seq slot : Nat) (r : Reply) : State :=
  let s := s.modGroup gid fun g =>
    { g with flights := modWhere (fun f => f.seq == seq) (fun f => { f with got := f.got.set slot r }) g.flights }
  match s.group? gid with
  | none => s
  | some g =>
    match g.flights.find? fun f => f.seq == seq with
    | none => s
    | some f => if f.got.any fun r => r == .pending then s else s.owe [.event (.memoryReply gid seq)]

/-- The reply of one slot goes from its home to the package of its group, by the fabric from a peer (R424, R428). -/
def sendReply (s : State) (home gid seq slot : Nat) (r : Reply) : State :=
  match s.group? gid with
  | none => s
  | some g =>
    if g.rank == home then deliver s gid seq slot r else sendPacket s home g.rank (.msg none [] (.reply gid seq slot r))

/-- A condition of WAITC on the word m (R259). -/
def waitcHolds (cond : Nat) (signed : Bool) (x k m : Word) : Bool :=
  match cond with
  | 0 => m == x
  | 1 => m != x
  | 2 => if signed then m.slt x else m.ult x
  | 3 => if signed then !m.slt x else !m.ult x
  | _ => (m &&& k) == (x &&& k)

/-- The group's team is switched out (R294, R409). -/
def teamOut (s : State) (gid : Nat) : Bool :=
  match s.group? gid with
  | none => false
  | some g => match s.team? g.tid with
    | none => false
    | some t => t.st == .out

/-- Answers a monitor entry, which is Replied until the reply is written into the registers, or holds its reply while the team
is out (R294). -/
def answerMonitor (s : State) (sl : SliceId) (m : Monitor) (status reason : Nat) (v : Word) : State :=
  if teamOut s m.req.gid then
    s.modSlice sl fun q =>
      { q with monitors := modWhere (fun x => x.entry == m.entry) (fun x => { x with st := .fired status reason v }) q.monitors }
  else
    let s := s.modSlice sl fun q =>
      { q with monitors := if (s.group? m.req.gid).isNone then q.monitors.filter fun x => x.entry != m.entry
          else modWhere (fun x => x.entry == m.entry) (fun x => { x with st := .replied }) q.monitors }
    sendReply s m.req.home m.req.gid m.req.seq m.req.slot (.words [BitVec.ofNat 32 (status + 16 * reason), v])

/-- The 32-bit word at a virtual address as the home slice reads it. -/
def wordAt (s : State) (h : Phys) (ctx va : Nat) : State × Word × Bool :=
  let (s, bs) := lineRead s h ctx va 4
  (s, BitVec.ofNat 32 (ofBytesLE (bs.map (·.1))), bs.any (·.2))

/-- An Armed monitor tested against the word as memory holds it (R294). -/
def testMonitor (s : State) (sl : SliceId) (h : Phys) (m : Monitor) : State :=
  let (s, w, _) := wordAt s h m.req.ctx m.req.va
  if waitcHolds m.cond m.signed m.val m.mask w then answerMonitor s sl m 0 0 w else s

/-- The Armed monitors of a package on words of the window from pa to pa + n − 1, whatever their virtual address (R231). -/
def testWindow (s : State) (home pa n : Nat) : State :=
  match s.pkg? home with
  | none => s
  | some p =>
    p.slices.foldl (fun s q =>
      ((q.2.monitors.filter fun m => m.st == .armed).sortLe fun a b => a.entry ≤ b.entry).foldl (fun s m =>
        match xlate s home (dieOfSlice q.1) m.req.ctx m.req.va .read with
        | (s, .error _) => s
        | (s, .ok h) =>
          if inWindow h.tgt h.pa && h.pa < pa + n && pa < h.pa + 4 then testMonitor s ⟨home, q.1⟩ h m else s) s) s

/-- After a write of n bytes at va, the Armed monitors of its words are tested again, in entry order (R294). -/
def testMonitors (s : State) (h : Phys) (ctx va n : Nat) : State :=
  if inWindow h.tgt h.pa then testWindow s h.home h.pa n
  else
    let sl : SliceId := ⟨h.home, sliceOf va⟩
    let hit := (s.slice sl).monitors.filter fun m =>
      m.st == .armed && m.req.ctx == ctx && lineBase m.req.va == lineBase va && m.req.va < va + n && va < m.req.va + 4
    (hit.sortLe fun a b => a.entry ≤ b.entry).foldl (fun s m =>
      testMonitor s sl { h with pa := lineBase h.pa + m.req.va % 256 } m) s

/-- The place of an address among the lines of an object's pages. -/
def pageIndex : List (Nat × Nat × Nat) → Nat → Option Nat
  | [], _ => none
  | (va, size, _) :: r, a => if va ≤ a && a < va + size then some ((a - va) / 256) else (pageIndex r a).map (· + size / 256)

/-- Lines of an object's pages. -/
def pageLines (ps : List (Nat × Nat × Nat)) : Nat := (ps.map fun p => p.2.1 / 256).sum

/-- An object whose copy back has reached its end holds new writes to its lines until it is remapped (R345). -/
def PlaceEntry.holds (e : PlaceEntry) (ctx va : Nat) : Bool :=
  e.st == .demoting && e.ctx == ctx && pageLines e.pages ≤ 16 * e.done && (pageIndex e.pages (lineBase va)).isSome

/-- A line written after its chunk was copied back is marked (R345). -/
def PlaceEntry.mark (e : PlaceEntry) (ctx va : Nat) : PlaceEntry :=
  if e.st == .demoting && e.ctx == ctx && !e.marks.contains va && (pageIndex e.pages va).any fun i => i / 16 < e.done then
    { e with marks := e.marks ++ [va] }
  else e

/-- The line of an address is held: by a running combiner wave (R300, R302), by a closed window that is still to be applied
(R289), or by an object about to be remapped (R345). -/
def lineLocked (s : State) (home ctx va : Nat) : Bool :=
  let q := s.slice ⟨home, sliceOf va⟩
  (match q.wave with
    | none => false
    | some w => w.ctx == ctx && lineBase w.obj == lineBase va) ||
    (q.runs.any fun w => w.any fun r => r.ctx == ctx && lineBase r.va == lineBase va) ||
    (s.pkg? home).any fun p => p.place.any fun e => e.holds ctx va

/-- A write of some bytes of one line, by offset, performed at its home slice at one instant (R231, R284); to the tier it is
one persist (R279). None when a persist must wait (R333, R349). -/
def lineStoreMask (s : State) (h : Phys) (ctx va : Nat) (bytes : AL Nat PByte) : Option State :=
  let die := dieOfSlice (sliceOf va)
  if inWindow h.tgt h.pa then
    some ((lineRuns bytes).foldl (fun s r =>
      let a := lineBase h.pa + r.1 - windowBase
      if startArea ≤ a then s else s.modPkg h.home fun p => { p with window := p.window.writeP a r.2 }) s)
  else if h.tgt == 2 then
    match s.pkg? h.home with
    | none => none
    | some p =>
      match p.tier.persist p.start.pos die (lineBase h.pa) (bytes.map fun x => (x.1, x.2.1)) (bytes.any (·.2.2))
          (bytes.length == 256) s.fresh with
      | none => none
      | some t =>
        some ({ s with
          fresh := s.fresh + 2
          pkgs := modWhere (fun p => p.rank == h.home) (fun p =>
            { p with
                tier := t
                cache := modWhere (fun c => c.ctx == ctx && c.va == lineBase va)
                  (fun c => { c.writeMask bytes with dirty := 0 }) p.cache }) s.pkgs }.owe
          [.event (.moraineWrite ⟨h.home, die⟩)])
  else
    let (s, c) := fetchLine s h ctx va
    some (s.modPkg h.home fun p =>
      { p with place := p.place.map fun e => e.mark ctx (lineBase va)
               cache := modWhere (fun x => x.ctx == ctx && x.va == lineBase va) (fun _ => c.writeMask bytes) p.cache })

/-- Consecutive bytes of one line, by offset. -/
def lineBytes (va : Nat) (bs : List PByte) : AL Nat PByte := (upTo bs.length).map fun i => (va % 256 + i, bs.getD i (0, false))

/-- A write of consecutive bytes of one line performed at its home slice. -/
def lineStore (s : State) (h : Phys) (ctx va : Nat) (bs : List PByte) : Option State :=
  lineStoreMask s h ctx va (lineBytes va bs)

/-- A write that the move under way has tried waits for room in the tier of a package (R334, R351). -/
def noteWait (s : State) (home die : Nat) (slot : Bool) : State :=
  let w : TierWait := ⟨s.cur, slot, die⟩
  s.modPkg home fun p => if p.tier.waits.contains w then p else { p with tier := { p.tier with waits := w :: p.tier.waits } }

/-- A thread-path write waits at its home slice, for an entry, for a slot or for both (R333, R349). -/
def tierWaits (s : State) (h : Phys) (va : Nat) : State :=
  let d := dieOfSlice (sliceOf va)
  if h.tgt != 2 then s
  else
    match s.pkg? h.home with
    | none => s
    | some p =>
      let l := p.tier.lacks d (lineBase h.pa)
      let s := if l.1 then noteWait s h.home d false else s
      if l.2 then noteWait s h.home d true else s

/-- The move under way tries its writes again: none of them waits meanwhile. -/
def clearWaits (s : State) (m : Move) : State :=
  let clear (p : Pkg) : Pkg := { p with tier := { p.tier with waits := p.tier.waits.filter fun w => w.by_ != some m } }
  { s with pkgs := modWhere (fun p => p.tier.waits.any fun w => w.by_ == some m) clear s.pkgs }

/-- A write of part of one line at its home slice: it waits while a wave holds the line (R302) or a persist must wait, and
the monitors of its words are tested after it (R294). -/
def lineWriteMask (s : State) (h : Phys) (ctx va : Nat) (bytes : AL Nat PByte) : Option State :=
  if lineLocked s h.home ctx va then none
  else
    (lineStoreMask s h ctx va bytes).map fun s =>
      (lineRuns bytes).foldl (fun s r => testMonitors s { h with pa := lineBase h.pa + r.1 } ctx (lineBase va + r.1) r.2.length) s

/-- A write of consecutive bytes of one line at its home slice. -/
def lineWrite (s : State) (h : Phys) (ctx va : Nat) (bs : List PByte) : Option State :=
  lineWriteMask s h ctx va (lineBytes va bs)

/-- Every dirty line of a package that satisfies `f` is written back and stays, clean. -/
def cleanLines (s : State) (home : Nat) (f : CLine → Bool) : State :=
  match s.pkg? home with
  | none => s
  | some p =>
    let s := (p.cache.filter f).foldl (fun s c => writeBack s home c) s
    s.modPkg home fun p => { p with cache := modWhere f (fun c => { c with dirty := 0 }) p.cache }

/-- Every clean line of a package that satisfies `f` is discarded (R254). -/
def dropLines (s : State) (home : Nat) (f : CLine → Bool) : State :=
  s.modPkg home fun p => { p with cache := p.cache.filter fun c => !(f c && c.dirty == 0) }

/-! ### Accesses of several lines -/

/-- The pieces of a range that lie in one line each, with fuel. -/
def pieces : Nat → Nat → Nat → List (Nat × Nat)
  | 0, _, _ => []
  | f + 1, a, n =>
    if n == 0 then []
    else
      let k := min n (256 - a % 256)
      (a, k) :: pieces f (a + k) (n - k)

/-- The pieces of a range that lie in one line each. -/
def linePieces (a n : Nat) : List (Nat × Nat) := pieces (n / 256 + 2) a n

/-- The addresses of a range wrap at 2^64. -/
def wrap64 (a : Nat) : Nat := a % 2 ^ 64

/-- What a global access gives: its result, a fault with its address, or a wait (R333, R349). -/
inductive GOut (α : Type) where
  | ok (a : α)
  | fault (va : Nat) (f : XFault)
  | wait

/-- Every piece of a range translated for an access. -/
def xlateAll (s : State) (rank die ctx : Nat) (acc : Access) : List (Nat × Nat) → State × GOut (List (Nat × Nat × Phys))
  | [] => (s, .ok [])
  | (a, n) :: r =>
    match xlate s rank die ctx (wrap64 a) acc with
    | (s, .error f) => (s, .fault (wrap64 a) f)
    | (s, .ok h) =>
      if (s.pkg? h.home).any fun p => !p.start.powered then (s, .wait)
      else match xlateAll s rank die ctx acc r with
      | (s, .ok l) => (s, .ok ((wrap64 a, n, h) :: l))
      | (s, .fault va f) => (s, .fault va f)
      | (s, .wait) => (s, .wait)

/-- A read of n bytes of global memory, made on a die of a package. -/
def gRead (s : State) (rank die ctx va n : Nat) (acc : Access) : State × GOut (List PByte) :=
  match xlateAll s rank die ctx acc (linePieces va n) with
  | (s, .fault a f) => (s, .fault a f)
  | (s, .wait) => (s, .wait)
  | (s, .ok l) =>
    let r := l.foldl (fun (acc : State × List PByte) (x : Nat × Nat × Phys) =>
      let (s, bs) := lineRead acc.1 x.2.2 ctx x.1 x.2.1
      (s, acc.2 ++ bs)) (s, [])
    (r.1, .ok r.2)

/-- What a write puts into one line: an address in it, where it is performed, and its bytes by offset. -/
abbrev LinePut := Nat × Phys × AL Nat PByte

/-- A piece of a write joined to those of its line: its bytes replace earlier ones. -/
def joinPiece (a : Nat) (h : Phys) (bs : List PByte) : List LinePut → List LinePut
  | [] => [(a, h, lineBytes a bs)]
  | (a', h', m) :: r =>
    if lineBase a' == lineBase a && h'.home == h.home then
      (a', h', (m.filter fun x => x.1 < a % 256 || a % 256 + bs.length ≤ x.1) ++ lineBytes a bs) :: r
    else (a', h', m) :: joinPiece a h bs r

/-- The pieces of a write gathered by line, so that the bytes of each line are written at one instant (R279). -/
def gatherLines : List LinePut → List (Nat × Nat × Phys) → List PByte → List LinePut
  | acc, [], _ => acc
  | acc, (a, n, h) :: r, bs => gatherLines (joinPiece a h (bs.take n) acc) r (bs.drop n)

/-- The lines of a write performed in order; none when one must wait. -/
def writeLines (ctx : Nat) : State → List LinePut → Option State
  | s, [] => some s
  | s, (a, h, m) :: r => (lineWriteMask s h ctx a m).bind fun s => writeLines ctx s r

/-- A write of several pieces performed; none when a line must wait. -/
def writePieces (ctx : Nat) (s : State) (ps : List (Nat × Nat × Phys)) (bs : List PByte) : Option State :=
  writeLines ctx s (gatherLines [] ps bs)

/-- The dies at whose queues a write of these pieces finds too few entries (R349, R351). -/
def fullDies (s : State) (ps : List (Nat × Nat × Phys)) : List (Nat × Nat) :=
  let ls := ((ps.filter fun x => x.2.2.tgt == 2).map fun x => (x.2.2.home, dieOfSlice (sliceOf x.1), lineBase x.2.2.pa)).dedup
  ((ls.map fun x => (x.1, x.2.1)).dedup).filter fun d =>
    (s.pkg? d.1).any fun p =>
      let mine := ls.filter fun x => x.1 == d.1 && x.2.1 == d.2
      65536 < (p.tier.moraine[d.2]?.getD []).length + mine.length + (mine.filter fun x => p.tier.needsPre x.2.2).length

/-- A write of these pieces waits (R351). -/
def piecesWait (s : State) (ps : List (Nat × Nat × Phys)) : State :=
  (fullDies s ps).foldl (fun s d => noteWait s d.1 d.2 false) s

/-- A write of bytes to global memory: all of it, a fault before any of it, or a wait. -/
def gWrite (s : State) (rank die ctx va : Nat) (bs : List PByte) : State × GOut Unit :=
  match xlateAll s rank die ctx .write (linePieces va bs.length) with
  | (s, .fault a f) => (s, .fault a f)
  | (s, .wait) => (s, .wait)
  | (s, .ok l) =>
    match writePieces ctx s l bs with
    | none => (piecesWait s l, .wait)
    | some s' => (s', .ok ())

/-- Bytes without poison. -/
def sound (bs : List Byte) : List PByte := bs.map fun b => (b, false)

/-- A range of a context in memory-side caches and its lines' context. -/
def inRange (ctx lo n : Nat) (c : CLine) : Bool := c.ctx == ctx && c.va + 256 > lo && c.va < lo + n

end Sys2Proof.Machine
end

