-- ==== Sys2Proof/Machine/Groups.lean ====
section
/-! DEFINITION. What the words and steps of a group share below the level of a trap: thread slots and their registers
(R11 to R16), the spill buffer (R201), the split table, the reconvergence store, the join register and the spill queue
(R134 to R141), pending events (R397), writes to the group's system registers (R32, R403), and the retirement of a group
(R122, R153). -/

namespace Sys2Proof.Machine

/-! ### Masks -/

/-- The slots of a mask, in increasing order. -/
def maskSlots (m : Mask) : List Nat := (upTo 16).filter fun s => m.getLsbD s
/-- The lowest slot of a mask, 0 when it is empty. -/
def lowest (m : Mask) : Nat := ((upTo 16).find? fun s => m.getLsbD s).getD 0
/-- The mask of one slot. -/
def slotBit (s : Nat) : Mask := BitVec.ofNat 16 (2 ^ s)
/-- The mask of the slots that satisfy `p`. -/
def maskOf (p : Nat → Bool) : Mask := (upTo 16).foldl (fun m s => if p s then m ||| slotBit s else m) 0
/-- Number of slots of a mask. -/
def maskCount (m : Mask) : Nat := (maskSlots m).length

/-! ### Thread slots -/

/-- A slot at group creation, its random state apart (R17, R22, R133). -/
def Thread.zero : Thread :=
  { backing := Vector.replicate 128 0, bad := [], wbase := 0, rbase := 0, frame := 64, cdepth := 0, links := []
    p := 0, s0 := 0, s1 := 0 }

/-- The slot `s` of a group. -/
def Group.thread (g : Group) (s : Nat) : Thread := g.threads[s]?.getD Thread.zero

/-- The backing position of a register depth (R16). -/
def posOf (depth : Nat) : Nat := depth % 128
/-- The depth of v n (R16). -/
def Thread.depth (t : Thread) (n : Nat) : Nat := t.wbase + n
/-- The value at a depth. -/
def Thread.dget (t : Thread) (d : Nat) : Word := t.backing[posOf d]?.getD 0
/-- The value of v n. -/
def Thread.v (t : Thread) (n : Nat) : Word := t.dget (t.depth n)
/-- The pair v n, v n + 1 (R12). -/
def Thread.v64 (t : Thread) (n : Nat) : DWord := pairOf (t.v n) (t.v (n + 1))
/-- Writes the register at a depth, which clears its poison mark (R416). -/
def Thread.dset (t : Thread) (d : Nat) (x : Word) : Thread :=
  { t with backing := t.backing.setIfInBounds (posOf d) x, bad := t.bad.filter fun b => b != posOf d }
/-- Writes the register at a depth with a poison mark (R416). -/
def Thread.dsetP (t : Thread) (d : Nat) (x : Word) (bad : Bool) : Thread :=
  let t' := t.dset d x
  if bad then { t' with bad := posOf d :: t'.bad } else t'
/-- The poison mark of v n. -/
def Thread.poisoned (t : Thread) (n : Nat) : Bool := t.bad.contains (posOf (t.depth n))
/-- Writes v n. -/
def Thread.setV (t : Thread) (n : Nat) (x : Word) : Thread := t.dset (t.depth n) x
/-- The predicate p n; p7 reads 1 (R13). -/
def Thread.pr (t : Thread) (n : PReg) : Bool := n == 7 || t.p.getLsbD n.toNat
/-- Writes p n; a write to p7 is discarded (R13). -/
def Thread.setP (t : Thread) (n : PReg) (b : Bool) : Thread :=
  if n == 7 then t
  else { t with p := if b then t.p ||| BitVec.ofNat 7 (2 ^ n.toNat) else t.p &&& ~~~(BitVec.ofNat 7 (2 ^ n.toNat)) }

/-- Changes the slots that satisfy `p`. -/
def Group.modThreads (g : Group) (p : Nat → Bool) (f : Nat → Thread → Thread) : Group :=
  { g with threads := g.threads.mapIdx fun i t => if p i then f i t else t }

/-- k n. -/
def Group.kr (g : Group) (n : Nat) : DWord := g.k[n]?.getD 0
/-- Writes k n. -/
def Group.setK (g : Group) (n : Nat) (x : DWord) : Group := { g with k := g.k.setIfInBounds n x }
/-- q n. -/
def Group.qr (g : Group) (n : QReg) : Bool := g.q.getLsbD n.toNat
/-- Writes q n. -/
def Group.setQ (g : Group) (n : Nat) (b : Bool) : Group :=
  { g with q := if b then g.q ||| BitVec.ofNat 4 (2 ^ n) else g.q &&& ~~~(BitVec.ofNat 4 (2 ^ n)) }

/-- The global thread index of a slot (R30). -/
def gthread (gr : Grid) (t : Team) (num slot : Nat) : Nat :=
  ((t.x + gr.nx * (t.y + gr.ny * t.z)) * 64 + num) * 16 + slot

/-! ### Cores and grids -/

/-- A core at reset. -/
def Core.empty (id : CoreId) : Core :=
  { id := id, fifo := [], latches := [], wcb := [], spill := [], acqs := [], step := 0, temp := false, droop := false
    thcyc := 0, cool := 0, active := 0, busy := 0, fill := 0, began := false, run := 0, rstep := 0, lag := 0, ended := false, ramp := 0
    quiet := 0, ecore := 0, gselPlace := 0, gselSlot := 0 }

/-- The core of an identity. -/
def State.core (s : State) (id : CoreId) : Core := (s.cores.find? fun c => c.id == id).getD (Core.empty id)
/-- Changes a core, which is listed from then on. -/
def State.modCore (s : State) (id : CoreId) (f : Core → Core) : State :=
  if s.cores.any fun c => c.id == id then { s with cores := modWhere (fun c => c.id == id) f s.cores }
  else { s with cores := f (Core.empty id) :: s.cores }

def State.grid? (s : State) (id : Nat) : Option Grid := s.grids.find? fun g => g.id == id
def State.modGrid (s : State) (id : Nat) (f : Grid → Grid) : State :=
  { s with grids := modWhere (fun g => g.id == id) f s.grids }
def State.op? (s : State) (id : Nat) : Option Op := s.ops.find? fun o => o.id == id
def State.modOp (s : State) (id : Nat) (f : Op → Op) : State :=
  { s with ops := modWhere (fun o => o.id == id) f s.ops }

/-- A value that the spec leaves open. Log entry 2. -/
def State.freeWord (s : State) : Word × State := (Config.freeWord s.fresh, { s with fresh := s.fresh + 1 })
/-- A free 64-bit value. -/
def State.freeDWord (s : State) : DWord × State :=
  (pairOf (Config.freeWord s.fresh) (Config.freeWord (s.fresh + 1)), { s with fresh := s.fresh + 2 })

/-- Operand latches whose registers include one of `regs` are released (R189). -/
def dropLatches (s : State) (g : Group) (regs : List Nat) : State :=
  s.modCore g.core fun c =>
    { c with latches := c.latches.filter fun l => !(l.gid == g.gid && regs.any fun r => l.va ≤ r && r < l.va + l.count) }

/-! ### The spill buffer (R200, R201) -/

/-- Virtual address of a spill-stack offset (R200). -/
def Group.spillVa (g : Group) (off : Int) : Nat := wrapTo 64 ((g.wspb.toNat : Int) + off)

/-- A fault met by an access: its address, cause and level. -/
abbrev VFault := Nat × XFault

/-- The bytes of a spill-buffer line with their poison marks. -/
def SLine.pbytes (l : SLine) : List PByte :=
  (upTo 128).map fun i => (l.bytes.getD i 0, l.bad.contains ((l.va + i) / 4))

/-- The write-back of a line waits for room in the tier (R333, R334). -/
def spillWaits (s : State) (core : CoreId) (l : SLine) : State :=
  match xlate s core.rank core.die l.ctx l.va .write with
  | (s, .error _) => s
  | (s, .ok h) => tierWaits s h l.va

/-- A dirty line of a core written to memory (R201). -/
def spillBack (s : State) (core : CoreId) (l : SLine) : State × GOut Unit :=
  if l.dirty then
    match gWrite s core.rank core.die l.ctx l.va l.pbytes with
    | (s, .wait) => (spillWaits s core l, .wait)
    | r => r
  else (s, .ok ())

/-- The first of some lines that can be written back leaves; those whose write-back waits or faults stay (R333; log 12). -/
def spillEvict (s : State) (core : CoreId) : List SLine → State × Bool
  | [] => (s, false)
  | l :: r =>
    match spillBack s core l with
    | (s, .ok ()) => (s.modCore core fun c => { c with spill := c.spill.filter fun x => !(x.ctx == l.ctx && x.va == l.va) }, true)
    | (s, _) => spillEvict s core r

/-- Every line of the buffer is in use (R201). -/
def spillFull (s : State) (core : CoreId) : Bool := Config.spillLines ≤ (s.core core).spill.length

/-- A line is evicted when the buffer is full, the oldest that can be written back. -/
def spillMakeRoom (s : State) (core : CoreId) : State :=
  if spillFull s core then (spillEvict s core (s.core core).spill).1 else s

/-- The buffer is full and none of its lines can leave: a word that needs a line waits at issue (R333; log 12). -/
def spillStuck (s : State) (core : CoreId) : Bool := spillFull s core && !(spillEvict s core (s.core core).spill).2

/-- The 128-byte line of a spill-stack address, brought into the buffer (R200, R201). -/
def spillLine (s : State) (g : Group) (va : Nat) (acc : Access) : State × Except VFault SLine :=
  let base := va / 128 * 128
  match xlate s g.rank g.core.die g.ctx va acc with
  | (s, .error f) => (s, .error (va, f))
  | (s, .ok h) =>
    match (s.core g.core).spill.find? fun l => l.ctx == g.ctx && l.va == base with
    | some l => (s, .ok l)
    | none =>
      let (s, bs) := lineRead s { h with pa := h.pa - va % 128 } g.ctx base 128
      let l : SLine :=
        { gid := g.gid, ctx := g.ctx, va := base, bytes := bs.map (·.1), dirty := false
          bad := ((upTo 32).filter fun w => ((bs.drop (4 * w)).take 4).any (·.2)).map fun w => base / 4 + w }
      let s := spillMakeRoom s g.core
      (s.modCore g.core fun c => { c with spill := c.spill ++ [l] }, .ok l)

/-- Bytes of one line of the group's spill stack. -/
def spillRead (s : State) (g : Group) (off : Int) (n : Nat) : State × Except VFault (List PByte) :=
  let va := g.spillVa off
  match spillLine s g va .read with
  | (s, .error f) => (s, .error f)
  | (s, .ok l) => (s, .ok ((l.pbytes.drop (va % 128)).take n))

/-- A write of bytes into one line of the group's spill stack. -/
def spillWrite (s : State) (g : Group) (off : Int) (bs : List PByte) : State × Except VFault Unit :=
  let va := g.spillVa off
  match spillLine s g va .write with
  | (s, .error f) => (s, .error f)
  | (s, .ok l) =>
    let words := wordsTouched va bs.length
    let bads := ((upTo bs.length).filter fun i => (bs.getD i (0, false)).2).map fun i => (va + i) / 4
    let l' := { l with bytes := overlay l.bytes (va % 128) (bs.map (·.1)), dirty := true
                       bad := (l.bad.filter fun w => !words.contains w) ++ bads.dedup }
    (s.modCore g.core fun c => { c with spill := modWhere (fun x => x.ctx == l.ctx && x.va == l.va) (fun _ => l') c.spill },
      .ok ())

/-- So many free bytes (R201; log 2). -/
def State.freeBytes (s : State) (words : Nat) : List Byte × State :=
  ((upTo words).flatMap fun i => wordBytes (Config.freeWord (s.fresh + i)), { s with fresh := s.fresh + words })

/-- A line of memory takes free contents; a line that nothing maps has none. -/
def freeLine (s : State) (g : Group) (va : Nat) : State :=
  match xlate s g.rank g.core.die g.ctx va .read with
  | (s, .error _) => s
  | (s, .ok h) =>
    let (bs, s) := s.freeBytes 64
    if h.tgt == 2 then (lineStore s h g.ctx va (sound bs)).getD s
    else
      rawWrite (s.modPkg h.home fun p => { p with cache := p.cache.filter fun c => !(c.ctx == g.ctx && c.va == lineBase va) })
        { h with pa := lineBase h.pa } bs false

/-- The contents of the group's spill window are undefined from now on: every line of it takes free contents (R201). -/
def freeWindow (s : State) (g : Group) : State :=
  let size := ((s.ctx? g.rank g.ctx).map (·.spstride)).getD 0
  (upTo (size / 256)).foldl (fun s i => freeLine s g (g.spillVa (256 * (i : Int) - 2 ^ 21))) s

/-- The group's lines leave the buffer, discarded (R201). -/
def spillDrop (s : State) (g : Group) : State :=
  s.modCore g.core fun c => { c with spill := c.spill.filter fun l => l.gid != g.gid }

/-! ### Pending events and faults of a group -/

/-- TINFO's fields (R404). -/
def tinfoOf (slots : Mask) (arith bar level code : Nat) : DWord :=
  BitVec.ofNat 64 (slots.toNat + arith * 2 ^ 16 + bar * 2 ^ 21 + level * 2 ^ 26 + code * 2 ^ 32)

/-- IDLE completes for the group: its blocked IDLE words are woken (R421). -/
def Wait.wake : Wait → Wait
  | .idle _ => .woken
  | w => w
def Frag.wake (f : Frag) : Frag := { f with wait := f.wait.map Wait.wake }
def Group.wakeIdle (g : Group) : Group :=
  { g with frags := g.frags.map fun f => f.map Frag.wake
           spilled := g.spilled.map fun n => { n with wait := n.wait.map Wait.wake } }

/-- A combiner method ends with a fault of this cause (R301, R303). -/
def waveFault (s : State) (sl : SliceId) (cause : Nat) : State :=
  (s.modSlice sl fun q => { q with wave := q.wave.map fun w => if w.ended then w else { w with fault := cause, ended := true } }).owe
    [.event (.waveCommit sl)]

/-- An event becomes pending for a group (R397, R402): in trap mode, one of classes 5 to 10 is a double trap. -/
def pendTrap (s : State) (gid cls : Nat) (d : TrapD) : State :=
  match s.group? gid with
  | none => s
  | some g =>
    match g.wave with
    | some sl => waveFault s sl 4
    | none =>
      s.modGroup gid fun g =>
        if g.trap.faulted then g
        else if g.trap.tmode && 5 ≤ cls && cls ≤ 10 then { g with trap := { g.trap with faulted := true } }
        else
          { g.wakeIdle with
            trap := { g.trap with tpend := g.trap.tpend ||| BitVec.ofNat 16 (2 ^ cls), events := g.trap.events ++ [(cls, d)] } }

/-- The detail of a translation fault that no slot raised (R140, R404). -/
def faultD (f : VFault) (slots : Mask) : TrapD :=
  ⟨f.2.cause, tinfoOf slots 0 0 f.2.level 0, BitVec.ofNat 64 f.1⟩

/-! ### Writes to the system registers of a group (R32, R403, R404, R406) -/

/-- One replay entry field written (R406). -/
def Replay.write (r : Replay) (f : Nat) (x : DWord) : Replay :=
  if f == 0 then
    { r with word := loOf x, mask := BitVec.ofNat 16 (x.toNat / 2 ^ 32), valid := bitOf x.toNat 48
             cls := bitsOf x.toNat 49 4, sub := bitsOf x.toNat 53 4 }
  else if f ≤ 16 then { r with addrs := r.addrs.set (f - 1) x }
  else if f == 17 then { r with lit := loOf x }
  else r

/-- One replay entry field read (R406). -/
def Replay.read (r : Replay) (f : Nat) : DWord :=
  if f == 0 then
    BitVec.ofNat 64 (r.word.toNat + r.mask.toNat * 2 ^ 32 + b2n r.valid * 2 ^ 48 + r.cls % 16 * 2 ^ 49 + r.sub % 16 * 2 ^ 53)
  else if f ≤ 16 then r.addrs.getD (f - 1) 0
  else if f == 17 then zext64 r.lit
  else 0

/-- An empty replay entry. -/
def Replay.zero : Replay :=
  { seq := 0, word := 0, mask := 0, valid := false, cls := 0, sub := 0, addrs := List.replicate 16 0, lit := 0, uni := false }

/-- Entry e of the replay queue. -/
def TrapState.replay (t : TrapState) (e : Nat) : Replay := t.trq.getD e Replay.zero

/-- The valid replay entries (R419). -/
def TrapState.validSel (t : TrapState) : BitVec 8 :=
  (upTo 8).foldl (fun m e => if (t.replay e).valid then m ||| BitVec.ofNat 8 (2 ^ e) else m) 0

/-- A write to the trap registers of R403 and R406; reserved and read-only fields keep their value (R5). -/
def TrapState.write (t : TrapState) (idx : Nat) (x : DWord) : TrapState :=
  let n := x.toNat
  match idx with
  | 0x060 => { t with cls := bitsOf n 0 4, sub := bitsOf n 4 4 }
  | 0x061 => { t with tpc := BitVec.ofNat 64 (bitsOf n 0 61) }
  | 0x062 => { t with tmask := BitVec.ofNat 64 (bitsOf n 0 16) }
  | 0x063 => { t with tinfo := BitVec.ofNat 64 (bitsOf n 0 30 + bitsOf n 32 32 * 2 ^ 32) }
  | 0x064 => { t with taddr := x }
  | 0x065 =>
    let keep (c : Nat) : Bool := !(5 ≤ c && c ≤ 15 && bitOf n c)
    { t with tpend := (upTo 16).foldl (fun m c => if t.tpend.getLsbD c && keep c then m ||| BitVec.ofNat 16 (2 ^ c) else m) 0
             events := t.events.filter fun e => keep e.1 }
  | _ =>
    if 0x06C ≤ idx && idx ≤ 0x06F then { t with tks := t.tks.setIfInBounds (idx - 0x06C) x }
    else if 0x100 ≤ idx && idx ≤ 0x1FF then
      let e := (idx - 0x100) / 32
      let q := t.trq ++ List.replicate (8 - t.trq.length) Replay.zero
      { t with trq := q.set e ((t.replay e).write ((idx - 0x100) % 32) x) }
    else t

/-- A write to a writable system register of the group (R32, R33, R403). -/
def Group.writeSys (g : Group) (idx : Nat) (x : DWord) : Group :=
  match idx with
  | 0x010 => if bitsOf x.toNat 0 2 == 0 then g else { g with nbv := bitsOf x.toNat 0 2 }
  | 0x022 => { g with deadline := x.toNat }
  | 0x023 => { g with timer := x.toNat }
  | 0x024 => { g with arithen := BitVec.ofNat 5 x.toNat }
  | 0x043 => { g with rseq := loOf x }
  | 0x044 => { g with rstpt := BitVec.ofNat 64 (bitsOf x.toNat 0 57), rstseq := g.rseq }
  | 0x045 => { g with rstseq := loOf x }
  | _ => { g with trap := g.trap.write idx x }

/-! ### The split table and the spill queue (R134 to R141) -/

/-- The fragment of an entry. -/
def Group.frag (g : Group) (e : Nat) : Option Frag := (g.frags[e]?).join
/-- An entry of the split table replaced. -/
def Group.setFrag (g : Group) (e : Nat) (f : Option Frag) : Group := { g with frags := g.frags.setIfInBounds e f }
/-- A fragment changed in its entry. -/
def Group.modFrag (g : Group) (e : Nat) (f : Frag → Frag) : Group :=
  { g with frags := g.frags.mapIdx fun i (x : Option Frag) => if i == e then x.map f else x }
/-- The reconvergence record of an index; 31 names none. -/
def Group.rec? (g : Group) (i : Nat) : Option RRec := (g.recs[i]?).join
def Group.setRec (g : Group) (i : Nat) (r : Option RRec) : Group := { g with recs := g.recs.setIfInBounds i r }

/-- The lowest free entry of the split table. -/
def Group.freeEntry (g : Group) : Option Nat := g.frags.toList.findIdx? fun f => f.isNone
/-- The lowest free reconvergence record. -/
def Group.freeRec (g : Group) : Option Nat := g.recs.toList.findIdx? fun r => r.isNone

/-- The resident fragments with their entries. -/
def Group.resident (g : Group) : List (Nat × Frag) :=
  (upTo 8).filterMap fun e => (g.frag e).map fun f => (e, f)

/-- A fragment at word 0 of a clause, ready (R136, R138). -/
def Frag.at (mask : Mask) (clause : DWord) (recx : Nat) : Frag :=
  { mask := mask, clause := clause, word := 0, recx := recx, st := .ready, age := 0, hdr := none, wait := none }

/-- STATE as R410 codes it. -/
def FragSt.code : FragSt → Nat
  | .ready => 0 | .blocked => 1 | .joinwait => 2
def FragSt.ofCode : Nat → FragSt
  | 1 => .blocked | 2 => .joinwait | _ => .ready

/-- The split-table entry of a fragment as memory holds it (R410). -/
def Frag.num (f : Frag) : Nat :=
  f.mask.toNat + bitsOf f.clause.toNat 0 57 * 2 ^ 16 + f.word % 16 * 2 ^ 73 + f.recx % 32 * 2 ^ 77 +
    f.st.code * 2 ^ 82 + min f.age 0xFFFF * 2 ^ 84

/-- A 57-bit address with its sign extension (R36). -/
def sext57 (x : Nat) : DWord := BitVec.ofInt 64 (toSigned 57 x)

/-- The fragment that a split-table entry of memory holds (R410), with what the model keeps of it. -/
def Frag.ofNum (x : Nat) (n : SpillNote) : Frag :=
  { mask := BitVec.ofNat 16 x, clause := sext57 (bitsOf x 16 57), word := bitsOf x 73 4, recx := bitsOf x 77 5
    st := if bitsOf x 82 2 == 1 && n.wait == none then .ready else FragSt.ofCode (bitsOf x 82 2)
    age := bitsOf x 84 16, hdr := n.hdr, wait := n.wait }

/-- Records of the interrupted table that stand in the queue before the handler's (R401, R402). -/
def Group.frozenSpill (g : Group) : Nat :=
  match g.trap.frozen with
  | none => 0
  | some z => if g.trap.tmode then z.spilled.length else 0

/-- The spill-stack offset of a place in the fragment queue (R140). -/
def Group.queueOff (g : Group) (n : Nat) : Int := -(2 ^ 20 : Int) - 32 * ((g.frozenSpill + n : Nat) + 1 : Int)

/-- The victim of R140: the largest AGE among BLOCKED and JOINWAIT fragments, else among the others, the highest entry
on ties; never an entry of `keep`. -/
def Group.victim (g : Group) (keep : List Nat) : Option (Nat × Frag) :=
  let c := g.resident.filter fun x => !keep.contains x.1
  let b := c.filter fun x => x.2.st != .ready
  let c := if b.isEmpty then c else b
  c.foldl (fun best x => match best with
    | none => some x
    | some y => if y.2.age ≤ x.2.age then some x else some y) none

/-- A resident fragment written to the tail of the spill queue; its entry frees (R140). -/
def spillFrag (s : State) (gid e : Nat) : State × Except VFault Unit :=
  match s.group? gid with
  | none => (s, .ok ())
  | some g =>
    match g.frag e with
    | none => (s, .ok ())
    | some f =>
      match spillWrite s g (g.queueOff g.spilled.length) (sound (bytesLE 32 f.num)) with
      | (s, .error x) => (s, .error x)
      | (s, .ok ()) =>
        (s.modGroup gid fun g =>
          { g.setFrag e none with
            spilled := g.spilled ++ [⟨f.hdr, f.wait, g.srwq.filter fun w => w.entry == e⟩]
            srwq := g.srwq.filter fun w => w.entry != e }, .ok ())

/-- A free entry for a new fragment, through a victim when all are in use (R135, R140). -/
def takeEntry (s : State) (gid : Nat) (keep : List Nat) : State × Except VFault Nat :=
  match s.group? gid with
  | none => (s, .ok 0)
  | some g =>
    match g.freeEntry with
    | some e => (s, .ok e)
    | none =>
      match g.victim keep with
      | none => (s, .ok 0)
      | some (e, _) =>
        match spillFrag s gid e with
        | (s, .error x) => (s, .error x)
        | (s, .ok ()) => (s, .ok e)

/-- The queue's records after the first, each moved one place towards the head (log 13). -/
def shiftQueue (s : State) (g : Group) : Nat → State
  | 0 => s
  | n + 1 =>
    let s := shiftQueue s g n
    match spillRead s g (g.queueOff (n + 1)) 32 with
    | (s, .error _) => s
    | (s, .ok bs) => (spillWrite s g (g.queueOff n) bs).1

/-- The head of the spill queue reloaded into entry `e` (R141). -/
def reloadHead (s : State) (gid e : Nat) : State × Except VFault Unit :=
  match s.group? gid with
  | none => (s, .ok ())
  | some g =>
    match g.spilled with
    | [] => (s, .ok ())
    | n :: r =>
      match spillRead s g (g.queueOff 0) 32 with
      | (s, .error x) => (s, .error x)
      | (s, .ok bs) =>
        let f := Frag.ofNum (ofBytesLE (bs.map (·.1))) n
        let s := shiftQueue s g r.length
        let s := s.modGroup gid fun g =>
          { g.setFrag e (if f.mask == 0 then none else some f) with
            spilled := r, srwq := g.srwq ++ n.srw.map fun w => { w with entry := e } }
        (if f.wait.isSome then s.owe [.event (.blockedWordComplete gid e)] else s, .ok ())

/-- Spilled fragments are reloaded while an entry is free, in queue order (R141). A read that faults is tried again after
the trap that it raises at the group's next boundary (log 13). -/
def reload (s : State) (gid : Nat) : Nat → State
  | 0 => s
  | fuel + 1 =>
    match s.group? gid with
    | none => s
    | some g =>
      match g.freeEntry, g.spilled with
      | some e, _ :: _ =>
        match reloadHead s gid e with
        | (s, .ok ()) => reload s gid fuel
        | (s, .error f) => if g.trap.tpend.getLsbD 5 then s else pendTrap s gid 5 (faultD f 0)
      | _, _ => s

/-- Every slot of the record has arrived or exited (R136). -/
def Group.complete (g : Group) (r : RRec) : Bool := (r.arrived ||| g.exited) &&& r.omask == r.omask

/-- Depth of a record in the tree of records. -/
def Group.recDepth (g : Group) : Nat → Nat → Nat
  | 0, _ => 0
  | fuel + 1, i =>
    match g.rec? i with
    | none => 0
    | some r => 1 + g.recDepth fuel r.parent

/-- The innermost live record whose slots have all arrived or exited (R137). -/
def Group.completeRec (g : Group) : Option (Nat × RRec) :=
  let c := (upTo 16).filterMap fun i => (g.rec? i).bind fun r => if g.complete r then some (i, r) else none
  c.foldl (fun best x => match best with
    | none => some x
    | some y => if g.recDepth 17 y.1 < g.recDepth 17 x.1 then some x else some y) none

/-- The fragment stands at its reconvergence clause at the record's depth (R136). -/
def Group.reached (g : Group) (f : Frag) : Bool :=
  match g.rec? f.recx with
  | none => false
  | some r => f.word == 0 && f.clause == r.rcv && (maskSlots f.mask).all fun s => (g.thread s).cdepth == r.cdepth

/-- The arrival of a fragment at its reconvergence clause: ARRIVED takes its slots and its entry frees (R136). -/
def Group.arriveAt (g : Group) (e : Nat) (f : Frag) : Group :=
  { g.setFrag e none with
    recs := g.recs.mapIdx fun i (r : Option RRec) =>
      if i == f.recx then r.map fun r => { r with arrived := r.arrived ||| f.mask } else r }

/-- Fusions whose record is complete are made, innermost first (R136, R137); a victim's write that faults postpones the
fusion and raises class 5 at the next boundary (R140). -/
def fuse (s : State) (gid : Nat) : Nat → State
  | 0 => s
  | fuel + 1 =>
    match s.group? gid with
    | none => s
    | some g =>
      match g.completeRec with
      | none => s
      | some (i, r) =>
        let m := r.omask &&& ~~~g.exited
        if m == 0 then fuse (s.modGroup gid fun g => g.setRec i none) gid fuel
        else if g.freeEntry.isNone && g.trap.tpend.getLsbD 5 then s
        else
          match takeEntry s gid [] with
          | (s, .error f) => pendTrap s gid 5 (faultD f 0)
          | (s, .ok e) =>
            let f := Frag.at m r.rcv r.parent
            let s := s.modGroup gid fun g =>
              let g := (g.setRec i none).setFrag e (some f)
              if g.reached f then g.arriveAt e f else g
            fuse s gid fuel

/-- The entries that the fragments of a completed JOIN take, one for each CDEPTH (R138). -/
def joinFrags (s : State) (gid : Nat) (pc : JoinPc) : List Mask → List Nat → State × List Nat × Option VFault
  | [], made => (s, made, none)
  | m :: r, made =>
    match takeEntry s gid [] with
    | (s, .error f) => (s, made, some f)
    | (s, .ok e) =>
      let f : Frag := { Frag.at m pc.clause 31 with word := pc.word, hdr := pc.hdr }
      joinFrags (s.modGroup gid fun g => g.setFrag e (some f)) gid pc r (made ++ [e])

/-- The SRW writes of an entry's clause take effect (R32, R418). -/
def Group.flushSrw (g : Group) (e : Nat) : Group :=
  (g.srwq.filter fun w => w.entry == e).foldl (fun g w => g.writeSys w.index w.value)
    { g with srwq := g.srwq.filter fun w => w.entry != e }

/-- The SRW writes of one entry's clause become those of another. -/
def Group.moveSrw (g : Group) (e e' : Nat) : Group :=
  { g with srwq := g.srwq.map fun w => if w.entry == e then { w with entry := e' } else w }

/-- The SRW writes that parked fragments made before their JOIN go with the first fragment that goes on in their clause; they
take effect when none does (R32, R138). -/
def Group.unparkSrw (g : Group) (made : List Nat) : Group :=
  match made with
  | e :: _ => g.moveSrw 8 e
  | [] => g.flushSrw 8

/-- The completion of a JOIN, when JMASK or EXITED covers all 16 slots (R138); a victim's write that faults postpones it
(R140). -/
def joinComplete (s : State) (gid : Nat) : State :=
  match s.group? gid with
  | none => s
  | some g =>
    if g.jmask == 0 || (g.jmask ||| g.exited) != 0xFFFF || (g.freeEntry.isNone && g.trap.tpend.getLsbD 5) then s
    else
      let m := g.jmask &&& ~~~g.exited
      let depths := ((maskSlots m).map fun s => (g.thread s).cdepth).dedup.sortLe (· ≤ ·)
      let parts := depths.map fun d => maskOf fun s => m.getLsbD s && (g.thread s).cdepth == d
      match joinFrags s gid g.jpc parts [] with
      | (s, made, some f) =>
        let s := s.modGroup gid fun g => made.foldl (fun g e => g.setFrag e none) g
        pendTrap s gid 5 (faultD f 0)
      | (s, made, none) =>
        s.modGroup gid fun g =>
          { g.unparkSrw made with
            recs := Vector.replicate 16 none, jmask := 0
            frags := g.frags.map fun f => f.map fun f => if f.st == .joinwait then { f with st := .ready } else f }

/-- Every fusion that is due, then the reload of spilled fragments (R136 to R141). -/
def settle (s : State) (gid : Nat) : State := reload (joinComplete (fuse s gid 33) gid) gid 16

/-- A fragment whose PC has become word 0 of a clause arrives there when that is its reconvergence clause (R136). -/
def arrive (s : State) (gid e : Nat) : State :=
  match s.group? gid with
  | none => s
  | some g =>
    match g.frag e with
    | none => s
    | some f => if g.reached f then settle (s.modGroup gid fun g => g.arriveAt e f) gid else s

/-! ### Retirement of a group (R122, R153, R201) -/

/-- All groups of a team have exited, and its posted matrix entries, which an exit does not cancel, have completed (R153, R183;
log 61). -/
def teamEmpty (s : State) (tid : Nat) : Bool :=
  !(s.groups.any fun g => g.tid == tid && g.wave.isNone) && !(s.cores.any fun c => c.fifo.any fun e => e.tid == tid)

/-- A team that has become empty frees its resources: its core and its die may take others, and its grid may retire (R153). -/
def teamOver (s : State) (t : Team) : State :=
  (if teamEmpty s t.tid then s.modTeam t.tid fun t => { t with st := .exited } else s).owe
    [.event (.gridRetire t.grid), .event (.acqGrant t.core), .event (.teamPlace t.rank t.core.die)]

/-- The monitor entries that were Replied to a word of a group, or to every word of it, are Free (R294). -/
def freeReplied (s : State) (gid : Nat) (seq : Option Nat) : State :=
  let gone (m : Monitor) : Bool := m.st == .replied && m.req.gid == gid && seq.all fun n => n == m.req.seq
  let clear (p : Pkg) : Pkg :=
    { p with slices := p.slices.map fun q => (q.1, { q.2 with monitors := q.2.monitors.filter fun m => !gone m }) }
  { s with pkgs := modWhere (fun p => p.slices.any fun q => q.2.monitors.any gone) clear s.pkgs }

/-- The last thread of a group has exited: its spill window and lines are given back, and when it was the team's last group the
team frees its places and other resources (R153, R199, R201). A wave's method has ended (R300). -/
def retireGroup (s : State) (gid : Nat) : State :=
  match s.group? gid with
  | none => s
  | some g =>
    match g.wave with
    | some sl =>
      (s.modSlice sl fun q => { q with wave := q.wave.map fun w => { w with ended := true } }).owe [.event (.waveCommit sl)]
    | none =>
      let s := freeReplied (freeWindow (spillDrop s g) g) gid none
      let s := s.modCore g.core fun c =>
        { c with latches := c.latches.filter fun l => l.gid != gid, acqs := c.acqs.filter fun a => a.gid != gid }
      let s := { s with groups := s.groups.filter fun x => x.gid != gid
                        sliceWaits := s.sliceWaits.filter fun w => w.gid != gid }
      match s.team? g.tid with
      | none => s
      | some t => teamOver s t

/-- Slots of a group exit (R122): they leave every fragment, count as arrived at every record and JOIN (R137), and the
group retires when all have. -/
def exitSlots (s : State) (gid : Nat) (m : Mask) : State :=
  let s := s.modGroup gid fun g =>
    { g with exited := g.exited ||| m
             frags := g.frags.map fun f => f.bind fun f => if f.mask &&& ~~~m == 0 then none else some { f with mask := f.mask &&& ~~~m } }
  let s := settle s gid
  match s.group? gid with
  | none => s
  | some g => if g.exited == 0xFFFF then retireGroup s gid else s

end Sys2Proof.Machine
end

