-- ==== Sys2Proof/Machine/Reply.lean ====
section
/-! DEFINITION. Words in flight: the path counters (R214, R215), the scoreboard (R58, R59), and the landing of a reply in
the registers (R210, R237). -/

namespace Sys2Proof.Machine

/-- The counter of a path: its words that have issued and not returned (R214). -/
def Group.path (g : Group) (p : Nat) : Nat := (g.flights.filter fun f => f.path == p).length

/-- The words of a path that have returned leave, up to the first that has not (R215). -/
def popPath (p : Nat) : List Flight → List Flight
  | [] => []
  | f :: r => if f.path == p then (if f.done then popPath p r else f :: r) else f :: popPath p r

/-- A reply of the flight writes the register at this depth of this slot, and has not landed (R23, R58). -/
def Flight.holds (f : Flight) (slot depth : Nat) : Bool :=
  !f.done && f.mask.getLsbD slot && f.depths.getD slot 0 ≤ depth && depth < f.depths.getD slot 0 + f.dstn

/-- A write to v n of a slot is pending (R58). -/
def Group.vbusy (g : Group) (slot n : Nat) : Bool :=
  g.flights.any fun f => f.holds slot ((g.thread slot).depth n)

/-- A write to one of these v registers is pending in a slot of the mask. -/
def Group.vsBusy (g : Group) (m : Mask) (regs : List Nat) : Bool :=
  (maskSlots m).any fun s => regs.any fun n => g.vbusy s n

/-- A write to one of these k registers is pending (R59). -/
def Group.ksBusy (g : Group) (regs : List Nat) : Bool := regs.any fun n => g.kbusy.getLsbD n

/-- Fragments that wait for the scoreboard try again, resident or in the spill queue (R41, R58, R142). -/
def Group.wakeScore (g : Group) : Group :=
  { g with frags := g.frags.map fun f => f.map fun f => if f.wait == some .scoreboard then { f with st := .ready, wait := none } else f
           spilled := g.spilled.map fun n => if n.wait == some .scoreboard then { n with wait := none } else n }

/-- A word returns: its counter drops once every earlier word of its path has returned (R215). -/
def Group.ret (g : Group) (seq : Nat) : Group :=
  match g.flights.find? fun f => f.seq == seq with
  | none => g
  | some f =>
    { g.wakeScore with flights := popPath f.path (modWhere (fun x => x.seq == seq) (fun x => { x with done := true }) g.flights) }

/-- A word leaves the flights without a return of its own: it was cancelled (R405). -/
def Group.cancel (g : Group) (seq : Nat) : Group :=
  match g.flights.find? fun f => f.seq == seq with
  | none => g
  | some f => { g.wakeScore with flights := popPath f.path (g.flights.filter fun x => x.seq != seq) }

/-- A k register that an operation wrote on completion is free again (R59). -/
def Group.setBusyK (g : Group) (n : Nat) (x : DWord) : Group :=
  { (g.setK n x).wakeScore with kbusy := g.kbusy &&& ~~~(BitVec.ofNat 32 (2 ^ n)) }
/-- A k register is held until an operation or a wait completes (R59). -/
def Group.holdK (g : Group) (n : Nat) : Group := { g with kbusy := g.kbusy ||| BitVec.ofNat 32 (2 ^ n) }
/-- A k register that a word held is free, unwritten: the word was abandoned (R59, R400). -/
def Group.freeK (g : Group) (n : Nat) : Group :=
  { g.wakeScore with kbusy := g.kbusy &&& ~~~(BitVec.ofNat 32 (2 ^ n)) }

/-- A word raises its path's counter (R214). -/
def Group.raise (g : Group) (f : Flight) : Group :=
  { g with flights := g.flights ++ [{ f with seq := g.nextSeq }], nextSeq := g.nextSeq + 1 }

/-- The reply that a slot takes: under UNI the one access answers for every slot (R44). -/
def Flight.reply (f : Flight) (slot : Nat) : Reply := f.got.getD (if f.uni then lowest f.mask else slot) .pending

/-- The slots whose reply satisfies `p`. -/
def Flight.slotsWith (f : Flight) (p : Reply → Bool) : Mask := maskOf fun s => f.mask.getLsbD s && p (f.reply s)

/-- The replay entry of a word in flight (R405, R406). -/
def Flight.replay (f : Flight) (cls sub : Nat) : Replay :=
  { seq := f.seq, word := f.word, mask := f.mask, valid := true, cls := cls, sub := sub, addrs := f.addrs, lit := f.lit
    uni := f.uni }

/-- The register at this depth is in the backing: between the lowest resident register and v63 (R16). -/
def Thread.resident (t : Thread) (d : Nat) : Bool := t.rbase ≤ d && d < t.wbase + 64

/-- The registers of a slot written with its reply, from the depth that v[DATA] had at issue (R23). A depth that RETs have
left above the window has no register any more, and its write changes none (log 57). -/
def landThread (f : Flight) (slot : Nat) (t : Thread) : Thread :=
  match f.reply slot with
  | .words ws =>
    (upTo ws.length).foldl (fun t i =>
      let d := f.depths.getD slot 0 + i
      if t.resident d then t.dset d (ws.getD i 0) else t) t
  | _ => t

/-- The latches over registers that a landing writes (R189). -/
def landRegs (g : Group) (f : Flight) : List Nat :=
  ((maskSlots f.mask).flatMap fun s => (upTo f.dstn).map fun i => f.depths.getD s 0 + i - (g.thread s).wbase).dedup

/-- The reply of a word lands: its destinations are written, or it raises class 6 (R237), class 7 (R210) or class 5 (R424)
and its destinations stay unwritten. -/
def land (s : State) (gid seq : Nat) : State :=
  match s.group? gid with
  | none => s
  | some g =>
    match g.flights.find? fun f => f.seq == seq && !f.done with
    | none => s
    | some f =>
      let s := if f.kind == .waitc then freeReplied s gid (some seq) else s
      let poison := f.slotsWith fun r => r == .poison
      let uninit := f.slotsWith fun r => r == .uninit
      let bad := f.slotsWith fun r => match r with
        | .fault _ _ => true
        | _ => false
      let back (cls sub level : Nat) (m : Mask) : State :=
        let s := s.modGroup gid fun g => { g.ret seq with trap := { g.trap with raised := g.trap.raised ++ [f.replay cls sub] } }
        pendTrap s gid cls ⟨sub, tinfoOf m 0 0 level 0, f.addrs.getD (lowest m) 0⟩
      if bad != 0 then
        match f.reply (lowest bad) with
        | .fault c l => back 5 c l bad
        | _ => s
      else if poison != 0 then back 6 0 0 poison
      else if uninit != 0 then back 7 0 0 uninit
      else
        let s := dropLatches s g (landRegs g f)
        s.modGroup gid fun g =>
          let g := (g.modThreads (fun i => f.mask.getLsbD i) (landThread f)).ret seq
          if f.path == 6 then g.wakeIdle else g

/-- Transfers of the group's own PUT bytes to a line that have not been applied (R219, R250). -/
def putUnderWay (s : State) (gid rank ctx va : Nat) : Bool :=
  s.fab.xfers.any fun x => x.src == rank && x.ctx == ctx && x.va == lineBase va && !x.applied && (x.last.get gid).isSome

/-- The GET of a slot waits: for the group's PUTs to its line that are under way (R250), or for an earlier GET of the group at
the same location (R238, R266). -/
def getHeld (s : State) (g : Group) (f : Flight) (va : Nat) : Bool :=
  putUnderWay s g.gid g.rank g.ctx va || g.flights.any fun e =>
    !e.done && e.kind == .get && e.seq < f.seq && (maskSlots e.mask).any fun j =>
      (!e.uni || j == lowest e.mask) && e.reply j == .pending && (e.addrs.getD j 0).toNat == va

/-- A GET performed at a local home for each slot that has no reply yet, whose home is the group's package, and that need not
wait (R250). -/
def performGet (s : State) (g : Group) (f : Flight) : List Nat → State
  | [] => s
  | slot :: r =>
    let va := (f.addrs.getD slot 0).toNat
    let s :=
      if f.reply slot != .pending || getHeld s g f va then s
      else
        match xlate s g.rank g.core.die g.ctx va .read with
        | (s, .error x) => (s.modGroup g.gid fun g => { g with flights := modWhere (fun x => x.seq == f.seq) (fun y => { y with got := y.got.set slot (.fault x.cause x.level) }) g.flights })
        | (s, .ok h) =>
          if h.home != g.rank then s
          else
            let (s, bs) := lineRead s h g.ctx va 4
            let rep : Reply := if bs.any (·.2) then .poison else .words (wordsOf (bs.map (·.1)))
            s.modGroup g.gid fun g => { g with flights := modWhere (fun x => x.seq == f.seq) (fun y => { y with got := y.got.set slot rep }) g.flights }
    performGet s g f r

/-- The slots that make an access: under UNI the lowest alone (R44). -/
def Flight.accessSlots (f : Flight) : List Nat := if f.uni then [lowest f.mask] else maskSlots f.mask

/-- Every access of the word has been answered. -/
def Flight.answered (f : Flight) : Bool := f.accessSlots.all fun s => f.reply s != .pending

/-- A reply is due: a GET is performed at its home, slot by slot, after the group's PUTs to its line (R250), and the word lands
once every slot is answered. `again` is the step to come again when it is not. -/
def replyWord (s : State) (gid seq : Nat) (again : Bool) : State :=
  match s.group? gid with
  | none => s
  | some g =>
    match g.flights.find? fun f => f.seq == seq && !f.done with
    | none => s
    | some f =>
      let later (s : State) : State := if again then s.owe [.event (.memoryReply gid seq)] else s
      if f.kind == .get then
        let s := performGet s g f f.accessSlots
        match s.group? gid with
        | none => s
        | some g =>
          match g.flights.find? fun f => f.seq == seq with
          | none => s
          | some f =>
            if f.answered then land s gid seq
            else if f.accessSlots.any fun sl => f.reply sl == .pending && getHeld s g f (f.addrs.getD sl 0).toNat then later s
            else s
      else if f.answered then land s gid seq
      else s

end Sys2Proof.Machine
end

