-- ==== Sys2Proof/Machine/Ops.lean ====
section
/-! DEFINITION. The operations that words and steps share: taking a trap and what it leaves (R397 to R407), issuing a
word, moving past it (R26, R126, R141), blocking on a wait (R41), and the events of barriers (R148 to R150). -/

namespace Sys2Proof.Machine

/-- What a word or step answers. -/
abbrev Outcome := Host.Outcome State Fault Refusal

/-! ### Taking a trap (R397 to R405) -/

/-- TPC of a fragment (R404). -/
def tpcOf (clause : DWord) (word : Nat) : DWord := BitVec.ofNat 64 (bitsOf clause.toNat 0 57 + word % 16 * 2 ^ 57)

/-- The fragment is in the middle of a clause (R41). -/
def Frag.inClause (f : Frag) : Bool := f.hdr.isSome || f.word != 0

/-- The fragment in the middle of a clause that goes on with it: READY, and the last to have issued (R41). -/
def Group.midClause (g : Group) : Option (Nat × Frag) :=
  (g.resident.filter fun x => x.2.inClause && x.2.st == .ready).foldl (fun best x => match best with
    | none => some x
    | some y => if x.2.age < y.2.age then some x else some y) none

/-- The READY entry with the largest AGE, the lowest on ties. -/
def Group.eldest (g : Group) : Option (Nat × Frag) :=
  (g.resident.filter fun x => x.2.st == .ready).foldl (fun best x => match best with
    | none => some x
    | some y => if y.2.age < x.2.age then some x else some y) none

/-- The fragment that a trap at a boundary describes: the one that the lane would select next (R401). -/
def Group.described (g : Group) : Option (Nat × Frag) :=
  match (if g.reps.active then (g.frag g.reps.entry).map fun f => (g.reps.entry, f) else none) with
  | some x => some x
  | none => g.midClause <|> g.eldest <|> g.resident.head?

/-- TCAUSE (R404). -/
def TrapState.tcause (t : TrapState) : DWord :=
  let rqn := ((upTo 8).filter fun e => (t.replay e).valid).length
  BitVec.ofNat 64 (t.cls % 16 + t.sub % 16 * 16 + rqn * 2 ^ 8 + t.sel.toNat * 2 ^ 12)

/-- Replay entries at the entry of a trap of class `cls` (R405): the word that raised it, and the loads and GETs whose data
has not landed, in issue order. The oldest 8 become entries, and the later words complete. -/
def collectReplay (s : State) (gid cls : Nat) : State × List Replay :=
  match s.group? gid with
  | none => (s, [])
  | some g =>
    let raised := (g.trap.raised.find? fun r => r.cls == cls).toList
    let loads := g.flights.filter fun f => !f.done && (f.kind == .load || f.kind == .get)
    let all := (raised ++ loads.map fun f => f.replay 0 0).sortLe fun a b => a.seq ≤ b.seq
    let q := all.take 8
    let later := (all.drop 8).map (·.seq)
    let s := s.modGroup gid fun g =>
      let g := (q.filter fun r => loads.any fun f => f.seq == r.seq).foldl (fun g r => g.cancel r.seq) g
      { g with trap := { g.trap with raised := match raised with
          | [] => g.trap.raised
          | r :: _ => g.trap.raised.erase r } }
    (later.foldl (fun s n => replyWord s gid n false) s, q)

/-- What the wait was for has happened, and only the completion of its word is to come (R149, R421). -/
def Wait.over : Wait → Bool
  | .woken | .headerOver _ _ | .barOver _ _ _ => true
  | _ => false

/-- The k register that the word writes when its wait ends, scoreboarded from its issue (R59). -/
def Wait.kreg : Wait → Option Nat
  | .barw kd _ | .barOver kd _ _ => kd.map BitVec.toNat
  | .acq _ kd => some kd.toNat
  | .cwait kd _ => some kd.toNat
  | .ewait _ kn _ => some kn.toNat
  | _ => none

/-- A spilled fragment that waits issues its word again, unless its wait is over (R400). -/
def SpillNote.abandon (n : SpillNote) : SpillNote := { n with wait := n.wait.filter Wait.over }

/-- A resident fragment that waits issues its word again, unless its wait is over (R400). -/
def Frag.abandon (f : Frag) : Frag :=
  if f.st == .blocked && !f.wait.any Wait.over then { f with st := .ready, wait := none } else f

/-- The waits of the group's fragments, resident and spilled. -/
def Group.waits (g : Group) : List Wait := (g.resident.filterMap fun x => x.2.wait) ++ g.spilled.filterMap fun n => n.wait

/-- The k registers that the group's waits hold are free: their words are abandoned (R59, R400). -/
def Group.releaseWaits (g : Group) : Group := (g.waits.filterMap Wait.kreg).foldl Group.freeK g

/-- Waits that a trap or a switch abandons: requests of the group still in a queue are withdrawn, and are made again when the
word is issued again (R400). -/
def abandonWaits (s : State) (g : Group) : State :=
  let s := s.modCore g.core fun c => { c with acqs := c.acqs.filter fun a => a.gid != g.gid }
  { s with sliceWaits := s.sliceWaits.filter fun w => w.gid != g.gid
           groups := modWhere (fun x => x.gid == g.gid) Group.releaseWaits s.groups }

/-- What a wait was for has happened on a barrier, and the completion of its word comes before any boundary. -/
def Group.latched (g : Group) : Bool := g.waits.any fun w => w.over && w != .woken

/-- The entry of a trap (R401): the frame is saved, the table frozen, and the handler is one fragment at its entry of
TRAPVEC. `at` is the fragment that TPC and TMASK describe; with none, TPC is a free value (log 14). -/
def enterTrap (s : State) (gid : Nat) (desc : Option (Nat × Frag)) (cls : Nat) (d : TrapD) : State :=
  match s.group? gid with
  | none => s
  | some g =>
    let s := abandonWaits s g
    let (s, q) := if cls == 15 then (s, g.trap.trq) else collectReplay s gid cls
    let (free, s) := if desc.isNone then s.freeDWord else (0, s)
    let c := s.ctx? g.rank g.ctx
    let m := ((s.team? g.tid).bind fun t => t.wins.head?).getD g.win
    s.modGroup gid fun g =>
      let t : TrapState :=
        { g.trap with
          cls := cls, sub := d.sub, tinfo := d.tinfo, taddr := d.taddr, trq := q
          tpc := match desc with
            | some (_, f) => tpcOf f.clause f.word
            | none => tpcOf free 0
          tmask := match desc with
            | some (_, f) => BitVec.ofNat 64 f.mask.toNat
            | none => 0
          tks := #v[g.kr 28, g.kr 29, g.kr 30, g.kr 31]
          tmode := true
          frozen := some
            { frags := g.frags, recs := g.recs, jaddr := g.jaddr, jmask := g.jmask, jpc := g.jpc, spilled := g.spilled
              reps := g.reps, srwq := g.srwq, entry := match desc with
                | some (e, _) => e
                | none => 8 } }
      let t := { t with sel := t.validSel }
      let csave := (c.map (·.csave)).getD 0
      let tsave := (c.map (·.tsave)).getD 0
      let vec := (c.map (·.trapvec)).getD 0
      let g := { g with trap := t, reps := Reps.zero, recs := Vector.replicate 16 none, jaddr := 0, jmask := 0
                        jpc := JoinPc.zero, spilled := [], srwq := []
                        frags := (Vector.replicate 8 none).setIfInBounds 0
                          (some (Frag.at (~~~g.exited) (BitVec.ofNat 64 (vec + 64 * cls)) 31)) }
      (((g.setK 28 (BitVec.ofNat 64 (csave + 2 ^ 14 * g.win))).setK 29 t.tcause).setK 30 t.tpc).setK 31
        (BitVec.ofNat 64 (tsave + 2 ^ 20 * m))

/-- A trap raised at the issue of a word: in trap mode a double trap (R402), in a combiner method a fault of it (R301),
otherwise its entry, described by the issuing fragment (R401). -/
def takeTrap (s : State) (is : Issuer) (cls : Nat) (d : TrapD) : State :=
  match s.group? is.gid with
  | none => s
  | some g =>
    match g.wave with
    | some sl => waveFault s sl 4
    | none =>
      if g.trap.tmode then s.modGroup is.gid fun g => { g with trap := { g.trap with faulted := true } }
      else enterTrap s is.gid ((g.frag is.entry).map fun f => (is.entry, f)) cls d

/-- The pending event that a boundary takes first: class 15, then 5 to 12, then 14 (R398). -/
def TrapState.nextEvent (t : TrapState) : Option Nat :=
  [15, 5, 6, 7, 8, 9, 10, 11, 12, 14].find? fun c => t.tpend.getLsbD c

/-- A pending event is taken at a boundary (R398, R401). -/
def boundaryTrap (s : State) (gid : Nat) : State :=
  match s.group? gid with
  | none => s
  | some g =>
    if g.trap.tmode || g.trap.faulted then s
    else
      match g.trap.nextEvent with
      | none => s
      | some c =>
        let d := ((g.trap.events.find? fun e => e.1 == c).map (·.2)).getD ⟨0, 0, 0⟩
        let s := s.modGroup gid fun g =>
          let ev := g.trap.events.eraseP fun e => e.1 == c
          { g with trap := { g.trap with
              events := ev
              tpend := if ev.any fun e => e.1 == c then g.trap.tpend else g.trap.tpend &&& ~~~(BitVec.ofNat 16 (2 ^ c)) } }
        enterTrap s gid g.described c d


/-- The interrupted table is reinstated: k28 to k31, REPS, the fragments without the slots that have exited, with the
interrupted fragment at TPC and TMASK (R407 steps 2 and 3); blocked words are issued again (R400). -/
def reinstate (s : State) (gid : Nat) : State :=
  match s.group? gid with
  | none => s
  | some g =>
    match g.trap.frozen with
    | none => s
    | some z =>
      let t := g.trap
      let fix (e : Nat) (f : Frag) : Option Frag :=
        let f := if e == z.entry then
            let clause := sext57 (bitsOf t.tpc.toNat 0 57)
            let word := bitsOf t.tpc.toNat 57 4
            { f with mask := BitVec.ofNat 16 t.tmask.toNat, clause := clause, word := word
                     hdr := if clause == f.clause && word == f.word then f.hdr else none }
          else f
        let f := { f with mask := f.mask &&& ~~~g.exited }
        let f := f.abandon
        if f.mask == 0 then none else some f
      let late := g.srwq
      let s := s.modGroup gid fun g =>
        let g := { g with
          frags := z.frags.mapIdx fun e (f : Option Frag) => f.bind fun f => fix e f
          recs := z.recs, jaddr := z.jaddr, jmask := z.jmask, jpc := z.jpc, spilled := z.spilled.map SpillNote.abandon, reps := z.reps
          srwq := z.srwq
          trap := { t with frozen := none, tmode := false } }
        let g := (upTo 4).foldl (fun g i => g.setK (28 + i) (t.tks[i]?.getD 0)) g
        late.foldl (fun g w => g.writeSys w.index w.value) g
      let s := s.owe ((upTo 8).map fun e => .event (.blockedWordComplete gid e))
      let s := if z.entry < 8 then arrive s gid z.entry else s
      settle s gid

/-! ### Issuing a word -/

/-- The word being issued: the state, the issuer, its group and its fragment. -/
structure Iss where
  s : State
  is : Issuer
  g : Group
  f : Frag

/-- A word issues for the fragment that `State.who` names. A word that a combiner method may not use faults there (R301). -/
def issue (s : State) (inWave : Bool) (k : Iss → State) : Outcome :=
  match s.who with
  | none => .fault .noIssuer
  | some is =>
    match s.group? is.gid with
    | none => .fault .noIssuer
    | some g =>
      match g.frag is.entry with
      | none => .fault .noIssuer
      | some f =>
        match g.wave with
        | none => .next (k ⟨s, is, g, f⟩)
        | some sl => .next (if inWave then k ⟨s, is, g, f⟩ else waveFault s sl 1)

/-- COUNT of the clause under way (R37). -/
def Frag.count (f : Frag) : Nat := match f.hdr with
  | none => 15
  | some h => bitsOf h.toNat 0 4

/-- UNI of the clause under way (R37, R44). -/
def Frag.uni (f : Frag) : Bool := match f.hdr with
  | none => false
  | some h => bitOf h.toNat 22

/-- The clause that follows (R34). -/
def Frag.nextClause (f : Frag) : DWord := f.clause + BitVec.ofNat 64 (4 * (f.count + 1))

/-- The fragment leaves its clause for word 0 of another: the clause's SRW writes take effect (R32). -/
def Group.toClause (g : Group) (e : Nat) (clause : DWord) : Group :=
  (g.flushSrw e).modFrag e fun f => { f with clause := clause, word := 0, hdr := none }

/-- The clause ends with the word of length `len` (R26, R126). -/
def Group.endsClause (g : Group) (f : Frag) (len : Nat) : Bool :=
  (!g.reps.active || g.reps.remain == 0) && f.count ≤ f.word + len

/-- The group past a word: the next repeat (R126), the next word, or the next clause. -/
def Group.past (g : Group) (e : Nat) (f : Frag) (len : Nat) : Group :=
  if g.reps.active && g.reps.remain != 0 then
    { g with reps := { g.reps with index := g.reps.index + 1, remain := g.reps.remain - 1 } }
  else
    let g := if g.reps.active then { g with reps := Reps.zero } else g
    if f.count ≤ f.word + len then g.toClause e f.nextClause
    else g.modFrag e fun f => { f with word := f.word + len }

/-- A resident fragment that ends a clause is exchanged with the head of the spill queue, after 64 issue opportunities
(R141). -/
def Group.exchangeDue (g : Group) : Bool := !g.spilled.isEmpty && 64 ≤ g.sinceExch

/-- YLD of the clause under way (R37, R40). -/
def Frag.yld (f : Frag) : Bool := match f.hdr with
  | none => false
  | some h => bitOf h.toNat 21

/-- The end of a clause: after one with YLD the fragment's AGE is 0 (R40, R144). A fragment that reaches its reconvergence
clause arrives there (R136); any other may be exchanged next (R141). `g` is the group in the clause. -/
def clauseEnd (s : State) (is : Issuer) (g : Group) : State :=
  let s := if (g.frag is.entry).any Frag.yld then s.modGroup is.gid fun g => g.modFrag is.entry fun f => { f with age := 0 } else s
  match s.group? is.gid with
  | none => s
  | some h =>
    if (h.frag is.entry).any h.reached then arrive s is.gid is.entry
    else if h.exchangeDue then { s with agenda := .event (.fragmentExchange is.gid is.entry) :: s.agenda }
    else s

/-- A combiner method has issued a word more; beyond 4,096 it faults (R301). -/
def spendBudget (s : State) (g : Group) : State :=
  match g.wave with
  | none => s
  | some sl =>
    let s := s.modGroup g.gid fun g => { g with budget := g.budget + 1 }
    if 4096 ≤ g.budget then waveFault s sl 3 else s

/-- The word of length `len` is complete, without the arrival at a reconvergence clause. -/
def passWord (s : State) (is : Issuer) (len : Nat) : State :=
  match s.group? is.gid with
  | none => s
  | some g =>
    match g.frag is.entry with
    | none => s
    | some f => spendBudget (s.modGroup is.gid fun g => g.past is.entry f len) g

/-- The word of length `len` is complete: the fragment goes on with the next word, repeat or clause. -/
def advance (s : State) (is : Issuer) (len : Nat) : State :=
  match s.group? is.gid with
  | none => s
  | some g =>
    match g.frag is.entry with
    | none => s
    | some f =>
      let s := passWord s is len
      if g.endsClause f len then clauseEnd s is g else s

/-- The method of a wave has ended (R300). -/
def waveEnded (s : State) (g : Group) : Bool := g.wave.any fun sl => (s.slice sl).wave.all fun w => w.ended

/-- The fragment goes to word 0 of a clause. -/
def toNext (s : State) (is : Issuer) (clause : DWord) : State :=
  match s.group? is.gid with
  | none => s
  | some g => clauseEnd (s.modGroup is.gid fun g => g.toClause is.entry clause) is g

/-- The fragment goes to word 0 of a clause by a control word (R116, R119). -/
def goTo (s : State) (is : Issuer) (clause : DWord) : State :=
  match s.group? is.gid with
  | none => s
  | some g => toNext (spendBudget s g) is clause

/-- A trap of class 8, 10 or 13, raised by a word that has acted: TPC names the next word (R397). -/
def trapAfter (s : State) (is : Issuer) (len cls : Nat) (d : TrapD) : State := takeTrap (passWord s is len) is cls d

/-- The fragment is BLOCKED on a wait (R41, R142); the k register that its word will write is held (R59). -/
def block (s : State) (is : Issuer) (w : Wait) : State :=
  let s := s.modGroup is.gid fun g =>
    (w.kreg.toList.foldl Group.holdK g).modFrag is.entry fun f => { f with st := .blocked, wait := some w }
  if w == .scoreboard then s else s.owe [.event (.blockedWordComplete is.gid is.entry)]

/-- The wait of a fragment is over; its word is complete. -/
def unblock (s : State) (is : Issuer) (len : Nat) : State :=
  advance (s.modGroup is.gid fun g => g.modFrag is.entry fun f => { f with st := .ready, wait := none }) is len

/-- An illegal-instruction trap with its cause (R399). -/
def illegal (x : Iss) (sub : Nat) : State := takeTrap x.s x.is 2 ⟨sub, 0, 0⟩

/-- The causes of class 2 (R399). -/
def causeEncoding : Nat := 0
def causeWindow : Nat := 1
def causeRepeat : Nat := 2
def causePlace : Nat := 3
def causeTile : Nat := 4
def causeResource : Nat := 5
def causeOperand : Nat := 6
def causeLeader : Nat := 7
def causeMode : Nat := 8

/-- The status codes of R161. -/
def stOk : Nat := 0
def stPartial : Nat := 1
def stCapacity : Nat := 2
def stLink : Nat := 3
def stSuperseded : Nat := 4
def stDuplicate : Nat := 5
def stFault : Nat := 6
def stSpurious : Nat := 7
def stError : Nat := 8

/-! ### Barriers (R148 to R150) -/

/-- A phase completes (R149). -/
def Barrier.flip (b : Barrier) : Barrier := { b with phase := !b.phase, count := 0, pend := 0 }

/-- A barrier after an event (R149). -/
def Barrier.event (b : Barrier) (ev : BEv) : Barrier :=
  match ev with
  | .init m => { b with target := m, count := 0, pend := 0, broken := false }
  | .expect n =>
    if b.broken then b
    else if b.pend + n > 2 ^ 39 - 1 then { b with broken := true } else { b with pend := b.pend + n }
  | .deliver n =>
    if b.broken then b
    else if (b.count == b.target && b.pend - n < 0) || b.pend - n < -(2 ^ 39) then { b with broken := true }
    else if b.count == b.target && b.pend - n == 0 then b.flip
    else { b with pend := b.pend - n }
  | .arrive =>
    if b.broken then b
    else if b.target ≤ b.count then { b with broken := true }
    else if b.count + 1 < b.target then { b with count := b.count + 1 }
    else if b.pend > 0 then { b with count := b.target }
    else if b.pend < 0 then { b with broken := true }
    else b.flip

/-- A barrier at team creation (R148). -/
def Barrier.new (target : Nat) : Barrier := ⟨0, 0, target, false, false⟩

/-- Barrier b of a team. -/
def Team.bar (t : Team) (b : Nat) : Barrier := t.bars[b]?.getD (Barrier.new 1)

/-- The value of a barrier object (R148). -/
def Barrier.num (b : Barrier) : DWord :=
  BitVec.ofNat 64 (wrapTo 40 b.pend + b.count % 1024 * 2 ^ 40 + b.target % 1024 * 2 ^ 50 + b2n b.phase * 2 ^ 60 + b2n b.broken * 2 ^ 61)

/-- The barrier object that a value holds (R410). -/
def Barrier.ofNum (n : Nat) : Barrier := ⟨toSigned 40 n, bitsOf n 40 10, bitsOf n 50 10, bitOf n 60, bitOf n 61⟩

/-- The seen bit of b takes the value of PHASE after a wait that is met (R150). -/
def Group.see (g : Group) (b : BReg) : Group := { g with seen := g.seen ^^^ BitVec.ofNat 32 (2 ^ b.toNat) }

/-- The barrier of a header (R37). -/
def headerBar (h : Word) : BReg := BitVec.ofNat 5 (h.toNat / 2 ^ 15)

/-- The counters that the PWAIT of a header selects are all zero (R38). -/
def Group.pwaitMet (g : Group) (h : Word) : Bool := (upTo 8).all fun p => !bitOf h.toNat (7 + p) || g.path p == 0

/-- A wait of a group when its barrier b breaks or completes a phase that the group has not seen (R149, R150). -/
def Wait.onBar (g : Group) (b : BReg) (broken : Bool) (w : Wait) : Wait :=
  match w with
  | .barw kd c => if c == b then .barOver kd b broken else w
  | .header h =>
    if bitOf h.toNat 20 && headerBar h == b && (broken || g.pwaitMet h) then .headerOver h broken else w
  | _ => w

/-- The waits of a group on barrier b at such an event: all of them are over at once (log 58), and after a completed phase the
seen bit takes PHASE (R150). -/
def Group.barRelease (g : Group) (b : BReg) (broken : Bool) : Group :=
  let g' := { g with
    frags := g.frags.map fun f => f.map fun f => { f with wait := f.wait.map (Wait.onBar g b broken) }
    spilled := g.spilled.map fun n => { n with wait := n.wait.map (Wait.onBar g b broken) } }
  if !broken && g'.waits != g.waits then g'.see b else g'

/-- A group of the team when an event changes barrier b (R149, R150, R421). -/
def Group.barNotify (g : Group) (b : BReg) (old new : Barrier) : Group :=
  if new.broken && !old.broken then g.barRelease b true
  else if new.phase != old.phase then
    (if g.seen.getLsbD b.toNat != new.phase then g.barRelease b false else g).wakeIdle
  else g

/-- The slots of a team's rings that barrier b belongs to, as arrival or as done barrier (R330). -/
def barSlots (s : State) (t : Team) (b : Nat) : List (Nat × Nat) :=
  (((s.pkg? t.rank).map (·.rings)).getD []).flatMap fun r =>
    if r.tid != t.tid then []
    else ((upTo 4).filter fun j => r.arrb + j == b || r.doneb + j == b).map fun j => (r.id, j)

/-- A completed phase of barrier b counts for the slot whose done barrier it is (R332). -/
def Ring.seePhase (r : Ring) (b : Nat) : Ring :=
  if r.doneb ≤ b && b < r.doneb + 4 then { r with doneSeen := r.doneSeen.set (b - r.doneb) true } else r

/-- The ring slots of a team when an event changes barrier b: a slot may return, or its ring break (R332). -/
def ringNotify (s : State) (t : Team) (b : Nat) (old new : Barrier) : State :=
  let s := if new.phase == old.phase then s
    else s.modPkg t.rank fun p => { p with rings := modWhere (fun r => r.tid == t.tid) (fun r => r.seePhase b) p.rings }
  if new.phase == old.phase && new.broken == old.broken then s
  else s.owe ((barSlots s t b).map fun x => .event (.rotSlotReturn x.1 x.2))

/-- An event on a barrier of a resident team: the waits that it ends are over, a completed phase wakes IDLE in the team, and the
slots of its rings see it (R149, R150, R332, R421). -/
def barEvent (s : State) (tid : Nat) (b : BReg) (ev : BEv) : State :=
  match s.team? tid with
  | none => s
  | some t =>
    let old := t.bar b.toNat
    let new := old.event ev
    let s := s.modTeam tid fun t => { t with bars := t.bars.setIfInBounds b.toNat new }
    let s := { s with groups := modWhere (fun g => g.tid == tid) (fun g => g.barNotify b old new) s.groups }
    ringNotify s t b.toNat old new

/-- An engine keeps what an operation makes for its team: the team is out, or it is being switched out and ENGS has left the
operation running (R413). -/
def engineHolds (s : State) (t : Team) (op : Nat) : Bool :=
  t.st == .out || ((t.st == .stopping || t.st == .saving) && (s.op? op).any (·.detached))

/-- Something kept for a team, in order, under the operation that made it (R413). -/
def keepEvent (s : State) (tid op : Nat) (h : HeldEv) : State := s.modTeam tid fun t => { t with held := t.held ++ [(op, h)] }

/-- An event made on a barrier by an engine, for an operation or, with `stopped`, for a ring whose run is stopped: held in order
while the team is out (R413, R469). -/
def engEvent (s : State) (op : Nat) (stopped : Bool) (tid : Nat) (b : BReg) (ev : BEv) : State :=
  match s.team? tid with
  | none => s
  | some t => if engineHolds s t op || stopped then keepEvent s tid op (.bar b ev) else barEvent s tid b ev

/-- An engine's delivery of bytes, or its arrival. -/
def barEngine (s : State) (op tid : Nat) (b : BReg) (n : Option Nat) : State :=
  engEvent s op false tid b (match n with
    | some n => .deliver n
    | none => .arrive)

/-- What a wait on a barrier finds (R150). -/
inductive BWait where
  | met | unmet | broken
  deriving DecidableEq, Repr

/-- The wait of a group on barrier b (R150). -/
def barWait (t : Team) (g : Group) (b : BReg) : BWait :=
  let o := t.bar b.toNat
  if o.broken then .broken else if o.phase != g.seen.getLsbD b.toNat then .met else .unmet

/-- TINFO of a barrier overrun (R404). -/
def barD (b : BReg) : TrapD := ⟨0, tinfoOf 0 0 b.toNat 0 0, 0⟩

end Sys2Proof.Machine
end

