-- ==== Sys2Proof/Machine/Operands.lean ====
section
/-! DEFINITION. The operand forms: execution masks (R44, R48), thread words over v registers and predicates (R93), uniform
words over k and q registers (R50, R131), and the addresses of the M format (R51, R233). -/

namespace Sys2Proof.Machine

/-- The execution mask of a guarded word (R48); under UNI the lowest active slot's predicate decides for all (R44). -/
def Iss.guarded (x : Iss) (g : Guard) : Mask :=
  if x.f.uni then (if (x.g.thread (lowest x.f.mask)).pr g.p != g.neg then x.f.mask else 0)
  else maskOf fun s => x.f.mask.getLsbD s && (x.g.thread s).pr g.p != g.neg

/-- The slots whose operands a word reads: under UNI the lowest active slot alone (R44). -/
def Iss.sources (x : Iss) (m : Mask) : Mask := if x.f.uni then slotBit (lowest x.f.mask) else m

/-- The slot whose result a slot takes (R44). -/
def Iss.from (x : Iss) (slot : Nat) : Nat := if x.f.uni then lowest x.f.mask else slot

/-- What a thread word computes for one slot. -/
structure TRes where
  /-- v registers written, in order -/
  v : List (Nat × Word)
  /-- the predicate written -/
  p : Option (PReg × Bool)
  /-- the next random state (R115) -/
  rng : Option (DWord × DWord)
  conds : Conds

/-- One v register written. -/
def TRes.val (d : VReg) (w : Word) : TRes := ⟨[(d.toNat, w)], none, none, Conds.none⟩
/-- One v register written, with the conditions raised (R96). -/
def TRes.valC (d : VReg) (r : Nat × Conds) : TRes := ⟨[(d.toNat, BitVec.ofNat 32 r.1)], none, none, r.2⟩
/-- A pair of v registers written (R12). -/
def TRes.val64 (d : VReg) (x : DWord) : TRes := ⟨[(d.toNat, loOf x), (d.toNat + 1, hiOf x)], none, none, Conds.none⟩
/-- One predicate written. -/
def TRes.pred (p : PReg) (b : Bool) : TRes := ⟨[], some (p, b), none, Conds.none⟩

/-- The registers and the predicate of a slot after its result. -/
def TRes.apply (r : TRes) (t : Thread) : Thread :=
  let t := r.v.foldl (fun t x => t.setV x.1 x.2) t
  match r.p with
  | none => t
  | some (p, b) => t.setP p b

/-- The random state of a slot after its result (R29). -/
def TRes.applyRng (r : TRes) (t : Thread) : Thread :=
  match r.rng with
  | none => t
  | some (a, b) => { t with s0 := a, s1 := b }

/-- The slots of `src` with a poisoned operand among these registers (R416). -/
def Iss.poisoned (x : Iss) (src : Mask) (regs : List Nat) : Mask :=
  maskOf fun s => src.getLsbD s && regs.any fun n => (x.g.thread s).poisoned n

/-- The trap of a poisoned register operand (R416). -/
def poisonD (slots : Mask) : TrapD := ⟨0, tinfoOf slots 0 0 0 0, 0⟩

/-- The trap of enabled arithmetic conditions (R96, R404). -/
def arithD (slots : Mask) (conds : BitVec 5) : TrapD := ⟨0, tinfoOf slots conds.toNat 0 0 0, 0⟩

/-- A thread word: each slot of the execution mask takes its result (R93), under UNI that of the lowest active slot (R44).
A pending operand stalls the word (R58), a poisoned one raises class 6 (R416), and enabled conditions raise class 10 after
the word (R96). `reads` and `writes` are the v registers that the word names; `f` gives a slot's result from the mask of the
slots read, the slot and its registers. -/
def threadWord (x : Iss) (gd : Guard) (len : Nat) (reads writes : List Nat) (f : Mask → Nat → Thread → TRes) : State :=
  let m := x.guarded gd
  if m == 0 then advance x.s x.is len
  else
    let src := x.sources m
    if x.g.vsBusy src reads || x.g.vsBusy m writes then block x.s x.is .scoreboard
    else
      let bad := x.poisoned src reads
      if bad != 0 then takeTrap x.s x.is 6 (poisonD bad)
      else
        let res (slot : Nat) : TRes := f src (x.from slot) (x.g.thread (x.from slot))
        let s := (dropLatches x.s x.g writes).modGroup x.is.gid fun g =>
          g.modThreads (fun i => m.getLsbD i) fun i t =>
            let t := (res i).apply t
            if src.getLsbD i then (res i).applyRng t else t
        let on (slot : Nat) : BitVec 5 := (res slot).conds.enabled x.g.arithen
        let hit := maskOf fun i => src.getLsbD i && on i != 0
        if hit != 0 then
          trapAfter s x.is len 10 (arithD hit ((maskSlots hit).foldl (fun c i => c ||| on i) 0))
        else advance s x.is len

/-- The uniform guard holds (R50). -/
def Iss.uok (x : Iss) (g : UGuard) : Bool :=
  match g with
  | none => true
  | some (neg, q) => x.g.qr q != neg

/-- A uniform word: it executes once for the fragment when its guard holds (R50, R131) and its k registers are free (R58).
`f` gives the group after it. -/
def uniWord (x : Iss) (gd : UGuard) (len : Nat) (regs : List Nat) (f : Group → Group) : State :=
  if !x.uok gd then advance x.s x.is len
  else if x.g.ksBusy regs then block x.s x.is .scoreboard
  else advance (x.s.modGroup x.is.gid f) x.is len

/-- A uniform word whose effect is on more than its group: `f` gives the whole outcome of the word. -/
def uniIssue (x : Iss) (gd : UGuard) (len : Nat) (regs : List Nat) (f : State) : State :=
  if !x.uok gd then advance x.s x.is len
  else if x.g.ksBusy regs then block x.s x.is .scoreboard
  else f

/-- The address of a slot (R51): w is the access width. -/
def MAddr.addr (m : MAddr) (g : Group) (w slot : Nat) : DWord :=
  g.kr m.kbase.toNat +
    (if m.xi then zext64 ((g.thread slot).v m.off.toNat) else BitVec.ofNat 64 (m.off.toNat * w))

/-- The guard of an M-format word, without negation (R51). -/
def MAddr.guard (m : MAddr) : Guard := ⟨false, m.gp⟩

/-- The v registers that an M-format address reads (R51). -/
def MAddr.reads (m : MAddr) : List Nat := if m.xi then [m.off.toNat] else []

/-- A path 6 word that precedes this fragment's next word has not been answered: as an acquire it comes before every later
access of the fragment (R267, R272). -/
def Iss.acquiring (x : Iss) : Bool := x.g.flights.any fun f => !f.done && f.path == 6 && (f.fmask &&& x.f.mask) != 0

/-- A PUT, GET or path 6 word of the group has not been performed (R176). -/
def Group.releasing (g : Group) : Bool := g.flights.any fun f => !f.done && (f.path == 5 || f.path == 6)

/-- A PUT, GET or path 6 word that precedes this fragment's next word has not been performed: a release comes after it
(R267). Loads and stores on paths 0 to 2 are performed at issue. -/
def Iss.releasing (x : Iss) : Bool :=
  x.g.flights.any fun f => !f.done && (f.path == 5 || f.path == 6) && (f.fmask &&& x.f.mask) != 0

/-- A fragment of the group, resident or in the spill queue, waits in a word that satisfies `p`. -/
def Group.anyWait (g : Group) (p : Wait → Bool) : Bool :=
  (g.resident.any fun x => x.2.wait.any p) || g.spilled.any fun n => n.wait.any p

/-- A PFENCE of the group holds every later word that may make a persist (R281, R386). -/
def Wait.pfences : Wait → Bool
  | .pfence _ _ _ => true
  | _ => false

/-- A fence holds the group's later memory words (R252, R253). -/
def Wait.fences : Wait → Bool
  | .fence k _ => k != .rel
  | .afence _ => true
  | w => w.pfences

/-- A fence of the group holds its later memory words (R252, R253, R281). -/
def Group.fenced (g : Group) : Bool := g.anyWait Wait.fences

/-- Registers n, n + 1, and so on. -/
def regsFrom (n k : Nat) : List Nat := (upTo k).map fun i => n + i

end Sys2Proof.Machine
end

