-- ==== Sys2Proof/Machine/Rep.lean ====
section
/-! DEFINITION. REP and its repeats: the fields that may be stepped, and how far (R124, R125). -/

namespace Sys2Proof.Machine

/-- A field that REP may step: its place in the word, its step, its value, how many registers the operand takes, and the
size of its register file (R124, R125). -/
structure StepField where
  lo : Nat
  step : Nat
  val : Nat
  width : Nat
  size : Nat

/-- A v register field of the T and I formats. -/
def vField (lo : Nat) (r : VReg) (width : Nat) : Option StepField := some ⟨lo, 1, r.toNat, width, 64⟩
/-- A k register field. -/
def kField (lo : Nat) (r : KReg) : Option StepField := some ⟨lo, 1, r.toNat, 1, 32⟩
/-- A t or z register field. -/
def xField (lo : Nat) (r : XReg) : Option StepField := some ⟨lo, 1, r.toNat, 1, 16⟩

/-- The fields d, a and b that a step bit may name (R124, R125); none for a field that is unused, is no register name, or
names a 64-bit operand of the T and I formats. -/
abbrev StepFields := Option StepField × Option StepField × Option StepField

/-- d, a and b of the T format, single registers. -/
def tStep (d a b : VReg) : StepFields := (vField 18 d 1, vField 12 a 1, vField 6 b 1)
/-- d and a of the T and I formats. -/
def daStep (d a : VReg) : StepFields := (vField 18 d 1, vField 12 a 1, none)
/-- DATA of `n` registers and VIDX of the M format (R124). -/
def mStep (n step : Nat) (d : VReg) (m : MAddr) : StepFields :=
  (if step == 0 then none else some ⟨18, step, d.toNat, n, 64⟩, none, if m.xi then vField 6 m.off 1 else none)
/-- Z, VA and TB of the X.m format (R124). -/
def xmStep (k : Nat) (z tb : XReg) (va : VReg) : StepFields := (xField 20 z, some ⟨10, k, va.toNat, k, 64⟩, xField 16 tb)

/-- The fields of an instruction that REP may step (R124, R125, R234). -/
def stepFields : Instr → StepFields
  | .iadd _ d a b _ => tStep d a b
  | .isub _ d a b _ => tStep d a b
  | .imul _ d a b _ => tStep d a b
  | .imad _ d a b _ => tStep d a b
  | .iminmax _ d a b _ => tStep d a b
  | .iabs _ d a _ => daStep d a
  | .logic _ d a b _ => tStep d a b
  | .bitop _ d a _ => daStep d a
  | .shift _ d a b _ => tStep d a b
  | .bfe _ d a b _ => tStep d a b
  | .bfi d a b _ => tStep d a b
  | .icmp k _ _ a b _ =>
    if k == .i32 || k == .n32 then (none, vField 12 a 1, vField 6 b 1) else (none, none, none)
  | .sel d a b _ => tStep d a b
  | .add64 k _ _ b _ => (none, none, if k == .addSx then vField 6 b 1 else none)
  | .lea _ _ _ b _ => (none, none, vField 6 b 1)
  | .iaddi d a _ => daStep d a
  | .imuli d a _ => daStep d a
  | .andi d a _ => daStep d a
  | .ori d a _ => daStep d a
  | .xori d a _ => daStep d a
  | .shli d a _ => daStep d a
  | .shri d a _ => daStep d a
  | .sari d a _ => daStep d a
  | .icmpiI32 _ _ a _ => (none, vField 12 a 1, none)
  | .icmpiN32 _ _ a _ => (none, vField 12 a 1, none)
  | .movi d _ => (vField 18 d 1, none, none)
  | .movl d _ => (vField 18 d 1, none, none)
  | .fadd _ d a b _ => tStep d a b
  | .fsub _ d a b _ => tStep d a b
  | .fmul _ d a b _ => tStep d a b
  | .ffma _ d a b _ => tStep d a b
  | .fminmax _ d a b _ => tStep d a b
  | .fcmp _ _ _ a b _ => (none, vField 12 a 1, vField 6 b 1)
  | .fsign op d a b _ => if op == .copysign then tStep d a b else daStep d a
  | .padd2 _ d a b _ => tStep d a b
  | .pmul2 _ d a b _ => tStep d a b
  | .pfma2 _ d a b _ => tStep d a b
  | .pminmax2 _ _ d a b _ => tStep d a b
  | .hadd _ d a b _ => tStep d a b
  | .hmul _ d a b _ => tStep d a b
  | .hfma _ d a b _ => tStep d a b
  | .cvt _ _ _ d a _ => daStep d a
  | .pack f d a b _ => (vField 18 d (if f == .l6 then 3 else 1), vField 12 a 1, vField 6 b 1)
  | .unpk f _ d a _ => (vField 18 d 1, vField 12 a (if f == .l6 then 3 else 1), none)
  | .frnd _ d a _ => daStep d a
  | .fspec _ _ _ d a _ => daStep d a
  | .rand _ d _ => (vField 18 d 1, none, none)
  | .pmovV d _ _ => (vField 18 d 1, none, none)
  | .pmovP _ a _ => (none, vField 12 a 1, none)
  | .shfl _ d a b _ => tStep d a b
  | .ballot d _ _ => (vField 18 d 1, none, none)
  | .redt _ d a _ => daStep d a
  | .scan _ d a _ => daStep d a
  | .bcast kd a w64 _ _ => (kField 18 kd, if w64 then none else vField 12 a 1, none)
  | .fragq _ d _ => (vField 18 d 1, none, none)
  | .ualu op d a b _ => (kField 19 d, kField 14 a, if op == .umov then none else kField 9 b)
  | .ucmp _ _ a b _ => (none, kField 14 a, kField 9 b)
  | .umovl _ d _ _ => (kField 19 d, none, none)
  | .uaddl d a _ _ => (kField 19 d, kField 14 a, none)
  | .barinit _ kb _ => (none, none, kField 9 kb)
  | .barx _ _ kb _ => (none, none, kField 9 kb)
  | .barw kd _ _ => (kd.bind fun k => kField 19 k, none, none)
  | .bart op d _ _ => (if op == .word then kField 19 d else none, none, none)
  | .launch kd ka _ => (kField 19 kd, kField 14 ka, none)
  | .cwait kd ka _ => (kField 19 kd, ka.bind fun k => kField 14 k, none)
  | .acq _ kd ka _ => (kField 19 kd, kField 14 ka, none)
  | .rel _ ka _ => (none, kField 14 ka, none)
  | .tset t ka kb _ => (some ⟨19, 1, t.toNat, 1, 16⟩, kField 14 ka, kField 9 kb)
  | .tget kd t _ _ => (kField 19 kd, some ⟨14, 1, t.toNat, 1, 16⟩, none)
  | .mmaE4m3 z tb va _ _ => xmStep 16 z tb va
  | .mmaE5m2 z tb va _ _ => xmStep 16 z tb va
  | .mmaL6 z tb va _ _ => xmStep 12 z tb va
  | .mmaI8 z tb va _ => xmStep 16 z tb va
  | .mmaBf16 z tb va _ => xmStep 16 z tb va
  | .mmaF16 z tb va _ => xmStep 16 z tb va
  | .mzero z _ => (xField 20 z, none, none)
  | .mld z ta _ => (xField 20 z, xField 16 ta, none)
  | .mst ta z _ => (xField 20 z, xField 16 ta, none)
  | .mdrain _ ta z _ _ _ => (xField 20 z, xField 16 ta, none)
  | .ldlB32 d m => mStep 1 1 d m
  | .ldlB64 d m => mStep 2 2 d m
  | .stlB32 d m => mStep 1 1 d m
  | .stlB64 d m => mStep 2 2 d m
  | .ldsB32 d m => mStep 1 1 d m
  | .ldsB64 d m => mStep 2 2 d m
  | .ldsB128 d m => mStep 4 4 d m
  | .stsB32 d m => mStep 1 1 d m
  | .stsB64 d m => mStep 2 2 d m
  | .stsB128 d m => mStep 4 4 d m
  | .ldxB32 d m => mStep 1 1 d m
  | .ldxB64 d m => mStep 2 2 d m
  | .ldxB128 d m => mStep 4 4 d m
  | .stxB32 d m => mStep 1 1 d m
  | .stxB64 d m => mStep 2 2 d m
  | .stxB128 d m => mStep 4 4 d m
  | .cpy _ td ta _ _ => (xField 20 td, xField 16 ta, none)
  | .put d m => mStep 1 1 d m
  | .get d m => mStep 1 1 d m
  | .waitp _ ka _ => (none, kField 14 ka, none)
  | .hflush _ ka kb _ => (none, kField 14 ka, kField 9 kb)
  | .methreg ka _ _ => (none, kField 14 ka, none)
  | .atomAddI32 d m => mStep 1 1 d m
  | .atomAddF32 d m => mStep 1 1 d m
  | .atomMinI32 d m => mStep 1 1 d m
  | .atomMaxI32 d m => mStep 1 1 d m
  | .atomMinN32 d m => mStep 1 1 d m
  | .atomMaxN32 d m => mStep 1 1 d m
  | .atomAnd d m => mStep 1 1 d m
  | .atomOr d m => mStep 1 1 d m
  | .atomXor d m => mStep 1 1 d m
  | .atomXchg d m => mStep 1 1 d m
  | .cas d m => mStep 2 0 d m
  | .casgt d m => mStep 1 1 d m
  | .casv d m => mStep 2 0 d m
  | .caspt d m => mStep 4 0 d m
  | .waitc d m _ => mStep 2 0 d m
  | .comb d m _ => mStep 4 0 d m
  | .coll _ td ta _ _ => (xField 20 td, xField 16 ta, none)
  | .rotOpen td _ _ => (xField 20 td, none, none)
  | .rotRun ta _ _ => (none, xField 16 ta, none)
  | .xchg td ta _ _ => (xField 20 td, xField 16 ta, none)
  | .rsto ta _ _ => (none, xField 16 ta, none)
  | .upd _ _ _ td ta _ _ => (xField 20 td, xField 16 ta, none)
  | .pairst td ta _ _ => (xField 20 td, xField 16 ta, none)
  | .place _ ta _ _ => (none, xField 16 ta, none)
  | _ => (none, none, none)

/-- A step bit is allowed for this field over n repeats (R125). -/
def StepField.ok (f : Option StepField) (bit : Bool) (n : Nat) : Bool :=
  !bit || match f with
    | none => false
    | some f => f.val + f.step * (n - 1) + f.width ≤ f.size

/-- The checks of R125 on the word that REP repeats n times. -/
def repOk (i : Instr) (n : Nat) (sd sa sb : Bool) : Bool :=
  let f := stepFields i
  StepField.ok f.1 sd n && StepField.ok f.2.1 sa n && StepField.ok f.2.2 sb n

/-- What repeat j adds to the word for one field (R124). -/
def StepField.add (f : Option StepField) (bit : Bool) (j : Nat) : Nat :=
  match f with
  | none => 0
  | some f => if bit then f.step * j * 2 ^ f.lo else 0

/-- The word of repeat j, its stepped fields advanced by j steps (R124). -/
def stepWord (i : Instr) (w j : Nat) (sd sa sb : Bool) : Nat :=
  let f := stepFields i
  w + StepField.add f.1 sd j + StepField.add f.2.1 sa j + StepField.add f.2.2 sb j

/-- A word of code, fetched by a group (R34, R226). A fetch from a package without supply waits (log 51). -/
def fetchWord (s : State) (g : Group) (va : Nat) : State × GOut Word :=
  match gRead s g.rank g.core.die g.ctx va 4 .fetch with
  | (s, .fault a f) => (s, .fault a f)
  | (s, .wait) => (s, .wait)
  | (s, .ok bs) => (s, .ok (BitVec.ofNat 32 (ofBytesLE (bs.map (·.1)))))

/-- Virtual address of word i of a clause (R34). -/
def wordVa (clause : DWord) (i : Nat) : Nat := (clause + BitVec.ofNat 64 (4 * (i + 1))).toNat

/-- The word at a fragment's PC and, for an L form, its literal; `lit` is the literal when it has been read before. -/
def fetchInstr (s : State) (g : Group) (clause : DWord) (word : Nat) (lit : Option Word) : State × GOut (Word × Word) :=
  match fetchWord s g (wordVa clause word) with
  | (s, .fault a f) => (s, .fault a f)
  | (s, .wait) => (s, .wait)
  | (s, .ok w) =>
    match longOp (w.toNat / 2 ^ 24), lit with
    | false, _ => (s, .ok (w, 0))
    | true, some l => (s, .ok (w, l))
    | true, none =>
      match fetchWord s g (wordVa clause (word + 1)) with
      | (s, .fault a f) => (s, .fault a f)
      | (s, .wait) => (s, .wait)
      | (s, .ok l) => (s, .ok (w, l))

/-- A fault met by a code fetch: class 5, or the fault FETCH of a combiner method (R226, R301). -/
def fetchTrap (s : State) (is : Issuer) (g : Group) (f : VFault) : State :=
  match g.wave with
  | some sl => waveFault s sl 5
  | none => takeTrap s is 5 (faultD f 0)

/-- An opcode that a combiner method may use (R301). -/
def waveOp (op : Nat) : Bool :=
  assigned op && ((op < 0x40 && op != 0x35) || (0x50 ≤ op && op ≤ 0x54) || (0x58 ≤ op && op ≤ 0x5E) || (0x84 ≤ op && op ≤ 0x89) ||
    op == 0x40 || op == 0x45)

/-- A word without a meaning as an instruction: class 2, cause ENCODING (R46, R66). In a combiner method it is the fault TRAP
when the method may use its opcode, and OPCODE when not (R301). -/
def undecoded (s : State) (is : Issuer) (g : Group) (w : Word) : State :=
  match g.wave with
  | some sl => waveFault s sl (if waveOp (w.toNat / 2 ^ 24) then 4 else 1)
  | none => takeTrap s is 2 ⟨causeEncoding, 0, 0⟩

/-- REP (R56, R57, R125, R126): the next word is checked, and its repeats are set up. The checks of R57 come before those of
R125; an operand that the word itself could not name is met when a repeat issues (R66). -/
def execRep (n : BitVec 6) (sd sa sb : Bool) (s : State) : Outcome :=
  issue s true fun x =>
    match fetchInstr x.s x.g x.f.clause (x.f.word + 1) none with
    | (s, .fault a f) => fetchTrap s x.is x.g (a, f)
    | (_, .wait) => x.s
    | (s, .ok (w, l)) =>
      match decodeRep w.toNat l.toNat with
      | none => undecoded s x.is x.g w
      | some i =>
        if !repOk i (n.toNat + 1) sd sa sb then takeTrap s x.is 2 ⟨causeRepeat, 0, 0⟩
        else
          (advance s x.is 1).modGroup x.is.gid fun g =>
            { g with reps := { remain := n.toNat, index := 0, stepb := sb, stepa := sa, stepd := sd, active := true
                               entry := x.is.entry, lit := some l } }

end Sys2Proof.Machine
end

