-- ==== Sys2Proof/Machine/Wcb.lean ====
section
/-! DEFINITION. The PUT write-combining buffer (R217 to R219). -/

namespace Sys2Proof.Machine

/-- A line of the buffer drains, as one transfer of its bytes (R218, R219): at home at once, to a peer by the fabric. -/
def drainLine (s : State) (core : CoreId) (l : WLine) : State :=
  let s := s.modCore core fun c => { c with wcb := c.wcb.filter fun x => x.id != l.id }
  let x : Xfer := { id := l.id, src := core.rank, dest := l.dest, ctx := l.ctx, va := l.va, bytes := l.bytes, last := l.last, applied := false }
  let s := { s with fab := { s.fab with xfers := s.fab.xfers ++ [x] } }
  if l.dest == core.rank then s.owe [.subject .putLineApply l.id] else sendPacket s core.rank l.dest (.xfer l.id)

/-- The lines of a core's buffer that satisfy `p` drain, the oldest first. -/
def drainLines (s : State) (core : CoreId) (p : WLine → Bool) : State :=
  ((s.core core).wcb.filter p).foldl (fun s l => drainLine s core l) s

/-- Every line that holds a byte of the group drains (R218). -/
def drainGroup (s : State) (g : Group) : State := drainLines s g.core fun l => (l.last.get g.gid).isSome

end Sys2Proof.Machine
end

