-- ==== Sys2Proof/Machine/Control.lean ====
section
/-! DEFINITION. Clauses and control: the entry of a clause (R34 to R46), branches and splits (R116, R117, R135), calls and
returns with the window's spills and refills (R16 to R24, R119 to R121), EXIT (R122) and JOIN (R118, R138). -/

namespace Sys2Proof.Machine

/-! ### The checks of a clause (R42 to R45) -/

/-- The instruction words of a clause body: index and opcode; literals are passed over (R46). -/
def clauseOps : Nat → Nat → List Word → List (Nat × Nat)
  | 0, _, _ => []
  | _, _, [] => []
  | fuel + 1, i, w :: r =>
    let op := w.toNat / 2 ^ 24
    (i, op) :: (if longOp op then clauseOps fuel (i + 2) (r.drop 1) else clauseOps fuel (i + 1) r)

/-- The instruction classes that a clause class allows (R42). -/
def classAllows (cls : Nat) (c : IClass) : Bool :=
  match cls with
  | 0 => c == .thread
  | 1 => c == .uniform
  | 2 => c == .memory || c == .thread
  | 3 => c == .matrix || c == .uniform
  | 4 => c == .async || c == .uniform
  | 5 => c != .system
  | 6 => c == .system || c == .thread || c == .uniform
  | _ => c != .system && c != .control

/-- The sub-cause of the first check that a clause fails, 0 when it is legal (R45, R399). -/
def clauseFault (h : Word) (body : List Word) : Nat :=
  let n := h.toNat
  let cls := bitsOf n 4 3
  let ops := clauseOps 16 0 body
  let cops := ops.filter fun x => assigned x.2
  let last := ops.getLastD (0, 0)
  let control (op : Nat) : Bool := assigned op && opClass op == .control
  if bitsOf n 0 4 == 0 then 1
  else if bitsOf n 23 9 != 0 then 2
  else if !bitOf n 20 && bitsOf n 15 5 != 0 then 3
  else if bitOf n 22 && (cls == 3 || cls == 4 || cls == 6) then 4
  else if cops.any fun x => opClass x.2 != .rep && !classAllows cls (opClass x.2) then 5
  else if (cls == 5 && !control last.2) || (cops.any fun x => control x.2 && x != last) ||
      (cops.any fun x => (x.2 == 0xC3 || x.2 == 0xC8) && x != last) then 6
  else if (longOp last.2 || last.2 == 0x39) && last.1 + 1 == body.length then 7
  else if (ops.zip (ops.drop 1)).any fun x => x.1.2 == 0x39 && assigned x.2.2 &&
      (opClass x.2.2 == .control || opClass x.2.2 == .rep || opClass x.2.2 == .system || x.2.2 == 0x1D || x.2.2 == 0x38) then 8
  else 0

/-- The words of a clause body, fetched in order. -/
def fetchBody (s : State) (g : Group) (clause : DWord) : Nat → State × GOut (List Word)
  | 0 => (s, .ok [])
  | n + 1 =>
    match fetchBody s g clause n with
    | (s, .fault a f) => (s, .fault a f)
    | (s, .wait) => (s, .wait)
    | (s, .ok ws) =>
      match fetchWord s g (wordVa clause n) with
      | (s, .fault a f) => (s, .fault a f)
      | (s, .wait) => (s, .wait)
      | (s, .ok w) => (s, .ok (ws ++ [w]))

/-- What the waits of a header find: the counters of PWAIT and the barrier of BWAIT, together (R38). -/
def headerWait (s : State) (g : Group) (h : Word) : BWait :=
  let pw := g.pwaitMet h
  if bitOf h.toNat 20 then
    match s.team? g.tid with
    | none => .unmet
    | some t =>
      match barWait t g (BitVec.ofNat 5 (h.toNat / 2 ^ 15)) with
      | .broken => .broken
      | .met => if pw then .met else .unmet
      | .unmet => .unmet
  else if pw then .met else .unmet

/-- The fragment is in its clause (R38, R39). -/
def inClause (s : State) (is : Issuer) (h : Word) : State :=
  s.modGroup is.gid fun g => g.modFrag is.entry fun f => { f with hdr := some h, st := .ready, wait := none }

/-- The header waits evaluated: the clause is entered, the fragment blocks, or a broken barrier traps (R38, R39). -/
def enterClause (s : State) (is : Issuer) (g : Group) (h : Word) : State :=
  match headerWait s g h with
  | .broken => takeTrap s is 8 (barD (headerBar h))
  | .unmet => block s is (.header h)
  | .met => inClause (s.modGroup is.gid fun g => if bitOf h.toNat 20 then g.see (headerBar h) else g) is h

/-- A header wait that ended with an event of its barrier, which has set the seen bit (R38, R150). -/
def headerOver (s : State) (is : Issuer) (h : Word) (broken : Bool) : State :=
  if broken then takeTrap s is 8 (barD (headerBar h)) else inClause s is h

/-- CLAUSE_START (R38, R45): a fragment at word 0 decodes its clause and evaluates the header's waits. A PWAIT on path 5
drains the group's write-combining lines (R218). The whole body is fetched before any check: a fault of that fetch comes before
the causes that the header alone shows (log 60). -/
def execClauseStart (s : State) : Outcome :=
  issue s true fun x =>
    match fetchWord x.s x.g x.f.clause.toNat with
    | (s, .fault a f) => fetchTrap s x.is x.g (a, f)
    | (_, .wait) => x.s
    | (s, .ok h) =>
      match fetchBody s x.g x.f.clause (bitsOf h.toNat 0 4) with
      | (s, .fault a f) => fetchTrap s x.is x.g (a, f)
      | (_, .wait) => x.s
      | (s, .ok body) =>
        let c := clauseFault h body
        if c != 0 then takeTrap s x.is 1 ⟨c, 0, 0⟩
        else
          match x.g.wave with
          | some sl => if bitOf h.toNat 20 then waveFault s sl 1 else enterClause s x.is x.g h
          | none =>
            let s := if bitOf h.toNat 12 then drainGroup s x.g else s
            enterClause s x.is x.g h

/-! ### Splits (R135) -/

/-- A fragment splits: `taken` keeps its entry and goes to `target`, the other slots take an entry at `other`, and both
record `rcv` (R135). A fault on a victim's write raises class 5 on the word, with no effect (R140). -/
def splitFrag (s : State) (is : Issuer) (f : Frag) (taken : Mask) (target other rcv : DWord) (depth : Nat)
    (commit : Group → Group) : State :=
  match takeEntry s is.gid [is.entry] with
  | (s, .error x) => takeTrap s is 5 (faultD x 0)
  | (s, .ok e) =>
    let s := s.modGroup is.gid fun g =>
      let i := g.freeRec.getD 0
      let r : RRec := { rcv := rcv, omask := f.mask, arrived := 0, cdepth := depth, parent := f.recx }
      let g := (commit g).flushSrw is.entry
      ((g.setRec i (some r)).setFrag is.entry (some (Frag.at taken target i))).setFrag e
        (some (Frag.at (f.mask &&& ~~~taken) other i))
    match s.group? is.gid with
    | none => s
    | some g => arrive (clauseEnd (spendBudget s g) is g) is.gid e

/-- A displacement in words from the clause header (R63, R116). -/
def Frag.target (f : Frag) (disp : Int) : DWord := f.clause + BitVec.ofInt 64 (4 * disp)

/-- CDEPTH of the issuing threads (R135). -/
def Iss.depth (x : Iss) : Nat := (x.g.thread (lowest x.f.mask)).cdepth

/-- BR (R116, R117). -/
def execBr (rcv : BitVec 18) (g : Guard) (m : BrMode) (disp : Word) (s : State) : Outcome :=
  issue s true fun x =>
    let e := x.guarded g
    let n := x.f.mask &&& ~~~e
    let target := x.f.target disp.toInt
    let next := x.f.nextClause
    match m with
    | .any => goTo x.s x.is (if e != 0 then target else next)
    | .all => goTo x.s x.is (if n == 0 then target else next)
    | .thread =>
      if e == 0 then goTo x.s x.is next
      else if n == 0 then goTo x.s x.is target
      else splitFrag x.s x.is x.f e target next (x.f.target rcv.toInt) x.depth id

/-! ### Windows (R16 to R24) -/

/-- A link entry (R19). -/
def linkOf (ret : DWord) (frame : Nat) : DWord := BitVec.ofNat 64 (bitsOf ret.toNat 0 57 + frame % 128 * 2 ^ 57)

/-- A CALL is refused by the window (R18). -/
def Thread.callBad (t : Thread) : Bool := t.cdepth == 8191 || Config.wmax < t.wbase + t.frame + 64

/-- The lowest resident depth after a CALL (R18). -/
def Thread.callRbase (t : Thread) : Nat :=
  if 128 < t.wbase + t.frame + 64 - t.rbase then t.wbase + t.frame - 64 else t.rbase

/-- The depths from a to b − 1. -/
def depths (a b : Nat) : List Nat := (upTo (b - a)).map fun i => a + i

/-- Registers of a slot spilled at their depths (R20). -/
def spillRegs (s : State) (g : Group) (slot : Nat) (t : Thread) : List Nat → State × Except VFault Unit
  | [] => (s, .ok ())
  | d :: r =>
    match spillWrite s g (64 * d + 4 * slot) ((wordBytes (t.dget d)).map fun b => (b, t.bad.contains (posOf d))) with
    | (s, .error f) => (s, .error f)
    | (s, .ok ()) => spillRegs s g slot t r

/-- Registers of a slot refilled at their depths (R20). -/
def refillRegs (s : State) (g : Group) (slot : Nat) (t : Thread) : List Nat → State × Except VFault Thread
  | [] => (s, .ok t)
  | d :: r =>
    match spillRead s g (64 * d + 4 * slot) 4 with
    | (s, .error f) => (s, .error f)
    | (s, .ok bs) => refillRegs s g slot (t.dsetP d (BitVec.ofNat 32 (ofBytesLE (bs.map (·.1)))) (bs.any (·.2))) r

/-- The spill-stack offset of the link entry of call c (R20). -/
def linkOff (c slot : Nat) : Int := -128 * ((c : Int) + 1) + 8 * slot

/-- A slot's CALL: its spills, and its window after them (R18 to R21). -/
def callThread (s : State) (g : Group) (slot : Nat) (ret : DWord) : State × Except VFault Thread :=
  let t := g.thread slot
  let link : State × Except VFault (List DWord) :=
    if t.links.length < 8 then (s, .ok t.links)
    else
      match spillWrite s g (linkOff (t.cdepth - t.links.length) slot) (sound (bytesLE 8 (t.links.headD 0).toNat)) with
      | (s, .error f) => (s, .error f)
      | (s, .ok ()) => (s, .ok (t.links.drop 1))
  match link with
  | (s, .error f) => (s, .error f)
  | (s, .ok ls) =>
    match spillRegs s g slot t (depths t.rbase t.callRbase) with
    | (s, .error f) => (s, .error f)
    | (s, .ok ()) =>
      (s, .ok { t with links := ls ++ [linkOf ret t.frame], rbase := t.callRbase, wbase := t.wbase + t.frame, frame := 64
                       cdepth := t.cdepth + 1 })

/-- The slots of a list taken through `f`, in order: the windows that each gives, and the faults met (R21). -/
def eachSlot {α : Type} (f : State → Nat → State × Except VFault α) : State → List Nat → State × List (Nat × α) × List (Nat × VFault)
  | s, [] => (s, [], [])
  | s, slot :: r =>
    match f s slot with
    | (s, .error x) =>
      let (s, ok, bad) := eachSlot f s r
      (s, ok, (slot, x) :: bad)
    | (s, .ok a) =>
      let (s, ok, bad) := eachSlot f s r
      (s, (slot, a) :: ok, bad)

/-- A translation fault of some slots: the frame names the lowest (R236, R404). -/
def slotFaults (bad : List (Nat × VFault)) : TrapD :=
  match bad with
  | [] => ⟨0, 0, 0⟩
  | (_, f) :: _ => faultD f (maskOf fun s => bad.any fun x => x.1 == s)

/-- The windows of these slots committed (R21). -/
def commitThreads (ts : List (Nat × Thread)) (g : Group) : Group :=
  g.modThreads (fun i => ts.any fun x => x.1 == i) fun i t => ((ts.find? fun x => x.1 == i).map (·.2)).getD t

/-- A pending write covers a depth that a slot spills or refills (R23). -/
def depthsBusy (g : Group) (slot : Nat) (ds : List Nat) : Bool := g.flights.any fun f => ds.any fun d => f.holds slot d

/-- The WINDOW cause of class 2, raised by the slots that satisfy `p` (R18, R404). -/
def windowTrap (s : State) (is : Issuer) (slots : List Nat) (p : Nat → Bool) : State :=
  takeTrap s is 2 ⟨causeWindow, tinfoOf (maskOf fun i => slots.contains i && p i) 0 0 0 0, 0⟩

/-- The CALL of the slots of E to a target; the other active slots wait at the return clause (R119). -/
def callTo (x : Iss) (e : Mask) (target : DWord) : State :=
  let ret := x.f.nextClause
  if e == 0 then goTo x.s x.is ret
  else
    let slots := maskSlots e
    if slots.any fun i => (x.g.thread i).callBad then windowTrap x.s x.is slots fun i => (x.g.thread i).callBad
    else if spillStuck x.s x.g.core then x.s
    else if slots.any fun i => depthsBusy x.g i (depths (x.g.thread i).rbase (x.g.thread i).callRbase) then
      block x.s x.is .scoreboard
    else
      match eachSlot (fun s i => callThread s x.g i ret) x.s slots with
      | (s, ts, []) =>
        if e == x.f.mask then goTo (s.modGroup x.is.gid (commitThreads ts)) x.is target
        else splitFrag s x.is x.f e target ret ret x.depth (commitThreads ts)
      | (s, _, bad) => takeTrap s x.is 5 (slotFaults bad)

/-- CALL (R119). -/
def execCall (g : Guard) (disp : Word) (s : State) : Outcome :=
  issue s false fun x => callTo x (x.guarded g) (x.f.target disp.toInt)

/-- An address of a clause header that a k register may name (R63, R261). -/
def headerAddr (a : DWord) : Bool := a.toNat % 4 == 0 && canonical a

/-- CALLK (R63, R120). -/
def execCallk (ka : KReg) (g : UGuard) (s : State) : Outcome :=
  issue s false fun x =>
    uniIssue x g 1 [ka.toNat] <|
      if !headerAddr (x.g.kr ka.toNat) then illegal x causeOperand else callTo x x.f.mask (x.g.kr ka.toNat)

/-- The link that a slot's RET pops, refilled when none is resident, with the links left (R19, R20). -/
def popLink (s : State) (g : Group) (slot : Nat) : State × Except VFault (DWord × List DWord) :=
  let t := g.thread slot
  match t.links.getLast? with
  | some l => (s, .ok (l, t.links.dropLast))
  | none =>
    match spillRead s g (linkOff (t.cdepth - 1) slot) 8 with
    | (s, .error f) => (s, .error f)
    | (s, .ok bs) => (s, .ok (BitVec.ofNat 64 (ofBytesLE (bs.map (·.1))), []))

/-- FRAME in a link passes the check of R18. -/
def linkOk (t : Thread) (l : DWord) : Bool :=
  let fc := bitsOf l.toNat 57 7
  fc % 8 == 0 && 8 ≤ fc && fc ≤ 64 && fc ≤ t.wbase

/-- The depths that a RET refills (R18). -/
def retDepths (t : Thread) (l : DWord) : List Nat := depths (t.wbase - bitsOf l.toNat 57 7) t.rbase

/-- A slot's RET: its refills, and its window after them (R18 to R21). -/
def retThread (s : State) (g : Group) (slot : Nat) (l : DWord) (rest : List DWord) : State × Except VFault Thread :=
  let t := g.thread slot
  let fc := bitsOf l.toNat 57 7
  match refillRegs s g slot t (retDepths t l) with
  | (s, .error f) => (s, .error f)
  | (s, .ok t) =>
    (s, .ok { t with links := rest, wbase := t.wbase - fc, rbase := min t.rbase (t.wbase - fc), frame := fc, cdepth := t.cdepth - 1 })

/-- The record of an index takes the arrival of these slots (R136). -/
def Group.arrived (g : Group) (i : Nat) (m : Mask) : Group :=
  { g with recs := g.recs.mapIdx fun j (r : Option RRec) =>
      if j == i then r.map fun r => { r with arrived := r.arrived ||| m } else r }

/-- Fragments for the further sets of a RET's slots, in order (R121): a set that stands at its reconvergence clause arrives
there at once, and another takes an entry, through a victim when all are in use (R136, R140). -/
def retFrags (s : State) (is : Issuer) (recx : Nat) : List (Mask × DWord) → State × Except VFault Unit
  | [] => (s, .ok ())
  | (m, a) :: r =>
    let f := Frag.at m a recx
    if (s.group? is.gid).any fun g => g.reached f then retFrags (s.modGroup is.gid fun g => g.arrived recx m) is recx r
    else
      match takeEntry s is.gid [is.entry] with
      | (s, .error x) => (s, .error x)
      | (s, .ok e) => retFrags (s.modGroup is.gid fun g => g.setFrag e (some f)) is recx r

/-- RET (R121): each set of slots that popped one return clause continues as one fragment there, with the REC of the
returning fragment (R139). Under UNI too each thread pops its own link (log 59). A fault on a victim's write undoes the word
(R140). -/
def execRet (s : State) : Outcome :=
  issue s false fun x =>
    let slots := maskSlots x.f.mask
    if slots.any fun i => (x.g.thread i).cdepth == 0 then windowTrap x.s x.is slots fun i => (x.g.thread i).cdepth == 0
    else if spillStuck x.s x.g.core then x.s
    else
      match eachSlot (fun s i => popLink s x.g i) x.s slots with
      | (s, _, b :: bad) => takeTrap s x.is 5 (slotFaults (b :: bad))
      | (s, ls, []) =>
        if ls.any fun l => !linkOk (x.g.thread l.1) l.2.1 then
          windowTrap s x.is slots fun i => ls.any fun l => l.1 == i && !linkOk (x.g.thread i) l.2.1
        else if ls.any fun l => depthsBusy x.g l.1 (retDepths (x.g.thread l.1) l.2.1) then block s x.is .scoreboard
        else
          let link (i : Nat) : DWord × List DWord := ((ls.find? fun l => l.1 == i).map (·.2)).getD (0, [])
          match eachSlot (fun s i => retThread s x.g i (link i).1 (link i).2) s slots with
          | (s, _, b :: bad) => takeTrap s x.is 5 (slotFaults (b :: bad))
          | (s, ts, []) =>
            let addrs := (slots.map fun i => sext57 (bitsOf (link i).1.toNat 0 57)).dedup
            let sets := addrs.map fun a => (maskOf fun i => x.f.mask.getLsbD i && sext57 (bitsOf (link i).1.toNat 0 57) == a, a)
            match sets with
            | [] => s
            | (m, a) :: more =>
              match retFrags (s.modGroup x.is.gid (commitThreads ts)) x.is x.f.recx more with
              | (s, .error f) => takeTrap (s.modGroup x.is.gid fun _ => x.g) x.is 5 (faultD f 0)
              | (s, .ok ()) =>
                settle (goTo (s.modGroup x.is.gid fun g => g.modFrag x.is.entry fun f => { f with mask := m }) x.is a) x.is.gid

/-- EXIT (R122): the slots of the execution set end, and the others continue at the next clause. -/
def execExit (g : Guard) (s : State) : Outcome :=
  issue s true fun x =>
    let e := x.guarded g
    if e == 0 then goTo x.s x.is x.f.nextClause
    else
      let s := spendBudget (x.s.modGroup x.is.gid fun g => g.flushSrw x.is.entry) x.g
      if waveEnded s x.g then s
      else if x.f.mask &&& ~~~e == 0 then exitSlots s x.is.gid e
      else toNext (exitSlots s x.is.gid e) x.is x.f.nextClause

/-- Where a fragment continues past its present word of length 1. -/
def Frag.after (f : Frag) : JoinPc :=
  if f.word + 1 < f.count then ⟨f.clause, f.word + 1, f.hdr⟩ else ⟨f.nextClause, 0, none⟩

/-- A fragment that parks at its JOIN: the SRW writes of its clause take effect when the JOIN ends the clause, and else wait for
the fragments that go on in it (R32, R138). -/
def Group.parkSrw (g : Group) (e : Nat) (f : Frag) : Group :=
  if f.word + 1 < f.count then g.moveSrw e 8 else g.flushSrw e

/-- JOIN (R118, R138): the fragment parks, or enters JOINWAIT while the join register holds another address. -/
def execJoin (s : State) : Outcome :=
  issue s true fun x =>
    let a : DWord := BitVec.ofNat 64 (bitsOf (wordVa x.f.clause x.f.word) 0 57)
    if x.g.jmask != 0 && x.g.jaddr != a then
      x.s.modGroup x.is.gid fun g => g.modFrag x.is.entry fun f => { f with st := .joinwait }
    else
      let s := x.s.modGroup x.is.gid fun g =>
        { (g.parkSrw x.is.entry x.f).setFrag x.is.entry none with jaddr := a, jmask := g.jmask ||| x.f.mask, jpc := x.f.after }
      settle (spendBudget s x.g) x.is.gid

end Sys2Proof.Machine
end

