-- ==== Sys2Proof/Machine/Team.lean ====
section
/-! DEFINITION. The words of a team: barriers (R175), child grids (R176, R177), the team's shared memory and tiles (R154,
R178), and tile registers (R180). -/

namespace Sys2Proof.Machine

/-! ### Barrier words (R175) -/

/-- An event made by a word of a fragment. -/
def Iss.barEv (x : Iss) (b : BReg) (evs : List BEv) : State := evs.foldl (fun s e => barEvent s x.g.tid b e) x.s

/-- BARINIT (R175). -/
def execBarinit (b : BReg) (kb : KReg) (g : UGuard) (s : State) : Outcome :=
  issue s false fun x =>
    uniIssue x g 1 [kb.toNat] <|
      let m := (x.g.kr kb.toNat).toNat
      if m < 1 || 1023 < m then illegal x causeOperand else advance (x.barEv b [.init m]) x.is 1

/-- The expect event of BARX: a count above 2^39 − 1 breaks the barrier (R175). -/
def barxExpect (n : Nat) : BEv := .expect (if 2 ^ 39 - 1 < n then 2 ^ 64 else n)

/-- BARX and BARX.ARR (R175): the expect event comes first (R149); the arrival is a release at team scope. -/
def execBarx (arr : Bool) (b : BReg) (kb : KReg) (g : UGuard) (s : State) : Outcome :=
  issue s false fun x =>
    uniIssue x g 1 [kb.toNat] <|
      if arr && x.releasing then block x.s x.is .scoreboard
      else
        let ex := barxExpect (x.g.kr kb.toNat).toNat
        advance (x.barEv b (if arr then [ex, .arrive] else [ex])) x.is 1

/-- BARA (R175): an arrival, which is a release at team scope. -/
def execBara (b : BReg) (g : UGuard) (s : State) : Outcome :=
  issue s false fun x =>
    uniIssue x g 1 [] <|
      if x.releasing then block x.s x.is .scoreboard else advance (x.barEv b [.arrive]) x.is 1

/-- A status written to the k register of a word that has one (R161). -/
def Group.setStatus (g : Group) (kd : Option KReg) (st : Nat) : Group :=
  match kd with
  | none => g
  | some k => g.setBusyK k.toNat (BitVec.ofNat 64 st)

/-- BARW at a broken barrier: the status form writes ERROR, and the barrier-overrun trap follows (R175). -/
def barwBroken (s : State) (is : Issuer) (kd : Option KReg) (b : BReg) : State :=
  trapAfter (s.modGroup is.gid fun g => g.setStatus kd stError) is 1 8 (barD b)

/-- BARW whose wait ended with an event of its barrier, which has set the seen bit (R150, R175). -/
def barwOver (s : State) (is : Issuer) (kd : Option KReg) (b : BReg) (broken : Bool) : State :=
  if broken then barwBroken s is kd b else advance (s.modGroup is.gid fun g => g.setStatus kd stOk) is 1

/-- BARW at a barrier: what it does when the wait is met or the barrier broken, none while it must wait (R150, R175). -/
def barwTry (s : State) (is : Issuer) (g : Group) (kd : Option KReg) (b : BReg) : Option State :=
  match s.team? g.tid with
  | none => none
  | some t =>
    match barWait t g b with
    | .unmet => none
    | .met => some (advance (s.modGroup is.gid fun g => (g.see b).setStatus kd stOk) is 1)
    | .broken => some (barwBroken s is kd b)

/-- BARW (R175). -/
def execBarw (kd : Option KReg) (b : BReg) (g : UGuard) (s : State) : Outcome :=
  issue s false fun x =>
    uniIssue x g 1 (kd.toList.map fun k => k.toNat) <|
      match barwTry x.s x.is x.g kd b with
      | some s => s
      | none => block x.s x.is (.barw kd b)

/-- BART (R175): d is a k register, or a q register for the forms .q and .take. -/
def bartFn (op : BartOp) (d : KReg) (b : BReg) (t : Team) (g : Group) : Group :=
  let o := t.bar b.toNat
  let differs := o.phase != g.seen.getLsbD b.toNat
  match op with
  | .word => g.setK d.toNat o.num
  | .q => g.setQ d.toNat differs
  | .take => (if differs then g.see b else g).setQ d.toNat differs

/-- BART (R175). -/
def execBart (op : BartOp) (d : KReg) (b : BReg) (g : UGuard) (s : State) : Outcome :=
  issue s false fun x =>
    uniIssue x g 1 (if op == .word then [d.toNat] else []) <|
      match x.s.team? x.g.tid with
      | none => x.s
      | some t => advance (x.s.modGroup x.is.gid (bartFn op d b t)) x.is 1

/-! ### Child grids (R176, R177) -/

/-- The fields of a launch record (R176). -/
structure LaunchRec where
  entry : Nat
  args : Nat
  nx : Nat
  ny : Nat
  nz : Nat
  place : Nat
  rows : Nat
  cols : Nat
  dies : Nat
  groups : Nat
  tiles : Nat
  prio : Nat
  nbv : Nat
  flags : Nat
  smem : Nat
  rsvd1 : Nat
  seed : Nat
  rsvd2 : Nat

/-- The launch record at an offset (R176). -/
def launchRec (m : Mem) (a : Nat) : LaunchRec :=
  { entry := m.num a 8, args := m.num (a + 8) 8, nx := m.num (a + 0x10) 4, ny := m.num (a + 0x14) 4
    nz := m.num (a + 0x18) 4, place := m.num (a + 0x1C) 4, rows := m.num (a + 0x20) 2, cols := m.num (a + 0x22) 2
    dies := m.num (a + 0x24) 1, groups := m.num (a + 0x25) 1, tiles := m.num (a + 0x26) 1, prio := m.num (a + 0x27) 1
    nbv := m.num (a + 0x28) 1, flags := m.num (a + 0x29) 1, smem := m.num (a + 0x2A) 2, rsvd1 := m.num (a + 0x2C) 4
    seed := m.num (a + 0x30) 8, rsvd2 := m.num (a + 0x38) 8 }

/-- The sizes of a grid and of its teams lie within their limits (R151, R176). -/
def LaunchRec.sizesOk (r : LaunchRec) : Bool :=
  1 ≤ r.nx && 1 ≤ r.ny && 1 ≤ r.nz && r.nx * r.ny * r.nz ≤ 2 ^ 32 && 1 ≤ r.groups && r.groups ≤ 64 && r.tiles ≤ 16 &&
    r.prio ≤ 7 && r.smem ≤ 128

/-- Every field of a launch record lies within its limits (R176); the reserved bits [31:23] of its place word are checked
with its rectangle (R66). -/
def LaunchRec.ok (r : LaunchRec) : Bool :=
  r.entry % 4 == 0 && r.entry < 2 ^ 57 && r.sizesOk && bitsOf r.place 11 12 == 0 && 1 ≤ r.rows && r.rows ≤ 8 &&
    1 ≤ r.cols && r.cols ≤ 16 && r.dies != 0 && r.dies < 16 && r.nbv ≤ 3 && r.flags < 2 && r.rsvd1 == 0 && r.rsvd2 == 0

/-- The die at an offset modulo 4 (R60). -/
def dieAt (die off : Nat) : Nat := (die + off) % 4

/-- The child grid of a record (R151, R156, R176). -/
def childGrid (parent : Grid) (g : Group) (r : LaunchRec) (id handle row0 col0 : Nat) : Grid :=
  { id := id, rank := g.rank, ctx := g.ctx, depth := parent.depth + 1, root := parent.root, parent := some g.tid
    handle := handle, nx := r.nx, ny := r.ny, nz := r.nz, entry := sext57 r.entry, args := BitVec.ofNat 64 r.args
    row0 := row0, col0 := col0, rows := r.rows, cols := r.cols
    dies := ((upTo 4).filter fun j => bitOf r.dies j).map fun j => dieAt g.core.die (bitsOf r.place 9 2 + j)
    groups := r.groups, smem := r.smem, tiles := r.tiles, nbv := if r.nbv == 0 then g.nbv else r.nbv
    det := bitOf r.flags 0, priority := r.prio, seed := BitVec.ofNat 64 r.seed, seg := 0, spTrap := false, spWord := 0
    spDie := 0, spCount := 0, ovf := 0, split := 0, peers := [], egrid := 0, nextTeam := 0, started := false
    since := id + 1, desc := none, status := 0 }

/-- The lowest child slot of a package without an unretired child (R152, R176). -/
def Pkg.childSlot (p : Pkg) : Option Nat :=
  if 4096 ≤ p.children.length then none
  else (upTo (p.children.length + 1)).find? fun n => (p.children.get n).isNone

/-- The group with a status in a k register, past a word of one cell; a register that the word held is free (R59). -/
def done1 (s : State) (is : Issuer) (kd : KReg) (v : DWord) : State :=
  advance (s.modGroup is.gid fun g => g.setBusyK kd.toNat v) is 1

/-- LAUNCH (R152, R176): the checks LEADER, nesting depth, OPERAND and PLACE in this order; then the grid enters the
dispatcher. It waits while the package holds 4,096 unretired children, and as a release at package scope. -/
def execLaunch (kd ka : KReg) (g : UGuard) (s : State) : Outcome :=
  issue s false fun x =>
    uniIssue x g 1 [kd.toNat, ka.toNat] <|
      match x.s.team? x.g.tid, x.s.grid? x.g.grid, x.s.pkg? x.g.rank with
      | some t, some gr, some p =>
        let a := (x.g.kr ka.toNat).toNat
        let r := launchRec t.shared.bytes a
        let row0 : Int := (x.g.core.row : Int) + toSigned 4 (bitsOf r.place 5 4)
        let col0 : Int := (x.g.core.col : Int) + toSigned 5 (bitsOf r.place 0 5)
        if x.g.num != 0 then illegal x causeLeader
        else if 10 ≤ gr.depth then takeTrap x.s x.is 4 ⟨0, 0, 0⟩
        else if a % 16 != 0 || t.holding * 4096 < a + 64 || !r.ok then illegal x causeOperand
        else if bitsOf r.place 23 9 != 0 || row0 < 0 || 8 < row0 + r.rows || col0 < 0 || 16 < col0 + r.cols then illegal x causePlace
        else if x.g.releasing then block x.s x.is .scoreboard
        else
          match p.childSlot with
          | none => x.s
          | some slot =>
            let (id, s) := x.s.gensym
            let handle := slot + p.launchSeq % 2 ^ 52 * 2 ^ 12
            let s := s.modPkg x.g.rank fun p =>
              { p with children := p.children.put slot (id, p.launchSeq), childSeq := p.childSeq.put slot p.launchSeq
                       launchSeq := p.launchSeq + 1 }
            let s := { s with grids := s.grids ++ [childGrid gr x.g r id handle row0.toNat col0.toNat] }
            done1 (s.owe [.event (.gridDispatch x.g.rank)]) x.is kd (BitVec.ofNat 64 handle)
      | _, _, _ => x.s

/-- What CWAIT writes once its children have retired; none while it must wait (R177). -/
def cwaitStatus (s : State) (g : Group) (handle : Option DWord) : Option Nat :=
  match handle with
  | none => if s.grids.any fun c => c.parent == some g.tid then none else some stOk
  | some h =>
    match s.pkg? g.rank with
    | none => some stError
    | some p =>
      let slot := bitsOf h.toNat 0 12
      let n := bitsOf h.toNat 12 52
      match p.childSeq.get slot with
      | none => some stError
      | some last =>
        if last < n then some stError
        else if last == n && (p.children.get slot).isSome then none
        else some stOk

/-- CWAIT, once it need not wait. -/
def cwaitTry (s : State) (is : Issuer) (g : Group) (kd : KReg) (handle : Option DWord) : Option State :=
  (cwaitStatus s g handle).map fun st => done1 s is kd (BitVec.ofNat 64 st)

/-- CWAIT (R177). -/
def execCwait (kd : KReg) (ka : Option KReg) (g : UGuard) (s : State) : Outcome :=
  issue s false fun x =>
    uniIssue x g 1 (kd.toNat :: ka.toList.map fun k => k.toNat) <|
      let h := ka.map fun k => x.g.kr k.toNat
      match cwaitTry x.s x.is x.g kd h with
      | some s => s
      | none => block x.s x.is (.cwait kd h)

/-! ### The team's resources (R154, R178) -/

/-- What a team holds of a resource, in the units of ACQ and REL. -/
def Team.has (t : Team) (what : Res) : Nat := match what with
  | .smem => t.holding
  | .tile => t.tiles

/-- What a core has of a resource in all (R154). -/
def resAll : Res → Nat
  | .smem => 128
  | .tile => 16

/-- A team holds its resources on its core: it is placed there and has not been switched out or emptied (R153, R409). -/
def Team.holds (t : Team) : Bool := t.st == .resident || t.st == .stopping || t.st == .saving

/-- What is free of a resource on a core (R154). -/
def freeRes (s : State) (core : CoreId) (what : Res) : Nat :=
  resAll what - ((s.teams.filter fun t => t.core == core && t.holds).map fun t => t.has what).sum

/-- The value that ACQ writes: the shared offset or the tile number of the first unit granted (R178). -/
def Team.top (t : Team) (what : Res) : DWord := BitVec.ofNat 64 (match what with
  | .smem => 4096 * t.holding
  | .tile => t.tiles)

/-- A team with n units more; granted memory and tiles read as zero, since REL leaves nothing above the top (R178). -/
def Team.grant (t : Team) (what : Res) (n : Nat) : Team := match what with
  | .smem => { t with holding := t.holding + n }
  | .tile => { t with tiles := t.tiles + n }

/-- A memory without the bytes and marks at and above an address. -/
def Ram.below (r : Ram) (a : Nat) : Ram := ⟨r.bytes.filter fun c => c.1 < a, r.poison.filter fun w => 4 * w < a⟩

/-- A team with n units less, from the top (R178). -/
def Team.release (t : Team) (what : Res) (n : Nat) : Team := match what with
  | .smem => { t with holding := t.holding - n, shared := t.shared.below (4096 * (t.holding - n)) }
  | .tile => { t with tiles := t.tiles - n, acc := t.acc.below (16384 * (t.tiles - n)) }

/-- ACQ (R154, R178): a request of 0 completes at once; others join the core's queue. -/
def execAcq (what : Res) (kd ka : KReg) (g : UGuard) (s : State) : Outcome :=
  issue s false fun x =>
    uniIssue x g 1 [kd.toNat, ka.toNat] <|
      match x.s.team? x.g.tid with
      | none => x.s
      | some t =>
        let n := (x.g.kr ka.toNat).toNat
        if resAll what < t.has what + n then illegal x causeResource
        else if n == 0 then done1 x.s x.is kd (t.top what)
        else
          let (id, s) := x.s.gensym
          let s := s.modCore x.g.core fun c =>
            { c with acqs := c.acqs ++ [⟨id, x.g.gid, x.is.entry, x.g.tid, what, n, kd⟩] }
          (block s x.is (.acq id kd)).owe [.event (.acqGrant x.g.core)]

/-- The z register that a matrix entry names (R181). -/
def MWork.z : MWork → Nat
  | .mma _ z _ _ _ _ _ _ _ => z
  | .mzero z => z
  | .mld z _ => z
  | .mst _ z => z
  | .mdrain _ _ z _ _ => z

/-- A span of a team's shared memory touches the bytes at or above an offset. -/
def Span.above (sp : Span) (tid off : Nat) : Bool := sp.space == (0, tid) && off ≤ sp.last * 256 + 255

/-- Work in flight uses what a REL would return: a matrix entry that names a released tile, or a footprint that overlaps
the released range (R178). -/
def relBusy (s : State) (g : Group) (t : Team) (what : Res) (n : Nat) : Bool :=
  match what with
  | .tile => (s.core g.core).fifo.any fun e => e.tid == g.tid && t.tiles - n ≤ e.work.z
  | .smem =>
    let off := 4096 * (t.holding - n)
    n != 0 && (((s.core g.core).fifo.any fun e => e.spans.any fun sp => sp.above g.tid off) ||
      s.ops.any fun o => o.st != .withdrawn && o.spans.any fun sp => sp.above g.tid off)

/-- REL (R178): it waits for work in flight on what it returns. -/
def execRel (what : Res) (ka : KReg) (g : UGuard) (s : State) : Outcome :=
  issue s false fun x =>
    uniIssue x g 1 [ka.toNat] <|
      match x.s.team? x.g.tid with
      | none => x.s
      | some t =>
        let n := (x.g.kr ka.toNat).toNat
        if t.has what < n then illegal x causeResource
        else if relBusy x.s x.g t what n then x.s
        else
          advance ((x.s.modTeam x.g.tid fun t => t.release what n).owe
            [.event (.acqGrant x.g.core), .event (.teamPlace x.g.rank x.g.core.die)]) x.is 1

/-! ### Tile registers (R179, R180) -/

/-- A t register. -/
def Group.tr (g : Group) (n : XReg) : QWord := g.t[n.toNat]?.getD 0

/-- Writes a t register with its low and high halves. -/
def Group.setT (g : Group) (n : XReg) (lo hi : DWord) : Group :=
  { g with t := g.t.setIfInBounds n.toNat (BitVec.ofNat 128 (lo.toNat + 2 ^ 64 * hi.toNat)) }

/-- TSET (R180). -/
def execTset (t : XReg) (ka kb : KReg) (g : UGuard) (s : State) : Outcome :=
  issue s false fun x =>
    uniWord x g 1 [ka.toNat, kb.toNat] fun g => g.setT t (g.kr ka.toNat) (g.kr kb.toNat)

/-- TGET (R180). -/
def execTget (kd : KReg) (t : XReg) (h : Bool) (g : UGuard) (s : State) : Outcome :=
  issue s false fun x =>
    uniWord x g 1 [kd.toNat] fun g => g.setK kd.toNat (BitVec.ofNat 64 ((g.tr t).toNat / 2 ^ (64 * b2n h)))

end Sys2Proof.Machine
end

