-- ==== Sys2Proof/Machine/Tile.lean ====
section
/-! DEFINITION. Tile descriptors (R179), the footprint-ordering unit of a core (R274, R312 to R314), and what the words of
the matrix engine and of the asynchronous engines share at issue. -/

namespace Sys2Proof.Machine

/-- A tile descriptor (R179): COLS, ROWS and PLANES as the numbers of columns, rows and planes. -/
structure Tile where
  base : Nat
  space : Nat
  fmt : Nat
  cols : Nat
  rows : Nat
  planes : Nat
  pitch : Nat
  rsvd : Nat
  deriving DecidableEq, Repr

/-- The descriptor that a t register holds (R179). -/
def tileOf (q : QWord) : Tile :=
  let n := q.toNat
  { base := bitsOf n 0 57, space := bitsOf n 57 3, fmt := bitsOf n 60 4, cols := bitsOf n 64 14 + 1
    rows := bitsOf n 78 14 + 1, planes := bitsOf n 92 8 + 1, pitch := bitsOf n 100 24, rsvd := bitsOf n 124 4 }

/-- Bytes per element of a format; for l6 its alignment, 4 (R179, R242). -/
def fmtBytes (fmt : Nat) : Nat := [1, 4, 2, 2, 1, 1, 4, 1, 1, 4, 4].getD fmt 1

/-- The checks of R179 that every use makes. -/
def Tile.ok (t : Tile) : Bool := t.space ≤ 2 && t.fmt ≤ 10 && t.rsvd == 0 && (t.fmt != 6 || t.cols % 16 == 0)

/-- The bytes of a row (R179). -/
def Tile.rowBytes (t : Tile) : Nat := if t.fmt == 6 then t.cols / 16 * 12 else t.cols * fmtBytes t.fmt

/-- One past the last byte of a region of rows without planes (R179). -/
def Tile.endOf (t : Tile) : Nat := t.base + (t.rows - 1) * t.pitch + t.rowBytes

/-- A span over the bytes from a to b − 1 of a space (R274). -/
def spanOf (space : Nat × Nat) (a b : Nat) (write : Bool) : Span := ⟨space, a / 256, (b - 1) / 256, write⟩

/-- Two spans between which the unit makes an edge (R274). -/
def Span.meets (a b : Span) : Bool := a.space == b.space && a.first ≤ b.last && b.first ≤ a.last && (a.write || b.write)

/-- The entries of a core's footprint-ordering unit, with their spans: each is held until its operation completes, whatever
becomes of its team (R312). -/
def unitEntries (s : State) (core : CoreId) : List (Nat × List Span) :=
  ((s.core core).fifo.filter (·.foe)).map (fun e => (e.id, e.spans)) ++
    (s.ops.filter fun o => o.foe && o.core == core && o.st != .withdrawn).map fun o => (o.id, o.spans)

/-- The unit holds 64 entries: a word that needs one waits at issue (R247, R312). -/
def unitFull (s : State) (core : CoreId) : Bool := 64 ≤ (unitEntries s core).length

/-- The predecessors of an operation with these spans (R313). -/
def unitPreds (s : State) (core : CoreId) (spans : List Span) : List Nat :=
  ((unitEntries s core).filter fun e => spans.any fun a => e.2.any fun b => b.meets a).map (·.1)

/-- An operation or matrix entry has not completed. -/
def inFlight (s : State) (id : Nat) : Bool :=
  (s.ops.any fun o => o.id == id && o.st != .withdrawn) || s.cores.any fun c => c.fifo.any fun e => e.id == id

/-- A word in flight without replies to threads. -/
def Flight.plain (path : Nat) (kind : FlightKind) (mask fmask : Mask) (op : Nat) : Flight :=
  { seq := 0, path := path, kind := kind, word := 0, lit := 0, mask := mask, fmask := fmask, uni := false, addrs := []
    depths := [], dstn := 0, data := [], got := [], lines := [], op := op, done := false }

/-- The path's counter has reached 255: a further word waits (R214). -/
def Group.pathFull (g : Group) (p : Nat) : Bool := 255 ≤ g.path p

end Sys2Proof.Machine
end

