-- ==== Sys2Proof/Machine/Memory.lean ====
section
/-! DEFINITION. The per-thread memory words at issue: loads and stores of the spill stack, shared memory and the scratchpad
(R198 to R211, R239), PUT and GET (R249, R250), and the path 6 words (R256 to R262), with the checks of R236. -/

namespace Sys2Proof.Machine

/-- What an M-format word does with the accesses that it makes. -/
inductive AccOp where
  | load | store | put | get
  | atom (op : AtomOp)
  | waitc (lit : Word)
  | comb (lit : Word)
  deriving DecidableEq, Repr

/-- An M-format word: its path, its width w, DATA, the registers it reads and writes, its address fields, and its words. -/
structure Acc where
  path : Nat
  op : AccOp
  w : Nat
  d : VReg
  nsrc : Nat
  ndst : Nat
  m : MAddr
  word : Word
  lit : Word
  deriving DecidableEq, Repr

/-- The kind of flight that the word makes. -/
def AccOp.kind : AccOp → FlightKind
  | .load => .load | .store => .store | .put => .put | .get => .get
  | .atom _ => .atomic | .waitc _ => .waitc | .comb _ => .comb

/-- What the access does to the page (R222, R236). -/
def AccOp.access : AccOp → Access
  | .load => .read | .get => .read | .waitc _ => .read
  | .store => .write | .put => .write
  | .atom _ => .atomic | .comb _ => .atomic

/-- Words of the word: an L form has its literal. -/
def Acc.len (a : Acc) : Nat := match a.op with
  | .waitc _ => 2
  | .comb _ => 2
  | .load | .store | .put | .get | .atom _ => 1

/-- The spill-window size of a group's context (R199). -/
def strideOf (s : State) (g : Group) : Nat := ((s.ctx? g.rank g.ctx).map (·.spstride)).getD 0

/-- The depth-0 ancestor of a grid (R206). -/
def rootOf (s : State) (grid : Nat) : Nat := ((s.grid? grid).map (·.root)).getD grid

/-- The scratchpad segment that a die has for a grid (R206). -/
def segOf (s : State) (rank die grid : Nat) : Option Segment :=
  let r := rootOf s grid
  s.segs.find? fun x => x.rank == rank && x.die == die && x.grid == r

/-- The wave whose shadow a group's shared-memory words address (R301). -/
def waveOf (s : State) (g : Group) : Option Wave := g.wave.bind fun sl => (s.slice sl).wave

/-- Bytes of the memory that path 1 addresses: the team's holding, or the object of a wave (R203, R301). -/
def sharedSize (s : State) (g : Group) : Nat :=
  match g.wave with
  | some _ => ((waveOf s g).map (·.size)).getD 0
  | none => ((s.team? g.tid).map fun t => 4096 * t.holding).getD 0

/-- The offset of a slot lies outside its level (R200, R203, R207). -/
def outOfBounds (s : State) (g : Group) (a : Acc) (addr : DWord) : Bool :=
  match a.path with
  | 0 => addr.toInt < -(2 ^ 21) || (strideOf s g : Int) - 2 ^ 21 ≤ addr.toInt
  | 1 => sharedSize s g < addr.toNat + a.w
  | 2 => match segOf s g.rank g.core.die g.grid with
    | none => true
    | some sg => sg.size < addr.toNat + a.w
  | _ => false

/-- The virtual address that a slot's access is translated for (R200). -/
def accVa (g : Group) (a : Acc) (addr : DWord) : Nat := if a.path == 0 then g.spillVa addr.toInt else addr.toNat

/-- The translation of every slot's access: where it is performed, or the slots that fault (R236). -/
def accXlate (s : State) (g : Group) (a : Acc) (addrs : List DWord) : List Nat → State × List (Nat × Phys) × List (Nat × VFault)
  | [] => (s, [], [])
  | slot :: r =>
    let va := accVa g a (addrs.getD slot 0)
    match xlate s g.rank g.core.die g.ctx va a.op.access with
    | (s, .error f) =>
      let (s, ok, bad) := accXlate s g a addrs r
      (s, ok, (slot, (va, f)) :: bad)
    | (s, .ok h) =>
      let (s, ok, bad) := accXlate s g a addrs r
      (s, (slot, h) :: ok, bad)

/-- The first stage of R236 that a slot fails, with every slot that fails it: the trap's detail. -/
def accFault (code : Nat) (slots : List Nat) (addrs : List DWord) : TrapD :=
  ⟨code, tinfoOf (maskOf fun i => slots.contains i) 0 0 0 0, addrs.getD (slots.headD 0) 0⟩

/-- Every 4-byte word of an access as a memory gives it, or poison (R237). -/
def ramReply (r : Ram) (at_ n : Nat) : Reply :=
  if r.bad 4 at_ n then .poison else .words (wordsOf (r.bytes.readN at_ n))

/-- A load of the scratchpad (R207 to R210): the reply, and how many invalid words it read, with the first. -/
def scratchLoad (sg : Segment) (trap : Bool) (at_ n : Nat) : Reply × List Nat :=
  let words := (upTo (n / 4)).map fun i => at_ / 4 + i
  let bad := words.filter fun w => sg.valid.read w == 0
  if (words.filter fun w => sg.valid.read w != 0).any fun w => sg.ram.bad 4 (4 * w) 4 then (.poison, if trap then [] else bad)
  else if bad != [] && trap then (.uninit, [])
  else (.words (words.map fun w => if sg.valid.read w == 0 then 0 else sg.ram.bytes.word (4 * w)), bad)

/-- Reads of invalid words logged in SPMODE of the grid tree (R209, R211); `off` is the die offset from the reader. -/
def logInvalid (s : State) (grid off : Nat) (ws : List Nat) : State :=
  match ws with
  | [] => s
  | w :: _ =>
    s.modGrid (rootOf s grid) fun g =>
      let g := if g.spCount == 0 then { g with spWord := w % 2 ^ 25, spDie := off } else g
      { g with spCount := min (2 ^ 32 - 1) (g.spCount + ws.length) }

/-- A write of bytes to a segment: whole words become valid, and an invalid word that is written in part reads zero in its
other bytes (R208). -/
def scratchStore (sg : Segment) (at_ : Nat) (bs : List PByte) : Segment :=
  let ws := wordsTouched at_ bs.length
  let clean := ws.foldl (fun (r : Ram) w => if sg.valid.read w == 0 then r.write 4 (4 * w) [0, 0, 0, 0] else r) sg.ram
  { sg with ram := clean.writeP at_ bs, valid := ws.foldl (fun m w => m.write w 1) sg.valid }

/-- One slot's load on paths 0 to 2, performed at issue (R238). -/
def loadSlot (s : State) (g : Group) (a : Acc) (addr : DWord) : State × Reply :=
  match a.path with
  | 0 =>
    match spillRead s g addr.toInt a.w with
    | (s, .error (_, f)) => (s, .fault f.cause f.level)
    | (s, .ok bs) => (s, if bs.any (·.2) then .poison else .words (wordsOf (bs.map (·.1))))
  | 1 =>
    match waveOf s g with
    | some w => (s, .words (wordsOf (w.shadow.readN addr.toNat a.w)))
    | none => (s, ((s.team? g.tid).map fun t => ramReply t.shared addr.toNat a.w).getD (.words []))
  | _ =>
    match segOf s g.rank g.core.die g.grid with
    | none => (s, .words [])
    | some sg =>
      let trap := ((s.grid? (rootOf s g.grid)).map (·.spTrap)).getD false
      let r := scratchLoad sg trap addr.toNat a.w
      (logInvalid s g.grid 0 r.2, r.1)

/-- One slot's store on paths 0 to 2 (R238). -/
def storeSlot (s : State) (g : Group) (a : Acc) (addr : DWord) (ws : List Word) : State :=
  let bs := sound (bytesOf ws)
  match a.path with
  | 0 => (spillWrite s g addr.toInt bs).1
  | 1 =>
    match g.wave with
    | some sl => s.modSlice sl fun q => { q with wave := q.wave.map fun w => { w with shadow := w.shadow.writeL addr.toNat (bytesOf ws) } }
    | none => s.modTeam g.tid fun t => { t with shared := t.shared.writeP addr.toNat bs }
  | _ =>
    match segOf s g.rank g.core.die g.grid with
    | none => s
    | some sg => { s with segs := modWhere (fun x => x.id == sg.id) (fun x => scratchStore x addr.toNat bs) s.segs }

/-! ### PUT (R217 to R219) -/

/-- Bytes of a PUT in a line of the buffer. -/
def WLine.put (l : WLine) (gid seq at_ : Nat) (bs : List Byte) : WLine :=
  { l with bytes := (upTo bs.length).foldl (fun m i => m.put (at_ % 256 + i) (bs.getD i 0)) l.bytes, last := l.last.put gid seq }

/-- A flight of a group changed. -/
def State.modFlight (s : State) (gid seq : Nat) (f : Flight → Flight) : State :=
  s.modGroup gid fun g => { g with flights := modWhere (fun x => x.seq == seq) f g.flights }

/-- The line joins those that the PUT waits for (R250). -/
def Flight.await (f : Flight) (line : Nat) : Flight := if f.lines.contains line then f else { f with lines := f.lines ++ [line] }

/-- The oldest line of a full buffer drains before a new one opens (R218). -/
def wcbRoom (s : State) (core : CoreId) : State :=
  match (s.core core).wcb with
  | [] => s
  | l :: r => if 64 ≤ r.length + 1 then drainLine s core l else s

/-- One slot's PUT: into the buffer, or at once to the window (R217, R218). -/
def putSlot (s : State) (g : Group) (seq : Nat) (h : Phys) (va : Nat) (w : Word) : State :=
  let bs := wordBytes w
  if inWindow h.tgt h.pa then
    let (id, s) := s.gensym
    let l : WLine := { id := id, dest := h.home, ctx := g.ctx, va := lineBase va, bytes := [], last := [], since := s.cyc }
    drainLine (s.modFlight g.gid seq fun f => f.await id) g.core (l.put g.gid seq va bs)
  else
    match (s.core g.core).wcb.find? fun l => l.dest == h.home && l.ctx == g.ctx && l.va == lineBase va with
    | some l =>
      let l := l.put g.gid seq va bs
      let s := s.modCore g.core fun c => { c with wcb := modWhere (fun x => x.id == l.id) (fun _ => l) c.wcb }
      let s := s.modFlight g.gid seq fun f => f.await l.id
      if l.bytes.length == 256 then drainLine s g.core l else s
    | none =>
      let s := wcbRoom s g.core
      let (id, s) := s.gensym
      let l : WLine := { id := id, dest := h.home, ctx := g.ctx, va := lineBase va, bytes := [], last := [], since := s.cyc }
      let s := s.modCore g.core fun c => { c with wcb := c.wcb ++ [l.put g.gid seq va bs] }
      (s.modFlight g.gid seq fun f => f.await id).owe [.event (.wcbAgeDrain g.core id)]

/-! ### Requests to a home slice (R256, R283, R424) -/

/-- The step that a request at the tail of a slice's queue makes due. -/
def ReqKind.step (k : ReqKind) (sl : SliceId) : List Move :=
  match k with
  | .atom _ _ => [.event (.sliceAtomic sl)]
  | .waitc _ _ _ _ _ => [.event (.waitcTest sl)]
  | .comb _ _ => [.event (.combCallArrive sl)]
  | .get => []

/-- A request reaches the input queue of its home slice (R283). -/
def arriveSlice (s : State) (r : Req) : State :=
  let sl : SliceId := ⟨r.home, sliceOf r.va⟩
  let (n, s) := s.gensym
  (s.modSlice sl fun q => { q with queue := q.queue ++ [{ r with arr := n }] }).owe (r.kind.step sl)

/-- An earlier request of the same source group to the same slice, on the same path, has not arrived there: the requests of
one group to one slice stay in the order in which it sent them (R238, R266, R283). -/
def earlierReq (s : State) (r : Req) : Bool :=
  (s.fab.reqs.takeWhile fun x => x.id != r.id).any fun x =>
    x.req.gid == r.gid && x.dest == r.home && sliceOf x.req.va == sliceOf r.va && (x.req.kind == .get) == (r.kind == .get)

/-- The input queue of a request's home slice is full (R283). -/
def queueFull (s : State) (r : Req) : Bool := 512 ≤ (s.slice ⟨r.home, sliceOf r.va⟩).queue.length

/-- A request leaves its group: to a slice of its own package, waiting in the mesh while the queue is full or an earlier one of
the group waits, or through the fabric to a peer (R283, R424). A path 6 request to a peer sets the peer map of its grid
(R255). -/
def sendReq (s : State) (g : Group) (r : Req) : State :=
  if r.home == g.rank then
    if queueFull s r || earlierReq s r then
      let s := { s with fab := { s.fab with reqs := s.fab.reqs ++ [(⟨r.id, g.rank, r.home, r⟩ : PeerReq)] } }
      s.owe [.subject .peerAccess r.id]
    else arriveSlice s r
  else
    let s := if r.kind == .get then s
      else s.modGrid g.grid fun x => if x.peers.contains r.home then x else { x with peers := r.home :: x.peers }
    let s := { s with fab := { s.fab with reqs := s.fab.reqs ++ [(⟨r.id, g.rank, r.home, r⟩ : PeerReq)] } }
    sendPacket s g.rank r.home (.req r.id)

/-- The request of one slot: what it asks for (R256, R259, R262). -/
def AccOp.reqKind (op : AccOp) (ws : List Word) : ReqKind :=
  match op with
  | .atom o => .atom o ws
  | .waitc l =>
    .waitc (bitsOf l.toNat 0 3) (bitOf l.toNat 3) (bitsOf l.toNat 4 12) (ws.getD 0 0) (ws.getD 1 0)
  | .comb l => .comb (bitsOf l.toNat 0 6) (pairOf (ws.getD 0 0) (ws.getD 1 0))
  | .load | .store | .put | .get => .get

/-- The issuer index of a slot in a grid with deterministic mode, for the words that gather (R30, R287). -/
def detKey (s : State) (g : Group) (op : AccOp) (slot : Nat) : Option (Nat × Nat) :=
  match op, s.grid? g.grid, s.team? g.tid with
  | .atom _, some gr, some t => if gr.det then some (gr.id, gthread gr t g.num slot) else none
  | .comb _, some gr, some t => if gr.det then some (gr.id, gthread gr t g.num slot) else none
  | _, _, _ => none

/-- One slot's request. -/
def reqSlot (s : State) (g : Group) (a : Acc) (seq slot : Nat) (h : Phys) (va : Nat) (ws : List Word) : State :=
  let (id, s) := s.gensym
  sendReq s g { id := id, gid := g.gid, seq := seq, slot := slot, ctx := g.ctx, va := va, home := h.home
                kind := a.op.reqKind ws, det := detKey s g a.op slot, arr := 0 }

/-- Lines of the core's buffer with bytes of the group that a GET reads are drained first (R250). -/
def drainGet (s : State) (g : Group) (va : Nat) : State :=
  drainLines s g.core fun l => l.ctx == g.ctx && l.va == lineBase va && (l.last.get g.gid).isSome

/-! ### Issue (R214, R233 to R238) -/

/-- What the issue of a memory word comes to. -/
inductive MOut where
  | done
  /-- it waits: its path's counter is full (R214), or a GET to a line comes before this PUT (R238) -/
  | wait
  | trap (cls : Nat) (d : TrapD)
  /-- a combiner method addresses bytes outside its object (R301) -/
  | bounds
  deriving DecidableEq, Repr

/-- The words read at issue for each slot (R235). -/
def accData (g : Group) (a : Acc) : List (List Word) :=
  (upTo 16).map fun i => (upTo a.nsrc).map fun j => (g.thread i).v (a.d.toNat + j)

/-- The accesses of a word made, slot by slot in increasing order (R238): the loads' replies, the stores, the PUTs' bytes
and the requests. -/
def accSlots (s : State) (g : Group) (a : Acc) (seq : Nat) (addrs : List DWord) (data : List (List Word)) (hs : List (Nat × Phys)) :
    List Nat → State
  | [] => s
  | slot :: r =>
    let addr := addrs.getD slot 0
    let ws := data.getD slot []
    let h := ((hs.find? fun x => x.1 == slot).map (·.2)).getD ⟨0, 0, 0⟩
    let s :=
      match a.op with
      | .load =>
        let (s, rep) := loadSlot s g a addr
        s.modFlight g.gid seq fun f => { f with got := f.got.set slot rep }
      | .store => storeSlot s g a addr ws
      | .put => putSlot s g seq h addr.toNat (ws.getD 0 0)
      | .get => if h.home == g.rank then drainGet s g addr.toNat else reqSlot (drainGet s g addr.toNat) g a seq slot h addr.toNat ws
      | .atom _ | .waitc _ | .comb _ => reqSlot s g a seq slot h addr.toNat ws
    accSlots s g a seq addrs data hs r

/-- The first reply of each slot: a load's is set as it is made, a GET and a path 6 word wait for theirs, and a store or PUT
has none. Under UNI one slot's answers for all (R44). -/
def firstGot (a : Acc) (slots : List Nat) : List Reply :=
  (upTo 16).map fun i => match a.op with
    | .store | .put => .words []
    | .load | .get | .atom _ | .waitc _ | .comb _ => if slots.contains i then .pending else .words []

/-- The word is issued with these addresses (R233 to R238): the checks BOUNDS, ALIGN and translation, then its flight and
its accesses. -/
def memIssue (s : State) (g : Group) (a : Acc) (mask fmask : Mask) (uni : Bool) (addrs : List DWord) : State × MOut :=
  let slots := if uni then [lowest mask] else maskSlots mask
  let bounds := slots.filter fun i => outOfBounds s g a (addrs.getD i 0)
  let align := slots.filter fun i => (addrs.getD i 0).toNat % a.w != 0
  if bounds != [] then (s, if g.wave.isSome then .bounds else .trap 5 (accFault 7 bounds addrs))
  else if align != [] then (s, .trap 5 (accFault 8 align addrs))
  else
    let (s, hs, bad) := if a.path == 1 || a.path == 2 then (s, [], []) else accXlate s g a addrs slots
    if bad != [] then
      (s, .trap 5 (match bad with
        | [] => ⟨0, 0, 0⟩
        | (_, f) :: _ => faultD f (maskOf fun i => bad.any fun x => x.1 == i)))
    else if g.pathFull a.path || (a.path == 0 && g.wave.isNone && spillStuck s g.core) then (s, .wait)
    else if a.op == AccOp.put && slots.any fun i => g.flights.any fun f => !f.done && f.kind == FlightKind.get &&
        f.accessSlots.any fun j => lineBase (f.addrs.getD j 0).toNat == lineBase (addrs.getD i 0).toNat then (s, .wait)
    else
      let seq := g.nextSeq
      let f : Flight :=
        { seq := seq, path := a.path, kind := a.op.kind, word := a.word, lit := a.lit, mask := mask, fmask := fmask, uni := uni
          addrs := addrs, depths := (upTo 16).map fun i => (g.thread i).depth a.d.toNat, dstn := a.ndst
          data := accData g a, got := firstGot a slots, lines := [], op := 0, done := false }
      let s := accSlots (s.modGroup g.gid fun g => g.raise f) g a seq addrs (accData g a) hs slots
      let due := a.path ≤ 2 || a.op == AccOp.get
      (if due then s.owe [.event (.memoryReply g.gid seq)] else s, .done)


/-- The order in which a fragment's words become visible holds this one back: it follows a path 6 word, or is itself a
release or a PUT behind one (R267, R272). -/
def Iss.held (x : Iss) (a : Acc) : Bool := x.acquiring || x.g.fenced || (a.path == 6 && x.releasing)

/-- An M-format memory word. -/
def memWord (s : State) (a : Acc) : Outcome :=
  issue s (a.path == 1) fun x =>
    let mask := x.guarded (MAddr.guard a.m)
    if mask == 0 then advance x.s x.is a.len
    else
      let src := x.sources mask
      let reads := MAddr.reads a.m ++ regsFrom a.d.toNat a.nsrc
      if x.g.vsBusy src reads || x.g.vsBusy mask (regsFrom a.d.toNat a.ndst) || x.g.ksBusy [a.m.kbase.toNat] || x.held a then
        (if x.g.fenced then x.s else block x.s x.is .scoreboard)
      else if x.poisoned src reads != 0 then takeTrap x.s x.is 6 (poisonD (x.poisoned src reads))
      else
        let addrs := (upTo 16).map fun i => if src.getLsbD i then MAddr.addr a.m x.g a.w i else 0
        match memIssue x.s x.g a mask x.f.mask x.f.uni addrs with
        | (s, .done) => advance s x.is a.len
        | (_, .wait) => x.s
        | (s, .trap cls d) => takeTrap s x.is cls d
        | (s, .bounds) => match x.g.wave with
          | some sl => waveFault s sl 2
          | none => s

end Sys2Proof.Machine
end

