-- ==== Sys2Proof/Machine/MemWords.lean ====
section
/-! DEFINITION. The memory words, opcodes 0x80 to 0x8F, 0x91, 0x92 and 0xA0 to 0xAF, each as the access that it makes (R239,
R249, R256 to R262). -/

namespace Sys2Proof.Machine

/-- The words of an instruction as issued (R406). -/
def issuedWords (i : Instr) : Word × Word :=
  (BitVec.ofNat 32 ((encode i).headD 0), BitVec.ofNat 32 ((encode i).getD 1 0))

/-- A load or store of w bytes on a path (R239). -/
def lsAcc (i : Instr) (path : Nat) (op : AccOp) (w : Nat) (d : VReg) (m : MAddr) : Acc :=
  { path := path, op := op, w := w, d := d, nsrc := if op == .store then w / 4 else 0, ndst := if op == .load then w / 4 else 0
    m := m, word := (issuedWords i).1, lit := 0 }

/-- PUT or GET (R249). -/
def pgAcc (i : Instr) (op : AccOp) (d : VReg) (m : MAddr) : Acc :=
  { path := 5, op := op, w := 4, d := d, nsrc := if op == .put then 1 else 0, ndst := if op == .get then 1 else 0
    m := m, word := (issuedWords i).1, lit := 0 }

/-- A path 6 word of width w that reads `nsrc` registers and writes `ndst` (R256 to R262). -/
def p6Acc (i : Instr) (op : AccOp) (w nsrc ndst : Nat) (d : VReg) (m : MAddr) : Acc :=
  { path := 6, op := op, w := w, d := d, nsrc := nsrc, ndst := ndst, m := m, word := (issuedWords i).1, lit := (issuedWords i).2 }

/-- The access that an instruction makes; none for one that is no per-thread memory word. -/
def accOf (i : Instr) : Option Acc :=
  match i with
  | .ldlB32 d m => some (lsAcc i 0 .load 4 d m)
  | .ldlB64 d m => some (lsAcc i 0 .load 8 d m)
  | .stlB32 d m => some (lsAcc i 0 .store 4 d m)
  | .stlB64 d m => some (lsAcc i 0 .store 8 d m)
  | .ldsB32 d m => some (lsAcc i 1 .load 4 d m)
  | .ldsB64 d m => some (lsAcc i 1 .load 8 d m)
  | .ldsB128 d m => some (lsAcc i 1 .load 16 d m)
  | .stsB32 d m => some (lsAcc i 1 .store 4 d m)
  | .stsB64 d m => some (lsAcc i 1 .store 8 d m)
  | .stsB128 d m => some (lsAcc i 1 .store 16 d m)
  | .ldxB32 d m => some (lsAcc i 2 .load 4 d m)
  | .ldxB64 d m => some (lsAcc i 2 .load 8 d m)
  | .ldxB128 d m => some (lsAcc i 2 .load 16 d m)
  | .stxB32 d m => some (lsAcc i 2 .store 4 d m)
  | .stxB64 d m => some (lsAcc i 2 .store 8 d m)
  | .stxB128 d m => some (lsAcc i 2 .store 16 d m)
  | .put d m => some (pgAcc i .put d m)
  | .get d m => some (pgAcc i .get d m)
  | .atomAddI32 d m => some (p6Acc i (.atom .addI32) 4 1 1 d m)
  | .atomAddF32 d m => some (p6Acc i (.atom .addF32) 4 1 1 d m)
  | .atomMinI32 d m => some (p6Acc i (.atom .minI32) 4 1 1 d m)
  | .atomMaxI32 d m => some (p6Acc i (.atom .maxI32) 4 1 1 d m)
  | .atomMinN32 d m => some (p6Acc i (.atom .minN32) 4 1 1 d m)
  | .atomMaxN32 d m => some (p6Acc i (.atom .maxN32) 4 1 1 d m)
  | .atomAnd d m => some (p6Acc i (.atom .and) 4 1 1 d m)
  | .atomOr d m => some (p6Acc i (.atom .or) 4 1 1 d m)
  | .atomXor d m => some (p6Acc i (.atom .xor) 4 1 1 d m)
  | .atomXchg d m => some (p6Acc i (.atom .xchg) 4 1 1 d m)
  | .cas d m => some (p6Acc i (.atom .cas) 4 2 1 d m)
  | .casgt d m => some (p6Acc i (.atom .casgt) 4 1 1 d m)
  | .casv d m => some (p6Acc i (.atom .casv) 8 2 2 d m)
  | .caspt d m => some (p6Acc i (.atom .caspt) 8 4 2 d m)
  | .waitc d m x => some (p6Acc i (.waitc x) 4 2 2 d m)
  | .comb d m x => some (p6Acc i (.comb x) 16 2 4 d m)
  | _ => none

/-! ### Loads and stores (R239) -/

def execLdlB32 (d : VReg) (m : MAddr) (s : State) : Outcome := memWord s (lsAcc (.ldlB32 d m) 0 .load 4 d m)
def execLdlB64 (d : VReg) (m : MAddr) (s : State) : Outcome := memWord s (lsAcc (.ldlB64 d m) 0 .load 8 d m)
def execStlB32 (d : VReg) (m : MAddr) (s : State) : Outcome := memWord s (lsAcc (.stlB32 d m) 0 .store 4 d m)
def execStlB64 (d : VReg) (m : MAddr) (s : State) : Outcome := memWord s (lsAcc (.stlB64 d m) 0 .store 8 d m)
def execLdsB32 (d : VReg) (m : MAddr) (s : State) : Outcome := memWord s (lsAcc (.ldsB32 d m) 1 .load 4 d m)
def execLdsB64 (d : VReg) (m : MAddr) (s : State) : Outcome := memWord s (lsAcc (.ldsB64 d m) 1 .load 8 d m)
def execLdsB128 (d : VReg) (m : MAddr) (s : State) : Outcome := memWord s (lsAcc (.ldsB128 d m) 1 .load 16 d m)
def execStsB32 (d : VReg) (m : MAddr) (s : State) : Outcome := memWord s (lsAcc (.stsB32 d m) 1 .store 4 d m)
def execStsB64 (d : VReg) (m : MAddr) (s : State) : Outcome := memWord s (lsAcc (.stsB64 d m) 1 .store 8 d m)
def execStsB128 (d : VReg) (m : MAddr) (s : State) : Outcome := memWord s (lsAcc (.stsB128 d m) 1 .store 16 d m)
def execLdxB32 (d : VReg) (m : MAddr) (s : State) : Outcome := memWord s (lsAcc (.ldxB32 d m) 2 .load 4 d m)
def execLdxB64 (d : VReg) (m : MAddr) (s : State) : Outcome := memWord s (lsAcc (.ldxB64 d m) 2 .load 8 d m)
def execLdxB128 (d : VReg) (m : MAddr) (s : State) : Outcome := memWord s (lsAcc (.ldxB128 d m) 2 .load 16 d m)
def execStxB32 (d : VReg) (m : MAddr) (s : State) : Outcome := memWord s (lsAcc (.stxB32 d m) 2 .store 4 d m)
def execStxB64 (d : VReg) (m : MAddr) (s : State) : Outcome := memWord s (lsAcc (.stxB64 d m) 2 .store 8 d m)
def execStxB128 (d : VReg) (m : MAddr) (s : State) : Outcome := memWord s (lsAcc (.stxB128 d m) 2 .store 16 d m)

/-- PUT (R249, R250). -/
def execPut (d : VReg) (m : MAddr) (s : State) : Outcome := memWord s (pgAcc (.put d m) .put d m)
/-- GET (R249, R250). -/
def execGet (d : VReg) (m : MAddr) (s : State) : Outcome := memWord s (pgAcc (.get d m) .get d m)

/-! ### Atomics and the CAS forms (R256, R258) -/

def execAtomAddI32 (d : VReg) (m : MAddr) (s : State) : Outcome := memWord s (p6Acc (.atomAddI32 d m) (.atom .addI32) 4 1 1 d m)
def execAtomAddF32 (d : VReg) (m : MAddr) (s : State) : Outcome := memWord s (p6Acc (.atomAddF32 d m) (.atom .addF32) 4 1 1 d m)
def execAtomMinI32 (d : VReg) (m : MAddr) (s : State) : Outcome := memWord s (p6Acc (.atomMinI32 d m) (.atom .minI32) 4 1 1 d m)
def execAtomMaxI32 (d : VReg) (m : MAddr) (s : State) : Outcome := memWord s (p6Acc (.atomMaxI32 d m) (.atom .maxI32) 4 1 1 d m)
def execAtomMinN32 (d : VReg) (m : MAddr) (s : State) : Outcome := memWord s (p6Acc (.atomMinN32 d m) (.atom .minN32) 4 1 1 d m)
def execAtomMaxN32 (d : VReg) (m : MAddr) (s : State) : Outcome := memWord s (p6Acc (.atomMaxN32 d m) (.atom .maxN32) 4 1 1 d m)
def execAtomAnd (d : VReg) (m : MAddr) (s : State) : Outcome := memWord s (p6Acc (.atomAnd d m) (.atom .and) 4 1 1 d m)
def execAtomOr (d : VReg) (m : MAddr) (s : State) : Outcome := memWord s (p6Acc (.atomOr d m) (.atom .or) 4 1 1 d m)
def execAtomXor (d : VReg) (m : MAddr) (s : State) : Outcome := memWord s (p6Acc (.atomXor d m) (.atom .xor) 4 1 1 d m)
def execAtomXchg (d : VReg) (m : MAddr) (s : State) : Outcome := memWord s (p6Acc (.atomXchg d m) (.atom .xchg) 4 1 1 d m)
def execCas (d : VReg) (m : MAddr) (s : State) : Outcome := memWord s (p6Acc (.cas d m) (.atom .cas) 4 2 1 d m)
def execCasgt (d : VReg) (m : MAddr) (s : State) : Outcome := memWord s (p6Acc (.casgt d m) (.atom .casgt) 4 1 1 d m)
def execCasv (d : VReg) (m : MAddr) (s : State) : Outcome := memWord s (p6Acc (.casv d m) (.atom .casv) 8 2 2 d m)
def execCaspt (d : VReg) (m : MAddr) (s : State) : Outcome := memWord s (p6Acc (.caspt d m) (.atom .caspt) 8 4 2 d m)

/-- WAITC (R259). -/
def execWaitc (d : VReg) (m : MAddr) (x : Word) (s : State) : Outcome :=
  memWord s (p6Acc (.waitc d m x) (.waitc x) 4 2 2 d m)
/-- COMB (R262). -/
def execComb (d : VReg) (m : MAddr) (x : Word) (s : State) : Outcome :=
  memWord s (p6Acc (.comb d m x) (.comb x) 16 2 4 d m)

end Sys2Proof.Machine
end

