-- ==== Sys2Proof/Machine/Fences.lean ====
section
/-! DEFINITION. The waits, fences and flushes of the memory class, and METHREG (R251 to R255, R261). -/

namespace Sys2Proof.Machine

/-! ### WAITP and FENCE (R251, R252) -/

/-- A word of the memory class, which a fence of the group holds back until it has completed (R252); the held word waits at
issue. -/
def fenceIssue (x : Iss) (k : State) : State := if x.g.fenced then x.s else k

/-- WAITP, once the path's counter is no greater than the threshold. -/
def waitpTry (s : State) (is : Issuer) (g : Group) (path thr : Nat) : Option State :=
  if g.path path ≤ thr then some (advance s is 1) else none

/-- WAITP (R251); on path 5 it drains the group's lines (R218). -/
def execWaitp (p : BitVec 3) (ka : KReg) (g : UGuard) (s : State) : Outcome :=
  issue s false fun x =>
    uniIssue x g 1 [ka.toNat] <| fenceIssue x <|
      let thr := (x.g.kr ka.toNat).toNat
      let s := if p == 5 then drainGroup x.s x.g else x.s
      match waitpTry s x.is x.g p.toNat thr with
      | some s => s
      | none => block s x.is (.waitp p.toNat thr)

/-- A word of the group issued before flight `upto` whose access a fence of a kind comes after has not been performed, or its
reply has not come: for a release every PUT, GET and path 6 word (R252, R267), for an acquire every read (R268). Accesses on
paths 0 to 2 are performed at issue. -/
def accessPending (g : Group) (k : FenceKind) (upto : Nat) : Bool :=
  g.flights.any fun f => !f.done && f.seq < upto && (f.kind == .get || f.path == 6 || (k != .acq && f.kind == .put))

/-- A fence, once the accesses before it have been performed; words that it held go on. -/
def fenceTry (s : State) (is : Issuer) (g : Group) (k : FenceKind) (upto : Nat) : Option State :=
  if accessPending g k upto then none else some (advance (s.modGroup is.gid Group.wakeScore) is 1)

/-- FENCE (R252): it drains the group's lines; one of thread scope then completes. -/
def execFence (k : FenceKind) (sc : Scope) (g : UGuard) (s : State) : Outcome :=
  issue s false fun x =>
    uniIssue x g 1 [] <| fenceIssue x <|
      let s := drainGroup x.s x.g
      if sc == .thread then advance s x.is 1
      else
        match fenceTry s x.is x.g k x.g.nextSeq with
        | some s => s
        | none => block s x.is (.fence k x.g.nextSeq)

/-! ### AFENCE and HFLUSH (R253, R254) -/

/-- Every package's memory-side cache: dirty lines that satisfy `f` are written back, and with `drop` the clean ones go. -/
def flushAll (s : State) (f : CLine → Bool) (wb drop : Bool) : State :=
  s.pkgs.foldl (fun s p =>
    let s := if wb then cleanLines s p.rank f else s
    if drop then dropLines s p.rank f else s) s

/-- AFENCE, once the group's earlier accesses have been performed: the context's lines are written through every memory-side
cache, and later reads fetch them again (R230, R253). -/
def afenceTry (s : State) (is : Issuer) (g : Group) (upto : Nat) : Option State :=
  if accessPending g .full upto then none
  else
    some (advance ((flushAll s (fun c => c.ctx == g.ctx) true true).modGroup is.gid Group.wakeScore) is 1)

/-- AFENCE (R253). -/
def execAfence (g : UGuard) (s : State) : Outcome :=
  issue s false fun x =>
    uniIssue x g 1 [] <| fenceIssue x <|
      let s := drainGroup x.s x.g
      match afenceTry s x.is x.g x.g.nextSeq with
      | some s => s
      | none => block s x.is (.afence x.g.nextSeq)

/-- Bytes of the group in a line of the range are still in the buffer or on their way (R254). -/
def rangePending (s : State) (g : Group) (va len : Nat) : Bool :=
  let hit (a : Nat) : Bool := a + 256 > va && a < va + len
  ((s.core g.core).wcb.any fun l => l.ctx == g.ctx && hit l.va && (l.last.get g.gid).isSome) ||
    s.fab.xfers.any fun x => x.ctx == g.ctx && hit x.va && !x.applied && (x.last.get g.gid).isSome

/-- HFLUSH, once the group's own bytes in the range have been applied (R232, R254). -/
def hflushTry (s : State) (is : Issuer) (g : Group) (k : FlushKind) (va len : Nat) : Option State :=
  if k != .inv && rangePending s g va len then none
  else some (advance (flushAll s (inRange g.ctx va len) (k != .inv) (k != .wb)) is 1)

/-- HFLUSH (R254): its checks in their order, then the range widened to whole lines. -/
def execHflush (k : FlushKind) (ka kb : KReg) (g : UGuard) (s : State) : Outcome :=
  issue s false fun x =>
    uniIssue x g 1 [ka.toNat, kb.toNat] <| fenceIssue x <|
      let a := x.g.kr ka.toNat
      let n := (x.g.kr kb.toNat).toNat
      if 2 ^ 40 < n then illegal x causeOperand
      else if !canonical a then takeTrap x.s x.is 5 (faultD (a.toNat, ⟨5, 6⟩) 0)
      else if n == 0 then advance x.s x.is 1
      else
        let va := lineBase a.toNat
        let len := lineBase (a.toNat + n + 255) - va
        let s := if k == .inv then x.s
          else drainLines x.s x.g.core fun l => l.ctx == x.g.ctx && l.va + 256 > va && l.va < va + len && (l.last.get x.g.gid).isSome
        match hflushTry s x.is x.g k va len with
        | some s => s
        | none => block s x.is (.hflush k va len)

/-! ### DWFENCE (R255) -/

/-- The home slices of a package. -/
def slicesOf (rank : Nat) : List SliceId := (upTo 128).map fun n => ⟨rank, n⟩

/-- A path 6 word of the group is still on its way to its slice or in its input queue (R255). -/
def entering (s : State) (gid : Nat) : Bool :=
  (s.pkgs.any fun p => p.slices.any fun q => q.2.queue.any fun r => r.gid == gid) || s.fab.reqs.any fun r => r.req.gid == gid

/-- DWFENCE, once every slice that it addressed has acknowledged the close. -/
def dwfenceTry (s : State) (is : Issuer) (id : Nat) : Option State :=
  if s.sliceWaits.any fun w => w.id == id && w.slices != [] then none
  else some (advance { s with sliceWaits := s.sliceWaits.filter fun w => w.id != id } is 1)

/-- DWFENCE, once the group's path 6 words have entered their windows: the grid's windows close at every slice of its package
and of the peers of its peer map. In a grid that is not deterministic it completes once those words are answered. -/
def dwenterTry (s : State) (is : Issuer) (g : Group) : Option State :=
  match s.grid? g.grid with
  | none => none
  | some gr =>
    if !gr.det then
      if g.flights.any fun f => !f.done && f.path == 6 then none else some (advance s is 1)
    else if entering s g.gid then none
    else
      let (id, s) := s.gensym
      let sls := (g.rank :: gr.peers.filter fun r => r != g.rank && (s.pkg? r).isSome).flatMap slicesOf
      let w : SliceWait := { id := id, gid := g.gid, ctx := g.ctx, grid := gr.id, slices := sls, method := 0, entry := none }
      let s := { s with sliceWaits := s.sliceWaits ++ [w] }
      some ((block s is (.dwfence id)).owe (sls.map fun sl => .event (.dwfenceSliceClose id sl)))

/-- DWFENCE (R255), a blocking word from its issue on (R41). -/
def execDwfence (g : UGuard) (s : State) : Outcome :=
  issue s false fun x =>
    uniIssue x g 1 [] <| fenceIssue x <|
      match dwenterTry x.s x.is x.g with
      | some s => s
      | none => block x.s x.is .dwenter

/-! ### METHREG (R261) -/

/-- METHREG, once all home slices of the package hold the new entry. -/
def methregTry (s : State) (is : Issuer) (id : Nat) : Option State :=
  if s.sliceWaits.any fun w => w.id == id && w.slices != [] then none
  else some (advance { s with sliceWaits := s.sliceWaits.filter fun w => w.id != id } is 2)

/-- METHREG (R261). -/
def execMethreg (ka : KReg) (x : Word) (g : UGuard) (s : State) : Outcome :=
  issue s false fun i =>
    uniIssue i g 2 [ka.toNat] <| fenceIssue i <|
      let n := x.toNat
      let size := bitsOf n 6 5
      let a := i.g.kr ka.toNat
      let remove := bitOf n 11
      if !remove && (!headerAddr a || size == 0 || 16 < size) then illegal i causeOperand
      else
        let (id, s) := i.s.gensym
        let w : SliceWait :=
          { id := id, gid := i.g.gid, ctx := i.g.ctx, grid := i.g.grid, slices := slicesOf i.g.rank, method := bitsOf n 0 6
            entry := if remove then none else some ⟨a, 16 * size⟩ }
        let s := { s with sliceWaits := s.sliceWaits ++ [w] }
        (block s i.is (.methreg id)).owe (w.slices.map fun sl => .event (.methregSliceUpdate id sl))

end Sys2Proof.Machine
end

