-- ==== Sys2Proof/Machine/ThreadFp.lean ====
section
/-! DEFINITION. The thread-class floating-point, conversion, transcendental and random words (R103, R107 to R115). -/

namespace Sys2Proof.Machine

/-- The value of v n in a slot as a number of a format; a narrow format takes the low bits (R68). -/
def Thread.val (t : Thread) (f : CvtFmt) (n : VReg) : Val := valOf f ((t.v n.toNat).toNat % 2 ^ f.width)

/-- A word d ← f(a, b) with conditions. -/
def fw2 (s : State) (d a b : VReg) (g : Guard) (f : Thread → Nat × Conds) : Outcome :=
  issue s true fun x => threadWord x g 1 [a.toNat, b.toNat] [d.toNat] fun _ _ t => .valC d (f t)
/-- A word d ← f(a, b, d) with conditions. -/
def fw3 (s : State) (d a b : VReg) (g : Guard) (f : Thread → Nat × Conds) : Outcome :=
  issue s true fun x => threadWord x g 1 [a.toNat, b.toNat, d.toNat] [d.toNat] fun _ _ t => .valC d (f t)
/-- A word d ← f(a) with conditions. -/
def fw1 (s : State) (d a : VReg) (g : Guard) (f : Thread → Nat × Conds) : Outcome :=
  issue s true fun x => threadWord x g 1 [a.toNat] [d.toNat] fun _ _ t => .valC d (f t)

/-- The three-operand FP32 word (R107). -/
def execFadd (rm : Rm) (d a b : VReg) (g : Guard) (s : State) : Outcome :=
  fw2 s d a b g fun t => faddF .f32 rm (t.val .f32 a) (t.val .f32 b)
def execFsub (rm : Rm) (d a b : VReg) (g : Guard) (s : State) : Outcome :=
  fw2 s d a b g fun t => faddF .f32 rm (t.val .f32 a) (t.val .f32 b).neg
def execFmul (rm : Rm) (d a b : VReg) (g : Guard) (s : State) : Outcome :=
  fw2 s d a b g fun t => fmulF .f32 rm (t.val .f32 a) (t.val .f32 b)
def execFfma (rm : Rm) (d a b : VReg) (g : Guard) (s : State) : Outcome :=
  fw3 s d a b g fun t => ffmaF .f32 rm (t.val .f32 a) (t.val .f32 b) (t.val .f32 d)
def execFminmax (op : MinMax) (d a b : VReg) (g : Guard) (s : State) : Outcome :=
  fw2 s d a b g fun t => fminmaxF .f32 op (t.v a.toNat).toNat (t.v b.toNat).toNat

/-- FCMP (R103): one predicate, with its conditions. -/
def execFcmp (f : FFmt) (c : FCond) (p : PReg) (a b : VReg) (g : Guard) (s : State) : Outcome :=
  issue s true fun x => threadWord x g 1 [a.toNat, b.toNat] [] fun _ _ t =>
    let r := fcmpF c (t.val f.cvt a) (t.val f.cvt b)
    { TRes.pred p r.1 with conds := r.2 }

/-- The one-operand forms read a alone (R108). -/
def execFsign (op : FSignOp) (d a b : VReg) (g : Guard) (s : State) : Outcome :=
  if op == .copysign then fw2 s d a b g fun t => fsignF op (t.v a.toNat).toNat (t.v b.toNat).toNat
  else fw1 s d a g fun t => fsignF op (t.v a.toNat).toNat 0

/-! ### Half forms (R110) -/

/-- The half j of v n, as a number of the format. -/
def Thread.half (t : Thread) (f : HFmt) (n : VReg) (j : Nat) : Val := valOf f.cvt (bitsOf (t.v n.toNat).toNat (16 * j) 16)
/-- The code of half j of v n. -/
def Thread.halfCode (t : Thread) (n : VReg) (j : Nat) : Nat := bitsOf (t.v n.toNat).toNat (16 * j) 16

/-- Both halves computed, their conditions together. -/
def bothHalves (f : Nat → Nat × Conds) : Nat × Conds := ((f 0).1 + (f 1).1 * 2 ^ 16, (f 0).2.or (f 1).2)

def execPadd2 (f : HFmt) (d a b : VReg) (g : Guard) (s : State) : Outcome :=
  fw2 s d a b g fun t => bothHalves fun j => faddF f.cvt .rne (t.half f a j) (t.half f b j)
def execPmul2 (f : HFmt) (d a b : VReg) (g : Guard) (s : State) : Outcome :=
  fw2 s d a b g fun t => bothHalves fun j => fmulF f.cvt .rne (t.half f a j) (t.half f b j)
def execPfma2 (f : HFmt) (d a b : VReg) (g : Guard) (s : State) : Outcome :=
  fw3 s d a b g fun t => bothHalves fun j => ffmaF f.cvt .rne (t.half f a j) (t.half f b j) (t.half f d j)
def execPminmax2 (f : HFmt) (op : MinMax) (d a b : VReg) (g : Guard) (s : State) : Outcome :=
  fw2 s d a b g fun t => bothHalves fun j => fminmaxF f.cvt op (t.halfCode a j) (t.halfCode b j)
def execHadd (f : HFmt) (d a b : VReg) (g : Guard) (s : State) : Outcome :=
  fw2 s d a b g fun t => faddF f.cvt .rne (t.half f a 0) (t.half f b 0)
def execHmul (f : HFmt) (d a b : VReg) (g : Guard) (s : State) : Outcome :=
  fw2 s d a b g fun t => fmulF f.cvt .rne (t.half f a 0) (t.half f b 0)
def execHfma (f : HFmt) (d a b : VReg) (g : Guard) (s : State) : Outcome :=
  fw3 s d a b g fun t => ffmaF f.cvt .rne (t.half f a 0) (t.half f b 0) (t.half f d 0)

/-! ### Conversions (R111 to R113) -/

def execCvt (src dst : CvtFmt) (rm : Rm) (d a : VReg) (g : Guard) (s : State) : Outcome :=
  fw1 s d a g fun t => convert src dst rm ((t.v a.toNat).toNat % 2 ^ src.width)

/-- The format of pack and unpk as cvt names it (R64). -/
def packCvt (f : PackFmt) : CvtFmt :=
  match f with
  | .e4m3 => .e4m3
  | .e5m2 => .e5m2
  | .l6 => .l6
  | .bf16 => .bf16

/-- The three words of an L6 group from v n (R74). -/
def Thread.group3 (t : Thread) (n : VReg) : Nat :=
  (t.v n.toNat).toNat + (t.v (n.toNat + 1)).toNat * 2 ^ 32 + (t.v (n.toNat + 2)).toNat * 2 ^ 64

/-- PACK (R112): what the destination register or group holds after it, and the conditions. -/
def packFn (f : PackFmt) (x y : Word) (old : Nat) : Nat × Conds :=
  let cx := convert .f32 (packCvt f) .rne x.toNat
  let cy := convert .f32 (packCvt f) .rne y.toNat
  (match f with
    | .bf16 => cy.1 * 2 ^ 16 + cx.1
    | .e4m3 | .e5m2 => cy.1 * 2 ^ 24 + cx.1 * 2 ^ 16 + old / 2 ^ 16
    | .l6 => cy.1 * 2 ^ 90 + cx.1 * 2 ^ 84 + old / 2 ^ 12, cx.2.or cy.2)

/-- PACK (R112). -/
def execPack (f : PackFmt) (d a b : VReg) (g : Guard) (s : State) : Outcome :=
  issue s true fun x =>
    let ds := regsFrom d.toNat (if f == .l6 then 3 else 1)
    threadWord x g 1 ([a.toNat, b.toNat] ++ if f == .bf16 then [] else ds) ds fun _ _ t =>
      let old := if f == .l6 then t.group3 d else (t.v d.toNat).toNat
      let r := packFn f (t.v a.toNat) (t.v b.toNat) old
      { v := ds.mapIdx fun i n => (n, BitVec.ofNat 32 (r.1 / 2 ^ (32 * i))), p := none, rng := none, conds := r.2 }

/-- The element of UNPK (R113). -/
def unpkCode (t : Thread) (f : PackFmt) (j : Nat) (a : VReg) : Nat :=
  match f with
  | .bf16 => bitsOf (t.v a.toNat).toNat (16 * j) 16
  | .e4m3 | .e5m2 => bitsOf (t.v a.toNat).toNat (8 * j) 8
  | .l6 => bitsOf (t.group3 a) (6 * j) 6

/-- UNPK (R113): exact, and only invalid can be raised. -/
def execUnpk (f : PackFmt) (j : BitVec 6) (d a : VReg) (g : Guard) (s : State) : Outcome :=
  issue s true fun x =>
    threadWord x g 1 (regsFrom a.toNat (if f == .l6 then 3 else 1)) [d.toNat] fun _ _ t =>
      let r := convert (packCvt f) .f32 .rne (unpkCode t f j.toNat a)
      .valC d (r.1, Conds.invIf r.2.invalid)

def execFrnd (rm : Rm) (d a : VReg) (g : Guard) (s : State) : Outcome :=
  fw1 s d a g fun t => frndF rm (t.v a.toNat).toNat
def execFspec (fn : Fn) (gr : Grade) (f : FFmt) (d a : VReg) (g : Guard) (s : State) : Outcome :=
  fw1 s d a g fun t => fspecF fn gr f ((t.v a.toNat).toNat % 2 ^ f.cvt.width)

/-! ### Random numbers (R115) -/

/-- One step of the generator: the new state and the value returned (R115). -/
def randStep (s0 s1 : DWord) : (DWord × DWord) × DWord :=
  let x := s0 ^^^ (s0 <<< 23)
  let n := x ^^^ s1 ^^^ (x >>> 17) ^^^ (s1 >>> 26)
  ((s1, n), n + s1)

/-- RAND (R115). A combiner method may not use it (R301). -/
def execRand (k : RandKind) (d : VReg) (g : Guard) (s : State) : Outcome :=
  issue s false fun x =>
    threadWord x g 1 [] [d.toNat] fun _ _ t =>
      let r := randStep t.s0 t.s1
      let v : Nat := match k with
        | .b32 => r.2.toNat / 2 ^ 32
        | .f32 => (toFmt .f32 .rne (.num false (r.2.toNat / 2 ^ 40) (-24))).1
      { v := [(d.toNat, BitVec.ofNat 32 v)], p := none, rng := some r.1, conds := Conds.none }

end Sys2Proof.Machine
end

