-- ==== Sys2Proof/Machine/Matrix.lean ====
section
/-! DEFINITION. The matrix engine: the sums of MMA (R79 to R86), the words of its FIFO at issue (R181 to R193), MRAMP (R197),
and the engine's steps (R190, R193). -/

namespace Sys2Proof.Machine

/-! ### The sums of MMA (R82 to R86) -/

/-- An operand format as cvt names it. -/
def MmaFmt.cvt : MmaFmt → CvtFmt
  | .e4m3 => .e4m3 | .e5m2 => .e5m2 | .l6 => .l6 | .bf16 => .bf16 | .f16 => .f16 | .i8 => .i32

/-- K (R186). -/
def MmaFmt.depth : MmaFmt → Nat
  | .bf16 => 32 | .f16 => 32
  | .e4m3 | .e5m2 | .l6 | .i8 => 64

/-- FMT that t[TB] must have (R186). -/
def MmaFmt.tile : MmaFmt → Nat
  | .e4m3 => 4 | .e5m2 => 5 | .l6 => 6 | .i8 => 7 | .bf16 => 2 | .f16 => 3

/-- A registers per slot (R186). -/
def MmaFmt.aregs (f : MmaFmt) : Nat := if f == .l6 then 12 else 16

/-- Bits of an element. -/
def MmaFmt.bits : MmaFmt → Nat
  | .l6 => 6
  | .bf16 => 16 | .f16 => 16
  | .e4m3 | .e5m2 | .i8 => 8

/-- Element k of packed little-endian bytes (R74, R81). -/
def elemOf (f : MmaFmt) (bs : List Byte) (k : Nat) : Nat :=
  if f == .l6 then bitsOf (ofBytesLE ((bs.drop (k / 16 * 12)).take 12)) (6 * (k % 16)) 6
  else ofBytesLE ((bs.drop (k * (f.bits / 8))).take (f.bits / 8))

/-- An operand's value: under NBV 1, subnormal FP8 operands read as zero of the same sign (R86). -/
def mmaVal (f : MmaFmt) (nbv x : Nat) : Val :=
  if nbv == 1 && (f == .e4m3 || f == .e5m2) && isTinyCode f.cvt x then .num (bitOf x 7) 0 0 else valOf f.cvt x

/-- An L6 product (R82): the exponents add, and one constant of T stands for the product of two. -/
def l6Product (a b : Nat) : Val :=
  if a % 32 == 0 || b % 32 == 0 then .num (bitOf a 5 != bitOf b 5) 0 0
  else
    let l : Int := ((a % 32 : Nat) : Int) + (b % 32 : Nat) - 32
    .num (bitOf a 5 != bitOf b 5) (l6T (l % 4).toNat) (l / 4 - 15)

/-- The exact product of two operands (R82). -/
def mmaProduct (f : MmaFmt) (nbv a b : Nat) : Val :=
  if f == .l6 then l6Product a b else mulVal (mmaVal f nbv a) (mmaVal f nbv b)

/-- What a chunk of products sums to (R83, R84): a signed multiple of 2^lsb, or a special value. -/
inductive Chunk where
  | nan
  | inf (neg : Bool)
  | sum (s lsb : Int)
  deriving DecidableEq, Repr

/-- Window width W and chunk size n of a version (R86). -/
def nbvWidth (nbv : Nat) : Nat := if nbv == 3 then 25 else 22
def nbvChunk (nbv : Nat) : Nat := if nbv == 1 then 8 else 16

/-- floor(log2 |p|) of a non-zero number. -/
def valTop : Val → Int
  | .num _ m e => (Nat.log2 m : Nat) + e
  | _ => 0

/-- sign(p) × floor(|p| / 2^lsb) (R83). -/
def valAlign (lsb : Int) : Val → Int
  | .num n m e => signedMag n (if lsb ≤ e then m * 2 ^ (e - lsb).toNat else m / 2 ^ (lsb - e).toNat)
  | _ => 0

/-- The sum of a chunk's products (R83, R84). -/
def chunkSum (nbv : Nat) (ps : List Val) : Chunk :=
  let pos := ps.any fun p => p == .inf false
  let neg := ps.any fun p => p == .inf true
  if (ps.any Val.isNan) || (pos && neg) then .nan
  else if pos || neg then .inf neg
  else
    match ps.filter fun p => !p.isZero with
    | [] => .sum 0 0
    | p :: r =>
      let top := r.foldl (fun m q => max m (valTop q)) (valTop p)
      let lsb := top - ((nbvWidth nbv - 2 - Nat.log2 (nbvChunk nbv) : Nat) : Int)
      .sum ((ps.map fun q => valAlign lsb q).sum) lsb

/-- The accumulator word after one chunk (R83, R84); `scale` is the quarter exponent S when SCL = 1. -/
def accumulate (acc : Word) (scale : Option Int) (c : Chunk) : Word :=
  let a := valOf .f32 acc.toNat
  match c with
  | .nan => BitVec.ofNat 32 CvtFmt.f32.nan
  | .inf n => BitVec.ofNat 32 (faddF .f32 .rne a (.inf n)).1
  | .sum s lsb =>
    if s == 0 || a.isNan || a.isInf then acc
    else
      let v : Val := match scale with
        | none => .num (s < 0) s.natAbs lsb
        | some q => .num (s < 0) (s.natAbs * l6T (q % 4).toNat) (lsb + q / 4 - 15)
      BitVec.ofNat 32 (toFmt .f32 .rne (sumVal .rne a v)).1

/-- A list cut into chunks of n, with fuel. -/
def chunksOf {α : Type} (n : Nat) : Nat → List α → List (List α)
  | 0, _ => []
  | _, [] => []
  | fuel + 1, l => l.take n :: chunksOf n fuel (l.drop n)

/-- One accumulator word after an MMA, from the operand codes in increasing k (R83, R85). -/
def mmaWord (f : MmaFmt) (nbv : Nat) (scale : Option Int) (acc : Word) (ab : List (Nat × Nat)) : Word :=
  if f == .i8 then acc + BitVec.ofInt 32 ((ab.map fun x => toSigned 8 x.1 * toSigned 8 x.2).sum)
  else
    (chunksOf (nbvChunk nbv) 8 (ab.map fun x => mmaProduct f nbv x.1 x.2)).foldl
      (fun z ps => accumulate z scale (chunkSum nbv ps)) acc

/-! ### Tiles and regions -/

/-- Address of word (i, c) of tile z among the team's tiles (R181). -/
def accAddr (z i c : Nat) : Nat := 16384 * z + 1024 * i + 4 * c

/-- The bytes of a region's row, with their poison marks. -/
def Tile.row (t : Tile) (sh : Ram) (r : Nat) : List PByte := sh.readP (t.base + r * t.pitch) t.rowBytes

/-- Every row and column of a tile that the engine works on. -/
def cells (n : Nat) : List (Nat × Nat) := (upTo 16).flatMap fun i => (upTo n).map fun c => (i, c)

/-- MMA in the engine (R188); a poisoned operand marks every word it adds into (R416). -/
def runMma (t : Team) (f : MmaFmt) (z : Nat) (b : QWord) (nbv : Nat) (a : List (List Word)) (ca cb : List Nat) (scl abad : Bool) :
    Team :=
  let d := tileOf b
  let rows := (upTo f.depth).map fun k => d.row t.shared k
  let bad := abad || rows.any fun r => r.any (·.2)
  let brow := rows.map fun r => r.map (·.1)
  let word (i c : Nat) : Word :=
    let scale := if scl then some (((ca.getD i 128 : Nat) : Int) - 128 + ((cb.getD c 128 : Nat) : Int) - 128) else none
    let arow := bytesOf (a.getD i [])
    mmaWord f nbv scale (t.acc.bytes.word (accAddr z i c))
      ((upTo f.depth).map fun k => (elemOf f arow k, elemOf f (brow.getD k []) c))
  let step (m : Ram) (x : Nat × Nat) : Ram :=
    let at_ := accAddr z x.1 x.2
    let was := m.bad 4 at_ 4
    m.writeP at_ ((wordBytes (word x.1 x.2)).map fun y => (y, bad || was))
  { t with acc := (cells d.cols).foldl step t.acc }

/-- MZERO (R192). -/
def runMzero (t : Team) (z : Nat) : Team := { t with acc := t.acc.writeP (16384 * z) (sound (List.replicate 16384 0)) }

/-- MLD (R192). -/
def runMld (t : Team) (z : Nat) (d : Tile) : Team :=
  { t with acc := (upTo 16).foldl (fun m i => m.writeP (accAddr z i 0) (d.row t.shared i)) t.acc }

/-- MST (R192). -/
def runMst (t : Team) (z : Nat) (d : Tile) : Team :=
  { t with shared := (upTo 16).foldl (fun m i => m.writeP (d.base + i * d.pitch) (t.acc.readP (accAddr z i 0) d.rowBytes)) t.shared }

/-- An output format of MDRAIN as cvt names it. -/
def drainCvt : DrainFmt → CvtFmt
  | .f32 => .f32 | .bf16 => .bf16 | .f16 => .f16 | .e4m3 => .e4m3 | .e5m2 => .e5m2

/-- The bytes that MDRAIN writes for one word of the tile (R192). -/
def drainBytes (f : DrainFmt) (w : Word) (bad : Bool) : List PByte :=
  (bytesLE ((drainCvt f).width / 8) (if f == .f32 then w.toNat else (convert .f32 (drainCvt f) .rne w.toNat).1)).map fun b => (b, bad)

/-- MDRAIN in the engine (R192): the team after it, and m. -/
def runDrain (t : Team) (f : DrainFmt) (z : Nat) (d : Tile) (clr : Bool) : Team × Nat :=
  let words (i : Nat) : List (Word × Bool) := (upTo d.cols).map fun c =>
    (t.acc.bytes.word (accAddr z i c), t.acc.bad 4 (accAddr z i c) 4)
  let out := (upTo 16).foldl (fun m i =>
    m.writeP (d.base + i * d.pitch) ((words i).flatMap fun w => drainBytes f w.1 w.2)) t.shared
  let m := ((upTo 16).flatMap words).foldl (fun m w => max m (bitsOf w.1.toNat 0 31)) 0
  let acc := if clr then
      (upTo 16).foldl (fun r i => r.writeP (accAddr z i 0) (sound (List.replicate (4 * d.cols) 0))) t.acc
    else t.acc
  ({ t with shared := out, acc := acc }, m)

/-! ### Posting (R182 to R187) -/

/-- Posts a matrix entry and raises path 7; it waits while the FIFO, the footprint unit or the counter is full (R182, R183,
R214, R312). -/
def postMatrix (x : Iss) (s : State) (work : MWork) (bar : Option BReg) (foe : Bool) (spans : List Span) : State :=
  let core := x.g.core
  if 32 ≤ (s.core core).fifo.length || x.g.pathFull 7 || (foe && unitFull s core) then x.s
  else
    let (id, s) := s.gensym
    let e : MEntry :=
      { id := id, gid := x.is.gid, tid := x.g.tid, seq := x.g.nextSeq, work := work, bar := bar, foe := foe
        level := x.g.level.toNat, spans := spans
        preds := if foe then unitPreds s core spans else [], phase := .posted }
    let s := s.modCore core fun c => { c with fifo := c.fifo ++ [e] }
    let s := s.modGroup x.is.gid fun g => g.raise (.plain 7 .matrix x.f.mask x.f.mask id)
    advance (s.owe [.event (.matrixEntryStart core)]) x.is 1

/-- The region of a tile lies within the team's shared allotment (R187, R192). -/
def Tile.inShared (d : Tile) (t : Team) : Bool := d.endOf ≤ 4096 * t.holding

/-- The shape that the matrix words take: a number of columns from 16 to 256, aligned, in shared memory (R187, R192). -/
def Tile.matrixOk (d : Tile) (t : Team) : Bool :=
  d.ok && d.space == 0 && d.cols % 16 == 0 && d.cols ≤ 256 && d.planes == 1 && d.base % 16 == 0 && d.pitch % 16 == 0 &&
    d.inShared t

/-- The span of a descriptor in the team's shared memory. -/
def Tile.sharedSpan (d : Tile) (tid : Nat) (write : Bool) : Span := spanOf (0, tid) d.base d.endOf write

/-- What an MMA does to the operand latches of its engine (R189); a latch holds what the registers hold. -/
def useLatch (c : Core) (gid va n : Nat) (vals : List (List Word)) (ru : Bool) : Core :=
  let mine := c.latches.filter fun l => l.gid == gid
  let rest := c.latches.filter fun l => l.gid != gid
  let l : Latch := ⟨gid, va, n, vals⟩
  if !ru then { c with latches := rest }
  else if mine.any fun m => m.va == va && m.count == n then { c with latches := rest ++ [l] }
  else { c with latches := (if 4 ≤ rest.length then rest.drop 1 else rest) ++ [l] }

/-- The scale bytes of an MMA with SCL = 1 (R80): ca by row, cb by column. -/
def mmaScales (g : Group) (scl : Option (VReg × BitVec 2)) (n : Nat) : List Nat × List Nat :=
  match scl with
  | none => ([], [])
  | some (vs, sb) =>
    let byte (slot reg b : Nat) : Nat := bitsOf ((g.thread slot).v reg).toNat (8 * b) 8
    ((upTo 16).map fun i => byte i (vs.toNat + 4) sb.toNat,
      (upTo n).map fun c => byte (c % 16) (vs.toNat + c / 64) (c / 16 % 4))

/-- The registers that an MMA reads in every slot (R80, R186). -/
def mmaRegs (f : MmaFmt) (va : VReg) (scl : Option (VReg × BitVec 2)) : List Nat :=
  regsFrom va.toNat f.aregs ++ match scl with
    | none => []
    | some (vs, _) => regsFrom vs.toNat 5

/-- MMA (R186 to R190): its checks in the order of R187, then its operands are captured and its entry posted. -/
def mma (f : MmaFmt) (z tb : XReg) (va : VReg) (scl : Option (VReg × BitVec 2)) (ru : Bool) (s : State) : Outcome :=
  issue s false fun x =>
    match x.s.team? x.g.tid with
    | none => x.s
    | some t =>
      let q := x.g.tr tb
      let d := tileOf q
      if x.f.mask != 0xFFFF then takeTrap x.s x.is 3 ⟨0, 0, 0⟩
      else if t.tiles ≤ z.toNat then illegal x causeResource
      else if !(d.matrixOk t && d.fmt == f.tile && d.rows == f.depth && d.rowBytes ≤ d.pitch) then illegal x causeTile
      else if x.g.vsBusy 0xFFFF (mmaRegs f va scl) then block x.s x.is .scoreboard
      else
        let a := (upTo 16).map fun i => (upTo f.aregs).map fun r => (x.g.thread i).v (va.toNat + r)
        let abad := x.poisoned 0xFFFF (mmaRegs f va scl) != 0
        let sc := mmaScales x.g scl d.cols
        let s := x.s.modCore x.g.core fun c => useLatch c x.is.gid va.toNat f.aregs a ru
        postMatrix x s (.mma f z.toNat q x.g.nbv a sc.1 sc.2 scl.isSome abad) none true [d.sharedSpan x.g.tid false]

def execMmaE4m3 (z tb : XReg) (va : VReg) (scl : Option (VReg × BitVec 2)) (ru : Bool) (s : State) : Outcome :=
  mma .e4m3 z tb va scl ru s
def execMmaE5m2 (z tb : XReg) (va : VReg) (scl : Option (VReg × BitVec 2)) (ru : Bool) (s : State) : Outcome :=
  mma .e5m2 z tb va scl ru s
def execMmaL6 (z tb : XReg) (va : VReg) (scl : Option (VReg × BitVec 2)) (ru : Bool) (s : State) : Outcome :=
  mma .l6 z tb va scl ru s
def execMmaI8 (z tb : XReg) (va : VReg) (ru : Bool) (s : State) : Outcome := mma .i8 z tb va none ru s
def execMmaBf16 (z tb : XReg) (va : VReg) (ru : Bool) (s : State) : Outcome := mma .bf16 z tb va none ru s
def execMmaF16 (z tb : XReg) (va : VReg) (ru : Bool) (s : State) : Outcome := mma .f16 z tb va none ru s

/-- A word on a z register, with the team it belongs to (R181). -/
def tileWord (s : State) (z : XReg) (k : Iss → Team → State) : Outcome :=
  issue s false fun x =>
    match x.s.team? x.g.tid with
    | none => x.s
    | some t => if t.tiles ≤ z.toNat then illegal x causeResource else k x t

/-- The checks of R192 on a descriptor, with the formats that a word takes. Of several checks of one word that fail, the z
register's comes first, then the descriptor's, then that of the address (log 63). -/
def moveOk (d : Tile) (t : Team) (fmts : List Nat) : Bool := d.matrixOk t && d.rows == 16 && fmts.contains d.fmt

/-- MZERO (R191, R192). -/
def execMzero (z : XReg) (bar : Option BReg) (s : State) : Outcome :=
  tileWord s z fun x _ => postMatrix x x.s (.mzero z.toNat) bar false []

/-- MLD (R191, R192). -/
def execMld (z ta : XReg) (f : Compl) (s : State) : Outcome :=
  tileWord s z fun x t =>
    let q := x.g.tr ta
    if !moveOk (tileOf q) t [1, 9, 10] then illegal x causeTile
    else postMatrix x x.s (.mld z.toNat q) f.bar f.foe [(tileOf q).sharedSpan x.g.tid false]

/-- MST (R191, R192). -/
def execMst (ta z : XReg) (f : Compl) (s : State) : Outcome :=
  tileWord s z fun x t =>
    let q := x.g.tr ta
    if !moveOk (tileOf q) t [1, 9, 10] then illegal x causeTile
    else postMatrix x x.s (.mst q z.toNat) f.bar f.foe [(tileOf q).sharedSpan x.g.tid true]

/-- FMT that an output format of MDRAIN requires (R179, R192). -/
def drainTile : DrainFmt → Nat
  | .f32 => 1 | .bf16 => 2 | .f16 => 3 | .e4m3 => 4 | .e5m2 => 5

/-- MDRAIN (R191 to R193): with AMX, k[KX] is read at issue and must be the aligned, canonical address of a word. -/
def execMdrain (fmt : DrainFmt) (ta z : XReg) (kx : Option XReg) (clr : Bool) (f : Compl) (s : State) : Outcome :=
  tileWord s z fun x t =>
    let q := x.g.tr ta
    let amx := kx.map fun k => x.g.kr k.toNat
    if !moveOk (tileOf q) t [drainTile fmt] then illegal x causeTile
    else if x.g.ksBusy (kx.toList.map fun k => k.toNat) then block x.s x.is .scoreboard
    else if amx.any fun a => a.toNat % 4 != 0 || !canonical a then illegal x causeOperand
    else
      postMatrix x x.s (.mdrain fmt q z.toNat (amx.map fun a => a.toNat) clr) f.bar f.foe
        [(tileOf q).sharedSpan x.g.tid true]

/-- MRAMP (R197): the core's ramp target in active cycles a window; the hold of 64 windows begins after the present one (log
62). -/
def execMramp (n : BitVec 5) (g : UGuard) (s : State) : Outcome :=
  issue s false fun x =>
    uniIssue x g 1 [] <|
      advance (x.s.modCore x.g.core fun c => { c with ramp := 100 * n.toNat, quiet := 0, began := true }) x.is 1

/-! ### The engine's steps (R190, R193) -/

/-- Engine cycles of an entry at full rate (R186, R191). -/
def MWork.cycles : MWork → Nat
  | .mma f _ b _ _ _ _ _ _ => ((tileOf b).cols + (if f == .l6 then 31 else 15)) / (if f == .l6 then 32 else 16)
  | .mzero _ => 4
  | .mld _ d => 2 * (tileOf d).cols / 16
  | .mst d _ => 2 * (tileOf d).cols / 16
  | .mdrain _ d _ _ _ => 2 * (tileOf d).cols / 16

/-- An entry occupies the engine. -/
def MEntry.works (e : MEntry) : Bool := match e.phase with
  | .running _ => true
  | .posted | .drained _ | .merging _ _ => false

/-- The engine works on an entry. -/
def Core.works (c : Core) : Bool := c.fifo.any MEntry.works

/-- MATRIX_ENTRY_START (R182, R190, R313): the first posted entry starts once the engine is free and no edge holds it. -/
def execMatrixEntryStart (core : CoreId) (s : State) : Outcome :=
  let c := s.core core
  match c.fifo.find? fun e => e.phase == .posted with
  | none => .next s
  | some e =>
    if c.works || (e.preds.any fun p => inFlight s p) then .next (s.owe [.event (.matrixEntryStart core)])
    else
      let s := s.modCore core fun c =>
        { c with began := true
                 fifo := modWhere (fun x => x.id == e.id) (fun x => { x with phase := .running e.work.cycles }) c.fifo }
      .next (s.owe [.event (.matrixEntryComplete core), .event (.matrixEntryStart core)])

/-- The entry completes: path 7 is lowered and the arrival of BCE is made (R183, R190). -/
def completeEntry (s : State) (core : CoreId) (e : MEntry) : State :=
  let s := s.modCore core fun c => { c with fifo := c.fifo.filter fun x => x.id != e.id }
  let s := s.modGroup e.gid fun g => g.ret e.seq
  let s := match e.bar with
    | none => s
    | some b => barEngine s e.id e.tid b none
  match s.team? e.tid with
  | none => s
  | some t => if teamEmpty s e.tid then teamOver s t else s

/-- The effect of an entry on its team; for a drain with AMX, the magnitude to merge. -/
def MWork.run (w : MWork) (t : Team) : Team × Option Nat :=
  match w with
  | .mma f z b nbv a ca cb scl abad => (runMma t f z b nbv a ca cb scl abad, none)
  | .mzero z => (runMzero t z, none)
  | .mld z d => (runMld t z (tileOf d), none)
  | .mst d z => (runMst t z (tileOf d), none)
  | .mdrain f d z amx clr =>
    let r := runDrain t f z (tileOf d) clr
    (r.1, amx.map fun _ => r.2)

/-- MATRIX_ENTRY_COMPLETE (R190): the oldest entry, 13 cycles after its last engine cycle; its effect is made by then, in
posting order (R182). A drain with AMX goes on with its merge (R193). -/
def execMatrixEntryComplete (core : CoreId) (s : State) : Outcome :=
  match (s.core core).fifo with
  | [] => .next s
  | e :: _ =>
    match e.phase with
    | .posted => .next s
    | .merging _ _ | .running _ => .next (s.owe [.event (.matrixEntryComplete core)])
    | .drained t =>
      if s.cyc < t then .next (s.owe [.event (.matrixEntryComplete core)])
      else
        match s.team? e.tid with
        | none => .next (completeEntry s core e)
        | some tm =>
          let (tm', m) := e.work.run tm
          let s := s.modTeam e.tid fun _ => tm'
          match m with
          | none => .next (completeEntry s core e)
          | some m =>
            .next ((s.modCore core fun c =>
              { c with fifo := modWhere (fun x => x.id == e.id) (fun x => { x with phase := .merging m t }) c.fifo }).owe
                [.event (.drainMerge core)])

/-- The context of a team (R444). -/
def teamCtx (s : State) (tid : Nat) : Nat := (((s.team? tid).bind fun t => s.grid? t.grid).map (·.ctx)).getD 0

/-- The address that a drain merges into. -/
def MWork.amx : MWork → Nat
  | .mdrain _ _ _ (some a) _ => a
  | _ => 0

/-- DRAIN_MERGE (R193): the maximum is performed at the word's home slice; a translation fault cancels it and becomes
pending in the issuing group. A poisoned word is not changed (R285). -/
def execDrainMerge (core : CoreId) (s : State) : Outcome :=
  match (s.core core).fifo with
  | [] => .next s
  | e :: _ =>
    match e.phase with
    | .merging m _ =>
      let ctx := teamCtx s e.tid
      match xlate s core.rank core.die ctx e.work.amx .atomic with
      | (s, .error f) => .next (completeEntry (pendTrap s e.gid 5 (faultD (e.work.amx, f) 0)) core e)
      | (s, .ok h) =>
        let (s, w, bad) := wordAt s h ctx e.work.amx
        if bad then .next (completeEntry s core e)
        else
          match lineWrite s h ctx e.work.amx (sound (bytesLE 4 (max m w.toNat))) with
          | some s => .next (completeEntry s core e)
          | none => .next ((if lineLocked s h.home ctx e.work.amx then s else tierWaits s h e.work.amx).owe [.event (.drainMerge core)])
    | _ => .next s

/-! ### Ramp, throttle and energy (R194 to R197, R446, R447) -/

/-- The active cycles that filler cycles bring a window to when entries leave them unused: the fall is kept to 100, and the
activity rises towards the target by 100 (R196, R197). -/
def Core.want (c : Core) : Nat := max (c.active - 100) (min c.ramp (c.active + 100))

/-- One more engine cycle, the cycle t, of the entry that occupies the engine: it completes 13 cycles after its last (R190). -/
def workOne (t : Nat) : List MEntry → List MEntry
  | [] => []
  | e :: r => match e.phase with
    | .running n => { e with phase := if n ≤ 1 then .drained (t + 13) else .running (n - 1) } :: r
    | .posted | .drained _ | .merging _ _ => e :: workOne t r

/-- The engine in cycle t: busy with an entry while the run of 8 and the window leave it room (R195, R196); a filler cycle when
there is no entry and the window could not reach its activity later; else idle (R194). -/
def Core.cycle (c : Core) (t : Nat) : Core :=
  let c := if t % 8 == 0 then { c with run := 0, rstep := c.step } else c
  let a := c.busy + c.fill
  if 8 - c.rstep ≤ c.run then c
  else if c.works then
    if a < c.active + 100 then { c with busy := c.busy + 1, run := c.run + 1, fifo := workOne t c.fifo } else c
  else if a + (999 - t % 1000) * (8 - c.rstep) / 8 < c.want then { c with fill := c.fill + 1, run := c.run + 1 }
  else c

/-- Nothing of the core draws on the ramp: its windows end without effect. -/
def Core.rampIdle (c : Core) : Bool := c.fifo.isEmpty && c.active == 0 && c.busy == 0 && c.fill == 0 && c.ramp == 0

/-- The next window begins (R196, R197). -/
def Core.roll (c : Core) : Core :=
  { c with active := c.busy + c.fill, busy := 0, fill := 0, quiet := if c.began then 0 else min 127 (c.quiet + 1), began := false
           ended := false }

/-- The engine accounts for the cycles that have passed, up to the end of a window that is still to be made; a window covers
the cycles from one multiple of 1,000 in CYC to the next (R196). -/
def Core.account (cyc : Nat) : Nat → Core → Core
  | 0, c => c
  | fuel + 1, c =>
    if c.ended || c.lag == 0 then c
    else
      let t := (cyc + 2 ^ 64 - c.lag) % 2 ^ 64
      let c := { c.cycle t with lag := c.lag - 1 }
      Core.account cyc fuel (if t % 1000 != 999 then c else if c.rampIdle then { c with began := false } else { c with ended := true })

/-- Cycles pass for the engine of a core. -/
def Core.pass (cyc dt : Nat) (c : Core) : Core := Core.account cyc (c.lag + dt) { c with lag := c.lag + dt }

/-- RAMP_WINDOW_END (R196, R197): a window whose cycles are over gives way to the next. -/
def execRampWindowEnd (core : CoreId) (s : State) : Outcome :=
  if !(s.core core).ended then .next s
  else
    let s := s.modCore core fun c => Core.pass s.cyc 0 c.roll
    let c := s.core core
    .next (if c.quiet == 64 && c.ramp != 0 then { s with agenda := .event (.rampTargetExpire core) :: s.agenda } else s)

/-- RAMP_TARGET_EXPIRE (R197): the target falls to 0 after 64 windows in which no entry started. -/
def execRampTargetExpire (core : CoreId) (s : State) : Outcome :=
  .next (if 64 ≤ (s.core core).quiet then s.modCore core fun c => { c with ramp := 0 } else s)

/-- THROTTLE_WINDOW (R446): STEP rises by one when a sensor is set, and falls by one after 10 windows with both clear.
THCYC counts the cycles of the window, 1 µs, at a step that is not zero. -/
def execThrottleWindow (core : CoreId) (temp droop : Bool) (s : State) : Outcome :=
  .next (s.modCore core fun c =>
    let c := { c with temp := temp, droop := droop
                      thcyc := if c.step == 0 then c.thcyc else (c.thcyc + Config.usec) % 2 ^ 32 }
    if temp || droop then { c with step := min 7 (c.step + 1), cool := 0 }
    else if 9 ≤ c.cool then { c with step := c.step - 1, cool := 0 }
    else { c with cool := c.cool + 1 })

/-- ENERGY_UPDATE (R447): the counters of a package grow by the energy of the last 1 µs, a free value for each (log 3). -/
def execEnergyUpdate (rank : Nat) (s : State) : Outcome :=
  let n := s.fresh
  let s := { s with
    fresh := n + 1 + s.cores.length + s.grids.length
    cores := s.cores.mapIdx fun i (c : Core) =>
      if c.id.rank == rank then { c with ecore := (c.ecore + Config.energy (n + 1 + i)) % 2 ^ 64 } else c
    grids := s.grids.mapIdx fun i (g : Grid) =>
      if g.rank == rank then { g with egrid := (g.egrid + Config.energy (n + 1 + s.cores.length + i)) % 2 ^ 64 } else g }
  .next (s.modPkg rank fun p => { p with epkg := (p.epkg + Config.energy n) % 2 ^ 64 })

end Sys2Proof.Machine
end

