-- ==== Sys2Proof/Machine/Slices.lean ====
section
/-! DEFINITION. The home slices: atomics (R283 to R286), deterministic windows (R287 to R292), monitors (R293 to R296),
combiner calls and waves (R298 to R303), and METHREG at a slice (R261). -/

namespace Sys2Proof.Machine

/-! ### The input queue (R283) -/

/-- Two requests touch one line. -/
def Req.sameLine (a b : Req) : Bool := a.ctx == b.ctx && lineBase a.va == lineBase b.va

/-- A request is a combiner call. -/
def Req.isCall (r : Req) : Bool := match r.kind with
  | .comb _ _ => true
  | .atom _ _ | .waitc _ _ _ _ _ | .get => false

/-- An earlier request of the same group to the line is gathered in a window or is a pending call: this one comes after it
(R238, R266). -/
def behindOwn (q : Slice) (r : Req) : Bool :=
  let own (x : Req) : Bool := x.gid == r.gid && x.sameLine r
  q.calls.any own || q.runs.any (fun w => w.any own) || q.windows.any fun w => w.entries.any own

/-- A request is held in the queue by one of the exceptions of R283: a wave or a closed window holds its line, or the group's own
request before it is still in a window or a pending call. A call without deterministic mode, and an entry of a window, are not
performed when they leave the queue, and wait for neither. -/
def reqHeld (s : State) (q : Slice) (r : Req) : Bool :=
  if r.isCall || r.det.isSome && (match r.kind with
    | .waitc _ _ _ _ _ => false
    | .atom _ _ | .comb _ _ | .get => true) then false
  else lineLocked s r.home r.ctx r.va || behindOwn q r

/-- The oldest request of a queue that is not held, and that no held request of its line precedes, unless it is a call (R283,
R302, R305). -/
def takeReq (s : State) (q : Slice) : List Req → List Req → Option Req
  | _, [] => none
  | held, r :: rest =>
    if reqHeld s q r || (!r.isCall && held.any fun b => b.sameLine r) then takeReq s q (held ++ [r]) rest else some r

/-- A request leaves the queue. -/
def dropReq (s : State) (sl : SliceId) (r : Req) : State :=
  s.modSlice sl fun q => { q with queue := q.queue.filter fun x => x.id != r.id }

/-- Where a request is performed: the context's tables at the home package (R424). -/
def homeXlate (s : State) (r : Req) (acc : Access) : State × Except XFault Phys :=
  match translate1 s r.home (dieOfSlice (sliceOf r.va)) r.ctx r.va acc with
  | (s, .error f) => (s, .error f)
  | (s, .ok (e, pa)) => if e.tgt == 1 then (s, .error ⟨2, e.level⟩) else (s, .ok ⟨r.home, e.tgt, pa⟩)

/-- An atomic that waits at its slice for a place in the tier says so (R334, R351). -/
def atomWaits (s : State) (r : Req) : State :=
  match r.kind with
  | .atom _ _ =>
    match homeXlate s r .atomic with
    | (s, .error _) => s
    | (s, .ok h) => if lineLocked s r.home r.ctx r.va then s else tierWaits s h r.va
  | .waitc _ _ _ _ _ | .comb _ _ | .get => s

/-- The step of a slice on its oldest request that is not held, when it is of the step's kind: requests are performed in the
order in which they leave the queue (R283). The step comes again while a request of its kind waits. -/
def sliceStep (s : State) (sl : SliceId) (ev : Instr) (p : Req → Bool) (k : Req → Option State) : State :=
  let q := s.slice sl
  let again : State := s.owe [.event ev]
  match takeReq s q [] q.queue with
  | some r => if p r then (k r).getD ((atomWaits s r).owe [.event ev]) else if q.queue.any p then again else s
  | none => if q.queue.any p then again else s

/-- A request answered. -/
def answer (s : State) (r : Req) (rep : Reply) : State := sendReply s r.home r.gid r.seq r.slot rep

/-! ### Atomics and CAS forms (R256, R258, R285) -/

/-- Width in bytes of the word that an operation acts on. -/
def AtomOp.width : AtomOp → Nat
  | .casv => 8 | .caspt => 8
  | .addI32 | .addF32 | .minI32 | .maxI32 | .minN32 | .maxN32 | .and | .or | .xor | .xchg | .cas | .casgt => 4

/-- The tagged word that a successful CASV or CASPT leaves (R258). -/
def taggedNext (m : DWord) (low : DWord) : DWord :=
  BitVec.ofNat 64 (bitsOf low.toNat 0 48 + (bitsOf m.toNat 48 16 + 1) % 2 ^ 16 * 2 ^ 48)

/-- The value that an operation leaves in the word m, and none when it writes nothing (R256, R258). -/
def atomNext (op : AtomOp) (m : DWord) (data : List Word) : Option DWord :=
  let x := data.getD 0 0
  let a := loOf m
  let pair := pairOf x (data.getD 1 0)
  match op with
  | .addI32 => some (zext64 (a + x))
  | .addF32 => some (BitVec.ofNat 64 (faddF .f32 .rne (valOf .f32 a.toNat) (valOf .f32 x.toNat)).1)
  | .minI32 => some (zext64 (if x.slt a then x else a))
  | .maxI32 => some (zext64 (if a.slt x then x else a))
  | .minN32 => some (zext64 (if x.ult a then x else a))
  | .maxN32 => some (zext64 (if a.ult x then x else a))
  | .and => some (zext64 (a &&& x))
  | .or => some (zext64 (a ||| x))
  | .xor => some (zext64 (a ^^^ x))
  | .xchg => some (zext64 x)
  | .cas => if a == x then some (zext64 (data.getD 1 0)) else none
  | .casgt => if a.ult x then some (zext64 x) else none
  | .casv => if bitsOf m.toNat 48 16 == bitsOf pair.toNat 48 16 then some (taggedNext m pair) else none
  | .caspt => if m == pair then some (taggedNext m (pairOf (data.getD 2 0) (data.getD 3 0))) else none

/-- An atomic or CAS request performed at its home slice, at one instant (R256, R285); none while it must wait. A poisoned
word is not changed, and poison is returned. -/
def performAtom (s : State) (r : Req) (op : AtomOp) (data : List Word) : Option State :=
  match homeXlate s r .atomic with
  | (s, .error f) => some (answer s r (.fault f.cause f.level))
  | (s, .ok h) =>
    let (s, bs) := lineRead s h r.ctx r.va op.width
    let m := BitVec.ofNat 64 (ofBytesLE (bs.map (·.1)))
    let reply : Reply := .words (if op.width == 8 then [loOf m, hiOf m] else [loOf m])
    if bs.any (·.2) then some (answer s r .poison)
    else
      match atomNext op m data with
      | none => some (answer s r reply)
      | some x => (lineWrite s h r.ctx r.va (sound (bytesLE op.width x.toNat))).map fun s => answer s r reply

/-! ### Combiner waves (R298 to R303) -/

/-- The reply of a call with a status and no return value (R262). -/
def combReply (status lane : Nat) : Reply := .words [0, 0, BitVec.ofNat 32 status, BitVec.ofNat 32 lane]

/-- The method of a call at its slice; none when it has no entry or the object crosses a line (R298). -/
def methodOf (s : State) (r : Req) : Option (Nat × Method) :=
  match r.kind with
  | .comb m _ => ((s.slice ⟨r.home, sliceOf r.va⟩).methods.get (r.ctx, m)).bind fun e =>
    if r.va % 256 + e.size ≤ 256 then some (m, e) else none
  | .atom _ _ | .waitc _ _ _ _ _ | .get => none

/-- The argument of a call. -/
def Req.arg (r : Req) : DWord := match r.kind with
  | .comb _ a => a
  | .atom _ _ | .waitc _ _ _ _ _ | .get => 0

/-- The group that runs a wave (R133, R300). -/
def waveGroup (gid : Nat) (sl : SliceId) (r : Req) (m : Nat) (e : Method) (calls : List Req) : Group :=
  let n := calls.length
  let mask := maskOf fun i => i < n
  let th (i : Nat) : Thread :=
    let a := ((calls[i]?).map Req.arg).getD 0
    (Thread.zero.setV 0 (loOf a)).setV 1 (hiOf a)
  { gid := gid, rank := sl.rank, ctx := r.ctx, grid := 0, tid := 0, num := 0, win := 0, wspb := 0
    core := ⟨sl.rank, dieOfSlice sl.slice, 0, 0⟩, lane := 0, place := 0, wave := some sl
    threads := Vector.ofFn fun i => th i.val
    k := (((Vector.replicate 32 0).setIfInBounds 1 (BitVec.ofNat 64 r.va)).setIfInBounds 2 (BitVec.ofNat 64 n)).setIfInBounds 3 (BitVec.ofNat 64 m)
    kbusy := 0, q := 0, t := Vector.replicate 16 0, nbv := 3, srwq := [], exited := ~~~mask
    frags := (Vector.replicate 8 none).setIfInBounds 0 (some (Frag.at mask e.entry 31)), recs := Vector.replicate 16 none
    spilled := [], sinceExch := 0, jaddr := 0, jmask := 0, jpc := JoinPc.zero, reps := Reps.zero, seen := 0, gtime := 0
    timer := 0, deadline := 0, arithen := 0, rseq := 0, rstpt := 0, rstseq := 0, level := 0, flights := [], nextSeq := 0
    eng := Vector.replicate 7 ⟨0, false, []⟩, trap := TrapState.zero, stopped := false, lastPick := 0, stalled := false, budget := 0 }

/-- A wave of these calls begins: the line is held and the shadow taken (R300). A shadow with poison answers poison (R302),
and a call whose method has gone is answered ERROR. `rest` is what follows in a deterministic window. -/
def startWave (s : State) (sl : SliceId) (calls rest : List Req) : State × Bool :=
  match calls with
  | [] => (s, false)
  | r :: _ =>
    let all (s : State) (rep : Nat → Reply) : State :=
      (upTo calls.length).foldl (fun s i => match calls[i]? with
        | none => s
        | some c => answer s c (rep i)) s
    match methodOf s r with
    | none => (all s fun _ => combReply stError 0, false)
    | some (m, e) =>
      match homeXlate s r .atomic with
      | (s, .error f) => (all s fun _ => .fault f.cause f.level, false)
      | (s, .ok h) =>
        let (s, bs) := lineRead s h r.ctx r.va e.size
        if bs.any (·.2) then (all s fun _ => .poison, false)
        else
          let (gid, s) := s.gensym
          let w : Wave :=
            { gid := gid, calls := calls, ctx := r.ctx, obj := r.va, method := m, size := e.size
              shadow := Mem.writeL [] 0 (bs.map (·.1)), fault := 0, ended := false, rest := rest }
          let s := s.modSlice sl fun q => { q with wave := some w }
          ({ s with groups := s.groups ++ [waveGroup gid sl r m e calls] }.owe [.wave sl], true)

/-- A request is a call of method m. -/
def Req.isComb (m : Nat) (r : Req) : Bool := match r.kind with
  | .comb k _ => k == m
  | .atom _ _ | .waitc _ _ _ _ _ | .get => false

/-- A closed window's entries performed in key order (R289): atomics one after another, and each run of calls of one method
as a wave, after which the rest follows. The entries that must wait are left. -/
def applyWindow (s : State) (sl : SliceId) : Nat → List Req → State × List Req
  | 0, w => (s, w)
  | _, [] => (s, [])
  | fuel + 1, r :: rest =>
    if lineLocked s r.home r.ctx r.va then (s, r :: rest)
    else
      match r.kind with
      | .atom op data =>
        match performAtom s r op data with
        | some s => applyWindow s sl fuel rest
        | none => (s, r :: rest)
      | .comb m _ =>
        if (s.slice sl).wave.isSome then (s, r :: rest)
        else
          let calls := r :: rest.takeWhile (Req.isComb m)
          let after := rest.dropWhile (Req.isComb m)
          match startWave s sl calls after with
          | (s, true) => (s, [])
          | (s, false) => applyWindow s sl fuel after
      | .waitc _ _ _ _ _ => applyWindow s sl fuel rest
      | .get => applyWindow s sl fuel rest

/-- A window is applied, unless one of its line waits before it; entries that are left wait in the slice, where they hold
their line. `front` is for a window that was the first to wait. -/
def applyOrKeep (s : State) (sl : SliceId) (w : List Req) (front : Bool) : State :=
  let q := (s.slice sl).runs
  let keep (s : State) (runs : List (List Req)) : State := s.modSlice sl fun x => { x with runs := runs }
  if !front && q.any fun v => v.any fun a => w.any fun b => a.sameLine b then keep s (q ++ [w])
  else
    match applyWindow (keep s []) sl (w.length + 1) w with
    | (s, []) => keep s q
    | (s, left) => (keep s (if front then left :: q else q ++ [left])).owe [.event (.waveStart sl)]

/-! ### Deterministic windows (R287 to R292) -/

/-- The sort key of an entry: issuer index, then issue sequence (R287). -/
def Req.key (r : Req) : Nat × Nat := ((r.det.map (·.2)).getD 0, r.seq)

/-- Entries in key order. -/
def byKey (rs : List Req) : List Req :=
  rs.sortLe fun a b => a.key.1 < b.key.1 || (a.key.1 == b.key.1 && a.key.2 ≤ b.key.2)

/-- A window closes and is applied (R288, R289). -/
def closeWindow (s : State) (sl : SliceId) (w : Window) (why : CloseWhy) : State :=
  let s := s.modSlice sl fun q =>
    { q with windows := q.windows.filter fun x => x.id != w.id, closes := q.closes.put (w.grid, w.va) why }
  applyOrKeep s sl (byKey w.entries) false

/-- A departure from reproducible order recorded in DETOVF when a window opens (R292). -/
def countOpen (g : Grid) (why : Option CloseWhy) : Grid :=
  match why with
  | some .full => { g with ovf := min (2 ^ 32 - 1) (g.ovf + 1) }
  | some .idle => { g with split := min (2 ^ 32 - 1) (g.split + 1) }
  | some .evict => { g with split := min (2 ^ 32 - 1) (g.split + 1) }
  | some .fence => g
  | none => g

/-- An entry joins its window or opens one; a window whose 256 cycles are over takes no more (R288). -/
def gather (s : State) (sl : SliceId) (r : Req) (grid : Nat) : State :=
  let same (w : Window) : Bool := w.grid == grid && w.ctx == r.ctx && w.va == r.va
  let s := match (s.slice sl).windows.find? (fun w => same w && w.last + 256 ≤ s.cyc) with
    | some w => closeWindow s sl w .idle
    | none => s
  let held : Nat := ((s.slice sl).windows.map fun w => w.entries.length).sum
  let s := if held < 16 then s
    else match (s.slice sl).windows.find? fun w => !same w with
      | none => s
      | some w => closeWindow s sl w .evict
  let s := match (s.slice sl).windows.find? same with
    | some w =>
      s.modSlice sl fun q =>
        { q with windows := modWhere (fun x => x.id == w.id) (fun x => { x with entries := x.entries ++ [r], last := s.cyc }) q.windows }
    | none =>
      let (id, s) := s.gensym
      let s := s.modGrid grid fun g => countOpen g ((s.slice sl).closes.get (grid, r.va))
      (s.modSlice sl fun q => { q with windows := q.windows ++ [(⟨id, grid, r.ctx, r.va, [r], s.cyc⟩ : Window)] }).owe
        [.event (.windowCloseIdle sl id)]
  match (s.slice sl).windows.find? same with
  | none => s
  | some w => if 16 ≤ w.entries.length then closeWindow s sl w .full else s

/-- A request is an atomic or CAS form. -/
def Req.isAtom (r : Req) : Bool := match r.kind with
  | .atom _ _ => true
  | .waitc _ _ _ _ _ | .comb _ _ | .get => false

/-- SLICE_ATOMIC (R285, R287): the oldest atomic is performed, or gathered into its window. -/
def execSliceAtomic (sl : SliceId) (s : State) : Outcome :=
  .next (sliceStep s sl (.sliceAtomic sl) Req.isAtom fun r =>
    match r.det, r.kind with
    | some (grid, _), _ => some (gather (dropReq s sl r) sl r grid)
    | none, .atom op data => (performAtom s r op data).map fun s => dropReq s sl r
    | none, .waitc _ _ _ _ _ => none
    | none, .comb _ _ => none
    | none, .get => none)

/-- WINDOW_CLOSE_IDLE (R288): 256 cycles after the newest entry. -/
def execWindowCloseIdle (sl : SliceId) (win : Nat) (s : State) : Outcome :=
  match (s.slice sl).windows.find? fun w => w.id == win with
  | none => .next s
  | some w =>
    .next (if w.last + 256 ≤ s.cyc then closeWindow s sl w .idle else s.owe [.event (.windowCloseIdle sl win)])

/-- DWFENCE_SLICE_CLOSE (R255, R288): the slice closes the grid's windows, oldest first, and acknowledges. It is a FENCE
close for every address of the grid at the slice (R291). -/
def execDwfenceSliceClose (fence : Nat) (sl : SliceId) (s : State) : Outcome :=
  match s.sliceWaits.find? fun w => w.id == fence with
  | none => .next s
  | some f =>
    let ws := (s.slice sl).windows.filter fun w => w.grid == f.grid
    let s := ws.foldl (fun s w => closeWindow s sl w .fence) s
    let s := s.modSlice sl fun q => { q with closes := q.closes.filter fun c => c.1.1 != f.grid }
    .next { s with sliceWaits := modWhere (fun w => w.id == fence) (fun w => { w with slices := w.slices.filter (· != sl) }) s.sliceWaits }

/-! ### Monitors (R293 to R296) -/

/-- The lowest free monitor entry. -/
def freeMonitor (ms : List Monitor) : Nat := ((upTo (ms.length + 1)).find? fun n => !(ms.any fun m => m.entry == n)).getD 0

/-- WAITC_TEST (R260, R294): the slot is answered, armed as a monitor, or answered SPURIOUS when the table is full. -/
def execWaitcTest (sl : SliceId) (s : State) : Outcome :=
  .next (sliceStep s sl (.waitcTest sl) (fun r => match r.kind with
      | .waitc _ _ _ _ _ => true
      | .atom _ _ | .comb _ _ | .get => false) fun r =>
    match r.kind with
    | .waitc cond signed timeout val mask =>
      match homeXlate (dropReq s sl r) r .read with
      | (s, .error f) => some (answer s r (.fault f.cause f.level))
      | (s, .ok h) =>
        let (s, m, bad) := wordAt s h r.ctx r.va
        if bad then some (answer s r .poison)
        else if waitcHolds cond signed val mask m then some (answer s r (.words [0, m]))
        else if 1024 ≤ (s.slice sl).monitors.length then
          some (answer s r (.words [BitVec.ofNat 32 (stSpurious + 16 * 3), m]))
        else
          let n := freeMonitor (s.slice sl).monitors
          let e : Monitor :=
            { entry := n, req := r, cond := cond, signed := signed, val := val, mask := mask, st := .armed
              deadline := if timeout == 0 then none else some (s.cyc + 1000 * timeout) }
          let s := s.modSlice sl fun q => { q with monitors := q.monitors ++ [e] }
          some (if timeout == 0 then s else s.owe [.event (.monitorTimeout sl n)])
    | .atom _ _ => none
    | .comb _ _ => none
    | .get => none)

/-- The word of a monitor as it stands. -/
def monitorWord (s : State) (m : Monitor) : State × Word :=
  match homeXlate s m.req .read with
  | (s, .error _) => (s, 0)
  | (s, .ok h) =>
    let (s, w, _) := wordAt s h m.req.ctx m.req.va
    (s, w)

/-- MONITOR_TIMEOUT (R294): an Armed entry whose deadline has passed replies SPURIOUS, reason 2. -/
def execMonitorTimeout (sl : SliceId) (entry : Nat) (s : State) : Outcome :=
  match (s.slice sl).monitors.find? fun m => m.entry == entry && m.st == .armed with
  | none => .next s
  | some m =>
    match m.deadline with
    | none => .next s
    | some d =>
      if s.cyc < d then .next (s.owe [.event (.monitorTimeout sl entry)])
      else
        let (s, w) := monitorWord s m
        .next (answerMonitor s sl m stSpurious 2 w)

/-- A monitor entry is reclaimed (R294, R296): a resident waiter is answered SPURIOUS, reason 1; for one whose team is out,
the entry is freed and the restore delivers that answer. -/
def reclaim (s : State) (sl : SliceId) (m : Monitor) : State :=
  if teamOut s m.req.gid then
    s.modSlice sl fun q => { q with monitors := q.monitors.filter fun x => x.entry != m.entry }
  else
    let (s, w) := monitorWord s m
    answerMonitor s sl m stSpurious 1 w

/-- The entries of a slice that satisfy `p` are reclaimed. -/
def reclaimSlice (s : State) (sl : SliceId) (p : Monitor → Bool) : State :=
  (((s.slice sl).monitors.filter p).sortLe fun a b => a.entry ≤ b.entry).foldl (fun s m => reclaim s sl m) s

/-- MONITOR_RECLAIM (R296): the reclamation that a GO in MONRCL has started is made, and BUSY falls. -/
def execMonitorReclaim (sl : SliceId) (ctx : Nat) (s : State) : Outcome :=
  .next ((reclaimSlice s sl fun m => m.req.ctx == ctx && m.st != .replied).modSlice sl fun q => { q with mrBusy := false })

/-! ### Calls and waves (R298 to R303) -/

/-- COMB_CALL_ARRIVE (R298): a call is answered ERROR, gathered (R287), or becomes pending; the queue keeps it while 512
calls are pending (R299). -/
def execCombCallArrive (sl : SliceId) (s : State) : Outcome :=
  .next (sliceStep s sl (.combCallArrive sl) (fun r => match r.kind with
      | .comb _ _ => true
      | .atom _ _ | .waitc _ _ _ _ _ | .get => false) fun r =>
    if (methodOf s r).isNone then some (answer (dropReq s sl r) r (combReply stError 0))
    else
      match r.det with
      | some (grid, _) => some (gather (dropReq s sl r) sl r grid)
      | none =>
        if 512 ≤ (s.slice sl).calls.length then none
        else some (((dropReq s sl r).modSlice sl fun q => { q with calls := q.calls ++ [r] }).owe [.event (.waveStart sl)]))

/-- A wave of the oldest pending call, with up to 15 more of its object and method, in arrival order (R299). It waits while the
line is held, and for requests of the line that arrived before the call. -/
def startPending (s : State) (sl : SliceId) : State :=
  match (s.slice sl).calls with
  | [] => s
  | r :: rest =>
    if lineLocked s r.home r.ctx r.va || (s.slice sl).queue.any fun b => b.sameLine r && b.arr < r.arr then
      s.owe [.event (.waveStart sl)]
    else
      let m := match r.kind with
        | .comb m _ => m
        | .atom _ _ | .waitc _ _ _ _ _ | .get => 64
      let more := (rest.filter fun c => c.ctx == r.ctx && c.va == r.va && c.isComb m).take 15
      let calls := r :: more
      let s := s.modSlice sl fun q => { q with calls := q.calls.filter fun c => !(calls.any fun x => x.id == c.id) }
      match startWave s sl calls [] with
      | (s, true) => s
      | (s, false) => s.owe [.event (.waveStart sl)]

/-- WAVE_START (R289, R299): when Confluence is free, it goes on with the closed windows that wait, and then with the oldest
pending call. DESIGN CHOICE (log 67): the spec gives no order between a closed window that waits and an older pending call. -/
def execWaveStart (sl : SliceId) (s : State) : Outcome :=
  let q := s.slice sl
  if q.wave.isSome then .next s
  else
    match q.runs with
    | w :: rest =>
      .next (applyOrKeep (s.modSlice sl fun q => { q with runs := rest }) sl w true)
    | [] => .next (startPending s sl)

/-- A fault of a method logged: the first since the record was cleared, and the count (R303). -/
def Slice.logFault (q : Slice) (w : Wave) : Slice :=
  let q := if q.cfCount == 0 then { q with cfAddr := bitsOf w.obj 0 57, cfMethod := w.method, cfCause := w.fault, cfCtx := w.ctx } else q
  { q with cfCount := min (2 ^ 32 - 1) (q.cfCount + 1) }

/-- The wave is over: its group goes, what follows in its window is performed, and Confluence may start again. -/
def endWave (s : State) (sl : SliceId) (w : Wave) : State :=
  let s := { s with groups := s.groups.filter fun g => g.gid != w.gid }
  let s := s.modSlice sl fun q => { q with wave := none }
  (if w.rest.isEmpty then s else applyOrKeep s sl w.rest true).owe [.event (.waveStart sl)]

/-- The replies of a wave that has committed: v0:v1 of each slot at its exit, OK and the lane (R300). -/
def waveReplies (s : State) (g : Group) (w : Wave) : State :=
  (upTo w.calls.length).foldl (fun s i => match w.calls[i]? with
    | none => s
    | some c =>
      let t := g.thread i
      answer s c (.words [t.v 0, t.v 1, BitVec.ofNat 32 stOk, BitVec.ofNat 32 i])) s

/-- WAVE_COMMIT (R300): the shadow becomes the object by one write, or the method's fault is logged and each lane answered
FAULT. -/
def execWaveCommit (sl : SliceId) (s : State) : Outcome :=
  match (s.slice sl).wave with
  | none => .next s
  | some w =>
    if !w.ended then .next s
    else if w.fault != 0 then
      let s := s.modSlice sl fun q => q.logFault w
      let s := (upTo w.calls.length).foldl (fun s i => match w.calls[i]? with
        | none => s
        | some c => answer s c (combReply stFault i)) s
      .next (endWave s sl w)
    else
      match w.calls, s.group? w.gid with
      | r :: _, some g =>
        match homeXlate s r .atomic with
        | (s, .error f) => .next (endWave (w.calls.foldl (fun s c => answer s c (.fault f.cause f.level)) s) sl w)
        | (s, .ok h) =>
          match lineStore s h w.ctx w.obj (sound (w.shadow.readN 0 w.size)) with
          | none => .next ((tierWaits s h w.obj).owe [.event (.waveCommit sl)])
          | some s =>
            let s := waveReplies (testMonitors s h w.ctx w.obj w.size) g w
            .next (endWave s sl w)
      | _, _ => .next (endWave s sl w)

/-- CFCLR_CLEAR (R303). -/
def execCfclrClear (sl : SliceId) (s : State) : Outcome :=
  .next (s.modSlice sl fun q => { q with cfAddr := 0, cfMethod := 0, cfCause := 0, cfCtx := 0, cfCount := 0 })

/-- METHREG_SLICE_UPDATE (R261): the slice installs or removes the entry and acknowledges. -/
def execMethregSliceUpdate (reg : Nat) (sl : SliceId) (s : State) : Outcome :=
  match s.sliceWaits.find? fun w => w.id == reg with
  | none => .next s
  | some w =>
    let s := s.modSlice sl fun q =>
      { q with methods := match w.entry with
          | some e => q.methods.put (w.ctx, w.method) e
          | none => q.methods.del (w.ctx, w.method) }
    .next { s with sliceWaits := modWhere (fun x => x.id == reg) (fun x => { x with slices := x.slices.filter (· != sl) }) s.sliceWaits }

end Sys2Proof.Machine
end

