-- ==== Sys2Proof/Machine/Lane.lean ====
section
/-! DEFINITION. The lanes and the combiner engines: which fragment issues next (R41, R128, R144), the word that it issues,
and what the passing of time does (R130, R415). -/

namespace Sys2Proof.Machine

/-- A fragment that a group offers to its lane, with its class and AGE, and how long ago the lane picked the group. -/
structure Offer where
  cls : Nat
  age : Nat
  last : Nat
  gid : Nat
  entry : Nat
  deriving DecidableEq, Repr

/-- The group's team is on its core and the group may issue (R402, R409). -/
def runs (s : State) (g : Group) : Bool :=
  !g.stopped && !g.trap.faulted && (g.wave.isSome || (s.team? g.tid).any fun t => t.holds)

/-- The groups of a lane that may issue. -/
def laneGroups (s : State) (core : CoreId) (lane : Nat) : List Group :=
  s.groups.filter fun g => g.core == core && g.lane == lane && g.wave.isNone && runs s g

/-- The entries that a group offers (R41, R144). -/
def Group.offered (g : Group) : List (Nat × Frag) :=
  if g.reps.active then (g.resident.filter fun x => x.1 == g.reps.entry && x.2.st == .ready)
  else match g.midClause with
    | some x => [x]
    | none => ((g.resident.filter fun x => x.2.st == .ready).sortLe fun a b => b.2.age ≤ a.2.age).take 4

/-- The offers of some groups (R144); a group whose word waits for a resource makes none meanwhile (R41). -/
def offersOf (s : State) (gs : List Group) : List Offer :=
  (gs.filter fun g => !g.stalled).flatMap fun g =>
    let pr := ((s.grid? g.grid).map (·.priority)).getD 0
    g.offered.map fun x => ⟨if 2048 ≤ x.2.age then 8 else pr, x.2.age, g.lastPick, g.gid, x.1⟩

/-- One offer is picked before another (R144). Groups that were picked equally long ago and offer entries of one number go in
the order of State.groups (log 56). -/
def Offer.before (a b : Offer) : Bool :=
  b.cls < a.cls || (a.cls == b.cls && (b.age < a.age || (a.age == b.age &&
    (b.last < a.last || (a.last == b.last && a.entry < b.entry)))))

/-- The offer that a lane picks (R144). -/
def pickOffer : List Offer → Option Offer
  | [] => none
  | a :: r => match pickOffer r with
    | none => some a
    | some b => some (if b.before a then b else a)

/-- An issue opportunity passes, at which the lane starts a word of this issuer: AGE of every fragment of the lane's groups
grows, and that of the issuing one is 0 (R129, R134, R142). Groups that waited for a resource are offered again. -/
def Group.opportunity (g : Group) (o : Issuer) : Group :=
  let g := { g with sinceExch := g.sinceExch + 1, lastPick := if g.gid == o.gid then 0 else g.lastPick + 1, stalled := false }
  { g with frags := g.frags.mapIdx fun i (x : Option Frag) => x.map fun f =>
      { f with age := if g.gid == o.gid && i == o.entry then 0 else min 0xFFFF (f.age + 1) } }

/-- The group as it was before the opportunity: no word has started at it. -/
def Group.noOpportunity (g old : Group) : Group :=
  { g with sinceExch := old.sinceExch, lastPick := old.lastPick, stalled := old.stalled
           frags := g.frags.mapIdx fun i (x : Option Frag) => x.map fun f =>
             { f with age := ((old.frag i).map (·.age)).getD f.age } }

/-- The groups that share the issue opportunities of a group: those of its lane, or the one group of a wave. -/
def sharers (s : State) (g : Group) : List Group :=
  if g.wave.isSome then [g] else laneGroups s g.core g.lane

/-- The opportunity passes for the sharers of the issuer's group. -/
def passOpportunity (s : State) (is : Issuer) : State :=
  match s.group? is.gid with
  | none => s
  | some g =>
    let ids := (sharers s g).map (·.gid)
    { s with groups := modWhere (fun g => ids.contains g.gid) (fun g => g.opportunity is) s.groups }

/-- The issuing group has gone on, by its word: another state of its fragments, its repeats or its traps. -/
def Group.moved (g h : Group) : Bool :=
  g.frags != h.frags || g.reps != h.reps || g.trap != h.trap || g.stopped != h.stopped || g.jmask != h.jmask

/-- The fragment of an entry is BLOCKED on the scoreboard. -/
def Group.onScore (g : Group) (e : Nat) : Bool := (g.frag e).any fun f => f.wait == some .scoreboard

/-- What the opportunity has come to, once the word has run: `old` is the state before it and `s` that at the word's issue. A
word that waits for the scoreboard or for a resource has not started, and no opportunity has passed (R41, R129); the group of
the latter is offered again once the lane has started another word. -/
def afterIssue (old s s' : State) : State :=
  match s.who with
  | none => s'
  | some is =>
    match s.group? is.gid, s'.group? is.gid with
    | some g, some h =>
      if g.moved h && !h.onScore is.entry then s'
      else
        let s' := { s' with groups := s'.groups.map fun x => ((old.group? x.gid).map x.noOpportunity).getD x }
        if g.moved h then s' else s'.modGroup is.gid fun x => { x with stalled := true }
    | _, _ => s'

/-- What an issue opportunity comes to: an instruction to run, or the state with nothing more to do. -/
inductive Issue where
  | run (i : Instr) (s : State)
  | done (s : State)

/-- A code fetch that an issuer needs: a fault of it is taken, and while it waits the lane goes on with its other groups. -/
def fetched {α : Type} (s : State) (is : Issuer) (g : Group) (r : State × GOut α) (k : State → α → Issue) : Issue :=
  match r with
  | (s, .fault a f) => .done (fetchTrap s is g (a, f))
  | (_, .wait) => .done (s.modGroup is.gid fun g => { g with stalled := true })
  | (s, .ok w) => k s w

/-- The word at a fragment's PC, decoded; a word without a meaning raises the illegal-instruction trap (R46, R66). -/
def issueWord (s : State) (is : Issuer) (g : Group) (f : Frag) : Issue :=
  fetched s is g (fetchInstr s g f.clause f.word none) fun s (w, l) =>
    match decode w.toNat l.toNat with
    | none => .done (undecoded s is g w)
    | some i => .run i (passOpportunity s is)

/-- What the picked fragment issues: the start of its clause, the next repeat of REP, or the word at its PC, at an issue
opportunity of its lane. The start of a clause takes none: the same fragment is picked again at once (R129). A fragment that
resumes inside a clause reads the clause's header again (R39). -/
def issueFrag (s : State) (is : Issuer) (g : Group) (f : Frag) : Issue :=
  if g.reps.active then .run .repRepeat (passOpportunity s is)
  else match f.hdr with
    | some _ => issueWord s is g f
    | none =>
      if f.word == 0 then .run .clauseStart s
      else
        fetched s is g (fetchWord s g f.clause.toNat) fun s h =>
          .done (s.modGroup is.gid fun g => g.modFrag is.entry fun f => { f with hdr := some h })

/-- The pick among some groups. When none offers a fragment, those that wait for a resource are offered again. -/
def issueFrom (s : State) (gs : List Group) : Issue :=
  match pickOffer (offersOf s gs) with
  | none =>
    let ids := gs.map (·.gid)
    .done { s with groups := modWhere (fun g => ids.contains g.gid) (fun g => { g with stalled := false }) s.groups }
  | some o =>
    let s := { s with who := some ⟨o.gid, o.entry⟩ }
    match s.group? o.gid with
    | none => .done s
    | some g =>
      match g.frag o.entry with
      | none => .done s
      | some f => issueFrag s ⟨o.gid, o.entry⟩ g f

/-- A boundary event of a group is due (R398, R402). A wait that a barrier's event has ended completes first. -/
def Group.trapDue (g : Group) : Bool := !g.trap.tmode && !g.trap.faulted && g.trap.nextEvent.isSome && !g.latched

/-- A fusion, a JOIN or a reload of the group is due that was put off (R140, R141). -/
def Group.settleDue (g : Group) : Bool :=
  !g.trap.tpend.getLsbD 5 &&
    (g.completeRec.isSome || (g.jmask != 0 && (g.jmask ||| g.exited) == 0xFFFF) || (g.freeEntry.isSome && !g.spilled.isEmpty))

/-- An issue opportunity of a lane: a pending event of a group is taken first (R398). -/
def laneIssue (s : State) (core : CoreId) (lane : Nat) : Issue :=
  let gs := laneGroups s core lane
  match gs.find? fun g => g.trapDue && (!g.resident.isEmpty || g.spilled.isEmpty) with
  | some g => .run (.boundaryTrapEntry g.gid) s
  | none =>
    match gs.find? fun g => g.settleDue with
    | some g => .done (settle s g.gid)
    | none => issueFrom s gs

/-- No fragment of the wave can issue any more: none is offered, no reply is to come, and none waits for the counters of a
clause header, which are then all zero (R301). -/
def stuck (s : State) (gs : List Group) : Bool :=
  (offersOf s gs).isEmpty && gs.all fun g => !g.stalled && g.flights.all (fun f => f.done) &&
    g.waits.all fun w => w == .scoreboard

/-- An issue opportunity of a combiner engine (R304): a wave in which no fragment can issue any more has stalled (R301). -/
def waveIssue (s : State) (sl : SliceId) : Issue :=
  match (s.slice sl).wave with
  | none => .done s
  | some w =>
    let gs := s.groups.filter fun g => g.gid == w.gid
    if w.ended then .done s
    else match gs.find? fun g => g.settleDue with
      | some g => .done (settle s g.gid)
      | none =>
        if stuck s gs then .done (waveFault s sl 6) else issueFrom s gs

/-- The lane still has a group to issue for. -/
def laneLive (s : State) (core : CoreId) (lane : Nat) : Bool :=
  s.groups.any fun g => g.core == core && g.lane == lane && g.wave.isNone && (s.team? g.tid).any fun t => t.holds

/-- The handler of a pre-emption has halted: every group of the team is stopped (R409 step 4). -/
def teamHalted (s : State) (t : Team) : Bool :=
  t.st == .saving && s.groups.all fun g => g.tid != t.tid || g.wave.isSome || g.stopped

/-- A group is resident: its GTIME runs (R130), until the HALT of a switch (R409). -/
def resident (s : State) (g : Group) : Bool := g.wave.isNone && (s.team? g.tid).any fun t => t.holds && !teamHalted s t

/-- The timer and deadline events that are due (R415). -/
def timersDue (s : State) : List Move :=
  (s.groups.filter fun g => resident s g).flatMap fun g =>
    (if g.timer != 0 && g.timer ≤ g.gtime then [.event (.timerExpire g.gid)] else []) ++
      if g.deadline != 0 && g.deadline ≤ s.cyc then [.event (.deadlineExpire g.gid)] else []

/-- The windows of the matrix engines whose cycles are over (R196). -/
def windowsDue (s : State) : List Move := (s.cores.filter (·.ended)).map fun c => .event (.rampWindowEnd c.id)

/-- Time passes by one step (R33, R130; log 7): the matrix engines go on (R190), and the timers and windows that it reaches
come next. -/
def State.tick (s : State) : State :=
  let s := { s with
    cyc := (s.cyc + s.dt) % 2 ^ 64
    groups := modWhere (fun g => resident s g) (fun g => { g with gtime := (g.gtime + s.dt) % 2 ^ 64 }) s.groups
    cores := s.cores.map fun c => Core.pass ((s.cyc + s.dt) % 2 ^ 64) s.dt c
    who := none }
  { s with agenda := ((timersDue s ++ windowsDue s).filter fun m => !s.agenda.contains m) ++ s.agenda }

/-- The next move of the agenda taken: what it runs. -/
def nextIssue (s : State) : Issue :=
  match s.agenda with
  | [] => .done s
  | m :: r =>
    let s := clearWaits { s with agenda := r, cur := some m } m
    match m with
    | .lane c l => if laneLive s c l then laneIssue (s.owe [.lane c l]) c l else .done s
    | .wave sl => if (s.slice sl).wave.isSome then waveIssue (s.owe [.wave sl]) sl else .done s
    | .event i => .run i s
    | .subject i x => .run i { s with subj := x }

end Sys2Proof.Machine
end

