-- ==== Sys2Proof/Machine/Engine.lean ====
section
/-! DEFINITION. What the asynchronous engines share: the spaces that they read and write (R179, R243), posting and its checks
(R242, R306, R312, R364 to R369), completion (R245, R246, R366 to R368, R413), faults (R227, R228) and the tables that
operations name (R315 to R317, R323). -/

namespace Sys2Proof.Machine

/-! ### Memory as an engine sees it -/

/-- A read by an operation in a space of R179; an invalid scratchpad word reads zero and is counted (R209). -/
def engRead (s : State) (o : Op) (space a n : Nat) : State × GOut (List PByte) :=
  match space with
  | 0 => (s, .ok (((s.team? o.tid).map fun t => t.shared.readP a n).getD []))
  | 1 =>
    match segOf s o.rank o.die o.grid with
    | none => (s, .ok (List.replicate n (0, false)))
    | some sg =>
      let bad := (wordsTouched a n).filter fun w => sg.valid.read w == 0
      let bs := (upTo n).map fun i =>
        if sg.valid.read ((a + i) / 4) == 0 then (0, false) else (sg.ram.bytes.read (a + i), sg.ram.bad 4 (a + i) 1)
      (logInvalid s o.grid 0 bad, .ok bs)
  | _ => gRead s o.rank o.die o.ctx a n .read

/-- A write by an operation. -/
def engWrite (s : State) (o : Op) (space a : Nat) (bs : List PByte) : State × GOut Unit :=
  match space with
  | 0 => (s.modTeam o.tid fun t => { t with shared := t.shared.writeP a bs }, .ok ())
  | 1 =>
    match segOf s o.rank o.die o.grid with
    | none => (s, .ok ())
    | some sg => ({ s with segs := modWhere (fun x => x.id == sg.id) (fun x => scratchStore x a bs) s.segs }, .ok ())
  | _ => gWrite s o.rank o.die o.ctx a bs

/-- Several reads, in order. -/
def engReads (s : State) (o : Op) (space : Nat) : List (Nat × Nat) → State × GOut (List PByte)
  | [] => (s, .ok [])
  | (a, n) :: r =>
    match engRead s o space a n with
    | (s, .fault v f) => (s, .fault v f)
    | (s, .wait) => (s, .wait)
    | (s, .ok bs) =>
      match engReads s o space r with
      | (s, .ok cs) => (s, .ok (bs ++ cs))
      | (s, .fault v f) => (s, .fault v f)
      | (s, .wait) => (s, .wait)

/-- Bytes with their addresses gathered into runs of consecutive addresses. -/
def runsOf : List (Nat × PByte) → List (Nat × List PByte)
  | [] => []
  | (a, b) :: r =>
    match runsOf r with
    | (a', bs) :: rs => if a + 1 == a' then (a, b :: bs) :: rs else (a, [b]) :: (a', bs) :: rs
    | [] => [(a, [b])]

/-- Writes of runs to local memory. -/
def localRuns (s : State) (o : Op) (space : Nat) (rs : List (Nat × List PByte)) : State :=
  rs.foldl (fun s r => (engWrite s o space r.1 r.2).1) s

/-- The lines that tier writes of these pieces would newly back, and the pre-images they take, in data slots (R333, R353). -/
def tierNeed (s : State) (ps : List (Nat × Nat × Phys)) (home : Nat) : Nat :=
  match s.pkg? home with
  | none => 0
  | some p =>
    let ls := ((ps.filter fun x => x.2.2.home == home && x.2.2.tgt == 2).map fun x => lineBase x.2.2.pa).dedup
    let units := ((ls.map fun l => l / 4096).dedup.filter fun u => (p.tier.units.get u).isNone).length
    units + (ls.filter fun l => p.tier.needsPre l).length

/-- What a write of several runs comes to. -/
inductive WOut where
  | done (s : State)
  | fault (s : State) (va : Nat) (f : XFault)
  /-- the tier's free space does not hold it (R311) -/
  | capacity (s : State)
  /-- a line is held, or a Moraine queue is full -/
  | wait (s : State)

/-- Runs written to global memory: translated first, then tested for the tier's free space, then written (R311). -/
def globalRuns (s : State) (rank die ctx : Nat) (rs : List (Nat × List PByte)) : WOut :=
  match xlateAll s rank die ctx .write (rs.flatMap fun r => linePieces r.1 r.2.length) with
  | (s, .fault va f) => .fault s va f
  | (s, .wait) => .wait s
  | (s, .ok ps) =>
    let homes := (ps.map fun x => x.2.2.home).dedup
    if homes.any fun h => (s.pkg? h).any fun p => p.tier.free < tierNeed s ps h then .capacity s
    else
      match writePieces ctx s ps (rs.flatMap (·.2)) with
      | none => .wait (piecesWait s ps)
      | some s => .done s

/-- Runs written to the space of an operation's destination. -/
def engRuns (s : State) (o : Op) (space : Nat) (rs : List (Nat × List PByte)) : WOut :=
  if space == 2 then globalRuns s o.rank o.die o.ctx rs else .done (localRuns s o space rs)

/-! ### Regions (R179, R243) -/

/-- First address of a region, a global one with its sign extension (R36). -/
def Tile.start (t : Tile) : Nat := if t.space == 2 then (sext57 t.base).toNat else t.base

/-- Rows of every plane together. -/
def Tile.allRows (t : Tile) : Nat := t.rows * t.planes

/-- Bytes of a transfer sequence. -/
def Tile.bytes (t : Tile) : Nat := t.allRows * t.rowBytes

/-- One past the last byte of a region, contiguous or by rows, from its BASE. -/
def Tile.extent (t : Tile) (contig : Bool) : Nat :=
  if contig then t.base + t.bytes else t.base + (t.allRows - 1) * t.pitch + t.rowBytes

/-- The pieces of bytes off, off + 1, ... of rows of `rb` bytes that stand at the addresses `at_ r`. -/
def rowPieces (at_ : Nat → Nat) (rb : Nat) : Nat → Nat → Nat → List (Nat × Nat)
  | 0, _, _ => []
  | fuel + 1, off, len =>
    if len == 0 || rb == 0 then []
    else
      let o := off % rb
      let k := min len (rb - o)
      (at_ (off / rb) + o, k) :: rowPieces at_ rb fuel (off + k) (len - k)

/-- The pieces of bytes off to off + len − 1 of a dense region's transfer sequence (R243). -/
def Tile.pieces (t : Tile) (contig : Bool) (off len : Nat) : List (Nat × Nat) :=
  if contig then [(t.start + off, len)] else rowPieces (fun r => t.start + r * t.pitch) t.rowBytes (len + 1) off len

/-- The byte addresses of pieces. -/
def pieceAddrs (ps : List (Nat × Nat)) : List Nat := ps.flatMap fun p => (upTo p.2).map fun i => p.1 + i

/-- Owner of a space: the team, the segment or the context (R274). -/
def spaceOwner (s : State) (rank die grid tid ctx space : Nat) : Nat × Nat :=
  match space with
  | 0 => (0, tid)
  | 1 => (1, ((segOf s rank die grid).map (·.id)).getD 0)
  | _ => (2, ctx)

/-- The region lies within its holding or segment; a global region has no bound (R242). -/
def Tile.within (s : State) (g : Group) (die : Nat) (t : Tile) (contig : Bool) : Bool :=
  match t.space with
  | 0 => t.extent contig ≤ ((s.team? g.tid).map fun x => 4096 * x.holding).getD 0
  | 1 => (segOf s g.rank die g.grid).any fun sg => t.extent contig ≤ sg.size
  | _ => true

/-- BASE and PITCH are multiples of the element size, of 4 for l6 (R242). -/
def Tile.aligned (t : Tile) : Bool := t.base % fmtBytes t.fmt == 0 && t.pitch % fmtBytes t.fmt == 0

/-- Equal bytes per element (R242). -/
def Tile.sameSize (a b : Tile) : Bool := (a.fmt == 6) == (b.fmt == 6) && fmtBytes a.fmt == fmtBytes b.fmt

/-- PITCH holds a row (R242). -/
def Tile.pitchOk (t : Tile) : Bool := t.allRows ≤ 1 || t.rowBytes ≤ t.pitch

/-- Two regions share a byte of their spans in one space (R242). -/
def Tile.overlaps (a b : Tile) (ca cb : Bool) : Bool :=
  a.space == b.space && a.base < b.extent cb && b.base < a.extent ca

/-- A .2d region as COLL, ROT, XCHG, RSTO and PAIRST take it (R372): PLANES = 0, alignment, pitch and bounds. -/
def Tile.rowsOk (s : State) (g : Group) (die : Nat) (t : Tile) : Bool :=
  t.ok && t.planes == 1 && t.aligned && t.pitchOk && t.within s g die false

/-- The span of a region (R247). -/
def Tile.span (s : State) (g : Group) (die : Nat) (t : Tile) (contig write : Bool) : Span :=
  spanOf (spaceOwner s g.rank die g.grid g.tid g.ctx t.space) t.base (t.extent contig) write

/-! ### What an issue check answers -/

/-- The checks of an asynchronous word. -/
inductive Chk where
  | ok (spans : List Span)
  /-- illegal instruction with this cause -/
  | bad (sub : Nat)
  /-- a table entry could not be loaded (R317) -/
  | xf (f : VFault)
  /-- a table entry cannot be read now, and the word waits at issue -/
  | wait

/-- Several checks of one cause. -/
def Chk.need (b : Bool) (sub : Nat) (c : Chk) : Chk := if b then c else .bad sub

/-! ### The group table and the window table (R315 to R317, R323) -/

/-- A group-table entry from its 256 bytes (R315). -/
def gtOf (m : List Byte) : GtEntry :=
  let num (a n : Nat) : Nat := ofBytesLE ((m.drop a).take n)
  let bits := num 0 128
  { members := (upTo 1024).filter fun r => bitOf bits r
    rank := num 0x80 2, mode := num 0x82 1, seq := num 0x84 4, exmap := num 0x88 8, nexpert := num 0x90 2, cap := num 0x92 2
    badZero := bitsOf (num 0x82 1) 3 4 != 0 || num 0x83 1 != 0 || num 0x94 108 != 0 }

/-- VALID of an entry (R315). -/
def GtEntry.valid (e : GtEntry) : Bool := bitOf e.mode 7
/-- Exchange mode (R315). -/
def GtEntry.xmode (e : GtEntry) : Nat := bitsOf e.mode 0 2

/-- The entry keeps the limits of R315 at a package (R317). -/
def GtEntry.ok (e : GtEntry) (rank : Nat) : Bool :=
  e.valid && !e.badZero && 2 ≤ e.members.length && e.rank == rank && e.members.contains rank && e.xmode != 3 &&
    (e.xmode == 0 || (e.exmap % 16 == 0 && 1 ≤ e.nexpert && e.nexpert ≤ 4096)) && (e.xmode != 2 || 1 ≤ e.cap)

/-- A window entry from its 64 bytes (R323). -/
def rwOf (m : List Byte) : RwEntry :=
  let num (a n : Nat) : Nat := ofBytesLE ((m.drop a).take n)
  { base := num 0 8, length := num 8 8, home := num 0x10 2, op := num 0x12 1, flags := num 0x13 1, contrib := num 0x14 2
    doneaddr := num 0x18 8, badZero := num 0x16 2 != 0 || num 0x20 32 != 0 || bitsOf (num 0x13 1) 1 7 != 0 }

/-- The window is VALID and keeps the limits of R323. -/
def RwEntry.ok (e : RwEntry) : Bool :=
  bitOf e.flags 0 && !e.badZero && e.base % 256 == 0 && e.length % 256 == 0 && 256 ≤ e.length && e.length ≤ 2 ^ 40 &&
    e.home < 1024 && e.op ≤ 3 && 1 ≤ e.contrib && e.contrib ≤ 1024 && e.doneaddr % 4 == 0

/-- Bytes of the context's memory read by the device on a die. -/
def devRead (s : State) (rank die ctx va n : Nat) : State × GOut (List Byte) :=
  match gRead s rank die ctx va n .read with
  | (s, .fault a f) => (s, .fault a f)
  | (s, .wait) => (s, .wait)
  | (s, .ok bs) => (s, .ok (bs.map (·.1)))

/-- The address of a group-table entry. -/
def gtAddr (s : State) (rank ctx e : Nat) : Nat :=
  wrap64 ((sext57 (((s.ctx? rank ctx).map (·.gtbase)).getD 0)).toNat + 256 * e)
/-- The address of a window entry. -/
def rwAddr (s : State) (rank ctx w : Nat) : Nat :=
  wrap64 ((sext57 (((s.ctx? rank ctx).map (·.rwbase)).getD 0)).toNat + 64 * w)

/-- The entry that the device holds, loaded when an operation first names it (R316). -/
def loadGt (s : State) (rank die ctx e : Nat) : State × GOut GtEntry :=
  match (s.pkg? rank).bind fun p => p.gt.get (ctx, e) with
  | some x => (s, .ok x)
  | none =>
    let a := gtAddr s rank ctx e
    match devRead s rank die ctx a 256 with
    | (s, .fault _ f) => (s, .fault a f)
    | (s, .wait) => (s, .wait)
    | (s, .ok bs) =>
      (s.modPkg rank fun p => { p with gt := p.gt.put (ctx, e) (gtOf bs) }, .ok (gtOf bs))

/-- The window that the device holds. -/
def loadRw (s : State) (rank die ctx w : Nat) : State × GOut RwEntry :=
  match (s.pkg? rank).bind fun p => p.rw.get (ctx, w) with
  | some x => (s, .ok x)
  | none =>
    let a := rwAddr s rank ctx w
    match devRead s rank die ctx a 64 with
    | (s, .fault _ f) => (s, .fault a f)
    | (s, .wait) => (s, .wait)
    | (s, .ok bs) =>
      (s.modPkg rank fun p => { p with rw := p.rw.put (ctx, w) (rwOf bs) }, .ok (rwOf bs))

/-- A check that needs the group-table entry that a parameter word names (R317, R370). -/
def withGt (s : State) (g : Group) (die : Nat) (param : DWord) (k : State → GtEntry → State × Chk) : State × Chk :=
  match loadGt s g.rank die g.ctx (bitsOf param.toNat 0 8) with
  | (s, .fault a f) => (s, .xf (a, f))
  | (s, .wait) => (s, .wait)
  | (s, .ok e) => if e.ok g.rank then k s e else (s, .bad causeOperand)

/-- The members of an entry are of the domain of its package: a ROT takes no others (R441). -/
def GtEntry.oneDomain (s : State) (g : Group) (e : GtEntry) : Bool := e.members.all fun r => sameDomain s g.rank g.ctx r

/-! ### Operations -/

/-- The operation uses a copy-engine queue (R306). -/
def OpForm.queued : OpForm → Bool
  | .cpy _ => true
  | .coll _ => true
  | .rotRun => true
  | .xchg => true
  | .rotOpen | .rotClose | .rsto | .upd _ _ _ | .pairst | .place _ | .step | .snap => false

/-- The engine kind of ESTAT (R365, R389). -/
def OpForm.kind : OpForm → Nat
  | .cpy _ => 0
  | .coll _ => 1
  | .rsto => 1
  | .rotOpen | .rotRun | .rotClose => 2
  | .xchg => 3
  | .upd _ _ _ => 4
  | .pairst => 4
  | .place _ => 5
  | .step | .snap => 6

/-- The access path (R241, R365). -/
def OpForm.path : OpForm → Nat
  | .cpy f => match f with
    | .in1d | .in2d | .in3d | .inGather => 3
    | .out1d | .out2d | .out3d | .outScatter => 4
  | .coll _ => 3
  | .rotOpen | .rotRun | .rotClose | .xchg => 3
  | .rsto | .upd _ _ _ | .pairst | .place _ | .step | .snap => 4

/-- Barrier events of kind D (R246, R367). -/
def OpForm.delivers : OpForm → Bool
  | .cpy _ => true
  | .coll _ => true
  | .rotOpen | .rotRun | .rotClose | .xchg | .rsto | .upd _ _ _ | .pairst | .place _ | .step | .snap => false

/-- Barrier events of kind A (R367). -/
def OpForm.arrives : OpForm → Bool
  | .xchg | .rsto | .upd _ _ _ | .pairst | .place _ | .step | .snap => true
  | .cpy _ | .coll _ | .rotOpen | .rotRun | .rotClose => false

/-- The operation takes a number of its group-table entry (R317). -/
def OpForm.numbered : OpForm → Bool
  | .coll _ | .rotOpen | .rotRun | .rotClose | .xchg => true
  | .cpy _ | .rsto | .upd _ _ _ | .pairst | .place _ | .step | .snap => false

/-- The operation names an entry of a table that GTSYNC covers (R316). -/
def OpForm.tabled (f : OpForm) : Bool := f.numbered || f == .rsto || f == .snap

/-- The group-table entry of an operation. -/
def Op.entry (o : Op) : Nat := bitsOf o.param.toNat 0 8

/-- Bytes that an operation still has to move (R307). -/
def Op.bytesLeft (o : Op) : Nat :=
  let n := match o.form with
    | .cpy .outScatter => (tileOf o.ta).bytes
    | .cpy _ => (tileOf o.td).bytes
    | .coll _ => (tileOf o.td).bytes
    | .rotRun => (tileOf o.ta).bytes
    | .xchg => (tileOf o.ta).bytes
    | .rotOpen | .rotClose | .rsto | .upd _ _ _ | .pairst | .place _ | .step | .snap => 0
  n - 4096 * o.pidx

/-- The operations of a die's queue (R306). -/
def dieQueue (s : State) (rank die : Nat) : List Op :=
  s.ops.filter fun o => o.rank == rank && o.die == die && o.form.queued && o.st != .withdrawn

/-- The engine with the fewest queued bytes, the lowest on ties (R307). -/
def leastEngine (s : State) (rank die : Nat) : Nat :=
  let load (e : Nat) : Nat := (((dieQueue s rank die).filter fun o => o.engine == e).map Op.bytesLeft).sum
  [1, 2, 3].foldl (fun b e => if load e < load b then e else b) 0

/-- The step that carries an operation on. -/
def Op.go (o : Op) : List Move :=
  match o.form with
  | .cpy _ | .coll _ | .rotRun | .xchg => [.event (.engineChunkStart ⟨o.rank, o.die⟩ o.engine)]
  | .rotOpen => [.subject .rotOpenComplete o.id]
  | .rotClose => [.subject .rotCloseComplete o.id]
  | .rsto => (upTo ((tileOf o.ta).bytes / 256)).map fun i => .event (.rstoLineArrive o.id i)
  | .upd _ _ _ => [.subject .updBlockWrite o.id]
  | .pairst => [.subject .updBlockWrite o.id]
  | .place _ => [.event (.placeCopyDone o.rank 4096)]
  | .step => [.event (.stepBoundary o.rank)]
  | .snap => [.event (.stepBoundary o.rank)]

/-- The step that writes an operation's record. -/
def Op.fin (o : Op) : Move :=
  match o.form with
  | .cpy _ => .subject .copyComplete o.id
  | .coll _ => .subject .collComplete o.id
  | .rotOpen => .subject .rotOpenComplete o.id
  | .rotRun => .subject .rotRunComplete o.id
  | .rotClose => .subject .rotCloseComplete o.id
  | .xchg => .subject .xchgComplete o.id
  | .rsto => .subject .rstoComplete o.id
  | .upd _ _ _ => .subject .updComplete o.id
  | .pairst => .subject .pairstComplete o.id
  | .place _ => .event (.placeCopyDone o.rank 4096)
  | .step => .event (.stepBoundary o.rank)
  | .snap => .event (.stepBoundary o.rank)

/-- An operation is held by its predecessors (R313). -/
def opHeld (s : State) (o : Op) : Bool := o.preds.any fun p => inFlight s p

/-- The operations and matrix entries that an operation of this identity holds, with their levels (R313, R314). -/
def heldBehind (s : State) (id : Nat) : List (Nat × Nat) :=
  ((s.ops.filter fun x => x.preds.contains id && x.st == .queued).map fun x => (x.id, x.level)) ++
    s.cores.flatMap fun c => (c.fifo.filter fun e => e.preds.contains id && e.phase == .posted).map fun e => (e.id, e.level)

/-- The effective level of an operation or matrix entry: its own, raised by those held behind it (R314). -/
def lentLevel (s : State) : Nat → Nat → Nat → Nat
  | 0, _, level => level
  | fuel + 1, id, level => (heldBehind s id).foldl (fun m x => max m (lentLevel s fuel x.1 x.2)) level

/-- The effective level of an operation (R314). -/
def effLevel (s : State) (fuel : Nat) (o : Op) : Nat := lentLevel s fuel o.id o.level

/-- The operation that a step is made for. -/
def State.subjOp (s : State) : Option Op := (s.op? s.subj).filter fun o => o.st != .withdrawn

/-! ### Completion -/

/-- An operation of the kind has issued, as this flight (R389). -/
def EngSum.issue (e : EngSum) (seq : Nat) : EngSum := { e with flying := e.flying ++ [(seq, false)] }

/-- The record of this flight is written with a status; INFLIGHT counts on from the first operation whose record is not (R389). -/
def EngSum.written (e : EngSum) (seq st : Nat) : EngSum :=
  { lastst := st, any := true, flying := (e.flying.map fun f => (f.1, f.2 || f.1 == seq)).dropWhile (·.2) }

/-- The summary of a kind (R389). -/
def Group.summary (g : Group) (kind : Nat) : EngSum := g.eng[kind]?.getD ⟨0, false, []⟩

/-- The record v of an operation, as flight `seq`, with its k register, its kind and its status, reaches its group: k[n] is
written and free, the path returns (R59, R214, R368), and the summary of its kind changes (R389). -/
def landRecord (s : State) (gid seq kn kind st : Nat) (v : DWord) : State :=
  s.modGroup gid fun g =>
    { (g.setBusyK kn v).ret seq with eng := g.eng.setIfInBounds kind ((g.summary kind).written seq st) }

/-- The status in a record; that of a STEP carries none, and its operation completed OK (R366, R390). -/
def OpForm.statusIn (f : OpForm) (v : DWord) : Nat := if f == .step then stOk else bitsOf v.toNat 0 4

/-- The replay-window trap of an RSTO that ended ERROR, with its SEQV (R326, R404). -/
def replayTrap (s : State) (gid : Nat) (trap : Option Nat) : State :=
  match trap with
  | none => s
  | some n => pendTrap s gid 9 ⟨0, tinfoOf 0 0 0 0 n, 0⟩

/-- The group number of an operation's issuer. -/
def opGroup (s : State) (o : Op) : Nat := ((s.team? o.tid).map fun t => t.gids.idxOf o.gid).getD 0

/-- What an engine holds of a detached operation: deliveries in [31:0], arrivals in [47:32] (R412, R413). -/
def heldCounts (s : State) (o : Op) : Nat :=
  let evs := (((s.team? o.tid).map (·.held)).getD []).filter fun h => h.1 == o.id
  let count (p : BEv → Bool) : Nat := (evs.filter fun h => match h.2 with
    | .bar _ ev => p ev
    | .record _ _ => false).length
  count (fun ev => match ev with
    | .deliver _ => true
    | .init _ | .expect _ | .arrive => false) % 2 ^ 32 + count (· == .arrive) % 2 ^ 16 * 2 ^ 32

/-- The blocks or chunks that PIDX reports: of a UPD those written, none in the first pass of a LAMB (R368, R383, R389). -/
def Op.progress (o : Op) : Nat :=
  match o.form with
  | .upd opt _ _ => if opt == .lamb && o.pass == 0 then 0 else o.pidx - o.errs
  | .cpy _ | .coll _ | .rotRun => o.pidx
  | .rotOpen | .rotClose | .xchg | .rsto | .pairst | .place _ | .step | .snap => 0

/-- The record of an operation in a STATE: 0 QUEUED, 1 STOPPED, 2 DETACHED, then with what its engine holds, and its completion
record once that is made (R412). -/
def opRecord (s : State) (o : Op) (st : Nat) (v : Option DWord) : List Byte :=
  let id0 := o.kind % 16 + st * 2 ^ 4 + opGroup s o % 64 * 2 ^ 6 + o.kn.toNat * 2 ^ 12 + b2n o.bar.isSome * 2 ^ 16 +
    ((o.bar.map BitVec.toNat).getD 0) * 2 ^ 17 + b2n o.foe * 2 ^ 22 + o.die % 4 * 2 ^ 23 + o.word.toNat * 2 ^ 32
  let lamb := if o.kind == 4 then o.pass % 2 + o.nw % 2 ^ 32 * 2 ^ 64 + o.nd % 2 ^ 32 * 2 ^ 96 else 0
  let held := if st == 2 then heldCounts s o + b2n v.isSome * 2 ^ 48 else 0
  bytesLE 8 id0 ++ bytesLE 8 o.param.toNat ++ bytesLE 16 o.td.toNat ++ bytesLE 16 o.ta.toNat ++ bytesLE 16 o.tn.toNat ++
    bytesLE 8 o.progress ++ bytesLE 8 o.seqno ++ bytesLE 8 (o.level % 256 + o.id % 2 ^ 56 * 2 ^ 8) ++ bytesLE 16 lamb ++
    bytesLE 8 held ++ bytesLE 8 ((v.map BitVec.toNat).getD 0) ++ bytesLE 8 (o.ctx % 2 ^ 16)

/-- An operation completes with its record, and with the tag of its trap if it raises one: barrier events of a failure (kind D) or
of completion (kind A), the record, and the release of its entry (R246, R312, R326, R366 to R368). While its engine holds what it
makes, the record is kept (R413). -/
def completeTrap (s : State) (o : Op) (v : DWord) (trap : Option Nat) : State :=
  let s := match o.bar with
    | none => s
    | some b =>
      if o.form.delivers then (if o.status == stOk then s else barEngine s o.id o.tid b (some (2 ^ 40)))
      else if o.form.arrives then barEngine s o.id o.tid b none
      else s
  let held := (s.team? o.tid).any fun t => engineHolds s t o.id
  let record := opRecord s o 2 (some v)
  let s := { s with ops := s.ops.filter fun x => x.id != o.id }
  let s := if held then
      (keepEvent s o.tid o.id (.record v trap)).modTeam o.tid fun t => { t with doneRecs := t.doneRecs ++ [record] }
    else replayTrap (landRecord s o.gid o.flight o.kn.toNat o.kind (o.form.statusIn v) v) o.gid trap
  if (s.group? o.gid).isNone then s.owe [.event (.gridRetire o.grid)] else s

/-- An operation completes with its record. -/
def complete (s : State) (o : Op) (v : DWord) : State := completeTrap s o v none

/-- An operation's status is decided; its record is due. -/
def ending (s : State) (o : Op) (st : Nat) : State :=
  (s.modOp o.id fun o => { o with status := st, st := .ending, chunks := [] }).owe [o.fin]

/-! ### Chunks in flight (R244, R307 to R309) -/

/-- The next chunk to start: the lower ones are committed or in flight. -/
def Op.nextChunk (o : Op) : Nat := o.pidx + o.chunks.length

/-- The chunk keeps later ones from starting: it is parked, or has failed. -/
def ChunkSt.stops : ChunkSt → Bool
  | .parked _ _ | .failed _ => true
  | .moving | .here => false

/-- A sequence of `total` bytes has a chunk to start. -/
def Op.hasChunk (o : Op) (total : Nat) : Bool := 4096 * o.nextChunk < total && !o.chunks.any fun c => c.st.stops

/-- A chunk's state replaced. -/
def Op.setChunk (o : Op) (idx : Nat) (st : ChunkSt) : Op :=
  { o with chunks := modWhere (fun c => c.idx == idx) (fun c => { c with st := st }) o.chunks }

/-- The step that commits an operation's lowest chunk. -/
def Op.commit (o : Op) : List Move :=
  match o.form with
  | .cpy _ => [.subject .copyChunkCommit o.id]
  | .coll _ => [.subject .collChunkCommit o.id]
  | .upd _ _ _ | .pairst => [.subject .updBlockWrite o.id]
  | .rotOpen | .rotRun | .rotClose | .xchg | .rsto | .place _ | .step | .snap => []

/-- The lowest chunk may have become ready to commit; a failed one decides the status (R309). -/
def settleHead (s : State) (id : Nat) : State :=
  match s.op? id with
  | none => s
  | some o => match o.chunks.head? with
    | none => s
    | some c => match c.st with
      | .here => s.owe o.commit
      | .failed st => ending s o st
      | .moving | .parked _ _ => s

/-- A chunk changes its state, and with it, when it is the lowest, its operation. -/
def chunkTo (s : State) (id idx : Nat) (st : ChunkSt) : State :=
  let s' := s.modOp id fun o => o.setChunk idx st
  if ((s'.op? id).bind fun o => o.chunks.head?).any fun c => c.idx == idx then settleHead s' id else s'

/-- A chunk has crossed every package on its way. -/
def chunkHere (s : State) (id idx : Nat) : State :=
  if (s.op? id).any fun o => o.chunks.any fun c => c.idx == idx && c.st == .moving then chunkTo s id idx .here else s

/-- The packages, other than the operation's own, at which a region's pieces are performed. -/
def farHomes (s : State) (o : Op) (space : Nat) (acc : Access) (ps : List (Nat × Nat)) : List Nat :=
  if space != 2 then []
  else match (xlateAll s o.rank o.die o.ctx acc (ps.flatMap fun p => linePieces p.1 p.2)).2 with
    | .ok l => ((l.map fun x => x.2.2.home).filter (· != o.rank)).dedup
    | .fault _ _ | .wait => []

/-- A chunk that has been read goes on its way: through the packages it was read from, its own and those it is written to. -/
def sendChunk (s : State) (o : Op) (srcs dsts : List Nat) (data : List (Nat × PByte)) : State :=
  let idx := o.nextChunk
  travel (s.modOp o.id fun o => { o with chunks := o.chunks ++ [⟨idx, .moving, data⟩] }) (some o.id) (srcs ++ [o.rank] ++ dsts)
    (.chunk o.id idx) fun s => chunkHere s o.id idx

/-! ### Faults of engines (R227, R228) -/

/-- A fault record posted, or kept until one frees. -/
def postFault (s : State) (rank die : Nat) (r : FaultRec) : State :=
  let s := s.modPkg rank fun p => p.modDie die fun d =>
    if d.faults.length < 64 then
      { d with faults := d.faults.put (((upTo 64).find? fun i => (d.faults.get i).isNone).getD 0) r }
    else { d with unrecorded := d.unrecorded ++ [r] }
  { s with host := { s.host with events := s.host.events ++ [(rank, 2)] } }

/-- OPTAG as a fault record holds it. -/
def Op.tag32 (o : Op) : Nat := o.id % 2 ^ 32

/-- The record of a translation fault of an operation. -/
def opFault (s : State) (o : Op) (va : Nat) (f : XFault) (access : Nat) : State :=
  postFault s o.rank o.die ⟨bitsOf va 0 57, f.cause, f.level, false, access, o.kind, o.ctx, o.tag32⟩

/-- The operation parks on a translation fault. -/
def park (s : State) (o : Op) (va : Nat) (f : XFault) (access : Nat) : State :=
  opFault (s.modOp o.id fun o => { o with st := .parked }) o va f access

/-- A chunk parks on a translation fault of its read, and is then listed without bytes, or of its write (R227, R309). -/
def parkChunk (s : State) (o : Op) (idx va : Nat) (f : XFault) (write : Bool) : State :=
  let mine : Bool := o.chunks.any fun c => c.idx == idx
  opFault (s.modOp o.id fun o =>
    if mine then o.setChunk idx (.parked va write) else { o with chunks := o.chunks ++ [⟨idx, .parked va write, []⟩] }) o va f (b2n write)

/-- The record of an index is freed, and the first fault that waits for one takes it (R227). -/
def freeFault (s : State) (d : DieId) (i : Nat) : State :=
  s.modPkg d.rank fun p => p.modDie d.die fun r =>
    match r.unrecorded with
    | [] => { r with faults := r.faults.del i }
    | f :: fs => { r with faults := r.faults.put i f, unrecorded := fs }

/-- The chunk is the one that a record was posted for. -/
def OpChunk.parkedAt (c : OpChunk) (va : Nat) : Bool :=
  match c.st with
  | .parked a _ => bitsOf a 0 57 == va
  | .moving | .here | .failed _ => false

/-- The operation is parked, or a chunk of it, where a record says. -/
def Op.parkedAt (o : Op) (va : Nat) : Bool := o.st == .parked || o.chunks.any fun c => c.parkedAt va

/-- The operation that a record was posted for. -/
def faultOp (s : State) (d : DieId) (r : FaultRec) : Option Op :=
  s.ops.find? fun o => o.rank == d.rank && o.die == d.die && o.tag32 == r.optag && o.st != .withdrawn && o.parkedAt r.va

/-! ### Notices (R317) -/

/-- An operation becomes known at another member: by the fabric in its domain, by the scale-out transport outside it (R317, R441). -/
def notify (s : State) (o : Op) (r : Nat) : State :=
  let here (s : State) : State := s.modOp o.id fun o => { o with told := r :: o.told }
  if sameDomain s o.rank o.ctx r then travel s (some o.id) [o.rank, r] (.notice o.id r) here else here s

/-- The members of the entry that a package holds for an operation. -/
def opMembers (s : State) (o : Op) : List Nat :=
  ((((s.pkg? o.rank).bind fun p => p.gt.get (o.ctx, o.entry))).map (·.members)).getD []

/-- Every other member that does not know of the operation is told. -/
def tellMembers (s : State) (o : Op) : State :=
  ((opMembers s o).filter fun r => r != o.rank && !o.told.contains r).foldl (fun s r => notify s o r) s

/-- A numbered operation is made known to the members at its issue; a collective when its source is captured, which goes with its
notice (R317, R319). -/
def announce (s : State) (o : Op) : State :=
  match o.form with
  | .rotOpen | .rotRun | .rotClose | .xchg => tellMembers s o
  | .coll _ => if o.src.isSome then tellMembers s o else s
  | .cpy _ | .rsto | .upd _ _ _ | .pairst | .place _ | .step | .snap => s

/-- The tokens of exchanges that wait at a member. -/
def waitingTokens (s : State) (rank : Nat) : List Move :=
  s.ops.flatMap fun o => if o.form != .xchg then [] else (o.tokens.filter fun t => match t.2 with
    | .at_ r _ _ => r == rank
    | .flying | .answered => false).map fun t => .event (.xchgTokenAccept o.id t.1)

/-! ### Posting -/

/-- A new operation of a group. -/
def newOp (s : State) (g : Group) (id : Nat) (form : OpForm) (word : Word) (td ta tn : QWord) (param : DWord) (kn : XReg)
    (bar : Option BReg) (foe : Bool) (spans : List Span) : Op :=
  { id := id, rank := g.rank, die := g.core.die, ctx := g.ctx, core := g.core, gid := g.gid, tid := g.tid, grid := g.grid, kind := form.kind
    form := form, word := word, param := param, td := td, ta := ta, tn := tn, kn := kn, bar := bar, foe := foe
    level := g.level.toNat, seqno := 0, engine := leastEngine s g.rank g.core.die, flight := g.nextSeq, st := .queued
    spans := spans, preds := if foe then unitPreds s g.core spans else [], pidx := 0, chunks := [], told := [], tokens := [], status := 0, extra := 0
    src := none, pass := 0, nw := 0, nd := 0, applied := 0, dups := 0, errs := 0, results := [], filled := 0, bound := 0
    detached := false }

/-- The number that an operation takes at issue (R317, R325): of its group-table entry, or the group's RSEQ. -/
def takeNumber (s : State) (g : Group) (o : Op) : State × Op :=
  if o.form.numbered then
    match (s.pkg? g.rank).bind fun p => p.gt.get (g.ctx, o.entry) with
    | none => (s, o)
    | some e =>
      (s.modPkg g.rank fun p => { p with gt := p.gt.put (g.ctx, o.entry) { e with seq := (e.seq + 1) % 2 ^ 32 } },
        { o with seqno := e.seq })
  else if o.form == .rsto then
    (s.modGroup g.gid fun g => { g with rseq := g.rseq + 1 }, { o with seqno := g.rseq.toNat })
  else (s, o)

/-- The word waits at issue for a resource: a synchronisation (R316), its path's counter (R214), the footprint unit (R312)
or the die's queue (R306). -/
def engineStall (s : State) (g : Group) (form : OpForm) (foe : Bool) : Bool :=
  (form.tabled && (s.pkg? g.rank).any fun p => p.gtBusy) || g.pathFull form.path || (foe && unitFull s g.core) ||
    (form.queued && 1024 ≤ (dieQueue s g.rank g.core.die).length)

/-- An asynchronous word (R241, R364 to R369): a CPY, which is of the memory class, waits for the group's fences (R252), and every
form for its PFENCE (R281); then k[n] free, its checks, the resources, then its operation. -/
def engineWord (s : State) (i : Instr) (form : OpForm) (td ta : XReg) (kn : XReg) (bar : Option BReg) (foe : Bool)
    (check : State → Group → Nat → QWord → QWord → QWord → DWord → State × Chk) (init : State → Op → State × Op) : Outcome :=
  issue s false fun x =>
    if x.g.ksBusy [kn.toNat] then block x.s x.is .scoreboard
    else if x.g.anyWait Wait.pfences || (form.kind == 0 && x.g.fenced) then x.s
    else
      let d := x.g.tr td
      let a := x.g.tr ta
      let n := x.g.tr kn
      let param := x.g.kr kn.toNat
      if form.tabled && (x.s.pkg? x.g.rank).any fun p => p.gtBusy then x.s
      else
        match check x.s x.g x.g.core.die d a n param with
        | (s, .bad sub) => takeTrap s x.is 2 ⟨sub, 0, 0⟩
        | (s, .xf f) => takeTrap s x.is 5 (faultD f 0)
        | (_, .wait) => x.s
        | (s, .ok spans) =>
          if engineStall s x.g form foe then s
          else
            let (id, s) := s.gensym
            let o := newOp s x.g id form (issuedWords i).1 d a n param kn bar foe spans
            let (s, o) := takeNumber s x.g o
            let (s, o) := init s o
            let s := { s with ops := s.ops ++ [o] }
            let s := s.modGroup x.is.gid fun g =>
              { (g.raise { Flight.plain form.path .engine x.f.mask x.f.mask id with word := (issuedWords i).1 }).holdK kn.toNat with
                eng := g.eng.setIfInBounds form.kind ((g.summary form.kind).issue g.nextSeq) }
            advance (announce (s.owe o.go) o) x.is 1

/-- No further state at issue. -/
def noInit (s : State) (o : Op) : State × Op := (s, o)

end Sys2Proof.Machine
end

