-- ==== Sys2Proof/Machine/Copy.lean ====
section
/-! DEFINITION. CPY (R241 to R248): its checks, its chunks and its record; translation invalidation (R224) and the resolution
of fault records (R228). -/

namespace Sys2Proof.Machine

/-- A form moves contiguous regions (R243). -/
def cpyContig : CpyForm → Bool
  | .in1d => true
  | .out1d => true
  | .in2d | .in3d | .inGather | .out2d | .out3d | .outScatter => false

/-- A form with an index list (R241). -/
def cpyIndexed : CpyForm → Bool
  | .inGather => true
  | .outScatter => true
  | .in1d | .in2d | .in3d | .out1d | .out2d | .out3d => false

/-- An .in form (R241). -/
def cpyInward : CpyForm → Bool
  | .in1d | .in2d | .in3d | .inGather => true
  | .out1d | .out2d | .out3d | .outScatter => false

/-- The checks of R242; all have cause TILE. -/
def cpyOk (s : State) (g : Group) (die : Nat) (f : CpyForm) (d a n : Tile) : Bool :=
  let three := f == .in3d || f == .out3d
  let two := f == .in2d || f == .out2d
  let list := n.ok && n.space ≤ 1 && (n.fmt == 9 || n.fmt == 10) && n.rows == 1 && n.planes == 1 && n.aligned && n.within s g die false
  d.ok && a.ok && (if cpyInward f then d.space ≤ 1 else d.space == 2) && d.sameSize a && d.aligned && a.aligned && d.cols == a.cols &&
    (if cpyIndexed f then d.planes == 1 && a.planes == 1 else d.rows == a.rows && d.planes == a.planes && (three || d.planes == 1)) &&
    (!(two || three) || (d.pitchOk && a.pitchOk)) &&
    (!cpyIndexed f || (list && (if f == .inGather then d.rows else a.rows) == n.cols)) &&
    d.within s g die (cpyContig f) && a.within s g die (cpyContig f) && !d.overlaps a (cpyContig f) (cpyContig f)

/-- The footprint of a CPY (R247). -/
def cpySpans (s : State) (g : Group) (die : Nat) (f : CpyForm) (d a n : Tile) : List Span :=
  [a.span s g die (cpyContig f) false, d.span s g die (cpyContig f) true] ++ (if cpyIndexed f then [n.span s g die false false] else [])

/-- The check of a CPY at issue. -/
def cpyCheck (f : CpyForm) (s : State) (g : Group) (die : Nat) (td ta tn : QWord) (_ : DWord) : State × Chk :=
  (s, if cpyOk s g die f (tileOf td) (tileOf ta) (tileOf tn) then .ok (cpySpans s g die f (tileOf td) (tileOf ta) (tileOf tn))
    else .bad causeTile)

/-- CPY (R241, R242). -/
def execCpy (form : CpyForm) (td ta n : XReg) (f : Compl) (s : State) : Outcome :=
  engineWord s (.cpy form td ta n f) (.cpy form) td ta n f.bar f.foe (cpyCheck form) noInit

/-! ### Chunks (R243, R244) -/

/-- Bytes of a copy's transfer sequence. -/
def cpyLen (f : CpyForm) (o : Op) : Nat := if f == .outScatter then (tileOf o.ta).bytes else (tileOf o.td).bytes

/-- The entries of an index list for rows r to r + k − 1 (R243). -/
def indexEntries (s : State) (o : Op) (r k : Nat) : State × List Int :=
  let n := tileOf o.tn
  match engRead s o n.space (n.start + 4 * r) (4 * k) with
  | (s, .ok bs) =>
    (s, (wordsOf (bs.map (·.1))).map fun w => if n.fmt == 9 then w.toInt else (w.toNat : Int))
  | (s, _) => (s, [])

/-- An index names a row of the table region (R243). -/
def indexOk (t : Tile) (x : Int) : Bool := 0 ≤ x && x < t.rows

/-- The source and destination pieces of bytes off to off + len − 1; none for an index out of range. -/
def cpyPieces (s : State) (o : Op) (f : CpyForm) (off len : Nat) : State × Option (List (Nat × Nat) × List (Nat × Nat)) :=
  let d := tileOf o.td
  let a := tileOf o.ta
  if cpyIndexed f then
    let rb := d.rowBytes
    let r := off / rb
    let (s, xs) := indexEntries s o r ((off + len - 1) / rb - r + 1)
    let table := if f == .inGather then a else d
    if xs.all fun x => indexOk table x then
      let at_ (e : Nat) : Nat := table.start + (xs.getD (e - r) 0).toNat * table.pitch
      let by_ := rowPieces at_ rb (len + 1) off len
      (s, some (if f == .inGather then (by_, d.pieces false off len) else (a.pieces false off len, by_)))
    else (s, none)
  else (s, some (a.pieces (cpyContig f) off len, d.pieces (cpyContig f) off len))

/-- A chunk that fails when it is to be read; the lowest that fails decides the status (R309). -/
def failChunk (s : State) (o : Op) (st : Nat) : State :=
  chunkTo (s.modOp o.id fun o => { o with chunks := o.chunks ++ [⟨o.nextChunk, .moving, []⟩] }) o.id o.nextChunk (.failed st)

/-- The next chunk of a copy read by its engine (R244). -/
def startCpy (s : State) (o : Op) (f : CpyForm) : State :=
  let off := 4096 * o.nextChunk
  let len := min 4096 (cpyLen f o - off)
  let a := (tileOf o.ta).space
  let d := (tileOf o.td).space
  match cpyPieces s o f off len with
  | (s, none) => failChunk s o stError
  | (s, some (src, dst)) =>
    match engReads s o a src with
    | (s, .fault va x) => parkChunk s o o.nextChunk va x false
    | (_, .wait) => s
    | (s, .ok bs) => sendChunk s o (farHomes s o a .read src) (farHomes s o d .write dst) ((pieceAddrs dst).zip bs)

/-- A chunk has been committed: its delivery event (R246, R318), and the next chunk or the end. -/
def chunkDone (s : State) (o : Op) (n total : Nat) : State :=
  let s := if o.form.delivers then (match o.bar with
      | none => s
      | some b => barEngine s o.id o.tid b (some n)) else s
  let s := s.modOp o.id fun o => { o with pidx := o.pidx + 1, chunks := o.chunks.tail }
  if total ≤ 4096 * (o.pidx + 1) then ending s o stOk else o.go.foldl State.oweOnce (settleHead s o.id)

/-- The lowest chunk's bytes written at its destination: the operation goes on, its chunk parks, it fails with CAPACITY, or it tries
again (R244, R309, R311). -/
def commitChunk (s : State) (o : Op) (total : Nat) : State :=
  match o.chunks.head? with
  | none => s
  | some c =>
    if c.st != .here then s
    else match engRuns s o (tileOf o.td).space (runsOf c.data) with
      | .done s => chunkDone s o c.data.length total
      | .fault s va f => parkChunk s o c.idx va f true
      | .capacity s => ending s o stCapacity
      | .wait s => s.owe o.commit

/-- COPY_CHUNK_COMMIT (R244, R246). -/
def execCopyChunkCommit (s : State) : Outcome :=
  .next (match s.subjOp with
    | none => s
    | some o =>
      match o.form with
      | .cpy f => commitChunk s o (cpyLen f o)
      | _ => s)

/-- STATUS and PREFIX (R245). -/
def prefixRecord (o : Op) (total : Nat) : DWord :=
  BitVec.ofNat 64 (o.status + (if o.status == stOk then total else 4096 * o.pidx) * 2 ^ 8)

/-- COPY_COMPLETE (R245, R246, R309). -/
def execCopyComplete (s : State) : Outcome :=
  .next (match s.subjOp with
    | none => s
    | some o =>
      match o.form with
      | .cpy f => if o.st == .ending then complete s o (prefixRecord o (cpyLen f o)) else s
      | _ => s)

/-! ### Fault records (R228) -/

/-- What was parked at an address goes on: a chunk that was to be written commits, one that was to be read is read again, and the
operation itself is taken up again, with the tokens that wait at its member (R228, R309, R328). -/
def unpark (s : State) (o : Op) (va : Nat) : State :=
  match o.chunks.find? fun c => c.parkedAt va with
  | some c => match c.st with
    | .parked _ true => chunkTo s o.id c.idx .here
    | .parked _ false => (s.modOp o.id fun o => { o with chunks := o.chunks.filter fun x => x.idx != c.idx }).owe o.go
    | .moving | .here | .failed _ => s
  | none => (s.modOp o.id fun o => { o with st := .queued }).owe (o.go ++ waitingTokens s o.rank)

/-- The chunk parked at an address fails with FAULT, or the operation does (R228, R309). -/
def abortAt (s : State) (o : Op) (va : Nat) : State :=
  match o.chunks.find? fun c => c.parkedAt va with
  | some c => chunkTo s o.id c.idx (.failed stFault)
  | none => ending s o stFault

/-- FAULT_RESUME (R228, R316, R409). -/
def execFaultResume (d : DieId) (index : Nat) (s : State) : Outcome :=
  .next (match (s.pkg? d.rank).bind fun p => (p.die d.die).faults.get index with
    | none => s
    | some r =>
      let s' := freeFault s d index
      if r.wdrn then s'
      else if r.engine == 7 then s'.owe [.event (.gtsyncReload d.rank)]
      else if r.engine == 8 then s'.owe [.event (.preemptRequest d.rank)]
      else match faultOp s d r with
        | none => s'
        | some o => unpark s' o r.va)

/-- An aborted context save leaves the team resident and stopped, and every group of it FAULTED (R409). -/
def abortSave (s : State) (tid : Nat) : State :=
  { s.modTeam tid fun t => { t with st := .resident } with
    groups := modWhere (fun g => g.tid == tid && g.wave.isNone)
      (fun g => { g with stopped := true, trap := { g.trap with faulted := true } }) s.groups }

/-- FAULT_ABORT (R228, R316, R409). -/
def execFaultAbort (d : DieId) (index : Nat) (s : State) : Outcome :=
  .next (match (s.pkg? d.rank).bind fun p => (p.die d.die).faults.get index with
    | none => s
    | some r =>
      let s' := freeFault s d index
      if r.wdrn then s'
      else if r.engine == 7 then s'.modPkg d.rank fun p => { p with gtBusy := false, gtFault := true }
      else if r.engine == 8 then abortSave s' r.optag
      else match faultOp s d r with
        | none => s'
        | some o => abortAt s' o r.va)

/-! ### Invalidation (R224) -/

/-- TLB_INVALIDATE (R224): a write of TLBICTL. A GO starts the invalidation of the range and context as the registers then
stand; one while BUSY is 1 is ignored. -/
def execTlbInvalidate (d : DieId) (value : Nat) (s : State) : Outcome :=
  .next (match s.pkg? d.rank with
    | none => s
    | some p =>
      let go := bitOf value 0
      if go && (p.die d.die).tlbJob.isSome then s
      else
        let all := bitOf value 2
        let ctx := bitsOf value 16 16
        let s := s.modPkg d.rank fun p => p.modDie d.die fun r =>
          { r with tlbAll := all, tlbCtx := ctx, tlbJob := if go then some ⟨all, ctx, r.tlbiva, r.tlbisz⟩ else r.tlbJob }
        if go then s.owe [.event (.tlbInvalidateDone d)] else s)

/-- The invalidation covers a translation (R224). -/
def TlbJob.covers (j : TlbJob) (e : TlbEntry) : Bool :=
  (j.all || e.ctx == j.ctx) &&
    (j.isz == 0 || (4096 * j.iva < bitsOf e.va 0 57 + e.size && bitsOf e.va 0 57 < 4096 * (j.iva + j.isz)))

/-- TLB_INVALIDATE_DONE (R224): the translations covered are gone, and BUSY falls. -/
def execTlbInvalidateDone (d : DieId) (s : State) : Outcome :=
  .next (s.modPkg d.rank fun p => p.modDie d.die fun r =>
    match r.tlbJob with
    | some j => { r with tlb := r.tlb.filter fun e => !j.covers e, tlbJob := none }
    | none => r)

end Sys2Proof.Machine
end

