-- ==== Sys2Proof/Machine/Coll.lean ====
section
/-! DEFINITION. The matching of operations between the members of a group-table entry (R315, R317, R370), GTSYNC (R316) and
COLL (R318 to R320, R371 to R373). -/

namespace Sys2Proof.Machine

/-! ### Members and matching -/

/-- The group-table entry of an operation, as its package holds it. -/
def opGt (s : State) (o : Op) : Option GtEntry := (s.pkg? o.rank).bind fun p => p.gt.get (o.ctx, o.entry)

/-- The operation that a member has issued under the same number (R317). A rot.open that failed at issue is still matched
after its own record is written (R375). -/
def memberOp (s : State) (o : Op) (r : Nat) : Option Op :=
  s.ops.find? fun x => x.rank == r && x.ctx == o.ctx && x.form.numbered && x.entry == o.entry && x.seqno == o.seqno &&
    (x.st != .withdrawn || (x.form == .rotOpen && x.pass == 2))

/-- Every other member knows of the operation. -/
def Op.known (o : Op) (members : List Nat) : Bool := members.all fun r => r == o.rank || o.told.contains r

/-- The operations of every member in the order of position; none while a member has not issued its own, or does not know of
another's (R317). -/
def memberOps (s : State) (o : Op) : Option (List Op) :=
  match opGt s o with
  | none => none
  | some e =>
    let l := e.members.filterMap fun r => memberOp s o r
    if l.length == e.members.length && l.all fun x => x.known e.members then some l else none

/-- What must agree between the members (R317, R370, R372, R375, R378). -/
def matchKey (s : State) (o : Op) : List Nat :=
  (match o.form with
    | .coll f =>
      let code := match f with
        | .allreduce => 0 | .reducescatter => 1 | .allgather => 2 | .bcast => 3 | .alltoall => 4
      [1, code, bitsOf o.param.toNat 8 14, (tileOf o.ta).bytes]
    | .rotOpen => [2, (tileOf o.td).bytes]
    | .rotRun => [3]
    | .rotClose => [4]
    | .xchg => [5, (tileOf o.ta).rowBytes]
    | .cpy _ | .rsto | .upd _ _ _ | .pairst | .place _ | .step | .snap => [6]) ++
    ((opGt s o).map (·.members)).getD []

/-- Every member has issued an operation that agrees with this one. -/
inductive Matched where
  | waiting
  | mismatch (ops : List Op)
  | agreed (ops : List Op)

def matching (s : State) (o : Op) : Matched :=
  match memberOps s o with
  | none => .waiting
  | some l => if l.all fun x => matchKey s x == matchKey s o then .agreed l else .mismatch l

/-- Every member's operation ends with status ERROR and moves no data (R317). -/
def endAll (s : State) (l : List Op) (st : Nat) : State :=
  l.foldl (fun s o => if o.st == .ending then s else ending s o st) s

/-! ### GTSYNC (R316) -/

/-- GTSYNC_GO (R316): a write of GTSYNC. A GO while BUSY is 1 is ignored. -/
def execGtsyncGo (rank value : Nat) (s : State) : Outcome :=
  .next (match s.pkg? rank with
    | none => s
    | some p =>
      let go := bitOf value 10
      if go && p.gtBusy then s
      else
        let s := s.modPkg rank fun p =>
          { p with gtsync := bitsOf value 0 10, gtBusy := p.gtBusy || go, gtFault := p.gtFault && !go }
        if go then s.owe [.event (.gtsyncReload rank)] else s)

/-- A fault of the device's table access, as a record of ENGINE 7 (R227, R316). -/
def gtFaultRec (s : State) (rank ctx : Nat) (f : VFault) (access : Nat) : State :=
  postFault s rank 0 ⟨bitsOf f.1 0 57, f.2.cause, f.2.level, false, access, 7, ctx, 0⟩

/-- What one access of a synchronisation comes to. -/
inductive Reload where
  | done (s : State)
  /-- parked on a translation fault -/
  | parked (s : State)
  /-- the access cannot be made now -/
  | again (s : State)

/-- Device reads of an entry, and what they load. -/
def reloadWith (s : State) (rank ctx va n : Nat) (put : List Byte → Pkg → Pkg) : Reload :=
  match devRead s rank 0 ctx va n with
  | (s, .fault a f) => .parked (gtFaultRec s rank ctx (a, f) 0)
  | (s, .wait) => .again s
  | (s, .ok bs) => .done (s.modPkg rank (put bs))

/-- One covered group-table entry: SEQ written back, then the entry reloaded (R316). -/
def reloadGt (s : State) (rank : Nat) (k : (Nat × Nat) × GtEntry) : Reload :=
  let (ctx, e) := k.1
  let a := gtAddr s rank ctx e
  match gWrite s rank 0 ctx (a + 0x84) (sound (bytesLE 4 k.2.seq)) with
  | (s, .fault va f) => .parked (gtFaultRec s rank ctx (va, f) 1)
  | (s, .wait) => .again s
  | (s, .ok ()) => reloadWith s rank ctx a 256 fun bs p => { p with gt := p.gt.put (ctx, e) (gtOf bs) }

/-- One covered window entry reloaded (R316). -/
def reloadRw (s : State) (rank : Nat) (k : (Nat × Nat) × RwEntry) : Reload :=
  let (ctx, w) := k.1
  reloadWith s rank ctx (rwAddr s rank ctx w) 64 fun bs p => { p with rw := p.rw.put (ctx, w) (rwOf bs) }

/-- Entries reloaded until one faults or must wait. -/
def reloadEach {α : Type} (f : State → α → Reload) : List α → State → Reload
  | [], s => .done s
  | a :: r, s =>
    match f s a with
    | .done s => reloadEach f r s
    | x => x

/-- The windows that a synchronisation covers, in every context of its package: their filters empty, and their partial rounds go,
whether or not the package itself holds the window (R324, R326; log 72). -/
def emptyWindows (s : State) (rank : Nat) (covers : Nat → Bool) : State :=
  let hit (ctx w : Nat) : Bool := covers w && (s.ctx? rank ctx).isSome
  { s with fab := { s.fab with
      filters := s.fab.filters.filter fun f => !hit f.1.1 f.1.2.1
      rounds := s.fab.rounds.filter fun r => !hit r.1.1 r.1.2.1 } }

/-- The operation is in flight on a group-table entry that a synchronisation covers (R316). -/
def Op.onGt (o : Op) (covers : Nat → Bool) : Bool :=
  (o.form.numbered && covers o.entry) || (o.form == .snap && bitOf o.param.toNat 0 && covers (bitsOf o.param.toNat 8 8))

/-- GTSYNC_RELOAD (R316): it waits for the operations in flight on the covered entries. -/
def execGtsyncReload (rank : Nat) (s : State) : Outcome :=
  .next (match s.pkg? rank with
    | none => s
    | some p =>
      let table := bitOf p.gtsync 9
      let covers (n : Nat) : Bool := bitOf p.gtsync 8 || n == bitsOf p.gtsync 0 8
      let again (s : State) : State := s.owe [.event (.gtsyncReload rank)]
      let busy := s.ops.any fun o => o.rank == rank && o.st != .withdrawn &&
        (if table then o.form == .rsto && covers (bitsOf o.param.toNat 0 6) else o.onGt covers)
      if !p.gtBusy then s
      else if busy then again s
      else
        match (if table then reloadEach (fun s k => reloadRw s rank k) (p.rw.filter fun k => covers k.1.2) s
          else reloadEach (fun s k => reloadGt s rank k) (p.gt.filter fun k => covers k.1.2) s) with
        | .done s =>
          let s := if table then emptyWindows s rank covers else s
          s.modPkg rank fun p => { p with gtBusy := false }
        | .parked s => s
        | .again s => again s)

/-! ### The reductions (R87, R319, R373) -/

/-- One step of a reduction on words: RED and EFMT (R371). -/
def collStep (red efmt : Nat) (x y : Word) : Word :=
  if efmt == 2 then
    match red with
    | 0 => x + y
    | 1 => if x.slt y then y else x
    | _ => if y.slt x then y else x
  else redStep (match red with
    | 0 => .addF
    | 1 => .maxF
    | _ => .minF) x y

/-- The identity of a reduction (R87, R373). -/
def collIdent (red efmt : Nat) : Word :=
  if efmt == 2 then
    match red with
    | 0 => 0
    | 1 => 0x80000000
    | _ => 0x7FFFFFFF
  else RedOp.ident (match red with
    | 0 => .addF
    | 1 => .maxF
    | _ => .minF)

/-- One level of the tree. -/
def collLevel (f : Word → Word → Word) : List Word → List Word
  | a :: b :: r => f a b :: collLevel f r
  | l => l

/-- The full binary tree over a power of two of positions, with fuel (R319). -/
def collTree (f : Word → Word → Word) : Nat → List Word → Word
  | 0, l => l.headD 0
  | n + 1, l => match l with
    | [a] => a
    | _ => collTree f n (collLevel f l)

/-- The next power of two at or above n. -/
def nextPow2 (n : Nat) : Nat := if n ≤ 1 then 1 else 2 ^ (Nat.log2 (n - 1) + 1)

/-- One element reduced over the members (R319, R373). -/
def collElem (red efmt : Nat) (xs : List Word) : Word :=
  let widen (x : Word) : Word := if efmt == 1 then x <<< 16 else x
  let pad := List.replicate (nextPow2 xs.length - xs.length) (collIdent red efmt)
  let r := collTree (collStep red efmt) 11 (xs.map widen ++ pad)
  if efmt == 1 then BitVec.ofNat 32 (convert .f32 .bf16 .rne r.toNat).1 else r

/-- The sources reduced, element by element; a poisoned element makes its result poisoned (R416). -/
def collReduce (red efmt : Nat) (xs : List (List PByte)) : List PByte :=
  let eb := if efmt == 1 then 2 else 4
  (upTo ((xs.headD []).length / eb)).flatMap fun k =>
    let es := xs.map fun x => (x.drop (k * eb)).take eb
    let bad := es.any fun e => e.any (·.2)
    let w := collElem red efmt (es.map fun e => BitVec.ofNat 32 (ofBytesLE (e.map (·.1))))
    (bytesLE eb w.toNat).map fun b => (b, bad)

/-- Piece j of m pieces. -/
def pieceOf {α : Type} (x : List α) (j m : Nat) : List α := (x.drop (j * (x.length / m))).take (x.length / m)

/-- The output of the member at position j (R319). -/
def collOut (f : CollForm) (red efmt root : Nat) (xs : List (List PByte)) (j : Nat) : List PByte :=
  match f with
  | .allreduce => collReduce red efmt xs
  | .reducescatter => pieceOf (collReduce red efmt xs) j xs.length
  | .allgather => xs.flatten
  | .bcast => xs.getD root []
  | .alltoall => xs.flatMap fun x => pieceOf x j xs.length

/-! ### COLL (R371 to R373) -/

/-- The form reduces. -/
def collReduces (f : CollForm) : Bool := f == .allreduce || f == .reducescatter

/-- RED, EFMT and ROOT keep the limits of R371, ROOT below M apart. -/
def collParamOk (f : CollForm) (param : DWord) : Bool :=
  let n := param.toNat
  bitsOf n 22 42 == 0 && bitsOf n 8 2 != 3 && bitsOf n 10 2 != 3 && (collReduces f || bitsOf n 8 4 == 0) &&
    (f == .bcast || bitsOf n 12 10 == 0)

/-- The lengths of R372. -/
def collLens (f : CollForm) (m ls ld : Nat) : Bool :=
  match f with
  | .allreduce => ld == ls
  | .bcast => ld == ls
  | .reducescatter => ls == m * ld && ld % 4096 == 0
  | .allgather => ld == m * ls && ls % 4096 == 0
  | .alltoall => ld == ls && ls % (m * 4096) == 0

/-- FMT that EFMT names (R372). -/
def efmtTile (efmt : Nat) : Nat := [1, 2, 9].getD efmt 1

/-- Two descriptors of one region. -/
def Tile.same (a b : Tile) : Bool :=
  a.space == b.space && a.base == b.base && a.rows == b.rows && a.rowBytes == b.rowBytes && a.pitch == b.pitch

/-- The checks of R372 on the regions. -/
def collTiles (s : State) (g : Group) (die : Nat) (f : CollForm) (efmt m : Nat) (d a : Tile) : Bool :=
  d.rowsOk s g die && a.rowsOk s g die && (!collReduces f || (d.fmt == efmtTile efmt && a.fmt == efmtTile efmt)) &&
    collLens f m a.bytes d.bytes && (!d.overlaps a false false || ((f == .allreduce || f == .bcast) && d.same a))

/-- The check of a COLL at issue (R317, R371, R372). -/
def collCheck (f : CollForm) (s : State) (g : Group) (die : Nat) (td ta _ : QWord) (param : DWord) : State × Chk :=
  let d := tileOf td
  let a := tileOf ta
  if !collParamOk f param then (s, .bad causeOperand)
  else
    withGt s g die param fun s e =>
      let m := e.members.length
      (s, if !collTiles s g die f (bitsOf param.toNat 10 2) m d a then .bad causeTile
        else if m ≤ bitsOf param.toNat 12 10 then .bad causeOperand
        else .ok [a.span s g die false false, d.span s g die false true])

/-- COLL. -/
def execColl (form : CollForm) (td ta kn : XReg) (f : Compl) (s : State) : Outcome :=
  engineWord s (.coll form td ta kn f) (.coll form) td ta kn f.bar f.foe (collCheck form) noInit

/-- The outputs of a matched collective given to every member (R319): each captured its source at its own start. -/
def collDeliver (s : State) (f : CollForm) (l : List Op) : State :=
  let xs := l.map fun o => o.src.getD []
  (upTo l.length).foldl (fun s j =>
    match l[j]? with
    | none => s
    | some o =>
      let n := o.param.toNat
      let y := collOut f (bitsOf n 8 2) (bitsOf n 10 2) (bitsOf n 12 10) xs j
      (s.modOp o.id fun o => { o with src := some y, pass := 1 }).owe o.go) s

/-- The collective can do something at an engine: it has its outputs, or its source is still to be captured, or every member
has captured its own. -/
def collReady (s : State) (o : Op) : Bool :=
  o.pass == 1 || o.src.isNone || match matching s o with
    | .waiting => false
    | .mismatch _ => true
    | .agreed l => l.all fun x => x.src.isSome

/-- The source of a collective is captured, and goes to the other members with its notice (R317, R319, R320). -/
def captureColl (s : State) (o : Op) : State :=
  let a := tileOf o.ta
  match engReads s o a.space (a.pieces false 0 a.bytes) with
  | (s, .fault va x) => park s o va x 0
  | (_, .wait) => s
  | (s, .ok bs) => tellMembers (s.modOp o.id fun o => { o with src := some bs }) o

/-- The next chunk of a collective (R318, R320): its source is captured, then it is matched, then its outputs are written. -/
def startColl (s : State) (o : Op) (f : CollForm) : State :=
  let d := tileOf o.td
  if o.pass == 1 then
    let off := 4096 * o.nextChunk
    let ps := d.pieces false off (min 4096 (d.bytes - off))
    let as := pieceAddrs ps
    sendChunk s o [] (farHomes s o d.space .write ps) (as.zip (((o.src.getD []).drop off).take as.length))
  else if o.src.isNone then captureColl s o
  else
    match matching s o with
    | .waiting => s
    | .mismatch l => endAll s l stError
    | .agreed l => if l.all fun x => x.src.isSome then collDeliver s f l else s

/-- COLL_CHUNK_COMMIT (R318). -/
def execCollChunkCommit (s : State) : Outcome :=
  .next (match s.subjOp with
    | none => s
    | some o =>
      match o.form with
      | .coll _ => commitChunk s o (tileOf o.td).bytes
      | _ => s)

/-- COLL_COMPLETE (R373). -/
def execCollComplete (s : State) : Outcome :=
  .next (match s.subjOp with
    | none => s
    | some o =>
      match o.form with
      | .coll _ => if o.st == .ending then complete s o (prefixRecord o (tileOf o.td).bytes) else s
      | _ => s)

end Sys2Proof.Machine
end

