-- ==== Sys2Proof/Machine/Rot.lean ====
section
/-! DEFINITION. Cirque rotation: ROT open, run and close, and the slots and credits of a ring (R330 to R332, R374 to R377). -/

namespace Sys2Proof.Machine

/-- The open ring of a package for an entry (R374). -/
def ringOf (s : State) (rank ctx entry : Nat) : Option Ring :=
  (s.pkg? rank).bind fun p => p.rings.find? fun r => r.ctx == ctx && r.entry == entry
/-- The ring of an identity. -/
def ringId (s : State) (id : Nat) : Option Ring := (s.pkgs.flatMap fun p => p.rings).find? fun r => r.id == id
/-- Changes a ring. -/
def modRing (s : State) (id : Nat) (f : Ring → Ring) : State :=
  { s with pkgs := s.pkgs.map fun p => { p with rings := modWhere (fun r => r.id == id) f p.rings } }
/-- The ring of an operation's package. -/
def opRing (s : State) (o : Op) : Option Ring := ringOf s o.rank o.ctx o.entry

/-- The member before or after a rank in ring order (R315). -/
def ringNext (members : List Nat) (rank : Nat) : Nat := members.getD ((members.idxOf rank + 1) % members.length) rank
def ringPrev (members : List Nat) (rank : Nat) : Nat :=
  members.getD ((members.idxOf rank + members.length - 1) % members.length) rank

/-! ### Open (R374, R375) -/

/-- The block size that a slot region gives (R375). -/
def Tile.block (t : Tile) : Nat := t.bytes / 4

/-- The check of rot.open at issue (R374, R375). -/
def rotOpenCheck (b : BReg) (s : State) (g : Group) (die : Nat) (td _ _ : QWord) (param : DWord) : State × Chk :=
  let d := tileOf td
  let doneb := bitsOf param.toNat 8 5
  let arrb := b.toNat
  if bitsOf param.toNat 13 51 != 0 || 28 < doneb || 28 < arrb || (doneb ≤ arrb + 3 && arrb ≤ doneb + 3) then (s, .bad causeOperand)
  else
    withGt s g die param fun s e =>
      (s, if !e.oneDomain s g then .bad causeOperand
        else if d.ok && d.space == 1 && d.planes == 1 && d.aligned && d.bytes % 16384 == 0 && d.bytes != 0 && d.block ≤ 2 ^ 21 &&
          d.within s g die true then .ok [] else .bad causeTile)

/-- Rings that a package holds or has reserved for opens that have not been matched (R375). -/
def ringsReserved (s : State) (rank : Nat) : Nat :=
  ((s.pkg? rank).map fun p => p.rings.length).getD 0 +
    (s.ops.filter fun o => o.rank == rank && o.form == .rotOpen && o.pass == 1 && o.st != .withdrawn).length

/-- The reservation that an open makes at issue, or its failure: ERROR for a second ring of the entry, CAPACITY for a ninth
ring (R375). -/
def rotOpenInit (s : State) (o : Op) : State × Op :=
  let again := (opRing s o).isSome || s.ops.any fun x =>
    x.rank == o.rank && x.form == .rotOpen && x.ctx == o.ctx && x.entry == o.entry && x.pass == 1 && x.st != .withdrawn
  if again then (s, { o with pass := 2, status := stError, st := .ending })
  else if 8 ≤ ringsReserved s o.rank then (s, { o with pass := 2, status := stCapacity, st := .ending })
  else (s, { o with pass := 1 })

/-- ROT open (R374, R375). -/
def execRotOpen (td kn : XReg) (b : BReg) (s : State) : Outcome :=
  engineWord s (.rotOpen td kn b) .rotOpen td 0 kn (some b) false (rotOpenCheck b) rotOpenInit

/-- The ring that a matched open sets up: every slot free, every credit held (R330, R375). -/
def openRing (s : State) (o : Op) : State :=
  let d := tileOf o.td
  let (id, s) := s.gensym
  let r : Ring :=
    { id := id, rank := o.rank, ctx := o.ctx, entry := o.entry, tid := o.tid, die := o.die
      seg := ((segOf s o.rank o.die o.grid).map (·.id)).getD 0, base := d.base, bsize := d.block
      arrb := (o.bar.map fun b => b.toNat).getD 0, doneb := bitsOf o.param.toNat 8 5
      credits := List.replicate 4 true, slots := List.replicate 4 0, fill := List.replicate 4 0, owner := List.replicate 4 0
      fwd := List.replicate 4 0, doneSeen := List.replicate 4 false, received := 0, broken := false }
  s.modPkg o.rank fun p => { p with rings := p.rings ++ [r] }

/-- A record with a status alone. -/
def statusRecord (o : Op) : DWord := BitVec.ofNat 64 o.status

/-- A record written; an open that failed at issue stays to be matched by the other members' (R375). -/
def completeOpen (s : State) (o : Op) : State :=
  let s := complete s o (statusRecord o)
  if o.pass == 2 then { s with ops := s.ops ++ [{ o with st := .withdrawn }] } else s

/-- ROT_OPEN_COMPLETE (R375): every member has opened with the same number, or one has failed. -/
def execRotOpenComplete (s : State) : Outcome :=
  .next (match s.subjOp with
    | none => s
    | some o =>
      if o.form != .rotOpen then s
      else if o.st == .ending then completeOpen s o
      else
        match matching s o with
        | .waiting => s.owe [.subject .rotOpenComplete o.id]
        | .mismatch l =>
          endAll { s with ops := s.ops.filter fun x => !(x.st == .withdrawn && l.any fun y => y.id == x.id) }
            (l.filter fun x => x.st != .withdrawn) stError
        | .agreed l =>
          let s := { s with ops := s.ops.filter fun x => !(x.st == .withdrawn && l.any fun y => y.id == x.id) }
          let live := l.filter fun x => x.pass != 2
          if l.any fun x => x.pass == 2 then endAll s live stError
          else endAll (live.foldl openRing s) live stOk)

/-! ### Run (R331, R332, R376) -/

/-- The check of rot.run at issue (R376). -/
def rotRunCheck (s : State) (g : Group) (die : Nat) (_ ta _ : QWord) (param : DWord) : State × Chk :=
  let a := tileOf ta
  if bitsOf param.toNat 8 56 != 0 then (s, .bad causeOperand)
  else
    withGt s g die param fun s e =>
      (s, match ringOf s g.rank g.ctx (bitsOf param.toNat 0 8) with
        | none => .bad causeOperand
        | some r =>
          if !e.oneDomain s g then .bad causeOperand
          else if a.rowsOk s g die && a.bytes == r.bsize then .ok [a.span s g die false false] else .bad causeTile)

/-- ROT run. -/
def execRotRun (ta kn : XReg) (foe : Bool) (s : State) : Outcome :=
  engineWord s (.rotRun ta kn foe) .rotRun 0 ta kn none foe rotRunCheck noInit

/-- An earlier run of the same ring at the package has not been carried out (R376). -/
def earlierRun (s : State) (o : Op) : Bool :=
  s.ops.any fun x => x.form == .rotRun && x.rank == o.rank && x.ctx == o.ctx && x.entry == o.entry && x.seqno < o.seqno

/-- The members of a ring, by the entry that its package holds. -/
def ringMembers (s : State) (r : Ring) : List Nat :=
  (((s.pkg? r.rank).bind fun p => p.gt.get (r.ctx, r.entry)).map (·.members)).getD []

/-- The rings of an entry broken. -/
def Pkg.breakRings (p : Pkg) (ctx entry : Nat) : Pkg :=
  { p with rings := modWhere (fun r => r.ctx == ctx && r.entry == entry) (fun r => { r with broken := true }) p.rings }

/-- The ring of an entry is broken at every member, and every run in progress on it ends ERROR; a run that is not yet matched ends
once it is (R376). -/
def breakRing (s : State) (r : Ring) : State :=
  let members := r.rank :: ringMembers s r
  let s := { s with pkgs := modWhere (fun p => members.contains p.rank) (fun p => p.breakRings r.ctx r.entry) s.pkgs }
  endAll s (s.ops.filter fun x => members.contains x.rank && x.ctx == r.ctx && x.form == .rotRun && x.entry == r.entry && x.pass == 1 &&
    x.st != .withdrawn) stError

/-- A slot of a ring is held for good, with its barrier broken, and the ring with it (R332). -/
def holdSlot (s : State) (r : Ring) (j : Nat) : State :=
  breakRing (modRing s r.id fun r => { r with slots := r.slots.set j 3 }) r

/-- The member's run on a ring has been stopped by ENGS: its slots make no events and return no credit (R413, R469). -/
def ringStopped (s : State) (r : Ring) : Bool :=
  s.ops.any fun o => o.form == .rotRun && o.rank == r.rank && o.ctx == r.ctx && o.entry == r.entry && o.st == .withdrawn && o.pass == 1

/-- The runs of a number begin at every member: N0 of each is what its ring will have received (R376). -/
def beginRuns (s : State) (l : List Op) : State :=
  l.foldl (fun s o =>
    match opRing s o with
    | none => s
    | some r =>
      let s := modRing s r.id fun r => { r with received := r.received + l.length - 1 }
      s.modOp o.id fun o => { o with pass := 1, bound := r.received }) s

/-- The slot of a run's step (R376). -/
def runSlot (o : Op) (step : Nat) : Nat := (o.bound + step) % 4

/-- The run of a member under the same number, once begun; one that is stopped still receives (R469). -/
def ringOp (s : State) (o : Op) (r : Nat) : Option Op :=
  s.ops.find? fun x => x.rank == r && x.ctx == o.ctx && x.form == .rotRun && x.entry == o.entry && x.seqno == o.seqno && x.pass == 1

/-- What a run's sender can do next: its step's source, once the credit is held and the bytes are there (R331, R332). -/
def sendReady (s : State) (o : Op) : Bool :=
  match opRing s o with
  | none => false
  | some r =>
    let m := (opMembers s o).length
    o.applied + 1 < m && !r.broken && (o.dups != 0 || r.credits.getD (runSlot o o.applied) false) &&
      (o.applied == 0 || (r.owner.getD (runSlot o (o.applied - 1)) 0 == o.bound + o.applied - 1 &&
        o.dups < r.fill.getD (runSlot o (o.applied - 1)) 0)) &&
      (ringOp s o (ringNext (opMembers s o) o.rank)).isSome

/-- A run can do something at its engine. -/
def rotReady (s : State) (o : Op) : Bool :=
  !earlierRun s o && (if o.pass == 0 then (match matching s o with
    | .waiting => false
    | _ => true) else sendReady s o)

/-- The next chunk of a run read for the downstream slot (R331, R332): its credit is spent on the first byte. -/
def startRot (s : State) (o : Op) : State :=
  match opRing s o with
  | none => ending s o stError
  | some r =>
    if o.pass == 0 then
      match matching s o with
      | .waiting => s
      | .mismatch l => endAll s l stError
      | .agreed l =>
        if r.broken then endAll s l stError
        else l.foldl (fun s o => s.owe o.go) (beginRuns s l)
    else
      let a := tileOf o.ta
      let len := min 4096 (r.bsize - o.dups)
      let got : State × GOut (List PByte) :=
        if o.applied == 0 then engReads s o a.space (a.pieces false o.dups len)
        else
          match s.segs.find? fun g => g.id == r.seg with
          | none => (s, .ok (List.replicate len (0, false)))
          | some sg =>
            (s, .ok (sg.ram.readP (r.base + r.bsize * runSlot o (o.applied - 1) + o.dups) len))
      match got with
      | (s, .fault va x) => park s o va x 0
      | (_, .wait) => s
      | (s, .ok bs) =>
        let j := runSlot o o.applied
        let s := modRing s r.id fun r => { r with credits := r.credits.set j false }
        let s := s.modOp o.id fun o => { o with st := .running, chunks := [⟨0, .moving, bs.mapIdx fun i b => (o.dups + i, b)⟩] }
        match ringOf s (ringNext (opMembers s o) o.rank) o.ctx o.entry with
        | none => s
        | some d =>
          let src := if o.applied == 0 then farHomes s o a.space .read (a.pieces false o.dups len) else []
          let m : Move := .event (.rotChunkArrive d.id)
          travel s (some o.id) (src ++ [o.rank, d.rank]) (.moves [m]) fun s => s.owe [m]

/-- The upstream run that has a chunk for a ring. -/
def upstreamRun (s : State) (r : Ring) : Option Op :=
  match (s.pkg? r.rank).bind fun p => p.gt.get (r.ctx, r.entry) with
  | none => none
  | some e =>
    let u := ringPrev e.members r.rank
    s.ops.find? fun o => o.form == .rotRun && o.rank == u && o.ctx == r.ctx && o.entry == r.entry && o.st == .running && !o.chunks.isEmpty

/-- A barrier of a ring's slot is broken (R332). -/
def slotBroken (s : State) (r : Ring) (j : Nat) : Bool :=
  (s.team? r.tid).any fun t => (t.bar (r.arrb + j)).broken || (t.bar (r.doneb + j)).broken

/-- b[BASE + j] of a ring. -/
def ringBar (base j : Nat) : BReg := BitVec.ofNat 5 (base + j)

/-- A chunk commits in slot j (R332): the first makes the expect and the arrival, each makes its delivery, and the last fills
the slot. -/
def slotChunk (s : State) (r : Ring) (j block : Nat) (c : List (Nat × PByte)) : State :=
  let off := (c.headD (0, 0, false)).1
  let at_ := r.base + r.bsize * j + off
  let s := { s with segs := modWhere (fun g => g.id == r.seg) (fun g => scratchStore g at_ (c.map (·.2))) s.segs }
  let b := ringBar r.arrb j
  let event (s : State) (ev : BEv) : State := engEvent s 0 (ringStopped s r) r.tid b ev
  let s := if off == 0 then event (event s (.expect r.bsize)) .arrive else s
  let s := event s (.deliver c.length)
  let full := off + c.length == r.bsize
  let s := modRing s r.id fun r =>
    { r with slots := r.slots.set j (if full then 2 else 1), fill := r.fill.set j (off + c.length), owner := r.owner.set j block
             fwd := if off == 0 then r.fwd.set j 0 else r.fwd, doneSeen := if full then r.doneSeen.set j false else r.doneSeen }
  if full then s.owe [.event (.rotSlotReturn r.id j)] else s

/-- A run has received and sent every block of its rotation; its record is due. -/
def runDone (s : State) (id m : Nat) : State :=
  match s.op? id with
  | none => s
  | some o => if o.pidx + 1 == m && o.applied + 1 == m && o.st != .ending && o.st != .withdrawn then ending s o stOk else s

/-- The sender past a chunk: the rest of its step, or the next step (R331). -/
def sendNext (s : State) (u : Op) (r : Ring) (n m : Nat) : State :=
  let s := match opRing s u with
    | none => s
    | some ur =>
      if u.applied == 0 then s
      else modRing s ur.id fun x =>
        let k := runSlot u (u.applied - 1)
        { x with fwd := x.fwd.set k (u.dups + n) }
  let last := u.dups + n == r.bsize
  let s := s.modOp u.id fun o =>
    { o with st := .queued, chunks := [], applied := if last then o.applied + 1 else o.applied
             dups := if last then 0 else o.dups + n }
  let s := runDone s u.id m
  if last && u.applied + 2 == m then s else s.owe u.go

/-- ROT_CHUNK_ARRIVE (R332): the chunk that the upstream member has read commits in this ring's slot. -/
def execRotChunkArrive (ring : Nat) (s : State) : Outcome :=
  .next (match ringId s ring with
    | none => s
    | some r =>
      match upstreamRun s r with
      | none => s
      | some u =>
        let j := runSlot u u.applied
        let m := (opMembers s u).length
        if r.broken then s
        else if slotBroken s r j then holdSlot s r j
        else
          let data := (u.chunks.head?.map (·.data)).getD []
          let s := slotChunk s r j (u.bound + u.applied) data
          let n := data.length
          let s := if u.dups + n == r.bsize then
              match ringOp s u r.rank with
              | none => s
              | some o => runDone (s.modOp o.id fun o => { o with pidx := o.pidx + 1 }) o.id m
            else s
          sendNext s u r n m)

/-- The block of a slot is to be forwarded and has not been (R331, R332). -/
def forwarding (s : State) (r : Ring) (j : Nat) : Bool :=
  let m := (ringMembers s r).length
  r.owner.getD j 0 % (m - 1) + 2 < m && r.fwd.getD j 0 != r.bsize

/-- ROT_SLOT_RETURN (R332): a FULL slot whose block has been forwarded and whose done barrier has completed a phase since it
filled becomes FREE, and its credit goes upstream; a member whose run is stopped returns none (R469). -/
def execRotSlotReturn (ring slot : Nat) (s : State) : Outcome :=
  .next (match ringId s ring with
    | none => s
    | some r =>
      if r.broken then s
      else if slotBroken s r slot then holdSlot s r slot
      else if r.slots.getD slot 0 != 2 then s
      else if !r.doneSeen.getD slot false then s
      else if ringStopped s r || forwarding s r slot then s.owe [.event (.rotSlotReturn ring slot)]
      else
        let s := modRing s ring fun r => { r with slots := r.slots.set slot 0, fill := r.fill.set slot 0 }
        match ringOf s (ringPrev (ringMembers s r) r.rank) r.ctx r.entry with
        | none => s
        | some u =>
          let m : Move := .event (.rotCreditArrive u.id slot)
          travel s none [r.rank, u.rank] (.moves [m]) fun s => s.owe [m])

/-- ROT_CREDIT_ARRIVE (R332): the sender holds the credit of the downstream slot again. -/
def execRotCreditArrive (ring slot : Nat) (s : State) : Outcome :=
  .next (modRing s ring fun r => { r with credits := r.credits.set slot true })

/-- ROT_RUN_COMPLETE (R376): a run that ends ERROR or FAULT breaks the ring. -/
def execRotRunComplete (s : State) : Outcome :=
  .next (match s.subjOp with
    | none => s
    | some o =>
      if o.form != .rotRun || o.st != .ending then s
      else
        let s := if o.status == stError || o.status == stFault then ((opRing s o).map (breakRing s)).getD s else s
        complete s o (BitVec.ofNat 64 (o.status + o.pidx * 2 ^ 8)))

/-! ### Close (R377) -/

/-- The check of rot.close at issue (R377). -/
def rotCloseCheck (s : State) (g : Group) (die : Nat) (_ _ _ : QWord) (param : DWord) : State × Chk :=
  if bitsOf param.toNat 8 56 != 0 then (s, .bad causeOperand)
  else
    withGt s g die param fun s e =>
      (s, if e.oneDomain s g && (ringOf s g.rank g.ctx (bitsOf param.toNat 0 8)).isSome then .ok [] else .bad causeOperand)

/-- ROT close. -/
def execRotClose (kn : XReg) (s : State) : Outcome :=
  engineWord s (.rotClose kn) .rotClose 0 0 kn none false rotCloseCheck noInit

/-- ROT_CLOSE_COMPLETE (R377): once every member's runs with lower numbers have completed, the rings are gone. -/
def execRotCloseComplete (s : State) : Outcome :=
  .next (match s.subjOp with
    | none => s
    | some o =>
      if o.form != .rotClose then s
      else if o.st == .ending then complete s o (statusRecord o)
      else
        match matching s o with
        | .waiting => s.owe [.subject .rotCloseComplete o.id]
        | .mismatch l => endAll s l stError
        | .agreed l =>
          if l.any fun x => earlierRun s x then s.owe [.subject .rotCloseComplete o.id]
          else
            let s := l.foldl (fun s x =>
              s.modPkg x.rank fun p => { p with rings := p.rings.filter fun r => !(r.ctx == x.ctx && r.entry == x.entry) }) s
            endAll s l stOk)

end Sys2Proof.Machine
end

