-- ==== Sys2Proof/Machine/Xchg.lean ====
section
/-! DEFINITION. Expert exchange XCHG (R327 to R329, R378), and reduce-stores RSTO with the reduction windows of the Col
switches (R323 to R327, R380, R427). -/

namespace Sys2Proof.Machine

/-! ### XCHG (R327 to R329, R378) -/

/-- The check of XCHG at issue (R378). -/
def xchgCheck (s : State) (g : Group) (die : Nat) (td ta tn : QWord) (param : DWord) : State × Chk :=
  let d := tileOf td
  let a := tileOf ta
  let n := tileOf tn
  if bitsOf param.toNat 8 56 != 0 then (s, .bad causeOperand)
  else
    withGt s g die param fun s e =>
      (s, if e.xmode == 0 then .bad causeOperand
        else if a.rowsOk s g die && d.rowsOk s g die && d.rowBytes == a.rowBytes && n.rowsOk s g die && n.space ≤ 1 &&
            n.fmt == 9 && n.rows == 1 && n.cols == a.rows then
          .ok [a.span s g die false false, n.span s g die false false, d.span s g die false true, n.span s g die false true]
        else .bad causeTile)

/-- One result due for each token. -/
def xchgInit (s : State) (o : Op) : State × Op := (s, { o with results := List.replicate (tileOf o.ta).rows none })

/-- XCHG. -/
def execXchg (td ta n : XReg) (f : Compl) (s : State) : Outcome :=
  engineWord s (.xchg td ta n f) .xchg td ta n f.bar f.foe xchgCheck xchgInit

/-- The tokens of an exchange that have still to be sent are due (R327). -/
def sendTokens (s : State) (o : Op) : State :=
  s.owe (((upTo o.results.length).filter fun i => (o.tokens.get i).isNone).map fun i => .event (.xchgTokenAccept o.id i))

/-- An exchange begins once every member has issued it (R327, R370). -/
def startXchg (s : State) (o : Op) : State :=
  if o.pass == 1 then sendTokens (s.modOp o.id fun o => { o with st := .running }) o
  else
    match matching s o with
    | .waiting => s
    | .mismatch l => endAll s l stError
    | .agreed l => l.foldl (fun s x => sendTokens (s.modOp x.id fun x => { x with pass := 1, st := .running }) x) s

/-- An exchange can do something at its engine. -/
def xchgReady (s : State) (o : Op) : Bool :=
  o.pass == 1 || match matching s o with
    | .waiting => false
    | _ => true

/-- The replica ranks of an expert: eight, in which 0xFFFF marks an unused one (R327). -/
def replicasOf (bs : List Byte) : List Nat := (upTo 8).map fun i => ofBytesLE ((bs.drop (2 * i)).take 2)

/-- Rows of a receive tile that an exchange may still fill at a member (R329). -/
def rowsLeft (s : State) (o : Op) (e : GtEntry) (r : Nat) : Nat :=
  match memberOp s o r with
  | none => 0
  | some d =>
    let rows := (tileOf d.td).rows
    (if e.xmode == 2 then min e.cap rows else rows) - d.filled

/-- A token's result reaches its source; the exchange ends at every member when all tokens of all members have one (R328,
R378). -/
def setResult (s : State) (o : Op) (i : Nat) (w : Word) : State :=
  let s := s.modOp o.id fun o => { o with results := o.results.set i (some w) }
  let l := (opMembers s o).filterMap fun r => memberOp s o r
  if l.all fun x => x.results.all (·.isSome) then s.owe (l.map fun x => .subject .xchgComplete x.id) else s

/-- A result word (R328). -/
def resultWord (rank row st : Nat) : Word := BitVec.ofNat 32 (rank % 1024 + row % 65536 * 2 ^ 10 + st * 2 ^ 28)

/-- The result of a token that no member accepted: RANK and ROW are not stated (log 32). -/
def noRow (s : State) (st : Nat) : State × Word :=
  let (w, s) := s.freeWord
  (s, BitVec.ofNat 32 (w.toNat % 2 ^ 26 + st * 2 ^ 28))

/-- What a token needs: its row and its expert's replicas, none for an expert out of range. -/
def tokenData (s : State) (o : Op) (e : GtEntry) (i : Nat) : State × GOut (List PByte × Option (List Nat)) :=
  let a := tileOf o.ta
  let n := tileOf o.tn
  match engRead s o n.space (n.start + 4 * i) 4 with
  | (s, .fault v f) => (s, .fault v f)
  | (s, .wait) => (s, .wait)
  | (s, .ok xb) =>
    let x := toSigned 32 (ofBytesLE (xb.map (·.1)))
    match engRead s o a.space (a.start + i * a.pitch) a.rowBytes with
    | (s, .fault v f) => (s, .fault v f)
    | (s, .wait) => (s, .wait)
    | (s, .ok row) =>
      if x < 0 || (e.nexpert : Int) ≤ x then (s, .ok (row, none))
      else
        match gRead s o.rank o.die o.ctx (e.exmap + 16 * x.toNat) 16 .read with
        | (s, .fault v f) => (s, .fault v f)
        | (s, .wait) => (s, .wait)
        | (s, .ok bs) => (s, .ok (row, some (replicasOf (bs.map (·.1)))))

/-- What becomes of an operation's token or line. -/
def setToken (s : State) (op i : Nat) (x : TokenAt) : State := s.modOp op fun o => { o with tokens := o.tokens.put i x }

/-- A token has arrived at a member, with the replicas that it may go on to. -/
def tokenAt (s : State) (op i r : Nat) (reps : List Nat) (row : List PByte) : State :=
  (setToken s op i (.at_ r reps row)).owe [.event (.xchgTokenAccept op i)]

/-- A token goes from a package to a member: by the fabric in its domain, by the scale-out transport outside it (R328, R441). -/
def toMember (s : State) (o : Op) (i here r : Nat) (reps : List Nat) (row : List PByte) : State :=
  let s := setToken s o.id i .flying
  if sameDomain s here o.ctx r then travel s (some o.id) [here, r] (.token o.id i true reps row) fun s => tokenAt s o.id i r reps row
  else tokenAt s o.id i r reps row

/-- A token's result goes from where it was decided back to its source (R328, R441). -/
def answerToken (s : State) (o : Op) (i here : Nat) (w : Word) : State :=
  let s := setToken s o.id i .answered
  if sameDomain s here o.ctx o.rank then travel s (some o.id) [here, o.rank] (.result o.id i w) fun s => setResult s o i w
  else setResult s o i w

/-- The result of a token that takes no row, from where that was decided. -/
def refuseToken (s : State) (o : Op) (i here st : Nat) : State :=
  let (s, w) := noRow s st
  answerToken s o i here w

/-- In replica mode a token goes up to a Col switch, which picks its member (R329); among replicas of other domains alone, the first
with rows left is taken. -/
def toReplica (s : State) (o : Op) (e : GtEntry) (i here : Nat) (reps : List Nat) (row : List PByte) : State :=
  match reps.find? fun r => sameDomain s here o.ctx r with
  | some r => sendPacket (setToken s o.id i .flying) here r (.msg (some o.id) [] (.token o.id i false reps row))
  | none => match reps.find? fun r => rowsLeft s o e r != 0 with
    | some r => toMember s o i here r reps row
    | none => refuseToken s o i here stCapacity

/-- A token leaves its source (R327, R329). -/
def dispatchToken (s : State) (o : Op) (e : GtEntry) (i : Nat) : State :=
  if o.st != .running then s
  else if opHeld s o then s.owe [.event (.xchgTokenAccept o.id i)]
  else
    match tokenData s o e i with
    | (s, .fault va f) => park s o va f 0
    | (s, .wait) => s.owe [.event (.xchgTokenAccept o.id i)]
    | (s, .ok (row, reps)) =>
      match reps.filter fun l => (l.headD 0xFFFF) != 0xFFFF && l.all fun r => r == 0xFFFF || e.members.contains r with
      | none => refuseToken s o i o.rank stError
      | some l =>
        let used := l.filter (· != 0xFFFF)
        if e.xmode == 1 then toReplica s o e i o.rank used row
        else toMember s o i o.rank (used.headD 0) (if bitOf e.mode 2 then used.drop 1 else []) row

/-- A token takes the next row of a member's receive tile (R328); a tier without room drops it (R378), and a translation fault parks
the member's own operation (log 32). -/
def placeToken (s : State) (o d : Op) (i : Nat) (row : List PByte) : State :=
  let t := tileOf d.td
  match engRuns s d t.space [(t.start + d.filled * t.pitch, row)] with
  | .done s => answerToken (s.modOp d.id fun d => { d with filled := d.filled + 1 }) o i d.rank (resultWord d.rank d.filled stOk)
  | .fault s va f => park s d va f 1
  | .capacity s => refuseToken s o i d.rank stCapacity
  | .wait s => s.owe [.event (.xchgTokenAccept o.id i)]

/-- A token at a member that has no row left for it: another replica, or none (R329). -/
def rerouteToken (s : State) (o : Op) (e : GtEntry) (i here : Nat) (reps : List Nat) (row : List PByte) : State :=
  if e.xmode == 1 then
    (if reps.any fun r => rowsLeft s o e r != 0 then toReplica s o e i here reps row else refuseToken s o i here stCapacity)
  else match reps with
    | [] => refuseToken s o i here stCapacity
    | r :: rest => toMember s o i here r rest row

/-- A token at a member: it waits while that member's operation is held or parked (R274, R313), and is refused when the member has
given its exchange up (log 32). -/
def acceptToken (s : State) (o : Op) (e : GtEntry) (i r : Nat) (reps : List Nat) (row : List PByte) : State :=
  match memberOp s o r with
  | none => refuseToken s o i r stError
  | some d =>
    if d.st == .ending then refuseToken s o i r stError
    else if d.st == .parked || opHeld s d then s.owe [.event (.xchgTokenAccept o.id i)]
    else if rowsLeft s o e r == 0 then rerouteToken s o e i r reps row
    else placeToken s o d i row

/-- XCHG_TOKEN_ACCEPT (R327 to R329): token i of an exchange leaves its source, or is accepted, sent on or dropped where it is. -/
def execXchgTokenAccept (op token : Nat) (s : State) : Outcome :=
  .next (match s.op? op with
    | none => s
    | some o =>
      match opGt s o with
      | none => s
      | some e =>
        if o.form != .xchg || o.results[token]? != some none then s
        else match o.tokens.get token with
          | none => dispatchToken s o e token
          | some (.at_ r reps row) => acceptToken s o e token r reps row
          | some .flying => s
          | some .answered => s)

/-- STATUS of a token's result (R328). -/
def resultSt (w : Option Word) : Nat := (w.map fun x => x.toNat / 2 ^ 28).getD 0

/-- XCHG_COMPLETE (R378): the results replace the expert list, and the record counts the tokens dropped and the rows filled. -/
def execXchgComplete (s : State) : Outcome :=
  .next (match s.subjOp with
    | none => s
    | some o =>
      if o.form != .xchg then s
      else
        let n := tileOf o.tn
        let done := o.pass == 1 && o.results.all (·.isSome) &&
          ((opMembers s o).filterMap fun r => memberOp s o r).all fun x => x.results.all (·.isSome)
        let rec_ (st : Nat) : DWord :=
          BitVec.ofNat 64 (st + (o.results.filter fun w => resultSt w == stCapacity).length % 2 ^ 24 * 2 ^ 8 + o.filled % 2 ^ 24 * 2 ^ 32)
        let others : List Move := ((opMembers s o).filterMap fun r => memberOp s o r).map fun x => .subject .xchgComplete x.id
        if o.st == .ending then (complete s o (rec_ o.status)).owe others
        else if o.st == .running && done then
          let s := localRuns s o n.space [(n.start, sound (bytesOf (o.results.map fun w => w.getD 0)))]
          let st := if o.results.any fun w => resultSt w == stError then stError else stOk
          (complete s { o with status := st } (rec_ st)).owe others
        else s)

/-! ### RSTO (R323 to R326, R380) -/

/-- FMT that a window's operation takes (R380). -/
def rwFmt (op : Nat) : Nat := if op == 1 then 9 else 1

/-- The check of RSTO at issue (R317, R380). -/
def rstoCheck (s : State) (g : Group) (die : Nat) (_ ta _ : QWord) (param : DWord) : State × Chk :=
  let n := param.toNat
  let a := tileOf ta
  if bitsOf n 6 2 != 0 || bitsOf n 40 24 != 0 then (s, .bad causeOperand)
  else
    match loadRw s g.rank die g.ctx (bitsOf n 0 6) with
    | (s, .fault va f) => (s, .xf (va, f))
    | (s, .wait) => (s, .wait)
    | (s, .ok w) =>
      (s, if !w.ok || !sameDomain s g.rank g.ctx w.home then .bad causeOperand
        else if !(a.rowsOk s g die && a.bytes % 256 == 0 && a.fmt == rwFmt w.op) then .bad causeTile
        else if w.length < 256 * bitsOf n 8 32 + a.bytes then .bad causeOperand
        else .ok [a.span s g die false false])

/-- SRCID (R325). -/
def srcId (g : Group) : Nat := g.win % 2 ^ 17 + g.rank % 2 ^ 10 * 2 ^ 17

/-- No line has arrived; the operation keeps its SRCID. -/
def rstoInit (s : State) (o : Op) : State × Op :=
  (s, { o with results := List.replicate ((tileOf o.ta).bytes / 256) none, extra := ((s.group? o.gid).map srcId).getD 0 })

/-- RSTO. -/
def execRsto (ta kn : XReg) (f : Compl) (s : State) : Outcome :=
  engineWord s (.rsto ta kn f) .rsto 0 ta kn f.bar f.foe rstoCheck rstoInit

/-- The plane of the switch that reduces a line of a window with this home, past the planes, and the switches that the home
chooses, that are down (R427). -/
def reducePlane (s : State) (va home : Nat) : Nat :=
  let p := va / 256 % 36
  (((upTo 36).map fun i => (p + i) % 36).find? fun q =>
    !s.fab.down.contains q && !s.fab.downSw.contains (q, Config.l2Of home)).getD p

/-- The number of a reducing switch. -/
def reducer (plane home : Nat) : Nat := plane + 36 * Config.l2Of home

/-- What the filter says of a tag (R326): the filter after it, and whether the line is applied, a duplicate or a fault. -/
inductive TagOut where
  | applied (f : Filter)
  | duplicate
  | tooOld
  deriving DecidableEq, Repr

/-- The filter of R326. -/
def filterTag (f : Option Filter) (t : Nat) : TagOut :=
  match f with
  | none => .applied ⟨t, 1⟩
  | some f =>
    let d := toSigned 32 (wrapTo 32 ((f.h : Int) - t))
    if d < 0 then .applied ⟨t, (f.b * 2 ^ (min (-d).toNat 64)) % 2 ^ 64 ||| 1⟩
    else if 63 < d then .tooOld
    else if bitOf f.b d.toNat then .duplicate
    else .applied { f with b := f.b ||| 2 ^ d.toNat }

/-- One step of a window's operation on a word (R87, R324). -/
def rwStep (op : Nat) (x y : Word) : Word :=
  redStep (match op with
    | 0 => .addF
    | 1 => .addI
    | 2 => .maxF
    | _ => .minF) x y

/-- The contributions of a round combined in increasing SRCID order (R324). -/
def mergeParts (op : Nat) (ps : List Contrib) : List (Word × Bool) :=
  match ps.sortLe fun a b => a.src ≤ b.src with
  | [] => []
  | p :: r => r.foldl (fun acc q => (acc.zip q.words).map fun x => (rwStep op x.1.1 x.2.1, x.1.2 || x.2.2)) p.words

/-- A contribution counted in its line's round; the round that has CONTRIB of them goes home and a new one starts (R324). -/
def countPart (s : State) (o : Op) (w : RwEntry) (win line plane : Nat) (c : Contrib) : State :=
  let key := (o.ctx, win, line)
  let (id, s) := s.gensym
  let m := (s.fab.rounds.get key).getD
    { id := id, ctx := o.ctx, win := win, line := line, home := w.home, va := w.base + 256 * line, op := w.op, done := w.doneaddr, parts := [] }
  let m := { m with parts := m.parts ++ [c] }
  if w.contrib ≤ m.parts.length then
    let s := { s with fab := { s.fab with rounds := s.fab.rounds.del key, merges := s.fab.merges ++ [m] } }
    sendFromSwitch s plane (Config.l2Of w.home) w.home (.msg none [] (.moves [.subject .reduceMergeApply m.id]))
  else { s with fab := { s.fab with rounds := s.fab.rounds.put key m } }

/-- A switch's answer for a line reaches the package; the RSTO is acknowledged once every line has been counted or discarded
(R326). -/
def rstoResult (s : State) (o : Op) (i : Nat) (w : Word) : State :=
  if o.results[i]? != some none then s
  else
    let s := s.modOp o.id fun o =>
      { o with results := o.results.set i (some w), applied := o.applied + b2n (w == 0), dups := o.dups + b2n (w == 1)
               errs := o.errs + b2n (w == 2) }
    if ((s.op? o.id).map fun o => o.results.all (·.isSome)).getD false then s.owe [.subject .rstoComplete o.id] else s

/-- A result reaches the operation that it is for (R326, R328). -/
def resultArrives (s : State) (op i : Nat) (w : Word) : State :=
  match s.op? op with
  | none => s
  | some o => if o.form == .rsto then rstoResult s o i w else if o.form == .xchg then setResult s o i w else s

/-- A line leaves for its reducing switch, with its bytes as they are read (R324). -/
def sendLine (s : State) (o : Op) (w : RwEntry) (line : Nat) : State :=
  let a := tileOf o.ta
  let again (s : State) : State := s.owe [.event (.rstoLineArrive o.id line)]
  if o.st != .queued then s
  else if opHeld s o then again s
  else
    match engReads s o a.space (a.pieces false (256 * line) 256) with
    | (s, .fault va f) => park s o va f 0
    | (s, .wait) => again s
    | (s, .ok bs) => sendPacket (setToken s o.id line .flying) o.rank w.home (.msg (some o.id) [] (.line o.id line bs))

/-- A line at its reducing switch: it is counted or discarded by its tag, and the switch answers (R324 to R326). -/
def switchLine (s : State) (o : Op) (w : RwEntry) (line plane : Nat) (bs : List PByte) : State :=
  let win := bitsOf o.param.toNat 0 6
  let l := bitsOf o.param.toNat 8 32 + line
  let key := (o.ctx, win, o.extra, reducer plane w.home)
  let s := setToken s o.id line .answered
  let reply (s : State) (code : Nat) : State :=
    sendFromSwitch s plane (Config.l2Of w.home) o.rank (.msg (some o.id) [] (.result o.id line (BitVec.ofNat 32 code)))
  match filterTag (s.fab.filters.get key) o.seqno with
  | .duplicate => reply s 1
  | .tooOld => reply s 2
  | .applied f =>
    let s := { s with fab := { s.fab with filters := s.fab.filters.put key f } }
    let words := (upTo 64).map fun i =>
      let x := (bs.drop (4 * i)).take 4
      (BitVec.ofNat 32 (ofBytesLE (x.map (·.1))), x.any (·.2))
    reply (countPart s o w win l plane ⟨o.extra, o.id, words⟩) 0

/-- RSTO_LINE_ARRIVE (R324 to R327): a line leaves for its reducing switch, or is taken there with its tag; one whose switch has gone
down meanwhile leaves again. -/
def execRstoLineArrive (op line : Nat) (s : State) : Outcome :=
  .next (match s.op? op with
    | none => s
    | some o =>
      match (s.pkg? o.rank).bind fun p => p.rw.get (o.ctx, bitsOf o.param.toNat 0 6) with
      | none => s
      | some w =>
        if o.form != .rsto || o.results[line]? != some none then s
        else match o.tokens.get line with
          | none => sendLine s o w line
          | some (.at_ plane _ bs) =>
            if reducePlane s (w.base + 256 * (bitsOf o.param.toNat 8 32 + line)) w.home == plane then switchLine s o w line plane bs
            else (s.modOp op fun o => { o with tokens := o.tokens.del line }).owe [.event (.rstoLineArrive op line)]
          | some .flying => s
          | some .answered => s)

/-- RSTO_COMPLETE (R326, R380): an ERROR raises the replay-window trap in the issuing group when it lands. -/
def execRstoComplete (s : State) : Outcome :=
  .next (match s.subjOp with
    | none => s
    | some o =>
      if o.form != .rsto then s
      else if o.st == .ending then complete s o (BitVec.ofNat 64 (o.status + o.applied * 2 ^ 8))
      else if o.results.any (·.isNone) then s
      else
        let st := if o.errs != 0 then stError else if o.applied != 0 then stOk else stDuplicate
        completeTrap s { o with status := st } (BitVec.ofNat 64 (st + o.applied * 2 ^ 8)) (if st == stError then some o.seqno else none))

/-- Where the switch's atomics on a home's memory are performed. -/
def mergeXlate (s : State) (m : Merge) (va : Nat) : State × Except XFault Phys :=
  match translate1 s m.home (dieOfSlice (sliceOf va)) m.ctx va .atomic with
  | (s, .error f) => (s, .error f)
  | (s, .ok (e, pa)) => if e.tgt == 1 then (s, .error ⟨2, e.level⟩) else (s, .ok ⟨m.home, e.tgt, pa⟩)

/-- The merged words applied to the home's line: a poisoned word of memory stays as it is (R285), and a poisoned merged word
marks its own (R416). -/
def mergedLine (op : Nat) (old : List PByte) (ws : List (Word × Bool)) : List PByte :=
  (upTo 64).flatMap fun i =>
    let x := (old.drop (4 * i)).take 4
    let w := ws.getD i (0, false)
    if x.any (·.2) then x
    else (wordBytes (rwStep op (BitVec.ofNat 32 (ofBytesLE (x.map (·.1)))) w.1)).map fun b => (b, w.2)

/-- The merged line and then the completion counter, in that order (R324); none when a write must wait. A merge whose home
cannot translate its address is dropped (log 33). -/
def applyMerge (s : State) (m : Merge) : Option State :=
  match mergeXlate s m m.va with
  | (s, .error _) => some s
  | (s, .ok h) =>
    let (s, old) := lineRead s h m.ctx m.va 256
    match lineWrite s h m.ctx m.va (mergedLine m.op old (mergeParts m.op m.parts)) with
    | none => none
    | some s =>
      match mergeXlate s m m.done with
      | (s, .error _) => some s
      | (s, .ok h) =>
        let (s, x, bad) := wordAt s h m.ctx m.done
        if bad then some s else lineWrite s h m.ctx m.done (sound (wordBytes (x + 1)))

/-- A merge waits for room in its home's tier, for its line or for its completion counter (R334, R351). -/
def mergeWaits (s : State) (m : Merge) : State :=
  [m.va, m.done].foldl (fun s va => match mergeXlate s m va with
    | (s, .error _) => s
    | (s, .ok h) => tierWaits s h va) s

/-- REDUCE_MERGE_APPLY (R324). -/
def execReduceMergeApply (s : State) : Outcome :=
  .next (match s.fab.merges.find? fun m => m.id == s.subj with
    | none => s
    | some m =>
      match applyMerge s m with
      | none => (mergeWaits s m).owe [.subject .reduceMergeApply m.id]
      | some s => { s with fab := { s.fab with merges := s.fab.merges.filter fun x => x.id != m.id } })

/-- The loss counter of a window raised at a contributor's package (R427). -/
def raiseLoss (s : State) (m : Merge) (c : Contrib) : State :=
  if (s.op? c.op).isSome then s
  else
    s.modPkg (c.src / 2 ^ 17) fun p =>
      let x := (p.rwloss.get m.win).getD 0
      { p with rwloss := p.rwloss.put m.win (x / 2 ^ 16 * 2 ^ 16 + (x + 1) % 2 ^ 16) }

/-- PLANE_DOWN (R427): a plane goes down, or one of its level 2 switches. The partial values of the switches that it takes with it
are lost, and with them their filters; their lines move to the next plane. -/
def execPlaneDown (part : PlanePart) (s : State) : Outcome :=
  let plane := part.plane
  let sw := part.sw
  let known : Bool := match sw with
    | none => s.fab.down.contains plane
    | some j => s.fab.down.contains plane || s.fab.downSw.contains (plane, j)
  let takes (j : Nat) : Bool := sw.all (· == j)
  .next (if known || 36 ≤ plane then s
    else
      let lost := (s.fab.rounds.map (·.2)).filter fun m => reducePlane s m.va m.home == plane && takes (Config.l2Of m.home)
      let s := lost.foldl (fun s m => m.parts.foldl (fun s c => raiseLoss s m c) s) s
      { s with fab := { s.fab with
          rounds := s.fab.rounds.filter fun r => !(lost.any fun m => m.id == r.2.id)
          filters := s.fab.filters.filter fun f => !(f.1.2.2.2 % 36 == plane && takes (f.1.2.2.2 / 36))
          down := if sw.isNone then plane :: s.fab.down else s.fab.down
          downSw := match sw with
            | none => s.fab.downSw
            | some j => (plane, j) :: s.fab.downSw } })

end Sys2Proof.Machine
end

