-- ==== Sys2Proof/Machine/Chunk.lean ====
section
/-! DEFINITION. The choice that a copy engine makes at each chunk boundary (R306, R308, R314, R322). -/

namespace Sys2Proof.Machine

/-- The operation can take its next step at its engine: its peers have done what it waits for. -/
def engineReady (s : State) (o : Op) : Bool :=
  match o.form with
  | .cpy _ => true
  | .coll _ => collReady s o
  | .rotRun => rotReady s o
  | .xchg => xchgReady s o
  | .rotOpen | .rotClose | .rsto | .upd _ _ _ | .pairst | .place _ | .step | .snap => false

/-- The operation of the highest effective level, the first in the order of issue on ties (R322). -/
def pickOp (s : State) (l : List Op) : Option Op :=
  l.foldl (fun best o => match best with
    | none => some o
    | some b => if effLevel s 64 b < effLevel s 64 o then some o else some b) none

/-- The next chunk of an operation. -/
def startChunk (s : State) (o : Op) : State :=
  match o.form with
  | .cpy f => startCpy s o f
  | .coll f => startColl s o f
  | .rotRun => startRot s o
  | .xchg => startXchg s o
  | .rotOpen | .rotClose | .rsto | .upd _ _ _ | .pairst | .place _ | .step | .snap => s

/-- An ENGS of the team waits for its operations to stop (R420). -/
def engsWaits (s : State) (tid : Nat) : Bool :=
  s.groups.any fun g => g.tid == tid && g.resident.any fun x => match x.2.wait with
    | some (.engs _) => true
    | _ => false

/-- The operation has something to start at its engine. -/
def hasStart (o : Op) : Bool :=
  match o.form with
  | .cpy f => o.hasChunk (cpyLen f o)
  | .coll _ => o.pass == 0 || o.hasChunk (tileOf o.td).bytes
  | .rotRun | .xchg => true
  | .rotOpen | .rotClose | .rsto | .upd _ _ _ | .pairst | .place _ | .step | .snap => false

/-- Chunks that an engine keeps in flight (R307). -/
def engineChunks (s : State) (d : DieId) (engine : Nat) : Nat :=
  (((dieQueue s d.rank d.die).filter fun o => o.engine == engine).map fun o => o.chunks.length).sum

/-- The operations of an engine with something to start. -/
def startable (s : State) (d : DieId) (engine : Nat) : List Op :=
  (dieQueue s d.rank d.die).filter fun o => o.engine == engine && o.st == .queued && hasStart o

/-- ENGINE_CHUNK_START (R306, R307, R322): with fewer than 32 chunks in flight, the engine starts one; while it has operations that
are held or wait, it looks again later. -/
def execEngineChunkStart (d : DieId) (engine : Nat) (s : State) : Outcome :=
  let l := (startable s d engine).filter fun o => !engsWaits s o.tid && !opHeld s o && engineReady s o
  let s' := if 32 ≤ engineChunks s d engine then s
    else match pickOp s l with
      | some o => startChunk s o
      | none => s
  .next (if (startable s' d engine).isEmpty then s' else s'.oweOnce (.event (.engineChunkStart d engine)))

end Sys2Proof.Machine
end

