-- ==== Sys2Proof/Machine/Tier.lean ====
section
/-! DEFINITION. The storage-class tier: its stripes and their code (R336, R337), the Moraine queues and parity (R338, R348 to
R351), damaged lines (R339 to R341), step boundaries and Firn snapshots (R352 to R356, R387, R388). -/

namespace Sys2Proof.Machine

/-! ### The code over GF(2^8) (R337) -/

/-- Multiplication modulo x^8 + x^4 + x^3 + x^2 + 1, with fuel for the bits of `b` and the sum so far. -/
def gfMulFrom : Nat → Nat → Nat → Nat → Nat
  | 0, _, _, acc => acc
  | n + 1, a, b, acc =>
    gfMulFrom n (if 128 ≤ a then (2 * a) ^^^ 0x11D else 2 * a) (b / 2) (if b % 2 == 1 then acc ^^^ a else acc)

/-- The product of two bytes. -/
def gfMul (a b : Nat) : Nat := gfMulFrom 8 a b 0

/-- The power g^n of the generator 0x02. -/
def gfPow : Nat → Nat
  | 0 => 1
  | n + 1 => gfMul 2 (gfPow n)

/-- The inverse, which is the 254th power. -/
def gfInv (a : Nat) : Nat := (upTo 253).foldl (fun x _ => gfMul x a) a

/-- What the package at position `pos` holds of stripe σ: 0 P, 1 Q, 2 + j data unit j (R336). -/
def stripeRole (slot pos : Nat) : Nat := (pos + 10 - slot % 10) % 10

/-- The position that holds a role of stripe σ. -/
def rolePos (slot role : Nat) : Nat := (slot + role) % 10

/-- Exclusive or of a list. -/
def xorAll (l : List Nat) : Nat := l.foldl (· ^^^ ·) 0

/-- The eight data bytes of a stripe, from the bytes of its roles that answer: none, one or two data bytes are computed from
P and Q (R337). -/
def stripeData (vals : Nat → Option Nat) : List Nat :=
  let d (j : Nat) : Nat := (vals (2 + j)).getD 0
  let missing := (upTo 8).filter fun j => (vals (2 + j)).isNone
  let sum := xorAll ((upTo 8).map d)
  let wsum := xorAll ((upTo 8).map fun j => gfMul (gfPow j) (d j))
  let fill (x vx y vy : Nat) : List Nat := (upTo 8).map fun j => if j == x then vx else if j == y then vy else d j
  match missing, vals 0, vals 1 with
  | [x], some p, _ => fill x (p ^^^ sum) 8 0
  | [x], none, some q => fill x (gfMul (gfInv (gfPow x)) (q ^^^ wsum)) 8 0
  | [x, y], some p, some q =>
    let a := p ^^^ sum
    let b := q ^^^ wsum
    let vx := gfMul (b ^^^ gfMul (gfPow y) a) (gfInv (gfPow x ^^^ gfPow y))
    fill x vx y (a ^^^ vx)
  | _, _, _ => (upTo 8).map d

/-- The byte of a role, from the data bytes (R337). -/
def roleByte (data : List Nat) (role : Nat) : Nat :=
  match role with
  | 0 => xorAll data
  | 1 => xorAll (data.mapIdx fun j x => gfMul (gfPow j) x)
  | r => data.getD (r - 2) 0

/-! ### Slots (R336) -/

/-- The unit of a package that a slot backs in the durable tier. -/
def Tier.unitOf (t : Tier) (slot : Nat) : Option Nat := (t.storeUnits.find? fun u => u.2 == slot).map (·.1)

/-- Byte b of a data slot as the durable tier holds it; an unwritten byte counts as zero. -/
def Tier.slotByte (t : Tier) (slot b : Nat) : Nat :=
  match t.unitOf slot with
  | some u => (t.store.bytes.read (4096 * u + b)).toNat
  | none => match t.storePre.find? fun p => p.slot == slot && p.line % 4096 / 256 == b / 256 with
    | some p => (p.bytes.getD (b % 256) 0).toNat
    | none => 0

/-- Byte b of a slot of a package, data or parity (R336). -/
def Pkg.slotByte (p : Pkg) (slot b : Nat) : Nat :=
  match stripeRole slot p.start.pos with
  | 0 => (p.tier.parity.read (8192 * slot + b)).toNat
  | 1 => (p.tier.parity.read (8192 * slot + 4096 + b)).toNat
  | _ => p.tier.slotByte slot b

/-- Byte b of a slot of a package can be read without error; a slot that is still to be rebuilt holds nothing (R464). -/
def Pkg.slotGood (p : Pkg) (slot b : Nat) : Bool :=
  !p.start.rebuild.contains slot &&
  match p.tier.unitOf slot with
  | some u => stripeRole slot p.start.pos ≤ 1 || !p.tier.store.poison.contains ((4096 * u + b) / 256)
  | none => true

/-- The package is a member of a recovery set (R336). -/
def Pkg.inSet (p : Pkg) : Bool := p.start.pos < 10

/-- The live package at a position of a package's recovery set. -/
def setMember (s : State) (p : Pkg) (pos : Nat) : Option Pkg :=
  s.pkgs.find? fun q => q.start.set == p.start.set && q.start.pos == pos && q.start.powered

/-- The other members of a package's set that hold byte b of the stripe without error; of no set, none. -/
def readableOthers (s : State) (p : Pkg) (slot b : Nat) : List Nat :=
  (upTo 10).filter fun pos => p.inSet && pos != p.start.pos && (setMember s p pos).any fun q => q.slotGood slot b

/-- Byte b of a package's slot, computed from the members at the positions that answer. -/
def rebuiltByte (s : State) (p : Pkg) (slot b : Nat) (positions : List Nat) : Byte :=
  let vals (role : Nat) : Option Nat :=
    let pos := rolePos slot role
    if pos != p.start.pos && positions.contains pos then (setMember s p pos).map fun q => q.slotByte slot b else none
  BitVec.ofNat 8 (roleByte (stripeData vals) (stripeRole slot p.start.pos))

/-- The 256 bytes of a tier line, computed from eight or more other members; none when fewer answer (R339, R340). -/
def rebuiltLine (s : State) (p : Pkg) (line : Nat) (positions : List Nat) : Option (List Byte) :=
  match p.tier.storeUnits.get (line / 4096) with
  | none => some (List.replicate 256 0)
  | some slot =>
    if !p.inSet || positions.length < 8 then none
    else some ((upTo 256).map fun i => rebuiltByte s p slot (line % 4096 + i) positions)

/-- Parity of a stripe changed at its holders by the difference of one data byte (R338). -/
def parityByte (s : State) (p : Pkg) (slot b : Nat) (delta : Byte) : State :=
  if !p.inSet || delta == 0 then s
  else
    let at_ (s : State) (q a : Nat) (x : Nat) : State :=
      match setMember s p (rolePos slot q) with
      | none => s
      | some h => s.modPkg h.rank fun h =>
        { h with tier := { h.tier with parity := h.tier.parity.write a (h.tier.parity.read a ^^^ BitVec.ofNat 8 x) } }
    let j := stripeRole slot p.start.pos - 2
    at_ (at_ s 0 (8192 * slot + b) delta.toNat) 1 (8192 * slot + 4096 + b) (gfMul (gfPow j) delta.toNat)

/-- The contents of a slot leave the parity of its stripe: a slot that is free counts as unwritten (R337; log 34). -/
def clearSlot (s : State) (rank slot : Nat) : State :=
  match s.pkg? rank with
  | none => s
  | some p =>
    if !p.inSet then s
    else (upTo 4096).foldl (fun s b => parityByte s p slot b (BitVec.ofNat 8 (p.tier.slotByte slot b))) s

/-- A line of the tier restored to old contents, in view and in the durable tier, with its parity (R355). -/
def restoreLine (s : State) (rank line : Nat) (bs : List Byte) (bad : Bool) : State :=
  match s.pkg? rank with
  | none => s
  | some p =>
    let s := match p.tier.storeUnits.get (line / 4096) with
      | none => s
      | some slot => (upTo 256).foldl (fun s i =>
        parityByte s p slot (line % 4096 + i) (p.tier.store.bytes.read (line + i) ^^^ bs.getD i 0)) s
    let put (r : Ram) : Ram := let r := r.write 256 line bs
      if bad then r.mark 256 line else r
    s.modPkg rank fun p => { p with tier := { p.tier with view := put p.tier.view, store := put p.tier.store } }

/-! ### The Moraine queues (R348 to R351) -/

/-- The parity messages of one drained entry: to the P holder and to the Q holder (R338). -/
def parityOf (p : Pkg) (e : Moraine) (ids : Nat) : List ParityMsg :=
  let off := e.line % 4096
  let delta : AL Nat Byte := e.bytes.map fun x => (off + x.1, p.tier.slotByte e.slot (off + x.1) |> fun old => BitVec.ofNat 8 old ^^^ x.2)
  let j := stripeRole e.slot p.start.pos - 2
  let scaled : AL Nat Byte := delta.map fun x => (x.1, BitVec.ofNat 8 (gfMul (gfPow j) x.2.toNat))
  if !p.inSet then []
  else
    [{ id := ids, persist := e.id, src := p.rank, holder := rolePos e.slot 0, slot := e.slot, isQ := false, delta := delta, acked := false },
     { id := ids + 1, persist := e.id, src := p.rank, holder := rolePos e.slot 1, slot := e.slot, isQ := true, delta := scaled, acked := false }]

/-- An entry written into the durable tier, its bytes under the mask only (R348). -/
def Tier.store1 (t : Tier) (e : Moraine) : Tier :=
  match e.pre with
  | some area =>
    if area + 2 < t.pstep then t
    else
      match t.pre.find? fun p => p.slot == e.slot with
      | none => t
      | some p => { t with storePre := p :: t.storePre }
  | none =>
    let bytes := e.bytes.foldl (fun m x => m.write (e.line + x.1) x.2) t.store.bytes
    let marks := if e.bytes.length == 256 then t.store.poison.filter (· != e.line / 256) else t.store.poison
    let r : Ram := ⟨bytes, marks⟩
    { t with store := if e.bad then r.mark 256 e.line else r, storeUnits := t.storeUnits.put (e.line / 4096) e.slot }

/-- The durable tier takes the entry: a pre-image whose area has been freed meanwhile is dropped (R353, R355). -/
def Tier.keeps (t : Tier) (e : Moraine) : Bool :=
  match e.pre with
  | some area => !(area + 2 < t.pstep) && t.pre.any fun p => p.slot == e.slot
  | none => true

/-- The oldest entry of a die's queue written to the tier, and its parity messages; an entry that is dropped has none. -/
def drainOne (s : State) (d : DieId) : State × List ParityMsg :=
  match s.pkg? d.rank with
  | none => (s, [])
  | some p =>
    match p.tier.moraine[d.die]?.getD [] with
    | [] => (s, [])
    | e :: rest =>
      let ms := if p.tier.keeps e then parityOf p e s.fresh else []
      let s := { s with fresh := s.fresh + 2 }
      (s.modPkg d.rank fun (p : Pkg) =>
        { (p.modDie d.die fun r => { r with drained := (r.drained + 1) % 2 ^ 32 }) with
          tier := { p.tier.store1 e with
            moraine := p.tier.moraine.mapIdx fun i q => if i == d.die then rest else q
            unstriped := if ms.isEmpty then p.tier.unstriped else p.tier.unstriped ++
              [{ id := e.id, line := e.line, pre := e.pre.isSome, tag := e.tag, die := d.die, acks := 0 }] } }, ms)

/-- A parity message's holder. -/
def parityHolder (s : State) (m : ParityMsg) : Option Pkg := (s.pkg? m.src).bind fun p => setMember s p m.holder

/-- A delta goes to its holder, by the fabric (R338, R428). -/
def sendDelta (s : State) (m : ParityMsg) : State :=
  let go : Move := .subject .parityDeltaArrive m.id
  match parityHolder s m with
  | none => s.owe [go]
  | some h => travel s none [m.src, h.rank] (.moves [go]) fun s => s.owe [go]

/-- The members of the tracked entry. -/
def trackedMembers (p : Pkg) : List Nat := ((p.gt.get (p.tier.trackCtx, p.tier.entry)).map (·.members)).getD []

/-- Every persist with a tag below the package's step is stripe-durable (R461). -/
def Tier.stepDurable (t : Tier) : Bool :=
  t.moraine.toList.flatten.all (fun e => e.pre.isSome || t.pstep ≤ e.tag) && t.unstriped.all fun u => u.pre || t.pstep ≤ u.tag

/-- A package that tracks announces the step that it has reached once every earlier persist is stripe-durable (R352, R461). -/
def announceStep (s : State) (rank : Nat) : State :=
  match s.pkg? rank with
  | none => s
  | some p =>
    if !p.tier.track || p.tier.pstep ≤ p.tier.announced || !p.tier.stepDurable then s
    else
      let s := s.modPkg rank fun p => { p with tier := { p.tier with announced := p.tier.pstep } }
      ((trackedMembers p).filter fun r => r != rank && (s.pkg? r).isSome).foldl (fun s r =>
        let m : Move := .event (.memberStepReport r rank p.tier.pstep)
        travel s none [rank, r] (.moves [m]) fun s => s.owe [m]) s

/-- The queue's oldest entry waits for the parity of its pre-image to be acknowledged (R461). -/
def preUnder (p : Pkg) (die : Nat) : Bool :=
  (p.tier.moraine[die]?.getD []).head?.any fun e => e.pre.isNone && p.tier.unstriped.any fun u => u.pre && u.line == e.line

/-- MORAINE_WRITE (R338, R348, R461). -/
def execMoraineWrite (d : DieId) (s : State) : Outcome :=
  .next (
    if (s.pkg? d.rank).any fun p => preUnder p d.die then s.owe [.event (.moraineWrite d)]
    else
      let pre := (((s.pkg? d.rank).bind fun p => (p.tier.moraine[d.die]?.getD []).head?).bind fun e => e.pre).isSome
      let (s, ms) := drainOne s d
      let s := { s with fab := { s.fab with parity := s.fab.parity ++ ms } }
      let s := announceStep (ms.foldl sendDelta s) d.rank
      if pre then s.owe [.event (.moraineWrite d)] else s)

/-- A parity slot after a delta (R338). -/
def applyDelta (m : ParityMsg) (parity : Mem) : Mem :=
  m.delta.foldl (fun q x =>
    let a := 8192 * m.slot + (if m.isQ then 4096 else 0) + x.1
    q.write a (q.read a ^^^ x.2)) parity

/-- An earlier update of the same parity slot is still to be applied (R338). -/
def earlierDelta (s : State) (m : ParityMsg) : Bool :=
  (s.fab.parity.takeWhile fun x => x.id != m.id).any fun x => x.src == m.src && x.slot == m.slot && x.isQ == m.isQ && !x.acked

/-- PARITY_DELTA_ARRIVE (R338). -/
def execParityDeltaArrive (s : State) : Outcome :=
  .next (match s.fab.parity.find? fun m => m.id == s.subj && !m.acked with
    | none => s
    | some m =>
      match parityHolder s m with
      | none => s.owe [.subject .parityDeltaArrive m.id]
      | some h =>
        if earlierDelta s m then s.owe [.subject .parityDeltaArrive m.id]
        else
          let s := s.modPkg h.rank fun h => { h with tier := { h.tier with parity := applyDelta m h.tier.parity } }
          let s := { s with fab := { s.fab with parity := modWhere (fun x => x.id == m.id) (fun x => { x with acked := true }) s.fab.parity } }
          let go : Move := .subject .parityAckArrive m.id
          travel s none [h.rank, m.src] (.moves [go]) fun s => s.owe [go])

/-- An acknowledgement of a persist's parity counted; after the second it is stripe-durable (R338). -/
def ackPersist (t : Tier) (id : Nat) : Tier :=
  { t with unstriped := (modWhere (fun u => u.id == id) (fun u => { u with acks := u.acks + 1 }) t.unstriped).filter fun u => u.acks < 2 }

/-- PARITY_ACK_ARRIVE (R338). -/
def execParityAckArrive (s : State) : Outcome :=
  .next (match s.fab.parity.find? fun m => m.id == s.subj && m.acked with
    | none => s
    | some m =>
      let s := { s.modPkg m.src fun p => { p with tier := ackPersist p.tier m.persist } with
        fab := { s.fab with parity := s.fab.parity.filter fun x => x.id != m.id } }
      announceStep s m.src)

/-! ### Damaged lines (R339 to R341) -/

/-- The die whose tier controller serves a tier address (log 35). -/
def tierDie (line : Nat) : Nat := line / 2 ^ 40 % 4

/-- The bytes of a line still in the queues put over its durable contents. -/
def Tier.pendingOver (t : Tier) (line : Nat) (bs : List Byte) : List Byte :=
  (t.moraine.toList.flatten.filter fun e => e.line == line && e.pre.isNone).foldl (fun bs e =>
    e.bytes.foldl (fun bs x => bs.set x.1 x.2) bs) bs

/-- A line reconstructed: rewritten, and logged as a corrected error (R339, R341). -/
def correctLine (s : State) (rank line : Nat) (bs : List Byte) : State :=
  s.modPkg rank fun p =>
    let t := p.tier
    { (p.modDie (tierDie line) fun d => { d with corr := min (2 ^ 32 - 1) (d.corr + 1) }) with
      tier := { t with store := t.store.write 256 line bs, view := t.view.write 256 line (t.pendingOver line bs) } }

/-- A unit moves to a fresh slot, with the parity of both stripes; without a free slot it stays (R339; log 73). -/
def moveUnit (s : State) (rank u : Nat) : State :=
  match s.pkg? rank with
  | none => s
  | some p =>
    match p.tier.storeUnits.get u with
    | none => s
    | some old =>
      if p.tier.free == 0 then s
      else
        let used := p.tier.units.map (·.2) ++ p.tier.pre.map (·.slot)
        let new := freeSlot p.start.pos used used.length
        let s := (clearSlot s rank old).modPkg rank fun p => { p with tier := { p.tier with
          units := if p.tier.units.get u == some old then p.tier.units.put u new else p.tier.units
          storeUnits := p.tier.storeUnits.put u new
          moraine := p.tier.moraine.map fun q => modWhere (fun e => e.slot == old) (fun e => { e with slot := new }) q } }
        match s.pkg? rank with
        | none => s
        | some p => (upTo 4096).foldl (fun s b => parityByte s p new b (BitVec.ofNat 8 (p.tier.slotByte new b))) s

/-- A line marked poison, and logged (R340, R341). -/
def poisonLine (s : State) (rank line : Nat) : State :=
  s.modPkg rank fun p =>
    { (p.modDie (tierDie line) fun d => { d with pois := min 65535 (d.pois + 1), lastp := line }) with
      tier := { p.tier with store := p.tier.store.mark 256 line, view := p.tier.view.mark 256 line } }

/-- Lines of a package reconstructed from the members that `from_` gives for each, and their units moved; a line with fewer than
eight becomes poison (R339 to R341). -/
def repairLines (s : State) (rank : Nat) (lines : List Nat) (from_ : Nat → List Nat) : State :=
  let s := lines.foldl (fun s line =>
    match (s.pkg? rank).bind fun p => rebuiltLine s p line (from_ line) with
    | some bs => correctLine s rank line bs
    | none => poisonLine s rank line) s
  ((lines.filter fun line => 8 ≤ (from_ line).length).map (· / 4096)).dedup.foldl (fun s u => moveUnit s rank u) s

/-- Parity of a stripe is under way. -/
def parityBusy (s : State) (slot : Nat) : Bool := s.fab.parity.any fun m => m.slot == slot && !m.acked

/-- The members that can answer for a line of a stripe, its damaged units apart (R339, R340). -/
def candidates (s : State) (p : Pkg) (r : Recon) (line : Nat) : List Nat :=
  (readableOthers s p r.slot (line % 4096)).filter fun pos => !r.damaged.contains pos

/-- TIER_READ_ERROR (R339): a read of the line finds an uncorrectable error; `damaged` are the positions whose units of the stripe are
found damaged too. The read joins a reconstruction under way in the stripe, or one begins, and the other members are asked. When too
few of them can answer, readers receive poison from here on (R340). -/
def execTierReadError (rank line : Nat) (damaged : List Nat) (s : State) : Outcome :=
  let line := lineBase line
  .next (match s.pkg? rank with
    | none => s
    | some p =>
      match p.tier.storeUnits.get (line / 4096) with
      | none => s
      | some slot =>
        let old := p.tier.recon.find? fun r => r.slot == slot
        let r : Recon := old.getD { slot := slot, lines := [], damaged := [], asked := [], answered := [] }
        let asks := (readableOthers s p slot (line % 4096)).filter fun pos => !r.asked.contains pos
        let r := { r with lines := (r.lines ++ [line]).dedup, damaged := (r.damaged ++ damaged).dedup, asked := r.asked ++ asks }
        let fails := !p.inSet || (candidates s p r line).length < 8
        let s := s.modPkg rank fun p => { p with tier := { p.tier with
          recon := (p.tier.recon.filter fun x => x.slot != slot) ++ [r]
          view := if fails then p.tier.view.mark 256 line else p.tier.view } }
        let s := asks.foldl (fun s pos =>
          match setMember s p pos with
          | none => s
          | some q => travel s none [rank, q.rank, rank] (.stripe rank slot pos) id) s
        if old.isSome then s else s.owe [.event (.reconstructDone rank line)])

/-- A member's answer to a reconstruction (R339). -/
def stripeAnswer (s : State) (rank slot pos : Nat) : State :=
  s.modPkg rank fun p => { p with tier := { p.tier with
    recon := modWhere (fun r => r.slot == slot) (fun r => { r with answered := pos :: r.answered }) p.tier.recon } }

/-- The packet is a question or an answer of a reconstruction. -/
def Packet.asks (pk : Packet) (rank slot pos : Nat) : Bool :=
  match pk.body with
  | .msg _ _ c => c == .stripe rank slot pos
  | .req _ | .xfer _ => false

/-- Every member that was asked has answered, or has no path for 1 ms (R310, R339). -/
def reconOver (s : State) (rank : Nat) (r : Recon) : Bool :=
  r.asked.all fun pos => r.answered.contains pos || s.fab.packets.any fun pk => pk.asks rank r.slot pos && pk.timedOut s.cyc

/-- RECONSTRUCT_DONE (R339 to R341): the stripe's reconstruction ends for every line that joined it, once eight members have answered
for each, or no more can. Parity under way for the stripe is waited for. -/
def execReconstructDone (rank line : Nat) (s : State) : Outcome :=
  .next (match s.pkg? rank with
    | none => s
    | some p =>
      match p.tier.recon.find? fun r => r.lines.contains line with
      | none => s
      | some r =>
        let good (l : Nat) : List Nat := (candidates s p r l).filter fun pos => r.answered.contains pos
        let enough := p.inSet && r.lines.all fun l => 8 ≤ (good l).length
        if parityBusy s r.slot || !(enough || !p.inSet || reconOver s rank r) then s.owe [.event (.reconstructDone rank line)]
        else
          let s := dropPackets s fun pk => (upTo 10).any fun pos => pk.asks rank r.slot pos
          let s := s.modPkg rank fun p => { p with tier := { p.tier with recon := p.tier.recon.filter fun x => x.slot != r.slot } }
          repairLines s rank r.lines good)

/-! ### Steps and snapshots (R352 to R356, R387, R388) -/

/-- The step that a member is known to have reached; a package knows its own. -/
def Pkg.reachedBy (p : Pkg) (r : Nat) : Nat := if r == p.rank then p.tier.pstep else (p.tier.reached.get r).getD 0

/-- The lowest step that every member is known to have reached. -/
def Pkg.allReached (p : Pkg) : Nat := (trackedMembers p).foldl (fun m r => min m (p.reachedBy r)) p.tier.pstep

/-- A snapshot that has become consistent (R354). -/
def Pkg.snapUpdate (p : Pkg) : Pkg :=
  let m := p.allReached
  if p.tier.track && p.tier.trackFrom + 1 ≤ m && (!p.tier.snapv || p.tier.snapc < m - 1) then
    { p with tier := { p.tier with snapv := true, snapc := m - 1 } }
  else p

/-- MEMBER_STEP_REPORT (R352, R354). -/
def execMemberStepReport (rank member stepNo : Nat) (s : State) : Outcome :=
  .next ((s.modPkg rank fun p =>
    { p with tier := { p.tier with reached := p.tier.reached.put member (max stepNo ((p.tier.reached.get member).getD 0)) } }.snapUpdate).owe
      [.event (.stepBoundary rank)])

/-- Pre-image areas that satisfy `f` are freed, and their slots with them (R355). -/
def dropAreas (s : State) (rank : Nat) (f : Nat → Bool) : State :=
  match s.pkg? rank with
  | none => s
  | some p =>
    let gone := p.tier.pre.filter fun x => f x.area
    let s := gone.foldl (fun s x => clearSlot s rank x.slot) s
    s.modPkg rank fun p => { p with tier := { p.tier with
      pre := p.tier.pre.filter fun x => !f x.area, storePre := p.tier.storePre.filter fun x => !f x.area
      free := p.tier.free + gone.length } }

/-- The parameters of a SNAP: EN and ENTRY (R388). -/
def Op.snapEn (o : Op) : Bool := bitOf o.param.toNat 0
def Op.snapEntry (o : Op) : Nat := bitsOf o.param.toNat 8 8

/-- The record of a SNAP (R388): PSTEP as it was when tracking began, which is the step that the boundary entered, or when it
stopped (log 47). -/
def snapRecord (s : State) (o : Op) (st : Nat) : DWord :=
  let n := ((s.pkg? o.rank).map fun p => if o.snapEn then p.tier.trackFrom + 1 else p.tier.pstep).getD 0
  BitVec.ofNat 64 (st + bitsOf n 0 32 * 2 ^ 32)

/-- A SNAP that acts at once (R388); one that starts tracking waits for the boundary. -/
def snapNow (s : State) (o : Op) : State :=
  match s.pkg? o.rank with
  | none => s
  | some p =>
    if !o.snapEn then
      let s := dropAreas s o.rank fun _ => true
      let s := s.modPkg o.rank fun p => { p with tier := { p.tier with track := false, snapv := false } }
      complete s o (snapRecord s o stOk)
    else if p.tier.track then
      complete s o (snapRecord s o (if p.tier.entry == o.snapEntry then stOk else stError))
    else s.modOp o.id fun o => { o with pass := 1, st := .running }

/-- Tracking begins at the boundary for the first SNAP that waits; the others find it begun (R388). -/
def beginTracking (s : State) (rank left : Nat) : State :=
  (s.ops.filter fun o => o.rank == rank && o.form == .snap && o.pass == 1 && o.st == .running).foldl (fun s o =>
    match s.pkg? rank with
    | none => s
    | some p =>
      if p.tier.track then
        complete s o (snapRecord s o (if p.tier.entry == o.snapEntry then stOk else stError))
      else
        let s := s.modPkg rank fun p => { p with tier := { p.tier with
          track := true, entry := o.snapEntry, trackCtx := o.ctx, trackFrom := left } }
        complete s o (snapRecord s o stOk)) s

/-- PSTEP may pass its next boundary (R387). -/
def Pkg.passable (p : Pkg) : Bool :=
  p.tier.arrived.all (fun n => 1 ≤ n) && (!p.tier.track || (trackedMembers p).all fun r => p.tier.pstep ≤ p.reachedBy r)

/-- PSTEP passes from s to s + 1 at one instant: areas older than two steps are freed, tracking may begin, the members are
told, and every STEP at the boundary completes (R352, R354, R355, R387). -/
def passBoundary (s : State) (rank : Nat) : State :=
  match s.pkg? rank with
  | none => s
  | some p =>
    let new := (p.tier.pstep + 1) % 2 ^ 64
    let s := s.modPkg rank fun p => { p with tier := { p.tier with pstep := new, arrived := p.tier.arrived.map (· - 1) } }
    let s := dropAreas s rank fun a => a + 2 < new
    let s := beginTracking s rank p.tier.pstep
    let s := s.modPkg rank Pkg.snapUpdate
    let s := announceStep s rank
    let here := s.ops.filter fun o => o.rank == rank && o.form == .step && o.st != .withdrawn
    here.foldl (fun s o =>
      if o.bound ≤ 1 then complete s o (BitVec.ofNat 64 new) else s.modOp o.id fun o => { o with bound := o.bound - 1 }) s

/-- STEP_BOUNDARY (R387, R388): SNAPs that act at once do, except while a rollback runs, and a boundary that is due passes. -/
def execStepBoundary (rank : Nat) (s : State) : Outcome :=
  let roll := (s.pkg? rank).any fun p => p.tier.roll
  let snaps := s.ops.filter fun o => o.rank == rank && o.form == .snap && o.st == .queued && !opHeld s o
  let s := if roll then s else snaps.foldl snapNow s
  .next (match s.pkg? rank with
    | none => s
    | some p => if p.passable then (passBoundary s rank).owe [.event (.stepBoundary rank)]
      else if roll && !snaps.isEmpty then s.owe [.event (.stepBoundary rank)] else s)

/-! ### Loss of supply (R282, R350) and rollback (R355) -/

/-- A queue drained to its end on hold-up power. The deltas that reach their holders are applied; the others are owed (R350). -/
def drainAll (s : State) (d : DieId) : Nat → State
  | 0 => s
  | n + 1 =>
    let (s, ms) := drainOne s d
    let s := ms.foldl (fun s m =>
      match parityHolder s m with
      | some h => (s.modPkg h.rank fun h => { h with tier := { h.tier with parity := applyDelta m h.tier.parity } }).modPkg d.rank
          fun p => { p with tier := ackPersist p.tier m.persist }
      | none => s.modPkg d.rank fun p => { p with tier := { p.tier with debt := p.tier.debt ++ [m] } }) s
    drainAll s d n

/-- Every queue of a package drained. -/
def drainQueues (s : State) (rank : Nat) : State :=
  (upTo 4).foldl (fun s d =>
    let n := ((s.pkg? rank).map fun p => (p.tier.moraine[d]?.getD []).length).getD 0
    drainAll s ⟨rank, d⟩ n) s

/-- The pre-image that gives a line's value at the end of step s (R355). -/
def Tier.imageOf (t : Tier) (line snap : Nat) : Option PreImage :=
  (t.pre.find? fun p => p.line == line && p.area == snap) <|> t.pre.find? fun p => p.line == line && p.area == snap + 1

/-- Units unbacked: their contents go, their slots are free (R355, R456). -/
def unbackUnit (s : State) (rank u : Nat) : State :=
  match (s.pkg? rank).bind fun p => p.tier.units.get u with
  | none => s
  | some slot =>
    let s := clearSlot s rank slot
    let gone (r : Ram) : Ram := ⟨r.bytes.filter fun c => c.1 / 4096 != u, r.poison.filter fun l => l / 16 != u⟩
    s.modPkg rank fun p => { p with
      tier := { p.tier with
        view := gone p.tier.view, store := gone p.tier.store, units := p.tier.units.del u, storeUnits := p.tier.storeUnits.del u
        tags := p.tier.tags.filter fun t => t.1 / 4096 != u, free := p.tier.free + 1 }
      cache := p.cache.filter fun c => !(c.tgt == 2 && c.pa / 4096 == u) }

/-- The monitors of a package on words of the tier are reclaimed (R296, R355). -/
def reclaimTier (s : State) (rank : Nat) : State :=
  match s.pkg? rank with
  | none => s
  | some p => p.slices.foldl (fun s q =>
      let hit := q.2.monitors.filter fun m =>
        match (xlate s rank (dieOfSlice q.1) m.req.ctx m.req.va .read).2 with
        | .error _ => false
        | .ok h => h.tgt == 2
      reclaimSlice s ⟨rank, q.1⟩ fun m => hit.any fun x => x.entry == m.entry) s

/-- Rollback of a package to the consistent snapshot s (R355). -/
def rollback (s : State) (rank : Nat) : State :=
  let s := drainQueues s rank
  match s.pkg? rank with
  | none => s
  | some p =>
    let snap := p.tier.snapc
    let lines := (p.tier.pre.filter fun x => x.area == snap || x.area == snap + 1).map (·.line) |>.dedup
    let imgs := lines.filterMap fun l => p.tier.imageOf l snap
    let s := imgs.foldl (fun s x =>
      (restoreLine s rank x.line x.bytes x.bad).modPkg rank fun p => { p with tier := { p.tier with tags := p.tier.tags.put x.line x.tag } }) s
    let s := ((imgs.filter (·.unbacked)).map fun x => x.line / 4096).dedup.foldl (fun s u => unbackUnit s rank u) s
    let s := dropAreas s rank fun _ => true
    let s := s.modPkg rank fun p => { p with
      tier := { p.tier with
        pstep := snap + 1, announced := snap, track := true, snapv := true, roll := false
        reached := p.tier.reached.map fun r => (r.1, min r.2 (snap + 1)) }
      cache := p.cache.filter fun c => c.tgt != 2 }
    reclaimTier s rank

end Sys2Proof.Machine
end

