-- ==== Sys2Proof/Machine/Persist.lean ====
section
/-! DEFINITION. PFENCE, STEP, SNAP, BPRI, ESTAT and EWAIT (R379, R386 to R389). -/

namespace Sys2Proof.Machine

/-! ### PFENCE (R386) -/

/-- A PUT that is not acknowledged, a path 6 word that is not answered, or an operation whose record is not written, of those
before flight `upto` (R386 step 2). -/
def persistsPending (g : Group) (upto : Nat) : Bool :=
  g.flights.any fun f => !f.done && f.seq < upto && (f.kind == .put || f.path == 6 || f.path == 3 || f.path == 4)

/-- The last entry of each die that is not yet stripe-durable, in its queue or with parity still to be acknowledged (R338, R386
step 3, R396). -/
def moraineMarks (p : Pkg) : List (Nat × Nat) :=
  (upTo 4).filterMap fun d =>
    (((p.tier.unstriped.filter fun u => u.die == d).map (·.id)) ++ (p.tier.moraine[d]?.getD []).map (·.id)).getLast?.map fun n => (d, n)

/-- Every entry up to each mark is stripe-durable (R338, R386). -/
def marksDurable (p : Pkg) (marks : List (Nat × Nat)) : Bool :=
  marks.all fun m =>
    (p.tier.moraine[m.1]?.getD []).all (fun e => m.2 < e.id) && p.tier.unstriped.all fun u => !(u.die == m.1 && u.id ≤ m.2)

/-- What a PFENCE that has drained its lines comes to: the state after it, or what it waits for. -/
def pfenceTry (s : State) (is : Issuer) (g : Group) (stripe : Bool) (upto : Nat) (marks : Option (List (Nat × Nat))) :
    Except Wait State :=
  let done : State := advance (s.modGroup is.gid Group.wakeScore) is 1
  if persistsPending g upto then .error (.pfence stripe upto none)
  else if !stripe then .ok done
  else
    match s.pkg? g.rank with
    | none => .ok done
    | some p =>
      let marks := marks.getD (moraineMarks p)
      if marksDurable p marks then .ok done else .error (.pfence stripe upto (some marks))

/-- PFENCE (R386). -/
def execPfence (stripe : Bool) (s : State) : Outcome :=
  issue s false fun x =>
    let s := drainGroup x.s x.g
    match pfenceTry s x.is x.g stripe x.g.nextSeq none with
    | .ok s => s
    | .error w => block s x.is w

/-! ### STEP and SNAP (R387, R388) -/

/-- The check of a STEP: its parameter word is zero. -/
def stepCheck (s : State) (_ : Group) (_ : Nat) (_ _ _ : QWord) (param : DWord) : State × Chk :=
  (s, if param == 0 then .ok [] else .bad causeOperand)

/-- A STEP is its die's arrival at the next boundary that the die has not yet passed (R387). -/
def stepInit (s : State) (o : Op) : State × Op :=
  let n := (((s.pkg? o.rank).map fun p => p.tier.arrived[o.die]?.getD 0).getD 0) + 1
  (s.modPkg o.rank fun p => { p with tier := { p.tier with arrived := p.tier.arrived.setIfInBounds o.die n } },
    { o with bound := n, st := .running })

/-- STEP. -/
def execStep (kn : XReg) (bar : Option BReg) (s : State) : Outcome :=
  engineWord s (.step kn bar) .step 0 0 kn bar false stepCheck stepInit

/-- The check of a SNAP: reserved bits, then the entry (R317, R388). -/
def snapCheck (s : State) (g : Group) (die : Nat) (_ _ _ : QWord) (param : DWord) : State × Chk :=
  let n := param.toNat
  if bitsOf n 1 7 != 0 || bitsOf n 16 48 != 0 then (s, .bad causeOperand)
  else
    match loadGt s g.rank die g.ctx (bitsOf n 8 8) with
    | (s, .fault a f) => (s, .xf (a, f))
    | (s, .wait) => (s, .wait)
    | (s, .ok e) => (s, if e.ok g.rank then .ok [] else .bad causeOperand)

/-- SNAP. -/
def execSnap (kn : XReg) (bar : Option BReg) (s : State) : Outcome :=
  engineWord s (.snap kn bar) .snap 0 0 kn bar false snapCheck noInit

/-! ### BPRI (R379) -/

/-- BPRI sets the group's bucket priority. -/
def execBpri (kn : XReg) (s : State) : Outcome :=
  issue s false fun x =>
    if x.g.ksBusy [kn.toNat] then block x.s x.is .scoreboard
    else
      let v := (x.g.kr kn.toNat).toNat
      if 256 ≤ v then illegal x causeOperand
      else advance (x.s.modGroup x.is.gid fun g => { g with level := BitVec.ofNat 8 v }) x.is 1

/-- BPRI.get. -/
def execBpriGet (kn : XReg) (s : State) : Outcome :=
  issue s false fun x =>
    uniWord x none 1 [kn.toNat] fun g => g.setK kn.toNat (BitVec.ofNat 64 g.level.toNat)

/-! ### ESTAT and EWAIT (R389) -/

/-- The code of an engine kind (R64). -/
def kindCode : EngKind → Nat
  | .copy => 0 | .collective => 1 | .rotation => 2 | .exchange => 3 | .update => 4 | .placement => 5 | .snapshot => 6

/-- The engine kind of an issued word, by its opcode (R365, R389). -/
def wordKind (w : Word) : Option Nat :=
  match bitsOf w.toNat 24 8 with
  | 0x90 => some 0
  | 0xB0 => some 1
  | 0xB4 => some 1
  | 0xB1 => some 2
  | 0xB2 => some 3
  | 0xB5 => some 4
  | 0xB6 => some 4
  | 0xB7 => some 5
  | 0xB9 => some 6
  | 0xBA => some 6
  | _ => none

/-- INFLIGHT of a kind (R389). -/
def Group.inflight (g : Group) (kind : Nat) : Nat := (g.summary kind).flying.length

/-- The summary word of a group for a kind (R389). -/
def summaryWord (s : State) (g : Group) (kind : Nat) : DWord :=
  let e := g.summary kind
  let pidx := ((s.ops.find? fun o => o.gid == g.gid && o.kind == kind && o.st != .withdrawn).map Op.progress).getD 0
  BitVec.ofNat 64 (g.inflight kind % 2 ^ 16 + e.lastst % 16 * 2 ^ 16 + b2n e.any * 2 ^ 20 + pidx % 2 ^ 32 * 2 ^ 24)

/-- ESTAT. -/
def execEstat (k : EngKind) (kn : XReg) (s : State) : Outcome :=
  issue s false fun x =>
    uniWord x none 1 [kn.toNat] fun g => g.setK kn.toNat (summaryWord x.s g (kindCode k))

/-- EWAIT, once INFLIGHT is no greater than the threshold; one of 65,535 or more is met at once. -/
def ewaitTry (s : State) (is : Issuer) (g : Group) (k : EngKind) (kn : XReg) (thr : Nat) : Option State :=
  if g.inflight (kindCode k) ≤ thr || 65535 ≤ thr then
    some (advance (s.modGroup is.gid fun g => g.setBusyK kn.toNat (summaryWord s g (kindCode k))) is 1)
  else none

/-- EWAIT. -/
def execEwait (k : EngKind) (kn : XReg) (s : State) : Outcome :=
  issue s false fun x =>
    uniIssue x none 1 [kn.toNat] <|
      let thr := (x.g.kr kn.toNat).toNat
      match ewaitTry x.s x.is x.g k kn thr with
      | some s => s
      | none => block x.s x.is (.ewait k kn thr)

end Sys2Proof.Machine
end

