-- ==== Sys2Proof/Machine/Place.lean ====
section
/-! DEFINITION. Placement: PLACE, the placement state machine, its copies and its points of remap (R342 to R347, R385). -/

namespace Sys2Proof.Machine

/-- Bytes of a pool frame (R343). -/
def frameBytes : Nat := 2 ^ 21

/-- Changes an entry of the placement table. -/
def modPlace (s : State) (rank idx : Nat) (f : PlaceEntry → PlaceEntry) : State :=
  s.modPkg rank fun p => { p with place := modWhere (fun e => e.idx == idx) f p.place }

/-- The entry of a table index. -/
def placeEntry (s : State) (rank idx : Nat) : Option PlaceEntry :=
  (s.pkg? rank).bind fun p => p.place.find? fun e => e.idx == idx

/-- Frames of an object. -/
def PlaceEntry.frames (e : PlaceEntry) : Nat := e.length / frameBytes

/-! ### Frames (R343, R346) -/

/-- The lowest run of n free contiguous frames of the pool, where the entries of `gone` count as free. -/
def freeFrames (p : Pkg) (n : Nat) (gone : List Nat) : Option Nat :=
  let held := p.place.filter fun e => e.st != .tier && !gone.contains e.idx
  if p.plpools < n then none
  else (upTo (p.plpools - n + 1)).find? fun f => held.all fun e => e.frame0 + e.frames ≤ f || f + n ≤ e.frame0

/-- The frames for a promote, with the victims to be evicted for them: the fewest of the unpinned HBM objects, oldest first
(R346). -/
def planFrames (p : Pkg) (n : Nat) : Option (Nat × List Nat) :=
  let c := ((p.place.filter fun e => e.st == .hbm && !e.pin).sortLe fun a b => a.since ≤ b.since).map (·.idx)
  (upTo (c.length + 1)).findSome? fun k => (freeFrames p n (c.take k)).map fun f => (f, c.take k)

/-! ### The state machine (R344) -/

/-- A request completes with a status. -/
def placeDone (s : State) (id st : Nat) : State :=
  match s.op? id with
  | none => s
  | some o => complete s { o with status := st } (BitVec.ofNat 64 st)

/-- The requests that wait at an entry complete. -/
def placeAnswer (s : State) (rank idx st : Nat) : State :=
  match placeEntry s rank idx with
  | none => s
  | some e => e.waiting.foldl (fun s id => placeDone s id st) (modPlace s rank idx fun e => { e with waiting := [] })

/-- An entry in state TIER, unpinned and with no request pending, is removed (R342). -/
def tidyPlace (s : State) (rank : Nat) : State :=
  s.modPkg rank fun p => { p with place := p.place.filter fun e => !(e.st == .tier && !e.pin && e.waiting.isEmpty) }

/-- A copy back to the tier begins for a request, or for an eviction. -/
def startDemote (s : State) (rank idx : Nat) (waiting : List Nat) : State :=
  (modPlace s rank idx fun e => { e with st := .demoting, done := 0, marks := [], waiting := waiting }).owe [.event (.placeCopyDone rank idx)]

/-- A promote of an object in state TIER: its frames are taken, their holders evicted, or it completes CAPACITY (R344, R346). -/
def tryPromote (s : State) (rank idx id : Nat) : State :=
  match s.pkg? rank, placeEntry s rank idx with
  | some p, some e =>
    match planFrames p e.frames with
    | none => placeDone s id stCapacity
    | some (f, vs) =>
      let s := modPlace s rank idx fun e => { e with st := .promoting, frame0 := f, victims := vs, waiting := [id] }
      let s := vs.foldl (fun s v => startDemote s rank v []) s
      s.owe [.event (.placeCopyDone rank idx)]
  | _, _ => s

/-- Promotes that wait for the frames of an object that stays in HBM look for others (log 37). -/
def replan (s : State) (rank idx : Nat) : State :=
  match s.pkg? rank with
  | none => s
  | some p => (p.place.filter fun e => e.st == .promoting && e.victims.contains idx).foldl (fun s e =>
      let s := modPlace s rank e.idx fun e => { e with st := .tier, victims := [], waiting := [] }
      match e.waiting with
      | [] => s
      | id :: _ => tryPromote s rank e.idx id) s

/-- A request acts on its object (R344). -/
def placeAct (s : State) (o : Op) (op : PlaceOp) (e : PlaceEntry) : State :=
  let r := o.rank
  let set (f : PlaceEntry → PlaceEntry) (s : State) : State := modPlace s r e.idx f
  match op, e.st with
  | .pin, _ => placeDone (set (fun e => { e with pin := true }) s) o.id stOk
  | .unpin, _ => placeDone (set (fun e => { e with pin := false }) s) o.id stOk
  | .promote, .tier => tryPromote s r e.idx o.id
  | .demote, .tier => placeDone s o.id stOk
  | .promote, .promoting => set (fun e => { e with waiting := [o.id] }) (placeAnswer s r e.idx stSuperseded)
  | .demote, .promoting =>
    let s := placeAnswer s r e.idx stSuperseded
    placeDone (set (fun e => { e with st := .tier, victims := [] }) s) o.id stOk
  | .promote, .hbm => placeDone s o.id stOk
  | .demote, .hbm => startDemote (set (fun e => { e with pin := false }) s) r e.idx [o.id]
  | .demote, .demoting => set (fun e => { e with waiting := [o.id] }) (placeAnswer s r e.idx stSuperseded)
  | .promote, .demoting =>
    let s := placeAnswer s r e.idx stSuperseded
    replan (placeDone (set (fun e => { e with st := .hbm }) s) o.id stOk) r e.idx

/-- The object of a request: its entry, a new one, or none for an overlap or a full table (R342). -/
def placeFind (s : State) (o : Op) : State × Option PlaceEntry :=
  let base := (tileOf o.ta).base
  let len := bitsOf o.param.toNat 0 20 * frameBytes
  match s.pkg? o.rank with
  | none => (s, none)
  | some p =>
    match p.place.find? fun e => e.ctx == o.ctx && e.base < base + len && base < e.base + e.length with
    | some e => (s, if e.base == base && e.length == len then some e else none)
    | none =>
      match (upTo 4096).find? fun i => !(p.place.any fun e => e.idx == i) with
      | none => (s, none)
      | some i =>
        let e : PlaceEntry :=
          { idx := i, base := base, length := len, st := .tier, pin := false, ctx := o.ctx, frame0 := 0, since := 0
            waiting := [], victims := [], pages := [], done := 0, marks := [] }
        (s.modPkg o.rank fun p => { p with place := p.place ++ [e] }, some e)

/-- The next request of a package in the order of issue (R344, R385); one that is held keeps the others waiting. -/
def nextRequest (s : State) (rank : Nat) : State :=
  match s.ops.find? fun o => o.rank == rank && o.kind == 5 && o.st == .queued with
  | none => s
  | some o =>
    match o.form with
    | .place op =>
      if opHeld s o then s.owe [.event (.placeCopyDone rank 4096)]
      else
        let s := s.modOp o.id fun o => { o with st := .running }
        match placeFind s o with
        | (s, none) => placeDone s o.id stError
        | (s, some e) => tidyPlace (placeAct s o op e) rank
    | _ => s

/-! ### The copies (R345) -/

/-- The address of the leaf entry that maps an address (R222). -/
def leafAddr (m : Mem) (va : Nat) : Nat → Nat → Option Nat
  | 0, _ => none
  | level + 1, a =>
    let at_ := a + 8 * bitsOf va (12 + 9 * (level + 1)) 9
    let e := m.num at_ 8
    if !bitOf e 0 then none
    else if bitOf e 1 then some at_
    else leafAddr m va level (bitsOf e 12 40 * 2 ^ 12)

/-- The leaf pages from an address to an end: entry address and translation, with fuel. -/
def leafPages (m : Mem) (ctx root stop : Nat) : Nat → Nat → List (Nat × TlbEntry)
  | 0, _ => []
  | n + 1, va =>
    if stop ≤ va then []
    else
      match leafAddr m va 5 root, walk m ctx va 5 root with
      | some a, .ok t => (a, t) :: leafPages m ctx root stop n (va / t.size * t.size + t.size)
      | _, _ => leafPages m ctx root stop n (va / 4096 * 4096 + 4096)

/-- The virtual start of an object. -/
def PlaceEntry.start (e : PlaceEntry) : Nat := (sext57 e.base).toNat

/-- The leaf pages of an object. -/
def objectPages (s : State) (rank : Nat) (e : PlaceEntry) : List (Nat × TlbEntry) :=
  match s.pkg? rank, s.ctx? rank e.ctx with
  | some p, some c => leafPages p.hbm.bytes e.ctx c.ptroot (e.start + e.length) (e.length / 4096) e.start
  | _, _ => []

/-- The HBM address of a byte of an object. -/
def frameAddr (p : Pkg) (e : PlaceEntry) (va : Nat) : Nat := p.plpoolb + e.frame0 * frameBytes + (va - e.start)

/-- Bytes and marks of one range of memory put over another. -/
def copyRange (dst src : Ram) (to_ from_ n : Nat) : Ram :=
  let moved := (src.bytes.filter fun c => from_ ≤ c.1 && c.1 < from_ + n).map fun c => (c.1 - from_ + to_, c.2)
  let marks := (src.poison.filter fun l => from_ / 256 ≤ l && l < (from_ + n) / 256).map fun l => l - from_ / 256 + to_ / 256
  { bytes := (dst.bytes.filter fun c => c.1 < to_) ++ moved ++ dst.bytes.filter fun c => to_ + n ≤ c.1
    poison := (dst.poison.filter fun l => l < to_ / 256 || (to_ + n) / 256 ≤ l) ++ marks }

/-- A leaf entry with another target and frame (R213, R221). -/
def retarget (e tgt pa : Nat) : Nat :=
  e - bitsOf e 6 2 * 2 ^ 6 - bitsOf e 12 40 * 2 ^ 12 + tgt * 2 ^ 6 + pa / 4096 * 2 ^ 12

/-- The point of remap of the pages of an object: the entries rewritten, the translations invalidated on every die, the
lines fetched again, and the monitors reclaimed (R296, R345). -/
def remap (s : State) (rank : Nat) (e : PlaceEntry) (ps : List (Nat × Nat × Nat)) : State :=
  let hit (ctx va n : Nat) : Bool := ctx == e.ctx && va < e.start + e.length && e.start < va + n
  let s := s.modPkg rank fun p =>
    { p with
      hbm := { p.hbm with bytes := ps.foldl (fun m x => m.writeL x.1 (bytesLE 8 (retarget (m.num x.1 8) x.2.1 x.2.2))) p.hbm.bytes }
      dies := p.dies.map fun d => { d with tlb := d.tlb.filter fun t => !hit t.ctx t.va t.size }
      cache := p.cache.filter fun c => !hit c.ctx c.va 256 }
  match s.pkg? rank with
  | none => s
  | some p => p.slices.foldl (fun s q => reclaimSlice s ⟨rank, q.1⟩ fun m => hit m.req.ctx m.req.va 4) s

/-- The copy to HBM is done: the tier's pages of the object, as they stand, become the frames, and the entries name them. -/
def remapToHbm (s : State) (rank : Nat) (e : PlaceEntry) : State :=
  let s := cleanLines s rank (inRange e.ctx e.start e.length)
  match s.pkg? rank with
  | none => s
  | some p =>
    let pages := (objectPages s rank e).filter fun x => x.2.tgt == 2
    let hbm := pages.foldl (fun h x => copyRange h p.tier.view (frameAddr p e x.2.va) x.2.pa x.2.size) p.hbm
    let (n, s) := (s.modPkg rank fun p => { p with hbm := hbm }).gensym
    let s := modPlace s rank e.idx fun e =>
      { e with st := .hbm, since := n, pages := pages.map fun x => (x.2.va, x.2.size, x.2.pa) }
    remap s rank e (pages.map fun x => (x.1, 0, frameAddr p e x.2.va))

/-- The line at a place of an object's pages: its virtual and its tier address, counting lines from the first page. -/
def pageLine : List (Nat × Nat × Nat) → Nat → Option (Nat × Nat)
  | [], _ => none
  | (va, size, pa) :: r, i => if i < size / 256 then some (va + 256 * i, pa + 256 * i) else pageLine r (i - size / 256)

/-- A line of an object in HBM: its bytes, and whether it is poisoned. -/
def frameLine (s : State) (rank : Nat) (e : PlaceEntry) (va : Nat) : List Byte × Bool :=
  match s.pkg? rank with
  | none => ([], false)
  | some p => rawRead s ⟨rank, 0, frameAddr p e va⟩ 256

/-- What the write of one line of a copy back comes to. -/
inductive BackOut where
  | ok (s : State)
  | wait
  | capacity

/-- One line of a copy back, which is a persist (R347). -/
def backLine (s : State) (rank : Nat) (e : PlaceEntry) (va pa : Nat) : BackOut :=
  match s.pkg? rank with
  | none => .wait
  | some p =>
    let (bs, bad) := frameLine s rank e va
    let die := dieOfSlice (sliceOf va)
    let m : AL Nat Byte := (upTo 256).map fun i => (i, bs.getD i 0)
    match p.tier.persist p.start.pos die pa m bad true s.fresh with
    | some t => .ok (({ s with fresh := s.fresh + 2 }.modPkg rank fun p => { p with tier := t }).owe [.event (.moraineWrite ⟨rank, die⟩)])
    | none =>
      if p.tier.free < b2n ((p.tier.units.get (pa / 4096)).isNone) + b2n (p.tier.needsPre pa) then .capacity else .wait

/-- Lines of a copy back, in order, until one waits or fails. -/
def backLines (rank : Nat) (e : PlaceEntry) : List (Nat × Nat) → State → BackOut
  | [], s => .ok s
  | x :: r, s =>
    match backLine s rank e x.1 x.2 with
    | .ok s => backLines rank e r s
    | .wait => .wait
    | .capacity => .capacity

/-- The copy back fails for want of space: the object stays in HBM (log 37). -/
def backFails (s : State) (rank : Nat) (e : PlaceEntry) : State :=
  let s := placeAnswer s rank e.idx stCapacity
  replan (modPlace s rank e.idx fun e => { e with st := .hbm }) rank e.idx

/-- Lines of an object by virtual address, with their tier addresses. -/
def tierLines (e : PlaceEntry) (vas : List Nat) : List (Nat × Nat) :=
  vas.filterMap fun va => (pageIndex e.pages va).bind fun i => pageLine e.pages i

/-- The object is remapped to the tier (R345). -/
def demoted (s : State) (rank : Nat) (e : PlaceEntry) : State :=
  let ls := (objectPages s rank e).filterMap fun x => (e.pages.find? fun p => p.1 == x.2.va).map fun p => (x.1, 2, p.2.2)
  let s := remap s rank e ls
  let s := modPlace s rank e.idx fun e => { e with st := .tier, pages := [] }
  let s := s.modPkg rank fun p => { p with place := p.place.map fun x => { x with victims := x.victims.filter (· != e.idx) } }
  tidyPlace (placeAnswer s rank e.idx stOk) rank

/-- The next 4 KiB chunk of a copy back; after the last, with new writes held, the marked lines are copied again, up to 16 in a step,
and the object is remapped to the tier (R345). -/
def demoteStep (s : State) (rank : Nat) (e : PlaceEntry) : State :=
  let go : Move := .event (.placeCopyDone rank e.idx)
  let s0 := s
  let s := cleanLines s rank (inRange e.ctx e.start e.length)
  let chunk := 16 * e.done < pageLines e.pages
  if !chunk && e.marks.isEmpty then demoted s rank e
  else
    let ls := if chunk then (upTo 16).filterMap fun i => pageLine e.pages (16 * e.done + i) else tierLines e (e.marks.take 16)
    match backLines rank e ls s with
    | .wait => s0.owe [go]
    | .capacity => tidyPlace (backFails s rank e) rank
    | .ok s =>
      (modPlace s rank e.idx fun e => if chunk then { e with done := e.done + 1 } else { e with marks := e.marks.drop 16 }).owe [go]

/-- PLACE_COPY_DONE (R344, R345): the copy of a table entry goes on or ends; index 4,096 stands for the next request. -/
def execPlaceCopyDone (rank entry : Nat) (s : State) : Outcome :=
  .next (if 4096 ≤ entry then nextRequest s rank
    else match placeEntry s rank entry with
      | none => s
      | some e =>
        match e.st with
        | .tier | .hbm => s
        | .promoting =>
          if e.victims.isEmpty then placeAnswer (remapToHbm s rank e) rank entry stOk
          else s.owe [.event (.placeCopyDone rank entry)]
        | .demoting => demoteStep s rank e)

/-! ### PLACE (R385) -/

/-- The check of a PLACE at issue. -/
def placeCheck (s : State) (g : Group) (_ : Nat) (_ ta _ : QWord) (param : DWord) : State × Chk :=
  let a := tileOf ta
  let n := bitsOf param.toNat 0 20
  (s, if bitsOf param.toNat 20 44 != 0 || n == 0 || 2 ^ 19 < n then .bad causeOperand
    else if a.space == 2 && a.base % frameBytes == 0 && a.rsvd == 0 then
      .ok [spanOf (2, g.ctx) a.base (a.base + n * frameBytes) false]
    else .bad causeTile)

/-- PLACE. -/
def execPlace (op : PlaceOp) (ta kn : XReg) (f : Compl) (s : State) : Outcome :=
  engineWord s (.place op ta kn f) (.place op) 0 ta kn f.bar f.foe placeCheck noInit

end Sys2Proof.Machine
end

