-- ==== Sys2Proof/Machine/Net.lean ====
section
/-! DEFINITION. Replies, the application of PUT lines (R214, R218, R219, R250), and accesses that arrive at a peer (R424). -/

namespace Sys2Proof.Machine

/-- MEMORY_REPLY (R214, R215). -/
def execMemoryReply (gid seq : Nat) (s : State) : Outcome := .next (replyWord s gid seq true)

/-- WCB_AGE_DRAIN (R218): a line drains 2 µs after its first byte entered it. -/
def execWcbAgeDrain (core : CoreId) (line : Nat) (s : State) : Outcome :=
  .next (match (s.core core).wcb.find? fun l => l.id == line with
    | none => s
    | some l => if l.since + 2 * Config.usec ≤ s.cyc then drainLine s core l else s.owe [.event (.wcbAgeDrain core line)])

/-- An earlier transfer to the same line holds bytes of one of the same groups and is not yet applied (R219). -/
def earlierXfer (s : State) (x : Xfer) : Bool :=
  (s.fab.xfers.takeWhile fun y => y.id != x.id).any fun y =>
    !y.applied && y.dest == x.dest && y.ctx == x.ctx && y.va == x.va && y.last.any fun l => (x.last.get l.1).isSome

/-- The transfer is over for its groups: it leaves the lines that their PUTs wait for, and a PUT with none left returns
(R250). -/
def ackXfer (s : State) (x : Xfer) : State :=
  let s := { s with fab := { s.fab with xfers := s.fab.xfers.filter fun y => y.id != x.id } }
  x.last.foldl (fun s l =>
    match s.group? l.1 with
    | none => s
    | some g =>
      let hit := g.flights.filter fun f => f.lines.contains x.id
      s.modGroup l.1 fun g =>
        let g := { g with flights := modWhere (fun f => f.lines.contains x.id) (fun f => { f with lines := f.lines.filter (· != x.id) }) g.flights }
        (hit.filter fun f => f.lines.length == 1).foldl (fun g f => g.ret f.seq) g) s

/-- The slots of a PUT whose bytes lie in a line. -/
def Flight.slotsIn (f : Flight) (va : Nat) : Mask :=
  maskOf fun i => f.mask.getLsbD i && lineBase (f.addrs.getD i 0).toNat == va

/-- The destination cannot translate the line: each PUT with bytes in it raises class 5 (R226, R424). -/
def faultXfer (s : State) (x : Xfer) (f : XFault) : State :=
  let s := x.last.foldl (fun s l =>
    match s.group? l.1 with
    | none => s
    | some g =>
      (g.flights.filter fun y => y.lines.contains x.id).foldl (fun s y =>
        let m := y.slotsIn x.va
        let s := s.modGroup l.1 fun g =>
          if g.trap.raised.any fun r => r.seq == y.seq then g
          else { g with trap := { g.trap with raised := g.trap.raised ++ [y.replay 5 f.cause] } }
        pendTrap s l.1 5 ⟨f.cause, tinfoOf m 0 0 f.level 0, y.addrs.getD (lowest m) 0⟩) s) s
  ackXfer s x

/-- Where a transfer is performed, by the tables of its destination (R424). -/
def xferXlate (s : State) (x : Xfer) : State × Except XFault Phys :=
  match translate1 s x.dest (dieOfSlice (sliceOf x.va)) x.ctx x.va .write with
  | (s, .error f) => (s, .error f)
  | (s, .ok (e, pa)) => if e.tgt == 1 then (s, .error ⟨2, e.level⟩) else (s, .ok ⟨x.dest, e.tgt, pa⟩)

/-- A package has lost its supply: what is on its way to it waits (R459). -/
def unpowered (s : State) (rank : Nat) : Bool := (s.pkg? rank).any fun p => !p.start.powered

/-- PUT_LINE_APPLY (R219, R424): it comes again while an earlier transfer, a wave or a persist keeps it waiting. -/
def execPutLineApply (s : State) : Outcome :=
  .next (match s.fab.xfers.find? fun x => x.id == s.subj && !x.applied with
    | none => s
    | some x =>
      let again (s : State) : State := s.owe [.subject .putLineApply x.id]
      if unpowered s x.dest || earlierXfer s x || lineLocked s x.dest x.ctx x.va then again s
      else
        match xferXlate s x with
        | (s, .error f) => faultXfer s x f
        | (s, .ok h) =>
          match lineStoreMask s h x.ctx x.va (x.bytes.map fun b => (b.1, (b.2, false))) with
          | none => again (tierWaits s h x.va)
          | some s =>
            let s := { s with fab := { s.fab with xfers := modWhere (fun y => y.id == x.id) (fun y => { y with applied := true }) s.fab.xfers } }
            let ack : Move := .subject .putAck x.id
            travel (testMonitors s h x.ctx x.va 256) none [x.dest, x.src] (.moves [ack]) fun s => s.owe [ack])

/-- PUT_ACK (R219, R250). -/
def execPutAck (s : State) : Outcome :=
  .next (match s.fab.xfers.find? fun x => x.id == s.subj && x.applied with
    | none => s
    | some x => ackXfer s x)

/-- A GET performed at its peer home (R250, R424). -/
def peerGet (s : State) (r : Req) : State :=
  match homeXlate s r .read with
  | (s, .error f) => answer s r (.fault f.cause f.level)
  | (s, .ok h) =>
    let (s, bs) := lineRead s h r.ctx r.va 4
    answer s r (if bs.any (·.2) then .poison else .words (wordsOf (bs.map (·.1))))

/-- PEER_ACCESS (R283, R424): an access follows the earlier ones of its group to its slice; a GET waits for the group's own PUTs
to its line, and a path 6 request joins its slice's queue when that has room. -/
def execPeerAccess (s : State) : Outcome :=
  .next (match s.fab.reqs.find? fun r => r.id == s.subj with
    | none => s
    | some q =>
      if unpowered s q.dest || earlierReq s q.req || (q.req.kind != .get && queueFull s q.req) then s.owe [.subject .peerAccess q.id]
      else
      let gone : State := { s with fab := { s.fab with reqs := s.fab.reqs.filter fun r => r.id != q.id } }
      match q.req.kind with
      | .get =>
        if putUnderWay s q.req.gid q.src q.req.ctx q.req.va then s.owe [.subject .peerAccess q.id] else peerGet gone q.req
      | .atom _ _ | .waitc _ _ _ _ _ | .comb _ _ => arriveSlice gone q.req)

end Sys2Proof.Machine
end

