-- ==== Sys2Proof/Machine/Fabric.lean ====
section
/-! DEFINITION. The fabric: adaptive routing (R425, R428), thaw recovery (R429 to R432) and deflection (R433, R434). -/

namespace Sys2Proof.Machine

/-! ### Links as a packet sees them (R428) -/

/-- The link carries DATA flits: it is up, and a slot of its transmitter is LIVE (R439, R440). -/
def Link.up (l : Link) : Bool := !l.tx.down && !l.training && l.tx.slots.any fun k => k.st == 2

/-- Packets of the normal class that an input buffer holds (R428). -/
def bufSize : Nat := Config.bufMore + 1

/-- Where a packet may go next: out of a link of a package, or into a buffer of a switch. -/
inductive Egress where
  | link (l : LinkId)
  | node (n : NodeId) (buf : Nat)
  deriving DecidableEq, Repr

/-- The plane is up (R427). -/
def planeUp (s : State) (p : Nat) : Bool := !s.fab.down.contains p

/-- The level 2 switches of a plane that are up (R425, R427). -/
def l2Up (s : State) (plane : Nat) : List Nat := (upTo (Config.l2More + 1)).filter fun j => !s.fab.downSw.contains (plane, j)

/-- The plane and the level 2 switch that the packet's line of an RSTO goes to (R427). -/
def linePlace (s : State) (pk : Packet) : Option (Nat × Nat) :=
  match pk.body with
  | .msg _ _ (.line op i _) =>
    (s.op? op).bind fun o =>
      ((s.pkg? o.rank).bind fun p => p.rw.get (o.ctx, bitsOf o.param.toNat 0 6)).map fun w =>
        (reducePlane s (w.base + 256 * (bitsOf o.param.toNat 8 32 + i)) w.home, Config.l2Of w.home)
  | _ => none

/-- A plane takes a packet of a package all the way to where it goes (R425, R428). -/
def planeReaches (s : State) (rank plane : Nat) (pk : Packet) : Bool :=
  planeUp s plane &&
    match linePlace s pk with
    | some x => x.1 == plane
    | none => (s.link ⟨pk.dest, plane, false⟩).up && (Config.l1Of rank == Config.l1Of pk.dest || !(l2Up s plane).isEmpty)

/-- The minimal egress ports of a packet at a node, in the order of port numbers (R425, R428). -/
def minimalPorts (s : State) (n : NodeId) (pk : Packet) : List Egress :=
  match n with
  | .port rank _ =>
    (upTo 36).filterMap fun p =>
      let l : LinkId := ⟨rank, p, true⟩
      if (s.link l).up && planeReaches s rank p pk then some (.link l) else none
  | .col1 plane idx =>
    match linePlace s pk with
    | some x => [.node (.col2 plane x.2) idx]
    | none =>
      if Config.l1Of pk.dest == idx then
        let l : LinkId := ⟨pk.dest, plane, false⟩
        if (s.link l).up then [.link l] else []
      else (l2Up s plane).map fun j => .node (.col2 plane j) idx
  | .col2 plane idx => [.node (.col1 plane (Config.l1Of pk.dest)) (fromL2 idx)]

/-- Free slots of the normal class downstream of an egress port, a link's by the credits that it holds (R436), and the length of its
queue (R428). -/
def Egress.room (s : State) (e : Egress) : Nat × Nat :=
  match e with
  | .link l => (bufSize - (s.link l).used, (s.link l).sendq.length)
  | .node n i => (bufSize - ((s.node n).buf i).pkts.length, 0)

/-- The port that a packet takes: most free slots, then the shorter queue, then the lower number (R428); none when no port
has a free slot. -/
def pickPort (s : State) (es : List Egress) : Option Egress :=
  (es.foldl (fun (best : Option (Egress × Nat × Nat)) e =>
    let r := e.room s
    if r.1 == 0 then best
    else match best with
      | none => some (e, r)
      | some b => if b.2.1 < r.1 || (b.2.1 == r.1 && r.2 < b.2.2) then some (e, r) else some b) none).map (·.1)

/-! ### Moving a packet -/

/-- The node after a node in the token's ring (R430). -/
def ringAfter (s : State) (n : NodeId) : Option NodeId :=
  let l := s.fab.ring
  if l.isEmpty then none else l[(l.idxOf n + 1) % l.length]?

/-- The token goes on to the next node (R430). -/
def passToken (s : State) (n : NodeId) : State :=
  match ringAfter s n with
  | none => s
  | some m => { s with fab := { s.fab with token := some m } }.owe [.event (.thawTokenArrive m)]

/-- A thawing buffer without marked packets, or whose head advanced in the normal class, is normal, with no packet of it marked; the
token leaves once no buffer of its node is thawing (R431). -/
def endThaw (s : State) (n : NodeId) (i : Nat) : State :=
  let left := ((s.node n).buf i).pkts
  let s := s.modNode n fun x => x.modBuf i fun b => { b with st := .normal }
  let s := { s with fab := { s.fab with packets := modWhere (fun p => left.contains p.id) (fun p => { p with marked := false }) s.fab.packets } }
  let s := if left.isEmpty then s else s.oweOnce (.event (.bufferSuspectTimeout n i))
  if (s.node n).bufs.any fun b => b.2.st == .thawing then s
  else if s.fab.token == some n then passToken s n else s

/-- The packets carry one chunk, or are one (R310). -/
def Packet.mate (pk x : Packet) : Bool :=
  x.id == pk.id || match pk.body, x.body with
    | .msg (some a) _ (.chunk _ i), .msg (some b) _ (.chunk _ j) => a == b && i == j
    | _, _ => false

/-- A packet has advanced: the LINK timer of its chunk starts anew (R310). -/
def advanced (s : State) (pk : Packet) : State :=
  { s with fab := { s.fab with packets := modWhere pk.mate (fun p => { p with stuck := none }) s.fab.packets } }

/-- A packet goes out by a port: onto a link, or into the next switch, where its age starts anew unless that switch deflects
(R433, R434). -/
def sendOut (s : State) (pk : Packet) (e : Egress) : State :=
  let head := pk.place.any fun x => ((s.node x.1).buf x.2).pkts.head? == some pk.id
  let s := advanced (leave s pk) pk
  let s := match e with
    | .link l =>
      let s := s.modPacket pk.id fun p => { p with place := none, marked := false, plane := l.port }
      (s.modLink l fun k => { k with sendq := k.sendq ++ [.data pk.id], used := k.used + 1 }).oweOnce (.event (.flitSend l))
    | .node n i =>
      let age := if (s.node n).deflecting then min 4095 (pk.age + 1) else 0
      let s := s.modPacket pk.id fun p => { p with marked := false, age := age }
      (enqueue s n i pk.id).owe [.subject .packetHop pk.id]
  match pk.place with
  | none => s
  | some (n, i) =>
    let b := (s.node n).buf i
    let s := if b.pkts.isEmpty then s else s.oweOnce (.event (.bufferSuspectTimeout n i))
    if head && b.st == .thawing then endThaw s n i else s

/-! ### Deflection (R433) -/

/-- The packets in a node. -/
def packetsAt (s : State) (n : NodeId) : List Packet := s.fab.packets.filter fun p => (p.place.map (·.1)) == some n && !p.melt

/-- The ingress port of a packet in its node. -/
def Packet.ingress (p : Packet) : Nat := (p.place.map (·.2)).getD 0

/-- Every egress port of a switch: the packages below it, and the level 2 switches above it. -/
def allPorts (s : State) (n : NodeId) : List Egress :=
  match n with
  | .port _ _ => []
  | .col1 plane idx =>
    ((s.pkgs.map (·.rank)).filter fun r => Config.l1Of r == idx).filterMap (fun r =>
      let l : LinkId := ⟨r, plane, false⟩
      if (s.link l).up then some (.link l) else none) ++ (l2Up s plane).map fun j => .node (.col2 plane j) idx
  | .col2 plane idx => ((s.pkgs.map fun p => Config.l1Of p.rank).dedup).map fun i => .node (.col1 plane i) (fromL2 idx)

/-- Ports assigned in the order of age: each packet takes a free productive port. -/
def assignPorts (s : State) (n : NodeId) : List Packet → List Egress → List (Nat × Egress)
  | [], _ => []
  | p :: r, taken =>
    match (minimalPorts s n p).find? fun e => !taken.contains e with
    | some e => (p.id, e) :: assignPorts s n r (e :: taken)
    | none => assignPorts s n r taken

/-- The port of a packet in a deflecting switch: a productive one by age, ties to the lower ingress port, else any free
port. -/
def deflectPort (s : State) (n : NodeId) (pk : Packet) : Option Egress :=
  let order := (packetsAt s n).sortLe fun a b => b.age < a.age || (a.age == b.age && a.ingress ≤ b.ingress)
  let given := assignPorts s n order []
  match given.find? fun x => x.1 == pk.id with
  | some x => some x.2
  | none => (allPorts s n).find? fun e => !(given.any fun x => x.2 == e)

/-! ### Hops and deliveries (R428) -/

/-- A packet bound for another package than so far takes a number of that pair (R428). -/
def rebind (s : State) (pk : Packet) (dest : Nat) (body : PktBody) : State :=
  let e := (s.fab.e2e.get (pk.src, dest)).getD 0
  let s := { s with fab := { s.fab with e2e := s.fab.e2e.put (pk.src, dest) (e + 1) } }
  (s.modPacket pk.id fun p => { p with dest := dest, e2e := e, body := body }).owe [.subject .packetHop pk.id]

/-- The replica with the shortest egress queue at a switch of a plane, the lower one on ties (R329). -/
def shortest (s : State) (plane : Nat) (rs : List Nat) : Option Nat :=
  let len (r : Nat) : Nat := (s.link ⟨r, plane, false⟩).sendq.length
  rs.foldl (fun best r => match best with
    | none => some r
    | some b => if len r < len b then some r else some b) none

/-- A Col switch picks the member of a token in replica mode, or sends its result back when no replica has a row left (R329). -/
def pickMember (s : State) (pk : Packet) (plane : Nat) (o : Op) (i : Nat) (reps : List Nat) (row : List PByte) : State :=
  let fits (r : Nat) : Bool := (opGt s o).any fun e => rowsLeft s o e r != 0
  match shortest s plane (reps.filter fun r => sameDomain s pk.src o.ctx r && fits r) with
  | some r => rebind s pk r (.msg (some o.id) [] (.token o.id i true reps row))
  | none =>
    match reps.find? fits with
    | some r => tokenAt (dropPackets s fun x => x.id == pk.id) o.id i r reps row
    | none =>
      let (s, w) := noRow s stCapacity
      rebind (setToken s o.id i .answered) pk pk.src (.msg (some o.id) [] (.result o.id i w))

/-- What a Col switch does with a packet itself: a token to pick a member for, or an RSTO's line that is where it is reduced, or whose
switch has gone down meanwhile; none for every other packet. -/
def switchTakes (s : State) (n : NodeId) (pk : Packet) : Option State :=
  match pk.body, n with
  | .msg _ _ (.token op i false reps row), .col1 plane _ => (s.op? op).map fun o => pickMember s pk plane o i reps row
  | .msg _ _ (.line op _ _), .col1 plane _ =>
    if (linePlace s pk).any fun x => x.1 != plane then
      let s := (leave s pk).modPacket pk.id fun p => { p with melt := false, marked := false }
      some ((enqueue s (stage pk.src) 0 pk.id).owe [.subject .packetHop pk.id])
    else if (s.op? op).isNone then some (dropPackets s fun x => x.id == pk.id)
    else none
  | .msg _ _ (.line op i row), .col2 plane _ =>
    some ((setToken (dropPackets s fun x => x.id == pk.id) op i (.at_ plane [] row)).owe [.event (.rstoLineArrive op i)])
  | _, _ => none

/-- The operation that a packet works for. -/
def Packet.op? (pk : Packet) : Option Nat :=
  match pk.body with
  | .msg op _ _ => op
  | .req _ => none
  | .xfer _ => none

/-- A packet that finds no usable egress port starts the LINK timer of its chunk (R310). -/
def noPort (s : State) (pk : Packet) : State :=
  if pk.stuck.isSome then s
  else
    let s := s.modPacket pk.id fun p => { p with stuck := some s.cyc }
    match pk.op? with
    | none => s
    | some op => s.oweOnce (.subject .chunkLinkTimeout op)

/-- PACKET_HOP (R428, R433): the packet at the head of its buffer is taken by the switch, leaves by the port it picks, or waits. -/
def execPacketHop (s : State) : Outcome :=
  .next (match s.packet? s.subj with
    | none => s
    | some pk =>
      match pk.place with
      | none => s
      | some (n, i) =>
        let again (s : State) : State := s.owe [.subject .packetHop pk.id]
        let deflects := (s.node n).deflecting
        if pk.melt then s
        else if !deflects && ((s.node n).buf i).pkts.head? != some pk.id then again s
        else match switchTakes s n pk with
          | some s => s
          | none =>
            let ports := minimalPorts s n pk
            let s := if ports.isEmpty then noPort s pk else s
            match if deflects then deflectPort s n pk else pickPort s ports with
            | some e => sendOut s pk e
            | none => again s)

/-- CHUNK_LINK_TIMEOUT (R310): the chunks of an operation that have found no path for 1 ms fail with LINK, and so does an operation
whose notice, token or line has found none. -/
def execChunkLinkTimeout (s : State) : Outcome :=
  .next (match s.subjOp with
    | none => s
    | some o =>
      let mine (pk : Packet) : Bool := pk.op? == some o.id && pk.stuck.isSome
      let late := s.fab.packets.filter fun pk => mine pk && pk.timedOut s.cyc
      let s := dropPackets s fun pk => mine pk && pk.timedOut s.cyc
      let s := late.foldl (fun s pk => match pk.body with
        | .msg _ _ (.chunk op idx) => chunkTo s op idx (.failed stLink)
        | _ => if (s.op? o.id).any fun x => x.st == .queued || x.st == .running || x.st == .parked then ending s o stLink else s) s
      if s.fab.packets.any mine then s.owe [.subject .chunkLinkTimeout o.id] else s)

/-- What a message does where it ends (R428). -/
def cargoArrives (s : State) (pk : Packet) : Cargo → State
  | .moves ms => s.owe ms
  | .reply gid seq slot r => deliver s gid seq slot r
  | .chunk op idx => chunkHere s op idx
  | .notice op rank => s.modOp op fun o => { o with told := rank :: o.told }
  | .token op i _ reps row => tokenAt s op i pk.dest reps row
  | .result op i w => resultArrives s op i w
  | .line _ _ _ => s
  | .stripe rank slot pos => stripeAnswer s rank slot pos

/-- What a delivered packet does (R424, R428): an access or a transfer is performed, a message ends or goes on. -/
def packetArrives (s : State) (pk : Packet) : State :=
  match pk.body with
  | .req id => s.owe [.subject .peerAccess id]
  | .xfer id => s.owe [.subject .putLineApply id]
  | .msg op (r :: rest) c => sendPacket s pk.dest r (.msg op rest c)
  | .msg _ [] c => cargoArrives s pk c

/-- PACKET_DELIVER (R428): a second copy is discarded; a packet deflected to another package is routed again. -/
def execPacketDeliver (s : State) : Outcome :=
  .next (match s.packet? s.subj with
    | none => s
    | some pk =>
      match pk.place with
      | some (.port rank _, _) =>
        if rank != pk.dest then
          let s := (advanced (leave s pk) pk).modPacket pk.id fun p => { p with melt := false, marked := false }
          (enqueue s (stage rank) 0 pk.id).owe [.subject .packetHop pk.id]
        else
          let seen := (s.fab.delivered.get (pk.src, pk.dest)).getD []
          let s := dropPackets s fun p => p.id == pk.id
          if seen.contains pk.e2e then s
          else packetArrives { s with fab := { s.fab with delivered := s.fab.delivered.put (pk.src, pk.dest) (pk.e2e :: seen) } } pk
      | _ => s)

/-! ### Thaw (R429 to R431) -/

/-- BUFFER_SUSPECT_TIMEOUT (R431). -/
def execBufferSuspectTimeout (node : NodeId) (buf : Nat) (s : State) : Outcome :=
  let b := (s.node node).buf buf
  .next (if b.pkts.isEmpty || b.st != .normal then s
    else if b.since + 20 * Config.usec ≤ s.cyc then s.modNode node fun x => x.modBuf buf fun b => { b with st := .suspect }
    else s.owe [.event (.bufferSuspectTimeout node buf)])

/-- The lowest level 2 switch of plane 0 (R430). -/
def tokenHome : NodeId := .col2 0 0

/-- A buffer captures the token: its packets, up to 64, are marked (R431). -/
def capture (s : State) (n : NodeId) (i : Nat) : State :=
  let marked := (((s.node n).buf i).pkts).take 64
  let s := s.modNode n fun x => x.modBuf i fun b => { b with st := .thawing, moved := s.cyc }
  let s := { s with fab := { s.fab with packets := modWhere (fun p => marked.contains p.id) (fun p => { p with marked := true }) s.fab.packets } }
  s.owe [.event (.meltwaterMove n i), .event (.thawStallTimeout n i)]

/-- THAW_TOKEN_ARRIVE (R430, R431): a token that is not on its way to the node is of an older epoch, and is discarded. -/
def execThawTokenArrive (node : NodeId) (s : State) : Outcome :=
  .next (if s.fab.token != some node then s
    else
      let s := if node == tokenHome then { s with fab := { s.fab with seen := s.cyc } } else s
      let sus := ((s.node node).bufs.filter fun b => b.2.st == .suspect).map (·.1)
      if sus.isEmpty then passToken s node
      else
        let s := sus.foldl (fun s i => capture s node i) s
        match node with
        | .port rank _ => s.modPkg rank fun p => { p with thaws := min 65535 (p.thaws + 1) }
        | .col1 _ _ | .col2 _ _ => s)

/-- A step of the meltwater lane: out of a link, or into a switch's buffer (R429). -/
def meltNext (s : State) (n : NodeId) (pk : Packet) : Egress :=
  match n with
  | .port rank _ =>
    let planes := (upTo 36).filter fun p => (s.link ⟨rank, p, true⟩).up && planeReaches s rank p pk
    .link ⟨rank, if planes.contains pk.plane then pk.plane else planes.headD 0, true⟩
  | .col1 plane idx =>
    match linePlace s pk with
    | some x => .node (.col2 plane x.2) idx
    | none => if Config.l1Of pk.dest == idx then .link ⟨pk.dest, plane, false⟩ else .node (.col2 plane (Config.l2Of pk.dest)) idx
  | .col2 plane idx => .node (.col1 plane (Config.l1Of pk.dest)) (fromL2 idx)

/-- The meltwater slot downstream is free, and the way to it carries packets (R429, R439). -/
def meltFree (s : State) (e : Egress) : Bool :=
  match e with
  | .link l => (s.link l).up && (s.link l).usedMelt == 0
  | .node n i => ((s.node n).buf i).melt.isNone

/-- A packet moves onto the meltwater lane, or on along it. -/
def meltMove (s : State) (n : NodeId) (i : Nat) (pk : Packet) (e : Egress) : State :=
  let s := advanced (leave s pk) pk
  let s := s.modNode n fun x => x.modBuf i fun b => { b with moved := s.cyc }
  let s := s.modPacket pk.id fun p => { p with place := none, melt := true, marked := false, age := 0 }
  match e with
  | .link l =>
    let s := s.modPacket pk.id fun p => { p with plane := l.port }
    (s.modLink l fun k => { k with sendq := k.sendq ++ [.data pk.id], usedMelt := k.usedMelt + 1 }).oweOnce (.event (.flitSend l))
  | .node m j =>
    let s := s.modPacket pk.id fun p => { p with place := some (m, j) }
    (s.modNode m fun x => x.modBuf j fun b => { b with melt := some pk.id }).owe [.event (.meltwaterMove m j)]

/-- MELTWATER_MOVE (R429, R431): the packet in the buffer's own meltwater slot goes first, then, while the buffer is thawing, the oldest
marked one. A move that finds the slot downstream taken is a stall (R433). -/
def execMeltwaterMove (node : NodeId) (buf : Nat) (s : State) : Outcome :=
  let b := (s.node node).buf buf
  let thaws : Bool := b.st == .thawing
  let next := match b.melt with
    | some id => s.packet? id
    | none => if thaws then (b.pkts.filterMap s.packet?).find? fun p => p.marked else none
  .next (match next with
    | none => if thaws then endThaw s node buf else s
    | some pk =>
      let again (s : State) : State := s.owe [.event (.meltwaterMove node buf)]
      match if pk.melt then switchTakes s node pk else none with
      | some s => again s
      | none =>
        let e := meltNext s node pk
        if !meltFree s e then again (s.modNode node fun x => { x with stall := s.cyc })
        else
          let s := meltMove s node buf pk e
          let left := (((s.node node).buf buf).pkts.filterMap s.packet?).any fun p => p.marked
          if !thaws then s else if left then again s else endThaw s node buf)

/-- The node deflects from now on, if it is a switch (R433). -/
def startDeflect (s : State) (n : NodeId) : State :=
  match n with
  | .port _ _ => s
  | .col1 _ _ | .col2 _ _ => (s.modNode n fun x => { x with deflecting := true, stall := s.cyc }).owe [.event (.deflectionExit n)]

/-- THAW_STALL_TIMEOUT (R431): no marked packet has moved for 100 µs. -/
def execThawStallTimeout (node : NodeId) (buf : Nat) (s : State) : Outcome :=
  let b := (s.node node).buf buf
  .next (if b.st != .thawing then s
    else if s.cyc < b.moved + 100 * Config.usec then s.owe [.event (.thawStallTimeout node buf)]
    else
      startDeflect (endThaw s node buf) node)

/-- THAW_TOKEN_REISSUE (R430): after 10 ms without a token, one of the next epoch starts at the lowest level 2 switch of
plane 0. -/
def execThawTokenReissue (s : State) : Outcome :=
  .next (if s.fab.seen + 10000 * Config.usec ≤ s.cyc then
      { s with fab := { s.fab with token := some tokenHome, epoch := (s.fab.epoch + 1) % 2 ^ 16, seen := s.cyc } }.owe
        [.event (.thawTokenArrive tokenHome), .event .thawTokenReissue]
    else if s.fab.ring.isEmpty then s else s.owe [.event .thawTokenReissue])

/-- DEFLECTION_ENTER (R433): system software disables the switch's buffer SRAM. -/
def execDeflectionEnter (node : NodeId) (s : State) : Outcome :=
  .next (startDeflect (s.modNode node fun x => { x with sram := false }) node)

/-- DEFLECTION_EXIT (R433): 1 ms has passed in which the meltwater lane has not stalled. -/
def execDeflectionExit (node : NodeId) (s : State) : Outcome :=
  let x := s.node node
  .next (if !x.deflecting then s
    else if x.stall + 1000 * Config.usec ≤ s.cyc then s.modNode node fun x => { x with deflecting := false }
    else s.owe [.event (.deflectionExit node)])

/-- SWITCH_SRAM_ENABLE (R433). -/
def execSwitchSramEnable (node : NodeId) (s : State) : Outcome :=
  .next (s.modNode node fun x => { x with sram := true, deflecting := false })

end Sys2Proof.Machine
end

