-- ==== Sys2Proof/Machine/Links.lean ====
section
/-! DEFINITION. The encrypted links: sealing, acceptance and resending of flits (R436 to R438, R472), key slots (R439), the
register blocks of R440 and writes to the partner's blocks (R471). A sealFlit stands for the GCM tag: it holds the key, salt and
counter under which a flit was sealed, and opens under the same ones (log 4). -/

namespace Sys2Proof.Machine

/-! ### Key slots (R437, R439) -/

/-- The slot in a state, the lower on ties. -/
def KeyRegs.slotIn (r : KeyRegs) (st : Nat) : Option Nat := (upTo 2).find? fun i => (r.slots[i]?.getD KeySlot.empty).st == st

/-- Slot i. -/
def KeyRegs.slot! (r : KeyRegs) (i : Nat) : KeySlot := r.slots[i]?.getD KeySlot.empty

/-- Slot i changed. -/
def KeyRegs.modSlot (r : KeyRegs) (i : Nat) (f : KeySlot → KeySlot) : KeyRegs :=
  { r with slots := r.slots.setIfInBounds i (f (r.slot! i)) }

/-- The key of LKKEY0 to LKKEY3 (R440). -/
def KeyRegs.keyWord (r : KeyRegs) : Nat := ((upTo 4).map fun i => (r.key[i]?.getD 0).toNat * 2 ^ (64 * i)).sum

/-- LOAD: a slot that is LIVE or OLD keeps its key (R439, R440). -/
def KeyRegs.load (r : KeyRegs) : KeyRegs :=
  if (r.slot! r.slot).st ≤ 1 then r.modSlot r.slot fun _ => ⟨1, r.keyWord, r.salt, 0⟩ else r

/-- The counter of the LIVE slot. -/
def KeyRegs.liveCounter (r : KeyRegs) : Option Nat := (r.slotIn 2).map fun i => (r.slot! i).counter

/-- A link event of the host (R445). -/
def linkEvent (s : State) (rank : Nat) : State := { s with host := { s.host with events := s.host.events ++ [(rank, 1)] } }

/-- The register block of a direction's transmitter, or of its receiver. -/
def Link.regs (k : Link) (tx : Bool) : KeyRegs := if tx then k.tx else k.rx
/-- Changes a register block. -/
def Link.modRegs (k : Link) (tx : Bool) (f : KeyRegs → KeyRegs) : Link := if tx then { k with tx := f k.tx } else { k with rx := f k.rx }

/-- THRX of either block is set when the counter of its LIVE slot first reaches THR, or THR is written below it, and raises a link event
(R440). -/
def checkThr (s : State) (l : LinkId) (tx : Bool) (before : Link) : State :=
  let now := (s.link l).regs tx
  let was := before.regs tx
  let hit (r : KeyRegs) : Bool := r.liveCounter.any fun c => r.thr ≤ c
  if hit now && !(hit was && was.slotIn 2 == now.slotIn 2 && was.thr == now.thr) && !now.thrx then
    linkEvent (s.modLink l fun k => k.modRegs tx fun r => { r with thrx := true }) l.rank
  else s

/-! ### The link goes down (R438 to R440) -/

/-- The routing stage of a link's transmitter. -/
def txStage (l : LinkId) : NodeId × Nat :=
  if l.out then (stage l.rank, 0) else (.col1 l.port (Config.l1Of l.rank), switchStage)

/-- A packet of the link returns to the routing stage; one whose flit the receiver had accepted, but not yet acknowledged, has
gone on, and leaves a second copy under an identity of its own, which its destination discards by its number (R428, R438). -/
def returnPacket (s : State) (l : LinkId) (pk : Packet) (accepted : Bool) : State :=
  let (n, i) := txStage l
  let (new, s) := s.gensym
  let id := if accepted then new else pk.id
  let pk := { pk with id := id, place := none, marked := false, melt := false }
  let s := { s with fab := { s.fab with packets := (s.fab.packets.filter fun x => x.id != id) ++ [pk] } }
  (enqueue s n i id).owe [.subject .packetHop id]

/-- The packets of payloads. -/
def dataOf (ps : List Payload) : List Nat :=
  ps.filterMap fun p => match p with
    | .data id => some id
    | .idle | .marker _ | .control _ _ => none

/-- A flit that the receiver had accepted. -/
def Link.accepted (k : Link) (f : Flit) : Bool := 2 ^ 15 ≤ (f.fseq + 2 ^ 16 - k.expect) % 2 ^ 16

/-- A link goes down with a cause: its packets leave by other ports, and the buffer slots that its lost flits were returning are to be
returned again. The flits of a link out of a package have been heard until now (R459). -/
def linkDown (s : State) (l : LinkId) (cause : Nat) : State :=
  let k := s.link l
  let lost := k.unacked.filter fun f => !k.accepted f
  let credit (c : Bool) : Nat := ((lost.filter fun f => f.cvc == c).map (·.credit)).sum
  let packets (ps : List Payload) : List Packet := (dataOf ps).filterMap s.packet?
  let copies := packets ((k.unacked.filter k.accepted).map (·.payload))
  let mine := packets (lost.map (·.payload) ++ k.sendq)
  let melts := (mine.filter (·.melt)).length
  let s := s.modLink (otherWay l) fun k => { k with freed := k.freed + credit false, freedMelt := k.freedMelt + credit true }
  let s := s.modLink l fun k =>
    { k with unacked := [], sendq := [], wire := [], resend := 0, resending := none, marker := none, rxMarker := none, nakDue := false, nakIn := none
             used := k.used - (mine.length - melts), usedMelt := k.usedMelt - melts
             tx := { k.tx with down := true, dcause := cause }, rx := { k.rx with down := true, dcause := cause } }
  let s := copies.foldl (fun s pk => returnPacket s l pk true) s
  let s := mine.foldl (fun s pk => returnPacket s l pk false) s
  if l.out && k.up then (s.modPkg l.rank fun p => { p with heard := s.cyc }).oweOnce (.event (.lossDetectTimeout l.rank)) else s

/-! ### Sending (R436 to R439) -/

/-- The TYPE of a payload (R436). -/
def Payload.type : Payload → Nat
  | .idle => 0
  | .data _ => 1
  | .marker _ => 2
  | .control _ _ => 3

/-- The buffer class of a flit: that of its packet, else that of the slots it returns (R436; log 38). -/
def flitClass (s : State) (l : LinkId) (p : Payload) : Bool :=
  match p with
  | .data id => (s.packet? id).any (·.melt)
  | .idle | .marker _ | .control _ _ => (s.link (otherWay l)).freed == 0 && (s.link (otherWay l)).freedMelt != 0

/-- Once an ACKSEQ that covers the MARKER is sent, the receiver erases its OLD slot (R439). -/
def eraseRx (k : Link) : Link :=
  match k.rxMarker, k.rx.slotIn 3 with
  | some _, some old => { k with rxMarker := none, rx := k.rx.modSlot old fun _ => KeySlot.empty }
  | _, _ => k

/-- A key has protected 2^40 flits and no slot is LOADED: its slot is EMPTY, and the link goes down (R437, R439). -/
def keyUsedUp (s : State) (l : LinkId) (slot : Nat) : State :=
  let r := (s.link l).tx
  if 2 ^ 40 ≤ (r.slot! slot).counter && (r.slot! slot).st == 2 && (r.slotIn 1).isNone then
    linkEvent (linkDown (s.modLink l fun k => { k with tx := k.tx.modSlot slot fun _ => KeySlot.empty }) l 2) l.rank
  else s

/-- A new flit sealed under a slot and sent, behind the resends under way: it takes the slot's counter, which goes up (R437), and it carries the report of the
other direction's receiver: the last flit accepted, a NAK that is due, and the buffer slots that are free again (R436, R438). -/
def sealFlit (s : State) (l : LinkId) (slot : Nat) (p : Payload) : State :=
  let k := s.link l
  let b := s.link (otherWay l)
  let ks := k.tx.slot! slot
  let cvc := flitClass s l p
  let credit := min 255 (if cvc then b.freedMelt else b.freed)
  let f : Flit :=
    { type := p.type, kslot := slot, fseq := k.fseq, ackseq := (b.expect + 2 ^ 16 - 1) % 2 ^ 16, nak := b.nakDue, credit := credit, cvc := cvc
      key := ks.key, salt := ks.salt, counter := ks.counter, payload := p, corrupt := false }
  let s := s.modLink (otherWay l) fun b =>
    eraseRx (if cvc then { b with nakDue := false, freedMelt := b.freedMelt - credit } else { b with nakDue := false, freed := b.freed - credit })
  let s := s.modLink l fun k =>
    { k with fseq := (k.fseq + 1) % 2 ^ 16, unacked := k.unacked ++ [f]
             wire := if k.resend == 0 then k.wire ++ [f] else k.wire, resend := if k.resend == 0 then 0 else k.resend + 1
             tx := k.tx.modSlot slot fun x => { x with counter := x.counter + 1 } }
  (checkThr s l true k).owe [.event (.flitReceive l)]

/-- The MARKER of a switch-over from the LIVE slot, or of the first LIVE slot (R439). -/
def switchTo (s : State) (l : LinkId) (new : Nat) : State :=
  let k := s.link l
  match k.tx.slotIn 2 with
  | some old =>
    let s := sealFlit s l old (.marker new)
    s.modLink l fun x => { x with marker := some k.fseq
                                  tx := (x.tx.modSlot old fun y => { y with st := 3 }).modSlot new fun y => { y with st := 2 } }
  | none =>
    let s := s.modLink l fun x => { x with tx := x.tx.modSlot new fun y => { y with st := 2 } }
    sealFlit s l new (.marker new)

/-- The sender has flits or packets to send, or its partner's receiver has something to report. -/
def wantsSend (s : State) (l : LinkId) : Bool :=
  let k := s.link l
  let b := s.link (otherWay l)
  k.resend != 0 || !k.sendq.isEmpty || b.nakDue || b.freed != 0 || b.freedMelt != 0

/-- More to send makes a further step due. -/
def sendMore (s : State) (l : LinkId) : State := if wantsSend s l then s.oweOnce (.event (.flitSend l)) else s

/-- The next new flit of a link with a LIVE slot: the MARKER once the counter has reached LKTHR and a slot is LOADED, else the first
payload that waits, else an IDLE (R437, R439). A key that has protected 2^40 flits seals no more. -/
def sendNew (s : State) (l : LinkId) (live : Nat) : State :=
  let k := s.link l
  let c := (k.tx.slot! live).counter
  if 2 ^ 40 ≤ c then keyUsedUp s l live
  else
    let s := match k.tx.slotIn 1, k.sendq with
      | some new, [] => if k.tx.thr ≤ c then switchTo s l new else sealFlit s l live .idle
      | none, [] => sealFlit s l live .idle
      | some new, p :: r => if k.tx.thr ≤ c then switchTo s l new else sealFlit (s.modLink l fun k => { k with sendq := r }) l live p
      | none, p :: r => sealFlit (s.modLink l fun k => { k with sendq := r }) l live p
    sendMore (keyUsedUp s l live) l

/-- FLIT_SEND (R437 to R439): a resend first, byte for byte; then a new flit while fewer than 64 are unacknowledged; a sender that holds
64 waits for its partner's next flit. -/
def execFlitSend (link : LinkId) (s : State) : Outcome :=
  let k := s.link link
  .next (
    if k.training || k.tx.down then s
    else if k.resend != 0 then
      match k.unacked[k.unacked.length - k.resend]? with
      | none => s.modLink link fun k => { k with resend := 0, resending := none }
      | some f =>
        let s := s.modLink link fun k =>
          { k with wire := k.wire ++ [f], resend := k.resend - 1, resending := if k.resend == 1 then none else k.resending }
        sendMore (s.owe [.event (.flitReceive link)]) link
    else match k.tx.slotIn 2 with
      | none => s
      | some live =>
        if 64 ≤ k.unacked.length then sendMore (s.oweOnce (.event (.flitSend (otherWay link)))) link else sendNew s link live)

/-! ### Receiving (R438, R439, R472) -/

/-- The receiver opens the flit: its slot, key, salt and counter are those that it was sealed with (R437, R438). -/
def opens (k : Link) (f : Flit) : Bool :=
  let r := k.rx.slot! f.kslot
  !f.corrupt && r.key == f.key && r.salt == f.salt && r.counter == f.counter

/-- The slot may open flits: it is LIVE or OLD, or LOADED for the MARKER that makes it the first LIVE slot (R438, R439). -/
def slotAdmits (k : Link) (f : Flit) : Bool :=
  let st := (k.rx.slot! f.kslot).st
  st == 2 || st == 3 || (st == 1 && (k.rx.slotIn 2).isNone && f.payload == .marker f.kslot)

/-- A flit discarded: a NAK is due in the next flit of the other direction, unless one was within the hold-off (R438, R472). -/
def discard (s : State) (l : LinkId) : State :=
  if (s.link l).holdoff.isSome then s
  else
    ((s.modLink l fun k => { k with holdoff := some s.cyc, nakDue := true }).owe [.event (.nakHoldoffExpire l)]).oweOnce
      (.event (.flitSend (otherWay l)))

/-- The receiver's slots after a MARKER naming a slot (R439). -/
def markRx (r : KeyRegs) (new : Nat) : KeyRegs :=
  if (r.slot! new).st != 1 then r
  else
    let r := match r.slotIn 2 with
      | some old => r.modSlot old fun x => { x with st := 3 }
      | none => r
    r.modSlot new fun x => { x with st := 2 }

/-- SWITCH (R439, R440): the MARKER is sealed at once, or once training has ended and fewer than 64 flits are unacknowledged; that of a
link that is down is lost with it. A key that has protected 2^40 flits seals no MARKER (R437). -/
def linkSwitch (s : State) (l : LinkId) : State :=
  let k := s.link l
  match k.tx.slotIn 1 with
  | none => s
  | some i =>
    let new := if (k.tx.slot! k.tx.slot).st == 1 then k.tx.slot else i
    if (k.tx.slotIn 2).any fun live => 2 ^ 40 ≤ (k.tx.slot! live).counter then s
    else if k.tx.down && !k.training then (switchTo s l new).modLink l fun k => { k with unacked := [], wire := [], marker := none }
    else if k.training || 64 ≤ k.unacked.length then s.oweOnce (.event (.linkKeySwitch l))
    else sendMore (switchTo s l new) l

/-- RETRAIN (R440): the link goes down, both slots of the block are EMPTY, and it trains again. The two ends of a direction do so
together. -/
def linkRetrain (s : State) (l : LinkId) : State :=
  let empty (r : KeyRegs) : KeyRegs := { r with slots := Vector.replicate 2 KeySlot.empty }
  let s := linkDown s l 3
  (s.modLink l fun k =>
    { k with tx := empty k.tx, rx := empty k.rx, training := true, fseq := 0, expect := 0, fails := 0, holdoff := none }).owe
      [.event (.linkTrainDone l)]

/-- A register of a key block written from outside; RETRAIN, LOAD and SWITCH of LKCTL act in that order, at once (R440). -/
def keyReg (s : State) (l : LinkId) (tx : Bool) (off value : Nat) : State :=
  let put (f : KeyRegs → KeyRegs) (s : State) : State := s.modLink l fun k => k.modRegs tx f
  if off < 0x20 then put (fun r => { r with key := r.key.setIfInBounds (off / 8) (BitVec.ofNat 64 value) }) s
  else if off == 0x20 then put (fun r => { r with salt := value % 2 ^ 32 }) s
  else if off == 0x28 then
    let s := put (fun r => { r with slot := value % 2 }) s
    let s := if bitOf value 3 then linkRetrain s l else s
    let s := if bitOf value 1 then put KeyRegs.load s else s
    if bitOf value 2 && tx then linkSwitch s l else s
  else if off == 0x30 then checkThr (put (fun r => { r with thr := value % 2 ^ 40 }) s) l tx (s.link l)
  else if off == 0x38 then put (fun r => { r with thrx := r.thrx && !bitOf value 4 }) s
  else s

/-- A write that a CONTROL flit carries to the partner: to its transmit block at 0x200, which sends into this port, or its
receive block at 0x300, which this port sends to (R471). -/
def partnerWrite (s : State) (l : LinkId) (off value : Nat) : State :=
  if 0x200 ≤ off && off < 0x240 then keyReg s (otherWay l) true (off - 0x200) value
  else if 0x300 ≤ off && off < 0x340 then keyReg s l false (off - 0x300) value
  else s

/-- A packet enters the node at the receiving end, in the class of its flit (R428, R429, R436). -/
def packetEnters (s : State) (l : LinkId) (pk : Packet) (cvc : Bool) : State :=
  let n : NodeId := if l.out then .col1 l.port (Config.l1Of l.rank) else .port l.rank l.port
  let i := if l.out then fromPkg l.rank else 0
  if cvc then
    let s := s.modPacket pk.id fun p => { p with place := some (n, i) }
    let s := s.modNode n fun x => x.modBuf i fun b => { b with melt := some pk.id }
    s.owe [if l.out then .event (.meltwaterMove n i) else .subject .packetDeliver pk.id]
  else
    let age := if (s.node n).deflecting then min 4095 (pk.age + 1) else 0
    let s := if l.out then s.modPacket pk.id fun p => { p with age := age } else s
    (enqueue s n i pk.id).owe [.subject (if l.out then .packetHop else .packetDeliver) pk.id]

/-- What an accepted payload does; a packet that is gone leaves its slot free. -/
def acceptPayload (s : State) (l : LinkId) (f : Flit) : State :=
  match f.payload with
  | .idle => s
  | .data id =>
    match s.packet? id with
    | none => returnSlot s l f.cvc
    | some pk => packetEnters s l pk f.cvc
  | .marker new => s.modLink l fun k => { k with rx := markRx k.rx new, rxMarker := some f.fseq }
  | .control off v => partnerWrite s l off v

/-- A flit is at or before an ACKSEQ, in the numbering modulo 2^16. -/
def ackCovers (ack fseq : Nat) : Bool := (ack + 2 ^ 16 - fseq) % 2 ^ 16 < 2 ^ 15

/-- The report that an accepted flit carries reaches the sender of the other direction (R436, R438, R439). An ACKSEQ retires flits, and the
OLD slot once it covers the MARKER; a CREDIT returns buffer slots; a NAK is taken next. -/
def takeReport (s : State) (l : LinkId) (nak : Bool) (ack credit : Nat) (cvc : Bool) : State :=
  let k := s.link l
  let left := k.unacked.filter fun f => !ackCovers ack f.fseq
  let s := s.modLink l fun k =>
    let k := { k with unacked := left, resend := min k.resend left.length
                      used := if cvc then k.used else k.used - credit, usedMelt := if cvc then k.usedMelt - credit else k.usedMelt }
    match k.marker, k.tx.slotIn 3 with
    | some m, some old => if ackCovers ack m then { k with marker := none, tx := k.tx.modSlot old fun _ => KeySlot.empty } else k
    | _, _ => k
  let s := if nak then (s.modLink l fun k => { k with nakIn := some ack }).owe [.event (.nakReceive l)] else s
  sendMore s l

/-- FLIT_RECEIVE (R438, R439): the flit of the expected FSEQ that opens is accepted: its report is taken, and any flit but an IDLE is
acknowledged by the next one of the other direction. Every other flit is discarded. -/
def execFlitReceive (link : LinkId) (s : State) : Outcome :=
  let k := s.link link
  .next (match k.wire with
    | [] => s
    | f :: rest =>
      let s := s.modLink link fun k => { k with wire := rest }
      if f.fseq != k.expect || 4 ≤ f.type || !slotAdmits k f then discard s link
      else if !opens k f then
        let s := s.modPkg link.rank fun p => { p with authf := min 65535 (p.authf + 1) }
        let s := s.modLink link fun k => { k with fails := k.fails + 1 }
        if 3 ≤ k.fails + 1 then linkEvent (linkDown (s.modLink link fun k => { k with fails := 0 }) link 1) link.rank else discard s link
      else
        let s := s.modLink link fun k =>
          { k with expect := (k.expect + 1) % 2 ^ 16, fails := 0, holdoff := none, nakDue := false
                   rx := k.rx.modSlot f.kslot fun x => { x with counter := x.counter + 1 } }
        let s := if link.out then s.modPkg link.rank fun p => { p with heard := s.cyc } else s
        let s := acceptPayload (checkThr s link false k) link f
        let s := takeReport s (otherWay link) f.nak f.ackseq f.credit f.cvc
        if f.payload == .idle then s else s.oweOnce (.event (.flitSend (otherWay link))))

/-- NAK_RECEIVE (R438, R472): the sender resends every flit after the ACKSEQ of the NAK, unless it is resending from there already. -/
def execNakReceive (link : LinkId) (s : State) : Outcome :=
  let k := s.link link
  .next (match k.nakIn with
    | none => s
    | some ack =>
      let first := (ack + 1) % 2 ^ 16
      let n := (k.unacked.filter fun f => !ackCovers ack f.fseq).length
      sendMore (s.modLink link fun k =>
        if k.resending == some first || n == 0 then { k with nakIn := none }
        else { k with nakIn := none, resend := n, resending := some first }) link)

/-- NAK_HOLDOFF_EXPIRE (R472): 2 µs have passed with no flit accepted. -/
def execNakHoldoffExpire (link : LinkId) (s : State) : Outcome :=
  .next (match (s.link link).holdoff with
    | none => s
    | some t =>
      if t + 2 * Config.usec ≤ s.cyc then s.modLink link fun k => { k with holdoff := none }
      else s.owe [.event (.nakHoldoffExpire link)])

/-! ### Registers (R439, R440, R471) -/

/-- LINK_KEY_LOAD (R439, R440). -/
def execLinkKeyLoad (link : LinkId) (tx : Bool) (s : State) : Outcome :=
  .next (s.modLink link fun k => k.modRegs tx KeyRegs.load)

/-- LINK_KEY_SWITCH (R439). -/
def execLinkKeySwitch (link : LinkId) (s : State) : Outcome := .next (linkSwitch s link)

/-- LINK_RETRAIN (R440). -/
def execLinkRetrain (link : LinkId) (s : State) : Outcome := .next (linkRetrain s link)

/-- LINK_TRAIN_DONE (R440). -/
def execLinkTrainDone (link : LinkId) (s : State) : Outcome :=
  let up (r : KeyRegs) : KeyRegs := { r with down := false, dcause := 0 }
  .next (if (s.link link).training then
      s.modLink link fun k => { k with training := false, tx := up k.tx, rx := up k.rx }
    else s)

/-- PARTNER_REG_WRITE (R471): ignored while the link is down. -/
def execPartnerRegWrite (link : LinkId) (offset : Nat) (value : Nat) (s : State) : Outcome :=
  let l : LinkId := { link with out := true }
  .next (if (s.link l).up then
      (s.modLink l fun k => { k with sendq := k.sendq ++ [.control offset (value % 2 ^ 64)] }).oweOnce (.event (.flitSend l))
    else s)

end Sys2Proof.Machine
end

