-- ==== Sys2Proof/Machine/System.lean ====
section
/-! DEFINITION. The system words (R417 to R421): SRR and SRW with the system registers of R33 and R403, TRAP, RINJ, RETI, IDLE
and HALT. -/

namespace Sys2Proof.Machine

/-! ### The system registers (R33, R403) -/

/-- The width of the register at an index; none for an index that names no register (R33, R403, R418). -/
def sysWidth (i : Nat) : Option Nat :=
  if i == 0x005 then some 64
  else if i ≤ 0x006 || i == 0x043 || i == 0x045 then some 32
  else if (0x010 ≤ i && i ≤ 0x013) || (0x020 ≤ i && i ≤ 0x024) || (0x030 ≤ i && i ≤ 0x032) || (0x040 ≤ i && i ≤ 0x042) ||
      i == 0x044 || (0x050 ≤ i && i ≤ 0x054) || (0x060 ≤ i && i ≤ 0x068) || (0x06C ≤ i && i ≤ 0x06F) ||
      (0x100 ≤ i && i ≤ 0x1FF) then some 64
  else none

/-- Registers that user code may write (R33, R403). -/
def sysUser (i : Nat) : Bool := [0x010, 0x022, 0x023, 0x024, 0x044].contains i

/-- Registers that a handler alone may write (R403). -/
def sysHandler (i : Nat) : Bool :=
  i == 0x043 || i == 0x045 || (0x060 ≤ i && i ≤ 0x065) || (0x06C ≤ i && i ≤ 0x06F) || (0x100 ≤ i && i ≤ 0x1FF)

/-- WSTATE (R25). -/
def Thread.wstate (t : Thread) : DWord :=
  BitVec.ofNat 64 (t.wbase % 2 ^ 20 + t.rbase % 2 ^ 20 * 2 ^ 20 + t.frame % 128 * 2 ^ 40 + t.links.length % 16 * 2 ^ 47 +
    t.cdepth % 2 ^ 13 * 2 ^ 51)

/-- REPS (R27). -/
def Reps.num (r : Reps) : Nat :=
  r.remain % 64 + r.index % 64 * 2 ^ 6 + b2n r.stepb * 2 ^ 12 + b2n r.stepa * 2 ^ 13 + b2n r.stepd * 2 ^ 14 + b2n r.active * 2 ^ 15

/-- THROTS (R446). -/
def Core.throts (c : Core) : Nat := c.step % 8 + b2n c.temp * 2 ^ 8 + b2n c.droop * 2 ^ 9 + c.thcyc % 2 ^ 32 * 2 ^ 32

/-- SPMODE of a depth-0 grid (R209). -/
def Grid.spmode (g : Grid) : Nat :=
  b2n g.spTrap + g.spWord % 2 ^ 25 * 2 ^ 4 + g.spDie % 4 * 2 ^ 29 + g.spCount % 2 ^ 32 * 2 ^ 32

/-- TIERFREE (R334). -/
def Tier.tierfree (t : Tier) : Nat :=
  t.free % 2 ^ 30 + b2n (t.free < 65536) * 2 ^ 30 + b2n (t.waits.any fun w => w.slot) * 2 ^ 31 + t.pre.length % 2 ^ 30 * 2 ^ 32

/-- FIRNST (R356). -/
def Tier.firnst (t : Tier) : Nat :=
  b2n t.track + t.entry % 256 * 2 + b2n t.roll * 2 ^ 9 + b2n t.snapv * 2 ^ 10 + t.snapc % 2 ^ 32 * 2 ^ 32

/-- MORSTAT of a die (R351). -/
def Pkg.morstat (p : Pkg) (d : Nat) : Nat :=
  (p.tier.moraine[d]?.getD []).length % 2 ^ 17 + b2n (p.tier.waits.any fun w => !w.slot && w.die == d) * 2 ^ 17 + (p.die d).drained % 2 ^ 32 * 2 ^ 32

/-- FABST of a package (R435). -/
def fabst (s : State) (p : Pkg) : Nat :=
  let defl := ((upTo 36).filter fun i => (s.node (.col1 i (Config.l1Of p.rank))).deflecting).length
  let down := ((upTo 36).filter fun i => (s.link ⟨p.rank, i, true⟩).tx.down || (s.link ⟨p.rank, i, false⟩).tx.down).length
  p.thaws % 2 ^ 16 + defl * 2 ^ 16 + down * 2 ^ 24 + p.authf % 2 ^ 16 * 2 ^ 32

/-- What the register at an index of core, die or package scope holds (R33, R390). -/
def coreRead (s : State) (c : CoreId) (i : Nat) : Nat :=
  let pk (f : Pkg → Nat) : Nat := ((s.pkg? c.rank).map f).getD 0
  match i with
  | 0x020 => s.cyc
  | 0x030 => (s.core c).throts
  | 0x032 => (s.core c).ecore
  | 0x050 => pk (·.tier.pstep)
  | 0x051 => pk (·.tier.tierfree)
  | 0x052 => pk (·.tier.firnst)
  | 0x053 => pk (·.morstat c.die)
  | 0x054 => pk (fabst s)
  | _ => 0

/-- What the register at an index holds for a slot of a group. -/
def sysRead (s : State) (g : Group) (i slot : Nat) : DWord :=
  let tm (f : Team → Nat) : DWord := BitVec.ofNat 64 (((s.team? g.tid).map f).getD 0)
  let gr (f : Grid → Nat) : DWord := BitVec.ofNat 64 (((s.grid? g.grid).map f).getD 0)
  let root (f : Grid → Nat) : DWord := BitVec.ofNat 64 (((s.grid? (rootOf s g.grid)).map f).getD 0)
  let cx (f : Ctx → Nat) : DWord := BitVec.ofNat 64 (((s.ctx? g.rank g.ctx).map f).getD 0)
  match i with
  | 0x000 => BitVec.ofNat 64 slot
  | 0x001 => BitVec.ofNat 64 g.num
  | 0x002 => tm (·.x)
  | 0x003 => tm (·.y)
  | 0x004 => tm (·.z)
  | 0x005 => match s.grid? g.grid, s.team? g.tid with
    | some gr, some t => BitVec.ofNat 64 (gthread gr t g.num slot)
    | _, _ => 0
  | 0x006 => gr (·.depth)
  | 0x010 => BitVec.ofNat 64 g.nbv
  | 0x011 => root Grid.spmode
  | 0x012 => gr fun x => x.ovf % 2 ^ 32 + x.split % 2 ^ 32 * 2 ^ 32
  | 0x013 => gr fun x => x.seed.toNat
  | 0x021 => BitVec.ofNat 64 g.gtime
  | 0x022 => BitVec.ofNat 64 g.deadline
  | 0x023 => BitVec.ofNat 64 g.timer
  | 0x024 => BitVec.ofNat 64 g.arithen.toNat
  | 0x031 => root (·.egrid)
  | 0x040 => (g.thread slot).wstate
  | 0x041 => g.wspb
  | 0x042 => BitVec.ofNat 64 g.reps.num
  | 0x043 => zext64 g.rseq
  | 0x044 => g.rstpt
  | 0x045 => zext64 g.rstseq
  | 0x060 => g.trap.tcause
  | 0x061 => g.trap.tpc
  | 0x062 => g.trap.tmask
  | 0x063 => g.trap.tinfo
  | 0x064 => g.trap.taddr
  | 0x065 => BitVec.ofNat 64 g.trap.tpend.toNat
  | 0x066 => cx (·.trapvec)
  | 0x067 => cx (·.csave)
  | 0x068 => cx (·.tsave)
  | _ =>
    if 0x100 ≤ i then (g.trap.replay ((i - 0x100) / 32)).read ((i - 0x100) % 32)
    else if 0x06C ≤ i then g.trap.tks[i - 0x06C]?.getD 0
    else BitVec.ofNat 64 (coreRead s g.core i)

/-- The v registers that REG names for a register of a width. -/
def sysRegs (reg w : Nat) : List Nat := if w == 64 then [reg, reg + 1] else [reg]

/-- A v register field that cannot name a 64-bit operand (R12, R54). -/
def sysRegBad (reg w : Nat) (rk : Bool) : Bool := !rk && w == 64 && reg % 2 != 0

/-- The registers that a system word names have a write pending. -/
def sysBusy (x : Iss) (reg w : Nat) (rk : Bool) : Bool :=
  if rk then x.g.ksBusy [reg] else x.g.vsBusy x.f.mask (sysRegs reg w)

/-- SRR (R33, R418). -/
def execSrr (reg : BitVec 6) (idx : BitVec 12) (rk : Bool) (s : State) : Outcome :=
  issue s false fun x =>
    let i := idx.toNat
    let r := reg.toNat
    match sysWidth i with
    | none => illegal x causeEncoding
    | some w =>
      if sysRegBad r w rk then illegal x causeEncoding
      else if sysBusy x r w rk then block x.s x.is .scoreboard
      else if rk then
        advance (x.s.modGroup x.is.gid fun g => g.setK r (sysRead x.s x.g i (lowest x.f.mask))) x.is 1
      else
        advance ((dropLatches x.s x.g (sysRegs r w)).modGroup x.is.gid fun g =>
          g.modThreads (fun n => x.f.mask.getLsbD n) fun n t =>
            let v := sysRead x.s x.g i n
            let t := t.setV r (loOf v)
            if w == 64 then t.setV (r + 1) (hiOf v) else t) x.is 1

/-- SRW (R32, R33, R403, R418): the write takes effect when the fragment leaves the clause. -/
def execSrw (reg : BitVec 6) (idx : BitVec 12) (rk : Bool) (s : State) : Outcome :=
  issue s false fun x =>
    let i := idx.toNat
    let r := reg.toNat
    match sysWidth i with
    | none => illegal x causeEncoding
    | some w =>
      let low := lowest x.f.mask
      if sysRegBad r w rk then illegal x causeEncoding
      else if sysHandler i && !x.g.trap.tmode then illegal x causeMode
      else if !sysHandler i && !sysUser i then illegal x causeOperand
      else if (if rk then x.g.ksBusy [r] else x.g.vsBusy (slotBit low) (sysRegs r w)) then block x.s x.is .scoreboard
      else
        let bad := if rk then 0 else x.poisoned (slotBit low) (sysRegs r w)
        if bad != 0 then takeTrap x.s x.is 6 (poisonD bad)
        else
          let t := x.g.thread low
          let v := if rk then x.g.kr r else if w == 64 then t.v64 r else zext64 (t.v r)
          advance (x.s.modGroup x.is.gid fun g => { g with srwq := g.srwq ++ [⟨x.is.entry, i, v⟩] }) x.is 1

/-! ### Traps (R407, R419, R421) -/

/-- TRAP (R397, R419). -/
def execTrap (c : BitVec 12) (s : State) : Outcome :=
  issue s false fun x => trapAfter x.s x.is 1 13 ⟨0, tinfoOf 0 0 0 0 c.toNat, 0⟩

/-- A word that is allowed in trap mode alone (R417). -/
def inHandler (x : Iss) (k : State) : State := if x.g.trap.tmode then k else illegal x causeMode

/-- RINJ (R419). -/
def execRinj (m : BitVec 8) (s : State) : Outcome :=
  issue s false fun x => inHandler x <|
    advance (x.s.modGroup x.is.gid fun g => { g with trap := { g.trap with sel := m &&& g.trap.validSel } }) x.is 1

/-- A double trap (R402). -/
def doubleTrap (s : State) (gid : Nat) : State :=
  s.modGroup gid fun g => { g with trap := { g.trap with tmode := true, faulted := true } }

/-- What the issue of replay entries comes to. -/
inductive ReOut where
  | done (s : State)
  | wait
  /-- a trap, which is a double trap (R406, R407) -/
  | trap (s : State)

/-- Replay entries issued again, in queue order, each as a fresh word with its captured addresses and mask (R407). -/
def reissue (gid : Nat) : State → List Replay → ReOut
  | s, [] => .done s
  | s, r :: rest =>
    match s.group? gid, (decode r.word.toNat r.lit.toNat).bind accOf with
    | some g, some a =>
      if r.mask == 0 then reissue gid s rest
      else
        match memIssue s g a r.mask r.mask r.uni r.addrs with
        | (s, .done) => reissue gid s rest
        | (_, .wait) => .wait
        | (s, .trap _ _) => .trap s
        | (s, .bounds) => .trap s
    | none, _ => .done s
    | some _, none => .trap s

/-- The handler is one fragment of every slot that has not exited (R407). -/
def Group.soleFragment (g : Group) (f : Frag) : Bool :=
  g.resident.length == 1 && g.spilled.isEmpty && g.jmask == 0 && f.mask == ~~~g.exited

/-- After a RETI: a group of a team that is to be switched out stops (R409 step 1); in a resident team, the groups that
waited for the restore handler go on (R409). -/
def afterReti (s : State) (g : Group) : State :=
  match s.team? g.tid with
  | none => s
  | some t =>
    if t.st == .stopping then s.modGroup g.gid fun g => { g with stopped := true }
    else if t.st == .resident then { s with groups := modWhere (fun x => x.tid == g.tid) (fun x => { x with stopped := false }) s.groups }
    else s

/-- RETI (R407): it waits while a replayed word's path counter is full (R214). -/
def execReti (s : State) : Outcome :=
  issue s false fun x => inHandler x <|
    if !x.g.soleFragment x.f then takeTrap x.s x.is 3 ⟨0, 0, 0⟩
    else
      let again := ((upTo 8).filter fun e => x.g.trap.sel.getLsbD e && (x.g.trap.replay e).valid).map x.g.trap.replay
      let s := reinstate x.s x.is.gid
      match reissue x.is.gid (s.modGroup x.is.gid fun g => { g with trap := { g.trap with trq := [] } }) again with
      | .wait => x.s
      | .trap s => doubleTrap s x.is.gid
      | .done s => afterReti s x.g

/-- IDLE (R421). -/
def execIdle (s : State) : Outcome :=
  issue s false fun x => (block x.s x.is (.idle x.s.cyc)).owe [.event (.idleTimeout x.is.gid x.is.entry)]

/-- HALT (R421): in a class 14 handler it reinstates the interrupted state, and the team may be saved; in any other handler
every slot of the group exits. -/
def execHalt (s : State) : Outcome :=
  issue s false fun x => inHandler x <|
    if x.g.trap.cls == 14 && (x.s.team? x.g.tid).any fun t => t.st == .saving then
      ((reinstate x.s x.is.gid).modGroup x.is.gid fun g => { g with stopped := true }).owe [.event (.preemptRequest x.g.rank)]
    else exitSlots x.s x.is.gid 0xFFFF

end Sys2Proof.Machine
end

