-- ==== Sys2Proof/Machine/Upd.lean ====
section
/-! DEFINITION. The update engine: UPD and PAIRST (R357 to R363, R381 to R384). -/

namespace Sys2Proof.Machine

/-! ### Arithmetic, each step rounded once to FP32 (R358) -/

/-- The value of an FP32 code. -/
def f32v (x : Nat) : Val := valOf .f32 x
/-- rn of an exact value. -/
def rn (v : Val) : Nat := (toFmt .f32 .rne v).1
def rnAdd (x y : Nat) : Nat := rn (sumVal .rne (f32v x) (f32v y))
def rnSub (x y : Nat) : Nat := rn (sumVal .rne (f32v x) (f32v y).neg)
def rnMul (x y : Nat) : Nat := rn (mulVal (f32v x) (f32v y))

/-- The quotient of two values. -/
def divVal (a b : Val) : Val :=
  match a, b with
  | .nan q, _ => .nan q
  | _, .nan q => .nan q
  | .inf _, .inf _ => .nan true
  | .inf x, .num n _ _ => .inf (x != n)
  | .num n _ _, .inf y => .num (n != y) 0 0
  | .num n1 m1 e1, .num n2 m2 e2 =>
    if m2 == 0 then (if m1 == 0 then .nan true else .inf (n1 != n2))
    else
      let k := Nat.log2 m2 + 64
      let q := m1 * 2 ^ k / m2
      if m1 * 2 ^ k % m2 == 0 then .num (n1 != n2) q (e1 - e2 - k) else above (n1 != n2) q (e1 - e2 - k)

/-- rn of a quotient. -/
def rnDiv (x y : Nat) : Nat := rn (divVal (f32v x) (f32v y))

/-- rn of a square root; a negative operand gives the canonical NaN. -/
def rnSqrt (x : Nat) : Nat :=
  match f32v x with
  | .nan q => rn (.nan q)
  | .inf n => if n then rn (.nan true) else rn (.inf false)
  | .num n m e => if m == 0 then rn (.num n 0 0) else if n then rn (.nan true) else rn (sqrtVal m e)

/-- The sum of the squares of a block: the REDT tree over its 64 squares (R87, R359). -/
def blockSquares (xs : List Nat) : Nat :=
  let l (ws : List Word) : List Word := redLevel .addF ws
  ((l (l (l (l (l (l (xs.map fun x => BitVec.ofNat 32 (rnMul x x)))))))).headD 0).toNat

/-! ### The descriptor and the hyperparameter record (R357, R381, R382) -/

/-- The update descriptor. -/
structure UpdDesc where
  maddr : Nat
  vaddr : Nat
  plain : Nat
  ppitch : Nat
  pmeta : Nat
  trans : Nat
  tpitch : Nat
  lr : Nat
  b1 : Nat
  a1 : Nat
  b2 : Nat
  a2 : Nat
  eps : Nat
  wd : Nat
  mu : Nat
  c1 : Nat
  c2 : Nat
  gfmt : Nat
  wfmt : Nat
  /-- every reserved byte is zero -/
  zero : Bool

/-- The descriptor from its 128 bytes. -/
def updDesc (m : List Byte) : UpdDesc :=
  let num (a n : Nat) : Nat := ofBytesLE ((m.drop a).take n)
  { maddr := num 0 8, vaddr := num 8 8, plain := num 0x10 8, ppitch := num 0x18 8, pmeta := num 0x20 8, trans := num 0x28 8
    tpitch := num 0x30 8, lr := num 0x40 4, b1 := num 0x44 4, a1 := num 0x48 4, b2 := num 0x4C 4, a2 := num 0x50 4
    eps := num 0x54 4, wd := num 0x58 4, mu := num 0x5C 4, c1 := num 0x60 4, c2 := num 0x64 4, gfmt := num 0x68 1
    wfmt := num 0x69 1, zero := num 0x38 8 == 0 && num 0x6A 22 == 0 }

/-- Size of an element of the working copies. -/
def UpdDesc.es (d : UpdDesc) : Nat := if d.wfmt == 0 then 4 else 2

/-- The format of the working copies. -/
def UpdDesc.fmt (d : UpdDesc) : CvtFmt := match d.wfmt with
  | 0 => .f32
  | 1 => .bf16
  | _ => .f16

/-- The descriptor is valid for a form and a gradient format (R357, R382). -/
def UpdDesc.ok (d : UpdDesc) (opt : UpdOpt) (msk : UpdMask) (pair : Bool) (gtile : Nat) : Bool :=
  d.zero && d.gfmt ≤ 1 && d.wfmt ≤ 2 && (opt == .sgdm) == (d.vaddr == 0) &&
    (msk == .none || (d.plain != 0 && d.pmeta != 0)) && (!pair || (d.plain != 0 && d.trans != 0)) &&
    gtile == (if d.gfmt == 0 then 1 else 2) && d.maddr % 256 == 0 && d.vaddr % 256 == 0 && d.plain % d.es == 0 &&
    d.ppitch % d.es == 0 && d.trans % d.es == 0 && d.tpitch % d.es == 0

/-! ### One element and one block (R358 to R360) -/

/-- m', v' and d of one element (R358). -/
def updElem (h : UpdDesc) (opt : UpdOpt) (w m v g : Nat) : Nat × Nat × Nat :=
  match opt with
  | .sgdm =>
    let m' := rnAdd (rnMul h.mu m) g
    (m', v, rnAdd m' (rnMul h.wd w))
  | .adam | .lamb =>
    let m' := rnAdd (rnMul h.b1 m) (rnMul h.a1 g)
    let v' := rnAdd (rnMul h.b2 v) (rnMul h.a2 (rnMul g g))
    let q := rnDiv (rnMul h.c1 m') (rnAdd (rnSqrt (rnMul h.c2 v')) h.eps)
    (m', v', rnAdd q (rnMul h.wd w))

/-- w' of one element; `trust` scales the rate of LAMB (R358). -/
def updW (h : UpdDesc) (opt : UpdOpt) (trust w d : Nat) : Nat :=
  match opt with
  | .sgdm | .adam => rnSub w (rnMul h.lr d)
  | .lamb => rnSub w (rnMul (rnMul h.lr trust) d)

/-- trust of LAMB from its norms (R359). -/
def lambTrust (nw nd : Nat) : Nat := if (f32v nw).isZero || (f32v nd).isZero then 0x3F800000 else rnDiv nw nd

/-- The indices that a mask keeps of one group: the n largest magnitudes, ties to the lower index, in increasing order
(R360). A NaN counts by its magnitude bits (log 36). -/
def keptOf (n : Nat) (ws : List Nat) : List Nat :=
  ((((upTo ws.length).map fun i => (i, ws.getD i 0 % 2 ^ 31)).sortLe fun a b => b.2 ≤ a.2).take n).map (·.1) |>.sortLe (· ≤ ·)

/-- M and N of a mask. -/
def maskM (msk : UpdMask) : Nat := match msk with
  | .none => 1
  | .m24 => 4
  | .m48 => 8

/-- The indices within a block that are kept (R360). -/
def keptBlock (msk : UpdMask) (ws : List Nat) : List Nat :=
  let m := maskM msk
  (upTo (64 / m)).flatMap fun i =>
    (if msk == .none then [0] else keptOf (m / 2) ((ws.drop (m * i)).take m)).map fun k => m * i + k

/-- The 16 bytes of metadata of a block (R360). -/
def maskMeta (msk : UpdMask) (ws : List Nat) : List Byte :=
  let m := maskM msk
  let group (i : Nat) : Nat :=
    let ks := keptOf (m / 2) ((ws.drop (m * i)).take m)
    match msk with
    | .none => 0
    | .m24 => (ks.getD 0 0 + 4 * ks.getD 1 0) * 2 ^ (4 * i)
    | .m48 => ((upTo 4).map fun j => ks.getD j 0 * 2 ^ (3 * j)).sum * 2 ^ (16 * i)
  bytesLE 16 ((upTo (64 / m)).map group).sum

/-- Bytes of a value in the format of the working copies, by one rounding. -/
def workBytes (h : UpdDesc) (w : Nat) : List Byte := bytesLE h.es (convert .f32 h.fmt .rne w).1

/-- The writes of a block to the working copies: plain, dense or masked, its metadata, and transposed (R360, R382). -/
def workRuns (h : UpdDesc) (msk : UpdMask) (cols r b : Nat) (ws : List Nat) : List (Nat × List PByte) :=
  let kept := keptBlock msk ws
  let plain : List (Nat × List PByte) :=
    if h.plain == 0 then []
    else if msk == .none then [(wrap64 (h.plain + r * h.ppitch + 64 * b * h.es), sound (ws.flatMap (workBytes h)))]
    else
      [(wrap64 (h.plain + r * h.ppitch + 32 * b * h.es), sound (kept.flatMap fun i => workBytes h (ws.getD i 0))),
       (wrap64 (h.pmeta + 16 * (r * (cols / 64) + b)), sound (maskMeta msk ws))]
  let trans : List (Nat × List PByte) :=
    if h.trans == 0 then []
    else (upTo 64).map fun c =>
      (wrap64 (h.trans + (64 * b + c) * h.tpitch + r * h.es),
        sound (if kept.contains c then workBytes h (ws.getD c 0) else List.replicate h.es 0))
  plain ++ trans

/-! ### UPD (R381 to R383) -/

/-- The check of a UPD at issue (R381, R382). -/
def updCheck (s : State) (g : Group) (die : Nat) (td ta _ : QWord) (param : DWord) : State × Chk :=
  let w := tileOf td
  let a := tileOf ta
  (s, if param.toNat % 128 != 0 || !canonical param then .bad causeOperand
    else if w.ok && w.space == 2 && w.fmt == 1 && w.planes == 1 && w.cols % 64 == 0 && w.base % 256 == 0 && w.pitch % 256 == 0 &&
        a.ok && a.planes == 1 && (a.fmt == 1 || a.fmt == 2) && a.rows == w.rows && a.cols == w.cols && a.aligned &&
        a.within s g die false then
      .ok [a.span s g die false false, w.span s g die false true]
    else .bad causeTile)

/-- UPD. -/
def execUpd (opt : UpdOpt) (msk : UpdMask) (pair : Bool) (td ta kn : XReg) (f : Compl) (s : State) : Outcome :=
  engineWord s (.upd opt msk pair td ta kn f) (.upd opt msk pair) td ta kn f.bar f.foe updCheck noInit

/-- Blocks of a region. -/
def Tile.blocks (t : Tile) : Nat := t.rows * (t.cols / 64)

/-- What a block's reads give: its w, m, v and g. -/
structure UpdIn where
  w : List PByte
  m : List PByte
  v : List PByte
  g : List PByte

/-- The addresses of a block's lines w, m and v (R382). -/
def updLines (o : Op) (h : UpdDesc) (opt : UpdOpt) (i : Nat) : List Nat :=
  let w := tileOf o.td
  let nb := w.cols / 64
  let off := i / nb * w.pitch + 256 * (i % nb)
  [wrap64 (w.start + off), wrap64 (h.maddr + off)] ++ (if opt == .sgdm then [] else [wrap64 (h.vaddr + off)])

/-- The address and the bytes of a block's g. -/
def updGrad (o : Op) (i : Nat) : Nat × Nat :=
  let a := tileOf o.ta
  let nb := a.cols / 64
  (a.start + i / nb * a.pitch + i % nb * 64 * fmtBytes a.fmt, 64 * fmtBytes a.fmt)

/-- A block read: w, m, v and g. -/
def updRead (s : State) (o : Op) (h : UpdDesc) (opt : UpdOpt) (i : Nat) : State × GOut UpdIn :=
  match engReads s o 2 ((updLines o h opt i).map fun a => (a, 256)) with
  | (s, .fault va f) => (s, .fault va f)
  | (s, .wait) => (s, .wait)
  | (s, .ok bs) =>
    match engRead s o (tileOf o.ta).space (updGrad o i).1 (updGrad o i).2 with
    | (s, .fault va f) => (s, .fault va f)
    | (s, .wait) => (s, .wait)
    | (s, .ok g) => (s, .ok ⟨bs.take 256, (bs.drop 256).take 256, bs.drop 512, g⟩)

/-- FP32 codes of 64 elements. -/
def codesOf (bs : List PByte) : List Nat := (wordsOf (bs.map (·.1))).map BitVec.toNat

/-- The gradients widened to FP32. -/
def gradCodes (h : UpdDesc) (bs : List PByte) : List Nat :=
  if h.gfmt == 0 then codesOf bs
  else (upTo 64).map fun i => ofBytesLE (((bs.drop (2 * i)).take 2).map (·.1)) * 2 ^ 16

/-- The poisoned inputs of a block: bit 0 w, 1 m, 2 v, 3 g (R362). -/
def UpdIn.which (x : UpdIn) : Nat :=
  b2n (x.w.any (·.2)) + 2 * b2n (x.m.any (·.2)) + 4 * b2n (x.v.any (·.2)) + 8 * b2n (x.g.any (·.2))

/-- What a further reconstruction of some lines comes to (R362). -/
inductive RebOut where
  | rebuilt (s : State)
  /-- a line stays poisoned -/
  | bad (s : State)
  /-- parity of a stripe is under way (R339) -/
  | wait

/-- One further reconstruction of a poisoned line of a range, of the context's address `va` (R362). -/
def rebuildPiece (s : State) (o : Op) (va n : Nat) : RebOut :=
  match xlate s o.rank o.die o.ctx va .read with
  | (s, .error _) => .bad s
  | (s, .ok h) =>
    let (s, bs) := lineRead s h o.ctx va n
    if !bs.any (·.2) then .rebuilt s
    else if h.tgt != 2 then .bad s
    else
      let line := lineBase h.pa
      match s.pkg? h.home with
      | none => .bad s
      | some p =>
        let slot := (p.tier.storeUnits.get (line / 4096)).getD 0
        let good := readableOthers s p slot (line % 4096)
        if parityBusy s slot then .wait
        else if (rebuiltLine s p line good).isNone then .bad s
        else .rebuilt ((repairLines s h.home [line] fun _ => good).modPkg h.home fun p =>
          { p with cache := p.cache.filter fun c => !(c.ctx == o.ctx && c.va == lineBase va) })

/-- The poisoned lines of some pieces rebuilt, where they can be. -/
def rebuildPieces (o : Op) : List (Nat × Nat) → State → RebOut
  | [], s => .rebuilt s
  | (va, n) :: r, s =>
    match rebuildPiece s o (wrap64 va) n with
    | .rebuilt s => rebuildPieces o r s
    | .bad s => match rebuildPieces o r s with
      | .rebuilt s => .bad s
      | x => x
    | .wait => .wait

/-- Every poisoned line of a block is rebuilt, where it can be. -/
def rebuildBlock (s : State) (o : Op) (h : UpdDesc) (opt : UpdOpt) (i : Nat) : RebOut :=
  let g := updGrad o i
  let ranges := (updLines o h opt i).map (fun a => (a, 256)) ++ (if (tileOf o.ta).space == 2 then [g] else [])
  rebuildPieces o (ranges.flatMap fun r => linePieces r.1 r.2) s

/-- A block entered in the die's update-error log, or counted when it is full (R362). -/
def logBlock (s : State) (o : Op) (va which : Nat) : State :=
  s.modPkg o.rank fun p => p.modDie o.die fun d =>
    if d.updLog.length < 64 then { d with updLog := d.updLog ++ [(bitsOf va 0 57, which, o.ctx)] } else d

/-- The next block, or the end of the pass or of the operation. -/
def nextBlock (s : State) (o : Op) (total : Nat) (logged : Bool) : State :=
  let o' := { o with pidx := o.pidx + 1, errs := o.errs + b2n logged, st := .running }
  let s := s.modOp o.id fun _ => o'
  if total ≤ o'.pidx then ending s o' (if o'.errs == 0 then stOk else stPartial) else s.owe o.go

/-- One block of the first pass of LAMB: the sums grow, and become the norms after the last block (R359). -/
def lambBlock (s : State) (o : Op) (h : UpdDesc) (x : UpdIn) (total : Nat) : State :=
  let w := codesOf x.w
  let m := codesOf x.m
  let v := codesOf x.v
  let g := gradCodes h x.g
  let d := (upTo 64).map fun i => (updElem h .lamb (w.getD i 0) (m.getD i 0) (v.getD i 0) (g.getD i 0)).2.2
  let add (acc x : Nat) : Nat := if o.pidx == 0 then x else rnAdd acc x
  let nw := add o.nw (blockSquares w)
  let nd := add o.nd (blockSquares d)
  let last := total ≤ o.pidx + 1
  (s.modOp o.id fun o =>
    if last then { o with nw := rnSqrt nw, nd := rnSqrt nd, pass := 1, pidx := 0, st := .running }
    else { o with nw := nw, nd := nd, pidx := o.pidx + 1, st := .running }).owe o.go

/-- One block computed and written: w, m and v, then the working copies; all or none of it (R361, R363, R383). -/
def writeBlock (s : State) (o : Op) (h : UpdDesc) (opt : UpdOpt) (msk : UpdMask) (x : UpdIn) (total : Nat) : State :=
  let w := codesOf x.w
  let m := codesOf x.m
  let v := codesOf x.v
  let g := gradCodes h x.g
  let trust := lambTrust o.nw o.nd
  let es := (upTo 64).map fun i => updElem h opt (w.getD i 0) (m.getD i 0) (v.getD i 0) (g.getD i 0)
  let w' := (upTo 64).map fun i => updW h opt trust (w.getD i 0) (es.getD i (0, 0, 0)).2.2
  let line (xs : List Nat) : List PByte := sound (xs.flatMap fun x => bytesLE 4 x)
  let cols := (tileOf o.td).cols
  let lines := (updLines o h opt o.pidx).zip [line w', line (es.map (·.1)), line (es.map (·.2.1))]
  match globalRuns s o.rank o.die o.ctx (lines ++ workRuns h msk cols (o.pidx / (cols / 64)) (o.pidx % (cols / 64)) w') with
  | .done s => nextBlock s o total false
  | .fault s va f => park s o va f 1
  | .capacity s => ending s o stCapacity
  | .wait s => s.owe o.go

/-- One block of a UPD whose descriptor has been read (R383). -/
def updBlock (s : State) (o : Op) (h : UpdDesc) (opt : UpdOpt) (msk : UpdMask) : State :=
  let total := (tileOf o.td).blocks
  match updRead s o h opt o.pidx with
  | (s, .fault va f) => park s o va f 0
  | (_, .wait) => s.owe o.go
  | (s, .ok x) =>
    if opt == .lamb && o.pass == 0 then lambBlock s o h x total
    else if x.which == 0 then writeBlock s o h opt msk x total
    else
      match rebuildBlock s o h opt o.pidx with
      | .wait => s.owe o.go
      | .rebuilt s =>
        match updRead s o h opt o.pidx with
        | (s, .ok y) =>
          if y.which == 0 then writeBlock s o h opt msk y total
          else nextBlock (logBlock s o ((updLines o h opt o.pidx).headD 0) y.which) o total true
        | (s, _) => s.owe o.go
      | .bad s => nextBlock (logBlock s o ((updLines o h opt o.pidx).headD 0) x.which) o total true

/-- The next step of a UPD: its descriptor is its first access (R381). -/
def updStep (s : State) (o : Op) (opt : UpdOpt) (msk : UpdMask) (pair : Bool) : State :=
  match o.src with
  | some bs => updBlock s o (updDesc (bs.map (·.1))) opt msk
  | none =>
    match engRead s o 2 o.param.toNat 128 with
    | (s, .fault va f) => park s o va f 0
    | (_, .wait) => s.owe o.go
    | (s, .ok bs) =>
      let h := updDesc (bs.map (·.1))
      if !h.ok opt msk pair (tileOf o.ta).fmt then ending s o stError
      else (s.modOp o.id fun o => { o with src := some bs }).owe o.go

/-! ### PAIRST (R384) -/

/-- The check of a PAIRST at issue (R384). -/
def pairstCheck (s : State) (g : Group) (die : Nat) (td ta tn : QWord) (_ : DWord) : State × Chk :=
  let d := tileOf td
  let a := tileOf ta
  let n := tileOf tn
  (s, if d.rowsOk s g die && n.rowsOk s g die && a.rowsOk s g die && d.space == 2 && n.space == 2 && n.rows == d.cols &&
      n.cols == d.rows && d.cols % 64 == 0 && a.rows == d.rows && a.cols == d.cols && d.sameSize a && d.sameSize n then
    .ok [a.span s g die false false, d.span s g die false true, n.span s g die false true]
  else .bad causeTile)

/-- PAIRST. -/
def execPairst (td ta n : XReg) (f : Compl) (s : State) : Outcome :=
  engineWord s (.pairst td ta n f) .pairst td ta n f.bar f.foe pairstCheck noInit

/-- The bytes of 64 elements of a row: a block is a whole number of bytes in every format (R74). -/
def blockBytes (t : Tile) : Nat := if t.fmt == 6 then 48 else 64 * fmtBytes t.fmt

/-- One 6-bit element put over the packed group that holds it (R74). -/
def putL6 (grp : List PByte) (k x : Nat) (bad : Bool) : List PByte :=
  let n := ofBytesLE (grp.map (·.1))
  let n := n - bitsOf n (6 * k) 6 * 2 ^ (6 * k) + x * 2 ^ (6 * k)
  let lo := 6 * k / 32
  let hi := (6 * k + 5) / 32
  (upTo 12).map fun i => (BitVec.ofNat 8 (n / 2 ^ (8 * i)), (grp.getD i (0, false)).2 || (bad && lo ≤ i / 4 && i / 4 ≤ hi))

/-- The writes of a block to the transposed copy; an element of 6 bits is put into its packed group as memory holds it. -/
def pairTrans (s : State) (o : Op) (r b : Nat) (bs : List PByte) : State × GOut (List (Nat × List PByte)) :=
  let t := tileOf o.tn
  if t.fmt == 6 then
    match engReads s o 2 ((upTo 64).map fun c => (t.start + (64 * b + c) * t.pitch + r / 16 * 12, 12)) with
    | (s, .fault va f) => (s, .fault va f)
    | (s, .wait) => (s, .wait)
    | (s, .ok old) =>
      (s, .ok ((upTo 64).map fun c =>
        let x := elemOf .l6 (bs.map (·.1)) c
        let bad := ((bs.drop (6 * c / 8)).take 2).any (·.2)
        (t.start + (64 * b + c) * t.pitch + r / 16 * 12, putL6 ((old.drop (12 * c)).take 12) (r % 16) x bad)))
  else
    let es := fmtBytes t.fmt
    (s, .ok ((upTo 64).map fun c => (t.start + (64 * b + c) * t.pitch + r * es, (bs.drop (c * es)).take es)))

/-- The next block of a PAIRST: both copies at one instant (R361, R384). -/
def pairStep (s : State) (o : Op) : State :=
  let d := tileOf o.td
  let a := tileOf o.ta
  let nb := d.cols / 64
  let r := o.pidx / nb
  let b := o.pidx % nb
  let n := blockBytes a
  match engRead s o a.space (a.start + r * a.pitch + b * n) n with
  | (s, .fault va f) => park s o va f 0
  | (_, .wait) => s.owe o.go
  | (s, .ok bs) =>
    match pairTrans s o r b bs with
    | (s, .fault va f) => park s o va f 0
    | (_, .wait) => s.owe o.go
    | (s, .ok ts) =>
      match globalRuns s o.rank o.die o.ctx ((d.start + r * d.pitch + b * n, bs) :: ts) with
      | .done s => nextBlock s o d.blocks false
      | .fault s va f => park s o va f 1
      | .capacity s => ending s o stCapacity
      | .wait s => s.owe o.go

/-! ### The steps -/

/-- The global ranges of an operation's next access: the descriptor of a UPD first, then the lines of its block; a block of a PAIRST
(R381 to R384). -/
def blockRanges (o : Op) : List (Nat × Nat) :=
  match o.form with
  | .upd opt _ _ => match o.src with
    | none => [(o.param.toNat, 128)]
    | some bs => (updLines o (updDesc (bs.map (·.1))) opt o.pidx).map fun a => (a, 256)
  | .pairst =>
    let d := tileOf o.td
    let nb := d.cols / 64
    let n := blockBytes (tileOf o.ta)
    [(d.start + o.pidx / nb * d.pitch + o.pidx % nb * n, n)]
  | .cpy _ | .coll _ | .rotOpen | .rotRun | .rotClose | .xchg | .rsto | .place _ | .step | .snap => []

/-- The next step of an operation of the update engine. -/
def blockStep (s : State) (o : Op) : State :=
  match o.form with
  | .upd opt msk pair => updStep s o opt msk pair
  | .pairst => pairStep s o
  | .cpy _ | .coll _ | .rotOpen | .rotRun | .rotClose | .xchg | .rsto | .place _ | .step | .snap => s

/-- A block whose lines have peer homes crosses the fabric first (R310, R428). -/
def reachBlock (s : State) (o : Op) : State :=
  match farHomes s o 2 .read (blockRanges o) with
  | [] => blockStep s o
  | far => travel (s.modOp o.id fun o => { o with chunks := [⟨o.pidx, .moving, []⟩] }) (some o.id) (o.rank :: far ++ [o.rank])
      (.chunk o.id o.pidx) fun s => chunkHere s o.id o.pidx

/-- UPD_BLOCK_WRITE (R383, R384): an operation that its predecessors hold looks again later. -/
def execUpdBlockWrite (s : State) : Outcome :=
  .next (match s.subjOp with
    | none => s
    | some o =>
      if !(o.st == .queued || o.st == .running) then s
      else if opHeld s o then s.owe o.go
      else
        match o.chunks.head? with
        | none => reachBlock s o
        | some c =>
          if c.st == .here then blockStep (s.modOp o.id fun o => { o with chunks := [] }) { o with chunks := [] } else s)

/-- UPD_COMPLETE (R383). -/
def execUpdComplete (s : State) : Outcome :=
  .next (match s.subjOp with
    | none => s
    | some o =>
      match o.form with
      | .upd _ _ _ =>
        if o.st == .ending then
          complete s o (BitVec.ofNat 64 (o.status + o.progress % 2 ^ 32 * 2 ^ 8 + min o.errs (2 ^ 24 - 1) * 2 ^ 40))
        else s
      | _ => s)

/-- PAIRST_COMPLETE (R384). -/
def execPairstComplete (s : State) : Outcome :=
  .next (match s.subjOp with
    | none => s
    | some o => if o.form == .pairst && o.st == .ending then complete s o (BitVec.ofNat 64 (o.status + o.pidx * 2 ^ 8)) else s)

end Sys2Proof.Machine
end

