-- ==== Sys2Proof/Machine/Serial.lean ====
section
/-! DEFINITION. Engines at a switch: the records of asynchronous operations, ENGS and ENGR (R412 to R414, R420). -/

namespace Sys2Proof.Machine

/-! ### Records (R412) -/

/-- A number of n bytes in a record. -/
def recNum (m : List Byte) (a n : Nat) : Nat := ofBytesLE ((m.drop a).take n)

/-- The terminator record (R412, R420). -/
def terminator : List Byte := bytesLE 128 15

/-- OPTAG and die of a record. -/
def recTag (m : List Byte) : Nat := bitsOf (recNum m 0x50 8) 8 56
def recDie (m : List Byte) : Nat := bitsOf (recNum m 0 8) 23 2
def recKind (m : List Byte) : Nat := bitsOf (recNum m 0 8) 0 4
def recState (m : List Byte) : Nat := bitsOf (recNum m 0 8) 4 2

/-! ### ENGS (R413, R420) -/

/-- Stopped at a chunk or block boundary when it is serialised: the second row of R413. -/
def OpForm.stops : OpForm → Bool
  | .cpy _ | .coll _ | .rotRun | .upd _ _ _ => true
  | .rotOpen | .rotClose | .xchg | .rsto | .pairst | .place _ | .step | .snap => false

/-- The operation has started (R413). -/
def Op.started (o : Op) : Bool :=
  o.st != .queued || o.pidx != 0 || o.pass != 0 || o.src.isSome || !o.chunks.isEmpty || !o.tokens.isEmpty

/-- A write of the operation goes to its team's shared memory. -/
def Op.writesShared (o : Op) : Bool := o.spans.any fun sp => sp.write && sp.space == (0, o.tid)

/-- ENGS waits for the operation: it is in the middle of a chunk, its record is due, or it writes the team's shared memory
(R413, R420). -/
def Op.engBusy (o : Op) : Bool :=
  o.st == .ending || (match o.form with
    | .cpy _ | .coll _ => o.chunks.head?.any fun c => c.st == .moving || c.st == .here
    | .rotRun => o.st == .running
    | .upd _ _ _ => false
    | .rotOpen | .rotClose | .xchg | .rsto | .pairst | .place _ | .step | .snap => o.started && o.writesShared)

/-- The team's operations in flight, in issue order. -/
def teamOps (s : State) (tid : Nat) : List Op := s.ops.filter fun o => o.tid == tid && o.st != .withdrawn

/-- The STATE that an operation is serialised in (R413). -/
def Op.recordSt (o : Op) : Nat := if !o.started then 0 else if o.form.stops then 1 else 2

/-- The fault record of a parked chunk that is abandoned takes WDRN = 1; one that has no record leaves the queue (R413). -/
def withdrawFault (s : State) (o : Op) : State :=
  let hit (r : FaultRec) : Bool := r.engine == o.kind && r.optag == o.tag32 && !r.wdrn
  s.modPkg o.rank fun p => p.modDie o.die fun d =>
    { d with faults := d.faults.map fun r => (r.1, if hit r.2 then { r.2 with wdrn := true } else r.2)
             unrecorded := d.unrecorded.filter fun r => !hit r }

/-- The packet carries a chunk of the operation. -/
def Packet.chunkOf (id : Nat) (pk : Packet) : Bool :=
  match pk.body with
  | .msg _ _ (.chunk op _) => op == id
  | _ => false

/-- An operation serialised: withdrawn, its chunks in flight abandoned, or left running (R413). A run notes the blocks that it had
received (R469). -/
def serialise (s : State) (o : Op) : State :=
  if o.recordSt == 2 then s.modOp o.id fun o => { o with detached := true }
  else (dropPackets (withdrawFault s o) (Packet.chunkOf o.id)).modOp o.id fun o =>
    { o with st := .withdrawn, chunks := [], errs := if o.form == .rotRun then o.pidx else o.errs }

/-- The address of ENGS and ENGR: a multiple of 128, and canonical (R420). -/
def engAddr (a : DWord) : Bool := a.toNat % 128 == 0 && canonical a

/-- ENGS, once every operation of its team has stopped or may be left running: their records and the terminator are written,
and k takes their number. None while it must wait. -/
def engsTry (s : State) (is : Issuer) (g : Group) (ka : KReg) : Option State :=
  let ops := teamOps s g.tid
  if ops.any Op.engBusy then none
  else
    let kept := ((s.team? g.tid).map (·.doneRecs)).getD []
    let recs := ((ops.map fun o => opRecord s o o.recordSt none) ++ kept).sortLe fun a b => recTag a ≤ recTag b
    match gWrite s g.rank g.core.die g.ctx (g.kr ka.toNat).toNat (sound (recs.flatten ++ terminator)) with
    | (s, .fault a f) => some (takeTrap s is 5 (faultD (a, f) 0))
    | (_, .wait) => none
    | (s, .ok ()) =>
      let s := ops.foldl serialise s
      let s := s.modTeam g.tid fun t => { t with detachedRecs := recs.filter fun r => recState r == 2 }
      some (advance (s.modGroup is.gid fun g => g.setK ka.toNat (BitVec.ofNat 64 recs.length)) is 1)

/-- ENGS (R420). -/
def execEngs (ka : KReg) (s : State) : Outcome :=
  issue s false fun x => inHandler x <|
    if x.g.ksBusy [ka.toNat] then block x.s x.is .scoreboard
    else if !engAddr (x.g.kr ka.toNat) then illegal x causeOperand
    else match engsTry x.s x.is x.g ka with
      | some s => s
      | none => block x.s x.is (.engs ka)

/-! ### ENGR (R414, R420) -/

/-- What an asynchronous word asks for: its form, its k register, its barrier and FOE, and its check at issue. -/
structure OpWord where
  form : OpForm
  kn : XReg
  bar : Option BReg
  foe : Bool
  check : State → Group → Nat → QWord → QWord → QWord → DWord → State × Chk

/-- The operation of an asynchronous word (R365). -/
def opWord (i : Instr) : Option OpWord :=
  match i with
  | .cpy f _ _ n c => some ⟨.cpy f, n, c.bar, c.foe, cpyCheck f⟩
  | .coll f _ _ n c => some ⟨.coll f, n, c.bar, c.foe, collCheck f⟩
  | .rotOpen _ n b => some ⟨.rotOpen, n, some b, false, rotOpenCheck b⟩
  | .rotRun _ n foe => some ⟨.rotRun, n, none, foe, rotRunCheck⟩
  | .rotClose n => some ⟨.rotClose, n, none, false, rotCloseCheck⟩
  | .xchg _ _ n c => some ⟨.xchg, n, c.bar, c.foe, xchgCheck⟩
  | .rsto _ n c => some ⟨.rsto, n, c.bar, c.foe, rstoCheck⟩
  | .upd o m p _ _ n c => some ⟨.upd o m p, n, c.bar, c.foe, updCheck⟩
  | .pairst _ _ n c => some ⟨.pairst, n, c.bar, c.foe, pairstCheck⟩
  | .place p _ n c => some ⟨.place p, n, c.bar, c.foe, placeCheck⟩
  | .step n b => some ⟨.step, n, b, false, stepCheck⟩
  | .snap n b => some ⟨.snap, n, b, false, snapCheck⟩
  | _ => none

/-- The greatest PIDX of an operation: its chunks, blocks or steps (R412, R420). -/
def opCount (s : State) (o : Op) : Nat :=
  match o.form with
  | .cpy f => (cpyLen f o + 4095) / 4096
  | .coll _ => ((tileOf o.td).bytes + 4095) / 4096
  | .rotRun => (opMembers s o).length - 1
  | .upd _ _ _ => (tileOf o.td).blocks
  | .rotOpen | .rotClose | .xchg | .rsto | .pairst | .place _ | .step | .snap => 0

/-- What an operation keeps at issue beside its captured registers, without taking a number again (R413). -/
def rebuildInit (s : State) (o : Op) : State × Op :=
  match o.form with
  | .xchg => xchgInit s o
  | .rsto => rstoInit s o
  | .step =>
    (s, { o with st := .running, bound := max 1 (((s.pkg? o.rank).map fun p => p.tier.arrived[o.die]?.getD 0).getD 0) })
  | .cpy _ | .coll _ | .rotOpen | .rotRun | .rotClose | .upd _ _ _ | .pairst | .place _ | .snap => (s, o)

/-- What a stopped operation had gathered from its peers stays with its engine, when the record describes that operation
(R414); a run counts the blocks that landed meanwhile (R469). -/
def gathered (old : Option Op) (o : Op) : Op :=
  match old with
  | none => o
  | some w =>
    if w.word == o.word && w.param == o.param && w.td == o.td && w.ta == o.ta && w.tn == o.tn then
      { o with src := w.src, results := w.results, tokens := w.tokens, told := w.told, applied := w.applied, dups := w.dups
               errs := w.errs, filled := w.filled, bound := if o.form == .step then o.bound else w.bound
               pass := if o.kind == 4 then o.pass else w.pass
               pidx := if o.form == .rotRun then o.pidx + (w.pidx - w.errs) else if o.kind == 4 then o.pidx + w.errs else o.pidx }
    else o

/-- A LAMB stopped in its first pass begins that pass again (R383). -/
def Op.restartPass (o : Op) : Op :=
  match o.form with
  | .upd .lamb _ _ => if o.pass == 0 then { o with pidx := 0, nw := 0, nd := 0, errs := 0 } else o
  | _ => o

/-- The word in flight that a rebuilt operation returns: its own, else one of the path whose operation is gone. -/
def flightOf (s : State) (g : Group) (o : Op) (tag : Nat) : Nat :=
  let l := g.flights.filter fun f => f.kind == .engine && f.path == o.form.path && !f.done
  match l.find? fun f => f.op == tag with
  | some f => f.seq
  | none => match l.find? fun f => (s.op? f.op).all fun x => x.st == .withdrawn with
    | some f => f.seq
    | none => g.nextSeq

/-- What a record's re-entry comes to. -/
inductive ReEntry where
  | ok (s : State)
  /-- cause OPERAND -/
  | bad (s : State)
  | fault (s : State) (f : VFault)
  /-- no place in the footprint unit or the die's queue (R306, R312) -/
  | wait

/-- A re-entered operation goes on; a run may have received its last block, or its ring may be broken (R376, R469). -/
def goOn (s : State) (o : Op) : State :=
  if o.form == .rotRun && o.pass == 1 then
    if (opRing s o).any (·.broken) then ending s o stError
    else announce ((runDone s o.id (opMembers s o).length).owe o.go) o
  else announce (s.owe o.go) o

/-- A QUEUED or STOPPED record re-entered as an operation built from its own fields, under the checks of issue (R420). -/
def rebuild (s : State) (h : Group) (m : List Byte) : ReEntry :=
  let w : Word := BitVec.ofNat 32 (recNum m 4 4)
  let tag := recTag m
  let die := recDie m
  let num := bitsOf (recNum m 0 8) 6 6
  let td : QWord := BitVec.ofNat 128 (recNum m 0x10 16)
  let ta : QWord := BitVec.ofNat 128 (recNum m 0x20 16)
  let tn : QWord := BitVec.ofNat 128 (recNum m 0x30 16)
  let param : DWord := BitVec.ofNat 64 (recNum m 8 8)
  match (decode w.toNat 0).bind opWord, (s.team? h.tid).bind fun t => t.gids[num]? with
  | some k, some gid =>
    let g := ((s.group? gid).getD h)
    let g := { g with core := { g.core with die := die } }
    match k.check s g die td ta tn param with
    | (s, .bad _) => .bad s
    | (s, .xf f) => .fault s f
    | (_, .wait) => .wait
    | (s, .ok spans) =>
      let old := s.ops.find? fun o => o.id == tag && o.st == .withdrawn && o.tid == h.tid
      let (id, s) := if old.isSome then (tag, s) else s.gensym
      let s := { s with ops := s.ops.filter fun o => !(o.id == id && o.st == .withdrawn) }
      let n := recNum m 0x58 16
      let o := newOp s g id k.form w td ta tn param k.kn k.bar k.foe spans
      let o := { o with gid := gid, pidx := recNum m 0x40 8, seqno := recNum m 0x48 8 % 2 ^ 32, level := bitsOf (recNum m 0x50 8) 0 8
                        preds := if k.foe then unitPreds s h.core spans else [], flight := flightOf s g o tag }
      let o := if o.kind == 4 then { o with pass := bitsOf n 0 1, nw := bitsOf n 64 32, nd := bitsOf n 96 32 } else o
      if opCount s o < o.pidx || o.kind != recKind m then .bad s
      else if (k.foe && unitFull s h.core) || (k.form.queued && 1024 ≤ (dieQueue s h.rank die).length) then .wait
      else
        let (s, o) := rebuildInit s o
        let o := (gathered old o).restartPass
        .ok (goOn { s with ops := s.ops ++ [o] } o)
  | _, _ => .bad s

/-- The DETACHED records that ENGS wrote for the context (R420). -/
def detachedOf (s : State) (h : Group) : List (List Byte) :=
  (s.teams.filter fun t => t.rank == h.rank && (s.grid? t.grid).any fun g => g.ctx == h.ctx).flatMap (·.detachedRecs)

/-- One record re-entered (R420). -/
def reenter (s : State) (h : Group) (m : List Byte) : ReEntry :=
  match s.team? h.tid with
  | none => .bad s
  | some t =>
    let key := (recDie m, recTag m)
    let done (s : State) : ReEntry := .ok (s.modTeam h.tid fun t => { t with rejoined := key :: t.rejoined })
    if recNum m 0x78 8 != h.ctx % 2 ^ 16 || t.rejoined.contains key then .bad s
    else match recState m with
      | 3 => .bad s
      | 2 => if (detachedOf s h).contains m then done s else .bad s
      | _ => match rebuild s h m with
        | .ok s => done s
        | r => r

/-- The records from an address to the terminator, in order; `n` counts those re-entered. -/
def reenterAll (is : Issuer) (h : Group) (ka : KReg) : Nat → State → Nat → Nat → Option State
  | 0, s, _, _ => some s
  | fuel + 1, s, va, n =>
    match gRead s h.rank h.core.die h.ctx (wrap64 va) 128 .read with
    | (s, .fault a f) => some (takeTrap s is 5 (faultD (a, f) 0))
    | (_, .wait) => none
    | (s, .ok bs) =>
      let m := bs.map (·.1)
      if recKind m == 15 then some (advance (s.modGroup is.gid fun g => g.setK ka.toNat (BitVec.ofNat 64 n)) is 1)
      else match reenter s h m with
        | .ok s => reenterAll is h ka fuel s (va + 128) (n + 1)
        | .bad s => some (takeTrap s is 2 ⟨causeOperand, 0, 0⟩)
        | .fault s f => some (takeTrap s is 5 (faultD f 0))
        | .wait => none

/-- Records that a read can meet before it repeats an operation (R420): one for each die and OPTAG. -/
def recordFuel : Nat := 2 ^ 20

/-- ENGR (R420). -/
def execEngr (ka : KReg) (s : State) : Outcome :=
  issue s false fun x => inHandler x <|
    if x.g.ksBusy [ka.toNat] then block x.s x.is .scoreboard
    else if !engAddr (x.g.kr ka.toNat) then illegal x causeOperand
    else (reenterAll x.is x.g ka recordFuel x.s (x.g.kr ka.toNat).toNat 0).getD x.s

end Sys2Proof.Machine
end

