-- ==== Sys2Proof/Machine/Sched.lean ====
section
/-! DEFINITION. The steps of a group and of its core that no word makes: traps at a boundary (R401), blocked words (R41),
the exchange of fragments (R141), ACQ grants (R154), timers (R415, R421); and the retirement of grids (R153, R445). -/

namespace Sys2Proof.Machine

/-! ### Steps of a group -/

/-- BOUNDARY_TRAP_ENTRY (R398, R401). -/
def execBoundaryTrapEntry (gid : Nat) (s : State) : Outcome :=
  .next (match s.group? gid with
    | none => s
    | some g => if runs s g then boundaryTrap s gid else s)

/-- The waits of a clause header evaluated again (R38, R41); none while they are not met. -/
def headerTry (s : State) (is : Issuer) (g : Group) (h : Word) : Option State :=
  if headerWait s g h == .unmet then none else some (enterClause s is g h)

/-- A blocked word whose wait is met completes; none while it must wait (R41). `s` is the state with the fragment ready. -/
def blockedTry (s : State) (is : Issuer) (g : Group) (w : Wait) : Option State :=
  match w with
  | .scoreboard => none
  | .header h => headerTry s is g h
  | .headerOver h broken => some (headerOver s is h broken)
  | .barOver kd b broken => some (barwOver s is kd b broken)
  | .barw kd b => barwTry s is g kd b
  | .waitp path thr => waitpTry s is g path thr
  | .acq _ _ => none
  | .cwait kd h => cwaitTry s is g kd h
  | .fence k upto => fenceTry s is g k upto
  | .afence upto => afenceTry s is g upto
  | .hflush k va len => hflushTry s is g k va len
  | .dwenter => dwenterTry s is g
  | .dwfence id => dwfenceTry s is id
  | .methreg id => methregTry s is id
  | .pfence stripe upto marks =>
    match pfenceTry s is g stripe upto marks with
    | .ok s => some s
    | .error _ => none
  | .ewait k kn thr => ewaitTry s is g k kn thr
  | .engs ka => engsTry s is g ka
  | .idle _ => none
  | .woken => some (advance s is 1)

/-- What a wait that is not met keeps: a PFENCE keeps the marks that it has taken (R386). -/
def waitKept (s : State) (is : Issuer) (g : Group) (w : Wait) : Wait :=
  match w with
  | .pfence stripe upto marks =>
    match pfenceTry s is g stripe upto marks with
    | .ok _ => w
    | .error w => w
  | w => w

/-- The wait ends by a step of its own, or by a landing. -/
def Wait.passive : Wait → Bool
  | .scoreboard | .acq _ _ => true
  | _ => false

/-- BLOCKED_WORD_COMPLETE (R41, R142): a word whose wait is not met is tried again later. -/
def execBlockedWordComplete (gid entry : Nat) (s : State) : Outcome :=
  .next (match s.group? gid with
    | none => s
    | some g =>
      match g.frag entry with
      | none => s
      | some f =>
        match f.wait with
        | none => s
        | some w =>
          if f.st != .blocked || w.passive then s
          else
            let again : State := s.oweOnce (.event (.blockedWordComplete gid entry))
            if !runs s g then again
            else
              let is : Issuer := ⟨gid, entry⟩
              let s' := s.modGroup gid fun g => g.modFrag entry fun f => { f with st := .ready, wait := none }
              match blockedTry s' is g w with
              | some s => s
              | none => again.modGroup gid fun g => g.modFrag entry fun f => { f with wait := some (waitKept s is g w) })

/-- FRAGMENT_EXCHANGE (R141): the fragment at a clause's end goes to the tail of the spill queue, and the head takes its
entry. A fault on the write raises class 5 at the next boundary. -/
def execFragmentExchange (gid entry : Nat) (s : State) : Outcome :=
  .next (match s.group? gid with
    | none => s
    | some g =>
      match g.frag entry with
      | none => s
      | some f =>
        if f.inClause || !g.exchangeDue then s
        else
          match spillFrag s gid entry with
          | (s, .error x) => if g.trap.tpend.getLsbD 5 then s else pendTrap s gid 5 (faultD x 0)
          | (s, .ok ()) =>
            let s := s.modGroup gid fun g => { g with sinceExch := 0 }
            match reloadHead s gid entry with
            | (s, .ok ()) => s
            | (s, .error x) => if g.trap.tpend.getLsbD 5 then s else pendTrap s gid 5 (faultD x 0))

/-- TIMER_EXPIRE (R415). -/
def execTimerExpire (gid : Nat) (s : State) : Outcome :=
  .next (match s.group? gid with
    | none => s
    | some g =>
      if resident s g && g.timer != 0 && g.timer ≤ g.gtime then
        pendTrap (s.modGroup gid fun g => { g with timer := 0 }) gid 11 ⟨0, 0, 0⟩
      else s)

/-- DEADLINE_EXPIRE (R415). -/
def execDeadlineExpire (gid : Nat) (s : State) : Outcome :=
  .next (match s.group? gid with
    | none => s
    | some g =>
      if resident s g && g.deadline != 0 && g.deadline ≤ s.cyc then
        pendTrap (s.modGroup gid fun g => { g with deadline := 0 }) gid 12 ⟨0, 0, 0⟩
      else s)

/-- An IDLE that began 65,536 cycles ago (R421). -/
def Wait.idleOver (cyc : Nat) : Wait → Bool
  | .idle since => since + 65536 ≤ cyc
  | _ => false

/-- An IDLE under way. -/
def Wait.isIdle : Wait → Bool
  | .idle _ => true
  | _ => false

/-- An IDLE whose time has passed is woken. -/
def Wait.timeout (cyc : Nat) (w : Wait) : Wait := if w.idleOver cyc then .woken else w

/-- IDLE_TIMEOUT (R421): the group's IDLE words that have waited 65,536 cycles, resident or in the spill queue, complete. -/
def execIdleTimeout (gid entry : Nat) (s : State) : Outcome :=
  .next (match s.group? gid with
    | none => s
    | some g =>
      let s := s.modGroup gid fun g =>
        { g with
          frags := g.frags.map fun f => f.map fun f => { f with wait := f.wait.map (Wait.timeout s.cyc) }
          spilled := g.spilled.map fun n => { n with wait := n.wait.map (Wait.timeout s.cyc) } }
      let left := (g.resident.map fun x => x.2.wait) ++ g.spilled.map fun n => n.wait
      if left.any fun w => w.any fun w => w.isIdle && !w.idleOver s.cyc then s.oweOnce (.event (.idleTimeout gid entry)) else s)

/-! ### ACQ (R154) -/

/-- The ACQ of a group is granted: it writes the first unit's place and completes (R178). -/
def acqDone (s : State) (a : AcqReq) (v : DWord) : State :=
  let mine (w : Option Wait) : Bool := w == some (.acq a.id a.kd)
  match (s.group? a.gid).bind fun g => g.resident.find? fun x => mine x.2.wait with
  | some (e, _) => unblock (s.modGroup a.gid fun g => g.setBusyK a.kd.toNat v) ⟨a.gid, e⟩ 1
  | none =>
    s.modGroup a.gid fun g =>
      if g.spilled.any fun n => mine n.wait then
        let g := g.setBusyK a.kd.toNat v
        { g with spilled := g.spilled.map fun n => if mine n.wait then { n with wait := some .woken } else n }
      else g

/-- ACQ_GRANT (R154): the oldest request of the core, once the free resources cover it. -/
def execAcqGrant (c : CoreId) (s : State) : Outcome :=
  .next (match (s.core c).acqs with
    | [] => s
    | a :: r =>
      match s.team? a.tid with
      | none => (s.modCore c fun x => { x with acqs := r }).owe [.event (.acqGrant c)]
      | some t =>
        if !t.holds || freeRes s c a.what < a.amount then s
        else
          let s := (s.modCore c fun x => { x with acqs := r }).modTeam a.tid fun t => t.grant a.what a.amount
          (acqDone s a (t.top a.what)).owe [.event (.acqGrant c)])

/-! ### The retirement of a grid (R153, R445) -/

/-- A number of n bytes of host memory. -/
def State.hostNum (s : State) (a n : Nat) : Nat := s.host.mem.bytes.num a n
/-- Bytes written to host memory by the device. -/
def State.hostPut (s : State) (a : Nat) (bs : List Byte) : State :=
  { s with host := { s.host with mem := s.host.mem.write 256 a bs } }
/-- A host event (R445): 0 queues, 1 links, 2 fault records. -/
def State.hostEvent (s : State) (rank v : Nat) : State := { s with host := { s.host with events := s.host.events ++ [(rank, v)] } }

/-- The queue of a header at a package, mapped or waiting. -/
def Pkg.queue? (p : Pkg) (hdr : Nat) : Option Queue :=
  match p.qslots.find? fun e => e.2.hdr == hdr with
  | some e => some e.2
  | none => p.qwait.find? fun q => q.hdr == hdr
/-- Changes the queue of a header. -/
def Pkg.modQueue (p : Pkg) (hdr : Nat) (f : Queue → Queue) : Pkg :=
  { p with qslots := p.qslots.map fun e => if e.2.hdr == hdr then (e.1, f e.2) else e
           qwait := modWhere (fun q => q.hdr == hdr) f p.qwait }

/-- The SIGNAL of a descriptor: its increment is added to its window word (R445), and monitors on it are tested (R231). -/
def signalWord (s : State) (rank off inc : Nat) : State :=
  if off == 0 || off % 8 != 0 || startArea ≤ off then s
  else
    let s := s.modPkg rank fun p =>
      { p with window := p.window.write 4 off (bytesLE 8 ((p.window.bytes.num off 8 + inc) % 2 ^ 64)) }
    testWindow s rank (windowBase + off) 8

/-- A host descriptor retires with a status: STATUS, then SIGNAL, then HEAD, then the host's event (R445). -/
def retireDesc (s : State) (rank hdr daddr status : Nat) : State :=
  let s := s.hostPut (daddr + 4) (bytesLE 4 status)
  let s := signalWord s rank (s.hostNum (daddr + 0x60) 8) (s.hostNum (daddr + 0x68) 8)
  let head := ((((s.pkg? rank).bind fun p => p.queue? hdr).map (·.head)).getD (s.hostNum (hdr + 0x18) 4) + 1) % 2 ^ 32
  let s := s.hostPut (hdr + 0x18) (bytesLE 4 head)
  (s.modPkg rank fun p => p.modQueue hdr fun q => { q with head := head }).hostEvent rank 0

/-- A request of one of some groups is at a slice: queued, gathered, pending, or a call of the wave that runs. -/
def Slice.holdsReq (q : Slice) (gids : List Nat) : Bool :=
  let own (r : Req) : Bool := gids.contains r.gid
  q.queue.any own || q.windows.any (fun w => w.entries.any own) || q.calls.any own || q.runs.any (fun w => w.any own) ||
    q.wave.any fun w => w.calls.any own || w.rest.any own

/-- A PUT byte or a path 6 request of one of some groups has not been performed (R177, R268). A word armed at a monitor has made
its test. -/
def accessLeft (s : State) (gids : List Nat) : Bool :=
  let own (last : AL Nat Nat) : Bool := last.any fun l => gids.contains l.1
  s.cores.any (fun c => c.wcb.any fun l => own l.last) || s.fab.xfers.any (fun x => !x.applied && own x.last) ||
    s.fab.reqs.any (fun r => gids.contains r.req.gid) || s.pkgs.any fun p => p.slices.any fun q => q.2.holdsReq gids

/-- The record of a team of the grid stays while a grid that it launched has not retired, an operation that it issued has not
completed, or an access of its groups has not been performed (R153, R177, R268). -/
def teamDone (s : State) (t : Team) : Bool :=
  t.st == .exited && (s.grids.all fun c => c.parent != some t.tid) &&
    s.ops.all (fun o => o.tid != t.tid || o.st == .withdrawn) && !accessLeft s t.gids

/-- Every team of the grid has been dealt and removed, and its operations have completed (R153). -/
def gridDone (s : State) (g : Grid) : Bool :=
  g.started && g.nextTeam == g.nx * g.ny * g.nz && s.teams.all (fun t => t.grid != g.id) &&
    s.ops.all fun o => o.grid != g.id || o.st == .withdrawn

/-- A grid leaves: a child frees its slot and wakes its parent, a host grid its segments and its descriptor (R153, R206). -/
def gridGone (s : State) (g : Grid) : State :=
  let s := { s with grids := s.grids.filter fun x => x.id != g.id, ops := s.ops.filter fun (o : Op) =>
    o.grid != g.id || (o.form == OpForm.rotOpen && o.pass == 2 && o.st == OpSt.withdrawn) }
  match g.desc with
  | some (hdr, daddr) =>
    (retireDesc { s with segs := s.segs.filter fun x => x.grid != g.id } g.rank hdr daddr g.status).owe
      [.event (.gridDispatch g.rank)]
  | none =>
    let s := s.modPkg g.rank fun p => { p with children := p.children.filter fun e => e.2.1 != g.id }
    match g.parent.bind s.team? with
    | none => s
    | some t =>
      ({ s with groups := modWhere (fun x => x.tid == t.tid) Group.wakeIdle s.groups }).owe [.event (.gridRetire t.grid)]

/-- GRID_RETIRE (R153): the team records that may go are removed, and the grid retires when none is left. It comes again while
only accesses of exited groups keep a record. -/
def execGridRetire (id : Nat) (s : State) : Outcome :=
  .next (match s.grid? id with
    | none => s
    | some g =>
      let s := { s with teams := s.teams.filter fun t => !(t.grid == id && teamDone s t) }
      if gridDone s g then gridGone s g
      else if s.teams.any fun t => t.grid == id && t.st == .exited && accessLeft s t.gids then s.owe [.event (.gridRetire id)]
      else s)

end Sys2Proof.Machine
end

