-- ==== Sys2Proof/Machine/Queues.lean ====
section
/-! DEFINITION. From host queue to die: doorbells and mapping rounds (R157, R444), the descriptors of grids (R445), and the
grid dispatcher (R158). -/

namespace Sys2Proof.Machine

/-! ### Queues (R157, R444) -/

/-- RING, SIZE, PRIO, CTXD and TAIL of a queue header in host memory (R444). -/
def State.qRing (s : State) (hdr : Nat) : Nat := s.hostNum hdr 8
def State.qSize (s : State) (hdr : Nat) : Nat := s.hostNum (hdr + 0x08) 4
def State.qPrio (s : State) (hdr : Nat) : Nat := s.hostNum (hdr + 0x0C) 1
def State.qCtxd (s : State) (hdr : Nat) : Nat := s.hostNum (hdr + 0x10) 8
def State.qTail (s : State) (hdr : Nat) : Nat := s.hostNum (hdr + 0x1C) 4

/-- HEAD as the device holds it. -/
def State.qHead (s : State) (rank hdr : Nat) : Nat :=
  (((s.pkg? rank).bind fun p => p.queue? hdr).map (·.head)).getD (s.hostNum (hdr + 0x18) 4)

/-- The live host grids of a queue. -/
def liveGrids (s : State) (rank hdr : Nat) : List Grid :=
  s.grids.filter fun g => g.rank == rank && g.desc.any fun d => d.1 == hdr

/-- A queue as its doorbell finds it: what is before `next` is dispatched or retired. -/
def newQueue (s : State) (rank hdr : Nat) : Queue :=
  let head := s.qHead rank hdr
  { hdr := hdr, ctx := 0, prio := s.qPrio hdr, head := head, next := (head + (liveGrids s rank hdr).length) % 2 ^ 32
    round := 0, served := 0, since := 0 }

/-- QUEUE_DOORBELL (R444): the queue becomes waiting when its TAIL differs from HEAD. -/
def execQueueDoorbell (rank value : Nat) (s : State) : Outcome :=
  .next (match s.pkg? rank with
    | none => s
    | some p =>
      let hdr := value / 64 * 64
      if p.qslots.any fun e => e.2.hdr == hdr then s.oweOnce (.event (.gridDispatch rank))
      else if (p.qwait.any fun q => q.hdr == hdr) || s.qTail hdr == s.qHead rank hdr then s
      else
        (s.modPkg rank fun p => { p with qwait := p.qwait ++ [newQueue s rank hdr] }).oweOnce (.event (.queueMapRound rank)))

/-- The queue has descriptors that are not dispatched yet. -/
def hasWork (s : State) (q : Queue) : Bool := q.next != s.qTail q.hdr

/-- The slot that a mapping takes: a free one, then idle slots, least recently serviced first, then slots with work, lowest
priority first and then least recently serviced; none of the last two rounds (R157). -/
def takeSlot (s : State) (p : Pkg) (round : Nat) : Option Nat :=
  match (upTo (min 4096 (p.qslots.length + 1))).find? fun n => (p.qslots.get n).isNone with
  | some n => some n
  | none =>
    let old := p.qslots.filter fun e => e.2.round + 2 < round
    let key (q : Queue) : Nat × Nat × Nat := if hasWork s q then (1, q.prio, q.served) else (0, 0, q.served)
    let before (a b : Nat × Nat × Nat) : Bool :=
      a.1 < b.1 || (a.1 == b.1 && (a.2.1 < b.2.1 || (a.2.1 == b.2.1 && a.2.2 < b.2.2)))
    (old.foldl (fun best e => match best with
      | none => some e
      | some b => if before (key e.2) (key b.2) then some e else some b) none).map (·.1)

/-- The context of a descriptor in host memory (R444); a context that is already known keeps what else the package holds. -/
def readCtx (s : State) (rank a : Nat) : Ctx :=
  let w (i : Nat) : Nat := s.hostNum (a + 8 * i) 8
  let id := w 0 % 2 ^ 16
  { rank := rank, id := id, ptroot := w 1, spbase := bitsOf (w 2) 0 57, spstride := bitsOf (w 3) 0 41
    spcount := bitsOf (w 4) 0 18, gtbase := bitsOf (w 5) 0 57, rwbase := bitsOf (w 6) 0 57, rankmap := w 7, trapvec := w 8
    csave := w 9, tsave := w 10, fenced := ((s.ctx? rank id).map (·.fenced)).getD false }

/-- A context of a package added or replaced. -/
def putCtx (s : State) (c : Ctx) : State :=
  if (s.ctx? c.rank c.id).isSome then s.modCtx c.rank c.id fun _ => c else { s with ctxs := s.ctxs ++ [c] }

/-- A waiting queue mapped to a slot: a queue that loses it while it holds work becomes waiting at the tail (R157). -/
def mapQueue (s : State) (rank round slot : Nat) (q : Queue) : State :=
  let c := readCtx s rank (s.qCtxd q.hdr)
  let (n, s) := s.gensym
  let s := putCtx s c
  s.modPkg rank fun p =>
    let lost := (p.qslots.get slot).toList.filter (hasWork s)
    { p with qslots := p.qslots.put slot { q with ctx := c.id, prio := s.qPrio q.hdr, round := round, served := n }
             qwait := (p.qwait.filter fun x => x.hdr != q.hdr) ++ lost }

/-- Waiting queues mapped in the order in which they became waiting, while slots can be taken. -/
def mapQueues (rank round : Nat) : State → List Queue → State
  | s, [] => s
  | s, q :: r =>
    match (s.pkg? rank).bind fun p => takeSlot s p round with
    | none => s
    | some slot => mapQueues rank round (mapQueue s rank round slot q) r

/-- The context of a waiting queue is fenced after a package loss: the queue is held unmapped (R460). -/
def queueFenced (s : State) (rank : Nat) (q : Queue) : Bool :=
  (s.ctx? rank (s.hostNum (s.qCtxd q.hdr) 8 % 2 ^ 16)).any (·.fenced)

/-- Cycles of a mapping round (R157). -/
def roundCycles : Nat := 20 * Config.usec

/-- QUEUE_MAP_ROUND (R157): one round each 20 µs, of up to 256 queues. -/
def execQueueMapRound (rank : Nat) (s : State) : Outcome :=
  .next (match s.pkg? rank with
    | none => s
    | some p =>
      let round := s.cyc / roundCycles
      let s :=
        if round ≤ p.round then s
        else
          let s := s.modPkg rank fun p => { p with round := round }
          (mapQueues rank round s ((p.qwait.filter fun q => !queueFenced s rank q).take 256)).oweOnce (.event (.gridDispatch rank))
      if ((s.pkg? rank).map (·.qwait)).getD [] == [] then s else s.oweOnce (.event (.queueMapRound rank)))

/-! ### Descriptors (R445) -/

/-- A host descriptor in host memory. -/
structure HostDesc where
  kind : Nat
  flags : Nat
  entry : Nat
  args : Nat
  nx : Nat
  ny : Nat
  nz : Nat
  row0 : Nat
  col0 : Nat
  rows : Nat
  cols : Nat
  dies : Nat
  groups : Nat
  tiles : Nat
  prio : Nat
  nbv : Nat
  smem : Nat
  seg : Nat
  seed : Nat
  wait0 : Nat × Nat
  wait1 : Nat × Nat
  signal : Nat × Nat
  /-- the bytes that must be zero -/
  zeros : Nat

/-- The descriptor at a host address. -/
def readDesc (s : State) (a : Nat) : HostDesc :=
  let w (o n : Nat) : Nat := s.hostNum (a + o) n
  { kind := w 0 1, flags := w 1 1, entry := w 8 8, args := w 0x10 8, nx := w 0x18 4, ny := w 0x1C 4, nz := w 0x20 4
    row0 := w 0x24 1, col0 := w 0x25 1, rows := w 0x26 1, cols := w 0x27 1, dies := w 0x28 1, groups := w 0x29 1
    tiles := w 0x2A 1, prio := w 0x2B 1, nbv := w 0x2C 1, smem := w 0x2E 2, seg := w 0x30 4, seed := w 0x38 8
    wait0 := (w 0x40 8, w 0x48 8), wait1 := (w 0x50 8, w 0x58 8), signal := (w 0x60 8, w 0x68 8)
    zeros := w 2 2 + w 0x2D 1 + w 0x34 4 + w 0x70 16 }

/-- A window word that a descriptor names lies within its limits (R445). -/
def eventOk (e : Nat × Nat) : Bool := e.1 == 0 || (e.1 % 8 == 0 && e.1 < 2 ^ 20)

/-- The event fields of a descriptor lie within their limits. -/
def HostDesc.eventsOk (d : HostDesc) : Bool := eventOk d.wait0 && eventOk d.wait1 && eventOk d.signal

/-- The rectangle lies within rows 0 to 7 and columns 0 to 15 (R156). -/
def HostDesc.rectOk (d : HostDesc) : Bool :=
  d.row0 ≤ 7 && d.col0 ≤ 15 && 1 ≤ d.rows && 1 ≤ d.cols && d.row0 + d.rows ≤ 8 && d.col0 + d.cols ≤ 16

/-- Every field of a LAUNCH descriptor lies within its limits (R151, R156, R445). -/
def HostDesc.launchOk (d : HostDesc) : Bool :=
  d.entry % 4 == 0 && d.entry < 2 ^ 57 && 1 ≤ d.nx && 1 ≤ d.ny && 1 ≤ d.nz && d.nx * d.ny * d.nz ≤ 2 ^ 32 && d.rectOk &&
    d.dies != 0 && d.dies < 16 && 1 ≤ d.groups && d.groups ≤ 64 && d.tiles ≤ 16 && d.prio ≤ 7 && 1 ≤ d.nbv && d.nbv ≤ 3 &&
    d.smem ≤ 128 && d.seg ≤ 12288

/-- A context has spill windows for its launches (R199). -/
def Ctx.windowsOk (c : Ctx) : Bool := 66 * 2 ^ 20 ≤ c.spstride && c.spcount != 0

/-- The descriptor gives no status ERROR (R445). -/
def HostDesc.ok (d : HostDesc) (c : Ctx) : Bool :=
  d.flags < 8 && d.zeros == 0 && d.eventsOk && (d.kind == 2 || (d.kind == 1 && d.launchOk && c.windowsOk))

/-- A WAIT word is at its threshold (R445). -/
def eventMet (s : State) (p : Pkg) (e : Nat × Nat) : Bool :=
  e.1 == 0 || e.2 ≤ ofBytesLE ((windowRead s p e.1 8).map (·.1))

/-- The grid is eligible: its WAIT words, and the queue's previous grids under SERIAL (R158, R445). -/
def eligible (s : State) (p : Pkg) (q : Queue) (d : HostDesc) : Bool :=
  eventMet s p d.wait0 && eventMet s p d.wait1 && (!bitOf d.flags 0 || (liveGrids s p.rank q.hdr).isEmpty)

/-! ### The dispatcher (R158) -/

/-- The address of the queue's next descriptor. -/
def nextDesc (s : State) (q : Queue) : Nat := s.qRing q.hdr + 128 * (q.next % max 1 (s.qSize q.hdr))

/-- The queue takes its next descriptor. -/
def takeDesc (s : State) (rank : Nat) (q : Queue) : State :=
  let (n, s) := s.gensym
  s.modPkg rank fun p => p.modQueue q.hdr fun q => { q with next := (q.next + 1) % 2 ^ 32, since := 0, served := n }

/-- What a queue's next descriptor asks of the dispatcher. -/
inductive Offered where
  | nothing
  /-- it retires at once with this status -/
  | retire (status : Nat)
  | waits
  | ready (d : HostDesc)

/-- A queue's next descriptor examined. -/
def offerOf (s : State) (p : Pkg) (q : Queue) : Offered :=
  match s.ctx? p.rank q.ctx with
  | none => .nothing
  | some c =>
    if c.fenced || !hasWork s q then .nothing
    else
      let d := readDesc s (nextDesc s q)
      if !d.ok c then .retire stError
      else if !eligible s p q d then .waits
      else if d.kind == 2 then .retire stOk
      else .ready d

/-- The host grid of a descriptor (R151, R445). -/
def hostGrid (s : State) (rank : Nat) (q : Queue) (d : HostDesc) (id since : Nat) : Grid :=
  { id := id, rank := rank, ctx := q.ctx, depth := 0, root := id, parent := none, handle := 0, nx := d.nx, ny := d.ny
    nz := d.nz, entry := sext57 d.entry, args := BitVec.ofNat 64 d.args, row0 := d.row0, col0 := d.col0, rows := d.rows
    cols := d.cols, dies := (upTo 4).filter fun j => bitOf d.dies j, groups := d.groups, smem := d.smem, tiles := d.tiles
    nbv := d.nbv, det := bitOf d.flags 1, priority := min q.prio d.prio, seed := BitVec.ofNat 64 d.seed
    seg := d.seg, spTrap := bitOf d.flags 2, spWord := 0, spDie := 0, spCount := 0, ovf := 0, split := 0, peers := []
    egrid := 0, nextTeam := 0, since := since, started := true, desc := some (q.hdr, nextDesc s q), status := stOk }

/-- Bytes of scratchpad allocated on a die (R206). -/
def segUsed (s : State) (rank die : Nat) : Nat := ((s.segs.filter fun x => x.rank == rank && x.die == die).map (·.size)).sum

/-- The segments of a grid fit on every die of its mask (R206). -/
def segsFit (s : State) (rank seg dies : Nat) : Bool :=
  (upTo 4).all fun j => !bitOf dies j || segUsed s rank j + 8192 * seg ≤ 96 * 2 ^ 20

/-- The segments that a grid receives (R206). -/
def addSegs (s : State) (g : Grid) : State :=
  if g.seg == 0 then s
  else
    g.dies.foldl (fun s die =>
      let (id, s) := s.gensym
      { s with segs := s.segs ++ [{ id := id, rank := g.rank, die := die, grid := g.id, size := 8192 * g.seg
                                    ram := Ram.empty, valid := [] }] }) s

/-- The cores of a grid's rectangle on a die, in row-major order (R156, R159). -/
def rectCores (g : Grid) (die : Nat) : List CoreId :=
  (upTo g.rows).flatMap fun r => (upTo g.cols).map fun c => ⟨g.rank, die, g.row0 + r, g.col0 + c⟩

/-- A core with no team on it. -/
def coreFree (s : State) (c : CoreId) : Bool := !(s.teams.any fun t => t.core == c && t.holds)

/-- The die that the next team goes to: the most free cores in the rectangle, ties to the lower die (R158). -/
def dealDie (s : State) (g : Grid) : Nat :=
  let free (d : Nat) : Nat := ((rectCores g d).filter (coreFree s)).length
  (((upTo 4).filter g.dies.contains).foldl (fun best d => match best with
    | none => some d
    | some b => if free b < free d then some d else some b) none).getD 0

/-- A team of a grid before its placement (R147, R148). -/
def newTeam (g : Grid) (tid n die : Nat) : Team :=
  { tid := tid, rank := g.rank, grid := g.id, x := n % g.nx, y := n / g.nx % g.ny, z := n / (g.nx * g.ny), die := die
    core := ⟨g.rank, die, 0, 0⟩, st := .waiting, placed := 0, holding := g.smem, tiles := g.tiles
    bars := Vector.replicate 32 (Barrier.new g.groups), shared := Ram.empty, acc := Ram.empty, wins := [], gids := [], seats := []
    held := [], doneRecs := [], rejoined := [], detachedRecs := [] }

/-- The grid's next team is dealt to a die (R158); the dealing goes on as each team is placed. -/
def dealTeam (s : State) (id : Nat) : State :=
  match s.grid? id with
  | none => s
  | some g =>
    if g.nx * g.ny * g.nz ≤ g.nextTeam then s
    else
      let die := dealDie s g
      let (tid, s) := s.gensym
      let s := { s with teams := s.teams ++ [newTeam g tid g.nextTeam die] }
      (s.modGrid id fun g => { g with nextTeam := g.nextTeam + 1 }).oweOnce (.event (.teamPlace g.rank die))

/-- A grid that the dispatcher may start: its priority, when it became eligible, and the queue or the child grid. -/
structure Candidate where
  prio : Nat
  since : Nat
  src : (Queue × HostDesc) ⊕ Nat

/-- One candidate starts before another (R158). -/
def Candidate.before (a b : Candidate) : Bool := b.prio < a.prio || (a.prio == b.prio && a.since < b.since)

/-- Queues whose next descriptor has become eligible are numbered in order (R158). -/
def stampQueues (s : State) (rank : Nat) : State :=
  match s.pkg? rank with
  | none => s
  | some p =>
    p.qslots.foldl (fun s e =>
      match offerOf s p e.2 with
      | .ready _ =>
        if e.2.since != 0 then s
        else
          let (n, s) := s.gensym
          s.modPkg rank fun p => p.modQueue e.2.hdr fun q => { q with since := n + 1 }
      | _ => s) s

/-- The grids that may start now; a host grid waits until its segments fit (R206). -/
def placeable (s : State) (p : Pkg) : List Candidate :=
  (p.qslots.filterMap fun e => match offerOf s p e.2 with
    | .ready d =>
      if segsFit s p.rank d.seg d.dies then some ⟨min e.2.prio d.prio, e.2.since, .inl (e.2, d)⟩ else none
    | _ => none) ++
  (s.grids.filter fun g => g.rank == p.rank && !g.started && !((s.ctx? g.rank g.ctx).any (·.fenced))).map fun g =>
    ⟨g.priority, g.since, .inr g.id⟩

/-- A grid starts: a host grid receives its segments, and its first team is dealt (R158, R206). -/
def startGrid (s : State) (rank : Nat) (c : Candidate) : State :=
  match c.src with
  | .inl (q, d) =>
    let (id, s) := s.gensym
    let g := hostGrid s rank q d id c.since
    let s := takeDesc { s with grids := s.grids ++ [g] } rank q
    dealTeam (addSegs s g) id
  | .inr id => dealTeam (s.modGrid id fun g => { g with started := true }) id

/-- A queue of the package whose next descriptor retires at once, with its status (R445). -/
def retiring (s : State) (p : Pkg) : Option (Queue × Nat) :=
  p.qslots.findSome? fun e => match offerOf s p e.2 with
    | .retire st => some (e.2, st)
    | _ => none

/-- The dispatcher has descriptors or grids that it has not started. -/
def dispatchWaits (s : State) (p : Pkg) : Bool :=
  (p.qslots.any fun e => match offerOf s p e.2 with
    | .nothing => false
    | _ => true) || s.grids.any fun g => g.rank == p.rank && !g.started && !((s.ctx? g.rank g.ctx).any (·.fenced))

/-- GRID_DISPATCH (R158): a descriptor that retires at once does, else the eligible grid of highest priority starts. -/
def execGridDispatch (rank : Nat) (s : State) : Outcome :=
  let s := stampQueues s rank
  let s := match s.pkg? rank with
    | none => s
    | some p =>
      match retiring s p with
      | some (q, st) => retireDesc (takeDesc s rank q) rank q.hdr (nextDesc s q) st
      | none =>
        match (placeable s p).foldl (fun (best : Option Candidate) c => match best with
          | none => some c
          | some b => if c.before b then some c else some b) none with
        | none => s
        | some c => startGrid s rank c
  .next (match s.pkg? rank with
    | none => s
    | some p => if dispatchWaits s p then s.oweOnce (.event (.gridDispatch rank)) else s)

end Sys2Proof.Machine
end

