-- ==== Sys2Proof/Machine/Records.lean ====
section
/-! DEFINITION. Save records: what hardware writes for a group and for a team when it switches a team out, and what a restore
takes from them (R410). -/

namespace Sys2Proof.Machine

/-! ### The group record (R410) -/

/-- n zero bytes. -/
def zeros (n : Nat) : List PByte := List.replicate n (0, false)
/-- A number as n sound bytes. -/
def num8 (x : Nat) : List PByte := sound (bytesLE 8 x)

/-- The register backing: position j of slot s at 64 j + 4 s, with its poison marks (R410, R416). -/
def Group.backingBytes (g : Group) : List PByte :=
  (upTo 128).flatMap fun j => (upTo 16).flatMap fun s =>
    let t := g.thread s
    (wordBytes (t.backing[j]?.getD 0)).map fun b => (b, t.bad.contains j)

/-- A slot block (R410). -/
def Thread.block (t : Thread) : List PByte :=
  num8 t.wstate.toNat ++ num8 t.s0.toNat ++ num8 t.s1.toNat ++ num8 t.p.toNat ++
    (upTo 8).flatMap (fun i => num8 (t.links.getD i 0).toNat) ++ zeros 32

/-- A reconvergence record as memory holds it (R410). -/
def RRec.num (r : RRec) : Nat :=
  bitsOf r.rcv.toNat 0 57 + r.omask.toNat * 2 ^ 57 + r.arrived.toNat * 2 ^ 73 + r.cdepth % 2 ^ 13 * 2 ^ 89 +
    r.parent % 32 * 2 ^ 102 + 2 ^ 107

/-- The group state words (R410). -/
def Group.stateWords (g : Group) : List PByte :=
  let w0 := g.q.toNat + g.nbv * 2 ^ 8 + g.arithen.toNat * 2 ^ 16 + g.level.toNat * 2 ^ 24 + g.reps.num * 2 ^ 32 +
    b2n g.trap.faulted * 2 ^ 48
  num8 w0 ++ num8 (bitsOf g.jaddr.toNat 0 57) ++ num8 (g.jmask.toNat + g.exited.toNat * 2 ^ 16 + g.seen.toNat * 2 ^ 32) ++
    num8 g.gtime ++ num8 g.deadline ++ num8 g.timer ++ num8 (g.rseq.toNat + g.rstseq.toNat * 2 ^ 32) ++ num8 g.rstpt.toNat ++
    num8 (ofBytesLE ((upTo 8).map fun p => BitVec.ofNat 8 (g.path p))) ++ num8 g.kbusy.toNat ++ zeros 48

/-- The trap frame (R410). -/
def TrapState.frame (t : TrapState) : List PByte :=
  num8 t.tcause.toNat ++ num8 t.tpc.toNat ++ num8 t.tmask.toNat ++ num8 t.tinfo.toNat ++ num8 t.taddr.toNat ++
    num8 t.tpend.toNat ++ t.tks.toList.flatMap (fun x => num8 x.toNat) ++ num8 (b2n t.tmode) ++ zeros 168

/-- The group as interrupted: a FAULTED group in trap mode is saved with its frozen table and the k28 to k31 that the frame
keeps (R402, R410). -/
def Group.interrupted (g : Group) : Group :=
  match g.trap.frozen with
  | none => g
  | some z =>
    if !g.trap.tmode then g
    else
      let g := (upTo 4).foldl (fun g i => g.setK (28 + i) (g.trap.tks[i]?.getD 0)) g
      { g with frags := z.frags, recs := z.recs, jaddr := z.jaddr, jmask := z.jmask, reps := z.reps }

/-- The save record of a group: 16 KiB (R410). -/
def Group.record (g0 : Group) : List PByte :=
  let g := g0.interrupted
  g.backingBytes ++ (upTo 16).flatMap (fun s => (g.thread s).block) ++
    g.k.toList.flatMap (fun x => num8 x.toNat) ++ g.t.toList.flatMap (fun x => sound (bytesLE 16 x.toNat)) ++
    (g.frags.toList.flatMap fun f => sound (bytesLE 16 (match f with
      | some f => f.num
      | none => 3 * 2 ^ 82))) ++
    (g.recs.toList.flatMap fun r => sound (bytesLE 16 (match r with
      | some r => r.num
      | none => 0))) ++
    g.stateWords ++ g.trap.frame ++
    ((upTo 8).flatMap fun e => (upTo 32).flatMap fun f => num8 ((g.trap.replay e).read f).toNat) ++ zeros 0xB00

/-! ### What a restore takes from a group record -/

/-- A number of n bytes of a record. -/
def recP (m : List PByte) (a n : Nat) : Nat := ofBytesLE (((m.drop a).take n).map (·.1))

/-- A slot from a record. -/
def threadOf (m : List PByte) (s : Nat) : Thread :=
  let b := 0x2000 + 128 * s
  let w := recP m b 8
  let word (j : Nat) : List PByte := (m.drop (64 * j + 4 * s)).take 4
  { backing := Vector.ofFn fun j => BitVec.ofNat 32 (ofBytesLE ((word j.val).map (·.1)))
    bad := (upTo 128).filter fun j => (word j).any (·.2)
    wbase := bitsOf w 0 20, rbase := bitsOf w 20 20, frame := bitsOf w 40 7, cdepth := bitsOf w 51 13
    links := (upTo (min 8 (bitsOf w 47 4))).map fun i => BitVec.ofNat 64 (recP m (b + 32 + 8 * i) 8)
    p := BitVec.ofNat 7 (recP m (b + 24) 8), s0 := BitVec.ofNat 64 (recP m (b + 8) 8)
    s1 := BitVec.ofNat 64 (recP m (b + 16) 8) }

/-- A split-table entry from a record, with what the model keeps of the fragment that was there. -/
def fragOf (m : List PByte) (e : Nat) (old : Option Frag) : Option Frag :=
  let x := recP m (0x2A00 + 16 * e) 16
  if bitsOf x 82 2 == 3 || bitsOf x 0 16 == 0 then none
  else
    let note : SpillNote := match old with
      | none => ⟨none, none, []⟩
      | some f => if bitsOf f.clause.toNat 0 57 == bitsOf x 16 57 && f.word == bitsOf x 73 4 then ⟨f.hdr, f.wait, []⟩
        else ⟨none, none, []⟩
    some (Frag.ofNum x note)

/-- A reconvergence record from a record. -/
def rrecOf (m : List PByte) (i : Nat) : Option RRec :=
  let x := recP m (0x2A80 + 16 * i) 16
  if bitOf x 107 then
    some { rcv := sext57 (bitsOf x 0 57), omask := BitVec.ofNat 16 (bitsOf x 57 16), arrived := BitVec.ofNat 16 (bitsOf x 73 16)
           cdepth := bitsOf x 89 13, parent := bitsOf x 102 5 }
  else none

/-- A replay entry from a record, with the UNI mark that the model keeps. -/
def replayOf (m : List PByte) (e : Nat) (old : Replay) : Replay :=
  (upTo 18).foldl (fun r f => r.write f (BitVec.ofNat 64 (recP m (0x2D00 + 256 * e + 8 * f) 8))) old

/-- The group that a record restores (R409, R410); the words in flight, the spill queue and the model's own marks are those
that it was saved with. -/
def Group.restore (g : Group) (m : List PByte) : Group :=
  let w (i : Nat) : Nat := recP m (0x2B80 + 8 * i) 8
  let f (i : Nat) : DWord := BitVec.ofNat 64 (recP m (0x2C00 + 8 * i) 8)
  let w0 := w 0
  let c := recP m 0x2C00 8
  let r := bitsOf w0 32 16
  let t := { g.trap with
    cls := bitsOf c 0 4, sub := bitsOf c 4 4, sel := BitVec.ofNat 8 (bitsOf c 12 8), tpc := f 1, tmask := f 2, tinfo := f 3
    taddr := f 4, tpend := BitVec.ofNat 16 (f 5).toNat, tks := #v[f 6, f 7, f 8, f 9], tmode := bitOf (f 10).toNat 0
    faulted := bitOf w0 48, trq := (upTo 8).map fun e => replayOf m e (g.trap.replay e) }
  { g with
    threads := Vector.ofFn fun s => threadOf m s.val
    k := Vector.ofFn fun i => BitVec.ofNat 64 (recP m (0x2800 + 8 * i.val) 8)
    t := Vector.ofFn fun i => BitVec.ofNat 128 (recP m (0x2900 + 16 * i.val) 16)
    frags := Vector.ofFn fun e => fragOf m e.val (g.frag e.val)
    recs := Vector.ofFn fun i => rrecOf m i.val
    q := BitVec.ofNat 4 (bitsOf w0 0 4), nbv := bitsOf w0 8 2, arithen := BitVec.ofNat 5 (bitsOf w0 16 5)
    level := BitVec.ofNat 8 (bitsOf w0 24 8)
    reps := { remain := bitsOf r 0 6, index := bitsOf r 6 6, stepb := bitOf r 12, stepa := bitOf r 13, stepd := bitOf r 14
              active := bitOf r 15, entry := g.reps.entry, lit := none }
    jaddr := BitVec.ofNat 64 (bitsOf (w 1) 0 57), jmask := BitVec.ofNat 16 (bitsOf (w 2) 0 16)
    exited := BitVec.ofNat 16 (bitsOf (w 2) 16 16), seen := BitVec.ofNat 32 (bitsOf (w 2) 32 32)
    gtime := w 3, deadline := w 4, timer := w 5, rseq := BitVec.ofNat 32 (bitsOf (w 6) 0 32)
    rstseq := BitVec.ofNat 32 (bitsOf (w 6) 32 32), rstpt := BitVec.ofNat 64 (bitsOf (w 7) 0 57)
    kbusy := BitVec.ofNat 32 (bitsOf (w 9) 0 32)
    trap := t }

/-! ### The team record (R410) -/

/-- Bytes of a memory from 0 to n − 1, with the poison of its words. -/
def Ram.image (r : Ram) (n : Nat) : List PByte := r.readP 0 n

/-- The pieces of a team record that hardware writes: offset and bytes. The space from 0x1000 is the handler's. -/
def Team.record (t : Team) : List (Nat × List PByte) :=
  [(0, (upTo 32).flatMap (fun b => num8 (t.bar b).num.toNat) ++ num8 t.holding ++ num8 t.tiles ++ zeros (0x1000 - 0x110)),
   (0x40000, t.acc.image (16384 * t.tiles)), (0x80000, t.shared.image (4096 * t.holding))]

/-- The team that its record restores; H and T are those that it was saved with. -/
def Team.restore (t : Team) (b z m : List PByte) : Team :=
  { t with bars := Vector.ofFn fun i => Barrier.ofNum (recP b (8 * i.val) 8)
           acc := Ram.empty.writeP 0 z, shared := Ram.empty.writeP 0 m }

/-- Virtual address of a group's record (R401). -/
def csaveVa (s : State) (g : Group) : Nat := wrap64 (((s.ctx? g.rank g.ctx).map (·.csave)).getD 0 + 2 ^ 14 * g.win)

/-- Virtual address of a team's record: that of the spill window of its group 0 (R401). -/
def tsaveVa (s : State) (t : Team) (ctx : Nat) : Nat :=
  wrap64 (((s.ctx? t.rank ctx).map (·.tsave)).getD 0 + 2 ^ 20 * t.wins.headD 0)

/-- The groups of a team that have not exited, in the order of their numbers. -/
def teamGroups (s : State) (t : Team) : List Group := t.gids.filterMap s.group?

/-- The handler group of a switch: the lowest-numbered that is not FAULTED (R409). -/
def handlerOf (s : State) (t : Team) : Option Group := (teamGroups s t).find? fun g => !g.trap.faulted

/-- Reads from a context's memory, in order; none while one must wait or faults. -/
def readAll (s : State) (rank die ctx : Nat) : List (Nat × Nat) → State × Option (List (List PByte))
  | [] => (s, some [])
  | (va, n) :: r =>
    match gRead s rank die ctx va n .read with
    | (s, .ok bs) =>
      match readAll s rank die ctx r with
      | (s, some l) => (s, some (bs :: l))
      | (s, none) => (s, none)
    | (s, _) => (s, none)

/-- What a sequence of writes comes to. -/
inductive WriteOut where
  | ok (s : State)
  | fault (s : State) (f : VFault)
  | wait (s : State)

/-- Writes to a context's memory, in order, up to the first that faults or waits. -/
def writeAll (rank die ctx : Nat) : State → List (Nat × List PByte) → WriteOut
  | s, [] => .ok s
  | s, (va, bs) :: r =>
    if bs.isEmpty then writeAll rank die ctx s r
    else
      match gWrite s rank die ctx va bs with
      | (s, .fault a f) => .fault s (a, f)
      | (s, .wait) => .wait s
      | (s, .ok ()) => writeAll rank die ctx s r

end Sys2Proof.Machine
end

