-- ==== Sys2Proof/Machine/Placer.lean ====
section
/-! DEFINITION. The team placer: admission to a core (R155), the creation of groups (R127, R133, R199), the restore of a team
that was switched out (R409), and TEAM_PLACE (R159). -/

namespace Sys2Proof.Machine

/-! ### Admission (R155) -/

/-- The group places that are taken on a core: a team holds those of all its groups until every one has exited (R153). -/
def coreSeats (s : State) (c : CoreId) : List (Nat × Nat) :=
  (s.teams.filter fun t => t.core == c && t.holds).flatMap fun t => t.seats

/-- What the pending ACQ requests of a core ask for (R155). -/
def acqPending (s : State) (c : CoreId) (what : Res) : Nat :=
  (((s.core c).acqs.filter fun a => a.what == what).map (·.amount)).sum

/-- A team of these sizes fits on a core (R155). -/
def coreFits (s : State) (c : CoreId) (groups smem tiles : Nat) : Bool :=
  (coreSeats s c).length + groups ≤ 128 && smem + acqPending s c .smem ≤ freeRes s c .smem &&
    tiles + acqPending s c .tile ≤ freeRes s c .tile

/-- The n lowest free spill windows of a context, fewer when it has not so many (R199). -/
def freeWindows (s : State) (c : Ctx) (n : Nat) : List Nat :=
  let used := (s.groups.filter fun g => g.rank == c.rank && g.ctx == c.id && g.wave.isNone).map (·.win)
  ((upTo (min c.spcount (used.length + n))).filter fun w => !used.contains w).take n

/-- The lane and place that a group takes: the lane with the most free places, the lowest on ties (R127, R147). -/
def takePlace (s : State) (c : CoreId) : Nat × Nat :=
  let taken := coreSeats s c
  let n (l : Nat) : Nat := (taken.filter fun x => x.1 == l).length
  let l := ((upTo 32).foldl (fun best l => match best with
    | none => some l
    | some b => if n l < n b then some l else some b) none).getD 0
  (l, ((upTo 4).find? fun p => !taken.contains (l, p)).getD 0)

/-- A team takes places on its core for n groups more, in increasing group number (R147). -/
def seatTeam (c : CoreId) (tid : Nat) : Nat → State → State
  | 0, s => s
  | n + 1, s =>
    let x := takePlace s c
    seatTeam c tid n (s.modTeam tid fun t => { t with seats := t.seats ++ [x] })

/-- The lane and place of a team's group. -/
def Team.seat (t : Team) (num : Nat) : Nat × Nat := t.seats.getD num (0, 0)

/-- The lane of a core has issue opportunities from now on. -/
def oweLane (s : State) (c : CoreId) (l : Nat) : State := s.oweOnce (.lane c l)

/-! ### Creation (R133) -/

/-- A group at its creation (R17, R29, R133, R199). Its pick time counts from its creation (log 56), and the 57 bits of SPBASE
stand for the canonical address that they are the low bits of (log 64). -/
def newGroup (gr : Grid) (t : Team) (cx : Ctx) (c : CoreId) (gid num win lane place : Nat) : Group :=
  let th (i : Nat) : Thread :=
    { Thread.zero with s0 := gr.seed ^^^ BitVec.ofNat 64 (gthread gr t num i), s1 := ~~~gr.seed }
  { gid := gid, rank := t.rank, ctx := gr.ctx, grid := gr.id, tid := t.tid, num := num, win := win
    wspb := sext57 cx.spbase + BitVec.ofNat 64 (win * cx.spstride + 2 ^ 21)
    core := c, lane := lane, place := place, wave := none
    threads := Vector.ofFn fun i => th i.val
    k := (((Vector.replicate 32 0).setIfInBounds 0 gr.args).setIfInBounds 1 (BitVec.ofNat 64 (gr.nx + gr.ny * 2 ^ 32))).setIfInBounds 2
      (BitVec.ofNat 64 (gr.nz + gr.groups * 2 ^ 32))
    kbusy := 0, q := 0, t := Vector.replicate 16 0, nbv := gr.nbv, srwq := [], exited := 0
    frags := (Vector.replicate 8 none).setIfInBounds 0 (some (Frag.at 0xFFFF gr.entry 31)), recs := Vector.replicate 16 none
    spilled := [], sinceExch := 0, jaddr := 0, jmask := 0, jpc := JoinPc.zero, reps := Reps.zero
    seen := (upTo 32).foldl (fun m b => if (t.bar b).phase then m ||| BitVec.ofNat 32 (2 ^ b) else m) 0
    gtime := 0, timer := 0, deadline := 0, arithen := 0, rseq := 0, rstpt := 0, rstseq := 0, level := 0, flights := []
    nextSeq := 0, eng := Vector.replicate 7 ⟨0, false, []⟩, trap := TrapState.zero, stopped := false, lastPick := 0, stalled := false, budget := 0 }

/-- The groups of a team created in increasing number, each in the lowest free window (R155, R199). -/
def createGroups (gr : Grid) (t : Team) (cx : Ctx) (c : CoreId) : State → List (Nat × Nat) → State
  | s, [] => s
  | s, (num, win) :: r =>
    let (gid, s) := s.gensym
    let (l, p) := ((s.team? t.tid).getD t).seat num
    let s := { s with groups := s.groups ++ [newGroup gr t cx c gid num win l p] }
    let s := s.modTeam t.tid fun t => { t with gids := t.gids ++ [gid], wins := t.wins ++ [win] }
    createGroups gr t cx c (oweLane s c l) r

/-- A new team placed on a core: it becomes resident, and the grid's next team is dealt (R158, R159). -/
def placeNew (s : State) (gr : Grid) (t : Team) (cx : Ctx) (c : CoreId) (wins : List Nat) : State :=
  let (n, s) := s.gensym
  let s := s.modTeam t.tid fun t => { t with st := .resident, core := c, placed := n, seats := [] }
  dealTeam (createGroups gr t cx c (seatTeam c t.tid gr.groups s) ((upTo gr.groups).zip wins)) gr.id

/-! ### Restore (R409, R411, R413) -/

/-- The groups of a restored team take their places on its core. -/
def seatGroups (c : CoreId) (t : Team) : State → List Group → State
  | s, [] => s
  | s, g :: r =>
    let x := ((s.team? t.tid).getD t).seat g.num
    seatGroups c t (oweLane (s.modGroup g.gid fun g => { g with core := c, lane := x.1, place := x.2 }) c x.1) r

/-- The slots of a WAITC that have no reply and no monitor at any slice. -/
def orphanSlots (s : State) (g : Group) (f : Flight) : List Nat :=
  f.accessSlots.filter fun slot => f.got.getD slot .pending == .pending &&
    s.pkgs.all fun p => p.slices.all fun q =>
      q.2.monitors.all fun m => !(m.req.gid == g.gid && m.req.seq == f.seq && m.req.slot == slot)

/-- A WAITC whose entry was reclaimed is answered SPURIOUS, reason 1, with the word as it is (R294, R409). -/
def spurious (s : State) (g : Group) (f : Flight) (slot : Nat) : State :=
  let va := (f.addrs.getD slot 0).toNat
  let (s, w) : State × Word := match xlate s g.rank g.core.die g.ctx va .read with
    | (s, .error _) => (s, 0)
    | (s, .ok h) =>
      let (s, w, _) := wordAt s h g.ctx va
      (s, w)
  deliver s g.gid f.seq slot (.words [BitVec.ofNat 32 (stSpurious + 16), w])

/-- Step 2 of the restore for one group: the held replies of its monitors, and those of entries reclaimed (R409, R411). -/
def restoreMonitors (s : State) (g : Group) : State :=
  let s := s.pkgs.foldl (fun s p => p.slices.foldl (fun s q =>
    ((q.2.monitors.filter fun m => m.req.gid == g.gid).sortLe fun a b => a.entry ≤ b.entry).foldl (fun s m =>
      match m.st with
      | .armed => s
      | .replied => s
      | .fired st reason v => answerMonitor s ⟨p.rank, q.1⟩ m st reason v) s) s) s
  (g.flights.filter fun f => f.kind == .waitc && !f.done).foldl (fun s f =>
    (orphanSlots s g f).foldl (fun s slot => spurious s g f slot) s) s

/-- A completion held while the team was out reaches its group, with its trap (R413). -/
def applyRecord (s : State) (t : Team) (op : Nat) (v : DWord) (trap : Option Nat) : State :=
  match (teamGroups s t).find? fun g => g.flights.any fun f => f.kind == .engine && f.op == op && !f.done with
  | none => s
  | some g =>
    match g.flights.find? fun f => f.kind == .engine && f.op == op && !f.done with
    | none => s
    | some f =>
      let step := bitsOf f.word.toNat 24 8 == 0xB9
      let st := if step then stOk else bitsOf v.toNat 0 4
      replayTrap (landRecord s g.gid f.seq (bitsOf f.word.toNat 12 4) ((wordKind f.word).getD 7) st v) g.gid trap

/-- Engine events and records held while the team was out are applied in their one order (R409, R413). -/
def applyHeld (s : State) (t : Team) : State :=
  let s := s.modTeam t.tid fun t => { t with held := [], doneRecs := [], rejoined := [] }
  let s := { s with ops := modWhere (fun o => o.tid == t.tid) (fun o => { o with detached := false }) s.ops }
  t.held.foldl (fun s h => match h.2 with
    | .bar b ev => barEvent s t.tid b ev
    | .record v trap => applyRecord s t h.1 v trap) s

/-- A deadline that passed while the team was out becomes pending (R409, R415). -/
def lateDeadline (s : State) (g : Group) : State :=
  if g.deadline != 0 && g.deadline ≤ s.cyc then pendTrap (s.modGroup g.gid fun g => { g with deadline := 0 }) g.gid 12 ⟨0, 0, 0⟩
  else s

/-- The addresses and sizes of a team's records, its groups' first (R409, R410). -/
def recordsOf (s : State) (t : Team) (ctx : Nat) : List (Nat × Nat) :=
  let tv := tsaveVa s t ctx
  ((teamGroups s t).map fun g => (csaveVa s g, 2 ^ 14)) ++
    [(tv, 0x110), (wrap64 (tv + 0x40000), 16384 * t.tiles), (wrap64 (tv + 0x80000), 4096 * t.holding)]

/-- A group restored from its record; one that was FAULTED stays as it was (R402, R409). -/
def restoreGroup (s : State) (gm : Group × List PByte) : State :=
  s.modGroup gm.1.gid fun g =>
    let g := if g.trap.faulted then g else g.restore gm.2
    { g with stopped := true }

/-- Step 4 of the restore: the handler group takes class 15 while the others wait for its RETI (R409). -/
def restoreHandler (s : State) (t : Team) : State :=
  match handlerOf s t with
  | some g => pendTrap (s.modGroup g.gid fun g => { g with stopped := false }) g.gid 15 ⟨0, 0, 0⟩
  | none => { s with groups := modWhere (fun g => g.tid == t.tid) (fun g => { g with stopped := false }) s.groups }

/-- A team that was switched out is placed on a core again (R409): none while its records cannot be read. -/
def placeBack (s : State) (gr : Grid) (t : Team) (c : CoreId) : Option State :=
  let gs := teamGroups s t
  match readAll s c.rank c.die gr.ctx (recordsOf s t gr.ctx) with
  | (_, none) => none
  | (s, some l) =>
    let (n, s) := s.gensym
    let k := gs.length
    let s := (gs.zip l).foldl restoreGroup s
    let s := s.modTeam t.tid fun t =>
      { t.restore (l.getD k []) (l.getD (k + 1) []) (l.getD (k + 2) []) with st := .resident, core := c, placed := n, seats := [] }
    let s := seatGroups c t (seatTeam c t.tid gr.groups s) gs
    let s := (teamGroups s t).foldl restoreMonitors s
    let s := applyHeld s t
    let s := (teamGroups s t).foldl lateDeadline s
    some (restoreHandler s t)

/-! ### TEAM_PLACE (R159) -/

/-- The teams that a die's placer holds, in the order of R158: by priority, then by when their grid became eligible, then by
index. -/
def placing (s : State) (rank die : Nat) : List (Grid × Team) :=
  let l := (s.teams.filter fun t => t.rank == rank && t.die == die && (t.st == .waiting || t.st == .out)).filterMap fun t =>
    (s.grid? t.grid).bind fun g => if (s.ctx? g.rank g.ctx).any (·.fenced) then none else some (g, t)
  let ix (x : Grid × Team) : Nat := x.2.x + x.1.nx * (x.2.y + x.1.ny * x.2.z)
  l.sortLe fun a b =>
    b.1.priority < a.1.priority || (a.1.priority == b.1.priority &&
      (a.1.since < b.1.since || (a.1.since == b.1.since && ix a ≤ ix b)))

/-- The first core of the rectangle that a team fits on (R159). -/
def firstCore (s : State) (g : Grid) (t : Team) : Option CoreId :=
  (rectCores g t.die).find? fun c => coreFits s c g.groups t.holding t.tiles

/-- A resident team that may be switched out for a team of this grid: of a lower priority, in its rectangle on that die, and
not stopped for good (R160, R409). -/
def victims (s : State) (g : Grid) (die : Nat) : List (Nat × Team) :=
  s.teams.filterMap fun t =>
    if t.st == .resident && (rectCores g die).contains t.core && (teamGroups s t).any fun x => !x.stopped then
      (s.grid? t.grid).bind fun v => if v.priority < g.priority then some (v.priority, t) else none
    else none

/-- What the placer does with a team: it places it, or the team waits, for windows alone or for a core. -/
inductive Placing where
  | placed (s : State)
  | waits
  | noCore

/-- A team tried (R155, R159). -/
def tryPlace (s : State) (g : Grid) (t : Team) : Placing :=
  match s.ctx? g.rank g.ctx with
  | none => .waits
  | some cx =>
    if t.st == .out then
      match firstCore s g t with
      | none => .noCore
      | some c => match placeBack s g t c with
        | some s => .placed s
        | none => .waits
    else
      let wins := freeWindows s cx g.groups
      if wins.length < g.groups then .waits
      else match firstCore s g t with
        | none => .noCore
        | some c => .placed (placeNew s g t cx c wins)

/-- The teams tried in order: the first that fits is placed; one that waits holds back the later teams of its own grid
(R159), and one that a switch will make room for keeps teams that were switched out from taking it (log 42). The priority
above which a switch is due comes back with the state. -/
def placeFirst (s : State) : List (Grid × Team) → List Nat → Option Nat → Option State × Option Nat
  | [], _, want => (none, want)
  | (g, t) :: r, held, want =>
    if held.contains g.id || (t.st == .out && want.any fun p => g.priority < p) then placeFirst s r held want
    else
      match tryPlace s g t with
      | .placed s => (some s, want)
      | .waits => placeFirst s r (g.id :: held) want
      | .noCore =>
        placeFirst s r (g.id :: held) (if want.isNone && !(victims s g t.die).isEmpty then some g.priority else want)

/-- TEAM_PLACE (R159): one team of the die is placed; a pre-emption is asked for when one of higher priority fits nowhere
(R160). -/
def execTeamPlace (rank die : Nat) (s : State) : Outcome :=
  let (s', want) := placeFirst s (placing s rank die) [] none
  let s := s'.getD s
  let s := if want.isSome then s.oweOnce (.event (.preemptRequest rank)) else s
  .next (if (placing s rank die).isEmpty then s else s.oweOnce (.event (.teamPlace rank die)))

end Sys2Proof.Machine
end

