-- ==== Sys2Proof/Machine/Preempt.lean ====
section
/-! DEFINITION. Pre-emption: the choice of the team that is switched out (R160), and the steps of the switch (R409). -/

namespace Sys2Proof.Machine

/-! ### Step 1: the groups stop -/

/-- A group stops at a boundary: its blocking words are abandoned (R400, R409). -/
def stopGroup (s : State) (g : Group) : State :=
  (abandonWaits s g).modGroup g.gid fun g =>
    { g with stopped := true, frags := g.frags.map fun f => f.map Frag.abandon, spilled := g.spilled.map SpillNote.abandon }

/-- The groups of the team that are not in trap mode stop (R409 step 1). -/
def stopGroups (s : State) (t : Team) : State :=
  ((teamGroups s t).filter fun g => !g.stopped && !g.trap.faulted && !g.trap.tmode && !g.latched).foldl stopGroup s

/-- Every group has stopped or is FAULTED. -/
def allStopped (s : State) (t : Team) : Bool := (teamGroups s t).all fun g => g.stopped || g.trap.faulted

/-! ### Step 2: what the core lets complete -/

/-- A WAITC all of whose slots without a reply are held in monitor entries: it counts as Armed (R409 step 2). -/
def armedWaitc (s : State) (g : Group) (f : Flight) : Bool :=
  f.kind == .waitc && (orphanSlots s g f).isEmpty && f.accessSlots.any fun slot => f.got.getD slot .pending == .pending

/-- A word on path 0, 1, 2, 5 or 6 that the switch waits for (R409 step 2). -/
def mustLand (s : State) (g : Group) (f : Flight) : Bool :=
  [0, 1, 2, 5, 6].contains f.path && !f.done && !armedWaitc s g f

/-- The team's write-combining lines drain, and its operand latches are released (R409 step 2). -/
def drainTeam (s : State) (t : Team) : State :=
  (drainLines s t.core fun l => l.last.any fun e => t.gids.contains e.1).modCore t.core fun c =>
    { c with latches := c.latches.filter fun l => !t.gids.contains l.gid }

/-- Every word has landed and every matrix entry of the team is complete (R409 step 2). -/
def teamQuiet (s : State) (t : Team) : Bool :=
  ((teamGroups s t).all fun g => !(g.flights.any (mustLand s g))) && !((s.core t.core).fifo.any fun e => e.tid == t.tid)

/-! ### Step 5: the save -/

/-- A fault record of a context save waits for system software (R227, R409). -/
def saveParked (s : State) (t : Team) : Bool :=
  match s.pkg? t.rank with
  | none => false
  | some p =>
    let d := p.die t.core.die
    let hit (r : FaultRec) : Bool := r.engine == 8 && r.optag == t.tid % 2 ^ 32 && !r.wdrn
    (d.faults.any fun r => hit r.2) || d.unrecorded.any hit

/-- SEQ of the context's group-table entries that the device holds, as writes to the table (R316). -/
def seqWrites (s : State) (rank ctx : Nat) : List (Nat × List PByte) :=
  (((s.pkg? rank).map fun p => p.gt.filter fun e => e.1.1 == ctx).getD []).map fun e =>
    (wrap64 (gtAddr s rank ctx e.1.2 + 0x84), sound (bytesLE 4 e.2.seq))

/-- The writes of a save: the group records, the team record, and the SEQs that the device keeps (R316, R409, R410). -/
def saveWrites (s : State) (t : Team) (ctx : Nat) : List (Nat × List PByte) :=
  ((teamGroups s t).map fun g => (csaveVa s g, g.record)) ++
    (t.record.map fun w => (wrap64 (tsaveVa s t ctx + w.1), w.2)) ++ seqWrites s t.rank ctx

/-- The team's lines of the spill buffer, as writes (R201). -/
def spillWrites (s : State) (t : Team) : List (Nat × List PByte) :=
  ((s.core t.core).spill.filter fun l => t.gids.contains l.gid && l.dirty).map fun l => (l.va, l.pbytes)

/-- The core of a team that is saved is free (R409 step 5). -/
def freeCore (s : State) (t : Team) : State :=
  let s := s.modCore t.core fun c => { c with spill := c.spill.filter fun l => !t.gids.contains l.gid }
  (s.modTeam t.tid fun t => { t with st := .out }).owe
    (.event (.acqGrant t.core) :: (upTo 4).map fun d => .event (.teamPlace t.rank d))

/-- The records are written and the core freed; a translation fault posts a record of ENGINE 8 and stalls the switch
(R227, R409 step 5). -/
def saveTeam (s : State) (t : Team) : State :=
  match (teamGroups s t).head?, s.grid? t.grid with
  | some _, some gr =>
    if saveParked s t then s
    else
      match writeAll t.core.rank t.core.die gr.ctx s (saveWrites s t gr.ctx ++ spillWrites s t) with
      | .ok s => freeCore s t
      | .fault s f =>
        postFault s t.rank t.core.die ⟨bitsOf f.1 0 57, f.2.cause, f.2.level, false, 1, 8, gr.ctx, t.tid % 2 ^ 32⟩
      | .wait s => s
  | _, _ => s

/-! ### The steps of a switch -/

/-- Steps 1 to 3 (R409): once every group has stopped and every word has landed, the handler group takes class 14; with none,
the team is saved when its operations have completed. -/
def stopStep (s : State) (t : Team) : State :=
  let s := stopGroups s t
  if !allStopped s t then s
  else
    let s := drainTeam s t
    if !teamQuiet s t then s
    else
      match handlerOf s t with
      | some g =>
        let s := s.modTeam t.tid fun t => { t with st := .saving }
        let s := { s with groups := modWhere (fun g => g.tid == t.tid) (fun g => { g with stopped := true }) s.groups }
        pendTrap (s.modGroup g.gid fun g => { g with stopped := false }) g.gid 14 ⟨0, 0, 0⟩
      | none => if (teamOps s t.tid).isEmpty then saveTeam s t else s

/-- Steps 4 and 5 (R409): a handler that became FAULTED gives way to the next group; once it has halted, the team is saved. -/
def saveStep (s : State) (t : Team) : State :=
  if (teamGroups s t).any fun g => g.trap.faulted && !g.stopped then
    { s.modTeam t.tid fun t => { t with st := .stopping } with
      groups := modWhere (fun g => g.tid == t.tid) (fun g => { g with stopped := true }) s.groups }
  else if !teamHalted s t then s
  else
    let s := drainTeam s t
    if teamQuiet s t then saveTeam s t else s

/-- The team of a package that is being switched out; one switch is made at a time. -/
def switching (s : State) (rank : Nat) : Option Team :=
  s.teams.find? fun t => t.rank == rank && (t.st == .stopping || t.st == .saving)

/-- The team to switch out: for the first waiting team that no core takes, the resident team of the lowest lower priority in
its rectangle, the most recently placed (R160). -/
def nextVictim (s : State) (rank : Nat) : Option Team :=
  let wants := (upTo 4).flatMap fun d => (placing s rank d).filter fun x => (firstCore s x.1 x.2).isNone
  wants.findSome? fun x =>
    ((victims s x.1 x.2.die).foldl (fun (best : Option (Nat × Team)) v => match best with
      | none => some v
      | some b => if v.1 < b.1 || (v.1 == b.1 && b.2.placed < v.2.placed) then some v else some b) none).map (·.2)

/-- PREEMPT_REQUEST (R160, R409): a switch under way takes its next step, or the next team begins to stop. -/
def execPreemptRequest (rank : Nat) (s : State) : Outcome :=
  .next (match switching s rank with
    | some t =>
      let s := if t.st == .stopping then stopStep s t else saveStep s t
      if (switching s rank).isSome then s.oweOnce (.event (.preemptRequest rank)) else s
    | none =>
      match nextVictim s rank with
      | none => s
      | some t => (s.modTeam t.tid fun t => { t with st := .stopping }).oweOnce (.event (.preemptRequest rank)))

end Sys2Proof.Machine
end

