-- ==== Sys2Proof/Machine/Discard.lean ====
section
/-! DEFINITION. What is left of a context, or of a whole package, when its work is discarded: at a fence (R460), at the
destruction of a context (R296, R409), at a loss of supply (R282) and at a start (R452). -/

namespace Sys2Proof.Machine

/-- A slice without the requests that satisfy `gone`: those in its queue, its windows, its monitors and its pending calls. -/
def dropRequests (gone : Req → Bool) (q : Slice) : Slice :=
  let keep (r : Req) : Bool := !gone r
  { q with
    queue := q.queue.filter keep
    windows := (q.windows.map fun w => { w with entries := w.entries.filter keep }).filter fun w => !w.entries.isEmpty
    monitors := q.monitors.filter fun m => keep m.req
    calls := q.calls.filter keep, runs := (q.runs.map fun r => r.filter keep).filter fun r => !r.isEmpty
    wave := q.wave.filter fun w => w.calls.any keep }

/-- A core without what the groups of some identities and the teams of others hold in it. -/
def Core.without (c : Core) (gids tids : List Nat) (ctx : Nat) : Core :=
  { c with
    fifo := c.fifo.filter fun e => !tids.contains e.tid, latches := c.latches.filter fun l => !gids.contains l.gid
    wcb := c.wcb.filter fun l => l.ctx != ctx, spill := c.spill.filter fun l => l.ctx != ctx
    acqs := c.acqs.filter fun a => !tids.contains a.tid }

/-- The agents of a context at a package are gone: its groups and combiner waves, its teams, its operations with their
records and barrier events, its lines and requests, and its monitor entries, those that its groups hold at peers too (R296,
R460). -/
def discardCtx (s : State) (rank ctx : Nat) : State :=
  let gs := s.groups.filter fun g => g.rank == rank && g.ctx == ctx
  let gids := gs.map (·.gid)
  let grids := (s.grids.filter fun g => g.rank == rank && g.ctx == ctx).map (·.id)
  let tids := (s.teams.filter fun t => grids.contains t.grid).map (·.tid)
  let s := { s with
    groups := s.groups.filter fun g => !gids.contains g.gid
    teams := s.teams.filter fun t => !tids.contains t.tid
    cores := modWhere (fun c => c.id.rank == rank) (fun c => c.without gids tids ctx) s.cores
    ops := s.ops.filter fun o => !(o.rank == rank && o.ctx == ctx)
    sliceWaits := s.sliceWaits.filter fun w => !gids.contains w.gid
    fab := { s.fab with
      reqs := s.fab.reqs.filter fun r => !gids.contains r.req.gid
      xfers := s.fab.xfers.filter fun x => !(x.src == rank && x.ctx == ctx) } }
  let mine (home : Nat) (r : Req) : Bool := gids.contains r.gid || (home == rank && r.ctx == ctx)
  { s with pkgs := s.pkgs.map fun p =>
      { p with slices := p.slices.map fun q => (q.1, dropRequests (mine p.rank) q.2)
               rings := if p.rank == rank then p.rings.filter fun r => r.ctx != ctx else p.rings } }

/-- The grids of a context at a package end: the segments of its host grids and the slots of its children are free; with a
status, each host grid retires with it (R206, R445, R460). -/
def endGrids (s : State) (rank ctx : Nat) (status : Option Nat) : State :=
  let gone := s.grids.filter fun g => g.rank == rank && g.ctx == ctx
  let ids := gone.map (·.id)
  let s := { s with grids := s.grids.filter fun g => !ids.contains g.id, segs := s.segs.filter fun x => !ids.contains x.grid }
  let s := s.modPkg rank fun p => { p with children := p.children.filter fun e => !ids.contains e.2.1 }
  match status with
  | none => s
  | some st => gone.foldl (fun s g => match g.desc with
    | some (hdr, daddr) => retireDesc s rank hdr daddr st
    | none => s) s

/-- The queues of a context lose their slots and wait (R460). -/
def unmapQueues (s : State) (rank ctx : Nat) : State :=
  s.modPkg rank fun p =>
    let mine := (p.qslots.filter fun e => e.2.ctx == ctx).map (·.2)
    { p with qslots := p.qslots.filter fun e => e.2.ctx != ctx, qwait := p.qwait ++ mine.filter (hasWork s) }

/-- The work of a package is gone, and its contexts and mapped queues with it: what a start leaves (R452). -/
def clearWork (s : State) (rank : Nat) : State :=
  let ids := (s.grids.filter fun g => g.rank == rank).map (·.id)
  let gids := (s.groups.filter fun g => g.rank == rank).map (·.gid)
  { (s.modPkg rank fun p => { p with qslots := [], qwait := [], children := [], rings := [], slices := [], gt := [], rw := [] }) with
    groups := s.groups.filter fun g => g.rank != rank
    teams := s.teams.filter fun t => t.rank != rank
    cores := s.cores.filter fun c => c.id.rank != rank
    grids := s.grids.filter fun g => !ids.contains g.id
    segs := s.segs.filter fun x => x.rank != rank
    ctxs := s.ctxs.filter fun c => c.rank != rank
    ops := s.ops.filter fun o => o.rank != rank
    sliceWaits := s.sliceWaits.filter fun w => !gids.contains w.gid
    fab := { s.fab with
      reqs := s.fab.reqs.filter fun r => r.src != rank
      xfers := s.fab.xfers.filter fun x => x.src != rank } }

/-- CONTEXT_DESTROY (R296, R409): the context's work, its monitor entries, its methods and table entries, its queues and its
registers are gone, and the cores of its FAULTED teams are free. -/
def execContextDestroy (rank ctx : Nat) (s : State) : Outcome :=
  let s := endGrids (discardCtx s rank ctx) rank ctx none
  let s := s.modPkg rank fun p =>
    { p with
      slices := p.slices.map fun q => (q.1, { q.2 with methods := q.2.methods.filter fun m => m.1.1 != ctx })
      gt := p.gt.filter fun e => e.1.1 != ctx, rw := p.rw.filter fun e => e.1.1 != ctx
      qslots := p.qslots.filter fun e => e.2.ctx != ctx
      qwait := p.qwait.filter fun q => s.hostNum (s.qCtxd q.hdr) 8 % 2 ^ 16 != ctx }
  .next ({ s with ctxs := s.ctxs.filter fun c => !(c.rank == rank && c.id == ctx) }.owe
    ((upTo 4).map fun d => .event (.teamPlace rank d)))

end Sys2Proof.Machine
end

