-- ==== Sys2Proof/Machine/StartUp.lean ====
section
/-! DEFINITION. Loss of supply (R282, R350), the start sequence (R451 to R455), and trimming the tier (R456). -/

namespace Sys2Proof.Machine

/-! ### Loss of supply (R282, R350) -/

/-- A shard rebuild has begun and has not reached REBUILDING (R466). -/
def Start.recovering (x : Start) : Bool := 1 ≤ x.phase && x.phase ≤ 4 && !x.nosnap

/-- The tier after a loss of supply: what had been written to it, and, while a shard rebuild is under way, what it tracked, which is
kept with the start log (R466). -/
def Tier.afterLoss (t : Tier) (keep : Bool) : Tier :=
  { Tier.reset with
    track := keep && t.track, entry := if keep then t.entry else 0, snapv := keep && t.snapv, snapc := if keep then t.snapc else 0
    trackCtx := if keep then t.trackCtx else 0, trackFrom := if keep then t.trackFrom else 0
    view := t.store, store := t.store, units := t.storeUnits, storeUnits := t.storeUnits, parity := t.parity
    free := Config.dataSlots - t.storeUnits.length - t.storePre.length, tags := t.tags, pre := t.storePre
    storePre := t.storePre, debt := t.debt }

/-- What start keeps: the log with the rebuild registers, and its count (R454, R466). -/
def Start.afterLoss (x : Start) : Start :=
  { Start.reset with
    starts := x.starts, log := x.log, imgv := x.imgv, phase := x.phase, rbFail := x.rbFail, lost := x.lost, nospare := x.nospare
    nosnap := x.nosnap, rolls := x.rolls, done := x.done, total := x.total, rebuild := x.rebuild, set := x.set, pos := x.pos
    powered := false }

/-- Parity messages of a package on their way become debt (R350). -/
def oweDebt (s : State) (rank : Nat) : State :=
  let mine := s.fab.parity.filter fun m => m.src == rank && !m.acked
  let s := s.modPkg rank fun p => { p with tier := { p.tier with debt := p.tier.debt ++ mine } }
  { s with fab := { s.fab with parity := s.fab.parity.filter fun m => m.src != rank } }

/-- A package loses its supply: the queues drain to the tier; everything else that it holds is lost (R282, R350). -/
def loseSupply (s : State) (rank : Nat) : State :=
  let s := clearWork (oweDebt (drainQueues s rank) rank) rank
  (s.modPkg rank fun p =>
    { Pkg.reset rank with
      tier := p.tier.afterLoss p.start.recovering, start := p.start.afterLoss, heard := s.cyc }).oweOnce (.event (.lossDetectTimeout rank))

/-- SUPPLY_LOSS (R282, R350). -/
def execSupplyLoss (rank : Nat) (s : State) : Outcome :=
  .next (if (s.pkg? rank).any fun p => p.start.powered then loseSupply s rank else s)

/-! ### The start sequence (R452 to R455) -/

/-- A step that may be skipped (R452). -/
def skippable (step : Nat) : Bool := [6, 7, 8, 9, 11, 12].contains step

/-- An entry found RUNNING counts as FAILED (R455). -/
def StartEntry.found (e : StartEntry) : StartEntry := if e.st == 4 then { e with st := 2, code := 0xFFFFFFFF } else e

/-- The log has the step OK or SKIPPED by the running image set (R453). -/
def Start.mayskip (x : Start) (step : Nat) : Bool :=
  skippable step && !x.full && (x.log.get step).any fun e => (e.st == 1 || e.st == 3) && e.imgv == x.imgv

/-- The variant that a step's first attempt uses: the next one after a failure of an earlier start (R453, R455). -/
def Start.variant (x : Start) (step : Nat) : Nat :=
  match x.log.get step with
  | none => 0
  | some e => if e.found.st == 2 then e.variant + 1 else 0

/-- A log entry written (R454). Its duration and its results are values of the package (log 2). -/
def logStep (s : State) (rank step st attempt variant code : Nat) : State :=
  let (d, s) := s.freeWord
  let (r, s) := s.freeWord
  s.modPkg rank fun p =>
    let e : StartEntry :=
      { step := step, st := st, attempt := attempt, variant := variant, code := code, start := p.start.starts
        imgv := p.start.imgv, duration := d.toNat
        param := if 3 ≤ st then ((p.start.log.get step).map (·.param)).getD 0 else r.toNat }
    { p with start := { p.start with log := p.start.log.put step e } }

/-- What the attempts at a step come to. -/
inductive StepOut where
  | passed (s : State) (left : List Attempt)
  | stopped (s : State)

/-- Attempts at a step in one start: three, but two at the steps that repeat once (R452, R453; log 43). -/
def maxAttempts (step : Nat) : Nat := if step == 1 || step == 10 then 2 else 3

/-- A step that fails for the last time stops the sequence (R453). -/
def failStart (s : State) (rank step code : Nat) : State :=
  s.modPkg rank fun p => { p with start := { p.start with step := step, fail := true, code := code % 256 } }

/-- After a failure of step 3 the log counts as empty, but for what this start has written (R452, R455). -/
def Start.forget (x : Start) : Start := { x with log := x.log.filter fun e => e.2.start == x.starts }

/-- The attempts at a step (R453, R455): its entry is RUNNING while it acts. With no more results given, an attempt passes. -/
def attemptStep (rank step : Nat) : Nat → State → Nat → Nat → List Attempt → StepOut
  | 0, s, _, _, _ => .stopped s
  | fuel + 1, s, n, variant, found =>
    let s := logStep s rank step 4 n variant 0
    match found with
    | .failed code :: r =>
      let s := logStep s rank step 2 n variant code
      let s := if step == 3 then s.modPkg rank fun p => { p with start := p.start.forget } else s
      if maxAttempts step ≤ n then .stopped (failStart s rank step code)
      else attemptStep rank step fuel s (n + 1) (variant + 1) r
    | .supplyLost :: _ => .stopped (loseSupply s rank)
    | .ok :: r => .passed (logStep s rank step 1 n variant 0) r
    | .checkFailed :: r => .passed (logStep s rank step 1 n variant 0) r
    | [] => .passed (logStep s rank step 1 n variant 0) []

/-- One step: skipped when its log entry and a short check allow it, else attempted in full (R453). -/
def runStep (s : State) (rank step : Nat) (found : List Attempt) : StepOut :=
  match s.pkg? rank with
  | none => .stopped s
  | some p =>
    let s := s.modPkg rank fun p => { p with start := { p.start with step := step } }
    let v := p.start.variant step
    if p.start.mayskip step then
      match found with
      | .checkFailed :: r => attemptStep rank step 3 s 1 v r
      | .supplyLost :: _ => .stopped (loseSupply s rank)
      | _ => .passed (logStep s rank step 3 1 (((p.start.log.get step).map (·.variant)).getD 0) 0) found
    else attemptStep rank step 3 s 1 v found

/-- An image that is run is extended into a measurement register (R448): its digest is a value of the package (log 4), and
step 2 measures into MEAS0, step 5 into MEAS1 (log 4). -/
def measure (s : State) (rank i : Nat) : State :=
  let (d, s) := s.freeWord
  s.modPkg rank fun p =>
    { p with meas := p.meas.mapIdx fun j m => if j == i then Config.sha512 (m ++ Config.sha512 (wordBytes d)) else m }

/-- What a step that has passed leaves behind (R448). -/
def stepEffect (s : State) (rank step : Nat) : State :=
  if step == 2 then measure s rank 0 else if step == 5 then measure s rank 1 else s

/-- Steps in order, each once the one before has ended OK or SKIPPED (R452). -/
def runSteps (rank : Nat) : State → List Nat → List Attempt → StepOut
  | s, [], found => .passed s found
  | s, step :: r, found =>
    match runStep s rank step found with
    | .stopped s => .stopped s
    | .passed s found => runSteps rank (stepEffect s rank step) r found

/-- Steps 1 to 12; then step 13 waits for DOMGO (R452). Steps 1 to 3 are logged at step 3: a start that does not pass it leaves the log
as it was (R455). -/
def startSequence (s : State) (rank : Nat) (found : List Attempt) : State :=
  let log := ((s.pkg? rank).map (·.start.log)).getD []
  match runSteps rank s [1, 2, 3] found with
  | .stopped s => s.modPkg rank fun p => { p with start := { p.start with log := log } }
  | .passed s found =>
    match runSteps rank s ((upTo 9).map (· + 4)) found with
    | .stopped s => s
    | .passed s _ => s.modPkg rank fun p => { p with start := { p.start with step := 13 } }

/-- A start begins: the count goes up, and the contexts and queues are gone (R451, R452). What the package tracks is kept for a shard
rebuild under way alone (R466). -/
def beginStart (s : State) (rank : Nat) (warm : Bool) : State :=
  (clearWork s rank).modPkg rank fun p =>
    let keep := p.start.recovering
    { p with
      start := { p.start with step := 1, fail := false, code := 0, warm := warm, starts := (p.start.starts + 1) % 2 ^ 32
                              powered := true, joined := false }
      tier := { p.tier with pstep := 0, track := keep && p.tier.track, entry := if keep then p.tier.entry else 0, roll := false
                            snapv := keep && p.tier.snapv, snapc := if keep then p.tier.snapc else 0, reached := [], announced := 0
                            arrived := Vector.replicate 4 0 } }

/-- SUPPLY_ON (R452): power-up begins the sequence. A rank that no package of the domain has is that of a further package
(log 6). -/
def execSupplyOn (rank : Nat) (found : List Attempt) (s : State) : Outcome :=
  let s := if (s.pkg? rank).isSome then s else { s with pkgs := s.pkgs ++ [Pkg.reset rank] }
  .next (startSequence (beginStart s rank false) rank found)

/-- START_RESTART (R451, R453): the sequence begins again at step 1; WARM says that supply was kept since READY. -/
def execStartRestart (rank : Nat) (found : List Attempt) (s : State) : Outcome :=
  .next (match s.pkg? rank with
    | none => s
    | some p =>
      if !p.start.powered then s
      else startSequence (beginStart s rank (p.start.step == 15 || p.start.warm)) rank found)

/-- What joins the thaw-token ring with a package: its ports and its routing stage, and its level 1 switches (R430). -/
def ringNodes (rank : Nat) : List NodeId :=
  (upTo 37).map (fun q => NodeId.port rank q) ++ (upTo 36).map fun p => NodeId.col1 p (Config.l1Of rank)

/-- The level 2 switches of every plane, which are in the ring from the first start on, the token's home first (R430). -/
def ringSwitches : List NodeId :=
  tokenHome :: ((upTo 36).flatMap fun p => (upTo (Config.l2More + 1)).map fun j => NodeId.col2 p j).filter (· != tokenHome)

/-- The package takes its rank, set, position and spare role, and its ports join the thaw-token ring (R430, R452). A rank
that another package holds is not taken (log 43). -/
def joinDomain (s : State) (p : Pkg) : State :=
  let r := if s.pkgs.any fun q => q.rank == p.start.rank && q.rank != p.rank then p.rank else p.start.rank
  let s := s.modPkg p.rank fun q => { q with rank := r, start := { q.start with rank := r, joined := true } }
  let old := if s.fab.ring.isEmpty then ringSwitches else s.fab.ring
  let ring := old ++ (ringNodes r).filter fun n => !old.contains n
  let s := { s with fab := { s.fab with ring := ring } }
  if s.fab.token.isSome then s
  else
    { s with fab := { s.fab with token := some tokenHome, seen := s.cyc } }.owe
      [.event (.thawTokenArrive tokenHome), .event .thawTokenReissue]

/-- The lines that an owed delta protects are poison: their stripe still fails (R340, R452). -/
def poisonDebt (s : State) (rank : Nat) (m : ParityMsg) : State :=
  match (s.pkg? rank).bind fun p => p.tier.unitOf m.slot with
  | none => s
  | some u => ((m.delta.map fun x => 4096 * u + x.1 / 256 * 256).dedup).foldl (fun s line => poisonLine s rank line) s

/-- Step 14 (R350, R452): the parity deltas that the package owes are sent, and the list is clear. A delta whose holder has no
supply waits on its way until the holder has it again, so that the stripe's parity is made consistent then (R282; log 51); when the
step has been repeated, it is given up, and its lines are poison. -/
def payDebt (s : State) (rank : Nat) (repeated : Bool) : State :=
  let debt := ((s.pkg? rank).map fun p => p.tier.debt).getD []
  let s := s.modPkg rank fun p => { p with tier := { p.tier with debt := [] } }
  let lost := debt.filter fun m => repeated && (parityHolder s m).isNone
  let sent := debt.filter fun m => !(repeated && (parityHolder s m).isNone)
  let s := lost.foldl (fun s m => poisonDebt s rank m) s
  let s := { s with fab := { s.fab with parity := s.fab.parity ++ sent } }
  sent.foldl sendDelta s

/-- A shard rebuild that a loss of supply interrupted goes on: it restarts at FENCE, or the spare rebuilds on (R466). -/
def resumeRecovery (s : State) (rank : Nat) : State :=
  match s.pkg? rank with
  | none => s
  | some p =>
    if p.start.recovering then s.owe [.event (.lossReportArrive rank p.start.lost)]
    else if p.start.phase == 5 && !p.start.rebuild.isEmpty then s.owe [.event (.rebuildUnit rank)]
    else s

/-- READY (R452): no queue is mapped, and every context register is zero. -/
def ready (s : State) (rank : Nat) : State :=
  resumeRecovery ((clearWork s rank).modPkg rank fun p => { p with start := { p.start with step := 15 } }) rank

/-- The attempts that the last run of a step took, by the log. -/
def attemptsAt (s : State) (rank step : Nat) : Nat := (((s.pkg? rank).bind fun p => p.start.log.get step).map (·.attempt)).getD 0

/-- DOMAIN_GO (R451, R452): steps 13 and 14, then READY. Outside step 13 DOMGO has no effect. -/
def execDomainGo (rank : Nat) (found : List Attempt) (s : State) : Outcome :=
  .next (match s.pkg? rank with
    | none => s
    | some p =>
      if p.start.step != 13 || p.start.fail || !p.start.powered then s
      else
        match runStep s rank 13 found with
        | .stopped s => s
        | .passed s found =>
          match s.pkg? rank with
          | none => s
          | some p =>
            let s := joinDomain s p
            let rank := ((s.pkgs.find? fun q => q.start.step == 13 && q.start.joined).map (·.rank)).getD rank
            match runStep s rank 14 found with
            | .stopped s => s
            | .passed s _ => ready (payDebt s rank (1 < attemptsAt s rank 14)) rank)

/-! ### Trimming the tier (R456) -/

/-- TRIM_GO (R456): a GO while BUSY is ignored; ERR is set while Firn tracks, or for a range beyond the tier. -/
def execTrimGo (rank : Nat) (s : State) : Outcome :=
  .next (match s.pkg? rank with
    | none => s
    | some p =>
      if p.start.trimBusy then s
      else if p.tier.track || 2 ^ 42 < p.start.trimaddr + 4096 * p.start.trimlen then
        s.modPkg rank fun p => { p with start := { p.start with trimErr := true } }
      else
        (s.modPkg rank fun p => { p with start := { p.start with trimBusy := true, trimErr := false } }).owe
          [.event (.trimApply rank)])

/-- TRIM_APPLY (R456): once the range's Moraine entries have drained, its units are unbacked. -/
def execTrimApply (rank : Nat) (s : State) : Outcome :=
  .next (match s.pkg? rank with
    | none => s
    | some p =>
      if !p.start.trimBusy then s
      else
        let lo := p.start.trimaddr / 4096
        let inside (u : Nat) : Bool := lo ≤ u && u < lo + p.start.trimlen
        if p.tier.moraine.toList.any fun q => q.any fun e => e.pre.isNone && inside (e.line / 4096) then s.owe [.event (.trimApply rank)]
        else
          let us := (p.tier.units.map (·.1)).filter inside
          (us.foldl (fun s u => unbackUnit s rank u) s).modPkg rank fun p => { p with start := { p.start with trimBusy := false } })

end Sys2Proof.Machine
end

