-- ==== Sys2Proof/Machine/Loss.lean ====
section
/-! DEFINITION. Losing a package (R459 to R466): detection, the fence, the rollback, the spare that takes the lost rank, and the
rebuild of its shard. -/

namespace Sys2Proof.Machine

/-- The start registers of a package changed. -/
def modStart (s : State) (rank : Nat) (f : Start → Start) : State := s.modPkg rank fun p => { p with start := f p.start }

/-- The package has a context whose Firn tracks an entry that holds a rank (R459). -/
def Pkg.tracks (p : Pkg) (lost : Nat) : Bool := p.tier.track && (trackedMembers p).contains lost

/-- A lost package performs nothing further: its volatile state and its links are gone (R459). What its tier held is kept
only to say which units its shard had (log 44). -/
def dropPackage (s : State) (lost : Nat) : State :=
  (clearWork (oweDebt s lost) lost).modPkg lost fun p =>
    { Pkg.reset lost with
      tier := p.tier.afterLoss p.start.recovering, start := { p.start with powered := false, joined := false }, heard := p.heard }

/-- A rank is lost: every other package of the domain is told (R459). -/
def declareLost (s : State) (lost : Nat) : State :=
  let s := dropPackage s lost
  let told := (s.pkgs.filter fun p => p.rank != lost && p.start.powered).map (·.rank)
  let s := told.foldl (fun s r => match s.pkg? r with
    | none => s
    | some p => if p.tracks lost then modStart s r fun x => { x with phase := 1, lost := lost } else s) s
  s.owe (told.map fun r => .event (.lossReportArrive r lost))

/-- PACKAGE_LOSS_DECLARE (R459): system software writes the rank to RBLOST with GO. -/
def execPackageLossDeclare (rank lost : Nat) (s : State) : Outcome :=
  .next (if (s.pkg? rank).isNone then s
    else declareLost (modStart s rank fun x => { x with rblost := lost }) lost)

/-- No port of the package sends: it has lost its supply, or no link out of it carries flits (R459). -/
def silent (s : State) (rank : Nat) : Bool :=
  match s.pkg? rank with
  | none => false
  | some p => !p.start.powered || (p.start.joined && (upTo 36).all fun q => !(s.link ⟨rank, q, true⟩).up)

/-- LOSS_DETECT_TIMEOUT (R459): the level 1 switches have accepted no flit from the package for 1 ms. -/
def execLossDetectTimeout (lost : Nat) (s : State) : Outcome :=
  .next (if !silent s lost then s
    else if (s.pkg? lost).any fun p => p.heard + 1000 * Config.usec ≤ s.cyc then declareLost s lost
    else s.owe [.event (.lossDetectTimeout lost)])

/-- LOSS_REPORT_ARRIVE (R460): a survivor whose Firn tracks an entry with the lost rank fences that context. -/
def execLossReportArrive (rank lost : Nat) (s : State) : Outcome :=
  .next (match s.pkg? rank with
    | none => s
    | some p =>
      if !p.tracks lost then s
      else
        let ctx := p.tier.trackCtx
        let s := s.modCtx rank ctx fun c => { c with fenced := true }
        let s := endGrids (discardCtx (unmapQueues s rank ctx) rank ctx) rank ctx (some stError)
        (modStart s rank fun x => { x with phase := 2, lost := lost, rbFail := false, nospare := false, nosnap := false }).owe
          [.event (.fenceComplete rank)])

/-! ### Rollback and reassignment (R461, R462) -/

/-- The survivors of a package's tracked entry. -/
def survivors (s : State) (p : Pkg) : List Pkg :=
  (trackedMembers p).filterMap fun r => (s.pkg? r).filter fun q => q.start.powered && r != p.start.lost

/-- The rollback target: the highest SNAPC that a survivor reports with SNAPV = 1 (R461). -/
def rollTarget (s : State) (p : Pkg) : Option Nat :=
  (((survivors s p).filter fun q => q.tier.snapv).map (·.tier.snapc)).max?

/-- A package rolls back to a snapshot (R355, R461). -/
def rollTo (s : State) (rank snap : Nat) : State :=
  rollback (s.modPkg rank fun p => { p with tier := { p.tier with snapc := snap, snapv := true } }) rank

/-- A spare of the domain, in ascending rank order (R462). -/
def findSpare (s : State) : Option Pkg :=
  ((s.pkgs.filter fun p => p.start.spare && p.start.joined && p.start.powered).sortLe fun a b => a.rank ≤ b.rank).head?

/-- A unit of a lost shard from its stripes: the bytes of each line, and whether eight members answered (R339, R464). -/
def shardLine (s : State) (p : Pkg) (slot line : Nat) : List Byte × Bool :=
  let ps := readableOthers s p slot (line % 16 * 256)
  ((upTo 256).map fun i => rebuiltByte s p slot (line % 16 * 256 + i) ps, 8 ≤ ps.length)

/-- A data unit rebuilt into a tier; a line that cannot be is poison (R464, R466). -/
def shardUnit (s : State) (p : Pkg) (t : Tier) (u slot : Nat) : Tier :=
  (upTo 16).foldl (fun t i =>
    let l := 4096 * u + 256 * i
    let (bs, ok) := shardLine s p slot i
    let put (r : Ram) : Ram := if ok then r.write 256 l bs else r.mark 256 l
    { t with view := put t.view, store := put t.store }) t

/-- A pre-image rebuilt from its slot. -/
def shardImage (s : State) (p : Pkg) (x : PreImage) : PreImage :=
  let (bs, ok) := shardLine s p x.slot (x.line % 4096 / 256)
  if ok then { x with bytes := bs } else { x with bad := true }

/-- The slots of stripes that hold data of some member of the set: those whose parity a member may hold. -/
def stripeSlots (s : State) (p : Pkg) : List Nat :=
  ((s.pkgs.filter fun q => q.start.set == p.start.set && q.inSet && q.start.powered).flatMap fun q =>
    q.tier.storeUnits.map (·.2) ++ q.tier.storePre.map (·.slot)).dedup

/-- The parity bytes of a slot that the lost position held, from the data of their stripe (R464). -/
def shardParity (s : State) (p : Pkg) (m : Mem) (slot : Nat) : Mem :=
  match stripeRole slot p.start.pos with
  | 0 => m.writeL (8192 * slot) ((upTo 4096).map fun b => rebuiltByte s p slot b (readableOthers s p slot b))
  | 1 => m.writeL (8192 * slot + 4096) ((upTo 4096).map fun b => rebuiltByte s p slot b (readableOthers s p slot b))
  | _ => m

/-- The parity deltas on their way to live holders arrive, in order, before the stripes are read for a rebuild (R338, R464). -/
def settleParity (s : State) : State :=
  s.fab.parity.foldl (fun s m =>
    if m.acked then s
    else match parityHolder s m with
      | none => s
      | some h =>
        let s := s.modPkg h.rank fun h => { h with tier := { h.tier with parity := applyDelta m h.tier.parity } }
        { s with fab := { s.fab with parity := modWhere (fun x => x.id == m.id) (fun x => { x with acked := true }) s.fab.parity } }.owe
          [.subject .parityAckArrive m.id]) s

/-- The deltas that no live holder took: the parity that the rebuild computes for the lost position holds them already. -/
def absorbParity (s : State) (pos : Nat) : State :=
  let mine (m : ParityMsg) : Bool := m.holder == pos && !m.acked && (parityHolder s m).isNone
  let ids := (s.fab.parity.filter mine).map (·.id)
  { s with fab := { s.fab with parity := modWhere mine (fun m => { m with acked := true }) s.fab.parity } }.owe
    (ids.map fun n => .subject .parityAckArrive n)

/-- The shard of a lost package rebuilt at a package that has taken its position. -/
def rebuiltTier (s : State) (p lost : Pkg) : Tier :=
  let old := lost.tier
  let bare : Tier := { Tier.reset with
    units := old.storeUnits, storeUnits := old.storeUnits, tags := old.tags
    free := Config.dataSlots - old.storeUnits.length - old.storePre.length }
  let t := old.storeUnits.foldl (fun t u => shardUnit s p t u.1 u.2) bare
  let pre := old.storePre.map (shardImage s p)
  { t with pre := pre, storePre := pre, parity := (stripeSlots s p).foldl (shardParity s p) [] }

/-- The slots that the background rebuild still has to write (R464). -/
def shardSlots (s : State) (p lost : Pkg) : List Nat :=
  lost.tier.storeUnits.map (·.2) ++ lost.tier.storePre.map (·.slot) ++
    (stripeSlots s p).filter fun slot => stripeRole slot p.start.pos ≤ 1

/-- The 256 bytes of a group-table entry without a standby rank among its members, with SEQ 0 and the package's rank (R315, R462). -/
def renewedEntry (bs : List Byte) (rank standby : Nat) : List Byte :=
  let bs := bs.set (standby / 8) (bs.getD (standby / 8) 0 &&& ~~~(BitVec.ofNat 8 (2 ^ (standby % 8))))
  overlay (overlay bs 0x80 (bytesLE 2 rank)) 0x84 (bytesLE 4 0)

/-- A package's valid group-table entries in memory are rewritten (R316, R462); one that its context cannot translate is left as it
is (log 44). -/
def renewMemory (s : State) (rank ctx standby : Nat) : State :=
  (upTo 256).foldl (fun s e =>
    let a := gtAddr s rank ctx e
    match devRead s rank 0 ctx a 256 with
    | (s, .ok bs) =>
      if !(gtOf bs).valid then s
      else match gWrite s rank 0 ctx a (sound (renewedEntry bs rank standby)) with
        | (s, .ok ()) => s
        | (s, _) => s
    | (s, _) => s) s

/-- The rank map entry of a rank names the package that was at another rank (R441, R462). -/
def renameRank (s : State) (rank ctx lost standby : Nat) : State :=
  match s.ctx? rank ctx with
  | none => s
  | some c =>
    if c.rankmap == 0 then s else s.hostPut (c.rankmap + 4 * lost) (s.host.mem.bytes.readN (c.rankmap + 4 * standby) 4)

/-- A member's tables after a spare has taken a rank: its standby rank leaves every entry, every SEQ is 0, the rings are closed
and the filters empty (R462). -/
def renewTables (s : State) (rank ctx standby : Nat) : State :=
  let s := (renewMemory s rank ctx standby).modPkg rank fun p =>
    { p with gt := p.gt.map fun e =>
               if e.1.1 == ctx then (e.1, { e.2 with members := e.2.members.filter fun r => r != standby, seq := 0 }) else e
             rings := p.rings.filter fun r => r.ctx != ctx }
  { s with fab := { s.fab with filters := s.fab.filters.filter fun f => f.1.1 != ctx, rounds := s.fab.rounds.filter fun r => r.1.1 != ctx } }

/-- The spare takes the lost rank, its position and its shard, and resumes at the snapshot (R462 to R464). -/
def reassign (s : State) (spare : Pkg) (lost ctx entry snap : Nat) : State :=
  match s.pkg? lost with
  | none => s
  | some gone =>
    let s := absorbParity (settleParity s) gone.start.pos
    let p0 : Pkg :=
      { spare with
        rank := lost
        start := { spare.start with rank := lost, spare := false, set := gone.start.set, pos := gone.start.pos, phase := 5, standby := spare.rank
                                    lost := lost, rolls := snap % 2 ^ 32, nospare := false, nosnap := false }
        gt := spare.gt.map fun e => if e.1.1 == ctx then (e.1, { e.2 with rank := lost }) else e }
    let s := { s with pkgs := modWhere (fun p => p.rank == spare.rank) (fun _ => p0) (s.pkgs.filter fun p => p.rank != lost)
                      ctxs := modWhere (fun c => c.rank == spare.rank) (fun c => { c with rank := lost }) s.ctxs }
    let slots := shardSlots s p0 gone
    let t := rebuiltTier s p0 gone
    let s := s.modPkg lost fun p =>
      { p with tier := { t with trackCtx := ctx, entry := entry, pstep := snap + 1, trackFrom := snap }
               start := { p.start with rebuild := slots, done := 0, total := slots.length, rbFail := !t.store.poison.isEmpty } }
    let s := renewTables (renameRank (rollTo s lost snap) lost ctx lost spare.rank) lost ctx spare.rank
    (announceStep s lost).owe [.event (.rebuildUnit lost)]

/-- The survivor's tables and queues resume (R462, R463). -/
def resumeCtx (s : State) (rank ctx lost : Nat) : State :=
  let standby := ((s.pkg? lost).map (·.start.standby)).getD lost
  let s := renewTables (renameRank s rank ctx lost standby) rank ctx standby
  let s := announceStep (s.modCtx rank ctx fun c => { c with fenced := false }) rank
  let failed := (s.pkg? lost).any fun p => p.start.rbFail
  (modStart s rank fun x => { x with phase := 5, nospare := false, rbFail := failed }).owe [.event (.queueMapRound rank)]

/-- The package that holds the lost rank again, if a spare has taken it. -/
def replaced (s : State) (lost : Nat) : Bool := (s.pkg? lost).any fun p => p.start.powered && p.start.phase == 5

/-- FENCE_COMPLETE (R461 to R463, R466): the survivor rolls back; without a snapshot the procedure stops; without a spare it
holds at REASSIGN. -/
def execFenceComplete (rank : Nat) (s : State) : Outcome :=
  .next (match s.pkg? rank with
    | none => s
    | some p =>
      let x := p.start
      if x.phase != 2 && x.phase != 4 then s
      else
        match rollTarget s p with
        | none => modStart s rank fun x => { x with nosnap := true }
        | some snap =>
          let s := if x.phase == 2 then rollTo s rank snap else s
          let s := modStart s rank fun x => { x with phase := 4, rolls := snap % 2 ^ 32 }
          let ctx := p.tier.trackCtx
          if replaced s x.lost then resumeCtx s rank ctx x.lost
          else
            match findSpare s with
            | none => (modStart s rank fun x => { x with nospare := true }).owe [.event (.fenceComplete rank)]
            | some sp => resumeCtx (reassign s sp x.lost ctx p.tier.entry snap) rank ctx x.lost)

/-- Full redundancy has returned (R464, R465). -/
def Pkg.redundant (p : Pkg) : Pkg := { p with start := { p.start with phase := 6 } }

/-- REBUILD_UNIT (R464): one more slot of the shard is in place; at the last, redundancy is full again on every member. -/
def execRebuildUnit (rank : Nat) (s : State) : Outcome :=
  .next (match s.pkg? rank with
    | none => s
    | some p =>
      match p.start.rebuild with
      | [] =>
        if p.start.phase == 5 then
          { s with pkgs := modWhere (fun q => q.start.phase == 5 && q.start.lost == p.start.lost) Pkg.redundant s.pkgs }
        else s
      | _ :: r =>
        (modStart s rank fun x => { x with rebuild := r, done := x.done + 1 }).owe [.event (.rebuildUnit rank)])

end Sys2Proof.Machine
end

