-- ==== Sys2Proof/Machine/HostRegs.lean ====
section
/-! DEFINITION. What the host writes: the coherent window (R231) with its start area (R450), and the register aperture (R442,
R443); attestation (R449); and uncorrectable errors (R416). -/

namespace Sys2Proof.Machine

/-- A register write that starts a step of the hardware makes it at once, so that later writes find its effect. -/
def atOnce (o : State → Outcome) (s : State) : State :=
  match o s with
  | .next t => t
  | .fault _ => s
  | .refused _ => s

/-! ### The start area (R450, R451, R456, R459) -/

/-- A write to STARTCTL: while STEP is 13 to 15 it changes RESTART and DOMGO alone (R451). What a start or a join finds is an input,
so that they are steps of their own. -/
def writeStartctl (s : State) (rank value : Nat) : State :=
  let s := modStart s rank fun x =>
    if 13 ≤ x.step then x
    else { x with full := bitOf value 1, spare := bitOf value 2, rank := bitsOf value 3 10, pos := bitsOf value 13 4
                  set := bitsOf value 17 15 }
  s.owe ((if bitOf value 0 then [.event (.startRestart rank [])] else []) ++
    if bitOf value 32 then [.event (.domainGo rank [])] else [])

/-- An aligned 8-byte host write at an offset into the start area; the offsets that list no register ignore it (R450). -/
def startWrite (s : State) (rank o value : Nat) : State :=
  if o == 0x08 then writeStartctl s rank value
  else if o == 0x10 then modStart s rank fun x => { x with trimaddr := bitsOf value 12 30 * 2 ^ 12 }
  else if o == 0x18 then modStart s rank fun x => { x with trimlen := bitsOf value 0 31 }
  else if o == 0x20 then (if bitOf value 0 then atOnce (execTrimGo rank) s else s)
  else if o == 0x38 then
    if bitOf value 10 then atOnce (execPackageLossDeclare rank (bitsOf value 0 10)) s
    else modStart s rank fun x => { x with rblost := bitsOf value 0 10 }
  else s

/-- HOST_WINDOW_WRITE (R231, R450): the bytes below the start area are performed at the SRAM and the monitors of their words
tested; in the start area only an aligned write of 8 bytes acts. -/
def execHostWindowWrite (rank offset : Nat) (bytes : List Byte) (s : State) : Outcome :=
  .next (
    if startArea ≤ offset then
      if offset % 8 == 0 && bytes.length == 8 then startWrite s rank (offset - startArea) (ofBytesLE bytes) else s
    else
      let bs := bytes.take (startArea - offset)
      testWindow (s.modPkg rank fun p => { p with window := p.window.write 4 offset bs }) rank (windowBase + offset) bs.length)

/-! ### Attestation (R449) -/

/-- The 64 bits that a number gives, big end first. -/
def bytesBE (n x : Nat) : List Byte := (bytesLE n x).reverse

/-- What a report says before its signature: the nonce, MEAS0 to MEAS7, the serial number, the rank and the public key. The
serial number and the key are 149 bytes of the package's identity; the rank takes 4 bytes, least significant first (log 4). -/
def attestBody (p : Pkg) : List Byte :=
  let id := Config.identity p.rank
  p.nonce ++ p.meas.toList.flatten ++ id.take 16 ++ bytesLE 4 p.rank ++ (id.drop 16).take 133

/-- ATTEST_GO (R449): ignored while BUSY. -/
def execAttestGo (rank : Nat) (s : State) : Outcome :=
  .next (match s.pkg? rank with
    | none => s
    | some p =>
      if p.attBusy then s
      else (s.modPkg rank fun p => { p with attBusy := true }).owe [.event (.attestReportWritten rank)])

/-- ATTEST_REPORT_WRITTEN (R449): the report is signed over the SHA-512 of what comes before the signature. -/
def execAttestReportWritten (rank : Nat) (s : State) : Outcome :=
  .next (match s.pkg? rank with
    | none => s
    | some p =>
      if !p.attBusy then s
      else
        let (n, s) := s.gensym
        let body := attestBody p
        s.modPkg rank fun p => { p with attBusy := false, report := body ++ Config.signature n (Config.sha512 body) })

/-! ### The register aperture (R442, R443) -/

/-- A die register (R224, R228); FLTCTL and TLBICTL act. -/
def dieRegWrite (s : State) (d : DieId) (o value : Nat) : State :=
  if o == 0x00 then s.modPkg d.rank fun p => p.modDie d.die fun r => { r with tlbiva := bitsOf value 12 45 }
  else if o == 0x08 then s.modPkg d.rank fun p => p.modDie d.die fun r => { r with tlbisz := bitsOf value 12 33 }
  else if o == 0x10 then atOnce (execTlbInvalidate d value) s
  else if o == 0x18 then
    if bitsOf value 6 2 == 1 then atOnce (execFaultResume d (bitsOf value 0 6)) s
    else if bitsOf value 6 2 == 2 then atOnce (execFaultAbort d (bitsOf value 0 6)) s
    else s
  else s

/-- A slice register (R293, R296, R303, R443). -/
def sliceRegWrite (s : State) (sl : SliceId) (o value : Nat) : State :=
  if o == 0x000 then
    let go := bitOf value 16
    let s := s.modSlice sl fun q => { q with mrCtx := bitsOf value 0 16, mrBusy := q.mrBusy || go }
    if go then s.owe [.event (.monitorReclaim sl (bitsOf value 0 16))] else s
  else if o == 0x008 then (if bitOf value 0 then atOnce (execCfclrClear sl) s else s)
  else if o == 0x020 then s.modSlice sl fun q => { q with monsel := bitsOf value 0 10 }
  else s

/-- The number of port q of a die: 0 to 8 are scale-up ports, one for each plane, 9 and 10 the scale-out ports, numbered from 36 on
(R422, R442). -/
def portOf (die q : Nat) : Nat := if q < 9 then 9 * die + q else 36 + 2 * die + (q - 9)

/-- A register of a port's blocks; the blocks at 0x200 and 0x300 of a scale-up port reach the link partner (R440, R471). -/
def portRegWrite (s : State) (rank port o value : Nat) : State :=
  if o < 0x40 then keyReg s ⟨rank, port, true⟩ true o value
  else if 0x100 ≤ o && o < 0x140 then keyReg s ⟨rank, port, false⟩ false (o - 0x100) value
  else if port < 36 && ((0x200 ≤ o && o < 0x240) || (0x300 ≤ o && o < 0x340)) then
    atOnce (execPartnerRegWrite ⟨rank, port, true⟩ o value) s
  else s

/-- The pool registers keep their values while an object holds or is moving to or from frames (R343). -/
def Pkg.poolHeld (p : Pkg) : Bool := p.place.any fun e => e.st != .tier

/-- A package register (R316, R343, R444, R449). -/
def packageRegWrite (s : State) (rank o value : Nat) : State :=
  if o == 0x00 then atOnce (execGtsyncGo rank value) s
  else if o == 0x08 then s.modPkg rank fun p => if p.poolHeld then p else { p with plpoolb := bitsOf value 21 19 * 2 ^ 21 }
  else if o == 0x10 then s.modPkg rank fun p => if p.poolHeld then p else { p with plpools := bitsOf value 0 19 }
  else if o == 0x40 then atOnce (execQueueDoorbell rank value) s
  else if o == 0x48 then (if bitOf value 0 then atOnce (execAttestGo rank) s else s)
  else if 0x80 ≤ o && o < 0xC0 then
    s.modPkg rank fun p => { p with nonce := overlay p.nonce (o - 0x80) (bytesLE 8 value) }
  else s

/-- GSEL of a core (R443). -/
def coreRegWrite (s : State) (c : CoreId) (o value : Nat) : State :=
  if o == 0x8000 then s.modCore c fun x => { x with gselPlace := bitsOf value 0 7, gselSlot := bitsOf value 7 4 } else s

/-- An 8-byte write of the host to an aperture offset (R442). Offsets that the table does not list ignore it. -/
def apertureWrite (s : State) (rank offset value : Nat) : State :=
  let die := offset / 0x1000000
  let o := offset % 0x1000000
  if 4 ≤ die then s
  else if o < 0x800000 then coreRegWrite s ⟨rank, die, o / 0x10000 / 16, o / 0x10000 % 16⟩ (o % 0x10000) value
  else if o < 0x820000 then sliceRegWrite s ⟨rank, 32 * die + (o - 0x800000) / 0x1000⟩ (o % 0x1000) value
  else if 0xA00000 ≤ o && o < 0xA01000 then dieRegWrite s ⟨rank, die⟩ (o - 0xA00000) value
  else if 0xC00000 ≤ o && o < 0xC0B000 then portRegWrite s rank (portOf die ((o - 0xC00000) / 0x1000)) (o % 0x1000) value
  else if 0xE00000 ≤ o && o < 0xE01000 && die == 0 then packageRegWrite s rank (o - 0xE00000) value
  else s

/-- REGISTER_WRITE (R442, R450): a host write of 8 bytes to a register of the aperture; an offset at or beyond the aperture's
64 MiB stands for the start area's registers, in order. -/
def execRegisterWrite (rank offset : Nat) (value : Nat) (s : State) : Outcome :=
  .next (if (s.pkg? rank).isNone then s
    else if offset < 0x4000000 then (if offset % 8 == 0 then apertureWrite s rank offset value else s)
    else startWrite s rank (offset - 0x4000000) value)

/-! ### Uncorrectable errors (R416) -/

/-- A poison mark added to a memory-side cache line. -/
def CLine.strike (c : CLine) (o : Nat) : CLine := { c with badw := (o :: c.badw).dedup }

/-- UNCORRECTABLE_ERROR (R416): a word of an SRAM, or a line of HBM, becomes poison; a soft error that the SRAM corrects is counted. -/
def execUncorrectableError (site : ErrSite) (s : State) : Outcome :=
  .next (match site with
    | .backing gid slot pos =>
      s.modGroup gid fun g => g.modThreads (fun i => i == slot) fun _ t => { t with bad := (pos % 128 :: t.bad).dedup }
    | .tile tid z word => s.modTeam tid fun t => if z < t.tiles then { t with acc := t.acc.mark 4 (16384 * z + 4 * (word % 4096)) } else t
    | .shared tid word => s.modTeam tid fun t => if 4 * word < 4096 * t.holding then { t with shared := t.shared.mark 4 (4 * word) } else t
    | .scratch seg word =>
      { s with segs := modWhere (fun x => x.id == seg && 4 * word < x.size) (fun x => { x with ram := x.ram.mark 4 (4 * word) }) s.segs }
    | .spill core va =>
      s.modCore core fun c => { c with spill := modWhere (fun l => l.va == va / 128 * 128) (fun l => { l with bad := (va / 4 :: l.bad).dedup }) c.spill }
    | .cache rank ctx va =>
      s.modPkg rank fun p => { p with cache := modWhere (fun c => c.ctx == ctx && c.va == lineBase va) (fun c => c.strike (va % 256 / 4)) p.cache }
    | .corrected d => s.modPkg d.rank fun p => p.modDie d.die fun r => { r with soft := r.soft + 1 }
    | .hbm rank line => s.modPkg rank fun p => if line * 256 < hbmEnd then { p with hbm := p.hbm.mark 256 (line * 256) } else p)

end Sys2Proof.Machine
end

