-- ==== Sys2Proof/Machine/Boot.lean ====
section
/-! DEFINITION. A machine in which one given instruction issues next: a program's launch from outside, cut to one word. -/

namespace Sys2Proof.Machine

/-- Where the instruction stands: word 0 of a clause (R34), at this virtual and physical address. -/
def bootClause : Nat := 0x10000

/-- The core whose lane 0 issues it. -/
def bootCore : CoreId := ⟨0, 0, 0, 0⟩

/-- Translation tables (R220, R221) that map the first GiB of the context to the start of local HBM, writable and
executable: a level 5 and a level 4 entry, and a leaf at level 3. -/
def bootTables (m : Mem) : Mem :=
  ((m.writeL 0x1000 (bytesLE 8 (0x2000 + 1))).writeL 0x2000 (bytesLE 8 (0x3000 + 1))).writeL 0x3000 (bytesLE 8 (1 + 2 + 4 + 8))

/-- A clause of 15 words, of mixed class, whose first words hold the instruction. -/
def bootHeader : Word := 0x7F

/-- The clause in memory. -/
def bootCode (m : Mem) (w : Nat) : Mem :=
  (m.writeL bootClause (wordBytes bootHeader)).writeL (bootClause + 4) (bytesLE 8 w)

/-- The context of the group. -/
def bootCtx : Ctx :=
  { rank := 0, id := 0, ptroot := 0x1000, spbase := 2 ^ 21, spstride := 66 * 2 ^ 20, spcount := 1, gtbase := 0, rwbase := 0
    rankmap := 0, trapvec := 0, csave := 0, tsave := 0, fenced := false }

/-- A grid of one team of one group. -/
def bootGrid (id : Nat) : Grid :=
  { id := id, rank := 0, ctx := 0, depth := 0, root := id, parent := none, handle := 0, nx := 1, ny := 1, nz := 1
    entry := BitVec.ofNat 64 bootClause, args := 0, row0 := 0, col0 := 0, rows := 1, cols := 1, dies := [0], groups := 1
    smem := 0, tiles := 0, nbv := 3, det := false, priority := 0, seed := 0, seg := 0, spTrap := false, spWord := 0, spDie := 0
    spCount := 0, ovf := 0, split := 0, peers := [], egrid := 0, nextTeam := 1, since := 0, started := true, desc := none, status := 0 }

/-- Its team. -/
def bootTeam (id tid gid : Nat) : Team :=
  { newTeam (bootGrid id) tid 0 0 with st := .resident, core := bootCore, gids := [gid], wins := [0], seats := [(0, 0)] }

/-- Its group, inside the clause: the header is read, and word 0 issues next (R39). -/
def bootGroup (id tid gid : Nat) : Group :=
  let g := newGroup (bootGrid id) (bootTeam id tid gid) bootCtx bootCore gid 0 0 0 0
  { g with frags := g.frags.setIfInBounds 0 (some { Frag.at 0xFFFF (BitVec.ofNat 64 bootClause) 31 with hdr := some bootHeader }) }

/-- The package with the tables and the clause in its HBM, and no translation of the context held. -/
def bootPkg (w : Nat) (p : Pkg) : Pkg :=
  { p.modDie 0 fun d => { d with tlb := d.tlb.filter fun e => e.ctx != 0 } with
    hbm := ⟨bootCode (bootTables p.hbm.bytes) w, p.hbm.poison.filter fun l => l != 0x10 && l != 0x20 && l != 0x30 && l != 0x100⟩
    cache := p.cache.filter fun c => c.ctx != 0 || !(c.va == bootClause) }

/-- The state in which the instruction whose bits are w is the next to issue, by the group of a context 0 that is resident on
the first core of package 0; the timers of other groups do not come due first. -/
def bootState (s : State) (w : Nat) : State :=
  let id := s.fresh
  { s with
    fresh := id + 3
    pkgs := if s.pkgs.any fun p => p.rank == 0 then modWhere (fun p => p.rank == 0) (bootPkg w) s.pkgs
      else bootPkg w (Pkg.reset 0) :: s.pkgs
    ctxs := bootCtx :: s.ctxs.filter fun c => !(c.rank == 0 && c.id == 0)
    grids := bootGrid id :: s.grids
    teams := bootTeam id (id + 1) (id + 2) :: s.teams
    groups := bootGroup id (id + 1) (id + 2) ::
      (s.groups.filter fun g => !(g.core == bootCore && g.lane == 0)).map fun g => { g with timer := 0, deadline := 0 }
    agenda := .lane bootCore 0 :: s.agenda }

end Sys2Proof.Machine
end

