-- ==== Sys2Proof/Machine/ThreadComb.lean ====
section
/-! DEFINITION. The thread combiners, opcodes 0x58 to 0x5E (R163 to R169). Under UNI the slots read are the lowest active
slot alone, and every active slot takes the result (R163). -/

namespace Sys2Proof.Machine

/-- The source slot of SHFL for a slot (R164). -/
def shflSrc (m : ShflMode) (slot n : Nat) : Int :=
  match m with
  | .idx => n
  | .up => (slot : Int) - n
  | .down => (slot : Int) + n
  | .xor => ((slot ^^^ n : Nat) : Int)

/-- SHFL (R164). -/
def execShfl (m : ShflMode) (d a b : VReg) (g : Guard) (s : State) : Outcome :=
  issue s true fun x =>
    threadWord x g 1 [a.toNat, b.toNat] [d.toNat] fun src slot t =>
      let i := shflSrc m slot ((t.v b.toNat).toNat % 16)
      .val d (if 0 ≤ i && i ≤ 15 && src.getLsbD i.toNat then (x.g.thread i.toNat).v a.toNat else t.v a.toNat)

/-- The result of VOTE over the slots read (R165). -/
def voteFn (op : VoteOp) (bs : List Bool) : Bool :=
  match op with
  | .any => bs.any id
  | .all => bs.all id
  | .eq => bs.all (fun b => b) || bs.all (fun b => !b)

/-- VOTE (R165). -/
def execVote (op : VoteOp) (pd pa : PReg) (g : Guard) (s : State) : Outcome :=
  issue s true fun x =>
    threadWord x g 1 [] [] fun src _ _ => .pred pd (voteFn op ((maskSlots src).map fun i => (x.g.thread i).pr pa))

/-- BALLOT (R166). -/
def execBallot (d : VReg) (pa : PReg) (g : Guard) (s : State) : Outcome :=
  issue s true fun x =>
    threadWord x g 1 [] [d.toNat] fun src _ _ =>
      .val d ((maskOf fun i => src.getLsbD i && (x.g.thread i).pr pa).zeroExtend 32)

/-- The 16 positions of REDT and SCAN (R167). -/
def positions (x : Iss) (src : Mask) (a : VReg) : List (Option Word) :=
  (upTo 16).map fun i => if src.getLsbD i then some ((x.g.thread i).v a.toNat) else none

/-- REDT (R87, R167), under the NBV captured at issue (R32). -/
def execRedt (op : RedOp) (d a : VReg) (g : Guard) (s : State) : Outcome :=
  issue s true fun x =>
    threadWord x g 1 [a.toNat] [d.toNat] fun src _ _ => .val d (redTree op x.g.nbv (positions x src a))

/-- SCAN (R88, R167). -/
def execScan (op : RedOp) (d a : VReg) (g : Guard) (s : State) : Outcome :=
  issue s true fun x =>
    threadWord x g 1 [a.toNat] [d.toNat] fun src slot _ => .val d ((scanAll op (positions x src a)).getD slot 0)

/-- BCAST (R168): one k register from one slot, 0 when that slot is not in the execution mask. -/
def execBcast (kd : KReg) (a : VReg) (w64 : Bool) (src : Option (BitVec 4)) (g : Guard) (s : State) : Outcome :=
  issue s true fun x =>
    let m := x.guarded g
    if m == 0 then advance x.s x.is 1
    else
      let sm := x.sources m
      let from_ := match src with
        | some i => i.toNat
        | none => lowest sm
      let regs := regsFrom a.toNat (if w64 then 2 else 1)
      let one := if sm.getLsbD from_ then slotBit from_ else 0
      if x.g.vsBusy one regs || x.g.ksBusy [kd.toNat] then block x.s x.is .scoreboard
      else if x.poisoned one regs != 0 then takeTrap x.s x.is 6 (poisonD (x.poisoned one regs))
      else
        let t := x.g.thread from_
        let v : DWord := if one == 0 then 0 else if w64 then t.v64 a.toNat else zext64 (t.v a.toNat)
        advance (x.s.modGroup x.is.gid fun g => g.setK kd.toNat v) x.is 1

/-- FRAGQ (R169). -/
def fragqFn (k : FragqKind) (g : Group) (f : Frag) : Word :=
  match k with
  | .mask => f.mask.zeroExtend 32
  | .count => BitVec.ofNat 32 (g.resident.length + g.spilled.length)
  | .occ => BitVec.ofNat 32 g.resident.length
  | .spill => BitVec.ofNat 32 g.spilled.length

/-- FRAGQ (R169). -/
def execFragq (k : FragqKind) (d : VReg) (g : Guard) (s : State) : Outcome :=
  issue s true fun x => threadWord x g 1 [] [d.toNat] fun _ _ _ => .val d (fragqFn k x.g x.f)

end Sys2Proof.Machine
end

