-- ==== Sys2Proof/Machine/ThreadInt.lean ====
section
/-! DEFINITION. The thread-class integer, address, comparison and predicate words (R98 to R106), REP's operands apart. -/

namespace Sys2Proof.Machine

/-! ### Values (R98 to R102) -/

/-- `sat_i32` (R98). -/
def satI32 (x : Int) : Word := BitVec.ofInt 32 (max (-(2 ^ 31)) (min (2 ^ 31 - 1) x))
/-- `sat_n32` (R98). -/
def satN32 (x : Int) : Word := BitVec.ofInt 32 (max 0 (min (2 ^ 32 - 1) x))

/-- The exact sum, difference or multiply-add `f`, read and narrowed as MOD selects (R98). -/
def satOp (k : SatKind) (f : Int → Int → Int → Int) (a b d : Word) : Word :=
  match k with
  | .wrap => BitVec.ofInt 32 (f a.toInt b.toInt d.toInt)
  | .satI => satI32 (f a.toInt b.toInt d.toInt)
  | .satN => satN32 (f a.toNat b.toNat d.toNat)

/-- imul (R98). -/
def mulOp (k : MulKind) (a b : Word) : Word :=
  match k with
  | .lo => a * b
  | .hiI => BitVec.ofInt 32 (a.toInt * b.toInt / 2 ^ 32)
  | .hiN => BitVec.ofNat 32 (a.toNat * b.toNat / 2 ^ 32)

/-- imin and imax (R98). -/
def minMaxOp (k : MinMaxKind) (a b : Word) : Word :=
  match k with
  | .minI => if b.slt a then b else a
  | .maxI => if a.slt b then b else a
  | .minN => if b.ult a then b else a
  | .maxN => if a.ult b then b else a

/-- iabs, ineg and iabs.sat (R98). -/
def absOp (k : AbsKind) (a : Word) : Word :=
  match k with
  | .abs => if a.slt 0 then -a else a
  | .neg => -a
  | .absSat => satI32 (if a.toInt < 0 then -a.toInt else a.toInt)

/-- and, or, xor, andn (R98). -/
def logicFn (op : LogicOp) (a b : Word) : Word :=
  match op with
  | .and => a &&& b
  | .or => a ||| b
  | .xor => a ^^^ b
  | .andn => a &&& ~~~b

/-- Number of 1 bits. -/
def popcount (a : Word) : Nat := ((upTo 32).filter fun i => a.getLsbD i).length
/-- Number of leading zero bits, 32 for 0. -/
def clzOf (a : Word) : Nat := ((upTo 32).find? fun i => a.getLsbD (31 - i)).getD 32
/-- Bit j of the result is bit 31 − j. -/
def brevOf (a : Word) : Word :=
  (upTo 32).foldl (fun w i => if a.getLsbD (31 - i) then w ||| BitVec.ofNat 32 (2 ^ i) else w) 0

/-- not, popc, clz, brev (R98). -/
def bitFn (op : BitOp) (a : Word) : Word :=
  match op with
  | .not => ~~~a
  | .popc => BitVec.ofNat 32 (popcount a)
  | .clz => BitVec.ofNat 32 (clzOf a)
  | .brev => brevOf a

/-- The shifts, by the low five bits of the count (R98). -/
def shiftFn (op : ShiftOp) (a : Word) (n : Nat) : Word :=
  match op with
  | .shl => a <<< (n % 32)
  | .shr => a >>> (n % 32)
  | .sar => a.sshiftRight (n % 32)
  | .rotl => a.rotateLeft (n % 32)

/-- Position and length of a bit field (R99). -/
def fieldPos (b : Word) : Nat := bitsOf b.toNat 0 5
def fieldLen (b : Word) : Nat := min (bitsOf b.toNat 8 6) 32

/-- bfe (R99). -/
def bfeFn (k : Sgn) (a b : Word) : Word :=
  let len := fieldLen b
  if len == 0 then 0
  else
    let x : Nat := match k with
      | .nat => a.toNat
      | .int => (sext64 a).toNat
    let f := bitsOf x (fieldPos b) len
    match k with
    | .nat => BitVec.ofNat 32 f
    | .int => BitVec.ofInt 32 (toSigned len f)

/-- bfi (R99). -/
def bfiFn (d a b : Word) : Word :=
  let pos := fieldPos b
  let len := fieldLen b
  (upTo len).foldl (fun w j =>
    if pos + j ≤ 31 then
      if a.getLsbD j then w ||| BitVec.ofNat 32 (2 ^ (pos + j)) else w &&& ~~~(BitVec.ofNat 32 (2 ^ (pos + j)))
    else w) d

/-- The integer conditions (R64). -/
def condHolds (c : Cond) (x y : Int) : Bool :=
  match c with
  | .eq => x == y
  | .ne => x != y
  | .lt => x < y
  | .le => x ≤ y
  | .gt => x > y
  | .ge => x ≥ y

/-- add64, sub64 and add64.sx (R101). -/
def add64Fn (k : Add64Kind) (a b : DWord) (b32 : Word) : DWord :=
  match k with
  | .add => a + b
  | .sub => a - b
  | .addSx => a + sext64 b32

/-- A predicate operation (R105). -/
def plopFn (op : PlopOp) (a b : Bool) : Bool :=
  match op with
  | .and => a && b
  | .or => a || b
  | .xor => a != b
  | .andn => a && !b
  | .orn => a || !b
  | .nand => !(a && b)
  | .nor => !(a || b)
  | .xnor => a == b

/-! ### Words of one, two and three operands -/

/-- A word d ← f(a, b) (R93). -/
def tw2 (s : State) (d a b : VReg) (g : Guard) (f : Word → Word → Word) : Outcome :=
  issue s true fun x => threadWord x g 1 [a.toNat, b.toNat] [d.toNat] fun _ _ t => .val d (f (t.v a.toNat) (t.v b.toNat))

/-- A word d ← f(a, b, d) (R93). -/
def tw3 (s : State) (d a b : VReg) (g : Guard) (f : Word → Word → Word → Word) : Outcome :=
  issue s true fun x =>
    threadWord x g 1 [a.toNat, b.toNat, d.toNat] [d.toNat] fun _ _ t => .val d (f (t.v a.toNat) (t.v b.toNat) (t.v d.toNat))

/-- A word d ← f(a) of length `len` (R93). -/
def tw1 (s : State) (d a : VReg) (g : Guard) (f : Word → Word) : Outcome :=
  issue s true fun x => threadWord x g 1 [a.toNat] [d.toNat] fun _ _ t => .val d (f (t.v a.toNat))

/-- An immediate word, unguarded (R49, R100). -/
def twI (s : State) (d a : VReg) (f : Word → Word) : Outcome := tw1 s d a Guard.all f

/-- A 12-bit immediate, sign-extended (R49). -/
def simm (i : BitVec 12) : Word := i.signExtend 32
/-- A 12-bit immediate, zero-extended (R49). -/
def zimm (i : BitVec 12) : Word := i.zeroExtend 32

def execIadd (k : SatKind) (d a b : VReg) (g : Guard) (s : State) : Outcome :=
  tw2 s d a b g fun x y => satOp k (fun x y _ => x + y) x y 0
def execIsub (k : SatKind) (d a b : VReg) (g : Guard) (s : State) : Outcome :=
  tw2 s d a b g fun x y => satOp k (fun x y _ => x - y) x y 0
def execImul (k : MulKind) (d a b : VReg) (g : Guard) (s : State) : Outcome := tw2 s d a b g (mulOp k)
def execImad (k : SatKind) (d a b : VReg) (g : Guard) (s : State) : Outcome :=
  tw3 s d a b g (satOp k fun x y z => x * y + z)
def execIminmax (k : MinMaxKind) (d a b : VReg) (g : Guard) (s : State) : Outcome := tw2 s d a b g (minMaxOp k)
def execIabs (k : AbsKind) (d a : VReg) (g : Guard) (s : State) : Outcome := tw1 s d a g (absOp k)
def execLogic (op : LogicOp) (d a b : VReg) (g : Guard) (s : State) : Outcome := tw2 s d a b g (logicFn op)
def execBitop (op : BitOp) (d a : VReg) (g : Guard) (s : State) : Outcome := tw1 s d a g (bitFn op)
def execShift (op : ShiftOp) (d a b : VReg) (g : Guard) (s : State) : Outcome :=
  tw2 s d a b g fun x y => shiftFn op x y.toNat
def execBfe (k : Sgn) (d a b : VReg) (g : Guard) (s : State) : Outcome := tw2 s d a b g (bfeFn k)
def execBfi (d a b : VReg) (g : Guard) (s : State) : Outcome := tw3 s d a b g fun x y z => bfiFn z x y

/-- ICMP (R102): the operands are single registers, or pairs for the 64-bit forms. -/
def execIcmp (k : IcmpKind) (c : Cond) (p : PReg) (a b : VReg) (g : Guard) (s : State) : Outcome :=
  issue s true fun x =>
    let wide := k == .i64 || k == .n64
    let reads := if wide then regsFrom a.toNat 2 ++ regsFrom b.toNat 2 else [a.toNat, b.toNat]
    threadWord x g 1 reads [] fun _ _ t =>
      .pred p (match k with
        | .i32 => condHolds c (t.v a.toNat).toInt (t.v b.toNat).toInt
        | .n32 => condHolds c (t.v a.toNat).toNat (t.v b.toNat).toNat
        | .i64 => condHolds c (t.v64 a.toNat).toInt (t.v64 b.toNat).toInt
        | .n64 => condHolds c (t.v64 a.toNat).toNat (t.v64 b.toNat).toNat)

/-- SEL (R104): GN and GP select, and the execution mask is the fragment's mask. -/
def execSel (d a b : VReg) (g : Guard) (s : State) : Outcome :=
  issue s true fun x =>
    threadWord x Guard.all 1 [a.toNat, b.toNat] [d.toNat] fun _ _ t =>
      .val d (if t.pr g.p != g.neg then t.v a.toNat else t.v b.toNat)

/-- add64, sub64 and add64.sx (R101). -/
def execAdd64 (k : Add64Kind) (d a b : VReg) (g : Guard) (s : State) : Outcome :=
  issue s true fun x =>
    let breads := if k == .addSx then [b.toNat] else regsFrom b.toNat 2
    threadWord x g 1 (regsFrom a.toNat 2 ++ breads) (regsFrom d.toNat 2) fun _ _ t =>
      .val64 d (add64Fn k (t.v64 a.toNat) (t.v64 b.toNat) (t.v b.toNat))

/-- lea (R101). -/
def execLea (sh : BitVec 2) (d a b : VReg) (g : Guard) (s : State) : Outcome :=
  issue s true fun x =>
    threadWord x g 1 (regsFrom a.toNat 2 ++ [b.toNat]) (regsFrom d.toNat 2) fun _ _ t =>
      .val64 d (t.v64 a.toNat + zext64 (t.v b.toNat) <<< sh.toNat)

def execIaddi (d a : VReg) (i : BitVec 12) (s : State) : Outcome := twI s d a fun x => x + simm i
def execImuli (d a : VReg) (i : BitVec 12) (s : State) : Outcome := twI s d a fun x => x * simm i
def execAndi (d a : VReg) (i : BitVec 12) (s : State) : Outcome := twI s d a fun x => x &&& zimm i
def execOri (d a : VReg) (i : BitVec 12) (s : State) : Outcome := twI s d a fun x => x ||| zimm i
def execXori (d a : VReg) (i : BitVec 12) (s : State) : Outcome := twI s d a fun x => x ^^^ zimm i
def execShli (d a : VReg) (n : BitVec 5) (s : State) : Outcome := twI s d a fun x => shiftFn .shl x n.toNat
def execShri (d a : VReg) (n : BitVec 5) (s : State) : Outcome := twI s d a fun x => shiftFn .shr x n.toNat
def execSari (d a : VReg) (n : BitVec 5) (s : State) : Outcome := twI s d a fun x => shiftFn .sar x n.toNat

/-- ICMPI.I32 (R102). -/
def execIcmpiI32 (c : Cond) (p : PReg) (a : VReg) (i : BitVec 12) (s : State) : Outcome :=
  issue s true fun x => threadWord x Guard.all 1 [a.toNat] [] fun _ _ t =>
    .pred p (condHolds c (t.v a.toNat).toInt (simm i).toInt)
/-- ICMPI.N32 (R102). -/
def execIcmpiN32 (c : Cond) (p : PReg) (a : VReg) (i : BitVec 12) (s : State) : Outcome :=
  issue s true fun x => threadWord x Guard.all 1 [a.toNat] [] fun _ _ t =>
    .pred p (condHolds c (t.v a.toNat).toNat (zimm i).toNat)

/-- MOVI (R100). -/
def execMovi (d : VReg) (i : BitVec 12) (s : State) : Outcome :=
  issue s true fun x => threadWord x Guard.all 1 [] [d.toNat] fun _ _ _ => .val d (simm i)
/-- MOVL: its literal is the word after it (R100). -/
def execMovl (d : VReg) (w : Word) (s : State) : Outcome :=
  issue s true fun x => threadWord x Guard.all 2 [] [d.toNat] fun _ _ _ => .val d w
/-- ADD64I (R101). -/
def execAdd64i (d a : VReg) (i : BitVec 12) (s : State) : Outcome :=
  issue s true fun x => threadWord x Guard.all 1 (regsFrom a.toNat 2) (regsFrom d.toNat 2) fun _ _ t =>
    .val64 d (t.v64 a.toNat + i.signExtend 64)

/-- PLOP (R105). -/
def execPlop (op : PlopOp) (pd pa pb : PReg) (g : Guard) (s : State) : Outcome :=
  issue s true fun x => threadWord x g 1 [] [] fun _ _ t => .pred pd (plopFn op (t.pr pa) (t.pr pb))
/-- PMOV.V (R106). -/
def execPmovV (d : VReg) (pa : PReg) (g : Guard) (s : State) : Outcome :=
  issue s true fun x => threadWord x g 1 [] [d.toNat] fun _ _ t => .val d (if t.pr pa then 1 else 0)
/-- PMOV.P (R106). -/
def execPmovP (pd : PReg) (a : VReg) (g : Guard) (s : State) : Outcome :=
  issue s true fun x => threadWord x g 1 [a.toNat] [] fun _ _ t => .pred pd (t.v a.toNat != 0)

/-- ENTER (R17, R123): FRAME of every active thread; a size that is not 8 to 64 in steps of 8 raises cause WINDOW. -/
def execEnter (n : BitVec 12) (s : State) : Outcome :=
  issue s true fun x =>
    if n.toNat % 8 != 0 || n.toNat == 0 || 64 < n.toNat then illegal x causeWindow
    else
      advance (x.s.modGroup x.is.gid fun g =>
        g.modThreads (fun i => x.f.mask.getLsbD i) fun _ t => { t with frame := n.toNat }) x.is 1

end Sys2Proof.Machine
end

