-- ==== Sys2Proof/Machine/Uniform.lean ====
section
/-! DEFINITION. The uniform words: UALU, UCMP, QLOP, UMOVL and UADDL (R170 to R174). -/

namespace Sys2Proof.Machine

/-- The results of UALU (R171). -/
def ualuFn (op : UaluOp) (a b : DWord) : DWord :=
  let n := bitsOf b.toNat 0 6
  match op with
  | .uadd => a + b
  | .usub => a - b
  | .umul => a * b
  | .uand => a &&& b
  | .uor => a ||| b
  | .uxor => a ^^^ b
  | .ushl => a <<< n
  | .ushr => a >>> n
  | .usar => a.sshiftRight n
  | .uminI => if a.slt b then a else b
  | .umaxI => if a.slt b then b else a
  | .uminN => if a.ult b then a else b
  | .umaxN => if a.ult b then b else a
  | .umov => a

/-- The conditions of UCMP (R64, R172). -/
def ucmpFn (op : UcmpOp) (a b : DWord) : Bool :=
  match op with
  | .eq => a == b
  | .ne => a != b
  | .ltI => a.slt b
  | .leI => !b.slt a
  | .gtI => b.slt a
  | .geI => !a.slt b
  | .ltN => a.ult b
  | .leN => !b.ult a
  | .gtN => b.ult a
  | .geN => !a.ult b

/-- UALU (R171); UMOV reads KA alone. -/
def execUalu (op : UaluOp) (d a b : KReg) (g : UGuard) (s : State) : Outcome :=
  issue s true fun x =>
    uniWord x g 1 ([d.toNat, a.toNat] ++ if op == .umov then [] else [b.toNat]) fun g =>
      g.setK d.toNat (ualuFn op (g.kr a.toNat) (g.kr b.toNat))

/-- UCMP (R172). -/
def execUcmp (op : UcmpOp) (q : QReg) (a b : KReg) (g : UGuard) (s : State) : Outcome :=
  issue s true fun x =>
    uniWord x g 1 [a.toNat, b.toNat] fun g => g.setQ q.toNat (ucmpFn op (g.kr a.toNat) (g.kr b.toNat))

/-- The value that UMOVL gives a register that holds `old` (R173). -/
def umovlFn (k : UmovlKind) (old : DWord) (x : Word) : DWord :=
  match k with
  | .sext => sext64 x
  | .zext => zext64 x
  | .hi => pairOf (loOf old) x

/-- UMOVL (R173). -/
def execUmovl (k : UmovlKind) (d : KReg) (x : Word) (g : UGuard) (s : State) : Outcome :=
  issue s true fun i =>
    uniWord i g 2 [d.toNat] fun g => g.setK d.toNat (umovlFn k (g.kr d.toNat) x)

/-- UADDL (R173). -/
def execUaddl (d a : KReg) (x : Word) (g : UGuard) (s : State) : Outcome :=
  issue s true fun i => uniWord i g 2 [d.toNat, a.toNat] fun g => g.setK d.toNat (g.kr a.toNat + sext64 x)

/-- QLOP (R172), with the operations of PLOP (R105). -/
def execQlop (op : PlopOp) (qd qa qb : QReg) (g : UGuard) (s : State) : Outcome :=
  issue s true fun x => uniWord x g 1 [] fun g => g.setQ qd.toNat (plopFn op (g.qr qa) (g.qr qb))

end Sys2Proof.Machine
end

