-- ==== Sys2Proof/Machine/RunWord.lean ====
section
/-! DEFINITION. The repeats of REP (R124, R126): the word that REP repeats, with its stepped fields advanced, is run. -/

namespace Sys2Proof.Machine

/-- The meaning of an instruction word; a step of the hardware is no word, and does nothing here. -/
def runWord (i : Instr) (s : State) : Outcome :=
  match i with
  | .iadd k d a b g => execIadd k d a b g s
  | .isub k d a b g => execIsub k d a b g s
  | .imul k d a b g => execImul k d a b g s
  | .imad k d a b g => execImad k d a b g s
  | .iminmax k d a b g => execIminmax k d a b g s
  | .iabs k d a g => execIabs k d a g s
  | .logic op d a b g => execLogic op d a b g s
  | .bitop op d a g => execBitop op d a g s
  | .shift op d a b g => execShift op d a b g s
  | .bfe k d a b g => execBfe k d a b g s
  | .bfi d a b g => execBfi d a b g s
  | .icmp k c p a b g => execIcmp k c p a b g s
  | .sel d a b g => execSel d a b g s
  | .add64 k d a b g => execAdd64 k d a b g s
  | .lea sh d a b g => execLea sh d a b g s
  | .iaddi d a i => execIaddi d a i s
  | .imuli d a i => execImuli d a i s
  | .andi d a i => execAndi d a i s
  | .ori d a i => execOri d a i s
  | .xori d a i => execXori d a i s
  | .shli d a n => execShli d a n s
  | .shri d a n => execShri d a n s
  | .sari d a n => execSari d a n s
  | .icmpiI32 c p a i => execIcmpiI32 c p a i s
  | .icmpiN32 c p a i => execIcmpiN32 c p a i s
  | .movi d i => execMovi d i s
  | .movl d x => execMovl d x s
  | .add64i d a i => execAdd64i d a i s
  | .enter n => execEnter n s
  | .fadd rm d a b g => execFadd rm d a b g s
  | .fsub rm d a b g => execFsub rm d a b g s
  | .fmul rm d a b g => execFmul rm d a b g s
  | .ffma rm d a b g => execFfma rm d a b g s
  | .fminmax op d a b g => execFminmax op d a b g s
  | .fcmp f c p a b g => execFcmp f c p a b g s
  | .fsign op d a b g => execFsign op d a b g s
  | .padd2 f d a b g => execPadd2 f d a b g s
  | .pmul2 f d a b g => execPmul2 f d a b g s
  | .pfma2 f d a b g => execPfma2 f d a b g s
  | .pminmax2 f op d a b g => execPminmax2 f op d a b g s
  | .hadd f d a b g => execHadd f d a b g s
  | .hmul f d a b g => execHmul f d a b g s
  | .hfma f d a b g => execHfma f d a b g s
  | .cvt src dst rm d a g => execCvt src dst rm d a g s
  | .pack f d a b g => execPack f d a b g s
  | .unpk f j d a g => execUnpk f j d a g s
  | .frnd rm d a g => execFrnd rm d a g s
  | .fspec fn gr f d a g => execFspec fn gr f d a g s
  | .rand k d g => execRand k d g s
  | .plop op pd pa pb g => execPlop op pd pa pb g s
  | .pmovV d pa g => execPmovV d pa g s
  | .pmovP pd a g => execPmovP pd a g s
  | .rep n sd sa sb => execRep n sd sa sb s
  | .br rcv g m disp => execBr rcv g m disp s
  | .call g disp => execCall g disp s
  | .callk ka g => execCallk ka g s
  | .exit g => execExit g s
  | .ualu op d a b g => execUalu op d a b g s
  | .ucmp op q a b g => execUcmp op q a b g s
  | .umovl k d x g => execUmovl k d x g s
  | .uaddl d a x g => execUaddl d a x g s
  | .qlop op qd qa qb g => execQlop op qd qa qb g s
  | .shfl m d a b g => execShfl m d a b g s
  | .vote op pd pa g => execVote op pd pa g s
  | .ballot d pa g => execBallot d pa g s
  | .redt op d a g => execRedt op d a g s
  | .scan op d a g => execScan op d a g s
  | .bcast kd a w64 src g => execBcast kd a w64 src g s
  | .fragq k d g => execFragq k d g s
  | .barinit b kb g => execBarinit b kb g s
  | .barx arr b kb g => execBarx arr b kb g s
  | .bara b g => execBara b g s
  | .barw kd b g => execBarw kd b g s
  | .bart op d b g => execBart op d b g s
  | .launch kd ka g => execLaunch kd ka g s
  | .cwait kd ka g => execCwait kd ka g s
  | .acq what kd ka g => execAcq what kd ka g s
  | .rel what ka g => execRel what ka g s
  | .tset t ka kb g => execTset t ka kb g s
  | .tget kd t h g => execTget kd t h g s
  | .mmaE4m3 z tb va scl ru => execMmaE4m3 z tb va scl ru s
  | .mmaE5m2 z tb va scl ru => execMmaE5m2 z tb va scl ru s
  | .mmaL6 z tb va scl ru => execMmaL6 z tb va scl ru s
  | .mmaI8 z tb va ru => execMmaI8 z tb va ru s
  | .mmaBf16 z tb va ru => execMmaBf16 z tb va ru s
  | .mmaF16 z tb va ru => execMmaF16 z tb va ru s
  | .mzero z bar => execMzero z bar s
  | .mld z ta f => execMld z ta f s
  | .mst ta z f => execMst ta z f s
  | .mdrain fmt ta z kx clr f => execMdrain fmt ta z kx clr f s
  | .mramp n g => execMramp n g s
  | .ldlB32 d m => execLdlB32 d m s
  | .ldlB64 d m => execLdlB64 d m s
  | .stlB32 d m => execStlB32 d m s
  | .stlB64 d m => execStlB64 d m s
  | .ldsB32 d m => execLdsB32 d m s
  | .ldsB64 d m => execLdsB64 d m s
  | .ldsB128 d m => execLdsB128 d m s
  | .stsB32 d m => execStsB32 d m s
  | .stsB64 d m => execStsB64 d m s
  | .stsB128 d m => execStsB128 d m s
  | .ldxB32 d m => execLdxB32 d m s
  | .ldxB64 d m => execLdxB64 d m s
  | .ldxB128 d m => execLdxB128 d m s
  | .stxB32 d m => execStxB32 d m s
  | .stxB64 d m => execStxB64 d m s
  | .stxB128 d m => execStxB128 d m s
  | .cpy form td ta n f => execCpy form td ta n f s
  | .put d m => execPut d m s
  | .get d m => execGet d m s
  | .waitp p ka g => execWaitp p ka g s
  | .fence k sc g => execFence k sc g s
  | .afence g => execAfence g s
  | .hflush k ka kb g => execHflush k ka kb g s
  | .dwfence g => execDwfence g s
  | .methreg ka x g => execMethreg ka x g s
  | .atomAddI32 d m => execAtomAddI32 d m s
  | .atomAddF32 d m => execAtomAddF32 d m s
  | .atomMinI32 d m => execAtomMinI32 d m s
  | .atomMaxI32 d m => execAtomMaxI32 d m s
  | .atomMinN32 d m => execAtomMinN32 d m s
  | .atomMaxN32 d m => execAtomMaxN32 d m s
  | .atomAnd d m => execAtomAnd d m s
  | .atomOr d m => execAtomOr d m s
  | .atomXor d m => execAtomXor d m s
  | .atomXchg d m => execAtomXchg d m s
  | .cas d m => execCas d m s
  | .casgt d m => execCasgt d m s
  | .casv d m => execCasv d m s
  | .caspt d m => execCaspt d m s
  | .waitc d m x => execWaitc d m x s
  | .comb d m x => execComb d m x s
  | .coll form td ta kn f => execColl form td ta kn f s
  | .rotOpen td kn b => execRotOpen td kn b s
  | .rotRun ta kn foe => execRotRun ta kn foe s
  | .rotClose kn => execRotClose kn s
  | .xchg td ta n f => execXchg td ta n f s
  | .bpri kn => execBpri kn s
  | .bpriGet kn => execBpriGet kn s
  | .rsto ta kn f => execRsto ta kn f s
  | .upd opt msk pair td ta kn f => execUpd opt msk pair td ta kn f s
  | .pairst td ta n f => execPairst td ta n f s
  | .place op ta kn f => execPlace op ta kn f s
  | .pfence stripe => execPfence stripe s
  | .step kn bar => execStep kn bar s
  | .snap kn bar => execSnap kn bar s
  | .estat k kn => execEstat k kn s
  | .ewait k kn => execEwait k kn s
  | .srr reg idx rk => execSrr reg idx rk s
  | .srw reg idx rk => execSrw reg idx rk s
  | .trap c => execTrap c s
  | .rinj m => execRinj m s
  | .engs ka => execEngs ka s
  | .engr ka => execEngr ka s
  | .join => execJoin s
  | .ret => execRet s
  | .reti => execReti s
  | .idle => execIdle s
  | .halt => execHalt s
  | _ => .next s

/-- REP_REPEAT (R126): repeat INDEX of the word at the fragment's PC, its fields stepped as REPS records (R124); its literal is
read once for all the repeats. -/
def execRepRepeat (s : State) : Outcome :=
  match s.who with
  | none => .fault .noIssuer
  | some is =>
    match s.group? is.gid with
    | none => .fault .noIssuer
    | some g =>
      match g.frag is.entry with
      | none => .fault .noIssuer
      | some f =>
        match fetchInstr s g f.clause f.word g.reps.lit with
        | (s, .fault a x) => .next (fetchTrap s is g (a, x))
        | (_, .wait) => .next s
        | (s, .ok (w, l)) =>
          let r := g.reps
          let s := s.modGroup is.gid fun g => { g with reps := { g.reps with lit := some l } }
          match (decodeRep w.toNat l.toNat).bind fun i => decode (stepWord i w.toNat r.index r.stepd r.stepa r.stepb) l.toNat with
          | none => .next (undecoded s is g w)
          | some i => runWord i s

end Sys2Proof.Machine
end

