-- ==== Sys2Proof/Machine/Dispatch.lean ====
section
/-! DEFINITION. The meaning of every instruction word and of every step of the hardware and the host: one arm per
constructor of `Instr`, each a call of its meaning. -/

namespace Sys2Proof.Machine

/-- What an instruction or a step does to the state. -/
def exec (i : Instr) (s : State) : Host.Outcome State Fault Refusal :=
  match i with
  | .boundaryTrapEntry gid => Sys2Proof.Machine.execBoundaryTrapEntry gid s
  | .blockedWordComplete gid entry => Sys2Proof.Machine.execBlockedWordComplete gid entry s
  | .memoryReply gid seq => Sys2Proof.Machine.execMemoryReply gid seq s
  | .wcbAgeDrain core line => Sys2Proof.Machine.execWcbAgeDrain core line s
  | .fragmentExchange gid entry => Sys2Proof.Machine.execFragmentExchange gid entry s
  | .acqGrant core => Sys2Proof.Machine.execAcqGrant core s
  | .gridRetire grid => Sys2Proof.Machine.execGridRetire grid s
  | .queueDoorbell rank value => Sys2Proof.Machine.execQueueDoorbell rank value s
  | .queueMapRound rank => Sys2Proof.Machine.execQueueMapRound rank s
  | .gridDispatch rank => Sys2Proof.Machine.execGridDispatch rank s
  | .teamPlace rank die => Sys2Proof.Machine.execTeamPlace rank die s
  | .preemptRequest rank => Sys2Proof.Machine.execPreemptRequest rank s
  | .timerExpire gid => Sys2Proof.Machine.execTimerExpire gid s
  | .deadlineExpire gid => Sys2Proof.Machine.execDeadlineExpire gid s
  | .idleTimeout gid entry => Sys2Proof.Machine.execIdleTimeout gid entry s
  | .matrixEntryStart core => Sys2Proof.Machine.execMatrixEntryStart core s
  | .matrixEntryComplete core => Sys2Proof.Machine.execMatrixEntryComplete core s
  | .drainMerge core => Sys2Proof.Machine.execDrainMerge core s
  | .rampWindowEnd core => Sys2Proof.Machine.execRampWindowEnd core s
  | .rampTargetExpire core => Sys2Proof.Machine.execRampTargetExpire core s
  | .throttleWindow core temp droop => Sys2Proof.Machine.execThrottleWindow core temp droop s
  | .energyUpdate rank => Sys2Proof.Machine.execEnergyUpdate rank s
  | .sliceAtomic sl => Sys2Proof.Machine.execSliceAtomic sl s
  | .windowCloseIdle sl win => Sys2Proof.Machine.execWindowCloseIdle sl win s
  | .dwfenceSliceClose fence sl => Sys2Proof.Machine.execDwfenceSliceClose fence sl s
  | .waitcTest sl => Sys2Proof.Machine.execWaitcTest sl s
  | .monitorTimeout sl entry => Sys2Proof.Machine.execMonitorTimeout sl entry s
  | .monitorReclaim sl ctx => Sys2Proof.Machine.execMonitorReclaim sl ctx s
  | .combCallArrive sl => Sys2Proof.Machine.execCombCallArrive sl s
  | .waveStart sl => Sys2Proof.Machine.execWaveStart sl s
  | .waveCommit sl => Sys2Proof.Machine.execWaveCommit sl s
  | .cfclrClear sl => Sys2Proof.Machine.execCfclrClear sl s
  | .methregSliceUpdate reg sl => Sys2Proof.Machine.execMethregSliceUpdate reg sl s
  | .engineChunkStart d engine => Sys2Proof.Machine.execEngineChunkStart d engine s
  | .faultResume d index => Sys2Proof.Machine.execFaultResume d index s
  | .faultAbort d index => Sys2Proof.Machine.execFaultAbort d index s
  | .tlbInvalidate d value => Sys2Proof.Machine.execTlbInvalidate d value s
  | .tlbInvalidateDone d => Sys2Proof.Machine.execTlbInvalidateDone d s
  | .gtsyncGo rank value => Sys2Proof.Machine.execGtsyncGo rank value s
  | .gtsyncReload rank => Sys2Proof.Machine.execGtsyncReload rank s
  | .rstoLineArrive op line => Sys2Proof.Machine.execRstoLineArrive op line s
  | .planeDown part => Sys2Proof.Machine.execPlaneDown part s
  | .xchgTokenAccept op token => Sys2Proof.Machine.execXchgTokenAccept op token s
  | .rotChunkArrive ring => Sys2Proof.Machine.execRotChunkArrive ring s
  | .rotSlotReturn ring slot => Sys2Proof.Machine.execRotSlotReturn ring slot s
  | .rotCreditArrive ring slot => Sys2Proof.Machine.execRotCreditArrive ring slot s
  | .placeCopyDone rank entry => Sys2Proof.Machine.execPlaceCopyDone rank entry s
  | .moraineWrite d => Sys2Proof.Machine.execMoraineWrite d s
  | .tierReadError rank line damaged => Sys2Proof.Machine.execTierReadError rank line damaged s
  | .reconstructDone rank line => Sys2Proof.Machine.execReconstructDone rank line s
  | .stepBoundary rank => Sys2Proof.Machine.execStepBoundary rank s
  | .memberStepReport rank member stepNo => Sys2Proof.Machine.execMemberStepReport rank member stepNo s
  | .supplyLoss rank => Sys2Proof.Machine.execSupplyLoss rank s
  | .supplyOn rank found => Sys2Proof.Machine.execSupplyOn rank found s
  | .startRestart rank found => Sys2Proof.Machine.execStartRestart rank found s
  | .domainGo rank found => Sys2Proof.Machine.execDomainGo rank found s
  | .trimGo rank => Sys2Proof.Machine.execTrimGo rank s
  | .trimApply rank => Sys2Proof.Machine.execTrimApply rank s
  | .packageLossDeclare rank lost => Sys2Proof.Machine.execPackageLossDeclare rank lost s
  | .lossDetectTimeout lost => Sys2Proof.Machine.execLossDetectTimeout lost s
  | .lossReportArrive rank lost => Sys2Proof.Machine.execLossReportArrive rank lost s
  | .fenceComplete rank => Sys2Proof.Machine.execFenceComplete rank s
  | .rebuildUnit rank => Sys2Proof.Machine.execRebuildUnit rank s
  | .bufferSuspectTimeout node buf => Sys2Proof.Machine.execBufferSuspectTimeout node buf s
  | .thawTokenArrive node => Sys2Proof.Machine.execThawTokenArrive node s
  | .meltwaterMove node buf => Sys2Proof.Machine.execMeltwaterMove node buf s
  | .thawStallTimeout node buf => Sys2Proof.Machine.execThawStallTimeout node buf s
  | .deflectionEnter node => Sys2Proof.Machine.execDeflectionEnter node s
  | .deflectionExit node => Sys2Proof.Machine.execDeflectionExit node s
  | .flitSend link => Sys2Proof.Machine.execFlitSend link s
  | .flitReceive link => Sys2Proof.Machine.execFlitReceive link s
  | .nakReceive link => Sys2Proof.Machine.execNakReceive link s
  | .nakHoldoffExpire link => Sys2Proof.Machine.execNakHoldoffExpire link s
  | .linkKeyLoad link tx => Sys2Proof.Machine.execLinkKeyLoad link tx s
  | .linkKeySwitch link => Sys2Proof.Machine.execLinkKeySwitch link s
  | .linkRetrain link => Sys2Proof.Machine.execLinkRetrain link s
  | .linkTrainDone link => Sys2Proof.Machine.execLinkTrainDone link s
  | .partnerRegWrite link offset value => Sys2Proof.Machine.execPartnerRegWrite link offset value s
  | .hostWindowWrite rank offset bytes => Sys2Proof.Machine.execHostWindowWrite rank offset bytes s
  | .attestGo rank => Sys2Proof.Machine.execAttestGo rank s
  | .attestReportWritten rank => Sys2Proof.Machine.execAttestReportWritten rank s
  | .registerWrite rank offset value => Sys2Proof.Machine.execRegisterWrite rank offset value s
  | .switchSramEnable node => Sys2Proof.Machine.execSwitchSramEnable node s
  | .contextDestroy rank ctx => Sys2Proof.Machine.execContextDestroy rank ctx s
  | .uncorrectableError site => Sys2Proof.Machine.execUncorrectableError site s
  | .iadd k d a b g => Sys2Proof.Machine.execIadd k d a b g s
  | .isub k d a b g => Sys2Proof.Machine.execIsub k d a b g s
  | .imul k d a b g => Sys2Proof.Machine.execImul k d a b g s
  | .imad k d a b g => Sys2Proof.Machine.execImad k d a b g s
  | .iminmax k d a b g => Sys2Proof.Machine.execIminmax k d a b g s
  | .iabs k d a g => Sys2Proof.Machine.execIabs k d a g s
  | .logic op d a b g => Sys2Proof.Machine.execLogic op d a b g s
  | .bitop op d a g => Sys2Proof.Machine.execBitop op d a g s
  | .shift op d a b g => Sys2Proof.Machine.execShift op d a b g s
  | .bfe k d a b g => Sys2Proof.Machine.execBfe k d a b g s
  | .bfi d a b g => Sys2Proof.Machine.execBfi d a b g s
  | .icmp k c p a b g => Sys2Proof.Machine.execIcmp k c p a b g s
  | .sel d a b g => Sys2Proof.Machine.execSel d a b g s
  | .add64 k d a b g => Sys2Proof.Machine.execAdd64 k d a b g s
  | .lea sh d a b g => Sys2Proof.Machine.execLea sh d a b g s
  | .iaddi d a imm => Sys2Proof.Machine.execIaddi d a imm s
  | .imuli d a imm => Sys2Proof.Machine.execImuli d a imm s
  | .andi d a imm => Sys2Proof.Machine.execAndi d a imm s
  | .ori d a imm => Sys2Proof.Machine.execOri d a imm s
  | .xori d a imm => Sys2Proof.Machine.execXori d a imm s
  | .shli d a n => Sys2Proof.Machine.execShli d a n s
  | .shri d a n => Sys2Proof.Machine.execShri d a n s
  | .sari d a n => Sys2Proof.Machine.execSari d a n s
  | .icmpiI32 c p a imm => Sys2Proof.Machine.execIcmpiI32 c p a imm s
  | .icmpiN32 c p a imm => Sys2Proof.Machine.execIcmpiN32 c p a imm s
  | .movi d imm => Sys2Proof.Machine.execMovi d imm s
  | .movl d x => Sys2Proof.Machine.execMovl d x s
  | .add64i d a imm => Sys2Proof.Machine.execAdd64i d a imm s
  | .enter n => Sys2Proof.Machine.execEnter n s
  | .fadd rm d a b g => Sys2Proof.Machine.execFadd rm d a b g s
  | .fsub rm d a b g => Sys2Proof.Machine.execFsub rm d a b g s
  | .fmul rm d a b g => Sys2Proof.Machine.execFmul rm d a b g s
  | .ffma rm d a b g => Sys2Proof.Machine.execFfma rm d a b g s
  | .fminmax op d a b g => Sys2Proof.Machine.execFminmax op d a b g s
  | .fcmp f c p a b g => Sys2Proof.Machine.execFcmp f c p a b g s
  | .fsign op d a b g => Sys2Proof.Machine.execFsign op d a b g s
  | .padd2 f d a b g => Sys2Proof.Machine.execPadd2 f d a b g s
  | .pmul2 f d a b g => Sys2Proof.Machine.execPmul2 f d a b g s
  | .pfma2 f d a b g => Sys2Proof.Machine.execPfma2 f d a b g s
  | .pminmax2 f op d a b g => Sys2Proof.Machine.execPminmax2 f op d a b g s
  | .hadd f d a b g => Sys2Proof.Machine.execHadd f d a b g s
  | .hmul f d a b g => Sys2Proof.Machine.execHmul f d a b g s
  | .hfma f d a b g => Sys2Proof.Machine.execHfma f d a b g s
  | .cvt src dst rm d a g => Sys2Proof.Machine.execCvt src dst rm d a g s
  | .pack f d a b g => Sys2Proof.Machine.execPack f d a b g s
  | .unpk f j d a g => Sys2Proof.Machine.execUnpk f j d a g s
  | .frnd rm d a g => Sys2Proof.Machine.execFrnd rm d a g s
  | .fspec fn gr f d a g => Sys2Proof.Machine.execFspec fn gr f d a g s
  | .rand k d g => Sys2Proof.Machine.execRand k d g s
  | .plop op pd pa pb g => Sys2Proof.Machine.execPlop op pd pa pb g s
  | .pmovV d pa g => Sys2Proof.Machine.execPmovV d pa g s
  | .pmovP pd a g => Sys2Proof.Machine.execPmovP pd a g s
  | .rep n sd sa sb => Sys2Proof.Machine.execRep n sd sa sb s
  | .br rcv g m disp => Sys2Proof.Machine.execBr rcv g m disp s
  | .call g disp => Sys2Proof.Machine.execCall g disp s
  | .callk ka g => Sys2Proof.Machine.execCallk ka g s
  | .exit g => Sys2Proof.Machine.execExit g s
  | .ualu op d a b g => Sys2Proof.Machine.execUalu op d a b g s
  | .ucmp op q a b g => Sys2Proof.Machine.execUcmp op q a b g s
  | .umovl k d x g => Sys2Proof.Machine.execUmovl k d x g s
  | .uaddl d a x g => Sys2Proof.Machine.execUaddl d a x g s
  | .qlop op qd qa qb g => Sys2Proof.Machine.execQlop op qd qa qb g s
  | .shfl m d a b g => Sys2Proof.Machine.execShfl m d a b g s
  | .vote op pd pa g => Sys2Proof.Machine.execVote op pd pa g s
  | .ballot d pa g => Sys2Proof.Machine.execBallot d pa g s
  | .redt op d a g => Sys2Proof.Machine.execRedt op d a g s
  | .scan op d a g => Sys2Proof.Machine.execScan op d a g s
  | .bcast kd a w64 src g => Sys2Proof.Machine.execBcast kd a w64 src g s
  | .fragq k d g => Sys2Proof.Machine.execFragq k d g s
  | .barinit b kb g => Sys2Proof.Machine.execBarinit b kb g s
  | .barx arr b kb g => Sys2Proof.Machine.execBarx arr b kb g s
  | .bara b g => Sys2Proof.Machine.execBara b g s
  | .barw kd b g => Sys2Proof.Machine.execBarw kd b g s
  | .bart op d b g => Sys2Proof.Machine.execBart op d b g s
  | .launch kd ka g => Sys2Proof.Machine.execLaunch kd ka g s
  | .cwait kd ka g => Sys2Proof.Machine.execCwait kd ka g s
  | .acq what kd ka g => Sys2Proof.Machine.execAcq what kd ka g s
  | .rel what ka g => Sys2Proof.Machine.execRel what ka g s
  | .tset t ka kb g => Sys2Proof.Machine.execTset t ka kb g s
  | .tget kd t h g => Sys2Proof.Machine.execTget kd t h g s
  | .mmaE4m3 z tb va scl ru => Sys2Proof.Machine.execMmaE4m3 z tb va scl ru s
  | .mmaE5m2 z tb va scl ru => Sys2Proof.Machine.execMmaE5m2 z tb va scl ru s
  | .mmaL6 z tb va scl ru => Sys2Proof.Machine.execMmaL6 z tb va scl ru s
  | .mmaI8 z tb va ru => Sys2Proof.Machine.execMmaI8 z tb va ru s
  | .mmaBf16 z tb va ru => Sys2Proof.Machine.execMmaBf16 z tb va ru s
  | .mmaF16 z tb va ru => Sys2Proof.Machine.execMmaF16 z tb va ru s
  | .mzero z bar => Sys2Proof.Machine.execMzero z bar s
  | .mld z ta f => Sys2Proof.Machine.execMld z ta f s
  | .mst ta z f => Sys2Proof.Machine.execMst ta z f s
  | .mdrain fmt ta z kx clr f => Sys2Proof.Machine.execMdrain fmt ta z kx clr f s
  | .mramp n g => Sys2Proof.Machine.execMramp n g s
  | .ldlB32 d m => Sys2Proof.Machine.execLdlB32 d m s
  | .ldlB64 d m => Sys2Proof.Machine.execLdlB64 d m s
  | .stlB32 d m => Sys2Proof.Machine.execStlB32 d m s
  | .stlB64 d m => Sys2Proof.Machine.execStlB64 d m s
  | .ldsB32 d m => Sys2Proof.Machine.execLdsB32 d m s
  | .ldsB64 d m => Sys2Proof.Machine.execLdsB64 d m s
  | .ldsB128 d m => Sys2Proof.Machine.execLdsB128 d m s
  | .stsB32 d m => Sys2Proof.Machine.execStsB32 d m s
  | .stsB64 d m => Sys2Proof.Machine.execStsB64 d m s
  | .stsB128 d m => Sys2Proof.Machine.execStsB128 d m s
  | .ldxB32 d m => Sys2Proof.Machine.execLdxB32 d m s
  | .ldxB64 d m => Sys2Proof.Machine.execLdxB64 d m s
  | .ldxB128 d m => Sys2Proof.Machine.execLdxB128 d m s
  | .stxB32 d m => Sys2Proof.Machine.execStxB32 d m s
  | .stxB64 d m => Sys2Proof.Machine.execStxB64 d m s
  | .stxB128 d m => Sys2Proof.Machine.execStxB128 d m s
  | .cpy form td ta n f => Sys2Proof.Machine.execCpy form td ta n f s
  | .put d m => Sys2Proof.Machine.execPut d m s
  | .get d m => Sys2Proof.Machine.execGet d m s
  | .waitp p ka g => Sys2Proof.Machine.execWaitp p ka g s
  | .fence k sc g => Sys2Proof.Machine.execFence k sc g s
  | .afence g => Sys2Proof.Machine.execAfence g s
  | .hflush k ka kb g => Sys2Proof.Machine.execHflush k ka kb g s
  | .dwfence g => Sys2Proof.Machine.execDwfence g s
  | .methreg ka x g => Sys2Proof.Machine.execMethreg ka x g s
  | .atomAddI32 d m => Sys2Proof.Machine.execAtomAddI32 d m s
  | .atomAddF32 d m => Sys2Proof.Machine.execAtomAddF32 d m s
  | .atomMinI32 d m => Sys2Proof.Machine.execAtomMinI32 d m s
  | .atomMaxI32 d m => Sys2Proof.Machine.execAtomMaxI32 d m s
  | .atomMinN32 d m => Sys2Proof.Machine.execAtomMinN32 d m s
  | .atomMaxN32 d m => Sys2Proof.Machine.execAtomMaxN32 d m s
  | .atomAnd d m => Sys2Proof.Machine.execAtomAnd d m s
  | .atomOr d m => Sys2Proof.Machine.execAtomOr d m s
  | .atomXor d m => Sys2Proof.Machine.execAtomXor d m s
  | .atomXchg d m => Sys2Proof.Machine.execAtomXchg d m s
  | .cas d m => Sys2Proof.Machine.execCas d m s
  | .casgt d m => Sys2Proof.Machine.execCasgt d m s
  | .casv d m => Sys2Proof.Machine.execCasv d m s
  | .caspt d m => Sys2Proof.Machine.execCaspt d m s
  | .waitc d m x => Sys2Proof.Machine.execWaitc d m x s
  | .comb d m x => Sys2Proof.Machine.execComb d m x s
  | .coll form td ta kn f => Sys2Proof.Machine.execColl form td ta kn f s
  | .rotOpen td kn b => Sys2Proof.Machine.execRotOpen td kn b s
  | .rotRun ta kn foe => Sys2Proof.Machine.execRotRun ta kn foe s
  | .rotClose kn => Sys2Proof.Machine.execRotClose kn s
  | .xchg td ta n f => Sys2Proof.Machine.execXchg td ta n f s
  | .bpri kn => Sys2Proof.Machine.execBpri kn s
  | .bpriGet kn => Sys2Proof.Machine.execBpriGet kn s
  | .rsto ta kn f => Sys2Proof.Machine.execRsto ta kn f s
  | .upd opt msk pair td ta kn f => Sys2Proof.Machine.execUpd opt msk pair td ta kn f s
  | .pairst td ta n f => Sys2Proof.Machine.execPairst td ta n f s
  | .place op ta kn f => Sys2Proof.Machine.execPlace op ta kn f s
  | .pfence stripe => Sys2Proof.Machine.execPfence stripe s
  | .step kn bar => Sys2Proof.Machine.execStep kn bar s
  | .snap kn bar => Sys2Proof.Machine.execSnap kn bar s
  | .estat k kn => Sys2Proof.Machine.execEstat k kn s
  | .ewait k kn => Sys2Proof.Machine.execEwait k kn s
  | .srr reg idx rk => Sys2Proof.Machine.execSrr reg idx rk s
  | .srw reg idx rk => Sys2Proof.Machine.execSrw reg idx rk s
  | .trap c => Sys2Proof.Machine.execTrap c s
  | .rinj m => Sys2Proof.Machine.execRinj m s
  | .engs ka => Sys2Proof.Machine.execEngs ka s
  | .engr ka => Sys2Proof.Machine.execEngr ka s
  | .clauseStart => Sys2Proof.Machine.execClauseStart s
  | .repRepeat => Sys2Proof.Machine.execRepRepeat s
  | .thawTokenReissue => Sys2Proof.Machine.execThawTokenReissue s
  | .copyChunkCommit => Sys2Proof.Machine.execCopyChunkCommit s
  | .copyComplete => Sys2Proof.Machine.execCopyComplete s
  | .chunkLinkTimeout => Sys2Proof.Machine.execChunkLinkTimeout s
  | .collChunkCommit => Sys2Proof.Machine.execCollChunkCommit s
  | .collComplete => Sys2Proof.Machine.execCollComplete s
  | .rstoComplete => Sys2Proof.Machine.execRstoComplete s
  | .xchgComplete => Sys2Proof.Machine.execXchgComplete s
  | .rotOpenComplete => Sys2Proof.Machine.execRotOpenComplete s
  | .rotRunComplete => Sys2Proof.Machine.execRotRunComplete s
  | .rotCloseComplete => Sys2Proof.Machine.execRotCloseComplete s
  | .updBlockWrite => Sys2Proof.Machine.execUpdBlockWrite s
  | .updComplete => Sys2Proof.Machine.execUpdComplete s
  | .pairstComplete => Sys2Proof.Machine.execPairstComplete s
  | .putAck => Sys2Proof.Machine.execPutAck s
  | .putLineApply => Sys2Proof.Machine.execPutLineApply s
  | .peerAccess => Sys2Proof.Machine.execPeerAccess s
  | .packetHop => Sys2Proof.Machine.execPacketHop s
  | .packetDeliver => Sys2Proof.Machine.execPacketDeliver s
  | .parityDeltaArrive => Sys2Proof.Machine.execParityDeltaArrive s
  | .parityAckArrive => Sys2Proof.Machine.execParityAckArrive s
  | .reduceMergeApply => Sys2Proof.Machine.execReduceMergeApply s
  | .join => Sys2Proof.Machine.execJoin s
  | .ret => Sys2Proof.Machine.execRet s
  | .reti => Sys2Proof.Machine.execReti s
  | .idle => Sys2Proof.Machine.execIdle s
  | .halt => Sys2Proof.Machine.execHalt s

end Sys2Proof.Machine
end

