-- ==== Sys2Proof/Machine/Step.lean ====
section
/-! DEFINITION. One step of the domain: time passes, and the next move of the agenda is made. -/

namespace Sys2Proof.Machine

/-- One step: what the next move runs, if it runs an instruction or a step of the opcode table, is `exec` of it, and an issue
opportunity at which no word started has not passed. -/
def step (s : State) : Host.Outcome State Fault Refusal :=
  match nextIssue s.tick with
  | .done s => .next s
  | .run i s' =>
    match exec i s' with
    | .next t => .next (afterIssue s.tick s' t)
    | .fault f => .fault f
    | .refused r => .refused r

/-- The state with the instruction of an opcode-table row's bits placed where the next step fetches. -/
def State.withFetchWord (s : State) (_nbits w : Nat) : State := bootState s w

end Sys2Proof.Machine
end

