-- ==== Sys2Proof/Laws/Encode.lean ====
section
/-! SUPPORT. The fields that a format packs are the fields that `pick` reads: one lemma per format and field. -/

namespace Sys2Proof

theorem b2n_true : b2n true = 1 := rfl
theorem b2n_false : b2n false = 0 := rfl

/-- A word whose opcode and fields are read as i decodes to i. -/
theorem decode_of_pick (i : Instr) (w l : Nat) (hp : pick w l = some i) (he : (encode i).headD 0 = w) (hw : i.wf = true) :
    decode w l = some i := by
  rw [decode, hp]
  simp only [he, hw, beq_self_eq_true, Bool.and_self, if_true]

/-! ### Format fmtT -/

theorem fmtT_hi (op d a b m : Nat) (g : Guard) (hd : d < 64) (ha : a < 64) (hb : b < 64) (hm : m < 4) :
    (fmtT op d a b g m) / 2 ^ 28 = op / 16 := by
  obtain ⟨n, p⟩ := g
  have hp := p.isLt
  have hn : b2n n < 2 := by cases n <;> decide
  simp only [fmtT, encG, Nat.reducePow]
  omega

theorem fmtT_lo (op d a b m : Nat) (g : Guard) (hd : d < 64) (ha : a < 64) (hb : b < 64) (hm : m < 4) :
    bitsOf (fmtT op d a b g m) 24 4 = op % 16 := by
  obtain ⟨n, p⟩ := g
  have hp := p.isLt
  have hn : b2n n < 2 := by cases n <;> decide
  simp only [bitsOf, fmtT, encG, Nat.reducePow]
  omega

theorem fmtT_d (op d a b m : Nat) (g : Guard) (ha : a < 64) (hb : b < 64) (hm : m < 4) :
    fD (fmtT op d a b g m) = BitVec.ofNat 6 d := by
  obtain ⟨n, p⟩ := g
  have hp := p.isLt
  have hn : b2n n < 2 := by cases n <;> decide
  apply BitVec.eq_of_toNat_eq
  simp only [fD, fld, fmtT, encG, BitVec.toNat_ofNat, Nat.reducePow]
  omega

theorem fmtT_d3 (op d a b m : Nat) (g : Guard) (ha : a < 64) (hb : b < 64) (hm : m < 4) :
    fld 3 18 (fmtT op d a b g m) = BitVec.ofNat 3 d := by
  obtain ⟨n, p⟩ := g
  have hp := p.isLt
  have hn : b2n n < 2 := by cases n <;> decide
  apply BitVec.eq_of_toNat_eq
  simp only [fld, fmtT, encG, BitVec.toNat_ofNat, Nat.reducePow]
  omega

theorem fmtT_d5 (op d a b m : Nat) (g : Guard) (ha : a < 64) (hb : b < 64) (hm : m < 4) :
    fld 5 18 (fmtT op d a b g m) = BitVec.ofNat 5 d := by
  obtain ⟨n, p⟩ := g
  have hp := p.isLt
  have hn : b2n n < 2 := by cases n <;> decide
  apply BitVec.eq_of_toNat_eq
  simp only [fld, fmtT, encG, BitVec.toNat_ofNat, Nat.reducePow]
  omega

theorem fmtT_cond (op d a b m : Nat) (g : Guard) (ha : a < 64) (hb : b < 64) (hm : m < 4) :
    bitsOf (fmtT op d a b g m) 21 3 = d / 8 % 8 := by
  obtain ⟨n, p⟩ := g
  have hp := p.isLt
  have hn : b2n n < 2 := by cases n <;> decide
  simp only [bitsOf, fmtT, encG, Nat.reducePow]
  omega

theorem fmtT_a (op d a b m : Nat) (g : Guard) (hb : b < 64) (hm : m < 4) :
    fA (fmtT op d a b g m) = BitVec.ofNat 6 a := by
  obtain ⟨n, p⟩ := g
  have hp := p.isLt
  have hn : b2n n < 2 := by cases n <;> decide
  apply BitVec.eq_of_toNat_eq
  simp only [fA, fld, fmtT, encG, BitVec.toNat_ofNat, Nat.reducePow]
  omega

theorem fmtT_a3 (op d a b m : Nat) (g : Guard) (hb : b < 64) (hm : m < 4) :
    fld 3 12 (fmtT op d a b g m) = BitVec.ofNat 3 a := by
  obtain ⟨n, p⟩ := g
  have hp := p.isLt
  have hn : b2n n < 2 := by cases n <;> decide
  apply BitVec.eq_of_toNat_eq
  simp only [fld, fmtT, encG, BitVec.toNat_ofNat, Nat.reducePow]
  omega

theorem fmtT_b (op d a b m : Nat) (g : Guard) (hm : m < 4) :
    fB (fmtT op d a b g m) = BitVec.ofNat 6 b := by
  obtain ⟨n, p⟩ := g
  have hp := p.isLt
  have hn : b2n n < 2 := by cases n <;> decide
  apply BitVec.eq_of_toNat_eq
  simp only [fB, fld, fmtT, encG, BitVec.toNat_ofNat, Nat.reducePow]
  omega

theorem fmtT_b3 (op d a b m : Nat) (g : Guard) (hm : m < 4) :
    fld 3 6 (fmtT op d a b g m) = BitVec.ofNat 3 b := by
  obtain ⟨n, p⟩ := g
  have hp := p.isLt
  have hn : b2n n < 2 := by cases n <;> decide
  apply BitVec.eq_of_toNat_eq
  simp only [fld, fmtT, encG, BitVec.toNat_ofNat, Nat.reducePow]
  omega

theorem fmtT_b4 (op d a b m : Nat) (g : Guard) (hm : m < 4) :
    fld 4 6 (fmtT op d a b g m) = BitVec.ofNat 4 b := by
  obtain ⟨n, p⟩ := g
  have hp := p.isLt
  have hn : b2n n < 2 := by cases n <;> decide
  apply BitVec.eq_of_toNat_eq
  simp only [fld, fmtT, encG, BitVec.toNat_ofNat, Nat.reducePow]
  omega

theorem fmtT_bhi (op d a b m : Nat) (g : Guard) (hm : m < 4) :
    bitsOf (fmtT op d a b g m) 9 3 = b / 8 % 8 := by
  obtain ⟨n, p⟩ := g
  have hp := p.isLt
  have hn : b2n n < 2 := by cases n <;> decide
  simp only [bitsOf, fmtT, encG, Nat.reducePow]
  omega

theorem fmtT_blo (op d a b m : Nat) (g : Guard) (hm : m < 4) :
    bitsOf (fmtT op d a b g m) 6 3 = b % 8 := by
  obtain ⟨n, p⟩ := g
  have hp := p.isLt
  have hn : b2n n < 2 := by cases n <;> decide
  simp only [bitsOf, fmtT, encG, Nat.reducePow]
  omega

theorem fmtT_bg (op d a b m : Nat) (g : Guard) (hm : m < 4) :
    bitsOf (fmtT op d a b g m) 9 1 = b / 8 % 2 := by
  obtain ⟨n, p⟩ := g
  have hp := p.isLt
  have hn : b2n n < 2 := by cases n <;> decide
  simp only [bitsOf, fmtT, encG, Nat.reducePow]
  omega

theorem fmtT_bw (op d a b m : Nat) (g : Guard) (hm : m < 4) :
    (fmtT op d a b g m) / 2 ^ 10 % 2 = b / 16 % 2 := by
  obtain ⟨n, p⟩ := g
  have hp := p.isLt
  have hn : b2n n < 2 := by cases n <;> decide
  simp only [fmtT, encG, Nat.reducePow]
  omega

theorem fmtT_m (op d a b m : Nat) (g : Guard) (hm : m < 4) :
    fM (fmtT op d a b g m) = m := by
  obtain ⟨n, p⟩ := g
  have hp := p.isLt
  have hn : b2n n < 2 := by cases n <;> decide
  simp only [fM, bitsOf, fmtT, encG, Nat.reducePow]
  omega

theorem fmtT_m2 (op d a b m : Nat) (g : Guard)  :
    fld 2 0 (fmtT op d a b g m) = BitVec.ofNat 2 m := by
  obtain ⟨n, p⟩ := g
  have hp := p.isLt
  have hn : b2n n < 2 := by cases n <;> decide
  apply BitVec.eq_of_toNat_eq
  simp only [fld, fmtT, encG, BitVec.toNat_ofNat, Nat.reducePow]
  omega

theorem fmtT_m1 (op d a b m : Nat) (g : Guard) (hm : m < 4) :
    bitsOf (fmtT op d a b g m) 1 1 = m / 2 := by
  obtain ⟨n, p⟩ := g
  have hp := p.isLt
  have hn : b2n n < 2 := by cases n <;> decide
  simp only [bitsOf, fmtT, encG, Nat.reducePow]
  omega

theorem fmtT_m0 (op d a b m : Nat) (g : Guard)  :
    bitsOf (fmtT op d a b g m) 0 1 = m % 2 := by
  obtain ⟨n, p⟩ := g
  have hp := p.isLt
  have hn : b2n n < 2 := by cases n <;> decide
  simp only [bitsOf, fmtT, encG, Nat.reducePow]
  omega

theorem fmtT_g (op d a b m : Nat) (g : Guard) (hm : m < 4) : fG (fmtT op d a b g m) = g := by
  obtain ⟨n, p⟩ := g
  have hp := p.isLt
  have h1 : fld 3 2 (fmtT op d a b ⟨n, p⟩ m) = p := by
    apply BitVec.eq_of_toNat_eq
    cases n <;> simp only [fld, fmtT, encG, b2n_true, b2n_false, BitVec.toNat_ofNat, Nat.reducePow] <;> omega
  have h2 : fmtT op d a b ⟨n, p⟩ m / 2 ^ 5 % 2 = b2n n := by
    cases n <;> simp only [fmtT, encG, b2n_true, b2n_false, Nat.reducePow] <;> omega
  simp only [fG, h1, bitOf, h2]
  cases n <;> rfl

/-! ### Format fmtI -/

theorem fmtI_hi (op d a i : Nat) (hd : d < 64) (ha : a < 64) (hi : i < 4096) :
    (fmtI op d a i) / 2 ^ 28 = op / 16 := by

  simp only [fmtI, Nat.reducePow]
  omega

theorem fmtI_lo (op d a i : Nat) (hd : d < 64) (ha : a < 64) (hi : i < 4096) :
    bitsOf (fmtI op d a i) 24 4 = op % 16 := by

  simp only [bitsOf, fmtI, Nat.reducePow]
  omega

theorem fmtI_d (op d a i : Nat) (ha : a < 64) (hi : i < 4096) :
    fD (fmtI op d a i) = BitVec.ofNat 6 d := by

  apply BitVec.eq_of_toNat_eq
  simp only [fD, fld, fmtI, BitVec.toNat_ofNat, Nat.reducePow]
  omega

theorem fmtI_d3 (op d a i : Nat) (ha : a < 64) (hi : i < 4096) :
    fld 3 18 (fmtI op d a i) = BitVec.ofNat 3 d := by

  apply BitVec.eq_of_toNat_eq
  simp only [fld, fmtI, BitVec.toNat_ofNat, Nat.reducePow]
  omega

theorem fmtI_cond (op d a i : Nat) (ha : a < 64) (hi : i < 4096) :
    bitsOf (fmtI op d a i) 21 3 = d / 8 % 8 := by

  simp only [bitsOf, fmtI, Nat.reducePow]
  omega

theorem fmtI_a (op d a i : Nat) (hi : i < 4096) :
    fA (fmtI op d a i) = BitVec.ofNat 6 a := by

  apply BitVec.eq_of_toNat_eq
  simp only [fA, fld, fmtI, BitVec.toNat_ofNat, Nat.reducePow]
  omega

theorem fmtI_i (op d a i : Nat)  :
    fI (fmtI op d a i) = BitVec.ofNat 12 i := by

  apply BitVec.eq_of_toNat_eq
  simp only [fI, fld, fmtI, BitVec.toNat_ofNat, Nat.reducePow]
  omega

theorem fmtI_i5 (op d a i : Nat)  :
    fld 5 0 (fmtI op d a i) = BitVec.ofNat 5 i := by

  apply BitVec.eq_of_toNat_eq
  simp only [fld, fmtI, BitVec.toNat_ofNat, Nat.reducePow]
  omega

/-- The guard bits of a K-format word stay within their field. -/
theorem encQ_lt (g : UGuard) : encQ g < 512 ∧ encQ g % 32 = 0 := by
  rcases g with _ | ⟨n, q⟩
  · exact ⟨by decide, by decide⟩
  · have := q.isLt
    cases n <;> simp only [encQ, b2n_true, b2n_false] <;> omega

/-! ### Format fmtK -/

theorem fmtK_hi (op kd ka kb f : Nat) (g : UGuard) (hd : kd < 32) (ha : ka < 32) (hb : kb < 32) (hf : f < 32) :
    (fmtK op kd ka kb g f) / 2 ^ 28 = op / 16 := by
  have hq := encQ_lt g
  simp only [fmtK, Nat.reducePow]
  omega

theorem fmtK_lo (op kd ka kb f : Nat) (g : UGuard) (hd : kd < 32) (ha : ka < 32) (hb : kb < 32) (hf : f < 32) :
    bitsOf (fmtK op kd ka kb g f) 24 4 = op % 16 := by
  have hq := encQ_lt g
  simp only [bitsOf, fmtK, Nat.reducePow]
  omega

theorem fmtK_kd (op kd ka kb f : Nat) (g : UGuard) (ha : ka < 32) (hb : kb < 32) (hf : f < 32) :
    fKD (fmtK op kd ka kb g f) = BitVec.ofNat 5 kd := by
  have hq := encQ_lt g
  apply BitVec.eq_of_toNat_eq
  simp only [fKD, fld, fmtK, BitVec.toNat_ofNat, Nat.reducePow]
  omega

theorem fmtK_kd2 (op kd ka kb f : Nat) (g : UGuard) (ha : ka < 32) (hb : kb < 32) (hf : f < 32) :
    fld 2 19 (fmtK op kd ka kb g f) = BitVec.ofNat 2 kd := by
  have hq := encQ_lt g
  apply BitVec.eq_of_toNat_eq
  simp only [fld, fmtK, BitVec.toNat_ofNat, Nat.reducePow]
  omega

theorem fmtK_kd4 (op kd ka kb f : Nat) (g : UGuard) (ha : ka < 32) (hb : kb < 32) (hf : f < 32) :
    fld 4 19 (fmtK op kd ka kb g f) = BitVec.ofNat 4 kd := by
  have hq := encQ_lt g
  apply BitVec.eq_of_toNat_eq
  simp only [fld, fmtK, BitVec.toNat_ofNat, Nat.reducePow]
  omega

theorem fmtK_ka (op kd ka kb f : Nat) (g : UGuard) (hb : kb < 32) (hf : f < 32) :
    fKA (fmtK op kd ka kb g f) = BitVec.ofNat 5 ka := by
  have hq := encQ_lt g
  apply BitVec.eq_of_toNat_eq
  simp only [fKA, fld, fmtK, BitVec.toNat_ofNat, Nat.reducePow]
  omega

theorem fmtK_ka2 (op kd ka kb f : Nat) (g : UGuard) (hb : kb < 32) (hf : f < 32) :
    fld 2 14 (fmtK op kd ka kb g f) = BitVec.ofNat 2 ka := by
  have hq := encQ_lt g
  apply BitVec.eq_of_toNat_eq
  simp only [fld, fmtK, BitVec.toNat_ofNat, Nat.reducePow]
  omega

theorem fmtK_ka4 (op kd ka kb f : Nat) (g : UGuard) (hb : kb < 32) (hf : f < 32) :
    fld 4 14 (fmtK op kd ka kb g f) = BitVec.ofNat 4 ka := by
  have hq := encQ_lt g
  apply BitVec.eq_of_toNat_eq
  simp only [fld, fmtK, BitVec.toNat_ofNat, Nat.reducePow]
  omega

theorem fmtK_kb (op kd ka kb f : Nat) (g : UGuard) (hf : f < 32) :
    fKB (fmtK op kd ka kb g f) = BitVec.ofNat 5 kb := by
  have hq := encQ_lt g
  apply BitVec.eq_of_toNat_eq
  simp only [fKB, fld, fmtK, BitVec.toNat_ofNat, Nat.reducePow]
  omega

theorem fmtK_kb2 (op kd ka kb f : Nat) (g : UGuard) (hf : f < 32) :
    fld 2 9 (fmtK op kd ka kb g f) = BitVec.ofNat 2 kb := by
  have hq := encQ_lt g
  apply BitVec.eq_of_toNat_eq
  simp only [fld, fmtK, BitVec.toNat_ofNat, Nat.reducePow]
  omega

theorem fmtK_f (op kd ka kb f : Nat) (g : UGuard) (hf : f < 32) :
    fF (fmtK op kd ka kb g f) = f := by
  have hq := encQ_lt g
  simp only [fF, bitsOf, fmtK, Nat.reducePow]
  omega

theorem fmtK_f3 (op kd ka kb f : Nat) (g : UGuard)  :
    fld 3 0 (fmtK op kd ka kb g f) = BitVec.ofNat 3 f := by
  have hq := encQ_lt g
  apply BitVec.eq_of_toNat_eq
  simp only [fld, fmtK, BitVec.toNat_ofNat, Nat.reducePow]
  omega

theorem fmtK_f5 (op kd ka kb f : Nat) (g : UGuard)  :
    fld 5 0 (fmtK op kd ka kb g f) = BitVec.ofNat 5 f := by
  have hq := encQ_lt g
  apply BitVec.eq_of_toNat_eq
  simp only [fld, fmtK, BitVec.toNat_ofNat, Nat.reducePow]
  omega

theorem fmtK_fk (op kd ka kb f : Nat) (g : UGuard)  :
    bitsOf (fmtK op kd ka kb g f) 3 2 = f / 8 % 4 := by
  have hq := encQ_lt g
  simp only [bitsOf, fmtK, Nat.reducePow]
  omega

theorem fmtK_fs (op kd ka kb f : Nat) (g : UGuard)  :
    bitsOf (fmtK op kd ka kb g f) 0 3 = f % 8 := by
  have hq := encQ_lt g
  simp only [bitsOf, fmtK, Nat.reducePow]
  omega

theorem fmtK_f0 (op kd ka kb f : Nat) (g : UGuard)  :
    (fmtK op kd ka kb g f) / 2 ^ 0 % 2 = f % 2 := by
  have hq := encQ_lt g
  simp only [fmtK, Nat.reducePow]
  omega

theorem fmtK_g (op kd ka kb f : Nat) (g : UGuard) (hf : f < 32) : fQ (fmtK op kd ka kb g f) = g := by
  rcases g with _ | ⟨n, q⟩
  · have h : fmtK op kd ka kb none f / 2 ^ 8 % 2 = 0 := by simp only [fmtK, encQ, Nat.reducePow]; omega
    simp only [fQ, bitOf, h]
    rfl
  · have hq := q.isLt
    have h1 : fmtK op kd ka kb (some (n, q)) f / 2 ^ 8 % 2 = 1 := by
      cases n <;> simp only [fmtK, encQ, b2n_true, b2n_false, Nat.reducePow] <;> omega
    have h2 : fmtK op kd ka kb (some (n, q)) f / 2 ^ 7 % 2 = b2n n := by
      cases n <;> simp only [fmtK, encQ, b2n_true, b2n_false, Nat.reducePow] <;> omega
    have h3 : fld 2 5 (fmtK op kd ka kb (some (n, q)) f) = q := by
      apply BitVec.eq_of_toNat_eq
      cases n <;> simp only [fld, fmtK, encQ, b2n_true, b2n_false, BitVec.toNat_ofNat, Nat.reducePow] <;> omega
    simp only [fQ, bitOf, h1, h2, h3]
    cases n <;> rfl

/-! ### Format M -/

theorem fmtM_hi (op path : Nat) (d : VReg) (m : MAddr) (hp : path < 8) : (fmtM op path d m) / 2 ^ 28 = op / 16 := by
  obtain ⟨k, x, o, p⟩ := m
  have := d.isLt
  have := k.isLt
  have := o.isLt
  have := p.isLt
  cases x <;> simp only [fmtM, b2n_true, b2n_false, Nat.reducePow] <;> omega

theorem fmtM_lo (op path : Nat) (d : VReg) (m : MAddr) (hp : path < 8) : bitsOf (fmtM op path d m) 24 4 = op % 16 := by
  obtain ⟨k, x, o, p⟩ := m
  have := d.isLt
  have := k.isLt
  have := o.isLt
  have := p.isLt
  cases x <;> simp only [bitsOf, fmtM, b2n_true, b2n_false, Nat.reducePow] <;> omega

theorem fmtM_d (op path : Nat) (d : VReg) (m : MAddr) (hp : path < 8) : fD (fmtM op path d m) = d := by
  obtain ⟨k, x, o, p⟩ := m
  have := d.isLt
  have := k.isLt
  have := o.isLt
  have := p.isLt
  apply BitVec.eq_of_toNat_eq
  cases x <;> simp only [fD, fld, fmtM, b2n_true, b2n_false, BitVec.toNat_ofNat, Nat.reducePow] <;> omega

theorem fmtM_m (op path : Nat) (d : VReg) (m : MAddr) (hp : path < 8) : fMA (fmtM op path d m) = m := by
  obtain ⟨k, x, o, p⟩ := m
  have := d.isLt
  have := k.isLt
  have := o.isLt
  have := p.isLt
  have h1 : fld 5 13 (fmtM op path d ⟨k, x, o, p⟩) = k := by
    apply BitVec.eq_of_toNat_eq
    cases x <;> simp only [fld, fmtM, b2n_true, b2n_false, BitVec.toNat_ofNat, Nat.reducePow] <;> omega
  have h2 : fmtM op path d ⟨k, x, o, p⟩ / 2 ^ 12 % 2 = b2n x := by
    cases x <;> simp only [fmtM, b2n_true, b2n_false, Nat.reducePow] <;> omega
  have h3 : fld 6 6 (fmtM op path d ⟨k, x, o, p⟩) = o := by
    apply BitVec.eq_of_toNat_eq
    cases x <;> simp only [fld, fmtM, b2n_true, b2n_false, BitVec.toNat_ofNat, Nat.reducePow] <;> omega
  have h4 : fld 3 0 (fmtM op path d ⟨k, x, o, p⟩) = p := by
    apply BitVec.eq_of_toNat_eq
    cases x <;> simp only [fld, fmtM, b2n_true, b2n_false, BitVec.toNat_ofNat, Nat.reducePow] <;> omega
  simp only [fMA, h1, h3, h4, bitOf, h2]
  cases x <;> rfl

/-- The bits of a barrier stay within their field. -/
theorem encBar_lt (b : Option BReg) : encBar b < 4096 ∧ encBar b % 32 = 0 ∧ encBar b / 64 % 2 = 0 := by
  rcases b with _ | b
  · exact ⟨by decide, by decide, by decide⟩
  · have := b.isLt
    simp only [encBar]
    omega

/-! ### Format fmtX -/

theorem fmtX_hi (op td ta n func : Nat) (c : Compl) (hd : td < 16) (ha : ta < 16) (hn : n < 16) (hf : func < 32) :
    (fmtX op td ta n c func) / 2 ^ 28 = op / 16 := by
  have hb := encBar_lt c.bar
  have hx : b2n c.foe < 2 := by cases c.foe <;> decide
  simp only [fmtX, Nat.reducePow]
  omega

theorem fmtX_lo (op td ta n func : Nat) (c : Compl) (hd : td < 16) (ha : ta < 16) (hn : n < 16) (hf : func < 32) :
    bitsOf (fmtX op td ta n c func) 24 4 = op % 16 := by
  have hb := encBar_lt c.bar
  have hx : b2n c.foe < 2 := by cases c.foe <;> decide
  simp only [bitsOf, fmtX, Nat.reducePow]
  omega

theorem fmtX_td (op td ta n func : Nat) (c : Compl) (ha : ta < 16) (hn : n < 16) (hf : func < 32) :
    fTD (fmtX op td ta n c func) = BitVec.ofNat 4 td := by
  have hb := encBar_lt c.bar
  have hx : b2n c.foe < 2 := by cases c.foe <;> decide
  apply BitVec.eq_of_toNat_eq
  simp only [fTD, fld, fmtX, BitVec.toNat_ofNat, Nat.reducePow]
  omega

theorem fmtX_ta (op td ta n func : Nat) (c : Compl) (hn : n < 16) (hf : func < 32) :
    fTA (fmtX op td ta n c func) = BitVec.ofNat 4 ta := by
  have hb := encBar_lt c.bar
  have hx : b2n c.foe < 2 := by cases c.foe <;> decide
  apply BitVec.eq_of_toNat_eq
  simp only [fTA, fld, fmtX, BitVec.toNat_ofNat, Nat.reducePow]
  omega

theorem fmtX_n (op td ta n func : Nat) (c : Compl) (hf : func < 32) :
    fN (fmtX op td ta n c func) = BitVec.ofNat 4 n := by
  have hb := encBar_lt c.bar
  have hx : b2n c.foe < 2 := by cases c.foe <;> decide
  apply BitVec.eq_of_toNat_eq
  simp only [fN, fld, fmtX, BitVec.toNat_ofNat, Nat.reducePow]
  omega

theorem fmtX_f (op td ta n func : Nat) (c : Compl) (hf : func < 32) :
    fF (fmtX op td ta n c func) = func := by
  have hb := encBar_lt c.bar
  have hx : b2n c.foe < 2 := by cases c.foe <;> decide
  simp only [fF, bitsOf, fmtX, Nat.reducePow]
  omega

theorem fmtX_f0 (op td ta n func : Nat) (c : Compl)  :
    (fmtX op td ta n c func) / 2 ^ 0 % 2 = func % 2 := by
  have hb := encBar_lt c.bar
  have hx : b2n c.foe < 2 := by cases c.foe <;> decide
  simp only [fmtX, Nat.reducePow]
  omega

theorem fmtX_f02 (op td ta n func : Nat) (c : Compl)  :
    bitsOf (fmtX op td ta n c func) 0 2 = func % 4 := by
  have hb := encBar_lt c.bar
  have hx : b2n c.foe < 2 := by cases c.foe <;> decide
  simp only [bitsOf, fmtX, Nat.reducePow]
  omega

theorem fmtX_f22 (op td ta n func : Nat) (c : Compl)  :
    bitsOf (fmtX op td ta n c func) 2 2 = func / 4 % 4 := by
  have hb := encBar_lt c.bar
  have hx : b2n c.foe < 2 := by cases c.foe <;> decide
  simp only [bitsOf, fmtX, Nat.reducePow]
  omega

theorem fmtX_f03 (op td ta n func : Nat) (c : Compl)  :
    bitsOf (fmtX op td ta n c func) 0 3 = func % 8 := by
  have hb := encBar_lt c.bar
  have hx : b2n c.foe < 2 := by cases c.foe <;> decide
  simp only [bitsOf, fmtX, Nat.reducePow]
  omega

theorem fmtX_f3 (op td ta n func : Nat) (c : Compl)  :
    (fmtX op td ta n c func) / 2 ^ 3 % 2 = func / 8 % 2 := by
  have hb := encBar_lt c.bar
  have hx : b2n c.foe < 2 := by cases c.foe <;> decide
  simp only [fmtX, Nat.reducePow]
  omega

theorem fmtX_f4 (op td ta n func : Nat) (c : Compl)  :
    (fmtX op td ta n c func) / 2 ^ 4 % 2 = func / 16 % 2 := by
  have hb := encBar_lt c.bar
  have hx : b2n c.foe < 2 := by cases c.foe <;> decide
  simp only [fmtX, Nat.reducePow]
  omega

theorem fmtX_foe (op td ta n func : Nat) (c : Compl) (hf : func < 32) : bitOf (fmtX op td ta n c func) 6 = c.foe := by
  obtain ⟨bar, foe⟩ := c
  have hb := encBar_lt bar
  have h : fmtX op td ta n ⟨bar, foe⟩ func / 2 ^ 6 % 2 = b2n foe := by
    cases foe <;> simp only [fmtX, b2n_true, b2n_false, Nat.reducePow] <;> omega
  simp only [bitOf, h]
  cases foe <;> rfl

theorem fmtX_bar (op td ta n func : Nat) (c : Compl) (hf : func < 32) : fBar (fmtX op td ta n c func) = c.bar := by
  obtain ⟨bar, foe⟩ := c
  have hx : b2n foe < 2 := by cases foe <;> decide
  rcases bar with _ | b
  · have h : fmtX op td ta n ⟨none, foe⟩ func / 2 ^ 5 % 2 = 0 := by simp only [fmtX, encBar, Nat.reducePow]; omega
    simp only [fBar, bitOf, h]
    rfl
  · have hb := b.isLt
    have h : fmtX op td ta n ⟨some b, foe⟩ func / 2 ^ 5 % 2 = 1 := by simp only [fmtX, encBar, Nat.reducePow]; omega
    have h1 : fld 5 7 (fmtX op td ta n ⟨some b, foe⟩ func) = b := by
      apply BitVec.eq_of_toNat_eq
      simp only [fld, fmtX, encBar, BitVec.toNat_ofNat, Nat.reducePow]
      omega
    simp only [fBar, bitOf, h, h1]
    rfl

theorem fmtX_c (op td ta n func : Nat) (c : Compl) (hf : func < 32) : fC (fmtX op td ta n c func) = c := by
  simp [fC, fmtX_foe _ _ _ _ _ _ hf, fmtX_bar _ _ _ _ _ _ hf]

/-- The barrier number of a word that always names one. -/
theorem fmtX_b (op td ta n func : Nat) (b : BReg) (foe : Bool) (hf : func < 32) :
    fld 5 7 (fmtX op td ta n ⟨some b, foe⟩ func) = b := by
  have hb := b.isLt
  have hx : b2n foe < 2 := by cases foe <;> decide
  apply BitVec.eq_of_toNat_eq
  simp only [fld, fmtX, encBar, BitVec.toNat_ofNat, Nat.reducePow]
  omega

/-! ### Format X.m -/

/-- The bits of the scales stay within their field. -/
theorem encScl_lt (s : Option (VReg × BitVec 2)) : encScl s < 1024 ∧ encScl s / 2 % 2 = 0 := by
  rcases s with _ | ⟨v, y⟩
  · exact ⟨by decide, by decide⟩
  · have := v.isLt
    have := y.isLt
    simp only [encScl]
    omega

theorem fmtXm_hi (op : Nat) (z tb : XReg) (va : VReg) (s : Option (VReg × BitVec 2)) (ru : Bool) :
    (fmtXm op z tb va s ru) / 2 ^ 28 = op / 16 := by
  have hs := encScl_lt s
  have := z.isLt
  have := tb.isLt
  have := va.isLt
  have hr : b2n ru < 2 := by cases ru <;> decide
  simp only [fmtXm, Nat.reducePow]
  omega

theorem fmtXm_lo (op : Nat) (z tb : XReg) (va : VReg) (s : Option (VReg × BitVec 2)) (ru : Bool) :
    bitsOf (fmtXm op z tb va s ru) 24 4 = op % 16 := by
  have hs := encScl_lt s
  have := z.isLt
  have := tb.isLt
  have := va.isLt
  have hr : b2n ru < 2 := by cases ru <;> decide
  simp only [bitsOf, fmtXm, Nat.reducePow]
  omega

theorem fmtXm_z (op : Nat) (z tb : XReg) (va : VReg) (s : Option (VReg × BitVec 2)) (ru : Bool) :
    fTD (fmtXm op z tb va s ru) = z := by
  have hs := encScl_lt s
  have := z.isLt
  have := tb.isLt
  have := va.isLt
  have hr : b2n ru < 2 := by cases ru <;> decide
  apply BitVec.eq_of_toNat_eq
  simp only [fTD, fld, BitVec.toNat_ofNat, fmtXm, Nat.reducePow]
  omega

theorem fmtXm_tb (op : Nat) (z tb : XReg) (va : VReg) (s : Option (VReg × BitVec 2)) (ru : Bool) :
    fTA (fmtXm op z tb va s ru) = tb := by
  have hs := encScl_lt s
  have := z.isLt
  have := tb.isLt
  have := va.isLt
  have hr : b2n ru < 2 := by cases ru <;> decide
  apply BitVec.eq_of_toNat_eq
  simp only [fTA, fld, BitVec.toNat_ofNat, fmtXm, Nat.reducePow]
  omega

theorem fmtXm_va (op : Nat) (z tb : XReg) (va : VReg) (s : Option (VReg × BitVec 2)) (ru : Bool) :
    fld 6 10 (fmtXm op z tb va s ru) = va := by
  have hs := encScl_lt s
  have := z.isLt
  have := tb.isLt
  have := va.isLt
  have hr : b2n ru < 2 := by cases ru <;> decide
  apply BitVec.eq_of_toNat_eq
  simp only [fld, BitVec.toNat_ofNat, fmtXm, Nat.reducePow]
  omega

theorem fmtXm_ru (op : Nat) (z tb : XReg) (va : VReg) (s : Option (VReg × BitVec 2)) (ru : Bool) :
    bitOf (fmtXm op z tb va s ru) 1 = ru := by
  have hs := encScl_lt s
  have h : fmtXm op z tb va s ru / 2 ^ 1 % 2 = b2n ru := by
    cases ru <;> simp only [fmtXm, b2n_true, b2n_false, Nat.reducePow] <;> omega
  simp only [bitOf, h]
  cases ru <;> rfl

theorem fmtXm_s (op : Nat) (z tb : XReg) (va : VReg) (s : Option (VReg × BitVec 2)) (ru : Bool) :
    fScl (fmtXm op z tb va s ru) = s := by
  have hr : b2n ru < 2 := by cases ru <;> decide
  rcases s with _ | ⟨v, y⟩
  · have h : fmtXm op z tb va none ru / 2 ^ 0 % 2 = 0 := by simp only [fmtXm, encScl, Nat.reducePow]; omega
    simp only [fScl, bitOf, h]
    rfl
  · have := v.isLt
    have := y.isLt
    have h : fmtXm op z tb va (some (v, y)) ru / 2 ^ 0 % 2 = 1 := by simp only [fmtXm, encScl, Nat.reducePow]; omega
    have h1 : fld 6 4 (fmtXm op z tb va (some (v, y)) ru) = v := by
      apply BitVec.eq_of_toNat_eq
      simp only [fld, fmtXm, encScl, BitVec.toNat_ofNat, Nat.reducePow]
      omega
    have h2 : fld 2 2 (fmtXm op z tb va (some (v, y)) ru) = y := by
      apply BitVec.eq_of_toNat_eq
      simp only [fld, fmtXm, encScl, BitVec.toNat_ofNat, Nat.reducePow]
      omega
    simp only [fScl, bitOf, h, h1, h2]
    rfl

/-! ### Format fmtS -/

theorem fmtS_hi (op reg idx : Nat) (rk : Bool) (hr : reg < 64) (hi : idx < 4096) :
    (fmtS op reg idx rk) / 2 ^ 28 = op / 16 := by
  have hk : b2n rk < 2 := by cases rk <;> decide
  simp only [fmtS, Nat.reducePow]
  omega

theorem fmtS_lo (op reg idx : Nat) (rk : Bool) (hr : reg < 64) (hi : idx < 4096) :
    bitsOf (fmtS op reg idx rk) 24 4 = op % 16 := by
  have hk : b2n rk < 2 := by cases rk <;> decide
  simp only [bitsOf, fmtS, Nat.reducePow]
  omega

theorem fmtS_reg (op reg idx : Nat) (rk : Bool) (hi : idx < 4096) :
    fSR (fmtS op reg idx rk) = BitVec.ofNat 6 reg := by
  have hk : b2n rk < 2 := by cases rk <;> decide
  apply BitVec.eq_of_toNat_eq
  simp only [fSR, fld, fmtS, BitVec.toNat_ofNat, Nat.reducePow]
  omega

theorem fmtS_reg5 (op reg idx : Nat) (rk : Bool) (hi : idx < 4096) :
    fld 5 18 (fmtS op reg idx rk) = BitVec.ofNat 5 reg := by
  have hk : b2n rk < 2 := by cases rk <;> decide
  apply BitVec.eq_of_toNat_eq
  simp only [fld, fmtS, BitVec.toNat_ofNat, Nat.reducePow]
  omega

theorem fmtS_idx (op reg idx : Nat) (rk : Bool)  :
    fld 12 6 (fmtS op reg idx rk) = BitVec.ofNat 12 idx := by
  have hk : b2n rk < 2 := by cases rk <;> decide
  apply BitVec.eq_of_toNat_eq
  simp only [fld, fmtS, BitVec.toNat_ofNat, Nat.reducePow]
  omega

theorem fmtS_idx8 (op reg idx : Nat) (rk : Bool)  :
    fld 8 6 (fmtS op reg idx rk) = BitVec.ofNat 8 idx := by
  have hk : b2n rk < 2 := by cases rk <;> decide
  apply BitVec.eq_of_toNat_eq
  simp only [fld, fmtS, BitVec.toNat_ofNat, Nat.reducePow]
  omega

theorem fmtS_rk (op reg idx : Nat) (rk : Bool)  :
    (fmtS op reg idx rk) / 2 ^ 5 % 2 = b2n rk := by
  have hk : b2n rk < 2 := by cases rk <;> decide
  simp only [fmtS, Nat.reducePow]
  omega

end Sys2Proof
end

