-- ==== Sys2Proof/Laws/PerInstr.lean ====
section
/-! SUPPORT. Decoding an encoded instruction gives it back, instruction by instruction: the family RoundTrip. -/

set_option Elab.async false
set_option linter.unusedSimpArgs false

namespace Sys2Proof.Laws.RoundTrip

/-- The words of a well-formed instruction decode to it; a step of the hardware or of the host has no words. -/
def Statement (i : Instr) : Prop :=
  i.wf = true → encode i ≠ [] → decode ((encode i).headD 0) ((encode i).getD 1 0) = some i

/-- An instruction of one word that `pick` reads back. -/
theorem of_word (i : Instr) (w : Nat) (he : encode i = [w]) (hp : pick w 0 = some i) : Statement i := by
  intro hw _
  rw [he]
  exact decode_of_pick i w 0 hp (by rw [he]; rfl) hw

/-- An L form that `pick` reads back. -/
theorem of_words (i : Instr) (w l : Nat) (he : encode i = [w, l]) (hp : pick w l = some i) : Statement i := by
  intro hw _
  rw [he]
  exact decode_of_pick i w l hp (by rw [he]; rfl) hw

/-! ### The tables of sub-operations -/

theorem satKinds_of (x : SatKind) : ofCode satKinds (codeOf satKinds x) = some x := by cases x <;> rfl
theorem satKinds_lt (x : SatKind) : codeOf satKinds x < 3 := by cases x <;> decide
theorem mulKinds_of (x : MulKind) : ofCode mulKinds (codeOf mulKinds x) = some x := by cases x <;> rfl
theorem mulKinds_lt (x : MulKind) : codeOf mulKinds x < 3 := by cases x <;> decide
theorem minMaxKinds_of (x : MinMaxKind) : ofCode minMaxKinds (codeOf minMaxKinds x) = some x := by cases x <;> rfl
theorem minMaxKinds_lt (x : MinMaxKind) : codeOf minMaxKinds x < 4 := by cases x <;> decide
theorem absKinds_of (x : AbsKind) : ofCode absKinds (codeOf absKinds x) = some x := by cases x <;> rfl
theorem absKinds_lt (x : AbsKind) : codeOf absKinds x < 3 := by cases x <;> decide
theorem logicOps_of (x : LogicOp) : ofCode logicOps (codeOf logicOps x) = some x := by cases x <;> rfl
theorem logicOps_lt (x : LogicOp) : codeOf logicOps x < 4 := by cases x <;> decide
theorem bitOps_of (x : BitOp) : ofCode bitOps (codeOf bitOps x) = some x := by cases x <;> rfl
theorem bitOps_lt (x : BitOp) : codeOf bitOps x < 4 := by cases x <;> decide
theorem shiftOps_of (x : ShiftOp) : ofCode shiftOps (codeOf shiftOps x) = some x := by cases x <;> rfl
theorem shiftOps_lt (x : ShiftOp) : codeOf shiftOps x < 4 := by cases x <;> decide
theorem sgns_of (x : Sgn) : ofCode sgns (codeOf sgns x) = some x := by cases x <;> rfl
theorem sgns_lt (x : Sgn) : codeOf sgns x < 2 := by cases x <;> decide
theorem icmpKinds_of (x : IcmpKind) : ofCode icmpKinds (codeOf icmpKinds x) = some x := by cases x <;> rfl
theorem icmpKinds_lt (x : IcmpKind) : codeOf icmpKinds x < 4 := by cases x <;> decide
theorem conds_of (x : Cond) : ofCode conds (codeOf conds x) = some x := by cases x <;> rfl
theorem conds_lt (x : Cond) : codeOf conds x < 6 := by cases x <;> decide
theorem add64Kinds_of (x : Add64Kind) : ofCode add64Kinds (codeOf add64Kinds x) = some x := by cases x <;> rfl
theorem add64Kinds_lt (x : Add64Kind) : codeOf add64Kinds x < 3 := by cases x <;> decide
theorem rms_of (x : Rm) : ofCode rms (codeOf rms x) = some x := by cases x <;> rfl
theorem rms_lt (x : Rm) : codeOf rms x < 4 := by cases x <;> decide
theorem minMaxes_of (x : MinMax) : ofCode minMaxes (codeOf minMaxes x) = some x := by cases x <;> rfl
theorem minMaxes_lt (x : MinMax) : codeOf minMaxes x < 2 := by cases x <;> decide
theorem ffmts_of (x : FFmt) : ofCode ffmts (codeOf ffmts x) = some x := by cases x <;> rfl
theorem ffmts_lt (x : FFmt) : codeOf ffmts x < 3 := by cases x <;> decide
theorem hfmts_of (x : HFmt) : ofCode hfmts (codeOf hfmts x) = some x := by cases x <;> rfl
theorem hfmts_lt (x : HFmt) : codeOf hfmts x < 2 := by cases x <;> decide
theorem fconds_of (x : FCond) : ofCode fconds (codeOf fconds x) = some x := by cases x <;> rfl
theorem fconds_lt (x : FCond) : codeOf fconds x < 8 := by cases x <;> decide
theorem fsignOps_of (x : FSignOp) : ofCode fsignOps (codeOf fsignOps x) = some x := by cases x <;> rfl
theorem fsignOps_lt (x : FSignOp) : codeOf fsignOps x < 3 := by cases x <;> decide
theorem cvtFmts_of (x : CvtFmt) : ofCode cvtFmts (codeOf cvtFmts x) = some x := by cases x <;> rfl
theorem cvtFmts_lt (x : CvtFmt) : codeOf cvtFmts x < 8 := by cases x <;> decide
theorem packFmts_of (x : PackFmt) : ofCode packFmts (codeOf packFmts x) = some x := by cases x <;> rfl
theorem packFmts_lt (x : PackFmt) : codeOf packFmts x < 4 := by cases x <;> decide
theorem fns_of (x : Fn) : ofCode fns (codeOf fns x) = some x := by cases x <;> rfl
theorem fns_lt (x : Fn) : codeOf fns x < 8 := by cases x <;> decide
theorem grades_of (x : Grade) : ofCode grades (codeOf grades x) = some x := by cases x <;> rfl
theorem grades_lt (x : Grade) : codeOf grades x < 2 := by cases x <;> decide
theorem randKinds_of (x : RandKind) : ofCode randKinds (codeOf randKinds x) = some x := by cases x <;> rfl
theorem randKinds_lt (x : RandKind) : codeOf randKinds x < 2 := by cases x <;> decide
theorem plopOps_of (x : PlopOp) : ofCode plopOps (codeOf plopOps x) = some x := by cases x <;> rfl
theorem plopOps_lt (x : PlopOp) : codeOf plopOps x < 8 := by cases x <;> decide
theorem shflModes_of (x : ShflMode) : ofCode shflModes (codeOf shflModes x) = some x := by cases x <;> rfl
theorem shflModes_lt (x : ShflMode) : codeOf shflModes x < 4 := by cases x <;> decide
theorem voteOps_of (x : VoteOp) : ofCode voteOps (codeOf voteOps x) = some x := by cases x <;> rfl
theorem voteOps_lt (x : VoteOp) : codeOf voteOps x < 3 := by cases x <;> decide
theorem redOps_of (x : RedOp) : ofCode redOps (codeOf redOps x) = some x := by cases x <;> rfl
theorem redOps_lt (x : RedOp) : codeOf redOps x < 4 := by cases x <;> decide
theorem fragqKinds_of (x : FragqKind) : ofCode fragqKinds (codeOf fragqKinds x) = some x := by cases x <;> rfl
theorem fragqKinds_lt (x : FragqKind) : codeOf fragqKinds x < 4 := by cases x <;> decide
theorem ualuOps_of (x : UaluOp) : ofCode ualuOps (codeOf ualuOps x) = some x := by cases x <;> rfl
theorem ualuOps_lt (x : UaluOp) : codeOf ualuOps x < 14 := by cases x <;> decide
theorem ucmpOps_of (x : UcmpOp) : ofCode ucmpOps (codeOf ucmpOps x) = some x := by cases x <;> rfl
theorem ucmpOps_lt (x : UcmpOp) : codeOf ucmpOps x < 10 := by cases x <;> decide
theorem umovlKinds_of (x : UmovlKind) : ofCode umovlKinds (codeOf umovlKinds x) = some x := by cases x <;> rfl
theorem umovlKinds_lt (x : UmovlKind) : codeOf umovlKinds x < 3 := by cases x <;> decide
theorem bartOps_of (x : BartOp) : ofCode bartOps (codeOf bartOps x) = some x := by cases x <;> rfl
theorem bartOps_lt (x : BartOp) : codeOf bartOps x < 3 := by cases x <;> decide
theorem ress_of (x : Res) : ofCode ress (codeOf ress x) = some x := by cases x <;> rfl
theorem ress_lt (x : Res) : codeOf ress x < 2 := by cases x <;> decide
theorem drainFmts_of (x : DrainFmt) : ofCode drainFmts (codeOf drainFmts x) = some x := by cases x <;> rfl
theorem drainFmts_lt (x : DrainFmt) : codeOf drainFmts x < 5 := by cases x <;> decide
theorem cpyForms_of (x : CpyForm) : ofCode cpyForms (codeOf cpyForms x) = some x := by cases x <;> rfl
theorem cpyForms_lt (x : CpyForm) : codeOf cpyForms x < 8 := by cases x <;> decide
theorem fenceKinds_of (x : FenceKind) : ofCode fenceKinds (codeOf fenceKinds x) = some x := by cases x <;> rfl
theorem fenceKinds_lt (x : FenceKind) : codeOf fenceKinds x < 3 := by cases x <;> decide
theorem scopes_of (x : Scope) : ofCode scopes (codeOf scopes x) = some x := by cases x <;> rfl
theorem scopes_lt (x : Scope) : codeOf scopes x < 8 := by cases x <;> decide
theorem flushKinds_of (x : FlushKind) : ofCode flushKinds (codeOf flushKinds x) = some x := by cases x <;> rfl
theorem flushKinds_lt (x : FlushKind) : codeOf flushKinds x < 3 := by cases x <;> decide
theorem collForms_of (x : CollForm) : ofCode collForms (codeOf collForms x) = some x := by cases x <;> rfl
theorem collForms_lt (x : CollForm) : codeOf collForms x < 5 := by cases x <;> decide
theorem updOpts_of (x : UpdOpt) : ofCode updOpts (codeOf updOpts x) = some x := by cases x <;> rfl
theorem updOpts_lt (x : UpdOpt) : codeOf updOpts x < 3 := by cases x <;> decide
theorem updMasks_of (x : UpdMask) : ofCode updMasks (codeOf updMasks x) = some x := by cases x <;> rfl
theorem updMasks_lt (x : UpdMask) : codeOf updMasks x < 3 := by cases x <;> decide
theorem placeOps_of (x : PlaceOp) : ofCode placeOps (codeOf placeOps x) = some x := by cases x <;> rfl
theorem placeOps_lt (x : PlaceOp) : codeOf placeOps x < 4 := by cases x <;> decide
theorem engKinds_of (x : EngKind) : ofCode engKinds (codeOf engKinds x) = some x := by cases x <;> rfl
theorem engKinds_lt (x : EngKind) : codeOf engKinds x < 7 := by cases x <;> decide
theorem brMode_of (m : BrMode) : BrMode.ofBits m.code = some m := by cases m <;> rfl
theorem brMode_lt (m : BrMode) : m.code < 4 := by cases m <;> decide
theorem condP_lt (c : Nat) (p : PReg) (h : c < 8) : condP c p < 64 := by unfold condP; omega
theorem condP_c (c : Nat) (p : PReg) (h : c < 8) : condP c p / 8 % 8 = c := by unfold condP; omega
theorem condP_p (c : Nat) (p : PReg) : BitVec.ofNat 3 (condP c p) = p := by
  apply BitVec.eq_of_toNat_eq
  simp only [condP, BitVec.toNat_ofNat, Nat.reducePow]
  omega
theorem two_hi (x y n k : Nat) (hx : x < k) (hy : y < n) : (x * n + y) / n % k = x := by
  rw [Nat.add_comm, Nat.add_mul_div_right _ _ (by omega), Nat.div_eq_of_lt hy, Nat.zero_add, Nat.mod_eq_of_lt hx]
theorem two_hi' (x y n : Nat) (hy : y < n) : (x * n + y) / n = x := by
  rw [Nat.add_comm, Nat.add_mul_div_right _ _ (by omega), Nat.div_eq_of_lt hy, Nat.zero_add]
theorem two_lo (x y n : Nat) (hy : y < n) : (x * n + y) % n = y := by
  rw [Nat.add_comm, Nat.add_mul_mod_self_right, Nat.mod_eq_of_lt hy]
theorem b2n_lt (b : Bool) : b2n b < 2 := by cases b <;> decide
theorem b2n_bit (b : Bool) : (b2n b % 2 == 1) = b := by cases b <;> rfl
theorem b2n_bit' (b : Bool) : (b2n b == 1) = b := by cases b <;> rfl
theorem b16 (b : Bool) : b2n b * 16 / 16 % 2 = b2n b := by cases b <;> rfl
theorem bsrc (b : Bool) (x : BitVec 4) : BitVec.ofNat 4 (b2n b * 16 + x.toNat) = x := by
  apply BitVec.eq_of_toNat_eq
  simp only [BitVec.toNat_ofNat, Nat.reducePow]
  omega
theorem ofNat_self {n : Nat} (x : BitVec n) : BitVec.ofNat n x.toNat = x := by simp

/-! ### One instruction after another -/

theorem pick_fmtT0 (op d a b m : Nat) (g : Guard) (lit : Nat) (ho : op / 16 = 0) (hd : d < 64) (ha : a < 64) (hb : b < 64) (hm : m < 4) :
    pick (fmtT op d a b g m) lit = pick0 (op % 16) (fmtT op d a b g m) := by
  unfold pick
  simp (disch := omega) only [fmtT_hi, fmtT_lo, ho]

theorem pick_fmtT2 (op d a b m : Nat) (g : Guard) (lit : Nat) (ho : op / 16 = 2) (hd : d < 64) (ha : a < 64) (hb : b < 64) (hm : m < 4) :
    pick (fmtT op d a b g m) lit = pick2 (op % 16) (fmtT op d a b g m) := by
  unfold pick
  simp (disch := omega) only [fmtT_hi, fmtT_lo, ho]

theorem pick_fmtT3 (op d a b m : Nat) (g : Guard) (lit : Nat) (ho : op / 16 = 3) (hd : d < 64) (ha : a < 64) (hb : b < 64) (hm : m < 4) :
    pick (fmtT op d a b g m) lit = pick3 (op % 16) (fmtT op d a b g m) := by
  unfold pick
  simp (disch := omega) only [fmtT_hi, fmtT_lo, ho]

theorem pick_fmtT4 (op d a b m : Nat) (g : Guard) (lit : Nat) (ho : op / 16 = 4) (hd : d < 64) (ha : a < 64) (hb : b < 64) (hm : m < 4) :
    pick (fmtT op d a b g m) lit = pick4 (op % 16) (fmtT op d a b g m) lit := by
  unfold pick
  simp (disch := omega) only [fmtT_hi, fmtT_lo, ho]

theorem pick_fmtT5 (op d a b m : Nat) (g : Guard) (lit : Nat) (ho : op / 16 = 5) (hd : d < 64) (ha : a < 64) (hb : b < 64) (hm : m < 4) :
    pick (fmtT op d a b g m) lit = pick5 (op % 16) (fmtT op d a b g m) lit := by
  unfold pick
  simp (disch := omega) only [fmtT_hi, fmtT_lo, ho]

theorem pick_fmtI1 (op d a i : Nat) (lit : Nat) (ho : op / 16 = 1) (hd : d < 64) (ha : a < 64) (hi : i < 4096) :
    pick (fmtI op d a i) lit = pick1 (op % 16) (fmtI op d a i) lit := by
  unfold pick
  simp (disch := omega) only [fmtI_hi, fmtI_lo, ho]

theorem pick_fmtK4 (op kd ka kb f : Nat) (g : UGuard) (lit : Nat) (ho : op / 16 = 4) (hd : kd < 32) (ha : ka < 32) (hb : kb < 32) (hf : f < 32) :
    pick (fmtK op kd ka kb g f) lit = pick4 (op % 16) (fmtK op kd ka kb g f) lit := by
  unfold pick
  simp (disch := omega) only [fmtK_hi, fmtK_lo, ho]

theorem pick_fmtK5 (op kd ka kb f : Nat) (g : UGuard) (lit : Nat) (ho : op / 16 = 5) (hd : kd < 32) (ha : ka < 32) (hb : kb < 32) (hf : f < 32) :
    pick (fmtK op kd ka kb g f) lit = pick5 (op % 16) (fmtK op kd ka kb g f) lit := by
  unfold pick
  simp (disch := omega) only [fmtK_hi, fmtK_lo, ho]

theorem pick_fmtK6 (op kd ka kb f : Nat) (g : UGuard) (lit : Nat) (ho : op / 16 = 6) (hd : kd < 32) (ha : ka < 32) (hb : kb < 32) (hf : f < 32) :
    pick (fmtK op kd ka kb g f) lit = pick6 (op % 16) (fmtK op kd ka kb g f) := by
  unfold pick
  simp (disch := omega) only [fmtK_hi, fmtK_lo, ho]

theorem pick_fmtK7 (op kd ka kb f : Nat) (g : UGuard) (lit : Nat) (ho : op / 16 = 7) (hd : kd < 32) (ha : ka < 32) (hb : kb < 32) (hf : f < 32) :
    pick (fmtK op kd ka kb g f) lit = pick7 (op % 16) (fmtK op kd ka kb g f) := by
  unfold pick
  simp (disch := omega) only [fmtK_hi, fmtK_lo, ho]

theorem pick_fmtK9 (op kd ka kb f : Nat) (g : UGuard) (lit : Nat) (ho : op / 16 = 9) (hd : kd < 32) (ha : ka < 32) (hb : kb < 32) (hf : f < 32) :
    pick (fmtK op kd ka kb g f) lit = pick9 (op % 16) (fmtK op kd ka kb g f) lit := by
  unfold pick
  simp (disch := omega) only [fmtK_hi, fmtK_lo, ho]

theorem pick_fmtM8 (op path : Nat) (d : VReg) (m : MAddr) (lit : Nat) (ho : op / 16 = 8) (hp : path < 8) :
    pick (fmtM op path d m) lit = pick8 (op % 16) (fmtM op path d m) := by
  unfold pick
  simp (disch := omega) only [fmtM_hi, fmtM_lo, ho]

theorem pick_fmtM9 (op path : Nat) (d : VReg) (m : MAddr) (lit : Nat) (ho : op / 16 = 9) (hp : path < 8) :
    pick (fmtM op path d m) lit = pick9 (op % 16) (fmtM op path d m) lit := by
  unfold pick
  simp (disch := omega) only [fmtM_hi, fmtM_lo, ho]

theorem pick_fmtMA (op path : Nat) (d : VReg) (m : MAddr) (lit : Nat) (ho : op / 16 = 10) (hp : path < 8) :
    pick (fmtM op path d m) lit = pickA (op % 16) (fmtM op path d m) lit := by
  unfold pick
  simp (disch := omega) only [fmtM_hi, fmtM_lo, ho]

theorem pick_fmtX7 (op td ta n func : Nat) (c : Compl) (lit : Nat) (ho : op / 16 = 7) (hd : td < 16) (ha : ta < 16) (hn : n < 16) (hf : func < 32) :
    pick (fmtX op td ta n c func) lit = pick7 (op % 16) (fmtX op td ta n c func) := by
  unfold pick
  simp (disch := omega) only [fmtX_hi, fmtX_lo, ho]

theorem pick_fmtX9 (op td ta n func : Nat) (c : Compl) (lit : Nat) (ho : op / 16 = 9) (hd : td < 16) (ha : ta < 16) (hn : n < 16) (hf : func < 32) :
    pick (fmtX op td ta n c func) lit = pick9 (op % 16) (fmtX op td ta n c func) lit := by
  unfold pick
  simp (disch := omega) only [fmtX_hi, fmtX_lo, ho]

theorem pick_fmtXB (op td ta n func : Nat) (c : Compl) (lit : Nat) (ho : op / 16 = 11) (hd : td < 16) (ha : ta < 16) (hn : n < 16) (hf : func < 32) :
    pick (fmtX op td ta n c func) lit = pickB (op % 16) (fmtX op td ta n c func) := by
  unfold pick
  simp (disch := omega) only [fmtX_hi, fmtX_lo, ho]

theorem pick_fmtXm7 (op : Nat) (z tb : XReg) (va : VReg) (s : Option (VReg × BitVec 2)) (ru : Bool) (lit : Nat) (ho : op / 16 = 7)  :
    pick (fmtXm op z tb va s ru) lit = pick7 (op % 16) (fmtXm op z tb va s ru) := by
  unfold pick
  simp (disch := omega) only [fmtXm_hi, fmtXm_lo, ho]

theorem pick_fmtSC (op reg idx : Nat) (rk : Bool) (lit : Nat) (ho : op / 16 = 12) (hr : reg < 64) (hi : idx < 4096) :
    pick (fmtS op reg idx rk) lit = pickC (op % 16) (fmtS op reg idx rk) := by
  unfold pick
  simp (disch := omega) only [fmtS_hi, fmtS_lo, ho]

theorem boundaryTrapEntry (gid : Nat) : Statement (.boundaryTrapEntry gid) := fun _ h => absurd rfl h
theorem blockedWordComplete (gid : Nat) (entry : Nat) : Statement (.blockedWordComplete gid entry) := fun _ h => absurd rfl h
theorem memoryReply (gid : Nat) (seq : Nat) : Statement (.memoryReply gid seq) := fun _ h => absurd rfl h
theorem wcbAgeDrain (core : CoreId) (line : Nat) : Statement (.wcbAgeDrain core line) := fun _ h => absurd rfl h
theorem fragmentExchange (gid : Nat) (entry : Nat) : Statement (.fragmentExchange gid entry) := fun _ h => absurd rfl h
theorem acqGrant (core : CoreId) : Statement (.acqGrant core) := fun _ h => absurd rfl h
theorem gridRetire (grid : Nat) : Statement (.gridRetire grid) := fun _ h => absurd rfl h
theorem queueDoorbell (rank : Nat) (value : Nat) : Statement (.queueDoorbell rank value) := fun _ h => absurd rfl h
theorem queueMapRound (rank : Nat) : Statement (.queueMapRound rank) := fun _ h => absurd rfl h
theorem gridDispatch (rank : Nat) : Statement (.gridDispatch rank) := fun _ h => absurd rfl h
theorem teamPlace (rank : Nat) (die : Nat) : Statement (.teamPlace rank die) := fun _ h => absurd rfl h
theorem preemptRequest (rank : Nat) : Statement (.preemptRequest rank) := fun _ h => absurd rfl h
theorem timerExpire (gid : Nat) : Statement (.timerExpire gid) := fun _ h => absurd rfl h
theorem deadlineExpire (gid : Nat) : Statement (.deadlineExpire gid) := fun _ h => absurd rfl h
theorem idleTimeout (gid : Nat) (entry : Nat) : Statement (.idleTimeout gid entry) := fun _ h => absurd rfl h
theorem matrixEntryStart (core : CoreId) : Statement (.matrixEntryStart core) := fun _ h => absurd rfl h
theorem matrixEntryComplete (core : CoreId) : Statement (.matrixEntryComplete core) := fun _ h => absurd rfl h
theorem drainMerge (core : CoreId) : Statement (.drainMerge core) := fun _ h => absurd rfl h
theorem rampWindowEnd (core : CoreId) : Statement (.rampWindowEnd core) := fun _ h => absurd rfl h
theorem rampTargetExpire (core : CoreId) : Statement (.rampTargetExpire core) := fun _ h => absurd rfl h
theorem throttleWindow (core : CoreId) (temp : Bool) (droop : Bool) : Statement (.throttleWindow core temp droop) := fun _ h => absurd rfl h
theorem energyUpdate (rank : Nat) : Statement (.energyUpdate rank) := fun _ h => absurd rfl h
theorem sliceAtomic (sl : SliceId) : Statement (.sliceAtomic sl) := fun _ h => absurd rfl h
theorem windowCloseIdle (sl : SliceId) (win : Nat) : Statement (.windowCloseIdle sl win) := fun _ h => absurd rfl h
theorem dwfenceSliceClose (fence : Nat) (sl : SliceId) : Statement (.dwfenceSliceClose fence sl) := fun _ h => absurd rfl h
theorem waitcTest (sl : SliceId) : Statement (.waitcTest sl) := fun _ h => absurd rfl h
theorem monitorTimeout (sl : SliceId) (entry : Nat) : Statement (.monitorTimeout sl entry) := fun _ h => absurd rfl h
theorem monitorReclaim (sl : SliceId) (ctx : Nat) : Statement (.monitorReclaim sl ctx) := fun _ h => absurd rfl h
theorem combCallArrive (sl : SliceId) : Statement (.combCallArrive sl) := fun _ h => absurd rfl h
theorem waveStart (sl : SliceId) : Statement (.waveStart sl) := fun _ h => absurd rfl h
theorem waveCommit (sl : SliceId) : Statement (.waveCommit sl) := fun _ h => absurd rfl h
theorem cfclrClear (sl : SliceId) : Statement (.cfclrClear sl) := fun _ h => absurd rfl h
theorem methregSliceUpdate (reg : Nat) (sl : SliceId) : Statement (.methregSliceUpdate reg sl) := fun _ h => absurd rfl h
theorem engineChunkStart (d : DieId) (engine : Nat) : Statement (.engineChunkStart d engine) := fun _ h => absurd rfl h
theorem faultResume (d : DieId) (index : Nat) : Statement (.faultResume d index) := fun _ h => absurd rfl h
theorem faultAbort (d : DieId) (index : Nat) : Statement (.faultAbort d index) := fun _ h => absurd rfl h
theorem tlbInvalidate (d : DieId) (value : Nat) : Statement (.tlbInvalidate d value) := fun _ h => absurd rfl h
theorem tlbInvalidateDone (d : DieId) : Statement (.tlbInvalidateDone d) := fun _ h => absurd rfl h
theorem gtsyncGo (rank : Nat) (value : Nat) : Statement (.gtsyncGo rank value) := fun _ h => absurd rfl h
theorem gtsyncReload (rank : Nat) : Statement (.gtsyncReload rank) := fun _ h => absurd rfl h
theorem rstoLineArrive (op : Nat) (line : Nat) : Statement (.rstoLineArrive op line) := fun _ h => absurd rfl h
theorem planeDown (part : PlanePart) : Statement (.planeDown part) := fun _ h => absurd rfl h
theorem xchgTokenAccept (op : Nat) (token : Nat) : Statement (.xchgTokenAccept op token) := fun _ h => absurd rfl h
theorem rotChunkArrive (ring : Nat) : Statement (.rotChunkArrive ring) := fun _ h => absurd rfl h
theorem rotSlotReturn (ring : Nat) (slot : Nat) : Statement (.rotSlotReturn ring slot) := fun _ h => absurd rfl h
theorem rotCreditArrive (ring : Nat) (slot : Nat) : Statement (.rotCreditArrive ring slot) := fun _ h => absurd rfl h
theorem placeCopyDone (rank : Nat) (entry : Nat) : Statement (.placeCopyDone rank entry) := fun _ h => absurd rfl h
theorem moraineWrite (d : DieId) : Statement (.moraineWrite d) := fun _ h => absurd rfl h
theorem tierReadError (rank : Nat) (line : Nat) (damaged : List Nat) : Statement (.tierReadError rank line damaged) := fun _ h => absurd rfl h
theorem reconstructDone (rank : Nat) (line : Nat) : Statement (.reconstructDone rank line) := fun _ h => absurd rfl h
theorem stepBoundary (rank : Nat) : Statement (.stepBoundary rank) := fun _ h => absurd rfl h
theorem memberStepReport (rank : Nat) (member : Nat) (stepNo : Nat) : Statement (.memberStepReport rank member stepNo) := fun _ h => absurd rfl h
theorem supplyLoss (rank : Nat) : Statement (.supplyLoss rank) := fun _ h => absurd rfl h
theorem supplyOn (rank : Nat) (found : List Attempt) : Statement (.supplyOn rank found) := fun _ h => absurd rfl h
theorem startRestart (rank : Nat) (found : List Attempt) : Statement (.startRestart rank found) := fun _ h => absurd rfl h
theorem domainGo (rank : Nat) (found : List Attempt) : Statement (.domainGo rank found) := fun _ h => absurd rfl h
theorem trimGo (rank : Nat) : Statement (.trimGo rank) := fun _ h => absurd rfl h
theorem trimApply (rank : Nat) : Statement (.trimApply rank) := fun _ h => absurd rfl h
theorem packageLossDeclare (rank : Nat) (lost : Nat) : Statement (.packageLossDeclare rank lost) := fun _ h => absurd rfl h
theorem lossDetectTimeout (lost : Nat) : Statement (.lossDetectTimeout lost) := fun _ h => absurd rfl h
theorem lossReportArrive (rank : Nat) (lost : Nat) : Statement (.lossReportArrive rank lost) := fun _ h => absurd rfl h
theorem fenceComplete (rank : Nat) : Statement (.fenceComplete rank) := fun _ h => absurd rfl h
theorem rebuildUnit (rank : Nat) : Statement (.rebuildUnit rank) := fun _ h => absurd rfl h
theorem bufferSuspectTimeout (node : NodeId) (buf : Nat) : Statement (.bufferSuspectTimeout node buf) := fun _ h => absurd rfl h
theorem thawTokenArrive (node : NodeId) : Statement (.thawTokenArrive node) := fun _ h => absurd rfl h
theorem meltwaterMove (node : NodeId) (buf : Nat) : Statement (.meltwaterMove node buf) := fun _ h => absurd rfl h
theorem thawStallTimeout (node : NodeId) (buf : Nat) : Statement (.thawStallTimeout node buf) := fun _ h => absurd rfl h
theorem deflectionEnter (node : NodeId) : Statement (.deflectionEnter node) := fun _ h => absurd rfl h
theorem deflectionExit (node : NodeId) : Statement (.deflectionExit node) := fun _ h => absurd rfl h
theorem flitSend (link : LinkId) : Statement (.flitSend link) := fun _ h => absurd rfl h
theorem flitReceive (link : LinkId) : Statement (.flitReceive link) := fun _ h => absurd rfl h
theorem nakReceive (link : LinkId) : Statement (.nakReceive link) := fun _ h => absurd rfl h
theorem nakHoldoffExpire (link : LinkId) : Statement (.nakHoldoffExpire link) := fun _ h => absurd rfl h
theorem linkKeyLoad (link : LinkId) (tx : Bool) : Statement (.linkKeyLoad link tx) := fun _ h => absurd rfl h
theorem linkKeySwitch (link : LinkId) : Statement (.linkKeySwitch link) := fun _ h => absurd rfl h
theorem linkRetrain (link : LinkId) : Statement (.linkRetrain link) := fun _ h => absurd rfl h
theorem linkTrainDone (link : LinkId) : Statement (.linkTrainDone link) := fun _ h => absurd rfl h
theorem partnerRegWrite (link : LinkId) (offset : Nat) (value : Nat) : Statement (.partnerRegWrite link offset value) := fun _ h => absurd rfl h
theorem hostWindowWrite (rank : Nat) (offset : Nat) (bytes : List Byte) : Statement (.hostWindowWrite rank offset bytes) := fun _ h => absurd rfl h
theorem attestGo (rank : Nat) : Statement (.attestGo rank) := fun _ h => absurd rfl h
theorem attestReportWritten (rank : Nat) : Statement (.attestReportWritten rank) := fun _ h => absurd rfl h
theorem registerWrite (rank : Nat) (offset : Nat) (value : Nat) : Statement (.registerWrite rank offset value) := fun _ h => absurd rfl h
theorem switchSramEnable (node : NodeId) : Statement (.switchSramEnable node) := fun _ h => absurd rfl h
theorem contextDestroy (rank : Nat) (ctx : Nat) : Statement (.contextDestroy rank ctx) := fun _ h => absurd rfl h
theorem uncorrectableError (site : ErrSite) : Statement (.uncorrectableError site) := fun _ h => absurd rfl h
theorem iadd (k : SatKind) (d : VReg) (a : VReg) (b : VReg) (g : Guard) : Statement (.iadd k d a b g) := by
  refine of_word _ _ rfl ?_
  have := satKinds_lt k
  simp (disch := omega) only [pick_fmtT0, pick0, Nat.reduceMod, ofNat_self, Option.map_some, fmtT_d, fmtT_a, fmtT_b, fmtT_m, fmtT_g, satKinds_of]
theorem isub (k : SatKind) (d : VReg) (a : VReg) (b : VReg) (g : Guard) : Statement (.isub k d a b g) := by
  refine of_word _ _ rfl ?_
  have := satKinds_lt k
  simp (disch := omega) only [pick_fmtT0, pick0, Nat.reduceMod, ofNat_self, Option.map_some, fmtT_d, fmtT_a, fmtT_b, fmtT_m, fmtT_g, satKinds_of]
theorem imul (k : MulKind) (d : VReg) (a : VReg) (b : VReg) (g : Guard) : Statement (.imul k d a b g) := by
  refine of_word _ _ rfl ?_
  have := mulKinds_lt k
  simp (disch := omega) only [pick_fmtT0, pick0, Nat.reduceMod, ofNat_self, Option.map_some, fmtT_d, fmtT_a, fmtT_b, fmtT_m, fmtT_g, mulKinds_of]
theorem imad (k : SatKind) (d : VReg) (a : VReg) (b : VReg) (g : Guard) : Statement (.imad k d a b g) := by
  refine of_word _ _ rfl ?_
  have := satKinds_lt k
  simp (disch := omega) only [pick_fmtT0, pick0, Nat.reduceMod, ofNat_self, Option.map_some, fmtT_d, fmtT_a, fmtT_b, fmtT_m, fmtT_g, satKinds_of]
theorem iminmax (k : MinMaxKind) (d : VReg) (a : VReg) (b : VReg) (g : Guard) : Statement (.iminmax k d a b g) := by
  refine of_word _ _ rfl ?_
  have := minMaxKinds_lt k
  simp (disch := omega) only [pick_fmtT0, pick0, Nat.reduceMod, ofNat_self, Option.map_some, fmtT_d, fmtT_a, fmtT_b, fmtT_m, fmtT_g, minMaxKinds_of]
theorem iabs (k : AbsKind) (d : VReg) (a : VReg) (g : Guard) : Statement (.iabs k d a g) := by
  refine of_word _ _ rfl ?_
  have := absKinds_lt k
  simp (disch := omega) only [pick_fmtT0, pick0, Nat.reduceMod, ofNat_self, Option.map_some, fmtT_d, fmtT_a, fmtT_m, fmtT_g, absKinds_of]
theorem logic (op : LogicOp) (d : VReg) (a : VReg) (b : VReg) (g : Guard) : Statement (.logic op d a b g) := by
  refine of_word _ _ rfl ?_
  have := logicOps_lt op
  simp (disch := omega) only [pick_fmtT0, pick0, Nat.reduceMod, ofNat_self, Option.map_some, fmtT_d, fmtT_a, fmtT_b, fmtT_m, fmtT_g, logicOps_of]
theorem bitop (op : BitOp) (d : VReg) (a : VReg) (g : Guard) : Statement (.bitop op d a g) := by
  refine of_word _ _ rfl ?_
  have := bitOps_lt op
  simp (disch := omega) only [pick_fmtT0, pick0, Nat.reduceMod, ofNat_self, Option.map_some, fmtT_d, fmtT_a, fmtT_m, fmtT_g, bitOps_of]
theorem shift (op : ShiftOp) (d : VReg) (a : VReg) (b : VReg) (g : Guard) : Statement (.shift op d a b g) := by
  refine of_word _ _ rfl ?_
  have := shiftOps_lt op
  simp (disch := omega) only [pick_fmtT0, pick0, Nat.reduceMod, ofNat_self, Option.map_some, fmtT_d, fmtT_a, fmtT_b, fmtT_m, fmtT_g, shiftOps_of]
theorem bfe (k : Sgn) (d : VReg) (a : VReg) (b : VReg) (g : Guard) : Statement (.bfe k d a b g) := by
  refine of_word _ _ rfl ?_
  have := sgns_lt k
  simp (disch := omega) only [pick_fmtT0, pick0, Nat.reduceMod, ofNat_self, Option.map_some, fmtT_d, fmtT_a, fmtT_b, fmtT_m, fmtT_g, sgns_of]
theorem bfi (d : VReg) (a : VReg) (b : VReg) (g : Guard) : Statement (.bfi d a b g) := by
  refine of_word _ _ rfl ?_
  simp (disch := omega) only [pick_fmtT0, pick0, Nat.reduceMod, ofNat_self, fmtT_d, fmtT_a, fmtT_b, fmtT_g]
theorem icmp (k : IcmpKind) (c : Cond) (p : PReg) (a : VReg) (b : VReg) (g : Guard) : Statement (.icmp k c p a b g) := by
  refine of_word _ _ rfl ?_
  have := icmpKinds_lt k
  have := conds_lt c
  have := condP_lt _ p (by omega : codeOf conds c < 8)
  simp (disch := omega) only [condP_c, condP_p, pick_fmtT0, pick0, Nat.reduceMod, ofNat_self, Option.map_some, Option.bind_some, fmtT_d3, fmtT_cond, fmtT_a, fmtT_b, fmtT_m, fmtT_g, icmpKinds_of, conds_of]
theorem sel (d : VReg) (a : VReg) (b : VReg) (g : Guard) : Statement (.sel d a b g) := by
  refine of_word _ _ rfl ?_
  simp (disch := omega) only [pick_fmtT0, pick0, Nat.reduceMod, ofNat_self, fmtT_d, fmtT_a, fmtT_b, fmtT_g]
theorem add64 (k : Add64Kind) (d : VReg) (a : VReg) (b : VReg) (g : Guard) : Statement (.add64 k d a b g) := by
  refine of_word _ _ rfl ?_
  have := add64Kinds_lt k
  simp (disch := omega) only [pick_fmtT0, pick0, Nat.reduceMod, ofNat_self, Option.map_some, fmtT_d, fmtT_a, fmtT_b, fmtT_m, fmtT_g, add64Kinds_of]
theorem lea (sh : BitVec 2) (d : VReg) (a : VReg) (b : VReg) (g : Guard) : Statement (.lea sh d a b g) := by
  refine of_word _ _ rfl ?_
  simp (disch := omega) only [pick_fmtT0, pick0, Nat.reduceMod, ofNat_self, fmtT_d, fmtT_a, fmtT_b, fmtT_m2, fmtT_g]
theorem iaddi (d : VReg) (a : VReg) (i : BitVec 12) : Statement (.iaddi d a i) := by
  refine of_word _ _ rfl ?_
  simp (disch := omega) only [pick_fmtI1, pick1, Nat.reduceMod, ofNat_self, fmtI_d, fmtI_a, fmtI_i]
theorem imuli (d : VReg) (a : VReg) (i : BitVec 12) : Statement (.imuli d a i) := by
  refine of_word _ _ rfl ?_
  simp (disch := omega) only [pick_fmtI1, pick1, Nat.reduceMod, ofNat_self, fmtI_d, fmtI_a, fmtI_i]
theorem andi (d : VReg) (a : VReg) (i : BitVec 12) : Statement (.andi d a i) := by
  refine of_word _ _ rfl ?_
  simp (disch := omega) only [pick_fmtI1, pick1, Nat.reduceMod, ofNat_self, fmtI_d, fmtI_a, fmtI_i]
theorem ori (d : VReg) (a : VReg) (i : BitVec 12) : Statement (.ori d a i) := by
  refine of_word _ _ rfl ?_
  simp (disch := omega) only [pick_fmtI1, pick1, Nat.reduceMod, ofNat_self, fmtI_d, fmtI_a, fmtI_i]
theorem xori (d : VReg) (a : VReg) (i : BitVec 12) : Statement (.xori d a i) := by
  refine of_word _ _ rfl ?_
  simp (disch := omega) only [pick_fmtI1, pick1, Nat.reduceMod, ofNat_self, fmtI_d, fmtI_a, fmtI_i]
theorem shli (d : VReg) (a : VReg) (n : BitVec 5) : Statement (.shli d a n) := by
  refine of_word _ _ rfl ?_
  simp (disch := omega) only [pick_fmtI1, pick1, Nat.reduceMod, ofNat_self, fmtI_d, fmtI_a, fmtI_i5]
theorem shri (d : VReg) (a : VReg) (n : BitVec 5) : Statement (.shri d a n) := by
  refine of_word _ _ rfl ?_
  simp (disch := omega) only [pick_fmtI1, pick1, Nat.reduceMod, ofNat_self, fmtI_d, fmtI_a, fmtI_i5]
theorem sari (d : VReg) (a : VReg) (n : BitVec 5) : Statement (.sari d a n) := by
  refine of_word _ _ rfl ?_
  simp (disch := omega) only [pick_fmtI1, pick1, Nat.reduceMod, ofNat_self, fmtI_d, fmtI_a, fmtI_i5]
theorem icmpiI32 (c : Cond) (p : PReg) (a : VReg) (i : BitVec 12) : Statement (.icmpiI32 c p a i) := by
  refine of_word _ _ rfl ?_
  have := conds_lt c
  have := condP_lt _ p (by omega : codeOf conds c < 8)
  simp (disch := omega) only [condP_c, condP_p, pick_fmtI1, pick1, Nat.reduceMod, ofNat_self, Option.map_some, fmtI_d3, fmtI_cond, fmtI_a, fmtI_i, conds_of]
theorem icmpiN32 (c : Cond) (p : PReg) (a : VReg) (i : BitVec 12) : Statement (.icmpiN32 c p a i) := by
  refine of_word _ _ rfl ?_
  have := conds_lt c
  have := condP_lt _ p (by omega : codeOf conds c < 8)
  simp (disch := omega) only [condP_c, condP_p, pick_fmtI1, pick1, Nat.reduceMod, ofNat_self, Option.map_some, fmtI_d3, fmtI_cond, fmtI_a, fmtI_i, conds_of]
theorem movi (d : VReg) (i : BitVec 12) : Statement (.movi d i) := by
  refine of_word _ _ rfl ?_
  simp (disch := omega) only [pick_fmtI1, pick1, Nat.reduceMod, ofNat_self, fmtI_d, fmtI_i]
theorem movl (d : VReg) (x : Word) : Statement (.movl d x) := by
  refine of_words _ _ _ rfl ?_
  simp (disch := omega) only [pick_fmtI1, pick1, Nat.reduceMod, ofNat_self, fmtI_d]
theorem add64i (d : VReg) (a : VReg) (i : BitVec 12) : Statement (.add64i d a i) := by
  refine of_word _ _ rfl ?_
  simp (disch := omega) only [pick_fmtI1, pick1, Nat.reduceMod, ofNat_self, fmtI_d, fmtI_a, fmtI_i]
theorem enter (n : BitVec 12) : Statement (.enter n) := by
  refine of_word _ _ rfl ?_
  simp (disch := omega) only [pick_fmtI1, pick1, Nat.reduceMod, ofNat_self, fmtI_i]
theorem fadd (rm : Rm) (d : VReg) (a : VReg) (b : VReg) (g : Guard) : Statement (.fadd rm d a b g) := by
  refine of_word _ _ rfl ?_
  have := rms_lt rm
  simp (disch := omega) only [pick_fmtT2, pick2, Nat.reduceMod, ofNat_self, Option.map_some, fmtT_d, fmtT_a, fmtT_b, fmtT_m, fmtT_g, rms_of]
theorem fsub (rm : Rm) (d : VReg) (a : VReg) (b : VReg) (g : Guard) : Statement (.fsub rm d a b g) := by
  refine of_word _ _ rfl ?_
  have := rms_lt rm
  simp (disch := omega) only [pick_fmtT2, pick2, Nat.reduceMod, ofNat_self, Option.map_some, fmtT_d, fmtT_a, fmtT_b, fmtT_m, fmtT_g, rms_of]
theorem fmul (rm : Rm) (d : VReg) (a : VReg) (b : VReg) (g : Guard) : Statement (.fmul rm d a b g) := by
  refine of_word _ _ rfl ?_
  have := rms_lt rm
  simp (disch := omega) only [pick_fmtT2, pick2, Nat.reduceMod, ofNat_self, Option.map_some, fmtT_d, fmtT_a, fmtT_b, fmtT_m, fmtT_g, rms_of]
theorem ffma (rm : Rm) (d : VReg) (a : VReg) (b : VReg) (g : Guard) : Statement (.ffma rm d a b g) := by
  refine of_word _ _ rfl ?_
  have := rms_lt rm
  simp (disch := omega) only [pick_fmtT2, pick2, Nat.reduceMod, ofNat_self, Option.map_some, fmtT_d, fmtT_a, fmtT_b, fmtT_m, fmtT_g, rms_of]
theorem fminmax (op : MinMax) (d : VReg) (a : VReg) (b : VReg) (g : Guard) : Statement (.fminmax op d a b g) := by
  refine of_word _ _ rfl ?_
  have := minMaxes_lt op
  simp (disch := omega) only [pick_fmtT2, pick2, Nat.reduceMod, ofNat_self, Option.map_some, fmtT_d, fmtT_a, fmtT_b, fmtT_m, fmtT_g, minMaxes_of]
theorem fcmp (f : FFmt) (c : FCond) (p : PReg) (a : VReg) (b : VReg) (g : Guard) : Statement (.fcmp f c p a b g) := by
  refine of_word _ _ rfl ?_
  have := ffmts_lt f
  have := fconds_lt c
  have := condP_lt _ p (by omega : codeOf fconds c < 8)
  simp (disch := omega) only [condP_c, condP_p, pick_fmtT2, pick2, Nat.reduceMod, ofNat_self, Option.map_some, Option.bind_some, fmtT_d3, fmtT_cond, fmtT_a, fmtT_b, fmtT_m, fmtT_g, ffmts_of, fconds_of]
theorem fsign (op : FSignOp) (d : VReg) (a : VReg) (b : VReg) (g : Guard) : Statement (.fsign op d a b g) := by
  refine of_word _ _ rfl ?_
  have := fsignOps_lt op
  simp (disch := omega) only [pick_fmtT2, pick2, Nat.reduceMod, ofNat_self, Option.map_some, fmtT_d, fmtT_a, fmtT_b, fmtT_m, fmtT_g, fsignOps_of]
theorem padd2 (f : HFmt) (d : VReg) (a : VReg) (b : VReg) (g : Guard) : Statement (.padd2 f d a b g) := by
  refine of_word _ _ rfl ?_
  have := hfmts_lt f
  simp (disch := omega) only [pick_fmtT2, pick2, Nat.reduceMod, ofNat_self, Option.map_some, fmtT_d, fmtT_a, fmtT_b, fmtT_m, fmtT_g, hfmts_of]
theorem pmul2 (f : HFmt) (d : VReg) (a : VReg) (b : VReg) (g : Guard) : Statement (.pmul2 f d a b g) := by
  refine of_word _ _ rfl ?_
  have := hfmts_lt f
  simp (disch := omega) only [pick_fmtT2, pick2, Nat.reduceMod, ofNat_self, Option.map_some, fmtT_d, fmtT_a, fmtT_b, fmtT_m, fmtT_g, hfmts_of]
theorem pfma2 (f : HFmt) (d : VReg) (a : VReg) (b : VReg) (g : Guard) : Statement (.pfma2 f d a b g) := by
  refine of_word _ _ rfl ?_
  have := hfmts_lt f
  simp (disch := omega) only [pick_fmtT2, pick2, Nat.reduceMod, ofNat_self, Option.map_some, fmtT_d, fmtT_a, fmtT_b, fmtT_m, fmtT_g, hfmts_of]
theorem pminmax2 (f : HFmt) (op : MinMax) (d : VReg) (a : VReg) (b : VReg) (g : Guard) : Statement (.pminmax2 f op d a b g) := by
  refine of_word _ _ rfl ?_
  have := hfmts_lt f
  have := minMaxes_lt op
  simp (disch := omega) only [two_lo, two_hi', pick_fmtT2, pick2, Nat.reduceMod, ofNat_self, Option.map_some, Option.bind_some, fmtT_d, fmtT_a, fmtT_b, fmtT_m1, fmtT_m0, fmtT_g, hfmts_of, minMaxes_of]
theorem hadd (f : HFmt) (d : VReg) (a : VReg) (b : VReg) (g : Guard) : Statement (.hadd f d a b g) := by
  refine of_word _ _ rfl ?_
  have := hfmts_lt f
  simp (disch := omega) only [pick_fmtT2, pick2, Nat.reduceMod, ofNat_self, Option.map_some, fmtT_d, fmtT_a, fmtT_b, fmtT_m, fmtT_g, hfmts_of]
theorem hmul (f : HFmt) (d : VReg) (a : VReg) (b : VReg) (g : Guard) : Statement (.hmul f d a b g) := by
  refine of_word _ _ rfl ?_
  have := hfmts_lt f
  simp (disch := omega) only [pick_fmtT2, pick2, Nat.reduceMod, ofNat_self, Option.map_some, fmtT_d, fmtT_a, fmtT_b, fmtT_m, fmtT_g, hfmts_of]
theorem hfma (f : HFmt) (d : VReg) (a : VReg) (b : VReg) (g : Guard) : Statement (.hfma f d a b g) := by
  refine of_word _ _ rfl ?_
  have := hfmts_lt f
  simp (disch := omega) only [pick_fmtT2, pick2, Nat.reduceMod, ofNat_self, Option.map_some, fmtT_d, fmtT_a, fmtT_b, fmtT_m, fmtT_g, hfmts_of]
theorem cvt (src : CvtFmt) (dst : CvtFmt) (rm : Rm) (d : VReg) (a : VReg) (g : Guard) : Statement (.cvt src dst rm d a g) := by
  refine of_word _ _ rfl ?_
  have := cvtFmts_lt src
  have := cvtFmts_lt dst
  have := rms_lt rm
  simp (disch := omega) only [two_hi, two_lo, pick_fmtT3, pick3, Nat.reduceMod, ofNat_self, Option.map_some, Option.bind_some, fmtT_d, fmtT_a, fmtT_bhi, fmtT_blo, fmtT_m, fmtT_g, cvtFmts_of, cvtFmts_of, rms_of]
theorem pack (f : PackFmt) (d : VReg) (a : VReg) (b : VReg) (g : Guard) : Statement (.pack f d a b g) := by
  refine of_word _ _ rfl ?_
  have := packFmts_lt f
  simp (disch := omega) only [pick_fmtT3, pick3, Nat.reduceMod, ofNat_self, Option.map_some, fmtT_d, fmtT_a, fmtT_b, fmtT_m, fmtT_g, packFmts_of]
theorem unpk (f : PackFmt) (j : BitVec 6) (d : VReg) (a : VReg) (g : Guard) : Statement (.unpk f j d a g) := by
  refine of_word _ _ rfl ?_
  have := packFmts_lt f
  simp (disch := omega) only [pick_fmtT3, pick3, Nat.reduceMod, ofNat_self, Option.map_some, fmtT_d, fmtT_a, fmtT_b, fmtT_m, fmtT_g, packFmts_of]
theorem frnd (rm : Rm) (d : VReg) (a : VReg) (g : Guard) : Statement (.frnd rm d a g) := by
  refine of_word _ _ rfl ?_
  have := rms_lt rm
  simp (disch := omega) only [pick_fmtT3, pick3, Nat.reduceMod, ofNat_self, Option.map_some, fmtT_d, fmtT_a, fmtT_m, fmtT_g, rms_of]
theorem fspec (fn : Fn) (gr : Grade) (f : FFmt) (d : VReg) (a : VReg) (g : Guard) : Statement (.fspec fn gr f d a g) := by
  refine of_word _ _ rfl ?_
  have := fns_lt fn
  have := grades_lt gr
  have := ffmts_lt f
  simp (disch := omega) only [two_hi, two_lo, pick_fmtT3, pick3, Nat.reduceMod, ofNat_self, Option.map_some, Option.bind_some, fmtT_d, fmtT_a, fmtT_blo, fmtT_bg, fmtT_m, fmtT_g, fns_of, grades_of, ffmts_of]
theorem rand (k : RandKind) (d : VReg) (g : Guard) : Statement (.rand k d g) := by
  refine of_word _ _ rfl ?_
  have := randKinds_lt k
  simp (disch := omega) only [pick_fmtT3, pick3, Nat.reduceMod, ofNat_self, Option.map_some, fmtT_d, fmtT_m, fmtT_g, randKinds_of]
theorem plop (op : PlopOp) (pd : PReg) (pa : PReg) (pb : PReg) (g : Guard) : Statement (.plop op pd pa pb g) := by
  refine of_word _ _ rfl ?_
  have := plopOps_lt op
  have := condP_lt _ pd (by omega : codeOf plopOps op < 8)
  simp (disch := omega) only [condP_c, condP_p, pick_fmtT3, pick3, Nat.reduceMod, ofNat_self, Option.map_some, fmtT_d3, fmtT_cond, fmtT_a3, fmtT_b3, fmtT_g, plopOps_of]
theorem pmovV (d : VReg) (pa : PReg) (g : Guard) : Statement (.pmovV d pa g) := by
  refine of_word _ _ rfl ?_
  simp (disch := omega) only [beq_self_eq_true, if_true, pick_fmtT3, pick3, Nat.reduceMod, ofNat_self, fmtT_d, fmtT_d3, fmtT_a, fmtT_a3, fmtT_m, fmtT_g]
theorem pmovP (pd : PReg) (a : VReg) (g : Guard) : Statement (.pmovP pd a g) := by
  refine of_word _ _ rfl ?_
  simp (disch := omega) only [if_false, Bool.false_eq_true, Nat.reduceBEq, pick_fmtT3, pick3, Nat.reduceMod, ofNat_self, fmtT_d, fmtT_d3, fmtT_a, fmtT_a3, fmtT_m, fmtT_g]
theorem rep (n : BitVec 6) (sd : Bool) (sa : Bool) (sb : Bool) : Statement (.rep n sd sa sb) := by
  refine of_word _ _ rfl ?_
  have := n.isLt
  have := b2n_lt sd
  have := b2n_lt sa
  have := b2n_lt sb
  generalize hw : 0x39 * 2 ^ 24 + n.toNat * 2 ^ 18 + b2n sd * 2 ^ 17 + b2n sa * 2 ^ 16 + b2n sb * 2 ^ 15 = w
  simp only [Nat.reducePow, Nat.reduceMul] at hw
  have h1 : w / 2 ^ 28 = 3 := by simp only [Nat.reducePow]; omega
  have h2 : bitsOf w 24 4 = 9 := by simp only [bitsOf, Nat.reducePow]; omega
  have h3 : fld 6 18 w = n := by
    apply BitVec.eq_of_toNat_eq
    simp only [fld, BitVec.toNat_ofNat, Nat.reducePow]
    omega
  have h4 : w / 2 ^ 17 % 2 = b2n sd := by simp only [Nat.reducePow]; omega
  have h5 : w / 2 ^ 16 % 2 = b2n sa := by simp only [Nat.reducePow]; omega
  have h6 : w / 2 ^ 15 % 2 = b2n sb := by simp only [Nat.reducePow]; omega
  unfold pick
  simp only [h1, h2, pick3, h3, bitOf, h4, h5, h6, b2n_bit']
theorem br (rcv : BitVec 18) (g : Guard) (m : BrMode) (disp : Word) : Statement (.br rcv g m disp) := by
  refine of_words _ _ _ rfl ?_
  have := rcv.isLt
  have := brMode_lt m
  obtain ⟨n, p⟩ := g
  have := p.isLt
  have hn := b2n_lt n
  generalize hw : 0x40 * 2 ^ 24 + rcv.toNat * 2 ^ 6 + encG ⟨n, p⟩ + m.code = w
  simp only [encG, Nat.reducePow, Nat.reduceMul] at hw
  have h1 : w / 2 ^ 28 = 4 := by simp only [Nat.reducePow]; omega
  have h2 : bitsOf w 24 4 = 0 := by simp only [bitsOf, Nat.reducePow]; omega
  have h3 : fld 18 6 w = rcv := by
    apply BitVec.eq_of_toNat_eq
    simp only [fld, BitVec.toNat_ofNat, Nat.reducePow]
    omega
  have h4 : w / 2 ^ 5 % 2 = b2n n := by simp only [Nat.reducePow]; omega
  have h5 : fld 3 2 w = p := by
    apply BitVec.eq_of_toNat_eq
    simp only [fld, BitVec.toNat_ofNat, Nat.reducePow]
    omega
  have h6 : fM w = m.code := by simp only [fM, bitsOf, Nat.reducePow]; omega
  unfold pick
  simp only [h1, h2, pick4, h3, fG, bitOf, h4, h5, h6, b2n_bit', brMode_of, Option.map_some, ofNat_self]
theorem call (g : Guard) (disp : Word) : Statement (.call g disp) := by
  refine of_words _ _ _ rfl ?_
  simp (disch := omega) only [pick_fmtT4, pick4, Nat.reduceMod, ofNat_self, fmtT_g]
theorem callk (ka : KReg) (g : UGuard) : Statement (.callk ka g) := by
  refine of_word _ _ rfl ?_
  simp (disch := omega) only [pick_fmtK4, pick4, Nat.reduceMod, ofNat_self, fmtK_ka, fmtK_g]
theorem exit (g : Guard) : Statement (.exit g) := by
  refine of_word _ _ rfl ?_
  simp (disch := omega) only [pick_fmtT4, pick4, Nat.reduceMod, fmtT_g]
theorem ualu (op : UaluOp) (d : KReg) (a : KReg) (b : KReg) (g : UGuard) : Statement (.ualu op d a b g) := by
  refine of_word _ _ rfl ?_
  have := ualuOps_lt op
  simp (disch := omega) only [pick_fmtK5, pick5, Nat.reduceMod, ofNat_self, Option.map_some, fmtK_kd, fmtK_ka, fmtK_kb, fmtK_f, fmtK_g, ualuOps_of]
theorem ucmp (op : UcmpOp) (q : QReg) (a : KReg) (b : KReg) (g : UGuard) : Statement (.ucmp op q a b g) := by
  refine of_word _ _ rfl ?_
  have := ucmpOps_lt op
  simp (disch := omega) only [pick_fmtK5, pick5, Nat.reduceMod, ofNat_self, Option.map_some, fmtK_kd2, fmtK_ka, fmtK_kb, fmtK_f, fmtK_g, ucmpOps_of]
theorem umovl (k : UmovlKind) (d : KReg) (x : Word) (g : UGuard) : Statement (.umovl k d x g) := by
  refine of_words _ _ _ rfl ?_
  have := umovlKinds_lt k
  simp (disch := omega) only [pick_fmtK5, pick5, Nat.reduceMod, ofNat_self, Option.map_some, fmtK_kd, fmtK_f, fmtK_g, umovlKinds_of]
theorem uaddl (d : KReg) (a : KReg) (x : Word) (g : UGuard) : Statement (.uaddl d a x g) := by
  refine of_words _ _ _ rfl ?_
  simp (disch := omega) only [pick_fmtK5, pick5, Nat.reduceMod, ofNat_self, fmtK_kd, fmtK_ka, fmtK_g]
theorem qlop (op : PlopOp) (qd : QReg) (qa : QReg) (qb : QReg) (g : UGuard) : Statement (.qlop op qd qa qb g) := by
  refine of_word _ _ rfl ?_
  have := plopOps_lt op
  simp (disch := omega) only [pick_fmtK5, pick5, Nat.reduceMod, ofNat_self, Option.map_some, fmtK_kd2, fmtK_ka2, fmtK_kb2, fmtK_f, fmtK_g, plopOps_of]
theorem shfl (m : ShflMode) (d : VReg) (a : VReg) (b : VReg) (g : Guard) : Statement (.shfl m d a b g) := by
  refine of_word _ _ rfl ?_
  have := shflModes_lt m
  simp (disch := omega) only [pick_fmtT5, pick5, Nat.reduceMod, ofNat_self, Option.map_some, fmtT_d, fmtT_a, fmtT_b, fmtT_m, fmtT_g, shflModes_of]
theorem vote (op : VoteOp) (pd : PReg) (pa : PReg) (g : Guard) : Statement (.vote op pd pa g) := by
  refine of_word _ _ rfl ?_
  have := voteOps_lt op
  simp (disch := omega) only [pick_fmtT5, pick5, Nat.reduceMod, ofNat_self, Option.map_some, fmtT_d3, fmtT_a3, fmtT_m, fmtT_g, voteOps_of]
theorem ballot (d : VReg) (pa : PReg) (g : Guard) : Statement (.ballot d pa g) := by
  refine of_word _ _ rfl ?_
  simp (disch := omega) only [pick_fmtT5, pick5, Nat.reduceMod, ofNat_self, fmtT_d, fmtT_a3, fmtT_g]
theorem redt (op : RedOp) (d : VReg) (a : VReg) (g : Guard) : Statement (.redt op d a g) := by
  refine of_word _ _ rfl ?_
  have := redOps_lt op
  simp (disch := omega) only [pick_fmtT5, pick5, Nat.reduceMod, ofNat_self, Option.map_some, fmtT_d, fmtT_a, fmtT_m, fmtT_g, redOps_of]
theorem scan (op : RedOp) (d : VReg) (a : VReg) (g : Guard) : Statement (.scan op d a g) := by
  refine of_word _ _ rfl ?_
  have := redOps_lt op
  simp (disch := omega) only [pick_fmtT5, pick5, Nat.reduceMod, ofNat_self, Option.map_some, fmtT_d, fmtT_a, fmtT_m, fmtT_g, redOps_of]
theorem bcast (kd : KReg) (a : VReg) (w64 : Bool) (src : Option (BitVec 4)) (g : Guard) : Statement (.bcast kd a w64 src g) := by
  rcases src with _ | src
  all_goals
    refine of_word _ _ rfl ?_
    have := b2n_lt w64
    simp (disch := omega) only [two_hi, two_lo, b16, bsrc, bitOf, b2n_bit, b2n_bit', beq_self_eq_true, if_true, if_false, Bool.false_eq_true, Nat.reduceBEq, pick_fmtT5, pick5, Nat.reduceDiv, Nat.reduceMod, ofNat_self, Option.map_some, Option.bind_some, fmtT_hi, fmtT_lo, fmtT_d, fmtT_d3, fmtT_d5, fmtT_cond, fmtT_a, fmtT_a3, fmtT_b, fmtT_b3, fmtT_b4, fmtT_bhi, fmtT_blo, fmtT_bg, fmtT_bw, fmtT_m, fmtT_m2, fmtT_m1, fmtT_m0, fmtT_g]
theorem fragq (k : FragqKind) (d : VReg) (g : Guard) : Statement (.fragq k d g) := by
  refine of_word _ _ rfl ?_
  have := fragqKinds_lt k
  simp (disch := omega) only [pick_fmtT5, pick5, Nat.reduceMod, ofNat_self, Option.map_some, fmtT_d, fmtT_m, fmtT_g, fragqKinds_of]
theorem barinit (b : BReg) (kb : KReg) (g : UGuard) : Statement (.barinit b kb g) := by
  refine of_word _ _ rfl ?_
  simp (disch := omega) only [pick_fmtK6, pick6, Nat.reduceMod, ofNat_self, fmtK_ka, fmtK_kb, fmtK_g]
theorem barx (arr : Bool) (b : BReg) (kb : KReg) (g : UGuard) : Statement (.barx arr b kb g) := by
  refine of_word _ _ rfl ?_
  have := b2n_lt arr
  simp (disch := omega) only [bitOf, b2n_bit, pick_fmtK6, pick6, Nat.reduceMod, ofNat_self, fmtK_ka, fmtK_kb, fmtK_f0, fmtK_g]
theorem bara (b : BReg) (g : UGuard) : Statement (.bara b g) := by
  refine of_word _ _ rfl ?_
  simp (disch := omega) only [pick_fmtK6, pick6, Nat.reduceMod, ofNat_self, fmtK_ka, fmtK_g]
theorem barw (kd : Option KReg) (b : BReg) (g : UGuard) : Statement (.barw kd b g) := by
  rcases kd with _ | kd
  all_goals
    refine of_word _ _ rfl ?_
    simp (disch := omega) only [bitOf, b2n_bit, b2n_bit', beq_self_eq_true, if_true, if_false, Bool.false_eq_true, Nat.reduceBEq, pick_fmtK6, pick6, Nat.reduceDiv, Nat.reduceMod, ofNat_self, Option.map_some, Option.bind_some, fmtK_hi, fmtK_lo, fmtK_kd, fmtK_kd2, fmtK_kd4, fmtK_ka, fmtK_ka2, fmtK_ka4, fmtK_kb, fmtK_kb2, fmtK_f, fmtK_f3, fmtK_f5, fmtK_fk, fmtK_fs, fmtK_f0, fmtK_g]
theorem bart (op : BartOp) (d : KReg) (b : BReg) (g : UGuard) : Statement (.bart op d b g) := by
  refine of_word _ _ rfl ?_
  have := bartOps_lt op
  simp (disch := omega) only [pick_fmtK6, pick6, Nat.reduceMod, ofNat_self, Option.map_some, fmtK_kd, fmtK_ka, fmtK_f, fmtK_g, bartOps_of]
theorem launch (kd : KReg) (ka : KReg) (g : UGuard) : Statement (.launch kd ka g) := by
  refine of_word _ _ rfl ?_
  simp (disch := omega) only [pick_fmtK6, pick6, Nat.reduceMod, ofNat_self, fmtK_kd, fmtK_ka, fmtK_g]
theorem cwait (kd : KReg) (ka : Option KReg) (g : UGuard) : Statement (.cwait kd ka g) := by
  rcases ka with _ | ka
  all_goals
    refine of_word _ _ rfl ?_
    simp (disch := omega) only [bitOf, b2n_bit, b2n_bit', beq_self_eq_true, if_true, if_false, Bool.false_eq_true, Nat.reduceBEq, pick_fmtK6, pick6, Nat.reduceDiv, Nat.reduceMod, ofNat_self, Option.map_some, Option.bind_some, fmtK_hi, fmtK_lo, fmtK_kd, fmtK_kd2, fmtK_kd4, fmtK_ka, fmtK_ka2, fmtK_ka4, fmtK_kb, fmtK_kb2, fmtK_f, fmtK_f3, fmtK_f5, fmtK_fk, fmtK_fs, fmtK_f0, fmtK_g]
theorem acq (what : Res) (kd : KReg) (ka : KReg) (g : UGuard) : Statement (.acq what kd ka g) := by
  refine of_word _ _ rfl ?_
  have := ress_lt what
  simp (disch := omega) only [pick_fmtK6, pick6, Nat.reduceMod, ofNat_self, Option.map_some, fmtK_kd, fmtK_ka, fmtK_f, fmtK_g, ress_of]
theorem rel (what : Res) (ka : KReg) (g : UGuard) : Statement (.rel what ka g) := by
  refine of_word _ _ rfl ?_
  have := ress_lt what
  simp (disch := omega) only [pick_fmtK6, pick6, Nat.reduceMod, ofNat_self, Option.map_some, fmtK_ka, fmtK_f, fmtK_g, ress_of]
theorem tset (t : XReg) (ka : KReg) (kb : KReg) (g : UGuard) : Statement (.tset t ka kb g) := by
  refine of_word _ _ rfl ?_
  simp (disch := omega) only [pick_fmtK6, pick6, Nat.reduceMod, ofNat_self, fmtK_kd4, fmtK_ka, fmtK_kb, fmtK_g]
theorem tget (kd : KReg) (t : XReg) (h : Bool) (g : UGuard) : Statement (.tget kd t h g) := by
  refine of_word _ _ rfl ?_
  have := b2n_lt h
  simp (disch := omega) only [bitOf, b2n_bit, pick_fmtK6, pick6, Nat.reduceMod, ofNat_self, fmtK_kd, fmtK_ka4, fmtK_f0, fmtK_g]
theorem mmaE4m3 (z : XReg) (tb : XReg) (va : VReg) (scl : Option (VReg × BitVec 2)) (ru : Bool) : Statement (.mmaE4m3 z tb va scl ru) := by
  refine of_word _ _ rfl ?_
  have := b2n_lt ru
  simp (disch := omega) only [pick_fmtXm7, pick7, Nat.reduceMod, fmtXm_z, fmtXm_tb, fmtXm_va, fmtXm_ru, fmtXm_s]
theorem mmaE5m2 (z : XReg) (tb : XReg) (va : VReg) (scl : Option (VReg × BitVec 2)) (ru : Bool) : Statement (.mmaE5m2 z tb va scl ru) := by
  refine of_word _ _ rfl ?_
  have := b2n_lt ru
  simp (disch := omega) only [pick_fmtXm7, pick7, Nat.reduceMod, fmtXm_z, fmtXm_tb, fmtXm_va, fmtXm_ru, fmtXm_s]
theorem mmaL6 (z : XReg) (tb : XReg) (va : VReg) (scl : Option (VReg × BitVec 2)) (ru : Bool) : Statement (.mmaL6 z tb va scl ru) := by
  refine of_word _ _ rfl ?_
  have := b2n_lt ru
  simp (disch := omega) only [pick_fmtXm7, pick7, Nat.reduceMod, fmtXm_z, fmtXm_tb, fmtXm_va, fmtXm_ru, fmtXm_s]
theorem mmaI8 (z : XReg) (tb : XReg) (va : VReg) (ru : Bool) : Statement (.mmaI8 z tb va ru) := by
  refine of_word _ _ rfl ?_
  have := b2n_lt ru
  simp (disch := omega) only [pick_fmtXm7, pick7, Nat.reduceMod, fmtXm_z, fmtXm_tb, fmtXm_va, fmtXm_ru]
theorem mmaBf16 (z : XReg) (tb : XReg) (va : VReg) (ru : Bool) : Statement (.mmaBf16 z tb va ru) := by
  refine of_word _ _ rfl ?_
  have := b2n_lt ru
  simp (disch := omega) only [pick_fmtXm7, pick7, Nat.reduceMod, fmtXm_z, fmtXm_tb, fmtXm_va, fmtXm_ru]
theorem mmaF16 (z : XReg) (tb : XReg) (va : VReg) (ru : Bool) : Statement (.mmaF16 z tb va ru) := by
  refine of_word _ _ rfl ?_
  have := b2n_lt ru
  simp (disch := omega) only [pick_fmtXm7, pick7, Nat.reduceMod, fmtXm_z, fmtXm_tb, fmtXm_va, fmtXm_ru]
theorem mzero (z : XReg) (bar : Option BReg) : Statement (.mzero z bar) := by
  refine of_word _ _ rfl ?_
  simp (disch := omega) only [pick_fmtX7, pick7, Nat.reduceMod, ofNat_self, fmtX_td, fmtX_bar]
theorem mld (z : XReg) (ta : XReg) (f : Compl) : Statement (.mld z ta f) := by
  refine of_word _ _ rfl ?_
  simp (disch := omega) only [pick_fmtX7, pick7, Nat.reduceMod, ofNat_self, fmtX_td, fmtX_ta, fmtX_c]
theorem mst (ta : XReg) (z : XReg) (f : Compl) : Statement (.mst ta z f) := by
  refine of_word _ _ rfl ?_
  simp (disch := omega) only [pick_fmtX7, pick7, Nat.reduceMod, ofNat_self, fmtX_td, fmtX_ta, fmtX_c]
theorem mdrain (fmt : DrainFmt) (ta : XReg) (z : XReg) (kx : Option XReg) (clr : Bool) (f : Compl) : Statement (.mdrain fmt ta z kx clr f) := by
  have hl := drainFmts_lt fmt
  have hb := b2n_lt clr
  rcases kx with _ | kx
  · refine of_word _ _ rfl ?_
    have h1 : (b2n clr * 16 + codeOf drainFmts fmt) % 8 = codeOf drainFmts fmt := by omega
    have h2 : (b2n clr * 16 + codeOf drainFmts fmt) / 8 % 2 = 0 := by omega
    have h3 : (b2n clr * 16 + codeOf drainFmts fmt) / 16 % 2 = b2n clr := by omega
    simp (disch := omega) only [pick_fmtX7, pick7, Nat.reduceMod, ofNat_self, Option.map_some, fmtX_td, fmtX_ta, fmtX_f03, bitOf,
      fmtX_f3, fmtX_f4, fmtX_c, drainFmts_of, h1, h2, h3, b2n_bit']
    rfl
  · refine of_word _ _ rfl ?_
    have h1 : (b2n clr * 16 + 8 + codeOf drainFmts fmt) % 8 = codeOf drainFmts fmt := by omega
    have h2 : (b2n clr * 16 + 8 + codeOf drainFmts fmt) / 8 % 2 = 1 := by omega
    have h3 : (b2n clr * 16 + 8 + codeOf drainFmts fmt) / 16 % 2 = b2n clr := by omega
    simp (disch := omega) only [pick_fmtX7, pick7, Nat.reduceMod, ofNat_self, Option.map_some, fmtX_td, fmtX_ta, fmtX_n, fmtX_f03,
      bitOf, fmtX_f3, fmtX_f4, fmtX_c, drainFmts_of, h1, h2, h3, b2n_bit']
    rfl
theorem mramp (n : BitVec 5) (g : UGuard) : Statement (.mramp n g) := by
  refine of_word _ _ rfl ?_
  simp (disch := omega) only [pick_fmtK7, pick7, Nat.reduceMod, ofNat_self, fmtK_f5, fmtK_g]
theorem ldlB32 (d : VReg) (m : MAddr) : Statement (.ldlB32 d m) := by
  refine of_word _ _ rfl ?_
  simp (disch := omega) only [pick_fmtM8, pick8, Nat.reduceMod, fmtM_d, fmtM_m]
theorem ldlB64 (d : VReg) (m : MAddr) : Statement (.ldlB64 d m) := by
  refine of_word _ _ rfl ?_
  simp (disch := omega) only [pick_fmtM8, pick8, Nat.reduceMod, fmtM_d, fmtM_m]
theorem stlB32 (d : VReg) (m : MAddr) : Statement (.stlB32 d m) := by
  refine of_word _ _ rfl ?_
  simp (disch := omega) only [pick_fmtM8, pick8, Nat.reduceMod, fmtM_d, fmtM_m]
theorem stlB64 (d : VReg) (m : MAddr) : Statement (.stlB64 d m) := by
  refine of_word _ _ rfl ?_
  simp (disch := omega) only [pick_fmtM8, pick8, Nat.reduceMod, fmtM_d, fmtM_m]
theorem ldsB32 (d : VReg) (m : MAddr) : Statement (.ldsB32 d m) := by
  refine of_word _ _ rfl ?_
  simp (disch := omega) only [pick_fmtM8, pick8, Nat.reduceMod, fmtM_d, fmtM_m]
theorem ldsB64 (d : VReg) (m : MAddr) : Statement (.ldsB64 d m) := by
  refine of_word _ _ rfl ?_
  simp (disch := omega) only [pick_fmtM8, pick8, Nat.reduceMod, fmtM_d, fmtM_m]
theorem ldsB128 (d : VReg) (m : MAddr) : Statement (.ldsB128 d m) := by
  refine of_word _ _ rfl ?_
  simp (disch := omega) only [pick_fmtM8, pick8, Nat.reduceMod, fmtM_d, fmtM_m]
theorem stsB32 (d : VReg) (m : MAddr) : Statement (.stsB32 d m) := by
  refine of_word _ _ rfl ?_
  simp (disch := omega) only [pick_fmtM8, pick8, Nat.reduceMod, fmtM_d, fmtM_m]
theorem stsB64 (d : VReg) (m : MAddr) : Statement (.stsB64 d m) := by
  refine of_word _ _ rfl ?_
  simp (disch := omega) only [pick_fmtM8, pick8, Nat.reduceMod, fmtM_d, fmtM_m]
theorem stsB128 (d : VReg) (m : MAddr) : Statement (.stsB128 d m) := by
  refine of_word _ _ rfl ?_
  simp (disch := omega) only [pick_fmtM8, pick8, Nat.reduceMod, fmtM_d, fmtM_m]
theorem ldxB32 (d : VReg) (m : MAddr) : Statement (.ldxB32 d m) := by
  refine of_word _ _ rfl ?_
  simp (disch := omega) only [pick_fmtM8, pick8, Nat.reduceMod, fmtM_d, fmtM_m]
theorem ldxB64 (d : VReg) (m : MAddr) : Statement (.ldxB64 d m) := by
  refine of_word _ _ rfl ?_
  simp (disch := omega) only [pick_fmtM8, pick8, Nat.reduceMod, fmtM_d, fmtM_m]
theorem ldxB128 (d : VReg) (m : MAddr) : Statement (.ldxB128 d m) := by
  refine of_word _ _ rfl ?_
  simp (disch := omega) only [pick_fmtM8, pick8, Nat.reduceMod, fmtM_d, fmtM_m]
theorem stxB32 (d : VReg) (m : MAddr) : Statement (.stxB32 d m) := by
  refine of_word _ _ rfl ?_
  simp (disch := omega) only [pick_fmtM8, pick8, Nat.reduceMod, fmtM_d, fmtM_m]
theorem stxB64 (d : VReg) (m : MAddr) : Statement (.stxB64 d m) := by
  refine of_word _ _ rfl ?_
  simp (disch := omega) only [pick_fmtM8, pick8, Nat.reduceMod, fmtM_d, fmtM_m]
theorem stxB128 (d : VReg) (m : MAddr) : Statement (.stxB128 d m) := by
  refine of_word _ _ rfl ?_
  simp (disch := omega) only [pick_fmtM8, pick8, Nat.reduceMod, fmtM_d, fmtM_m]
theorem cpy (form : CpyForm) (td : XReg) (ta : XReg) (n : XReg) (f : Compl) : Statement (.cpy form td ta n f) := by
  refine of_word _ _ rfl ?_
  have := cpyForms_lt form
  simp (disch := omega) only [pick_fmtX9, pick9, Nat.reduceMod, ofNat_self, Option.map_some, fmtX_td, fmtX_ta, fmtX_n, fmtX_f, fmtX_c, cpyForms_of]
theorem put (d : VReg) (m : MAddr) : Statement (.put d m) := by
  refine of_word _ _ rfl ?_
  simp (disch := omega) only [pick_fmtM9, pick9, Nat.reduceMod, fmtM_d, fmtM_m]
theorem get (d : VReg) (m : MAddr) : Statement (.get d m) := by
  refine of_word _ _ rfl ?_
  simp (disch := omega) only [pick_fmtM9, pick9, Nat.reduceMod, fmtM_d, fmtM_m]
theorem waitp (p : BitVec 3) (ka : KReg) (g : UGuard) : Statement (.waitp p ka g) := by
  refine of_word _ _ rfl ?_
  simp (disch := omega) only [pick_fmtK9, pick9, Nat.reduceMod, ofNat_self, fmtK_ka, fmtK_f3, fmtK_g]
theorem fence (k : FenceKind) (sc : Scope) (g : UGuard) : Statement (.fence k sc g) := by
  refine of_word _ _ rfl ?_
  have := fenceKinds_lt k
  have := scopes_lt sc
  simp (disch := omega) only [two_hi, two_lo, pick_fmtK9, pick9, Nat.reduceMod, Option.map_some, Option.bind_some, fmtK_fk, fmtK_fs, fmtK_g, fenceKinds_of, scopes_of]
theorem afence (g : UGuard) : Statement (.afence g) := by
  refine of_word _ _ rfl ?_
  simp (disch := omega) only [pick_fmtK9, pick9, Nat.reduceMod, fmtK_g]
theorem hflush (k : FlushKind) (ka : KReg) (kb : KReg) (g : UGuard) : Statement (.hflush k ka kb g) := by
  refine of_word _ _ rfl ?_
  have := flushKinds_lt k
  simp (disch := omega) only [pick_fmtK9, pick9, Nat.reduceMod, ofNat_self, Option.map_some, fmtK_ka, fmtK_kb, fmtK_f, fmtK_g, flushKinds_of]
theorem dwfence (g : UGuard) : Statement (.dwfence g) := by
  refine of_word _ _ rfl ?_
  simp (disch := omega) only [pick_fmtK9, pick9, Nat.reduceMod, fmtK_g]
theorem methreg (ka : KReg) (x : Word) (g : UGuard) : Statement (.methreg ka x g) := by
  refine of_words _ _ _ rfl ?_
  simp (disch := omega) only [pick_fmtK9, pick9, Nat.reduceMod, ofNat_self, fmtK_ka, fmtK_g]
theorem atomAddI32 (d : VReg) (m : MAddr) : Statement (.atomAddI32 d m) := by
  refine of_word _ _ rfl ?_
  simp (disch := omega) only [pick_fmtMA, pickA, Nat.reduceMod, fmtM_d, fmtM_m]
theorem atomAddF32 (d : VReg) (m : MAddr) : Statement (.atomAddF32 d m) := by
  refine of_word _ _ rfl ?_
  simp (disch := omega) only [pick_fmtMA, pickA, Nat.reduceMod, fmtM_d, fmtM_m]
theorem atomMinI32 (d : VReg) (m : MAddr) : Statement (.atomMinI32 d m) := by
  refine of_word _ _ rfl ?_
  simp (disch := omega) only [pick_fmtMA, pickA, Nat.reduceMod, fmtM_d, fmtM_m]
theorem atomMaxI32 (d : VReg) (m : MAddr) : Statement (.atomMaxI32 d m) := by
  refine of_word _ _ rfl ?_
  simp (disch := omega) only [pick_fmtMA, pickA, Nat.reduceMod, fmtM_d, fmtM_m]
theorem atomMinN32 (d : VReg) (m : MAddr) : Statement (.atomMinN32 d m) := by
  refine of_word _ _ rfl ?_
  simp (disch := omega) only [pick_fmtMA, pickA, Nat.reduceMod, fmtM_d, fmtM_m]
theorem atomMaxN32 (d : VReg) (m : MAddr) : Statement (.atomMaxN32 d m) := by
  refine of_word _ _ rfl ?_
  simp (disch := omega) only [pick_fmtMA, pickA, Nat.reduceMod, fmtM_d, fmtM_m]
theorem atomAnd (d : VReg) (m : MAddr) : Statement (.atomAnd d m) := by
  refine of_word _ _ rfl ?_
  simp (disch := omega) only [pick_fmtMA, pickA, Nat.reduceMod, fmtM_d, fmtM_m]
theorem atomOr (d : VReg) (m : MAddr) : Statement (.atomOr d m) := by
  refine of_word _ _ rfl ?_
  simp (disch := omega) only [pick_fmtMA, pickA, Nat.reduceMod, fmtM_d, fmtM_m]
theorem atomXor (d : VReg) (m : MAddr) : Statement (.atomXor d m) := by
  refine of_word _ _ rfl ?_
  simp (disch := omega) only [pick_fmtMA, pickA, Nat.reduceMod, fmtM_d, fmtM_m]
theorem atomXchg (d : VReg) (m : MAddr) : Statement (.atomXchg d m) := by
  refine of_word _ _ rfl ?_
  simp (disch := omega) only [pick_fmtMA, pickA, Nat.reduceMod, fmtM_d, fmtM_m]
theorem cas (d : VReg) (m : MAddr) : Statement (.cas d m) := by
  refine of_word _ _ rfl ?_
  simp (disch := omega) only [pick_fmtMA, pickA, Nat.reduceMod, fmtM_d, fmtM_m]
theorem casgt (d : VReg) (m : MAddr) : Statement (.casgt d m) := by
  refine of_word _ _ rfl ?_
  simp (disch := omega) only [pick_fmtMA, pickA, Nat.reduceMod, fmtM_d, fmtM_m]
theorem casv (d : VReg) (m : MAddr) : Statement (.casv d m) := by
  refine of_word _ _ rfl ?_
  simp (disch := omega) only [pick_fmtMA, pickA, Nat.reduceMod, fmtM_d, fmtM_m]
theorem caspt (d : VReg) (m : MAddr) : Statement (.caspt d m) := by
  refine of_word _ _ rfl ?_
  simp (disch := omega) only [pick_fmtMA, pickA, Nat.reduceMod, fmtM_d, fmtM_m]
theorem waitc (d : VReg) (m : MAddr) (x : Word) : Statement (.waitc d m x) := by
  refine of_words _ _ _ rfl ?_
  simp (disch := omega) only [pick_fmtMA, pickA, Nat.reduceMod, ofNat_self, fmtM_d, fmtM_m]
theorem comb (d : VReg) (m : MAddr) (x : Word) : Statement (.comb d m x) := by
  refine of_words _ _ _ rfl ?_
  simp (disch := omega) only [pick_fmtMA, pickA, Nat.reduceMod, ofNat_self, fmtM_d, fmtM_m]
theorem coll (form : CollForm) (td : XReg) (ta : XReg) (kn : XReg) (f : Compl) : Statement (.coll form td ta kn f) := by
  refine of_word _ _ rfl ?_
  have := collForms_lt form
  simp (disch := omega) only [pick_fmtXB, pickB, Nat.reduceMod, ofNat_self, Option.map_some, fmtX_td, fmtX_ta, fmtX_n, fmtX_f, fmtX_c, collForms_of]
theorem rotOpen (td : XReg) (kn : XReg) (b : BReg) : Statement (.rotOpen td kn b) := by
  refine of_word _ _ rfl ?_
  simp (disch := omega) only [pick_fmtXB, pickB, Nat.reduceMod, ofNat_self, fmtX_td, fmtX_n, fmtX_f, fmtX_b]
theorem rotRun (ta : XReg) (kn : XReg) (foe : Bool) : Statement (.rotRun ta kn foe) := by
  refine of_word _ _ rfl ?_
  have := b2n_lt foe
  simp (disch := omega) only [pick_fmtXB, pickB, Nat.reduceMod, ofNat_self, fmtX_ta, fmtX_n, fmtX_f, fmtX_foe]
theorem rotClose (kn : XReg) : Statement (.rotClose kn) := by
  refine of_word _ _ rfl ?_
  simp (disch := omega) only [pick_fmtXB, pickB, Nat.reduceMod, ofNat_self, fmtX_n, fmtX_f]
theorem xchg (td : XReg) (ta : XReg) (n : XReg) (f : Compl) : Statement (.xchg td ta n f) := by
  refine of_word _ _ rfl ?_
  simp (disch := omega) only [pick_fmtXB, pickB, Nat.reduceMod, ofNat_self, fmtX_td, fmtX_ta, fmtX_n, fmtX_c]
theorem bpri (kn : XReg) : Statement (.bpri kn) := by
  refine of_word _ _ rfl ?_
  simp (disch := omega) only [pick_fmtXB, pickB, Nat.reduceMod, ofNat_self, fmtX_n, bitOf, fmtX_f0]
  rfl
theorem bpriGet (kn : XReg) : Statement (.bpriGet kn) := by
  refine of_word _ _ rfl ?_
  simp (disch := omega) only [pick_fmtXB, pickB, Nat.reduceMod, ofNat_self, fmtX_n, bitOf, fmtX_f0]
  rfl
theorem rsto (ta : XReg) (kn : XReg) (f : Compl) : Statement (.rsto ta kn f) := by
  refine of_word _ _ rfl ?_
  simp (disch := omega) only [pick_fmtXB, pickB, Nat.reduceMod, ofNat_self, fmtX_ta, fmtX_n, fmtX_c]
theorem upd (opt : UpdOpt) (msk : UpdMask) (pair : Bool) (td : XReg) (ta : XReg) (kn : XReg) (f : Compl) : Statement (.upd opt msk pair td ta kn f) := by
  refine of_word _ _ rfl ?_
  have := updOpts_lt opt
  have := updMasks_lt msk
  have := b2n_lt pair
  have h1 : (b2n pair * 16 + codeOf updMasks msk * 4 + codeOf updOpts opt) % 4 = codeOf updOpts opt := by omega
  have h2 : (b2n pair * 16 + codeOf updMasks msk * 4 + codeOf updOpts opt) / 4 % 4 = codeOf updMasks msk := by omega
  have h3 : (b2n pair * 16 + codeOf updMasks msk * 4 + codeOf updOpts opt) / 16 % 2 = b2n pair := by omega
  simp (disch := omega) only [pick_fmtXB, pickB, Nat.reduceMod, ofNat_self, Option.map_some, Option.bind_some, fmtX_td, fmtX_ta,
    fmtX_n, fmtX_f02, fmtX_f22, bitOf, fmtX_f4, fmtX_c, updOpts_of, updMasks_of, h1, h2, h3, b2n_bit']
theorem pairst (td : XReg) (ta : XReg) (n : XReg) (f : Compl) : Statement (.pairst td ta n f) := by
  refine of_word _ _ rfl ?_
  simp (disch := omega) only [pick_fmtXB, pickB, Nat.reduceMod, ofNat_self, fmtX_td, fmtX_ta, fmtX_n, fmtX_c]
theorem place (op : PlaceOp) (ta : XReg) (kn : XReg) (f : Compl) : Statement (.place op ta kn f) := by
  refine of_word _ _ rfl ?_
  have := placeOps_lt op
  simp (disch := omega) only [pick_fmtXB, pickB, Nat.reduceMod, ofNat_self, Option.map_some, fmtX_ta, fmtX_n, fmtX_f, fmtX_c, placeOps_of]
theorem pfence (stripe : Bool) : Statement (.pfence stripe) := by
  refine of_word _ _ rfl ?_
  have := b2n_lt stripe
  simp (disch := omega) only [bitOf, b2n_bit, pick_fmtXB, pickB, Nat.reduceMod, fmtX_f0]
theorem step (kn : XReg) (bar : Option BReg) : Statement (.step kn bar) := by
  refine of_word _ _ rfl ?_
  simp (disch := omega) only [pick_fmtXB, pickB, Nat.reduceMod, ofNat_self, fmtX_n, fmtX_bar]
theorem snap (kn : XReg) (bar : Option BReg) : Statement (.snap kn bar) := by
  refine of_word _ _ rfl ?_
  simp (disch := omega) only [pick_fmtXB, pickB, Nat.reduceMod, ofNat_self, fmtX_n, fmtX_bar]
theorem estat (k : EngKind) (kn : XReg) : Statement (.estat k kn) := by
  refine of_word _ _ rfl ?_
  have := engKinds_lt k
  simp (disch := omega) only [pick_fmtXB, pickB, Nat.reduceMod, ofNat_self, Option.map_some, fmtX_n, fmtX_f, engKinds_of]
theorem ewait (k : EngKind) (kn : XReg) : Statement (.ewait k kn) := by
  refine of_word _ _ rfl ?_
  have := engKinds_lt k
  simp (disch := omega) only [pick_fmtXB, pickB, Nat.reduceMod, ofNat_self, Option.map_some, fmtX_n, fmtX_f, engKinds_of]
theorem srr (reg : BitVec 6) (idx : BitVec 12) (rk : Bool) : Statement (.srr reg idx rk) := by
  refine of_word _ _ rfl ?_
  simp (disch := omega) only [pick_fmtSC, pickC, Nat.reduceMod, ofNat_self, fmtS_reg, fmtS_idx, bitOf, fmtS_rk, b2n_bit']
theorem srw (reg : BitVec 6) (idx : BitVec 12) (rk : Bool) : Statement (.srw reg idx rk) := by
  refine of_word _ _ rfl ?_
  simp (disch := omega) only [pick_fmtSC, pickC, Nat.reduceMod, ofNat_self, fmtS_reg, fmtS_idx, bitOf, fmtS_rk, b2n_bit']
theorem trap (c : BitVec 12) : Statement (.trap c) := by
  refine of_word _ _ rfl ?_
  simp (disch := omega) only [pick_fmtSC, pickC, Nat.reduceMod, ofNat_self, fmtS_idx]
theorem rinj (m : BitVec 8) : Statement (.rinj m) := by
  refine of_word _ _ rfl ?_
  simp (disch := omega) only [pick_fmtSC, pickC, Nat.reduceMod, ofNat_self, fmtS_idx8]
theorem engs (ka : KReg) : Statement (.engs ka) := by
  refine of_word _ _ rfl ?_
  simp (disch := omega) only [pick_fmtSC, pickC, Nat.reduceMod, ofNat_self, fmtS_reg5]
theorem engr (ka : KReg) : Statement (.engr ka) := by
  refine of_word _ _ rfl ?_
  simp (disch := omega) only [pick_fmtSC, pickC, Nat.reduceMod, ofNat_self, fmtS_reg5]
theorem clauseStart : Statement (.clauseStart) := fun _ h => absurd rfl h
theorem repRepeat : Statement (.repRepeat) := fun _ h => absurd rfl h
theorem thawTokenReissue : Statement (.thawTokenReissue) := fun _ h => absurd rfl h
theorem copyChunkCommit : Statement (.copyChunkCommit) := fun _ h => absurd rfl h
theorem copyComplete : Statement (.copyComplete) := fun _ h => absurd rfl h
theorem chunkLinkTimeout : Statement (.chunkLinkTimeout) := fun _ h => absurd rfl h
theorem collChunkCommit : Statement (.collChunkCommit) := fun _ h => absurd rfl h
theorem collComplete : Statement (.collComplete) := fun _ h => absurd rfl h
theorem rstoComplete : Statement (.rstoComplete) := fun _ h => absurd rfl h
theorem xchgComplete : Statement (.xchgComplete) := fun _ h => absurd rfl h
theorem rotOpenComplete : Statement (.rotOpenComplete) := fun _ h => absurd rfl h
theorem rotRunComplete : Statement (.rotRunComplete) := fun _ h => absurd rfl h
theorem rotCloseComplete : Statement (.rotCloseComplete) := fun _ h => absurd rfl h
theorem updBlockWrite : Statement (.updBlockWrite) := fun _ h => absurd rfl h
theorem updComplete : Statement (.updComplete) := fun _ h => absurd rfl h
theorem pairstComplete : Statement (.pairstComplete) := fun _ h => absurd rfl h
theorem putAck : Statement (.putAck) := fun _ h => absurd rfl h
theorem putLineApply : Statement (.putLineApply) := fun _ h => absurd rfl h
theorem peerAccess : Statement (.peerAccess) := fun _ h => absurd rfl h
theorem packetHop : Statement (.packetHop) := fun _ h => absurd rfl h
theorem packetDeliver : Statement (.packetDeliver) := fun _ h => absurd rfl h
theorem parityDeltaArrive : Statement (.parityDeltaArrive) := fun _ h => absurd rfl h
theorem parityAckArrive : Statement (.parityAckArrive) := fun _ h => absurd rfl h
theorem reduceMergeApply : Statement (.reduceMergeApply) := fun _ h => absurd rfl h
theorem join : Statement (.join) := by
  refine of_word _ _ rfl ?_
  simp (disch := omega) only [pick_fmtT3, pick3, Nat.reduceMod]
theorem ret : Statement (.ret) := by
  refine of_word _ _ rfl ?_
  simp (disch := omega) only [pick_fmtT4, pick4, Nat.reduceMod]
theorem reti : Statement (.reti) := by
  refine of_word _ _ rfl ?_
  simp (disch := omega) only [pick_fmtSC, pickC, Nat.reduceMod]
theorem idle : Statement (.idle) := by
  refine of_word _ _ rfl ?_
  simp (disch := omega) only [pick_fmtSC, pickC, Nat.reduceMod]
theorem halt : Statement (.halt) := by
  refine of_word _ _ rfl ?_
  simp (disch := omega) only [pick_fmtSC, pickC, Nat.reduceMod]

end Sys2Proof.Laws.RoundTrip
end

