-- ==== Sys2Proof/Machine/Aperture.lean ====
section
/-! DEFINITION. What the host reads in the register aperture (R442, R443): a function of the state, since a read changes nothing. -/

namespace Sys2Proof.Machine

/-! ### Core blocks (R443) -/

/-- A register index of core or wider scope, which is read without a group (R442). -/
def sysDirect (i : Nat) : Bool := i == 0x020 || i == 0x030 || i == 0x032 || (0x050 ≤ i && i ≤ 0x054)

/-- The group resident at the place that GSEL of a core selects (R443). -/
def selected (s : State) (c : CoreId) : Option Group :=
  let pl := (s.core c).gselPlace
  s.groups.find? fun g =>
    g.wave.isNone && g.core == c && g.lane == pl / 4 && g.place == pl % 4 && (s.team? g.tid).any fun t => t.holds

/-- GSTAT of a resident group (R443). -/
def Group.gstat (g : Group) : Nat :=
  1 + b2n g.trap.tmode * 2 + b2n g.trap.faulted * 4 + g.num % 64 * 2 ^ 8 + g.ctx % 2 ^ 16 * 2 ^ 32

/-- A split-table entry in the layout of R410; a free one has state 3. -/
def Group.fragNum (g : Group) (e : Nat) : Nat := ((g.frag e).map Frag.num).getD (3 * 2 ^ 82)

/-- A reconvergence record in the layout of R410. -/
def Group.recNum (g : Group) (r : Nat) : Nat := ((g.recs[r]?.getD none).map RRec.num).getD 0

/-- The 8-byte word of a number at a byte offset into it. -/
def wordAtByte (x o : Nat) : Nat := bitsOf x (8 * o) 64

/-- The windows of the selected group, by offset in the core block (R443). -/
def Group.window (g : Group) (slot o : Nat) : Nat :=
  if 0xC000 ≤ o && o < 0xC200 then
    let j := (o - 0xC000) / 4
    let b (i : Nat) : Nat := ((g.thread slot).backing[i]?.getD 0).toNat
    b j + b (j + 1) * 2 ^ 32
  else if 0xD000 ≤ o && o < 0xD080 then wordAtByte (g.fragNum ((o - 0xD000) / 16)) (o % 16)
  else if 0xD080 ≤ o && o < 0xD180 then wordAtByte (g.recNum ((o - 0xD080) / 16)) (o % 16)
  else if 0xD180 ≤ o && o < 0xD190 then wordAtByte (bitsOf g.jaddr.toNat 0 57 + g.jmask.toNat * 2 ^ 57) (o - 0xD180)
  else if o == 0xD190 then g.exited.toNat
  else if o == 0xD198 then ((upTo 8).map fun n => g.path n % 256 * 2 ^ (8 * n)).sum
  else 0

/-- A word of a core block (R442, R443); a place with no resident group reads zero. -/
def coreRegRead (s : State) (c : CoreId) (o : Nat) : Nat :=
  let x := s.core c
  let i := o / 8
  let g (f : Group → Nat) : Nat := ((selected s c).map f).getD 0
  if o < 0x8000 then
    if (sysWidth i).isNone then 0
    else if sysDirect i then coreRead s c i
    else g fun g => (sysRead s g i x.gselSlot).toNat
  else if o == 0x8000 then x.gselPlace % 128 + x.gselSlot % 16 * 2 ^ 7
  else if o == 0x8008 then g Group.gstat
  else g fun g => g.window x.gselSlot o

/-! ### Slice, die and port blocks (R442) -/

/-- The combiner fault record (R303). -/
def Slice.cfRecord (q : Slice) : Nat :=
  q.cfAddr % 2 ^ 57 + q.cfMethod % 64 * 2 ^ 64 + q.cfCause % 16 * 2 ^ 72 + q.cfCtx % 2 ^ 16 * 2 ^ 80 + q.cfCount % 2 ^ 32 * 2 ^ 96

/-- The code of a monitor entry's state (R443). -/
def MonSt.code : MonSt → Nat
  | .armed => 1
  | .fired _ _ _ => 2
  | .replied => 3

/-- The monitor entry window: 32 bytes as one number (R443). The register is v[DATA] of the word that waits. -/
def monitorWindow (s : State) (m : Monitor) : Nat :=
  let w0 := m.req.va % 2 ^ 57 + m.cond % 8 * 2 ^ 57 + b2n m.signed * 2 ^ 60 + m.st.code * 2 ^ 61
  let w1 := m.val.toNat + m.mask.toNat * 2 ^ 32
  let place := ((s.group? m.req.gid).map fun g => (16 * g.core.row + g.core.col) % 128 * 2 ^ 16 + (4 * g.lane + g.place) % 128 * 2 ^ 23).getD 0
  let reg := ((s.group? m.req.gid).bind fun g => g.flights.find? fun f => f.seq == m.req.seq).map fun f => bitsOf f.word.toNat 18 6
  let w2 := m.req.ctx % 2 ^ 16 + place + m.req.slot % 16 * 2 ^ 30 + reg.getD 0 * 2 ^ 34
  w0 + w1 * 2 ^ 64 + w2 * 2 ^ 128 + (m.deadline.getD 0) % 2 ^ 64 * 2 ^ 192

/-- A word of a slice block (R296, R303, R443). -/
def sliceRegRead (s : State) (sl : SliceId) (o : Nat) : Nat :=
  let q := s.slice sl
  if o == 0x000 then q.mrCtx % 2 ^ 16 + b2n q.mrBusy * 2 ^ 17
  else if 0x010 ≤ o && o < 0x020 then wordAtByte q.cfRecord (o - 0x010)
  else if o == 0x020 then q.monsel % 1024
  else if 0x040 ≤ o && o < 0x060 then
    ((q.monitors.find? fun m => m.entry == q.monsel).map fun m => wordAtByte (monitorWindow s m) (o - 0x040)).getD 0
  else 0

/-- A fault record (R227). -/
def FaultRec.num (r : FaultRec) : Nat :=
  r.va % 2 ^ 57 + r.cause % 16 * 2 ^ 64 + r.level % 8 * 2 ^ 68 + b2n r.wdrn * 2 ^ 71 + r.access % 16 * 2 ^ 72 + r.engine % 16 * 2 ^ 76 +
    r.ctx % 2 ^ 16 * 2 ^ 80 + r.optag % 2 ^ 32 * 2 ^ 96

/-- TIERELOG (R341). -/
def DieRegs.tierelog (r : DieRegs) : Nat := r.corr % 2 ^ 32 + r.pois % 2 ^ 16 * 2 ^ 32 + r.lastp % 2 ^ 42 * 2 ^ 64

/-- A word of a die block (R224, R227, R341, R351, R362); FLTCTL reads zero (R228). -/
def dieRegRead (p : Pkg) (d o : Nat) : Nat :=
  let r := p.die d
  if o == 0x00 then r.tlbiva % 2 ^ 45 * 2 ^ 12
  else if o == 0x08 then r.tlbisz % 2 ^ 33 * 2 ^ 12
  else if o == 0x10 then b2n r.tlbJob.isSome * 2 + b2n r.tlbAll * 4 + r.tlbCtx % 2 ^ 16 * 2 ^ 16
  else if o == 0x20 then p.morstat d
  else if 0x30 ≤ o && o < 0x40 then wordAtByte r.tierelog (o - 0x30)
  else if 0x1000 ≤ o && o < 0x1400 then ((r.faults.get ((o - 0x1000) / 16)).map fun f => wordAtByte f.num (o % 16)).getD 0
  else if 0x2000 ≤ o && o < 0x2400 then
    (r.updLog[(o - 0x2000) / 16]?.map fun e =>
      wordAtByte (e.1 % 2 ^ 57 + e.2.1 % 16 * 2 ^ 57 + e.2.2 % 2 ^ 16 * 2 ^ 64) (o % 16)).getD 0
  else 0

/-- LKSTAT (R440). -/
def KeyRegs.lkstat (r : KeyRegs) : Nat :=
  (r.slot! 0).st % 4 + (r.slot! 1).st % 4 * 2 ^ 2 + b2n r.thrx * 2 ^ 4 + b2n r.down * 2 ^ 5 + r.dcause % 4 * 2 ^ 6 +
    (r.liveCounter.getD 0) % 2 ^ 40 * 2 ^ 24

/-- A word of a key block (R440): keys and salt, and all of LKCTL but SLOT, read zero. -/
def KeyRegs.word (r : KeyRegs) (o : Nat) : Nat :=
  if o == 0x28 then r.slot % 2
  else if o == 0x30 then r.thr % 2 ^ 40
  else if o == 0x38 then r.lkstat
  else 0

/-- A word of a port's blocks; those of a scale-up port at 0x200 and 0x300 give the partner's registers (R440, R471). -/
def portRegRead (s : State) (rank port o : Nat) : Nat :=
  let out := s.link ⟨rank, port, true⟩
  let back := s.link ⟨rank, port, false⟩
  if o < 0x40 then out.tx.word o
  else if 0x100 ≤ o && o < 0x140 then back.rx.word (o - 0x100)
  else if port < 36 && 0x200 ≤ o && o < 0x240 then back.tx.word (o - 0x200)
  else if port < 36 && 0x300 ≤ o && o < 0x340 then out.rx.word (o - 0x300)
  else 0

/-! ### The package block (R316, R342, R343, R447 to R449) -/

/-- STATE of a placement entry (R342). -/
def PlaceSt.code : PlaceSt → Nat
  | .tier => 1
  | .promoting => 2
  | .hbm => 3
  | .demoting => 4

/-- An entry of the placement table: 32 bytes as one number (R342). -/
def PlaceEntry.num (e : PlaceEntry) : Nat :=
  e.base % 2 ^ 57 + e.length % 2 ^ 41 * 2 ^ 64 + e.st.code * 2 ^ 105 + b2n e.pin * 2 ^ 108 + e.ctx % 2 ^ 16 * 2 ^ 128 +
    e.frame0 % 2 ^ 32 * 2 ^ 144

/-- The 8 bytes of a list at an offset, as a number. -/
def listWord (l : List Byte) (o : Nat) : Nat := ofBytesLE ((l.drop o).take 8)

/-- A word of the package block (R442). -/
def packageRegRead (s : State) (p : Pkg) (o : Nat) : Nat :=
  if o == 0x00 then p.gtsync % 2 ^ 10 + b2n p.gtBusy * 2 ^ 11 + b2n p.gtFault * 2 ^ 12
  else if o == 0x08 then p.plpoolb % 2 ^ 40
  else if o == 0x10 then p.plpools % 2 ^ 19
  else if o == 0x18 then p.tier.tierfree
  else if o == 0x20 then p.tier.firnst
  else if o == 0x28 then p.tier.pstep % 2 ^ 64
  else if o == 0x30 then fabst s p
  else if o == 0x38 then p.epkg % 2 ^ 64
  else if o == 0x48 then b2n p.attBusy * 2
  else if 0x80 ≤ o && o < 0xC0 then listWord p.nonce (o - 0x80)
  else if 0x100 ≤ o && o < 0x300 then listWord p.meas.toList.flatten (o - 0x100)
  else if 0x400 ≤ o && o < 0x800 then listWord p.report (o - 0x400)
  else if 0x800 ≤ o && o < 0xA00 then ((p.rwloss.get ((o - 0x800) / 8)).getD 0) % 2 ^ 64
  else if 0x10000 ≤ o && o < 0x30000 then
    ((p.place.find? fun e => e.idx == (o - 0x10000) / 32).map fun e => wordAtByte e.num (o % 32)).getD 0
  else 0

/-- The host's read of 8 bytes of the aperture at an aligned offset (R442): what the table does not list reads zero. -/
def apertureRead (s : State) (rank offset : Nat) : Nat :=
  let die := offset / 0x1000000
  let o := offset % 0x1000000
  match s.pkg? rank with
  | none => 0
  | some p =>
    if 4 ≤ die || offset % 8 != 0 then 0
    else if o < 0x800000 then coreRegRead s ⟨rank, die, o / 0x10000 / 16, o / 0x10000 % 16⟩ (o % 0x10000)
    else if o < 0x820000 then sliceRegRead s ⟨rank, 32 * die + (o - 0x800000) / 0x1000⟩ (o % 0x1000)
    else if 0xA00000 ≤ o && o < 0xA03000 then dieRegRead p die (o - 0xA00000)
    else if 0xC00000 ≤ o && o < 0xC0B000 then portRegRead s rank (portOf die ((o - 0xC00000) / 0x1000)) (o % 0x1000)
    else if 0xE00000 ≤ o && o < 0xE30000 && die == 0 then packageRegRead s p (o - 0xE00000)
    else 0

end Sys2Proof.Machine
end

