-- ==== Sys2Proof/Safety.lean ====
section
/-! DEFINITION. What counts as a safe run, in the terms that claims use: the canonical form of every memory that the state
holds, the bytes that the state holds, and what it says of an instruction that it completes. -/

namespace Sys2Proof.Safety

open Sys2Proof.Machine

/-! ### The memories of the state -/

/-- A memory with poison marks is in canonical form. -/
def ramOk (r : Ram) : Bool := r.bytes.wf

/-- The memories of a package are in canonical form: local HBM, the host coherent window, the tier as it reads and as it is
stored, and the parity held for peers. -/
def pkgOk (p : Pkg) : Bool :=
  ramOk p.hbm && ramOk p.window && ramOk p.tier.view && ramOk p.tier.store && p.tier.parity.wf

/-- The memories of a team are in canonical form: its shared memory and its accumulator tiles. -/
def teamOk (t : Team) : Bool := ramOk t.shared && ramOk t.acc

/-- Every memory of the state is in canonical form, so that equal memories are equal data. -/
def memoriesOk (s : State) : Bool :=
  ramOk s.host.mem && s.pkgs.all pkgOk && s.teams.all teamOk && s.segs.all fun x => ramOk x.ram && x.valid.wf

/-- A place that holds one byte: host memory, a package's HBM, host coherent window, tier as performed and as stored, a team's
shared memory and tiles, a scratchpad segment, a line of a spill buffer, a line of a memory-side cache. -/
inductive Place where
  | host (a : Nat)
  | hbm (rank a : Nat)
  | window (rank a : Nat)
  | tier (rank a : Nat)
  | stored (rank a : Nat)
  | shared (tid a : Nat)
  | tile (tid a : Nat)
  | scratch (seg a : Nat)
  | spill (core : CoreId) (ctx va : Nat)
  | cached (rank ctx va : Nat)
  deriving DecidableEq, Repr

/-- The byte that the state holds at a place; nothing where the place does not exist. -/
def byteAt (s : State) : Place → Option Byte
  | .host a => some (s.host.mem.bytes.read a)
  | .hbm r a => (s.pkg? r).map fun p => p.hbm.bytes.read a
  | .window r a => (s.pkg? r).map fun p => p.window.bytes.read a
  | .tier r a => (s.pkg? r).map fun p => p.tier.view.bytes.read a
  | .stored r a => (s.pkg? r).map fun p => p.tier.store.bytes.read a
  | .shared t a => (s.team? t).map fun t => t.shared.bytes.read a
  | .tile t a => (s.team? t).map fun t => t.acc.bytes.read a
  | .scratch g a => (s.segs.find? fun x => x.id == g).map fun x => x.ram.bytes.read a
  | .spill c ctx va =>
    ((s.core c).spill.find? fun l => l.ctx == ctx && l.va == va / 128 * 128).map fun l => l.bytes.getD (va % 128) 0
  | .cached r ctx va => ((s.pkg? r).bind fun p => p.cached ctx va).map fun c => c.bytes.getD (va % 256) 0

/-- Every byte that the state holds is as before. -/
def SameBytes (s t : State) : Prop := ∀ p, byteAt t p = byteAt s p

/-- Every byte is as before but those of one memory, at addresses from `a` to `a + n − 1`. -/
def SameBytesBut (s t : State) (at_ : Nat → Place) (a n : Nat) : Prop :=
  ∀ p, (∀ k, k < n → p ≠ at_ (a + k)) → byteAt t p = byteAt s p

/-! ### What a word leaves as it was -/

/-- Beyond the group `gid` and the operand latches of the cores, t is s, in every field and every byte. -/
structure OnlyGroup (s t : State) (gid : Nat) : Prop where
  groups : ∀ n, n ≠ gid → t.group? n = s.group? n
  cores : ∀ c, { t.core c with latches := [] } = { s.core c with latches := [] }
  rest : { t with groups := s.groups, cores := s.cores } = s
  bytes : SameBytes s t

/-- The fragment `f`, in entry `is.entry` of the group `g`, is the one whose word is being issued (R26). -/
structure Issues (s : State) (is : Issuer) (g : Group) (f : Frag) : Prop where
  who : s.who = some is
  group : s.group? is.gid = some g
  frag : g.frag is.entry = some f

/-- The group becomes `g'` and beyond it, and the operand latches, nothing changes. -/
def Becomes (s t : State) (gid : Nat) (g' : Group) : Prop := t.group? gid = some g' ∧ OnlyGroup s t gid

/-- A step that stops: it answers no next state. -/
def stops (o : Host.Outcome State Fault Refusal) : Bool :=
  match o with
  | .next _ => false
  | .fault _ => true
  | .refused _ => true

/-- A run of n steps that never stops. -/
def runs (n : Nat) (s : State) : Bool := !(stops (Sys2Proof.core.run n s))

/-! ### Thread words -/

/-- The slot whose operands a slot's result is computed from: itself, or the lowest active slot under UNI (R44, R93). -/
def source (f : Frag) (slot : Nat) : Nat := if f.uni then lowest f.mask else slot

/-- The slot is in the execution mask: active, and its guard holds (R44, R48). -/
def runsIn (g : Group) (f : Frag) (gd : Guard) (slot : Nat) : Bool :=
  f.mask.getLsbD slot && (gd.neg != (g.thread (source f slot)).pr gd.p)

/-- No operand of a slot that the word reads is pending or poisoned, and no result register of a slot that it writes is
pending (R58, R416). -/
structure Ready (g : Group) (f : Frag) (gd : Guard) (reads writes : List Nat) : Prop where
  sources : ∀ slot, slot < 16 → runsIn g f gd slot → ∀ n ∈ reads,
    g.vbusy (source f slot) n = false ∧ (g.thread (source f slot)).poisoned n = false
  results : ∀ slot, slot < 16 → runsIn g f gd slot → ∀ n ∈ writes, g.vbusy slot n = false

/-- A thread word completes: in every slot of its execution mask the registers become what `R` says of the slot, its old and
its new registers; the other slots, the rest of the group, every other group and every byte of memory are as before; then
the fragment moves on by `len` words (R93). -/
def ThreadDone (i : Instr) (s : State) (is : Issuer) (g : Group) (f : Frag) (gd : Guard) (len : Nat)
    (R : Nat → Thread → Thread → Prop) : Prop :=
  ∃ t g', exec i s = .next (advance t is len) ∧ t.group? is.gid = some g' ∧
    (∀ slot, slot < 16 →
      if runsIn g f gd slot then R slot (g.thread slot) (g'.thread slot) else g'.thread slot = g.thread slot) ∧
    { g' with threads := g.threads } = g ∧ OnlyGroup s t is.gid

/-- Only v d of the slot changes, to a value of which `P` holds with the registers of the slot that is read. -/
def WritesV (g : Group) (f : Frag) (d : VReg) (P : Thread → Word → Prop) (slot : Nat) (old new : Thread) : Prop :=
  ∃ w, new = old.setV d.toNat w ∧ P (g.thread (source f slot)) w

/-- Only the pair v d, v d + 1 of the slot changes (R12). -/
def WritesPair (g : Group) (f : Frag) (d : VReg) (P : Thread → DWord → Prop) (slot : Nat) (old new : Thread) : Prop :=
  ∃ x : DWord, new = (old.setV d.toNat (x.setWidth 32)).setV (d.toNat + 1) ((x >>> 32).setWidth 32) ∧
    P (g.thread (source f slot)) x

/-- Only the predicate p of the slot changes, and nothing when p is p7 (R13). -/
def WritesP (g : Group) (f : Frag) (p : PReg) (P : Thread → Bool → Prop) (slot : Nat) (old new : Thread) : Prop :=
  ∃ b, new = old.setP p b ∧ P (g.thread (source f slot)) b

/-- A thread word that issues with its registers ready completes so. -/
def ThreadWord (i : Instr) (gd : Guard) (len : Nat) (reads writes : List Nat)
    (R : Group → Frag → Nat → Thread → Thread → Prop) : Prop :=
  ∀ s is g f, Issues s is g f → Ready g f gd reads writes → ThreadDone i s is g f gd len (R g f)

/-- The rational number that a value stands for; 0 for a NaN or an infinity. -/
def ratOf : Val → ℚ
  | .num neg m e => (if neg then -1 else 1) * m * (2 : ℚ) ^ e
  | .nan _ => 0
  | .inf _ => 0

/-- A floating-point thread word: its guard, the v registers that it reads and writes, the conditions that a slot raises, and the
registers of a slot after it, from those of the slot that is read and its own. -/
structure FloatOp where
  guard : Guard
  reads : List Nat
  writes : List Nat
  conds : Thread → Conds
  result : Thread → Thread → Thread

/-- A word that writes v d with the value and the conditions of `F`. -/
def toV (gd : Guard) (d : VReg) (reads : List VReg) (F : Thread → Nat × Conds) : Option FloatOp :=
  some { guard := gd, reads := reads.map (·.toNat), writes := [d.toNat], conds := fun t => (F t).2
         result := fun t old => old.setV d.toNat (BitVec.ofNat 32 (F t).1) }

/-- v n of a slot as an FP32 value. -/
def f32 (t : Thread) (n : VReg) : Val := valOf .f32 (t.v n.toNat).toNat

/-- Half j of v n of a slot, as a value of a half format. -/
def half (f : HFmt) (t : Thread) (n : VReg) (j : Nat) : Val := valOf f.cvt ((t.v n.toNat).toNat / 2 ^ (16 * j) % 2 ^ 16)

/-- Two halves in one register, with the conditions of both. -/
def pair (lo hi : Nat × Conds) : Nat × Conds := (lo.1 + hi.1 * 2 ^ 16, lo.2.or hi.2)

/-- The low bits of v n of a slot that a format takes (R68). -/
def low (f : CvtFmt) (t : Thread) (n : VReg) : Nat := (t.v n.toNat).toNat % 2 ^ f.width

/-- The floating-point, conversion and packing words (R103, R107 to R114). -/
def floatOp : Instr → Option FloatOp
  | .fadd rm d a b gd => toV gd d [a, b] fun t => faddF .f32 rm (f32 t a) (f32 t b)
  | .fsub rm d a b gd => toV gd d [a, b] fun t => faddF .f32 rm (f32 t a) (f32 t b).neg
  | .fmul rm d a b gd => toV gd d [a, b] fun t => fmulF .f32 rm (f32 t a) (f32 t b)
  | .ffma rm d a b gd => toV gd d [a, b, d] fun t => ffmaF .f32 rm (f32 t a) (f32 t b) (f32 t d)
  | .fminmax op d a b gd => toV gd d [a, b] fun t => fminmaxF .f32 op (t.v a.toNat).toNat (t.v b.toNat).toNat
  | .fsign .abs d a _ gd => toV gd d [a] fun t => fsignF .abs (t.v a.toNat).toNat 0
  | .fsign .neg d a _ gd => toV gd d [a] fun t => fsignF .neg (t.v a.toNat).toNat 0
  | .fsign .copysign d a b gd => toV gd d [a, b] fun t => fsignF .copysign (t.v a.toNat).toNat (t.v b.toNat).toNat
  | .padd2 f d a b gd => toV gd d [a, b] fun t =>
    pair (faddF f.cvt .rne (half f t a 0) (half f t b 0)) (faddF f.cvt .rne (half f t a 1) (half f t b 1))
  | .pmul2 f d a b gd => toV gd d [a, b] fun t =>
    pair (fmulF f.cvt .rne (half f t a 0) (half f t b 0)) (fmulF f.cvt .rne (half f t a 1) (half f t b 1))
  | .pfma2 f d a b gd => toV gd d [a, b, d] fun t =>
    pair (ffmaF f.cvt .rne (half f t a 0) (half f t b 0) (half f t d 0))
      (ffmaF f.cvt .rne (half f t a 1) (half f t b 1) (half f t d 1))
  | .pminmax2 f op d a b gd => toV gd d [a, b] fun t =>
    pair (fminmaxF f.cvt op ((t.v a.toNat).toNat % 2 ^ 16) ((t.v b.toNat).toNat % 2 ^ 16))
      (fminmaxF f.cvt op ((t.v a.toNat).toNat / 2 ^ 16) ((t.v b.toNat).toNat / 2 ^ 16))
  | .hadd f d a b gd => toV gd d [a, b] fun t => faddF f.cvt .rne (half f t a 0) (half f t b 0)
  | .hmul f d a b gd => toV gd d [a, b] fun t => fmulF f.cvt .rne (half f t a 0) (half f t b 0)
  | .hfma f d a b gd => toV gd d [a, b, d] fun t => ffmaF f.cvt .rne (half f t a 0) (half f t b 0) (half f t d 0)
  | .cvt x y rm d a gd => toV gd d [a] fun t => toFmt y rm (valOf x (low x t a))
  | .frnd rm d a gd => toV gd d [a] fun t => frndF rm (t.v a.toNat).toNat
  | .fspec fn gr f d a gd => toV gd d [a] fun t => fspecF fn gr f (low f.cvt t a)
  | .unpk .bf16 j d a gd => toV gd d [a] fun t =>
    let r := toFmt .f32 .rne (valOf .bf16 ((t.v a.toNat).toNat / 2 ^ (16 * j.toNat) % 2 ^ 16))
    (r.1, ⟨r.2.invalid, false, false, false, false⟩)
  | .unpk .e4m3 j d a gd => toV gd d [a] fun t =>
    let r := toFmt .f32 .rne (valOf .e4m3 ((t.v a.toNat).toNat / 2 ^ (8 * j.toNat) % 2 ^ 8))
    (r.1, ⟨r.2.invalid, false, false, false, false⟩)
  | .unpk .e5m2 j d a gd => toV gd d [a] fun t =>
    let r := toFmt .f32 .rne (valOf .e5m2 ((t.v a.toNat).toNat / 2 ^ (8 * j.toNat) % 2 ^ 8))
    (r.1, ⟨r.2.invalid, false, false, false, false⟩)
  | .unpk .l6 j d a gd =>
    let q (t : Thread) : Nat :=
      (t.v a.toNat).toNat + (t.v (a.toNat + 1)).toNat * 2 ^ 32 + (t.v (a.toNat + 2)).toNat * 2 ^ 64
    some { guard := gd, reads := [a.toNat, a.toNat + 1, a.toNat + 2], writes := [d.toNat], conds := fun _ => Conds.none
           result := fun t old =>
             old.setV d.toNat (BitVec.ofNat 32 (toFmt .f32 .rne (valOf .l6 (q t / 2 ^ (6 * j.toNat) % 2 ^ 6))).1) }
  | .pack .bf16 d a b gd => toV gd d [a, b] fun t => pair (toFmt .bf16 .rne (f32 t a)) (toFmt .bf16 .rne (f32 t b))
  | .pack .e4m3 d a b gd => toV gd d [a, b, d] fun t =>
    let x := toFmt .e4m3 .rne (f32 t a)
    let y := toFmt .e4m3 .rne (f32 t b)
    (y.1 * 2 ^ 24 + x.1 * 2 ^ 16 + (t.v d.toNat).toNat / 2 ^ 16, x.2.or y.2)
  | .pack .e5m2 d a b gd => toV gd d [a, b, d] fun t =>
    let x := toFmt .e5m2 .rne (f32 t a)
    let y := toFmt .e5m2 .rne (f32 t b)
    (y.1 * 2 ^ 24 + x.1 * 2 ^ 16 + (t.v d.toNat).toNat / 2 ^ 16, x.2.or y.2)
  | .pack .l6 d a b gd =>
    let x (t : Thread) : Nat × Conds := toFmt .l6 .rne (f32 t a)
    let y (t : Thread) : Nat × Conds := toFmt .l6 .rne (f32 t b)
    let q (t : Thread) : Nat :=
      (y t).1 * 2 ^ 90 + (x t).1 * 2 ^ 84 +
        ((t.v d.toNat).toNat + (t.v (d.toNat + 1)).toNat * 2 ^ 32 + (t.v (d.toNat + 2)).toNat * 2 ^ 64) / 2 ^ 12
    some { guard := gd, reads := [a.toNat, b.toNat, d.toNat, d.toNat + 1, d.toNat + 2]
           writes := [d.toNat, d.toNat + 1, d.toNat + 2], conds := fun t => (x t).2.or (y t).2
           result := fun t old =>
             ((old.setV d.toNat (BitVec.ofNat 32 (q t))).setV (d.toNat + 1) (BitVec.ofNat 32 (q t / 2 ^ 32))).setV
               (d.toNat + 2) (BitVec.ofNat 32 (q t / 2 ^ 64)) }
  | .fcmp f c p a b gd =>
    let r (t : Thread) : Bool × Conds := fcmpF c (valOf f.cvt (low f.cvt t a)) (valOf f.cvt (low f.cvt t b))
    some { guard := gd, reads := [a.toNat, b.toNat], writes := [], conds := fun t => (r t).2
           result := fun t old => old.setP p (r t).1 }
  | _ => none

/-- The guard of a T-format word that may have one, SEL's selector and the control words apart (R47, R48, R104). -/
def guardOf : Instr → Option Guard
  | .iadd _ _ _ _ g | .isub _ _ _ _ g | .imul _ _ _ _ g | .imad _ _ _ _ g | .iminmax _ _ _ _ g | .iabs _ _ _ g
  | .logic _ _ _ _ g | .bitop _ _ _ g | .shift _ _ _ _ g | .bfe _ _ _ _ g | .bfi _ _ _ g | .icmp _ _ _ _ _ g
  | .add64 _ _ _ _ g | .lea _ _ _ _ g | .fadd _ _ _ _ g | .fsub _ _ _ _ g | .fmul _ _ _ _ g | .ffma _ _ _ _ g
  | .fminmax _ _ _ _ g | .fcmp _ _ _ _ _ g | .fsign _ _ _ _ g | .padd2 _ _ _ _ g | .pmul2 _ _ _ _ g
  | .pfma2 _ _ _ _ g | .pminmax2 _ _ _ _ _ g | .hadd _ _ _ _ g | .hmul _ _ _ _ g | .hfma _ _ _ _ g
  | .cvt _ _ _ _ _ g | .pack _ _ _ _ g | .unpk _ _ _ _ g | .frnd _ _ _ g | .fspec _ _ _ _ _ g | .rand _ _ g
  | .plop _ _ _ _ g | .pmovV _ _ g | .pmovP _ _ g | .shfl _ _ _ _ g | .vote _ _ _ g | .ballot _ _ g | .redt _ _ _ g
  | .scan _ _ _ g | .bcast _ _ _ _ g | .fragq _ _ g => some g
  | _ => none

/-! ### Uniform words -/

/-- The uniform guard holds (R50). -/
def uniformOn (g : Group) (ug : UGuard) : Bool :=
  match ug with
  | none => true
  | some (neg, q) => g.qr q != neg

/-- A uniform word completes: with its guard holding, its group becomes what `R` says of it; without, it has no effect; then
the fragment moves on by `len` words (R50, R170). -/
def UniformWord (i : Instr) (ug : UGuard) (len : Nat) (regs : List Nat) (R : Group → Group → Prop) : Prop :=
  ∀ s is g f, Issues s is g f → (uniformOn g ug → g.ksBusy regs = false) →
    ∃ t g', exec i s = .next (advance t is len) ∧ t.group? is.gid = some g' ∧
      (if uniformOn g ug then R g g' else g' = g) ∧ OnlyGroup s t is.gid

/-- Only k d changes, to a value of which `P` holds. -/
def WritesK (d : KReg) (P : Group → DWord → Prop) (g g' : Group) : Prop := ∃ x, g' = g.setK d.toNat x ∧ P g x

/-- Only q d changes. -/
def WritesQ (d : Nat) (P : Group → Bool → Prop) (g g' : Group) : Prop := ∃ b, g' = g.setQ d b ∧ P g b

/-! ### Barriers -/

/-- Barrier b of the team `tid` becomes `new`; the groups of the team learn of it, which may end their waits and an IDLE (R149, R150,
R421), and a phase that completes is seen by the slots of the team's rings (R332); beyond that and the moves to come t is s, in
every field and every byte. -/
structure BarrierBecomes (s t : State) (tid : Nat) (tm : Team) (b : BReg) (new : Barrier) : Prop where
  team : t.team? tid = some { tm with bars := tm.bars.setIfInBounds b.toNat new }
  teams : ∀ n, n ≠ tid → t.team? n = s.team? n
  groups : ∀ n, t.group? n = (s.group? n).map fun g => if g.tid = tid then g.barNotify b (tm.bar b.toNat) new else g
  pkgs : ∀ r, (t.pkg? r).map (fun p => { p with rings := [] }) = (s.pkg? r).map fun p => { p with rings := [] }
  rings : new.phase = (tm.bar b.toNat).phase → t.pkgs = s.pkgs
  rest : { t with teams := s.teams, groups := s.groups, pkgs := s.pkgs, agenda := s.agenda } = s
  quiet : new.phase = (tm.bar b.toNat).phase → new.broken = (tm.bar b.toNat).broken → t.agenda = s.agenda
  bytes : SameBytes s t

/-- Beyond the team `tid` and the moves to come, t is s, in every field, and in every byte but the team's own. -/
structure OnlyTeam (s t : State) (tid : Nat) : Prop where
  teams : ∀ n, n ≠ tid → t.team? n = s.team? n
  rest : { t with teams := s.teams, agenda := s.agenda } = s
  bytes : ∀ p, (∀ a, p ≠ .shared tid a ∧ p ≠ .tile tid a) → byteAt t p = byteAt s p

/-! ### Cores -/

/-- Beyond the core `c`, the group `gid`, the moves to come and the count of identities, t is s, in every field and every byte. -/
structure OnlyCore (s t : State) (c : CoreId) (gid : Nat) : Prop where
  cores : ∀ d, d ≠ c → t.core d = s.core d
  groups : ∀ n, n ≠ gid → t.group? n = s.group? n
  rest : { t with cores := s.cores, groups := s.groups, agenda := s.agenda, fresh := s.fresh } = s
  bytes : SameBytes s t

/-- The descriptor is one that a matrix word takes: a region of the team's shared memory whose columns are a multiple of 16, at most
256 (R179, R187, R192). -/
def MatrixTile (d : Tile) (tm : Team) : Prop :=
  d.fmt ≤ 10 ∧ d.rsvd = 0 ∧ d.space = 0 ∧ d.cols % 16 = 0 ∧ d.cols ≤ 256 ∧ d.planes = 1 ∧ d.base % 16 = 0 ∧
    d.pitch % 16 = 0 ∧ d.base + (d.rows - 1) * d.pitch + d.rowBytes ≤ 4096 * tm.holding

/-- The matrix FIFO of the core takes one entry more: it has fewer than 32, path 7 of the group counts fewer than 255 words, and
with footprint ordering its unit has a place (R182, R214, R312). -/
def FifoRoom (s : State) (g : Group) (foe : Bool) : Prop :=
  (s.core g.core).fifo.length < 32 ∧ g.path 7 < 255 ∧ (foe = true → (unitEntries s g.core).length < 64)

/-- The word posts a matrix entry: it joins the core's FIFO with everything captured, path 7 of its group counts one more word, and
the fragment goes on (R182, R183, R214). -/
def Posts (i : Instr) (s : State) (is : Issuer) (g : Group) (f : Frag) (work : MWork) (bar : Option BReg) (foe : Bool)
    (spans : List Span) : Prop :=
  ∃ t, exec i s = .next (advance t is 1) ∧
    (t.core g.core).fifo = (s.core g.core).fifo ++
      [{ id := s.fresh, gid := is.gid, tid := g.tid, seq := g.nextSeq, work := work, bar := bar, foe := foe
         level := g.level.toNat, spans := spans, preds := if foe then unitPreds s g.core spans else [], phase := .posted }] ∧
    { t.core g.core with fifo := [], latches := [] } = { s.core g.core with fifo := [], latches := [] } ∧
    t.group? is.gid = some { g with
      flights := g.flights ++ [{ Flight.plain 7 .matrix f.mask f.mask s.fresh with seq := g.nextSeq }]
      nextSeq := g.nextSeq + 1 } ∧
    t.agenda = s.agenda ++ [.event (.matrixEntryStart g.core)] ∧ t.fresh = s.fresh + 1 ∧ OnlyCore s t g.core is.gid

/-! ### Memory words -/

/-- The slot makes an access of an M-format word: it is in the execution mask, and under UNI it is the lowest active slot (R44,
R51). -/
def accessing (g : Group) (f : Frag) (a : Acc) (slot : Nat) : Bool :=
  decide (slot < 16) && runsIn g f ⟨false, a.m.gp⟩ slot && source f slot == slot

/-- The address of a slot's access (R51, R233). -/
def accAt (g : Group) (a : Acc) (slot : Nat) : DWord := MAddr.addr a.m g a.w slot

/-- The offset lies outside its level: the spill window of the group (R200), the team's holding (R203), the segment that the
group's die has for its grid (R207). -/
def outside (s : State) (g : Group) (a : Acc) (x : DWord) : Prop :=
  match a.path with
  | 0 => x.toInt < -(2 ^ 21) ∨ ((((s.ctx? g.rank g.ctx).map (·.spstride)).getD 0 : Nat) : Int) - 2 ^ 21 ≤ x.toInt
  | 1 => 4096 * ((s.team? g.tid).map (·.holding)).getD 0 < x.toNat + a.w
  | 2 => ((segOf s g.rank g.core.die g.grid).map (·.size)).getD 0 < x.toNat + a.w
  | _ => False

/-- The words of a group in flight are numbered below the next (R215). -/
def numbered (g : Group) : Prop := ∀ x ∈ g.flights, x.seq < g.nextSeq

/-- Nothing holds the word back: its registers are neither pending nor poisoned, no fence of the group and no path 6 word of the
same slots stands before it, and, for a path 6 word, no PUT or GET of the same slots either (R58, R252, R267, R416). -/
structure MemReady (g : Group) (f : Frag) (a : Acc) : Prop where
  regs : Ready g f ⟨false, a.m.gp⟩ ((if a.m.xi then [a.m.off.toNat] else []) ++ (List.range a.nsrc).map (a.d.toNat + ·))
    ((List.range a.ndst).map (a.d.toNat + ·))
  base : g.kbusy.getLsbD a.m.kbase.toNat = false
  fence : g.fenced = false
  acquire : ∀ x ∈ g.flights, x.done = false → x.path = 6 → x.fmask &&& f.mask = 0
  release : a.path = 6 → ∀ x ∈ g.flights, x.done = false → x.path = 5 → x.fmask &&& f.mask = 0
  numbers : numbered g

/-- Every access lies in its level and is aligned to its width (R200, R203, R207, R233). -/
def InPlace (s : State) (g : Group) (f : Frag) (a : Acc) : Prop :=
  ∀ slot, accessing g f a slot = true → ¬outside s g a (accAt g a slot) ∧ (accAt g a slot).toNat % a.w = 0

/-- What the state keeps of a word in flight (R23, R214, R235, R406). -/
structure FlightOf (g : Group) (f : Frag) (a : Acc) (fl : Flight) : Prop where
  seq : fl.seq = g.nextSeq
  path : fl.path = a.path
  kind : fl.kind = a.op.kind
  word : fl.word = a.word ∧ fl.lit = a.lit
  mask : ∀ slot, slot < 16 → fl.mask.getLsbD slot = runsIn g f ⟨false, a.m.gp⟩ slot
  fmask : fl.fmask = f.mask ∧ fl.uni = f.uni
  addrs : ∀ slot, accessing g f a slot = true → fl.addrs.getD slot 0 = accAt g a slot
  depths : ∀ slot, slot < 16 → fl.depths.getD slot 0 = (g.thread slot).wbase + a.d.toNat
  dstn : fl.dstn = a.ndst
  data : ∀ slot, slot < 16 → fl.data.getD slot [] = (List.range a.nsrc).map fun j => (g.thread slot).v (a.d.toNat + j)
  waits : fl.done = false ∧ fl.op = 0

/-- The word goes into flight: its path counts one word more (R214). -/
def Flies (t : State) (is : Issuer) (g : Group) (f : Frag) (a : Acc) (fl : Flight) : Prop :=
  FlightOf g f a fl ∧ t.group? is.gid = some { g with flights := g.flights ++ [fl], nextSeq := g.nextSeq + 1 }

/-- The bytes of a memory after the stores of a word: for each slot the words of its data, unless a later slot stored to the same
address, and every other byte as before (R238). -/
def Stored (g : Group) (f : Frag) (a : Acc) (old new : Mem) : Prop :=
  (∀ slot, accessing g f a slot = true →
    (∀ r, slot < r → accessing g f a r = true → accAt g a r ≠ accAt g a slot) →
    ∀ j, j < a.w / 4 → new.word ((accAt g a slot).toNat + 4 * j) = (g.thread slot).v (a.d.toNat + j)) ∧
  (∀ x, (∀ slot, accessing g f a slot = true → x < (accAt g a slot).toNat ∨ (accAt g a slot).toNat + a.w ≤ x) →
    new.read x = old.read x)

/-- The lines of a core's write-combining buffer that satisfy `p` drain: they leave the buffer, and each becomes a transfer of its
bytes; no byte changes (R218, R219). -/
structure Drains (s u : State) (c : CoreId) (p : WLine → Bool) : Prop where
  left : ∀ l ∈ (u.core c).wcb, p l = false ∧ l ∈ (s.core c).wcb
  stay : ∀ l ∈ (s.core c).wcb, p l = false → (∀ m ∈ (s.core c).wcb, p m = true → m.id ≠ l.id) → l ∈ (u.core c).wcb
  sent : ∀ l ∈ (s.core c).wcb, p l = true → ∃ x ∈ u.fab.xfers, x.id = l.id ∧ x.src = c.rank ∧ x.dest = l.dest ∧
    x.ctx = l.ctx ∧ x.va = l.va ∧ x.bytes = l.bytes ∧ x.last = l.last ∧ x.applied = false
  core : { u.core c with wcb := [] } = { s.core c with wcb := [] }
  cores : ∀ d, d ≠ c → u.core d = s.core d
  rest : { u with cores := s.cores, fab := s.fab, agenda := s.agenda, fresh := s.fresh } = s
  bytes : SameBytes s u

/-! ### Asynchronous words and their records -/

/-- An asynchronous word: its form, t[TD], t[TA] and k[n], its barrier and FOE (R365). -/
def engineOf : Instr → Option (OpForm × XReg × XReg × XReg × Option BReg × Bool)
  | .cpy f td ta n c => some (.cpy f, td, ta, n, c.bar, c.foe)
  | .coll f td ta n c => some (.coll f, td, ta, n, c.bar, c.foe)
  | .rotOpen td n b => some (.rotOpen, td, 0, n, some b, false)
  | .rotRun ta n foe => some (.rotRun, 0, ta, n, none, foe)
  | .rotClose n => some (.rotClose, 0, 0, n, none, false)
  | .xchg td ta n c => some (.xchg, td, ta, n, c.bar, c.foe)
  | .rsto ta n c => some (.rsto, 0, ta, n, c.bar, c.foe)
  | .upd o m p td ta n c => some (.upd o m p, td, ta, n, c.bar, c.foe)
  | .pairst td ta n c => some (.pairst, td, ta, n, c.bar, c.foe)
  | .place p ta n c => some (.place p, 0, ta, n, c.bar, c.foe)
  | .step n b => some (.step, 0, 0, n, b, false)
  | .snap n b => some (.snap, 0, 0, n, b, false)
  | _ => none

/-- The check of an asynchronous word at issue. -/
def checkOf (i : Instr) : Option (State → Group → Nat → QWord → QWord → QWord → DWord → State × Chk) :=
  match i with
  | .step _ _ => some stepCheck
  | _ => (opWord i).map (·.check)

/-- The record of an operation reaches its group: k[n] holds it and is free, its path's word returns, the summary of its kind
names its status, and the operation is gone; nothing else changes (R59, R214, R368, R389). -/
def Recorded (s t : State) (o : Op) (g : Group) (v : DWord) : Prop :=
  ∃ g', t.group? o.gid = some g' ∧ g'.kr o.kn.toNat = v ∧ (∀ n, n ≠ o.kn.toNat → g'.kr n = g.kr n) ∧
    (∀ n, g'.kbusy.getLsbD n = (g.kbusy.getLsbD n && n != o.kn.toNat)) ∧ g'.flights = (g.ret o.flight).flights ∧
    g'.eng = g.eng.setIfInBounds o.kind ((g.summary o.kind).written o.flight (if o.form = .step then 0 else v.toNat % 16)) ∧ g'.threads = g.threads ∧ g'.q = g.q ∧ g'.t = g.t ∧
    g'.trap = g.trap ∧ g'.seen = g.seen ∧ (∀ n, n ≠ o.gid → t.group? n = s.group? n) ∧
    t.ops = s.ops.filter (fun x => x.id != o.id) ∧ { t with groups := s.groups, ops := s.ops, agenda := s.agenda } = s ∧ SameBytes s t

/-! ### Packages and operations -/

/-- The package `rank` becomes `q`; nothing else changes but the moves to come. -/
def PkgBecomes (s t : State) (rank : Nat) (q : Pkg) : Prop :=
  t.pkg? rank = some q ∧ (∀ r, r ≠ rank → t.pkg? r = s.pkg? r) ∧ { t with pkgs := s.pkgs, agenda := s.agenda } = s

/-- Die `d` of the package p becomes `x`. -/
def withDie (p : Pkg) (d : Nat) (x : DieRegs) : Pkg := { p with dies := p.dies.setIfInBounds d x }

/-- The operation becomes `q`; nothing else changes but the moves to come. -/
def OpBecomes (s t : State) (id : Nat) (q : Op) : Prop :=
  t.op? id = some q ∧ (∀ n, n ≠ id → t.op? n = s.op? n) ∧ { t with ops := s.ops, agenda := s.agenda } = s ∧ SameBytes s t

/-- The state in which the record of an operation is written: its barrier has the event of a failure, for a copy or a collective
(R246), or of the completion (R367). -/
def eventDone (s : State) (o : Op) : State :=
  match o.bar with
  | none => s
  | some b =>
    match o.form with
    | .cpy _ | .coll _ => if o.status = 0 then s else barEvent s o.tid b (.deliver (2 ^ 40))
    | .rotOpen | .rotRun | .rotClose => s
    | .xchg | .rsto | .upd _ _ _ | .pairst | .place _ | .step | .snap => barEvent s o.tid b .arrive

/-- The operation of the step in hand is ending, its group is present, and its engine does not keep what it makes (R413). -/
structure Ends (s : State) (o : Op) (g : Group) : Prop where
  op : s.op? s.subj = some o
  st : o.st = .ending
  group : (eventDone s o).group? o.gid = some g
  team : ∀ tm, s.team? o.tid = some tm → engineHolds s tm o.id = false

/-! ### Links and the fabric -/

/-- The link `l` becomes `k`; beyond the links' own package nothing changes but the moves to come, and there only that link. -/
structure LinkBecomes (s t : State) (l : LinkId) (k : Link) : Prop where
  link : t.link l = k
  links : ∀ m, m ≠ l → t.link m = s.link m
  pkgs : ∀ r p, s.pkg? r = some p → ∃ p', t.pkg? r = some p' ∧ { p' with links := p.links } = p
  rest : { t with pkgs := s.pkgs, agenda := s.agenda } = s
  bytes : SameBytes s t

/-- The two directions of a link become `k` and `b`; beyond the links' own package nothing changes but the moves to come, and there only
those two and when its last flit was heard (R459). -/
structure LinkPairBecomes (s t : State) (l : LinkId) (k b : Link) : Prop where
  link : t.link l = k
  back : t.link (otherWay l) = b
  links : ∀ m, m ≠ l → m ≠ otherWay l → t.link m = s.link m
  pkgs : ∀ r p, s.pkg? r = some p → ∃ p', t.pkg? r = some p' ∧ { p' with links := p.links, heard := p.heard } = p
  rest : { t with pkgs := s.pkgs, agenda := s.agenda } = s
  bytes : SameBytes s t

/-- The class and the number of the buffer slots that a flit with this payload returns, by its partner's receiver `b` (R436). -/
def returned (s : State) (b : Link) (p : Payload) : Bool × Nat :=
  let melt : Bool := match p with
    | .data id => (s.packet? id).any (·.melt)
    | .idle | .marker _ | .control _ _ => b.freed == 0 && b.freedMelt != 0
  (melt, min 255 (if melt then b.freedMelt else b.freed))

/-- The node `n` becomes `x`; beyond the fabric's own state, in which `F` says what else changes, nothing changes but the moves to
come. -/
structure NodeBecomes (s t : State) (n : NodeId) (x : Node) (F : Fabric → Fabric) : Prop where
  node : t.node n = x
  nodes : ∀ m, m ≠ n → t.node m = s.node m
  fab : { t.fab with nodes := [] } = { F s.fab with nodes := [] }
  rest : { t with fab := s.fab, agenda := s.agenda } = s

/-! ### Home slices -/

/-- The word of the request's issuer is in flight, and takes a reply for its slot (R214, R283). -/
def Asked (s : State) (r : Req) : Prop :=
  ∃ g f, s.group? r.gid = some g ∧ f ∈ g.flights ∧ f.seq = r.seq ∧ r.slot < f.got.length

/-- The slot of the request has this reply: at the package of its home its word holds it, and to a peer's group it goes as a packet
(R214, R285, R424, R428). -/
def Answered (t : State) (r : Req) (rep : Reply) : Prop :=
  ∃ g, t.group? r.gid = some g ∧
    if g.rank = r.home then ∃ f ∈ g.flights, f.seq = r.seq ∧ f.got[r.slot]? = some rep
    else ∃ pk ∈ t.fab.packets, pk.src = r.home ∧ pk.dest = g.rank ∧ pk.body = .msg none [] (.reply r.gid r.seq r.slot rep)

/-- The request, for which `p` holds, is the next that the slice takes: it is not held, every request before it is, and none of these
is of its line, unless it is a call (R283, R302, R305). -/
def NextOf (s : State) (sl : SliceId) (p : Req → Bool) (r : Req) : Prop :=
  ∃ pre post, (s.slice sl).queue = pre ++ r :: post ∧ p r = true ∧ reqHeld s (s.slice sl) r = false ∧
    (∀ b ∈ pre, reqHeld s (s.slice sl) b = true) ∧ (r.isCall = true ∨ ∀ b ∈ pre, b.sameLine r = false)

/-- The request has left the input queue of the slice. -/
def Left (s t : State) (sl : SliceId) (r : Req) : Prop :=
  (t.slice sl).queue = (s.slice sl).queue.filter fun x => x.id != r.id

end Sys2Proof.Safety
end

