-- ==== Sys2Proof/Certificates/Slice0/Obligations.lean ====
section
/-! DEFINITION. The statements for the provers: what the encoding, reset, the instruction words and the steps of the hardware
do, as the numbered rules of spec/ say. The vocabulary is Sys2Proof/Safety.lean's. -/

section

open Sys2Proof Sys2Proof.Machine Sys2Proof.Safety

/-! ### Encoding and the step -/

/-- Every well-formed instruction word survives encoding: decoding what `encode` writes gives the instruction, with every
operand at every value that its field admits (R47 to R56, R62 to R67). -/
def Obligations.RoundTrip : Prop := ∀ i : Instr, Laws.RoundTrip.Statement i

/-- Decoding loses nothing: a word that decodes is exactly the first word of the encoding of its instruction, the literal of
an L form is the second, and the instruction is well formed. No two words, and no two literals of an L form, decode to one
instruction (R46, R66). -/
def Sys2Proof.Claims.DecodeExact : Prop :=
  ∀ (w l : Nat) (i : Instr), w < 2 ^ 32 → l < 2 ^ 32 → decode w l = some i →
    i.wf = true ∧ encode i = if longOp (w / 2 ^ 24) then [w, l] else [w]

/-- No word with an opcode that R62 leaves unassigned decodes, whatever its other fields and its literal. -/
def Sys2Proof.Claims.UnassignedRefused : Prop :=
  ∀ w l : Nat, w < 2 ^ 32 →
    (w / 2 ^ 24 = 0x00 ∨ (0x1E ≤ w / 2 ^ 24 ∧ w / 2 ^ 24 ≤ 0x1F) ∨ w / 2 ^ 24 = 0x27 ∨ w / 2 ^ 24 = 0x2F ∨
      (0x3A ≤ w / 2 ^ 24 ∧ w / 2 ^ 24 ≤ 0x3F) ∨ w / 2 ^ 24 = 0x41 ∨ (0x46 ≤ w / 2 ^ 24 ∧ w / 2 ^ 24 ≤ 0x4F) ∨
      (0x55 ≤ w / 2 ^ 24 ∧ w / 2 ^ 24 ≤ 0x57) ∨ w / 2 ^ 24 = 0x5F ∨ (0x6B ≤ w / 2 ^ 24 ∧ w / 2 ^ 24 ≤ 0x6F) ∨
      (0x7B ≤ w / 2 ^ 24 ∧ w / 2 ^ 24 ≤ 0x7F) ∨ (0x99 ≤ w / 2 ^ 24 ∧ w / 2 ^ 24 ≤ 0x9F) ∨
      (0xBD ≤ w / 2 ^ 24 ∧ w / 2 ^ 24 ≤ 0xBF) ∨ 0xC9 ≤ w / 2 ^ 24) →
    decode w l = none

/-- Words that the spec writes out decode to the instructions that it names: R56's and R126's rep and iadd, R67's icmpi and br
with its displacement, R67's fadd.rz, R118's join, R121's ret, R123's enter, R175's barw. -/
def Obligations.WordsDecode : Prop :=
  decode 0x39088000 0 = some (.rep 2 false false true) ∧
  decode 0x0100005C 0 = some (.iadd .wrap 0 0 1 ⟨false, 7⟩) ∧
  decode 0x18443064 0 = some (.icmpiI32 .lt 1 3 100) ∧
  decode 0x40000104 0xFFFFFFC0 = some (.br 4 ⟨false, 1⟩ .thread (-64)) ∧
  decode 0x20103149 0 = some (.fadd .rz 4 3 5 ⟨false, 2⟩) ∧
  decode 0x060C201D 0 = some (.iabs .neg 3 2 ⟨false, 7⟩) ∧
  decode 0x3800001C 0 = some .join ∧
  decode 0x4400001C 0 = some .ret ∧
  decode 0x1D000030 0 = some (.enter 48) ∧
  decode 0x6328C001 0 = some (.barw (some 5) 3 none)

/-- A step whose agenda gives a lane its issue opportunity, with no event or settlement of its groups due first, runs the word
at the program counter of the fragment that the lane picks: when the words there decode to i, the step is `exec i` of the state
in which that fragment is the issuer and the opportunity has passed, and a word that has to wait has not started, as
`afterIssue` says. A fragment that stands before its clause header runs CLAUSE_START, which takes no opportunity, and one in a
repeat runs REP_REPEAT; a word that does not decode has no meaning as an instruction. -/
def Sys2Proof.Claims.StepRunsWords : Prop :=
  ∀ (s t : State) (c : CoreId) (l : Nat) (r : List Move) (o : Offer) (g : Group) (f : Frag),
    s.tick.agenda = .lane c l :: r →
    (let v := clearWaits { s.tick with agenda := r, cur := some (.lane c l) } (.lane c l)
     let u := v.owe [.lane c l]
     let gs := laneGroups u c l
     laneLive v c l = true ∧
     (gs.find? fun g => g.trapDue && (!g.resident.isEmpty || g.spilled.isEmpty)) = none ∧
     (gs.find? fun g => g.settleDue) = none ∧
     pickOffer (offersOf u gs) = some o ∧ t = { u with who := some ⟨o.gid, o.entry⟩ }) →
    t.group? o.gid = some g → g.frag o.entry = some f →
    let is : Issuer := ⟨o.gid, o.entry⟩
    let runs (i : Instr) (u : State) : Prop := ∀ w, exec i u = .next w → step s = .next (afterIssue s.tick u w)
    (g.reps.active = true → runs .repRepeat (passOpportunity t is)) ∧
    (g.reps.active = false → f.hdr = none → f.word = 0 → runs .clauseStart t) ∧
    (∀ (h w x : Word) (u : State) (i : Instr), g.reps.active = false → f.hdr = some h →
      fetchInstr t g f.clause f.word none = (u, .ok (w, x)) → decode w.toNat x.toNat = some i → runs i (passOpportunity u is)) ∧
    (∀ (h w x : Word) (u : State), g.reps.active = false → f.hdr = some h →
      fetchInstr t g f.clause f.word none = (u, .ok (w, x)) → decode w.toNat x.toNat = none →
      step s = .next (undecoded u is g w) ∧ (g.wave = none → undecoded u is g w = takeTrap u is 2 ⟨causeEncoding, 0, 0⟩)) ∧
    (∀ (u : State) (va : Nat) (x : XFault), g.reps.active = false → g.wave = none → f.hdr ≠ none →
      fetchInstr t g f.clause f.word none = (u, .fault va x) →
      step s = .next (takeTrap u is 5 ⟨x.cause, BitVec.ofNat 64 (x.level * 2 ^ 26), BitVec.ofNat 64 va⟩))

/-- What an issue opportunity comes to, once the word of its issuer has run: when the issuing group has gone on, and its fragment
does not wait for the scoreboard, the opportunity has passed; when not, no word has started and AGE of every fragment is as
before, and a group whose word waits for a resource is offered again only after another word has started (R41, R129). -/
def Sys2Proof.Claims.OpportunityPasses : Prop :=
  ∀ (old s t : State) (is : Issuer) (g h : Group), s.who = some is → s.group? is.gid = some g → t.group? is.gid = some h →
    (g.moved h = true → h.onScore is.entry = false → afterIssue old s t = t) ∧
    (g.moved h = false ∨ h.onScore is.entry = true →
      ∀ n x y e, old.group? n = some x → t.group? n = some y → ∃ z, (afterIssue old s t).group? n = some z ∧
        z.lastPick = x.lastPick ∧ z.sinceExch = x.sinceExch ∧ z.k = y.k ∧ z.threads = y.threads ∧ z.trap = y.trap ∧
        (z.frag e).map (·.mask) = (y.frag e).map (·.mask) ∧
        (∀ p q, x.frag e = some p → z.frag e = some q → q.age = p.age) ∧ (n = is.gid → g.moved h = false → z.stalled = true))

/-- A step whose agenda gives a step of the hardware or the host runs it, in the state without that move; with an empty agenda
a step only lets time pass. -/
def Sys2Proof.Claims.StepRunsEvents : Prop :=
  ∀ (s : State) (r : List Move),
    (∀ i, s.tick.agenda = .event i :: r → step s = exec i (clearWaits { s.tick with agenda := r, cur := some (.event i) } (.event i))) ∧
    (∀ i x, s.tick.agenda = .subject i x :: r →
      step s = exec i { clearWaits { s.tick with agenda := r, cur := some (.subject i x) } (.subject i x) with subj := x }) ∧
    (s.tick.agenda = [] → step s = .next s.tick)

/-! ### Reset -/

/-- What reset leaves, as the spec gives it: no link is trained, no package holds a grid, a team, a group or a context, memory
lists nothing, the start sequence stands at step 1 with rank 0 and set position 15, the tier has 858,993,456 free data slots,
and link thresholds are 0xFF_0000_0000. -/
def Obligations.ResetValues : Prop :=
  State.reset.groups = [] ∧ State.reset.teams = [] ∧ State.reset.grids = [] ∧ State.reset.ctxs = [] ∧
  State.reset.ops = [] ∧ State.reset.segs = [] ∧ memoriesOk State.reset = true ∧
  (∀ p ∈ State.reset.pkgs, p.start.step = 1 ∧ p.start.fail = false ∧ p.start.warm = false ∧ p.start.rank = 0 ∧
    p.start.pos = 15 ∧ p.start.set = 0 ∧ p.start.phase = 0 ∧ p.tier.free = 858993456 ∧ p.tier.pstep = 0 ∧
    p.cache = [] ∧ p.slices = [] ∧ p.place = [] ∧ p.rings = [] ∧ p.qslots = [] ∧
    ∀ d : Fin 4, (p.die d).tlb = [] ∧ (p.die d).tlbJob = none ∧ (p.die d).faults = [] ∧ (p.die d).updLog = []) ∧
  Link.reset.tx.thr = 0xFF00000000 ∧ Link.reset.rx.thr = 0xFF00000000 ∧ Link.reset.fseq = 0 ∧ Link.reset.expect = 0 ∧
  (∀ k : Fin 2, (Link.reset.tx.slots[k.val]?).map (·.st) = some 0)

/-! ### Registers -/

/-- The register file of a thread slot: v n is the backing position (WBASE + n) mod 128, so in one window every other register
keeps its value and its poison mark when one is written, and the register written reads as written and unmarked; the
predicate p7 reads 1 and a write to it changes nothing (R13, R16, R416). -/
def Sys2Proof.Claims.ThreadRegisters : Prop :=
  ∀ (t : Thread) (n m : Nat) (x : Word) (p q : PReg) (b : Bool), n < 64 → m < 64 →
    t.v n = (t.backing[(t.wbase + n) % 128]?).getD 0 ∧
    (t.setV n x).v n = x ∧ (t.setV n x).poisoned n = false ∧
    (m ≠ n → (t.setV n x).v m = t.v m ∧ (t.setV n x).poisoned m = t.poisoned m) ∧
    (∀ r, (t.setV n x).pr r = t.pr r) ∧
    t.pr 7 = true ∧ t.setP 7 b = t ∧
    (p ≠ 7 → (t.setP p b).pr p = b) ∧ (q ≠ p → (t.setP p b).pr q = t.pr q) ∧ (∀ r, (t.setP p b).v r = t.v r)

/-- The registers of a group: a k or q register written reads as written, and the others keep their values (R11). A k register
that was held for a result is free once it is written, and fragments that waited for the scoreboard try again (R58, R59). -/
def Sys2Proof.Claims.GroupRegisters : Prop :=
  ∀ (g : Group) (d e : KReg) (p q : QReg) (x : DWord) (b : Bool),
    (g.setK d.toNat x).kr d.toNat = x ∧ (e ≠ d → (g.setK d.toNat x).kr e.toNat = g.kr e.toNat) ∧
    (∀ r, (g.setK d.toNat x).qr r = g.qr r) ∧
    (g.setQ p.toNat b).qr p = b ∧ (q ≠ p → (g.setQ p.toNat b).qr q = g.qr q) ∧
    (∀ r, (g.setQ p.toNat b).kr r = g.kr r) ∧
    (g.setBusyK d.toNat x).k = (g.setK d.toNat x).k ∧ (g.setBusyK d.toNat x).kbusy.getLsbD d.toNat = false ∧
    (e ≠ d → (g.setBusyK d.toNat x).kbusy.getLsbD e.toNat = g.kbusy.getLsbD e.toNat) ∧
    { g.setBusyK d.toNat x with k := g.k, kbusy := g.kbusy, frags := g.frags, spilled := g.spilled } = g ∧
    (∀ i, i < 8 → (g.setBusyK d.toNat x).frag i = (g.frag i).map fun f =>
      if f.wait = some .scoreboard then { f with st := .ready, wait := none } else f)

/-! ### Thread words -/

/-- The T-format integer instructions of R98, as its table gives each result: they complete, and write v d of every slot of
the execution mask alone. -/
def Obligations.IntegerWords : Prop :=
  ∀ (d a b : VReg) (gd : Guard),
    let V (i : Instr) (R : Word → Word → Word → Prop) : Prop :=
      ThreadWord i gd 1 [a.toNat, b.toNat] [d.toNat] fun g f slot old new =>
        WritesV g f d (fun t w => R (t.v a.toNat) (t.v b.toNat) w) slot old new
    let U (i : Instr) (R : Word → Word → Prop) : Prop :=
      ThreadWord i gd 1 [a.toNat] [d.toNat] fun g f slot old new => WritesV g f d (fun t w => R (t.v a.toNat) w) slot old new
    let M (i : Instr) (R : Word → Word → Word → Word → Prop) : Prop :=
      ThreadWord i gd 1 [a.toNat, b.toNat, d.toNat] [d.toNat] fun g f slot old new =>
        WritesV g f d (fun t w => R (t.v a.toNat) (t.v b.toNat) (t.v d.toNat) w) slot old new
    let satI (x : Int) : Int := max (-(2 ^ 31)) (min (2 ^ 31 - 1) x)
    let satN (x : Int) : Int := max 0 (min (2 ^ 32 - 1) x)
    V (.iadd .wrap d a b gd) (fun x y w => w.toNat = (x.toNat + y.toNat) % 2 ^ 32) ∧
    V (.iadd .satI d a b gd) (fun x y w => w.toInt = satI (x.toInt + y.toInt)) ∧
    V (.iadd .satN d a b gd) (fun x y w => (w.toNat : Int) = satN (x.toNat + y.toNat)) ∧
    V (.isub .wrap d a b gd) (fun x y w => (w.toNat : Int) = ((x.toNat : Int) - y.toNat) % 2 ^ 32) ∧
    V (.isub .satI d a b gd) (fun x y w => w.toInt = satI (x.toInt - y.toInt)) ∧
    V (.isub .satN d a b gd) (fun x y w => (w.toNat : Int) = satN ((x.toNat : Int) - y.toNat)) ∧
    V (.imul .lo d a b gd) (fun x y w => w.toNat = x.toNat * y.toNat % 2 ^ 32) ∧
    V (.imul .hiI d a b gd) (fun x y w => w.toInt = x.toInt * y.toInt / 2 ^ 32) ∧
    V (.imul .hiN d a b gd) (fun x y w => w.toNat = x.toNat * y.toNat / 2 ^ 32) ∧
    M (.imad .wrap d a b gd) (fun x y z w => w.toNat = (x.toNat * y.toNat + z.toNat) % 2 ^ 32) ∧
    M (.imad .satI d a b gd) (fun x y z w => w.toInt = satI (x.toInt * y.toInt + z.toInt)) ∧
    M (.imad .satN d a b gd) (fun x y z w => (w.toNat : Int) = satN (x.toNat * y.toNat + z.toNat)) ∧
    V (.iminmax .minI d a b gd) (fun x y w => w.toInt = min x.toInt y.toInt) ∧
    V (.iminmax .maxI d a b gd) (fun x y w => w.toInt = max x.toInt y.toInt) ∧
    V (.iminmax .minN d a b gd) (fun x y w => w.toNat = min x.toNat y.toNat) ∧
    V (.iminmax .maxN d a b gd) (fun x y w => w.toNat = max x.toNat y.toNat) ∧
    U (.iabs .abs d a gd) (fun x w => w.toNat = x.toInt.natAbs % 2 ^ 32) ∧
    U (.iabs .neg d a gd) (fun x w => (w.toNat : Int) = -x.toInt % 2 ^ 32) ∧
    U (.iabs .absSat d a gd) (fun x w => w.toNat = min x.toInt.natAbs (2 ^ 31 - 1)) ∧
    V (.logic .and d a b gd) (fun x y w => ∀ j < 32, w.getLsbD j = (x.getLsbD j && y.getLsbD j)) ∧
    V (.logic .or d a b gd) (fun x y w => ∀ j < 32, w.getLsbD j = (x.getLsbD j || y.getLsbD j)) ∧
    V (.logic .xor d a b gd) (fun x y w => ∀ j < 32, w.getLsbD j = (x.getLsbD j != y.getLsbD j)) ∧
    V (.logic .andn d a b gd) (fun x y w => ∀ j < 32, w.getLsbD j = (x.getLsbD j && !y.getLsbD j)) ∧
    U (.bitop .not d a gd) (fun x w => ∀ j < 32, w.getLsbD j = !x.getLsbD j) ∧
    U (.bitop .popc d a gd) (fun x w => w.toNat = ((List.range 32).filter fun j => x.getLsbD j).length) ∧
    U (.bitop .clz d a gd) (fun x w => w.toNat ≤ 32 ∧ x.toNat < 2 ^ (32 - w.toNat) ∧
      (w.toNat < 32 → 2 ^ (31 - w.toNat) ≤ x.toNat)) ∧
    U (.bitop .brev d a gd) (fun x w => ∀ j < 32, w.getLsbD j = x.getLsbD (31 - j)) ∧
    V (.shift .shl d a b gd) (fun x y w => w.toNat = x.toNat * 2 ^ (y.toNat % 32) % 2 ^ 32) ∧
    V (.shift .shr d a b gd) (fun x y w => w.toNat = x.toNat / 2 ^ (y.toNat % 32)) ∧
    V (.shift .sar d a b gd) (fun x y w => w.toInt = x.toInt / 2 ^ (y.toNat % 32)) ∧
    V (.shift .rotl d a b gd) (fun x y w => ∀ j < 32, w.getLsbD ((j + y.toNat) % 32) = x.getLsbD j)

/-- The bit-field instructions of R99: each result bit is the bit of the field that the pseudocode gives. -/
def Sys2Proof.Claims.BitFieldWords : Prop :=
  ∀ (d a b : VReg) (gd : Guard),
    let V (i : Instr) (reads : List Nat) (R : Word → Nat → Nat → Word → Word → Prop) : Prop :=
      ThreadWord i gd 1 reads [d.toNat] fun g f slot old new =>
        WritesV g f d (fun t w => R (t.v a.toNat) ((t.v b.toNat).toNat % 32) (min ((t.v b.toNat).toNat / 2 ^ 8 % 64) 32)
          (t.v d.toNat) w) slot old new
    V (.bfe .nat d a b gd) [a.toNat, b.toNat] (fun x pos len _ w => ∀ j < 32, w.getLsbD j = (decide (j < len) && x.getLsbD (pos + j))) ∧
    V (.bfe .int d a b gd) [a.toNat, b.toNat] (fun x pos len _ w => ∀ j < 32,
      w.getLsbD j = (decide (0 < len) && x.getLsbD (min (pos + min j (len - 1)) 31))) ∧
    V (.bfi d a b gd) [a.toNat, b.toNat, d.toNat] (fun x pos len old w => ∀ j < 32,
      w.getLsbD j = if pos ≤ j ∧ j < pos + len then x.getLsbD (j - pos) else old.getLsbD j)

/-- The immediate forms of R100, each with its immediate extended as the table says; movl takes its literal and is two words
long. -/
def Sys2Proof.Claims.ShortImmediateWords : Prop :=
  ∀ (d a : VReg) (i : BitVec 12) (n : BitVec 5) (x : Word),
    let V (c : Instr) (len : Nat) (reads : List Nat) (R : Word → Word → Prop) : Prop :=
      ThreadWord c ⟨false, 7⟩ len reads [d.toNat] fun g f slot old new =>
        WritesV g f d (fun t w => R (t.v a.toNat) w) slot old new
    V (.iaddi d a i) 1 [a.toNat] (fun y w => (w.toNat : Int) = (y.toNat + i.toInt) % 2 ^ 32) ∧
    V (.imuli d a i) 1 [a.toNat] (fun y w => (w.toNat : Int) = (y.toNat * i.toInt) % 2 ^ 32) ∧
    V (.andi d a i) 1 [a.toNat] (fun y w => ∀ j < 32, w.getLsbD j = (y.getLsbD j && i.getLsbD j)) ∧
    V (.ori d a i) 1 [a.toNat] (fun y w => ∀ j < 32, w.getLsbD j = (y.getLsbD j || i.getLsbD j)) ∧
    V (.xori d a i) 1 [a.toNat] (fun y w => ∀ j < 32, w.getLsbD j = (y.getLsbD j != i.getLsbD j)) ∧
    V (.shli d a n) 1 [a.toNat] (fun y w => w.toNat = y.toNat * 2 ^ n.toNat % 2 ^ 32) ∧
    V (.shri d a n) 1 [a.toNat] (fun y w => w.toNat = y.toNat / 2 ^ n.toNat) ∧
    V (.sari d a n) 1 [a.toNat] (fun y w => w.toInt = y.toInt / 2 ^ n.toNat) ∧
    V (.movi d i) 1 [] (fun _ w => w.toInt = i.toInt) ∧
    V (.movl d x) 2 [] (fun _ w => w = x)

/-- The 64-bit address forms of R101 act on register pairs, modulo 2^64. -/
def Sys2Proof.Claims.AddressWords : Prop :=
  ∀ (d a b : VReg) (gd : Guard) (i : BitVec 12) (sh : BitVec 2),
    let D (c : Instr) (gd : Guard) (reads : List Nat) (R : DWord → DWord → Word → DWord → Prop) : Prop :=
      ThreadWord c gd 1 ([a.toNat, a.toNat + 1] ++ reads) [d.toNat, d.toNat + 1] fun g f slot old new =>
        WritesPair g f d (fun t x => R (t.v64 a.toNat) (t.v64 b.toNat) (t.v b.toNat) x) slot old new
    D (.add64 .add d a b gd) gd [b.toNat, b.toNat + 1] (fun x y _ z => z.toNat = (x.toNat + y.toNat) % 2 ^ 64) ∧
    D (.add64 .sub d a b gd) gd [b.toNat, b.toNat + 1] (fun x y _ z => (z.toNat : Int) = ((x.toNat : Int) - y.toNat) % 2 ^ 64) ∧
    D (.add64 .addSx d a b gd) gd [b.toNat] (fun x _ y z => (z.toNat : Int) = (x.toNat + y.toInt) % 2 ^ 64) ∧
    D (.lea sh d a b gd) gd [b.toNat] (fun x _ y z => z.toNat = (x.toNat + y.toNat * 2 ^ sh.toNat) % 2 ^ 64) ∧
    D (.add64i d a i) ⟨false, 7⟩ [] (fun x _ _ z => (z.toNat : Int) = (x.toNat + i.toInt) % 2 ^ 64)

/-- ICMP and ICMPI write one predicate per thread, 1 when the condition holds (R102); SEL selects by its predicate over the
fragment's whole mask (R104); PLOP combines and PMOV moves predicates (R105, R106). -/
def Obligations.PredicateWords : Prop :=
  ∀ (d a b : VReg) (p pa pb : PReg) (gd : Guard) (i : BitVec 12) (c : Cond),
    let holds (x y : Int) : Prop := match c with
      | .eq => x = y
      | .ne => x ≠ y
      | .lt => x < y
      | .le => x ≤ y
      | .gt => y < x
      | .ge => y ≤ x
    let P (j : Instr) (gd : Guard) (reads : List Nat) (R : Thread → Bool → Prop) : Prop :=
      ThreadWord j gd 1 reads [] fun g f slot old new => WritesP g f p R slot old new
    let V (j : Instr) (gd : Guard) (reads : List Nat) (R : Thread → Word → Prop) : Prop :=
      ThreadWord j gd 1 reads [d.toNat] fun g f slot old new => WritesV g f d R slot old new
    let wide := [a.toNat, a.toNat + 1, b.toNat, b.toNat + 1]
    P (.icmp .i32 c p a b gd) gd [a.toNat, b.toNat] (fun t r => r = true ↔ holds (t.v a.toNat).toInt (t.v b.toNat).toInt) ∧
    P (.icmp .n32 c p a b gd) gd [a.toNat, b.toNat] (fun t r => r = true ↔ holds (t.v a.toNat).toNat (t.v b.toNat).toNat) ∧
    P (.icmp .i64 c p a b gd) gd wide (fun t r => r = true ↔ holds (t.v64 a.toNat).toInt (t.v64 b.toNat).toInt) ∧
    P (.icmp .n64 c p a b gd) gd wide (fun t r => r = true ↔ holds (t.v64 a.toNat).toNat (t.v64 b.toNat).toNat) ∧
    P (.icmpiI32 c p a i) ⟨false, 7⟩ [a.toNat] (fun t r => r = true ↔ holds (t.v a.toNat).toInt i.toInt) ∧
    P (.icmpiN32 c p a i) ⟨false, 7⟩ [a.toNat] (fun t r => r = true ↔ holds (t.v a.toNat).toNat i.toNat) ∧
    V (.sel d a b gd) ⟨false, 7⟩ [a.toNat, b.toNat]
      (fun t w => w = if gd.neg != t.pr gd.p then t.v a.toNat else t.v b.toNat) ∧
    P (.plop .and p pa pb gd) gd [] (fun t r => r = (t.pr pa && t.pr pb)) ∧
    P (.plop .or p pa pb gd) gd [] (fun t r => r = (t.pr pa || t.pr pb)) ∧
    P (.plop .xor p pa pb gd) gd [] (fun t r => r = (t.pr pa != t.pr pb)) ∧
    P (.plop .andn p pa pb gd) gd [] (fun t r => r = (t.pr pa && !t.pr pb)) ∧
    P (.plop .orn p pa pb gd) gd [] (fun t r => r = (t.pr pa || !t.pr pb)) ∧
    P (.plop .nand p pa pb gd) gd [] (fun t r => r = !(t.pr pa && t.pr pb)) ∧
    P (.plop .nor p pa pb gd) gd [] (fun t r => r = !(t.pr pa || t.pr pb)) ∧
    P (.plop .xnor p pa pb gd) gd [] (fun t r => r = (t.pr pa == t.pr pb)) ∧
    V (.pmovV d pa gd) gd [] (fun t w => w.toNat = if t.pr pa then 1 else 0) ∧
    P (.pmovP p a gd) gd [a.toNat] (fun t r => r = true ↔ t.v a.toNat ≠ 0)

/-- ENTER, opcode 0x1D with n in IMM12 and d and a zero, sets FRAME of every active thread, for each of the eight sizes that
R123 allows, and raises the illegal-instruction trap, cause WINDOW, with no effect, for any other. It moves neither WBASE nor
RBASE, and writes no register. -/
def Obligations.EnterWord : Prop :=
  (∀ n : BitVec 12, encode (.enter n) = [0x1D000000 + n.toNat] ∧ decode (0x1D000000 + n.toNat) 0 = some (.enter n)) ∧
  decode 0x1D000030 0 = some (.enter 48) ∧
  ∀ (n : BitVec 12) (s : State) (is : Issuer) (g : Group) (f : Frag), Issues s is g f →
    ((n = 8 ∨ n = 16 ∨ n = 24 ∨ n = 32 ∨ n = 40 ∨ n = 48 ∨ n = 56 ∨ n = 64) →
      ∃ t g', exec (.enter n) s = .next (advance t is 1) ∧ t.group? is.gid = some g' ∧
        (∀ slot, slot < 16 → g'.thread slot =
          if f.mask.getLsbD slot then { g.thread slot with frame := n.toNat } else g.thread slot) ∧
        { g' with threads := g.threads } = g ∧ OnlyGroup s t is.gid) ∧
    (¬(n = 8 ∨ n = 16 ∨ n = 24 ∨ n = 32 ∨ n = 40 ∨ n = 48 ∨ n = 56 ∨ n = 64) →
      exec (.enter n) s = .next (takeTrap s is 2 ⟨causeWindow, 0, 0⟩))

/-- RAND steps the generator of R115 in each thread of its execution mask, under UNI in the lowest active slot alone, and writes
the value that the step returns to v d; rand.f32 writes an FP32 number of exactly its top 24 bits times 2^−24. -/
def Obligations.RandWords : Prop :=
  ∀ (k : RandKind) (d : VReg) (gd : Guard) (s : State) (is : Issuer) (g : Group) (f : Frag), g.wave = none →
    Issues s is g f → Ready g f gd [] [d.toNat] →
    let next (t : Thread) : DWord :=
      let x := t.s0 ^^^ (t.s0 <<< 23)
      x ^^^ t.s1 ^^^ (x >>> 17) ^^^ (t.s1 >>> 26)
    ThreadDone (.rand k d gd) s is g f gd 1 fun slot old new =>
      let t := g.thread (source f slot)
      ∃ w : Word, (match k with
          | .b32 => w = ((next t + t.s1) >>> 32).setWidth 32
          | .f32 => ratOf (valOf .f32 w.toNat) = ((next t + t.s1).toNat / 2 ^ 40 : Nat) / 2 ^ 24) ∧
        new = if source f slot = slot then { old.setV d.toNat w with s0 := t.s1, s1 := next t } else old.setV d.toNat w

/-! ### Floating point -/

/-- round(x, fmt, mode) for the five floating-point formats: the result is a code of the format whose value is, under .rne, the
nearest finite value, an even code on a tie; under .rz, the nearest no greater in magnitude; under .rup and .rdn, the least
no less and the greatest no greater. It is inexact exactly when the value differs. Beyond the largest finite value the
result is that of R77's table, with overflow and inexact. -/
def Obligations.RoundingIsCorrect : Prop :=
  ∀ (f : CvtFmt) (rm : Rm) (neg : Bool) (m : Nat) (e : Int), f ≠ .l6 → f ≠ .i32 → f ≠ .n32 → m ≠ 0 →
    let x := ratOf (.num neg m e)
    let r := toFmt f rm (.num neg m e)
    let finite (c : Nat) : Prop := c < 2 ^ f.width ∧ (valOf f c).isNan = false ∧ (valOf f c).isInf = false
    let v := ratOf (valOf f r.1)
    let max := ratOf (valOf f f.maxCode)
    r.1 < 2 ^ f.width ∧ (valOf f r.1).isNan = false ∧ (valOf f r.1).sign = neg ∧ r.2.invalid = false ∧ r.2.divz = false ∧
    (r.2.ovfl = false → finite r.1 ∧ (r.2.inexact = true ↔ v ≠ x) ∧ ∀ c, finite c →
      let y := ratOf (valOf f c)
      match rm with
      | .rne => |v - x| ≤ |y - x| ∧ (|v - x| = |y - x| → y ≠ v → r.1 % 2 = 0)
      | .rz => |v| ≤ |x| ∧ (|y| ≤ |x| → |v - x| ≤ |y - x|)
      | .rup => x ≤ v ∧ (x ≤ y → v ≤ y)
      | .rdn => v ≤ x ∧ (y ≤ x → y ≤ v)) ∧
    (r.2.ovfl = true → max < |x| ∧ r.2.inexact = true ∧
      (valOf f r.1 = .inf neg ↔ f ≠ .e4m3 ∧ (rm = .rne ∨ (rm = .rup ∧ neg = false) ∨ (rm = .rdn ∧ neg = true))) ∧
      ((valOf f r.1).isInf = false → |v| = max))

/-- Sums, products and multiply-adds are exact and rounded once: with finite operands the result is round of the exact value,
and an exact zero has the sign that IEEE 754 gives; a NaN operand, inf − inf and 0 × inf give the canonical NaN, and
invalid for the last two and for a signalling NaN; in a multiply-add 0 × inf is invalid even beside a quiet NaN. -/
def Sys2Proof.Claims.ExactArithmetic : Prop :=
  ∀ (f : CvtFmt) (rm : Rm) (a b d : Val), f ≠ .l6 → f ≠ .i32 → f ≠ .n32 →
    let fin (v : Val) : Prop := v.isNan = false ∧ v.isInf = false
    let rounds (r : Nat × Conds) (x : ℚ) (zero : Bool) : Prop :=
      ∃ n m e, ratOf (.num n m e) = x ∧ (m = 0 → n = zero) ∧ r = toFmt f rm (.num n m e)
    let zsum (p q : Val) : Bool := if p.isZero && q.isZero && p.sign == q.sign then p.sign else rm == .rdn
    (fin a → fin b → rounds (faddF f rm a b) (ratOf a + ratOf b) (zsum a b) ∧
      rounds (fmulF f rm a b) (ratOf a * ratOf b) (a.sign != b.sign)) ∧
    (fin a → fin b → fin d →
      rounds (ffmaF f rm a b d) (ratOf a * ratOf b + ratOf d) (zsum (mulVal a b) d)) ∧
    (a.isNan = true ∨ b.isNan = true →
      faddF f rm a b = (f.nan, ⟨a.snan || b.snan, false, false, false, false⟩) ∧
      fmulF f rm a b = (f.nan, ⟨a.snan || b.snan, false, false, false, false⟩)) ∧
    (faddF f rm (.inf false) (.inf true)).1 = f.nan ∧ (faddF f rm (.inf false) (.inf true)).2.invalid = true ∧
    (a.isZero = true → ∀ n, (fmulF f rm a (.inf n)).1 = f.nan ∧ (fmulF f rm a (.inf n)).2.invalid = true ∧
      (ffmaF f rm a (.inf n) d).1 = f.nan ∧ (ffmaF f rm a (.inf n) d).2.invalid = true) ∧
    (fin a → ∀ n, faddF f rm a (.inf n) = toFmt f rm (.inf n) ∧
      (a.isZero = false → fmulF f rm a (.inf n) = toFmt f rm (.inf (a.sign != n))))

/-- The floating-point comparisons compare the numbers that the operands stand for, −0 equal to +0; with a NaN eq, lt, le, gt, ge
and ord give 0 and ne and un give 1; lt, le, gt and ge raise invalid for any NaN, the others for a signalling one (R103).
fabs, fneg and fcopysign act on the sign bit alone (R108). -/
def Sys2Proof.Claims.ComparisonsAndSigns : Prop :=
  (∀ (c : FCond) (a b : Val), a.isNan = false → b.isNan = false →
    (fcmpF c a b).2 = Conds.none ∧
    (a.isInf = false → b.isInf = false → ((fcmpF c a b).1 = true ↔ match c with
      | .eq => ratOf a = ratOf b
      | .ne => ratOf a ≠ ratOf b
      | .lt => ratOf a < ratOf b
      | .le => ratOf a ≤ ratOf b
      | .gt => ratOf b < ratOf a
      | .ge => ratOf b ≤ ratOf a
      | .un => False
      | .ord => True))) ∧
  (∀ (c : FCond) (a b : Val), a.isNan = true ∨ b.isNan = true →
    ((fcmpF c a b).1 = true ↔ c = .ne ∨ c = .un) ∧
    ((fcmpF c a b).2.invalid = true ↔ (c = .lt ∨ c = .le ∨ c = .gt ∨ c = .ge) ∨ a.snan = true ∨ b.snan = true)) ∧
  (∀ x y : Word, (valOf .f32 x.toNat).isNan = false →
    (fsignF .abs x.toNat y.toNat).1 = (x &&& 0x7FFFFFFF).toNat ∧
    (fsignF .neg x.toNat y.toNat).1 = (x ^^^ 0x80000000).toNat ∧
    (fsignF .copysign x.toNat y.toNat).1 = ((x &&& 0x7FFFFFFF) ||| (y &&& 0x80000000)).toNat) ∧
  (∀ (op : FSignOp) (x y : Word), (valOf .f32 x.toNat).isNan = true →
    (fsignF op x.toNat y.toNat).1 = 0x7FC00000 ∧ (fsignF op x.toNat y.toNat).2.invalid = (valOf .f32 x.toNat).snan)

/-- The floating-point, conversion and packing words complete when none of the conditions that they raise is enabled: each slot
of the execution mask takes the result of its value function, and nothing else changes (R107 to R114). -/
def Sys2Proof.Claims.FloatResults : Prop :=
  ∀ (i : Instr) (o : FloatOp), floatOp i = some o →
    ∀ s is g f, Issues s is g f → Ready g f o.guard o.reads o.writes →
      (∀ slot, slot < 16 → runsIn g f o.guard slot = true →
        (o.conds (g.thread (source f slot))).bits &&& g.arithen = 0) →
      ThreadDone i s is g f o.guard 1 fun slot old new => new = o.result (g.thread (source f slot)) old

/-- An enabled condition raised in any active thread: every slot of the execution mask still takes its result, and then the
arithmetic trap is taken, class 10, with the program counter at the next word; TINFO names the slots that raised it and the
conditions (R96, R404). -/
def Sys2Proof.Claims.ArithmeticTrap : Prop :=
  ∀ (i : Instr) (o : FloatOp), floatOp i = some o →
    ∀ s is g f, Issues s is g f → Ready g f o.guard o.reads o.writes →
      let on (slot : Nat) : BitVec 5 := (o.conds (g.thread slot)).bits &&& g.arithen
      let hit (slot : Nat) : Bool := runsIn g f o.guard slot && source f slot == slot && on slot != 0
      (∃ slot, slot < 16 ∧ hit slot = true) →
      ∃ t g' d, exec i s = .next (takeTrap (passWord t is 1) is 10 d) ∧ t.group? is.gid = some g' ∧
        (∀ slot, slot < 16 → g'.thread slot =
          if runsIn g f o.guard slot then o.result (g.thread (source f slot)) (g.thread slot) else g.thread slot) ∧
        { g' with threads := g.threads } = g ∧ OnlyGroup s t is.gid ∧
        (∀ slot, slot < 16 → d.tinfo.getLsbD slot = hit slot) ∧
        (∀ k, k < 5 → (d.tinfo.getLsbD (16 + k) = true ↔ ∃ slot, slot < 16 ∧ hit slot = true ∧ (on slot).getLsbD k = true))

/-! ### What holds a thread word back -/

/-- A word with an all-zero execution mask reads nothing, writes nothing and takes no fault: it only moves on (R48). So for every
word of a T-format class with a guard, and for a guard `?!p7` always (R13). -/
def Obligations.MaskedOff : Prop :=
  ∀ (i : Instr) (gd : Guard) (s : State) (is : Issuer) (g : Group) (f : Frag), guardOf i = some gd →
    Issues s is g f → g.wave = none → (∀ slot, slot < 16 → runsIn g f gd slot = false) →
    exec i s = .next (advance s is 1)

/-- The predicates of a thread (R13): each of p0 to p6 holds one bit, which a write sets and a write to another leaves; p7 reads 1,
and a write to it changes nothing; no slot is in the execution mask of a word guarded `?!p7`, which therefore only moves on;
without negation p7 selects the fragment's mask, under UNI too. -/
def Obligations.PredicateSeven : Prop :=
  (∀ (t : Thread) (p q : PReg) (b : Bool), t.pr 7 = true ∧ t.setP 7 b = t ∧ (p ≠ 7 → (t.setP p b).pr p = b) ∧
    (q ≠ p → (t.setP p b).pr q = t.pr q)) ∧
  (∀ (g : Group) (f : Frag) (slot : Nat),
    runsIn g f ⟨true, 7⟩ slot = false ∧ runsIn g f ⟨false, 7⟩ slot = f.mask.getLsbD slot) ∧
  ∀ (i : Instr) (s : State) (is : Issuer) (g : Group) (f : Frag), guardOf i = some ⟨true, 7⟩ → Issues s is g f →
    g.wave = none → exec i s = .next (advance s is 1)

/-! ### Thread combiners -/

/-- SHFL, VOTE, BALLOT, REDT, SCAN and FRAGQ read the slots of the execution mask, under UNI the lowest active slot alone, before
they write any, and write every slot of the mask (R163 to R169). -/
def Sys2Proof.Claims.GroupCombiners : Prop :=
  ∀ (s : State) (is : Issuer) (g : Group) (f : Frag) (d a b : VReg) (pd pa : PReg) (gd : Guard), Issues s is g f →
    let inp (i : Nat) : Bool := runsIn g f gd i && source f i == i
    let x (i : Nat) : Word := (g.thread i).v a.toNat
    let V (i : Instr) (reads : List Nat) (P : Nat → Word → Prop) : Prop :=
      Ready g f gd reads [d.toNat] →
        ThreadDone i s is g f gd 1 fun slot old new => ∃ w, new = old.setV d.toNat w ∧ P (source f slot) w
    let Q (i : Instr) (P : Bool → Prop) : Prop :=
      ThreadDone i s is g f gd 1 fun _ old new => ∃ r, new = old.setP pd r ∧ P r
    let shfl (m : ShflMode) (src : Nat → Nat → Int) : Prop :=
      V (.shfl m d a b gd) [a.toNat, b.toNat] fun slot w =>
        let i := src slot (((g.thread slot).v b.toNat).toNat % 16)
        w = if 0 ≤ i ∧ i ≤ 15 ∧ inp i.toNat = true then x i.toNat else x slot
    shfl .idx (fun _ n => n) ∧ shfl .up (fun t n => (t : Int) - n) ∧ shfl .down (fun t n => (t : Int) + n) ∧
    shfl .xor (fun t n => ((t ^^^ n : Nat) : Int)) ∧
    Q (.vote .any pd pa gd) (fun r => r = true ↔ ∃ i, i < 16 ∧ inp i = true ∧ (g.thread i).pr pa = true) ∧
    Q (.vote .all pd pa gd) (fun r => r = true ↔ ∀ i, i < 16 → inp i = true → (g.thread i).pr pa = true) ∧
    Q (.vote .eq pd pa gd) (fun r => r = true ↔ ∀ i j, i < 16 → j < 16 → inp i = true → inp j = true →
      (g.thread i).pr pa = (g.thread j).pr pa) ∧
    V (.ballot d pa gd) [] (fun _ w => ∀ i, i < 32 → w.getLsbD i = (decide (i < 16) && inp i && (g.thread i).pr pa)) ∧
    (∀ op, V (.redt op d a gd) [a.toNat] fun _ w =>
      w = redTree op g.nbv ((List.range 16).map fun i => if inp i then some (x i) else none)) ∧
    (∀ op, V (.scan op d a gd) [a.toNat] fun slot w => ∃ y : Nat → Word,
      (y 0 = if inp 0 then x 0 else op.ident) ∧
      (∀ i, i < 15 → y (i + 1) = redStep op (y i) (if inp (i + 1) then x (i + 1) else op.ident)) ∧ w = y slot) ∧
    V (.fragq .mask d gd) [] (fun _ w => w = f.mask.setWidth 32) ∧
    V (.fragq .count d gd) [] (fun _ w => w = BitVec.ofNat 32 ((g.frags.toList.filter (·.isSome)).length + g.spilled.length)) ∧
    V (.fragq .occ d gd) [] (fun _ w => w = BitVec.ofNat 32 (g.frags.toList.filter (·.isSome)).length) ∧
    V (.fragq .spill d gd) [] (fun _ w => w = BitVec.ofNat 32 g.spilled.length)

/-- REDT combines 16 positions in the fixed tree of R87, an inactive one as the identity of the operation; under NBV 1 the FP32
forms combine the active ones in slot order. A step of the sum rounds the exact sum to nearest even, one of .add.i32 wraps, and one
of .max.f32 or .min.f32 gives the larger or smaller number, −0 below +0: a NaN loses to a number, and two give the canonical NaN. -/
def Obligations.ReductionOrder : Prop :=
  (∀ (op : RedOp) (xs : Vector (Option Word) 16),
    let x (i : Nat) : Word := ((xs[i]?).join).getD op.ident
    let p (i : Nat) : Word := redStep op (x (2 * i)) (x (2 * i + 1))
    let q (i : Nat) : Word := redStep op (p (2 * i)) (p (2 * i + 1))
    (∀ nbv, nbv ≠ 1 ∨ op = .addI →
      redTree op nbv xs.toList = redStep op (redStep op (q 0) (q 1)) (redStep op (q 2) (q 3))) ∧
    (op ≠ .addI → ∀ a r, xs.toList.filterMap id = a :: r → redTree op 1 xs.toList = r.foldl (redStep op) a)) ∧
  RedOp.addF.ident = 0x80000000 ∧ RedOp.addI.ident = 0 ∧ RedOp.maxF.ident = 0xFF800000 ∧ RedOp.minF.ident = 0x7F800000 ∧
  ∀ x y : Word,
    let a := valOf .f32 x.toNat
    let b := valOf .f32 y.toNat
    let key (w : Word) : Int := if w.getLsbD 31 then -((w.toNat : Int) - 2 ^ 31) - 1 else w.toNat
    (redStep .addI x y).toNat = (x.toNat + y.toNat) % 2 ^ 32 ∧
    (a.isNan = false → b.isNan = false → a.isInf = false → b.isInf = false → ∃ n m e, ratOf (.num n m e) = ratOf a + ratOf b ∧
      (m = 0 → (n = true ↔ x = 0x80000000 ∧ y = 0x80000000)) ∧
      (redStep .addF x y).toNat = (toFmt .f32 .rne (.num n m e)).1) ∧
    (a.isNan = false → b.isNan = false → key (redStep .maxF x y) = max (key x) (key y) ∧
      key (redStep .minF x y) = min (key x) (key y)) ∧
    ∀ op, op = .maxF ∨ op = .minF → (a.isNan = true → b.isNan = false → redStep op x y = y) ∧
      (a.isNan = false → b.isNan = true → redStep op x y = x) ∧ (a.isNan = true → b.isNan = true → redStep op x y = 0x7FC00000)

/-- BCAST writes one k register once for the group: the value of one slot's v register or pair, and 0 when that slot is not in the
execution mask; with no slot in the execution mask it has no effect (R48, R168). -/
def Sys2Proof.Claims.BroadcastWord : Prop :=
  ∀ (kd : KReg) (a : VReg) (w64 : Bool) (src : Option (BitVec 4)) (gd : Guard) (s : State) (is : Issuer) (g : Group)
    (f : Frag), Issues s is g f → Ready g f gd (if w64 then [a.toNat, a.toNat + 1] else [a.toNat]) [] →
    g.kbusy.getLsbD kd.toNat = false →
    let inp (i : Nat) : Bool := runsIn g f gd i && source f i == i
    (∃ i, i < 16 ∧ runsIn g f gd i = true) →
    ∃ t x, exec (.bcast kd a w64 src gd) s = .next (advance t is 1) ∧ t.group? is.gid = some (g.setK kd.toNat x) ∧
      OnlyGroup s t is.gid ∧
      (∀ n, src = some n → x = if inp n.toNat then
        (if w64 then (g.thread n.toNat).v64 a.toNat else ((g.thread n.toNat).v a.toNat).setWidth 64) else 0) ∧
      (src = none → ∃ i, i < 16 ∧ inp i = true ∧ (∀ j, j < i → inp j = false) ∧
        x = if w64 then (g.thread i).v64 a.toNat else ((g.thread i).v a.toNat).setWidth 64)

/-! ### Uniform words -/

/-- UALU, UCMP, QLOP, UMOVL and UADDL execute once for the issuing fragment when their uniform guard holds, and write one k or q
register (R170 to R173). -/
def Obligations.UniformWords : Prop :=
  ∀ (d a b : KReg) (q qa qb : QReg) (x : Word) (ug : UGuard),
    let K (i : Instr) (len : Nat) (regs : List Nat) (P : DWord → DWord → DWord → DWord → Prop) : Prop :=
      UniformWord i ug len regs (WritesK d fun g w => P (g.kr d.toNat) (g.kr a.toNat) (g.kr b.toNat) w)
    let A (op : UaluOp) (P : DWord → DWord → DWord → Prop) : Prop :=
      K (.ualu op d a b ug) 1 [d.toNat, a.toNat, b.toNat] fun _ x y w => P x y w
    let C (op : UcmpOp) (P : DWord → DWord → Prop) : Prop :=
      UniformWord (.ucmp op q a b ug) ug 1 [a.toNat, b.toNat]
        (WritesQ q.toNat fun g r => r = true ↔ P (g.kr a.toNat) (g.kr b.toNat))
    let L (op : PlopOp) (F : Bool → Bool → Bool) : Prop :=
      UniformWord (.qlop op q qa qb ug) ug 1 [] (WritesQ q.toNat fun g r => r = F (g.qr qa) (g.qr qb))
    A .uadd (fun x y w => w.toNat = (x.toNat + y.toNat) % 2 ^ 64) ∧
    A .usub (fun x y w => (w.toNat : Int) = ((x.toNat : Int) - y.toNat) % 2 ^ 64) ∧
    A .umul (fun x y w => w.toNat = x.toNat * y.toNat % 2 ^ 64) ∧
    A .uand (fun x y w => w = x &&& y) ∧ A .uor (fun x y w => w = x ||| y) ∧ A .uxor (fun x y w => w = x ^^^ y) ∧
    A .ushl (fun x y w => w.toNat = x.toNat * 2 ^ (y.toNat % 64) % 2 ^ 64) ∧
    A .ushr (fun x y w => w.toNat = x.toNat / 2 ^ (y.toNat % 64)) ∧
    A .usar (fun x y w => w.toInt = x.toInt / 2 ^ (y.toNat % 64)) ∧
    A .uminI (fun x y w => w.toInt = min x.toInt y.toInt) ∧ A .umaxI (fun x y w => w.toInt = max x.toInt y.toInt) ∧
    A .uminN (fun x y w => w.toNat = min x.toNat y.toNat) ∧ A .umaxN (fun x y w => w.toNat = max x.toNat y.toNat) ∧
    K (.ualu .umov d a b ug) 1 [d.toNat, a.toNat] (fun _ x _ w => w = x) ∧
    C .eq (fun x y => x = y) ∧ C .ne (fun x y => x ≠ y) ∧ C .ltI (fun x y => x.toInt < y.toInt) ∧
    C .leI (fun x y => x.toInt ≤ y.toInt) ∧ C .gtI (fun x y => y.toInt < x.toInt) ∧ C .geI (fun x y => y.toInt ≤ x.toInt) ∧
    C .ltN (fun x y => x.toNat < y.toNat) ∧ C .leN (fun x y => x.toNat ≤ y.toNat) ∧ C .gtN (fun x y => y.toNat < x.toNat) ∧
    C .geN (fun x y => y.toNat ≤ x.toNat) ∧
    L .and (fun x y => x && y) ∧ L .or (fun x y => x || y) ∧ L .xor (fun x y => x != y) ∧ L .andn (fun x y => x && !y) ∧
    L .orn (fun x y => x || !y) ∧ L .nand (fun x y => !(x && y)) ∧ L .nor (fun x y => !(x || y)) ∧ L .xnor (fun x y => x == y) ∧
    K (.umovl .sext d x ug) 2 [d.toNat] (fun _ _ _ w => w = x.signExtend 64) ∧
    K (.umovl .zext d x ug) 2 [d.toNat] (fun _ _ _ w => w = x.setWidth 64) ∧
    K (.umovl .hi d x ug) 2 [d.toNat] (fun o _ _ w => w.toNat = o.toNat % 2 ^ 32 + 2 ^ 32 * x.toNat) ∧
    K (.uaddl d a x ug) 2 [d.toNat, a.toNat] (fun _ y _ w => (w.toNat : Int) = (y.toNat + x.toInt) % 2 ^ 64)

/-! ### Moving on, clauses and repeats -/

/-- What `advance` does, by which every word that completes moves its fragment: between repeats INDEX and REMAIN step (R126); after
the last repeat REPS is zero; otherwise the fragment goes on with the next word of its clause, or at its end with word 0 of
the clause at header + 4 × (COUNT + 1) (R34), where the clause's SRW writes take effect (R32). A control word goes to word 0 of
its target. After a clause with YLD the fragment's AGE is 0 (R40, R144). A fragment with a reconvergence record, or a group with
spilled fragments, may then meet R136 or R141. -/
def Obligations.MovingOn : Prop :=
  ∀ (s : State) (is : Issuer) (g : Group) (f : Frag) (len : Nat) (c : DWord),
    s.group? is.gid = some g → g.frag is.entry = some f → g.wave = none →
    let word0 (c : DWord) : Group := (g.flushSrw is.entry).modFrag is.entry fun f =>
      { f with clause := c, word := 0, hdr := none, age := if (f.hdr.any fun h => h.getLsbD 21) then 0 else f.age }
    (g.reps.active = true → g.reps.remain ≠ 0 →
      Becomes s (advance s is len) is.gid
        { g with reps := { g.reps with index := g.reps.index + 1, remain := g.reps.remain - 1 } }) ∧
    (g.reps.active = true → g.reps.remain = 0 → f.word + len < f.count →
      Becomes s (advance s is len) is.gid
        { g.modFrag is.entry (fun f => { f with word := f.word + len }) with reps := Reps.zero }) ∧
    (g.reps.active = false → f.word + len < f.count →
      Becomes s (advance s is len) is.gid (g.modFrag is.entry fun f => { f with word := f.word + len })) ∧
    (g.reps.active = false → f.count ≤ f.word + len → f.recx = 31 → g.spilled = [] →
      Becomes s (advance s is len) is.gid (word0 (f.clause + BitVec.ofNat 64 (4 * (f.count + 1))))) ∧
    (f.recx = 31 → g.spilled = [] → Becomes s (goTo s is c) is.gid (word0 c))

/-- REP completes when the word after it can be fetched and passes the checks of R57 and R125: the fragment goes on with that word,
and REPS is set up for N repeats of it; its literal has been read. -/
def Sys2Proof.Claims.RepWord : Prop :=
  ∀ (n : BitVec 6) (sd sa sb : Bool) (s : State) (is : Issuer) (g : Group) (f : Frag) (w x : Word) (i : Instr), Issues s is g f →
    g.reps.active = false → f.word + 1 < f.count → (fetchInstr s g f.clause (f.word + 1) none).2 = .ok (w, x) →
    decodeRep w.toNat x.toNat = some i → repOk i (n.toNat + 1) sd sa sb = true →
    ∃ t g', exec (.rep n sd sa sb) s = .next t ∧ t.group? is.gid = some g' ∧ { g' with budget := g.budget } =
      { g.modFrag is.entry (fun f => { f with word := f.word + 1 }) with
        reps := { remain := n.toNat, index := 0, stepb := sb, stepa := sa, stepd := sd, active := true, entry := is.entry
                  lit := some x } }

/-- REP refuses the word after it: one that does not decode raises cause ENCODING, a field that may not step raises cause REPEAT, both
with REPS unchanged; a fetch that faults raises class 5 (R57, R125, R226). -/
def Sys2Proof.Claims.RepRefuses : Prop :=
  ∀ (n : BitVec 6) (sd sa sb : Bool) (s u : State) (is : Issuer) (g : Group) (f : Frag), Issues s is g f → g.wave = none →
    (∀ w x, fetchInstr s g f.clause (f.word + 1) none = (u, .ok (w, x)) →
      (decodeRep w.toNat x.toNat = none → exec (.rep n sd sa sb) s = .next (takeTrap u is 2 ⟨causeEncoding, 0, 0⟩)) ∧
      (∀ i, decodeRep w.toNat x.toNat = some i → repOk i (n.toNat + 1) sd sa sb = false →
        exec (.rep n sd sa sb) s = .next (takeTrap u is 2 ⟨causeRepeat, 0, 0⟩))) ∧
    ∀ va x, fetchInstr s g f.clause (f.word + 1) none = (u, .fault va x) →
      exec (.rep n sd sa sb) s = .next (takeTrap u is 5 ⟨x.cause, BitVec.ofNat 64 (x.level * 2 ^ 26), BitVec.ofNat 64 va⟩)

/-- Repeat j runs the repeated word with each stepped field advanced by j steps (R124): when the word can be fetched and its stepped
form decodes, the repeat completes in the state in which that form completes; the literal is the one that REP has read. So repeat j
of `movi` with a stepped d completes and writes v(d + j), and repeat j of an `iadd` completes with each stepped register
advanced. -/
def Sys2Proof.Claims.RepeatRunsSteppedWord : Prop :=
  ∀ (s : State) (is : Issuer) (g : Group) (f : Frag) (w x : Word) (i j : Instr), Issues s is g f → g.wave = none →
    (fetchInstr s g f.clause f.word g.reps.lit).2 = .ok (w, x) → decodeRep w.toNat x.toNat = some i →
    decode (stepWord i w.toNat g.reps.index g.reps.stepd g.reps.stepa g.reps.stepb) x.toNat = some j →
    let g1 : Group := { g with reps := { g.reps with lit := some x } }
    (∃ t u, exec .repRepeat s = .next t ∧ exec j u = .next t ∧ Issues u is g1 f ∧ (∀ n, n ≠ is.gid → u.group? n = s.group? n)) ∧
    (∀ (d : VReg) (imm : BitVec 12), i = .movi d imm → g.reps.stepd = true → g.reps.stepa = false → g.reps.stepb = false →
      d.toNat + g.reps.index < 64 →
      (∀ slot, slot < 16 → f.mask.getLsbD slot = true → g.vbusy slot (d.toNat + g.reps.index) = false) →
      ∃ t g', exec .repRepeat s = .next (advance t is 1) ∧ t.group? is.gid = some g' ∧
        (∀ slot, slot < 16 → g'.thread slot = if f.mask.getLsbD slot
          then (g.thread slot).setV (d.toNat + g.reps.index) (imm.signExtend 32) else g.thread slot) ∧
        { g' with threads := g.threads } = g1) ∧
    (∀ (d a b : VReg) (gd : Guard), i = .iadd .wrap d a b gd →
      let n (bit : Bool) (r : VReg) : Nat := r.toNat + if bit then g.reps.index else 0
      let d' := n g.reps.stepd d
      let a' := n g.reps.stepa a
      let b' := n g.reps.stepb b
      d' < 64 → a' < 64 → b' < 64 → Ready g f gd [a', b'] [d'] →
      ∃ t g', exec .repRepeat s = .next (advance t is 1) ∧ t.group? is.gid = some g' ∧
        (∀ slot, slot < 16 → g'.thread slot = if runsIn g f gd slot
          then (g.thread slot).setV d' ((g.thread (source f slot)).v a' + (g.thread (source f slot)).v b') else g.thread slot) ∧
        { g' with threads := g.threads } = g1)

/-- The fields that REP may step on an integer word: d, a and b of a T-format word, each by one register within v63; no field of
a 64-bit form but an addend that is one register; no predicate and no immediate (R124, R125). -/
def Sys2Proof.Claims.RepeatChecks : Prop :=
  ∀ (k : SatKind) (d a b : VReg) (gd : Guard) (p pa pb : PReg) (op : PlopOp) (c : Cond) (imm : BitVec 12) (sh : BitVec 2)
    (n : Nat) (sd sa sb : Bool), 1 ≤ n →
    (repOk (.iadd k d a b gd) n sd sa sb = true ↔
      (sd = true → d.toNat + n ≤ 64) ∧ (sa = true → a.toNat + n ≤ 64) ∧ (sb = true → b.toNat + n ≤ 64)) ∧
    (repOk (.lea sh d a b gd) n sd sa sb = true ↔ sd = false ∧ sa = false ∧ (sb = true → b.toNat + n ≤ 64)) ∧
    (repOk (.iaddi d a imm) n sd sa sb = true ↔
      (sd = true → d.toNat + n ≤ 64) ∧ (sa = true → a.toNat + n ≤ 64) ∧ sb = false) ∧
    (repOk (.icmpiI32 c p a imm) n sd sa sb = true ↔ sd = false ∧ (sa = true → a.toNat + n ≤ 64) ∧ sb = false) ∧
    (repOk (.plop op p pa pb gd) n sd sa sb = true ↔ sd = false ∧ sa = false ∧ sb = false)

/-- CLAUSE_START: a legal clause is entered once every path counter that PWAIT selects is zero and the barrier of BWAIT has changed
phase, which the group then has seen; it blocks while they are unmet, and raises class 8 when that barrier is broken; a clause
that fails a check of R45 raises class 1 with its sub-cause, before any wait is evaluated (R38). A PWAIT on path 5 first drains
the group's write-combining lines (R218). -/
def Sys2Proof.Claims.ClauseEntry : Prop :=
  ∀ (s u w v : State) (is : Issuer) (g : Group) (f : Frag) (tm : Team) (h : Word) (body : List Word), Issues s is g f →
    g.wave = none → fetchWord s g f.clause.toNat = (u, .ok h) → fetchBody u g f.clause (h.toNat % 16) = (w, .ok body) →
    (clauseFault h body ≠ 0 → exec .clauseStart s = .next (takeTrap w is 1 ⟨clauseFault h body, 0, 0⟩)) ∧
    (clauseFault h body = 0 → v = (if h.getLsbD 12 then drainGroup w g else w) → v.group? is.gid = some g →
      v.team? g.tid = some tm →
      let paths : Prop := ∀ p, p < 8 → h.getLsbD (7 + p) = true → g.path p = 0
      let b : BReg := (h >>> 15).setWidth 5
      let bar := tm.bars[b.toNat]?.getD (Barrier.new 1)
      (paths → h.getLsbD 20 = false → ∃ t, exec .clauseStart s = .next t ∧
        Becomes v t is.gid (g.modFrag is.entry fun f => { f with hdr := some h, st := .ready, wait := none })) ∧
      (paths → h.getLsbD 20 = true → bar.broken = false → bar.phase ≠ g.seen.getLsbD b.toNat →
        ∃ t, exec .clauseStart s = .next t ∧ Becomes v t is.gid
          ((g.see b).modFrag is.entry fun f => { f with hdr := some h, st := .ready, wait := none })) ∧
      (h.getLsbD 20 = true → bar.broken = true →
        exec .clauseStart s = .next (takeTrap v is 8 ⟨0, BitVec.ofNat 64 (b.toNat * 2 ^ 21), 0⟩)) ∧
      ((¬paths ∧ (h.getLsbD 20 = true → bar.broken = false)) ∨
        (h.getLsbD 20 = true ∧ bar.broken = false ∧ bar.phase = g.seen.getLsbD b.toNat) →
        exec .clauseStart s = .next (block v is (.header h))))

/-- The header checks of R45 in their order: COUNT, RESERVED, BWAIT, UNI. -/
def Sys2Proof.Claims.ClauseHeaderChecks : Prop :=
  ∀ (h : Word) (body : List Word),
    let cls := h.toNat / 2 ^ 4 % 8
    let c1 : Prop := h.toNat % 16 = 0
    let c2 : Prop := h.toNat / 2 ^ 23 ≠ 0
    let c3 : Prop := h.getLsbD 20 = false ∧ h.toNat / 2 ^ 15 % 32 ≠ 0
    let c4 : Prop := h.getLsbD 22 = true ∧ (cls = 3 ∨ cls = 4 ∨ cls = 6)
    (clauseFault h body = 1 ↔ c1) ∧ (clauseFault h body = 2 ↔ ¬c1 ∧ c2) ∧ (clauseFault h body = 3 ↔ ¬c1 ∧ ¬c2 ∧ c3) ∧
    (clauseFault h body = 4 ↔ ¬c1 ∧ ¬c2 ∧ ¬c3 ∧ c4) ∧ clauseFault h body ≤ 8

/-! ### Branches, calls and fragments -/

/-- BR, by the table of R117: under .any and .all, and when all active threads agree, the fragment goes whole to the target or to
the next clause; when they do not, it splits as R135 gives: the taken part keeps its entry, the other part takes the lowest
free one, and both name a new record of the reconvergence clause. -/
def Sys2Proof.Claims.BranchTable : Prop :=
  ∀ (rcv : BitVec 18) (gd : Guard) (disp : Word) (s : State) (is : Issuer) (g : Group) (f : Frag), Issues s is g f →
    let target : DWord := f.clause + BitVec.ofInt 64 (4 * disp.toInt)
    let meet : DWord := f.clause + BitVec.ofInt 64 (4 * rcv.toInt)
    let next : DWord := f.clause + BitVec.ofNat 64 (4 * (f.count + 1))
    let E (slot : Nat) : Bool := runsIn g f gd slot
    let someE : Prop := ∃ slot, slot < 16 ∧ E slot = true
    let someN : Prop := ∃ slot, slot < 16 ∧ f.mask.getLsbD slot = true ∧ E slot = false
    (someE → exec (.br rcv gd .any disp) s = .next (goTo s is target)) ∧
    (¬someE → exec (.br rcv gd .any disp) s = .next (goTo s is next)) ∧
    (¬someN → exec (.br rcv gd .all disp) s = .next (goTo s is target)) ∧
    (someN → exec (.br rcv gd .all disp) s = .next (goTo s is next)) ∧
    (someE → ¬someN → exec (.br rcv gd .thread disp) s = .next (goTo s is target)) ∧
    (¬someE → exec (.br rcv gd .thread disp) s = .next (goTo s is next)) ∧
    (someE → someN → ∀ e i, g.wave = none → g.freeEntry = some e → g.freeRec = some i → g.spilled = [] → target ≠ meet →
      next ≠ meet →
      ∃ (t : State) (taken : Mask), exec (.br rcv gd .thread disp) s = .next t ∧ (∀ slot, slot < 16 → taken.getLsbD slot = E slot) ∧
        Becomes s t is.gid
          ((((g.flushSrw is.entry).setRec i (some { rcv := meet, omask := f.mask, arrived := 0
                                                    cdepth := (g.thread (lowest f.mask)).cdepth, parent := f.recx })).setFrag
            is.entry (some { mask := taken, clause := target, word := 0, recx := i, st := .ready, age := 0, hdr := none
                             wait := none })).setFrag
            e (some { mask := f.mask &&& ~~~taken, clause := next, word := 0, recx := i, st := .ready, age := 0, hdr := none
                      wait := none })))

/-- A branch whose active threads agree, or that splits, loses no slot: the masks of the two parts of a split are disjoint, not empty,
and together the mask that split (R135). -/
def Sys2Proof.Claims.SplitPartition : Prop :=
  ∀ (g : Group) (f : Frag) (gd : Guard) (s : State) (is : Issuer),
    let e := Iss.guarded ⟨s, is, g, f⟩ gd
    (∀ slot, slot < 16 → e.getLsbD slot = runsIn g f gd slot) ∧ e &&& (f.mask &&& ~~~e) = 0 ∧ e ||| (f.mask &&& ~~~e) = f.mask

/-- The window of a thread that CALL has moved, as the table of R18 gives it: the link holds the return clause and FRAME, the oldest
of 8 resident links leaves, and RBASE rises so that no more than 128 registers are resident. A thread that the window refuses
raises cause WINDOW, with the slots that did in TINFO; the word waits while the spill buffer has no line to give (log 12). -/
def Sys2Proof.Claims.CallWord : Prop :=
  ∀ (gd : Guard) (disp : Word) (ka : KReg) (ug : UGuard) (s : State) (is : Issuer) (g : Group) (f : Frag), Issues s is g f →
    g.wave = none → f.mask ≠ 0 →
    let slots := maskSlots f.mask
    let next : DWord := f.clause + BitVec.ofNat 64 (4 * (f.count + 1))
    let target : DWord := f.clause + BitVec.ofInt 64 (4 * disp.toInt)
    let call (t : Thread) : Thread :=
      { t with
        links := (if t.links.length < 8 then t.links else t.links.drop 1) ++
          [BitVec.ofNat 64 (next.toNat % 2 ^ 57 + t.frame % 128 * 2 ^ 57)]
        rbase := if 128 < t.wbase + t.frame + 64 - t.rbase then t.wbase + t.frame - 64 else t.rbase
        wbase := t.wbase + t.frame, frame := 64, cdepth := t.cdepth + 1 }
    let bad : Prop := ∃ slot, slot < 16 ∧ f.mask.getLsbD slot = true ∧
      ((g.thread slot).cdepth = 8191 ∨ 2 ^ 20 < (g.thread slot).wbase + (g.thread slot).frame + 64)
    let still : Prop := ∀ slot, slot < 16 → f.mask.getLsbD slot = true →
      (g.thread slot).links.length < 8 ∧ (g.thread slot).wbase + (g.thread slot).frame + 64 - (g.thread slot).rbase ≤ 128
    let badIn (t : Thread) : Prop := t.cdepth = 8191 ∨ 2 ^ 20 < t.wbase + t.frame + 64
    let does (i : Instr) (c : DWord) : Prop :=
      (bad → ∃ d, exec i s = .next (takeTrap s is 2 d) ∧ d.sub = causeWindow ∧ d.tinfo.toNat < 2 ^ 16 ∧
        ∀ slot, slot < 16 → (d.tinfo.getLsbD slot = true ↔ f.mask.getLsbD slot = true ∧ badIn (g.thread slot))) ∧
      (¬bad → spillStuck s g.core = true → exec i s = .next s) ∧
      (¬bad → spillStuck s g.core = false → still → ∃ t g', exec i s = .next (goTo t is c) ∧ t.group? is.gid = some g' ∧
        (∀ slot, slot < 16 → g'.thread slot = if f.mask.getLsbD slot then call (g.thread slot) else g.thread slot) ∧
        { g' with threads := g.threads } = g ∧ OnlyGroup s t is.gid) ∧
      (¬bad → spillStuck s g.core = false → (∀ slot ∈ slots, depthsBusy g slot (depths (g.thread slot).rbase (call (g.thread slot)).rbase) = false) →
        ∀ u ts, eachSlot (fun s slot => callThread s g slot next) s slots = (u, ts, []) → u.group? is.gid = some g →
          ∃ t g', exec i s = .next (goTo t is c) ∧ t.group? is.gid = some g' ∧
            (∀ slot, slot < 16 → g'.thread slot = if f.mask.getLsbD slot then call (g.thread slot) else g.thread slot) ∧
            { g' with threads := g.threads } = g ∧ OnlyGroup u t is.gid)
    ((∀ slot, slot < 16 → f.mask.getLsbD slot = true → runsIn g f gd slot = true) → does (.call gd disp) target) ∧
    ((∀ slot, slot < 16 → runsIn g f gd slot = false) → exec (.call gd disp) s = .next (goTo s is next)) ∧
    (uniformOn g ug = true → g.kbusy.getLsbD ka.toNat = false → (g.kr ka.toNat).toNat % 4 = 0 →
      canonical (g.kr ka.toNat) = true → does (.callk ka ug) (g.kr ka.toNat)) ∧
    (uniformOn g ug = false → exec (.callk ka ug) s = .next (advance s is 1)) ∧
    (uniformOn g ug = true → g.kbusy.getLsbD ka.toNat = false →
      ((g.kr ka.toNat).toNat % 4 ≠ 0 ∨ canonical (g.kr ka.toNat) = false) →
      exec (.callk ka ug) s = .next (takeTrap s is 2 ⟨causeOperand, 0, 0⟩))

/-- RET pops the newest link of each active thread: WBASE falls by the caller's FRAME, which becomes FRAME, and CDEPTH by one; when
all popped one return clause the fragment goes there, and when two sets popped different ones each goes on at its own as one
fragment. With CDEPTH 0 in any active thread, or a link whose FRAME fails the check of R18, it raises cause WINDOW, with the slots
that did in TINFO, and no thread acts. -/
def Sys2Proof.Claims.RetWord : Prop :=
  ∀ (s : State) (is : Issuer) (g : Group) (f : Frag) (a : DWord), Issues s is g f → g.wave = none → f.mask ≠ 0 →
    let active (slot : Nat) : Prop := slot < 16 ∧ f.mask.getLsbD slot = true
    let fc (t : Thread) : Nat := (t.links.getLastD 0).toNat / 2 ^ 57
    let wrong (t : Thread) : Prop := ¬(fc t % 8 = 0 ∧ 8 ≤ fc t ∧ fc t ≤ 64 ∧ fc t ≤ t.wbase)
    let refused (P : Thread → Prop) : Prop := ∃ d, exec .ret s = .next (takeTrap s is 2 d) ∧ d.sub = causeWindow ∧
      d.tinfo.toNat < 2 ^ 16 ∧ ∀ slot, slot < 16 → (d.tinfo.getLsbD slot = true ↔ active slot ∧ P (g.thread slot))
    ((∃ slot, active slot ∧ (g.thread slot).cdepth = 0) → refused fun t => t.cdepth = 0) ∧
    ((∀ slot, active slot → (g.thread slot).cdepth ≠ 0) → spillStuck s g.core = true → exec .ret s = .next s) ∧
    ((∀ slot, active slot → (g.thread slot).cdepth ≠ 0 ∧ (g.thread slot).links ≠ []) → spillStuck s g.core = false →
      ((∃ slot, active slot ∧ wrong (g.thread slot)) → refused wrong) ∧
      ((∀ slot, active slot → let t := g.thread slot
          ¬wrong t ∧ t.rbase ≤ t.wbase - fc t ∧ sext57 ((t.links.getLastD 0).toNat % 2 ^ 57) = a) →
        ∃ t g', exec .ret s = .next (settle (goTo t is a) is.gid) ∧ t.group? is.gid = some g' ∧
          (∀ slot, slot < 16 → g'.thread slot =
            let t := g.thread slot
            if f.mask.getLsbD slot then
              { t with links := t.links.dropLast, wbase := t.wbase - fc t, frame := fc t, cdepth := t.cdepth - 1 }
            else t) ∧
          { g' with threads := g.threads } = g ∧ OnlyGroup s t is.gid) ∧
      (∀ c : DWord, g.recs = Vector.replicate 16 none → g.jmask = 0 → g.spilled = [] → a ≠ c → ∀ e, e < 8 → e ≠ is.entry →
        g.freeEntry = some e → f.recx = 31 →
        (∀ slot, active slot → let t := g.thread slot
          ¬wrong t ∧ t.rbase ≤ t.wbase - fc t ∧ (sext57 ((t.links.getLastD 0).toNat % 2 ^ 57) = a ∨
            sext57 ((t.links.getLastD 0).toNat % 2 ^ 57) = c)) →
        let goes (x : DWord) (slot : Nat) : Prop := active slot ∧ sext57 (((g.thread slot).links.getLastD 0).toNat % 2 ^ 57) = x
        (∃ slot, goes a slot) → (∃ slot, goes c slot) →
        ∃ (t : State) (g' : Group) (m n : Mask) (i j : Nat), exec .ret s = .next t ∧ t.group? is.gid = some g' ∧
          ((i = is.entry ∧ j = e) ∨ (i = e ∧ j = is.entry)) ∧
          (∀ slot, slot < 16 → (m.getLsbD slot = true ↔ goes a slot) ∧ (n.getLsbD slot = true ↔ goes c slot)) ∧
          (g'.frag i).map (fun x => (x.mask, x.clause, x.word, x.recx)) = some (m, a, 0, 31) ∧
          (g'.frag j).map (fun x => (x.mask, x.clause, x.word, x.recx)) = some (n, c, 0, 31)))

/-- EXIT: the slots of the execution set join EXITED and leave every fragment; the others go on at the next clause; when all 16
have exited the group leaves its core, its spill window has free contents, and its team ends with its last group, once its posted
matrix entries have completed (R122, R137, R153, R183, R201). -/
def Obligations.ExitWord : Prop :=
  ∀ (gd : Guard) (s : State) (is : Issuer) (g : Group) (f : Frag), Issues s is g f → g.wave = none →
    (∀ i, g.rec? i = none) → g.jmask = 0 → g.spilled = [] → g.srwq = [] →
    let E (slot : Nat) : Bool := runsIn g f gd slot
    let next : DWord := f.clause + BitVec.ofNat 64 (4 * (f.count + 1))
    ((∀ slot, slot < 16 → E slot = false) → exec (.exit gd) s = .next (goTo s is next)) ∧
    ((∃ slot, slot < 16 ∧ E slot = true) → (∃ slot, slot < 16 ∧ f.mask.getLsbD slot = true ∧ E slot = false) →
      (∃ slot, slot < 16 ∧ g.exited.getLsbD slot = false ∧ E slot = false) →
      ∃ t g', exec (.exit gd) s = .next (goTo t is next) ∧ Becomes s t is.gid g' ∧
        { g' with exited := g.exited, frags := g.frags } = g ∧
        (∀ slot, slot < 16 → g'.exited.getLsbD slot = (g.exited.getLsbD slot || E slot)) ∧
        (∀ k, k < 8 → match g.frag k with
          | none => g'.frag k = none
          | some h =>
            ((∀ slot, slot < 16 → h.mask.getLsbD slot = true → E slot = true) → g'.frag k = none) ∧
            ((∃ slot, slot < 16 ∧ h.mask.getLsbD slot = true ∧ E slot = false) →
              ∃ m : Mask, g'.frag k = some { h with mask := m } ∧
                ∀ slot, slot < 16 → m.getLsbD slot = (h.mask.getLsbD slot && !E slot)))) ∧
    ((∃ slot, slot < 16 ∧ E slot = true) → (∀ slot, slot < 16 → g.exited.getLsbD slot = true ∨ E slot = true) →
      ∃ t, exec (.exit gd) s = .next t ∧ t.group? is.gid = none ∧ (∀ n, n ≠ is.gid → t.group? n = s.group? n) ∧
        (∀ tm, s.team? g.tid = some tm → (∀ x ∈ s.groups, x.tid = g.tid → x.gid = g.gid ∨ x.wave ≠ none) →
          (t.team? g.tid).map (·.st) = if ∃ c ∈ s.cores, ∃ e ∈ c.fifo, e.tid = g.tid then some tm.st else some .exited) ∧
        (∀ tid a, byteAt t (.shared tid a) = byteAt s (.shared tid a) ∧ byteAt t (.tile tid a) = byteAt s (.tile tid a)) ∧
        (∀ seg a, byteAt t (.scratch seg a) = byteAt s (.scratch seg a)) ∧
        ((((s.ctx? g.rank g.ctx).map (·.spstride)).getD 0) = 0 → ∀ p, (∀ c x a, p ≠ .spill c x a) → byteAt t p = byteAt s p))

/-- JOIN parks the fragment in the join register, or enters JOINWAIT while that holds another address (R118, R138). -/
def Sys2Proof.Claims.JoinParks : Prop :=
  ∀ (s : State) (is : Issuer) (g : Group) (f : Frag), Issues s is g f → g.wave = none → g.completeRec = none →
    g.spilled = [] →
    let a : DWord := BitVec.ofNat 64 (wordVa f.clause f.word % 2 ^ 57)
    let m := g.jmask ||| f.mask
    (g.jmask ≠ 0 → g.jaddr ≠ a → ∃ t, exec .join s = .next t ∧
      Becomes s t is.gid (g.modFrag is.entry fun f => { f with st := .joinwait })) ∧
    ((g.jmask = 0 ∨ g.jaddr = a) → (m = 0 ∨ m ||| g.exited ≠ 0xFFFF) → ∃ t, exec .join s = .next t ∧ Becomes s t is.gid
      { (g.parkSrw is.entry f).setFrag is.entry none with jaddr := a, jmask := m, jpc := f.after })

/-- JOIN completes when every slot is parked or has exited: the slots of the join register that have not exited go on at the next
word, one fragment for each CDEPTH among them, in a free entry; every record is gone, the join register is empty, and fragments in
JOINWAIT are READY (R118, R138). -/
def Sys2Proof.Claims.JoinCompletes : Prop :=
  ∀ (s : State) (is : Issuer) (g : Group) (f : Frag), Issues s is g f → is.entry < 8 → g.completeRec = none → g.spilled = [] →
    (g.jmask = 0 ∨ g.jaddr = BitVec.ofNat 64 (wordVa f.clause f.word % 2 ^ 57)) →
    let m := g.jmask ||| f.mask
    let on (slot : Nat) : Bool := decide (slot < 16) && m.getLsbD slot && !g.exited.getLsbD slot
    m ||| g.exited = 0xFFFF → m ≠ 0 → (∀ k, k ≠ is.entry → g.frag k = none) →
    (((List.range 16).filter on).map fun x => (g.thread x).cdepth).dedup.length ≤ 8 →
    ∃ t g', exec .join s = .next t ∧ t.group? is.gid = some g' ∧ g'.jmask = 0 ∧ (∀ i, g'.rec? i = none) ∧
      g'.threads = g.threads ∧ g'.k = g.k ∧ g'.q = g.q ∧ g'.t = g.t ∧ g'.exited = g.exited ∧ g'.spilled = [] ∧
      (∀ k h, g'.frag k = some h → ∃ slot, on slot = true ∧ h.mask.getLsbD slot = true) ∧
      (∀ slot, on slot = true → ∃ (k : Nat) (h : Frag), k < 8 ∧ g'.frag k = some h ∧
        (∀ y, y < 16 → (h.mask.getLsbD y = true ↔ on y = true ∧ (g.thread y).cdepth = (g.thread slot).cdepth)) ∧
        h.clause = f.after.clause ∧ h.word = f.after.word ∧ h.hdr = f.after.hdr ∧ h.recx = 31 ∧ h.st = .ready ∧ h.wait = none) ∧
      (∀ n, n ≠ is.gid → t.group? n = s.group? n) ∧ SameBytes s t

/-- What the fragment after a JOIN goes on with: the next word of its clause, or the clause that follows (R34, R138). -/
def Sys2Proof.Claims.AfterJoin : Prop :=
  ∀ f : Frag,
    (f.word + 1 < f.count → f.after = ⟨f.clause, f.word + 1, f.hdr⟩) ∧
    (f.count ≤ f.word + 1 → f.after = ⟨f.clause + BitVec.ofNat 64 (4 * (f.count + 1)), 0, none⟩)

/-! ### Barriers and the team -/

/-- The table of R149: what each event does to a barrier. -/
def Obligations.BarrierEvents : Prop :=
  ∀ (b : Barrier) (n m : Nat), b.count ≤ b.target →
    b.event (.init m) = { b with target := m, count := 0, pend := 0, broken := false } ∧
    (b.broken = true → b.event (.expect n) = b ∧ b.event (.deliver n) = b ∧ b.event .arrive = b) ∧
    (b.broken = false →
      (b.pend + n ≤ 2 ^ 39 - 1 → b.event (.expect n) = { b with pend := b.pend + n }) ∧
      (b.pend + n > 2 ^ 39 - 1 → b.event (.expect n) = { b with broken := true }) ∧
      (b.pend - n ≥ -(2 ^ 39) → (b.count < b.target ∨ b.pend - n > 0) → b.event (.deliver n) = { b with pend := b.pend - n }) ∧
      ((b.count = b.target ∧ b.pend - n < 0) ∨ b.pend - n < -(2 ^ 39) → b.event (.deliver n) = { b with broken := true }) ∧
      (b.count = b.target → b.pend - n = 0 →
        b.event (.deliver n) = { b with phase := !b.phase, count := 0, pend := 0 }) ∧
      (b.count + 1 < b.target → b.event .arrive = { b with count := b.count + 1 }) ∧
      (b.count + 1 = b.target → b.pend > 0 → b.event .arrive = { b with count := b.target }) ∧
      (b.count + 1 = b.target → b.pend < 0 → b.event .arrive = { b with broken := true }) ∧
      (b.count + 1 = b.target → b.pend = 0 → b.event .arrive = { b with phase := !b.phase, count := 0 }) ∧
      (b.count = b.target → b.event .arrive = { b with broken := true }))

/-- What an event of barrier b does to a fragment that waits on it with BARW: when the barrier breaks, the wait ends in the error, and
the group's seen bit stays; when a phase completes that the group has not seen, the wait is over and the seen bit takes PHASE;
an event that does neither changes nothing in the group (R149, R150). -/
def Sys2Proof.Claims.BarrierWaiters : Prop :=
  ∀ (g : Group) (b : BReg) (old new : Barrier) (e : Nat) (f : Frag) (kd : Option KReg), g.frag e = some f →
    f.wait = some (.barw kd b) →
    let h := g.barNotify b old new
    (new.broken = old.broken → new.phase = old.phase → h = g) ∧
    (old.broken = false → new.broken = true → h.seen = g.seen ∧ (h.frag e) = some { f with wait := some (.barOver kd b true) }) ∧
    (new.broken = old.broken → new.phase ≠ old.phase → g.seen.getLsbD b.toNat ≠ new.phase →
      (h.frag e) = some { f with wait := some (.barOver kd b false) } ∧ h.seen.getLsbD b.toNat = new.phase ∧
      ∀ c, c < 32 → c ≠ b.toNat → h.seen.getLsbD c = g.seen.getLsbD c)

/-- A phase completes once: an open barrier with nothing pending that expects n bytes, then receives its target of arrivals and then
deliveries that sum to n, flips PHASE exactly once and stands ready for the next phase; and with n greater than zero, before
the last byte it has not flipped (R149). -/
def Sys2Proof.Claims.BarrierPhase : Prop :=
  ∀ (b : Barrier) (n : Nat) (ds : List Nat), b.broken = false → b.count = 0 → b.pend = 0 → 1 ≤ b.target → n ≤ 2 ^ 39 - 1 →
    ds.sum = n →
    let arrived := (List.replicate b.target BEv.arrive).foldl Barrier.event (b.event (.expect n))
    (0 < n → arrived.phase = b.phase) ∧
    (ds.map BEv.deliver).foldl Barrier.event arrived = { b with phase := !b.phase }

/-- The barrier words make the events that R175 gives, each once, on a barrier of the issuing team: barinit, barx, barx.arr with its
expect before its arrival, and bara. A target outside 1 to 1,023 raises cause OPERAND. An arrival is a release: it waits
while a PUT, GET or path 6 word before it has not been performed. -/
def Sys2Proof.Claims.BarrierEventWords : Prop :=
  ∀ (b : BReg) (kb : KReg) (ug : UGuard) (s : State) (is : Issuer) (g : Group) (f : Frag) (tm : Team), Issues s is g f →
    g.wave = none → s.team? g.tid = some tm → uniformOn g ug = true → g.kbusy.getLsbD kb.toNat = false →
    let n := (g.kr kb.toNat).toNat
    let o := tm.bar b.toNat
    let makes (i : Instr) (new : Barrier) : Prop :=
      ∃ t, exec i s = .next (advance t is 1) ∧ BarrierBecomes s t g.tid tm b new
    let free : Prop := ∀ x ∈ g.flights, (x.path = 5 ∨ x.path = 6) → x.fmask &&& f.mask ≠ 0 → x.done = true
    (1 ≤ n → n ≤ 1023 → makes (.barinit b kb ug) (o.event (.init n))) ∧
    ((n = 0 ∨ 1023 < n) → exec (.barinit b kb ug) s = .next (takeTrap s is 2 ⟨causeOperand, 0, 0⟩)) ∧
    (n ≤ 2 ^ 39 - 1 → makes (.barx false b kb ug) (o.event (.expect n))) ∧
    (2 ^ 39 - 1 < n → o.broken = false → -(2 ^ 39) ≤ o.pend → makes (.barx false b kb ug) { o with broken := true }) ∧
    (free → n ≤ 2 ^ 39 - 1 → makes (.barx true b kb ug) ((o.event (.expect n)).event .arrive)) ∧
    (free → makes (.bara b ug) (o.event .arrive)) ∧
    (¬free → exec (.bara b ug) s = .next (block s is .scoreboard) ∧ exec (.barx true b kb ug) s = .next (block s is .scoreboard))

/-- BARW completes when PHASE differs from the group's seen bit, which then takes PHASE; it blocks until then; on a broken barrier
the status form writes ERROR, the barrier-overrun trap follows with the program counter at the next word, and the seen
bit is unchanged. BART reads the barrier, and never blocks or traps (R150, R175). -/
def Sys2Proof.Claims.BarrierWaitWords : Prop :=
  ∀ (kd : Option KReg) (d : KReg) (b : BReg) (ug : UGuard) (s : State) (is : Issuer) (g : Group) (f : Frag) (tm : Team),
    Issues s is g f → g.wave = none → s.team? g.tid = some tm → uniformOn g ug = true →
    (∀ k, kd = some k → g.kbusy.getLsbD k.toNat = false) → g.kbusy.getLsbD d.toNat = false →
    let o := tm.bar b.toNat
    let differs := o.phase != g.seen.getLsbD b.toNat
    let status (g : Group) (n : DWord) : Group := match kd with
      | none => g
      | some k => g.setBusyK k.toNat n
    (o.broken = false → differs = true → ∃ t g', exec (.barw kd b ug) s = .next (advance t is 1) ∧ Becomes s t is.gid g' ∧
      g' = status { g with seen := g'.seen } 0 ∧ g'.seen.getLsbD b.toNat = o.phase ∧
      ∀ c, c < 32 → c ≠ b.toNat → g'.seen.getLsbD c = g.seen.getLsbD c) ∧
    (o.broken = false → differs = false → exec (.barw kd b ug) s = .next (block s is (.barw kd b))) ∧
    (o.broken = true → ∃ t, Becomes s t is.gid (status g 8) ∧
      exec (.barw kd b ug) s = .next (takeTrap (passWord t is 1) is 8 ⟨0, BitVec.ofNat 64 (b.toNat * 2 ^ 21), 0⟩)) ∧
    (∃ t x, exec (.bart .word d b ug) s = .next (advance t is 1) ∧ Becomes s t is.gid (g.setK d.toNat x) ∧
      (o.count < 2 ^ 10 → o.target < 2 ^ 10 → -(2 ^ 39) ≤ o.pend → o.pend < 2 ^ 39 →
        (x.setWidth 40).toInt = o.pend ∧ x.toNat / 2 ^ 40 % 2 ^ 10 = o.count ∧ x.toNat / 2 ^ 50 % 2 ^ 10 = o.target ∧
        x.getLsbD 60 = o.phase ∧ x.getLsbD 61 = o.broken ∧ x.getLsbD 62 = false ∧ x.getLsbD 63 = false)) ∧
    (d.toNat < 4 → ∃ t, exec (.bart .q d b ug) s = .next (advance t is 1) ∧ Becomes s t is.gid (g.setQ d.toNat differs)) ∧
    (d.toNat < 4 → ∃ t g', exec (.bart .take d b ug) s = .next (advance t is 1) ∧ Becomes s t is.gid g' ∧
      g' = { g.setQ d.toNat differs with seen := g'.seen } ∧
      ∀ c, c < 32 → g'.seen.getLsbD c = if c = b.toNat then o.phase else g.seen.getLsbD c)

/-- LAUNCH makes its checks in the order of R176, and when all pass enters a child grid of the record's sizes, placed relative to
the leader's core, with the launching grid's depth + 1; k[KD] takes its handle, of a free child slot and the launch sequence
number, which then grows (R151, R152, R156, R176). -/
def Obligations.LaunchWord : Prop :=
  ∀ (kd ka : KReg) (ug : UGuard) (s : State) (is : Issuer) (g : Group) (f : Frag) (tm : Team) (gr : Grid) (p : Pkg),
    Issues s is g f → g.wave = none → s.team? g.tid = some tm → s.grid? g.grid = some gr → s.pkg? g.rank = some p →
    uniformOn g ug = true → g.kbusy.getLsbD kd.toNat = false → g.kbusy.getLsbD ka.toNat = false →
    let a := (g.kr ka.toNat).toNat
    let num (o n : Nat) : Nat := tm.shared.bytes.num (a + o) n
    let dx := toSigned 5 (num 0x1C 4 % 32)
    let dy := toSigned 4 (num 0x1C 4 / 2 ^ 5 % 16)
    let x0 : Int := g.core.col + dx
    let y0 : Int := g.core.row + dy
    let inside : Prop := num 0x1C 4 / 2 ^ 23 = 0 ∧ 0 ≤ y0 ∧ y0 + num 0x20 2 ≤ 8 ∧ 0 ≤ x0 ∧ x0 + num 0x22 2 ≤ 16
    let legal : Prop := num 0 8 % 4 = 0 ∧ num 0 8 < 2 ^ 57 ∧ 1 ≤ num 0x10 4 ∧ 1 ≤ num 0x14 4 ∧ 1 ≤ num 0x18 4 ∧
      num 0x10 4 * num 0x14 4 * num 0x18 4 ≤ 2 ^ 32 ∧ num 0x1C 4 / 2 ^ 11 % 2 ^ 12 = 0 ∧ 1 ≤ num 0x20 2 ∧ num 0x20 2 ≤ 8 ∧
      1 ≤ num 0x22 2 ∧ num 0x22 2 ≤ 16 ∧ 1 ≤ num 0x24 1 ∧ num 0x24 1 < 16 ∧ 1 ≤ num 0x25 1 ∧ num 0x25 1 ≤ 64 ∧
      num 0x26 1 ≤ 16 ∧ num 0x27 1 ≤ 7 ∧ num 0x28 1 ≤ 3 ∧ num 0x29 1 < 2 ∧ num 0x2A 2 ≤ 128 ∧ num 0x2C 4 = 0 ∧
      num 0x38 8 = 0
    let record : Prop := a % 16 = 0 ∧ a + 64 ≤ tm.holding * 4096 ∧ legal
    (g.num ≠ 0 → exec (.launch kd ka ug) s = .next (takeTrap s is 2 ⟨causeLeader, 0, 0⟩)) ∧
    (g.num = 0 → 10 ≤ gr.depth → exec (.launch kd ka ug) s = .next (takeTrap s is 4 ⟨0, 0, 0⟩)) ∧
    (g.num = 0 → gr.depth < 10 → ¬record → exec (.launch kd ka ug) s = .next (takeTrap s is 2 ⟨causeOperand, 0, 0⟩)) ∧
    (g.num = 0 → gr.depth < 10 → record → ¬inside → exec (.launch kd ka ug) s = .next (takeTrap s is 2 ⟨causePlace, 0, 0⟩)) ∧
    (g.num = 0 → gr.depth < 10 → record → inside → 4096 ≤ p.children.length →
      (∀ x ∈ g.flights, (x.path = 5 ∨ x.path = 6) → x.done = true) →
      exec (.launch kd ka ug) s = .next s) ∧
    (g.num = 0 → gr.depth < 10 → record → inside → (∃ x ∈ g.flights, (x.path = 5 ∨ x.path = 6) ∧ x.done = false) →
      exec (.launch kd ka ug) s = .next (block s is .scoreboard)) ∧
    (g.num = 0 → gr.depth < 10 → record → inside → p.children.length < 4096 →
      (∀ x ∈ g.flights, (x.path = 5 ∨ x.path = 6) → x.done = true) →
      ∃ (t : State) (c : Grid) (slot : Nat), exec (.launch kd ka ug) s = .next (advance t is 1) ∧
        t.group? is.gid = some (g.setBusyK kd.toNat (BitVec.ofNat 64 (slot + p.launchSeq % 2 ^ 52 * 2 ^ 12))) ∧
        slot < 4096 ∧ p.children.get slot = none ∧ t.grids = s.grids ++ [c] ∧ c.started = false ∧ c.depth = gr.depth + 1 ∧
        c.root = gr.root ∧ c.parent = some g.tid ∧ c.rank = g.rank ∧ c.ctx = g.ctx ∧ c.nx = num 0x10 4 ∧ c.ny = num 0x14 4 ∧
        c.nz = num 0x18 4 ∧ (c.row0 : Int) = y0 ∧ (c.col0 : Int) = x0 ∧ c.rows = num 0x20 2 ∧ c.cols = num 0x22 2 ∧
        c.groups = num 0x25 1 ∧ c.tiles = num 0x26 1 ∧ c.smem = num 0x2A 2 ∧ c.priority = num 0x27 1 ∧
        c.nbv = (if num 0x28 1 = 0 then g.nbv else num 0x28 1) ∧ c.seed.toNat = num 0x30 8 ∧ c.args.toNat = num 8 8 ∧
        (c.det = true ↔ num 0x29 1 = 1) ∧
        (∀ d, d ∈ c.dies ↔ ∃ j, j < 4 ∧ num 0x24 1 / 2 ^ j % 2 = 1 ∧ d = (g.core.die + num 0x1C 4 / 2 ^ 9 % 4 + j) % 4) ∧
        (t.pkg? g.rank).map (fun q => (q.launchSeq, q.children.get slot, q.childSeq.get slot)) =
          some (p.launchSeq + 1, some (c.id, p.launchSeq), some p.launchSeq) ∧
        (∀ n, n ≠ is.gid → t.group? n = s.group? n) ∧ t.teams = s.teams ∧ SameBytes s t)

/-- CWAIT: the .all form completes with OK when no child grid of the team is left and blocks until then; the handle form gives ERROR
at once for a sequence number never issued for the slot, blocks while the child is there, and gives OK once it has
retired (R177). TSET and TGET move halves of a tile register and check nothing (R180). -/
def Sys2Proof.Claims.ChildWaitAndTileWords : Prop :=
  ∀ (kd ka kb : KReg) (tn : XReg) (ug : UGuard) (s : State) (is : Issuer) (g : Group) (f : Frag) (p : Pkg), Issues s is g f →
    g.wave = none → s.pkg? g.rank = some p → uniformOn g ug = true → g.kbusy.getLsbD kd.toNat = false →
    g.kbusy.getLsbD ka.toNat = false → g.kbusy.getLsbD kb.toNat = false →
    let h := g.kr ka.toNat
    let slot := h.toNat % 2 ^ 12
    let n := h.toNat / 2 ^ 12
    let writes (i : Instr) (x : DWord) : Prop :=
      ∃ t, exec i s = .next (advance t is 1) ∧ Becomes s t is.gid (g.setBusyK kd.toNat x)
    let gets (i : Instr) (x : DWord) : Prop :=
      ∃ t, exec i s = .next (advance t is 1) ∧ Becomes s t is.gid (g.setK kd.toNat x)
    ((∀ c ∈ s.grids, c.parent ≠ some g.tid) → writes (.cwait kd none ug) 0) ∧
    ((∃ c ∈ s.grids, c.parent = some g.tid) → exec (.cwait kd none ug) s = .next (block s is (.cwait kd none))) ∧
    (p.childSeq.get slot = none → writes (.cwait kd (some ka) ug) 8) ∧
    (∀ last, p.childSeq.get slot = some last →
      (last < n → writes (.cwait kd (some ka) ug) 8) ∧ (n < last → writes (.cwait kd (some ka) ug) 0) ∧
      (n = last → p.children.get slot = none → writes (.cwait kd (some ka) ug) 0) ∧
      (n = last → p.children.get slot ≠ none →
        exec (.cwait kd (some ka) ug) s = .next (block s is (.cwait kd (some h))))) ∧
    (∃ t, exec (.tset tn ka kb ug) s = .next (advance t is 1) ∧
      Becomes s t is.gid { g with t := g.t.setIfInBounds tn.toNat ((g.kr kb.toNat).append (g.kr ka.toNat)) }) ∧
    gets (.tget kd tn false ug) ((g.tr tn).setWidth 64) ∧ gets (.tget kd tn true ug) ((g.tr tn >>> 64).setWidth 64)

/-- ACQ of nothing writes the top of the holding at once, a request beyond what the core has in all raises cause RESOURCE, and any
other joins the core's queue and blocks. REL of more than is held raises cause RESOURCE; otherwise it lowers the holding
from the top, where every byte then reads zero, and every byte below stays (R154, R178). -/
def Sys2Proof.Claims.ResourceWords : Prop :=
  ∀ (what : Res) (kd ka : KReg) (ug : UGuard) (s : State) (is : Issuer) (g : Group) (f : Frag) (tm : Team), Issues s is g f →
    g.wave = none → s.team? g.tid = some tm → uniformOn g ug = true → g.kbusy.getLsbD kd.toNat = false →
    g.kbusy.getLsbD ka.toNat = false →
    let n := (g.kr ka.toNat).toNat
    let all := match what with
      | .smem => 128
      | .tile => 16
    let has (t : Team) : Nat := match what with
      | .smem => t.holding
      | .tile => t.tiles
    let unit := match what with
      | .smem => 4096
      | .tile => 16384
    let top : DWord := BitVec.ofNat 64 (match what with
      | .smem => 4096 * tm.holding
      | .tile => tm.tiles)
    (n = 0 → has tm ≤ all →
      ∃ t, exec (.acq what kd ka ug) s = .next (advance t is 1) ∧ Becomes s t is.gid (g.setBusyK kd.toNat top)) ∧
    (all < has tm + n → exec (.acq what kd ka ug) s = .next (takeTrap s is 2 ⟨causeResource, 0, 0⟩)) ∧
    (n ≠ 0 → has tm + n ≤ all → ∃ t id, exec (.acq what kd ka ug) s = .next t ∧
      (t.core g.core).acqs = (s.core g.core).acqs ++ [⟨id, g.gid, is.entry, g.tid, what, n, kd⟩] ∧
      t.group? is.gid = some ((g.holdK kd.toNat).modFrag is.entry fun f => { f with st := .blocked, wait := some (.acq id kd) }) ∧
      t.teams = s.teams ∧ .event (.acqGrant g.core) ∈ t.agenda ∧ SameBytes s t) ∧
    (has tm < n → exec (.rel what ka ug) s = .next (takeTrap s is 2 ⟨causeResource, 0, 0⟩)) ∧
    (n ≤ has tm → relBusy s g tm what n = true → exec (.rel what ka ug) s = .next s) ∧
    (n ≤ has tm → relBusy s g tm what n = false → ∃ (t : State) (tm' : Team), exec (.rel what ka ug) s = .next (advance t is 1) ∧
      t.team? g.tid = some tm' ∧ has tm' = has tm - n ∧ OnlyTeam s t g.tid ∧ t.group? is.gid = some g ∧
      (let bytes (t : Team) : Mem := match what with
          | .smem => t.shared.bytes
          | .tile => t.acc.bytes
       ∀ a, (bytes tm').read a = if a < unit * (has tm - n) then (bytes tm).read a else 0) ∧
      (match what with
        | .smem => tm'.tiles = tm.tiles ∧ tm'.acc = tm.acc
        | .tile => tm'.holding = tm.holding ∧ tm'.shared = tm.shared) ∧ tm'.bars = tm.bars)

/-! ### System words and traps -/

/-- SRR gives each active thread its own value of the register in v, a pair for 64 bits, or with RK the value of the lowest active
slot in k. An index that names no register, and an odd v register for 64 bits, raise the illegal-instruction trap (R33,
R418). -/
def Sys2Proof.Claims.SystemReadWord : Prop :=
  ∀ (reg : BitVec 6) (idx : BitVec 12) (s : State) (is : Issuer) (g : Group) (f : Frag), Issues s is g f → g.wave = none →
    let r := reg.toNat
    let i := idx.toNat
    (∀ rk, sysWidth i = none → exec (.srr reg idx rk) s = .next (takeTrap s is 2 ⟨causeEncoding, 0, 0⟩)) ∧
    (r < 32 → sysWidth i ≠ none → g.kbusy.getLsbD r = false → ∃ t, exec (.srr reg idx true) s = .next (advance t is 1) ∧
      Becomes s t is.gid (g.setK r (sysRead s g i (lowest f.mask)))) ∧
    (sysWidth i = some 64 → r % 2 = 1 → exec (.srr reg idx false) s = .next (takeTrap s is 2 ⟨causeEncoding, 0, 0⟩)) ∧
    (∀ w, sysWidth i = some w → (w = 64 → r % 2 = 0) →
      (∀ slot, slot < 16 → f.mask.getLsbD slot = true →
        g.vbusy slot r = false ∧ (w = 64 → g.vbusy slot (r + 1) = false)) →
      ∃ t g', exec (.srr reg idx false) s = .next (advance t is 1) ∧ t.group? is.gid = some g' ∧
        (∀ slot, slot < 16 → g'.thread slot =
          let t := g.thread slot
          let x := sysRead s g i slot
          if f.mask.getLsbD slot then
            if w = 64 then (t.setV r (x.setWidth 32)).setV (r + 1) ((x >>> 32).setWidth 32) else t.setV r (x.setWidth 32)
          else t) ∧
        { g' with threads := g.threads } = g ∧ OnlyGroup s t is.gid)

/-- What system registers hold, as their layouts give it: the slot, group and team numbers, the global thread index of R30, NBV, CYC,
GTIME, the window state of R25 and the repeat state of R27. -/
def Sys2Proof.Claims.SystemRegisterValues : Prop :=
  ∀ (s : State) (g : Group) (tm : Team) (gr : Grid) (slot : Nat), slot < 16 → s.team? g.tid = some tm →
    s.grid? g.grid = some gr →
    let x (i : Nat) : DWord := sysRead s g i slot
    let t := g.thread slot
    (x 0x000).toNat = slot ∧ x 0x001 = BitVec.ofNat 64 g.num ∧ x 0x002 = BitVec.ofNat 64 tm.x ∧
    x 0x003 = BitVec.ofNat 64 tm.y ∧ x 0x004 = BitVec.ofNat 64 tm.z ∧
    x 0x005 = BitVec.ofNat 64 (((tm.x + gr.nx * (tm.y + gr.ny * tm.z)) * 64 + g.num) * 16 + slot) ∧
    x 0x006 = BitVec.ofNat 64 gr.depth ∧ x 0x010 = BitVec.ofNat 64 g.nbv ∧ x 0x013 = gr.seed ∧
    x 0x020 = BitVec.ofNat 64 s.cyc ∧ x 0x021 = BitVec.ofNat 64 g.gtime ∧ x 0x041 = g.wspb ∧
    (x 0x040).toNat % 2 ^ 20 = t.wbase % 2 ^ 20 ∧ (x 0x040).toNat / 2 ^ 20 % 2 ^ 20 = t.rbase % 2 ^ 20 ∧
    (x 0x040).toNat / 2 ^ 40 % 2 ^ 7 = t.frame % 2 ^ 7 ∧ (x 0x040).toNat / 2 ^ 47 % 2 ^ 4 = t.links.length % 2 ^ 4 ∧
    (x 0x040).toNat / 2 ^ 51 = t.cdepth % 2 ^ 13 ∧
    (x 0x042).toNat % 2 ^ 6 = g.reps.remain % 2 ^ 6 ∧ (x 0x042).toNat / 2 ^ 6 % 2 ^ 6 = g.reps.index % 2 ^ 6 ∧
    (x 0x042).getLsbD 12 = g.reps.stepb ∧ (x 0x042).getLsbD 13 = g.reps.stepa ∧ (x 0x042).getLsbD 14 = g.reps.stepd ∧
    (x 0x042).getLsbD 15 = g.reps.active ∧ (x 0x042).toNat < 2 ^ 16

/-- SRW queues its write, which takes effect when the fragment leaves the clause (R32, R418), so that the clause's own words still
see the old value; a register that a handler alone may write raises cause MODE outside trap mode, before any effect (R403). -/
def Sys2Proof.Claims.SystemWriteWord : Prop :=
  ∀ (reg : BitVec 6) (idx : BitVec 12) (s : State) (is : Issuer) (g : Group) (f : Frag), Issues s is g f → g.wave = none →
    reg.toNat < 32 → g.kbusy.getLsbD reg.toNat = false →
    let i := idx.toNat
    let user : Prop := i = 0x010 ∨ i = 0x022 ∨ i = 0x023 ∨ i = 0x024 ∨ i = 0x044
    let handler : Prop := i = 0x043 ∨ i = 0x045 ∨ (0x060 ≤ i ∧ i ≤ 0x065) ∨ (0x06C ≤ i ∧ i ≤ 0x06F) ∨ (0x100 ≤ i ∧ i ≤ 0x1FF)
    (user ∨ (handler ∧ g.trap.tmode = true) → ∃ t, exec (.srw reg idx true) s = .next (advance t is 1) ∧
      Becomes s t is.gid { g with srwq := g.srwq ++ [⟨is.entry, i, g.kr reg.toNat⟩] }) ∧
    (handler → g.trap.tmode = false → exec (.srw reg idx true) s = .next (takeTrap s is 2 ⟨causeMode, 0, 0⟩))

/-- What a system register write does when it takes effect: NBV ignores 0, RSTPT also copies RSEQ to RSTSEQ, TPEND clears the bits
written with 1, and each write changes its own register alone (R31, R403, R404). -/
def Sys2Proof.Claims.SystemWriteEffect : Prop :=
  ∀ (g : Group) (x : DWord),
    (x.toNat % 4 = 0 → g.writeSys 0x010 x = g) ∧ (x.toNat % 4 ≠ 0 → g.writeSys 0x010 x = { g with nbv := x.toNat % 4 }) ∧
    g.writeSys 0x022 x = { g with deadline := x.toNat } ∧ g.writeSys 0x023 x = { g with timer := x.toNat } ∧
    g.writeSys 0x024 x = { g with arithen := x.setWidth 5 } ∧
    g.writeSys 0x044 x = { g with rstpt := x &&& (2 ^ 57 - 1), rstseq := g.rseq } ∧
    g.writeSys 0x043 x = { g with rseq := x.setWidth 32 } ∧ g.writeSys 0x045 x = { g with rstseq := x.setWidth 32 } ∧
    (∀ i : Fin 4, (g.writeSys (0x06C + i.val) x).trap.tks[i] = x ∧
      { (g.writeSys (0x06C + i.val) x) with trap := { (g.writeSys (0x06C + i.val) x).trap with tks := g.trap.tks } } = g) ∧
    (∀ c, c < 16 → (g.writeSys 0x065 x).trap.tpend.getLsbD c =
      (g.trap.tpend.getLsbD c && !(decide (5 ≤ c) && x.getLsbD c)))

/-- The entry of a trap raised at the issue of a word (R401): TPC and TMASK describe the issuing fragment, TKS0 to TKS3 take k28 to
k31, which take the save addresses, TCAUSE and TPC; the tables and REPS are frozen, and the handler is one fragment of
every slot that has not exited at its entry of TRAPVEC. Every other register, predicate, window, link, random state and
barrier seen bit stays as it was, and so does every byte; a k register that the group's waits hold is free, as their words are
abandoned (R400). For a group with no load or GET in flight, which R405 would cancel.
In trap mode it is a double trap instead, and only stops the group (R402). -/
def Obligations.TrapEntry : Prop :=
  ∀ (s : State) (is : Issuer) (g : Group) (f : Frag) (tm : Team) (c : Ctx) (cls : Nat) (d : TrapD),
    s.group? is.gid = some g → g.frag is.entry = some f → g.wave = none →
    (g.trap.tmode = true →
      Becomes s (takeTrap s is cls d) is.gid { g with trap := { g.trap with faulted := true } }) ∧
    (g.trap.tmode = false → cls < 15 → d.sub < 16 → s.team? g.tid = some tm → s.ctx? g.rank g.ctx = some c →
      g.trap.raised = [] → (∀ x ∈ g.flights, x.kind ≠ .load ∧ x.kind ≠ .get) →
      let g0 := g.releaseWaits
      { g0 with kbusy := g.kbusy, frags := g.frags, spilled := g.spilled } = g ∧
      (∀ n, n < 32 → g0.kbusy.getLsbD n = (g.kbusy.getLsbD n && !(g.waits.filterMap Wait.kreg).contains n)) ∧
      ((g.waits.filterMap Wait.kreg) = [] → g0 = g) ∧
      ∃ g', (takeTrap s is cls d).group? is.gid = some g' ∧
        g'.trap.tmode = true ∧ g'.trap.cls = cls ∧ g'.trap.sub = d.sub ∧ g'.trap.tinfo = d.tinfo ∧ g'.trap.taddr = d.taddr ∧
        g'.trap.tpc.toNat = f.clause.toNat % 2 ^ 57 + f.word % 16 * 2 ^ 57 ∧ g'.trap.tmask = f.mask.setWidth 64 ∧
        g'.trap.tks = #v[g.kr 28, g.kr 29, g.kr 30, g.kr 31] ∧ g'.trap.trq = [] ∧ g'.trap.sel = 0 ∧
        g'.trap.frozen = some { frags := g0.frags, recs := g.recs, jaddr := g.jaddr, jmask := g.jmask, jpc := g.jpc
                                spilled := g0.spilled, reps := g.reps, srwq := g.srwq, entry := is.entry } ∧
        g'.trap.tpend = g.trap.tpend ∧ g'.trap.faulted = g.trap.faulted ∧
        g'.kr 28 = BitVec.ofNat 64 (c.csave + 2 ^ 14 * g.win) ∧
        g'.kr 29 = BitVec.ofNat 64 (cls + d.sub * 2 ^ 4) ∧ g'.kr 30 = g'.trap.tpc ∧
        g'.kr 31 = BitVec.ofNat 64 (c.tsave + 2 ^ 20 * tm.wins.headD g.win) ∧
        (∀ n, n < 28 → g'.kr n = g.kr n) ∧ g'.reps = Reps.zero ∧ g'.spilled = [] ∧ g'.jmask = 0 ∧ g'.srwq = [] ∧
        (∀ i, g'.rec? i = none) ∧
        g'.frag 0 = some { mask := ~~~g.exited, clause := BitVec.ofNat 64 (c.trapvec + 64 * cls), word := 0, recx := 31
                           st := .ready, age := 0, hdr := none, wait := none } ∧
        (∀ e, e ≠ 0 → g'.frag e = none) ∧
        g'.threads = g.threads ∧ g'.q = g.q ∧ g'.t = g.t ∧ g'.seen = g.seen ∧ g'.exited = g.exited ∧ g'.nbv = g.nbv ∧
        g'.timer = g.timer ∧ g'.deadline = g.deadline ∧ g'.gtime = g.gtime ∧ g'.arithen = g.arithen ∧ g'.rseq = g.rseq ∧
        g'.flights = g.flights ∧ g'.kbusy = g0.kbusy ∧
        (∀ n, n ≠ is.gid → (takeTrap s is cls d).group? n = s.group? n) ∧ (takeTrap s is cls d).teams = s.teams ∧
        SameBytes s (takeTrap s is cls d))

/-- TRAP raises the explicit trap, class 13, with the program counter at the word after it and its code in TINFO (R397, R419). The
words that are allowed only in trap mode raise cause MODE outside it (R399). -/
def Sys2Proof.Claims.TrapWordAndModes : Prop :=
  ∀ (c : BitVec 12) (m : BitVec 8) (ka : KReg) (s : State) (is : Issuer) (g : Group) (f : Frag), Issues s is g f →
    g.wave = none →
    exec (.trap c) s = .next (takeTrap (passWord s is 1) is 13 ⟨0, BitVec.ofNat 64 (c.toNat * 2 ^ 32), 0⟩) ∧
    (g.trap.tmode = false → ∀ i, (i = .reti ∨ i = .halt ∨ i = .rinj m ∨ i = .engs ka ∨ i = .engr ka) →
      exec i s = .next (takeTrap s is 2 ⟨causeMode, 0, 0⟩)) ∧
    (g.trap.tmode = true → ∃ t, exec (.rinj m) s = .next (advance t is 1) ∧
      Becomes s t is.gid { g with trap := { g.trap with sel := m &&& g.trap.validSel } } ∧
      ∀ e, e < 8 → (m &&& g.trap.validSel).getLsbD e = (m.getLsbD e && (g.trap.replay e).valid))

/-- RETI (R407): k28 to k31 take TKS0 to TKS3, the frozen table is reinstated without the slots that have exited, the interrupted
fragment goes on at TPC with the slots of TMASK, a fragment that was blocked issues its word again, and trap mode ends. For a
frozen table without records, parked or spilled fragments, no entry selected for replay, and a resident team. A handler
that is not one fragment of every slot that has not exited raises a double trap. -/
def Obligations.HandlerReturn : Prop :=
  ∀ (s : State) (is : Issuer) (g : Group) (f : Frag) (tm : Team) (z : Frozen), Issues s is g f → g.wave = none →
    g.trap.tmode = true → g.trap.frozen = some z →
    (f.mask ≠ ~~~g.exited → ∃ t, exec .reti s = .next t ∧
      Becomes s t is.gid { g with trap := { g.trap with faulted := true } }) ∧
    (f.mask = ~~~g.exited → (∀ e, e ≠ is.entry → g.frag e = none) → g.spilled = [] → g.jmask = 0 → g.srwq = [] →
      z.recs = Vector.replicate 16 none → z.jmask = 0 → z.spilled = [] → (∀ e, e < 8 → g.trap.sel.getLsbD e = false) →
      s.team? g.tid = some tm → tm.st = .resident → (∀ h ∈ s.groups, h.tid = g.tid → h.stopped = false) →
      ∃ t g', exec .reti s = .next t ∧ Becomes s { t with agenda := s.agenda } is.gid g' ∧
        (∀ i, i < 4 → g'.kr (28 + i) = g.trap.tks[i]?.getD 0) ∧ (∀ n, n < 28 → g'.kr n = g.kr n) ∧
        g'.trap.tmode = false ∧ g'.trap.frozen = none ∧ g'.trap.trq = [] ∧ g'.reps = z.reps ∧ g'.srwq = z.srwq ∧
        g'.threads = g.threads ∧ g'.q = g.q ∧ g'.t = g.t ∧ g'.seen = g.seen ∧ g'.exited = g.exited ∧
        ∀ e, e < 8 → match (z.frags[e]?).join with
          | none => g'.frag e = none
          | some h =>
            let m := (if e = z.entry then g.trap.tmask.setWidth 16 else h.mask) &&& ~~~g.exited
            if m = 0 then g'.frag e = none
            else ∃ h', g'.frag e = some h' ∧ h'.mask = m ∧ (h.st ≠ .joinwait → h.wait.any Wait.over = false → h'.st = .ready) ∧
              (e = z.entry → h'.clause.toNat % 2 ^ 57 = g.trap.tpc.toNat % 2 ^ 57 ∧
                h'.word = g.trap.tpc.toNat / 2 ^ 57 % 2 ^ 4) ∧
              (e ≠ z.entry → h'.clause = h.clause ∧ h'.word = h.word ∧ h'.hdr = h.hdr))

/-- IDLE blocks until an event of the group or 65,536 cycles later, and HALT in a handler of any class but 14 exits every slot of the
group (R421). -/
def Sys2Proof.Claims.IdleAndHalt : Prop :=
  ∀ (s : State) (is : Issuer) (g : Group) (f : Frag), Issues s is g f → g.wave = none →
    (∃ t, exec .idle s = .next t ∧ Becomes s { t with agenda := s.agenda } is.gid
      (g.modFrag is.entry fun f => { f with st := .blocked, wait := some (.idle s.cyc) }) ∧
      .event (.idleTimeout is.gid is.entry) ∈ t.agenda ∧ .event (.blockedWordComplete is.gid is.entry) ∈ t.agenda) ∧
    (g.trap.tmode = true → g.trap.cls ≠ 14 → (∀ i, g.rec? i = none) → g.jmask = 0 → g.spilled = [] →
      ∃ t, exec .halt s = .next t ∧ t.group? is.gid = none ∧ (∀ n, n ≠ is.gid → t.group? n = s.group? n))


/-! ### The matrix engine -/

/-- What an MMA captures and posts: for the fragment of all 16 slots, with the tile of z held, a descriptor of K rows in the
format's FMT, and no register that it reads pending (R186 to R188). -/
def Sys2Proof.Claims.MatrixMultiplyWords : Prop :=
  ∀ (z tb : XReg) (va : VReg) (scl : Option (VReg × BitVec 2)) (ru : Bool) (s : State) (is : Issuer) (g : Group) (f : Frag)
    (tm : Team), Issues s is g f → g.wave = none → s.team? g.tid = some tm →
    let d := tileOf (g.tr tb)
    let word (i : Instr) (fmt : MmaFmt) (k fmtCode regs : Nat) (scl : Option (VReg × BitVec 2)) : Prop :=
      let reads : List Nat := (List.range regs).map (va.toNat + ·) ++ match scl with
        | none => []
        | some (vs, _) => (List.range 5).map (vs.toNat + ·)
      let shape : Prop := MatrixTile d tm ∧ d.fmt = fmtCode ∧ (d.fmt = 6 → d.cols % 16 = 0) ∧ d.rows = k ∧ d.rowBytes ≤ d.pitch
      (f.mask ≠ 0xFFFF → exec i s = .next (takeTrap s is 3 ⟨0, 0, 0⟩)) ∧
      (f.mask = 0xFFFF → tm.tiles ≤ z.toNat → exec i s = .next (takeTrap s is 2 ⟨causeResource, 0, 0⟩)) ∧
      (f.mask = 0xFFFF → z.toNat < tm.tiles → ¬shape → exec i s = .next (takeTrap s is 2 ⟨causeTile, 0, 0⟩)) ∧
      (f.mask = 0xFFFF → z.toNat < tm.tiles → shape → (∀ slot, slot < 16 → ∀ n ∈ reads, g.vbusy slot n = false) →
        FifoRoom s g true → ∃ a ca cb bad,
          (∀ i r, i < 16 → r < regs → ((a : List (List Word)).getD i []).getD r 0 = (g.thread i).v (va.toNat + r)) ∧
          (∀ (vs : VReg) (sb : BitVec 2) (i : Nat), scl = some (vs, sb) → i < 16 → ca.getD i 0 =
            ((g.thread i).v (vs.toNat + 4)).toNat / 2 ^ (8 * sb.toNat) % 2 ^ 8) ∧
          (∀ (vs : VReg) (sb : BitVec 2) (c : Nat), scl = some (vs, sb) → c < d.cols → cb.getD c 0 =
            ((g.thread (c % 16)).v (vs.toNat + c / 64)).toNat / 2 ^ (8 * (c / 16 % 4)) % 2 ^ 8) ∧
          (bad = true ↔ ∃ slot n, slot < 16 ∧ n ∈ reads ∧ (g.thread slot).poisoned n = true) ∧
          Posts i s is g f (.mma fmt z.toNat (g.tr tb) g.nbv a ca cb scl.isSome bad) none true
            [⟨(0, g.tid), d.base / 256, (d.base + (d.rows - 1) * d.pitch + d.rowBytes - 1) / 256, false⟩])
    word (.mmaE4m3 z tb va scl ru) .e4m3 64 4 16 scl ∧ word (.mmaE5m2 z tb va scl ru) .e5m2 64 5 16 scl ∧
    word (.mmaL6 z tb va scl ru) .l6 64 6 12 scl ∧ word (.mmaI8 z tb va ru) .i8 64 7 16 none ∧
    word (.mmaBf16 z tb va ru) .bf16 32 2 16 none ∧ word (.mmaF16 z tb va ru) .f16 32 3 16 none

/-- MZERO, MLD, MST and MDRAIN post their entries, after the checks RESOURCE, TILE and, for AMX, OPERAND (R191 to R193); MRAMP sets
the ramp target of its core, 100 active cycles for each unit (R197). -/
def Sys2Proof.Claims.MatrixMoveWords : Prop :=
  ∀ (z ta : XReg) (c : Compl) (bar : Option BReg) (s : State) (is : Issuer) (g : Group) (f : Frag) (tm : Team),
    Issues s is g f → g.wave = none → s.team? g.tid = some tm →
    let q := g.tr ta
    let d := tileOf q
    let span (write : Bool) : List Span :=
      [⟨(0, g.tid), d.base / 256, (d.base + (d.rows - 1) * d.pitch + d.rowBytes - 1) / 256, write⟩]
    let good (fmts : List Nat) : Prop := MatrixTile d tm ∧ d.rows = 16 ∧ d.fmt ∈ fmts
    let checks (i : Instr) (fmts : List Nat) : Prop :=
      (tm.tiles ≤ z.toNat → exec i s = .next (takeTrap s is 2 ⟨causeResource, 0, 0⟩)) ∧
      (z.toNat < tm.tiles → ¬good fmts → exec i s = .next (takeTrap s is 2 ⟨causeTile, 0, 0⟩))
    (tm.tiles ≤ z.toNat → exec (.mzero z bar) s = .next (takeTrap s is 2 ⟨causeResource, 0, 0⟩)) ∧
    (z.toNat < tm.tiles → FifoRoom s g false → Posts (.mzero z bar) s is g f (.mzero z.toNat) bar false []) ∧
    checks (.mld z ta c) [1, 9, 10] ∧ checks (.mst ta z c) [1, 9, 10] ∧
    (z.toNat < tm.tiles → good [1, 9, 10] → FifoRoom s g c.foe →
      Posts (.mld z ta c) s is g f (.mld z.toNat q) c.bar c.foe (span false) ∧
      Posts (.mst ta z c) s is g f (.mst q z.toNat) c.bar c.foe (span true)) ∧
    (∀ (fmt : DrainFmt) (kx : Option XReg) (clr : Bool),
      let code := match fmt with
        | .f32 => 1
        | .bf16 => 2
        | .f16 => 3
        | .e4m3 => 4
        | .e5m2 => 5
      checks (.mdrain fmt ta z kx clr c) [code] ∧
      (z.toNat < tm.tiles → good [code] → (∀ k, kx = some k → g.kbusy.getLsbD k.toNat = false) →
        ((∃ k, kx = some k ∧ ((g.kr k.toNat).toNat % 4 ≠ 0 ∨ canonical (g.kr k.toNat) = false)) →
          exec (.mdrain fmt ta z kx clr c) s = .next (takeTrap s is 2 ⟨causeOperand, 0, 0⟩)) ∧
        ((∀ k, kx = some k → (g.kr k.toNat).toNat % 4 = 0 ∧ canonical (g.kr k.toNat) = true) → FifoRoom s g c.foe →
          Posts (.mdrain fmt ta z kx clr c) s is g f
            (.mdrain fmt q z.toNat (kx.map fun k => (g.kr k.toNat).toNat) clr) c.bar c.foe (span true)))) ∧
    (∀ (n : BitVec 5) (ug : UGuard), uniformOn g ug = true → ∃ t, exec (.mramp n ug) s = .next (advance t is 1) ∧
      t.core g.core = { s.core g.core with ramp := 100 * n.toNat, quiet := 0, began := true } ∧ t.agenda = s.agenda ∧
      t.group? is.gid = some g ∧ OnlyCore s t g.core is.gid)

/-- The oldest posted entry starts once no entry occupies the engine and none of its predecessors is in flight: it occupies the
engine for the cycles of R186 and R191; until then the start is tried again (R182, R190, R313). -/
def Sys2Proof.Claims.MatrixEntryStart : Prop :=
  ∀ (c : CoreId) (s : State) (e : MEntry),
    let k := s.core c
    let busy : Prop := ∃ x ∈ k.fifo, ∃ n, x.phase = .running n
    k.fifo.find? (fun e => e.phase == .posted) = some e →
    (busy ∨ (∃ p ∈ e.preds, inFlight s p = true) →
      exec (.matrixEntryStart c) s = .next { s with agenda := s.agenda ++ [.event (.matrixEntryStart c)] }) ∧
    (¬busy → (∀ p ∈ e.preds, inFlight s p = false) →
      ∃ t, exec (.matrixEntryStart c) s = .next t ∧
        t.core c = { k with began := true, fifo := k.fifo.map fun x =>
          if x.id = e.id then { x with phase := .running e.work.cycles } else x } ∧
        t.agenda = s.agenda ++ [.event (.matrixEntryComplete c), .event (.matrixEntryStart c)] ∧
        (∀ d, d ≠ c → t.core d = s.core d) ∧ { t with cores := s.cores, agenda := s.agenda } = s ∧ SameBytes s t)

/-- The engine cycles of an entry: one for each 16 columns of an MMA, or 32 under l6, 4 for MZERO, and two for each 16 columns of
the others (R186, R191). A cycle in which the entry that occupies the engine has room counts it down; its last cycle, cycle t, makes
it complete at t + 13 (R190). In each run of 8 cycles the engine works in at most 8 − STEP, STEP as it was at the start of the
run (R195), and in each window of 1,000 in at most 100 more than in the window before (R196). -/
def Sys2Proof.Claims.MatrixCycles : Prop :=
  (∀ f z q nbv a ca cb scl bad, (MWork.mma f z q nbv a ca cb scl bad).cycles =
    ((tileOf q).cols + (if f = .l6 then 31 else 15)) / (if f = .l6 then 32 else 16)) ∧
  (∀ z q, (MWork.mzero z).cycles = 4 ∧ (MWork.mld z q).cycles = 2 * (tileOf q).cols / 16 ∧
    (MWork.mst q z).cycles = 2 * (tileOf q).cols / 16) ∧
  (∀ f q z x clr, (MWork.mdrain f q z x clr).cycles = 2 * (tileOf q).cols / 16) ∧
  (∀ (k : Core) (t : Nat), let k' := k.cycle t
    (t % 8 = 0 → k'.rstep = k.step) ∧ (t % 8 ≠ 0 → k'.rstep = k.rstep) ∧
    (k.run ≤ 8 - k.rstep → k'.run ≤ 8 - k'.rstep) ∧
    (k.busy + k.fill ≤ k.active + 100 → k'.busy + k'.fill ≤ k'.active + 100) ∧ k'.active = k.active ∧
    k.busy + k.fill ≤ k'.busy + k'.fill ∧ k'.busy + k'.fill ≤ k.busy + k.fill + 1) ∧
  (∀ (k : Core) (t n : Nat) (e : MEntry) (pre post : List MEntry), k.fifo = pre ++ e :: post → e.phase = .running n →
    (∀ x ∈ pre, ∀ m, x.phase ≠ .running m) → k.busy + k.fill < k.active + 100 → t % 8 ≠ 0 → k.run < 8 - k.rstep →
    (k.cycle t).fifo = pre ++ { e with phase := if n ≤ 1 then .drained (t + 13) else .running (n - 1) } :: post)

/-- The effect of an entry at its completion, 13 cycles after its last engine cycle: MZERO zeroes its tile; MLD and MST move rows
between the tile and shared memory, and mdrain.f32 moves words out of it and may clear them; MMA.i8 adds the exact sums of signed
products modulo 2^32, and every word of the tile outside the region stays; then the entry leaves the FIFO and path 7 counts one
word less, and the barrier that it names arrives; a drain with AMX goes on with its merge (R83, R181, R183, R190, R192, R193). -/
def Sys2Proof.Claims.MatrixEntryComplete : Prop :=
  ∀ (c : CoreId) (s : State) (e : MEntry) (r : List MEntry) (n : Nat) (tm : Team) (g : Group),
    (s.core c).fifo = e :: r → e.phase = .drained n → n ≤ s.cyc → (∀ x ∈ r, x.id ≠ e.id) →
    s.team? e.tid = some tm → s.group? e.gid = some g → g.tid = e.tid → g.wave = none → memoriesOk s = true →
    let acts (t : State) (tm' : Team) : Prop :=
      t.team? e.tid = some tm' ∧ { tm' with shared := tm.shared, acc := tm.acc } = tm ∧
      (∀ d, d ≠ c → t.core d = s.core d) ∧ (∀ m, m ≠ e.gid → t.group? m = s.group? m) ∧
      (∀ m, m ≠ e.tid → t.team? m = s.team? m) ∧
      (∀ p, (∀ a, p ≠ .shared e.tid a ∧ p ≠ .tile e.tid a) → byteAt t p = byteAt s p)
    let done (t : State) (tm' : Team) : Prop :=
      exec (.matrixEntryComplete c) s = .next (match e.bar with
        | none => t
        | some b => engEvent t e.id false e.tid b .arrive) ∧
      (t.core c).fifo = r ∧ t.group? e.gid = some (g.ret e.seq) ∧
      { t with cores := s.cores, groups := s.groups, teams := s.teams } = s ∧ acts t tm'
    let drains (q : QWord) (z : Nat) (clr : Bool) (tm' : Team) : Prop :=
      let d := tileOf q
      d.rowBytes = 4 * d.cols → d.cols ≤ 256 → d.rowBytes ≤ d.pitch →
        (∀ i o, i < 16 → o < d.rowBytes →
          tm'.shared.bytes.read (d.base + i * d.pitch + o) = tm.acc.bytes.read (16384 * z + 1024 * i + o)) ∧
        (∀ a, (∀ i o, i < 16 → o < d.rowBytes → a ≠ d.base + i * d.pitch + o) →
          tm'.shared.bytes.read a = tm.shared.bytes.read a) ∧
        (clr = false → tm'.acc = tm.acc) ∧
        (clr = true → ∀ a, tm'.acc.bytes.read a =
          if (16384 * z ≤ a ∧ a < 16384 * (z + 1) ∧ (a - 16384 * z) % 1024 < 4 * d.cols) then 0 else tm.acc.bytes.read a)
    (∀ q z clr, e.work = .mdrain .f32 q z none clr → ∃ t tm', done t tm' ∧ drains q z clr tm') ∧
    (∀ q z x clr, e.work = .mdrain .f32 q z (some x) clr → ∃ t tm' m, exec (.matrixEntryComplete c) s = .next t ∧
      acts t tm' ∧ drains q z clr tm' ∧ (t.core c).fifo = { e with phase := .merging m n } :: r ∧
      t.group? e.gid = some g ∧ t.agenda = s.agenda ++ [.event (.drainMerge c)] ∧
      (∀ i col, i < 16 → col < (tileOf q).cols → (tm.acc.bytes.word (16384 * z + 1024 * i + 4 * col)).toNat % 2 ^ 31 ≤ m) ∧
      (m = 0 ∨ ∃ i col, i < 16 ∧ col < (tileOf q).cols ∧
        m = (tm.acc.bytes.word (16384 * z + 1024 * i + 4 * col)).toNat % 2 ^ 31)) ∧
    (∀ z, e.work = .mzero z → ∃ t tm', done t tm' ∧ tm'.shared = tm.shared ∧
      ∀ a, tm'.acc.bytes.read a = if 16384 * z ≤ a ∧ a < 16384 * (z + 1) then 0 else tm.acc.bytes.read a) ∧
    (∀ z q, e.work = .mld z q →
      let d := tileOf q
      d.rowBytes = 4 * d.cols → d.cols ≤ 256 → ∃ t tm', done t tm' ∧ tm'.shared = tm.shared ∧
        (∀ i o, i < 16 → o < d.rowBytes →
          tm'.acc.bytes.read (16384 * z + 1024 * i + o) = tm.shared.bytes.read (d.base + i * d.pitch + o)) ∧
        (∀ a, (∀ i o, i < 16 → o < d.rowBytes → a ≠ 16384 * z + 1024 * i + o) → tm'.acc.bytes.read a = tm.acc.bytes.read a)) ∧
    (∀ q z, e.work = .mst q z →
      let d := tileOf q
      d.rowBytes = 4 * d.cols → d.cols ≤ 256 → d.rowBytes ≤ d.pitch → ∃ t tm', done t tm' ∧ tm'.acc = tm.acc ∧
        (∀ i o, i < 16 → o < d.rowBytes →
          tm'.shared.bytes.read (d.base + i * d.pitch + o) = tm.acc.bytes.read (16384 * z + 1024 * i + o)) ∧
        (∀ a, (∀ i o, i < 16 → o < d.rowBytes → a ≠ d.base + i * d.pitch + o) →
          tm'.shared.bytes.read a = tm.shared.bytes.read a)) ∧
    (∀ z q nbv a ca cb scl bad, e.work = .mma .i8 z q nbv a ca cb scl bad →
      let d := tileOf q
      let x (i k : Nat) : Int := (BitVec.ofNat 8 (((a.getD i []).getD (k / 4) 0).toNat / 2 ^ (8 * (k % 4)))).toInt
      let y (k col : Nat) : Int := (tm.shared.bytes.read (d.base + k * d.pitch + col)).toInt
      d.rowBytes = d.cols → d.cols ≤ 256 → (∀ i, i < 16 → (a.getD i []).length = 16) →
        ∃ t tm', done t tm' ∧ tm'.shared = tm.shared ∧
        (∀ i col, i < 16 → col < d.cols → tm'.acc.bytes.word (16384 * z + 1024 * i + 4 * col) =
          tm.acc.bytes.word (16384 * z + 1024 * i + 4 * col) +
            BitVec.ofInt 32 ((List.range 64).map fun k => x i k * y k col).sum) ∧
        (∀ a, (∀ i col o, i < 16 → col < d.cols → o < 4 → a ≠ 16384 * z + 1024 * i + 4 * col + o) →
          tm'.acc.bytes.read a = tm.acc.bytes.read a))

/-- The sums of the floating-point MMA formats (R82 to R85): a chunk whose products are finite and not all zero is summed in units
of 2^lsb, each product truncated to them, where lsb is 20 − log2(n) places below the largest product (23 − log2(n) under NBV
3); a NaN, or infinities of both signs, make it NaN; and the sum is added to the accumulator word and rounded to nearest even. -/
def Obligations.MatrixSums : Prop :=
  (∀ (nbv : Nat) (ps : List Val), nbv < 4 →
    let n := if nbv = 1 then 8 else 16
    let w := if nbv = 3 then 25 else 22
    ((∃ p ∈ ps, p.isNan = true) ∨ (.inf true ∈ ps ∧ .inf false ∈ ps) → chunkSum nbv ps = .nan) ∧
    (∀ b, (∀ p ∈ ps, p.isNan = false) → .inf b ∈ ps → .inf (!b) ∉ ps → chunkSum nbv ps = .inf b) ∧
    ((∀ p ∈ ps, p.isNan = false ∧ p.isInf = false) → (∃ p ∈ ps, ratOf p ≠ 0) →
      ∃ (top lsb : Int) (x : Int), chunkSum nbv ps = .sum x lsb ∧ lsb = top - (w - 2 - Nat.log2 n : Int) ∧
        (∃ p ∈ ps, (2 : ℚ) ^ top ≤ |ratOf p|) ∧ (∀ p ∈ ps, |ratOf p| < (2 : ℚ) ^ (top + 1)) ∧
        x = (ps.map fun p => (if ratOf p < 0 then -1 else 1) * ⌊|ratOf p| / (2 : ℚ) ^ lsb⌋).sum) ∧
    ((∀ p ∈ ps, p.isNan = false ∧ p.isInf = false ∧ ratOf p = 0) → chunkSum nbv ps = .sum 0 0)) ∧
  (∀ (acc : Word) (x lsb : Int), (valOf .f32 acc.toNat).isNan = true ∨ (valOf .f32 acc.toNat).isInf = true ∨ x = 0 →
    accumulate acc none (.sum x lsb) = acc) ∧
  (∀ (acc : Word) (x lsb : Int), (valOf .f32 acc.toNat).isNan = false → (valOf .f32 acc.toNat).isInf = false → x ≠ 0 →
    ∃ v : Val, ratOf v = ratOf (valOf .f32 acc.toNat) + x * (2 : ℚ) ^ lsb ∧ v.isNan = false ∧ v.isInf = false ∧
      accumulate acc none (.sum x lsb) = BitVec.ofNat 32 (toFmt .f32 .rne v).1)

/-- DRAIN_MERGE performs the unsigned maximum of m and the word at the AMX address of the entry that has drained, at its home
slice, and the entry completes; a translation fault cancels it and becomes pending, class 5 (R193). RAMP_WINDOW_END ends a window
whose cycles are over and begins the next, RAMP_TARGET_EXPIRE lets the target of a core fall to 0 after 64 quiet windows (R196, R197), THROTTLE_WINDOW moves STEP by one (R446), and
ENERGY_UPDATE adds a free energy to each counter of a package (R447; log 3). -/
def Obligations.MatrixWindows : Prop :=
  (∀ (c : CoreId) (s : State) (e : MEntry) (r : List MEntry) (m n : Nat) (va : Nat), (s.core c).fifo = e :: r →
    e.phase = .merging m n → (∃ f q z clr, e.work = .mdrain f q z (some va) clr) →
    let ctx := (((s.team? e.tid).bind fun t => s.grid? t.grid).map (·.ctx)).getD 0
    (∀ u x, xlate s c.rank c.die ctx va .atomic = (u, .error x) →
      exec (.drainMerge c) s = .next (completeEntry (pendTrap u e.gid 5 ⟨x.cause, tinfoOf 0 0 0 x.level 0, BitVec.ofNat 64 va⟩) c e)) ∧
    (∀ u h v w b, xlate s c.rank c.die ctx va .atomic = (u, .ok h) → wordAt u h ctx va = (v, w, b) →
      (b = true → exec (.drainMerge c) s = .next (completeEntry v c e)) ∧
      (b = false → ∀ x, lineWrite v h ctx va ((bytesLE 4 (max m w.toNat)).map fun y => (y, false)) = some x →
        exec (.drainMerge c) s = .next (completeEntry x c e)))) ∧
  (∀ (c : CoreId) (s : State), (s.core c).ended = false → exec (.rampWindowEnd c) s = .next s) ∧
  (∀ (c : CoreId) (s : State), (s.core c).ended = true → (s.core c).lag = 0 → ∃ t, exec (.rampWindowEnd c) s = .next t ∧
    let k := s.core c
    let quiet := if k.began then 0 else min 127 (k.quiet + 1)
    t.core c = { k with active := k.busy + k.fill, busy := 0, fill := 0, quiet := quiet, began := false, ended := false } ∧
    (∀ d, d ≠ c → t.core d = s.core d) ∧ { t with cores := s.cores, agenda := s.agenda } = s ∧
    t.agenda = (if quiet = 64 ∧ k.ramp ≠ 0 then [.event (.rampTargetExpire c)] else []) ++ s.agenda) ∧
  (∀ (c : CoreId) (s : State), ∃ t, exec (.rampTargetExpire c) s = .next t ∧
    t.core c = { s.core c with ramp := if 64 ≤ (s.core c).quiet then 0 else (s.core c).ramp } ∧
    (∀ d, d ≠ c → t.core d = s.core d) ∧ { t with cores := s.cores } = s) ∧
  (∀ (c : CoreId) (temp droop : Bool) (s : State), (s.core c).step ≤ 7 →
    ∃ t, exec (.throttleWindow c temp droop) s = .next t ∧
    let k := s.core c
    let k' := t.core c
    k'.temp = temp ∧ k'.droop = droop ∧
    k'.step = (if temp || droop then min 7 (k.step + 1) else if 9 ≤ k.cool then k.step - 1 else k.step) ∧
    k'.thcyc = (if k.step = 0 then k.thcyc else (k.thcyc + 1000) % 2 ^ 32) ∧
    k'.cool = (if temp || droop || decide (9 ≤ k.cool) then 0 else k.cool + 1) ∧
    { k' with temp := k.temp, droop := k.droop, step := k.step, thcyc := k.thcyc, cool := k.cool } = k ∧
    (∀ d, d ≠ c → t.core d = s.core d) ∧ { t with cores := s.cores } = s) ∧
  (∀ (rank : Nat) (s : State) (p : Pkg), s.pkg? rank = some p → ∃ t, exec (.energyUpdate rank) s = .next t ∧
    t.pkg? rank = some { p with epkg := (p.epkg + Config.energy s.fresh) % 2 ^ 64 } ∧
    (∀ r, r ≠ rank → t.pkg? r = s.pkg? r) ∧
    (∀ c, c.rank ≠ rank → t.core c = s.core c) ∧ (∀ c, { t.core c with ecore := 0 } = { s.core c with ecore := 0 }) ∧
    (∀ n x, s.grid? n = some x → ∃ e, t.grid? n = some { x with egrid := e } ∧ (x.rank ≠ rank → e = x.egrid)) ∧
    { t with cores := s.cores, grids := s.grids, pkgs := s.pkgs, fresh := s.fresh } = s ∧ SameBytes s t)

/-! ### Memory words -/

/-- A byte written is read back, and the others stay; the bytes of a word lie little-endian; and writing the words' bytes keeps the
canonical form (R2). -/
def Sys2Proof.Claims.ByteOrder : Prop :=
  ∀ (m : Mem) (a x : Nat) (b : Byte) (bs : List Byte), m.wf = true →
    (m.write a b).read x = (if x = a then b else m.read x) ∧
    (m.writeL a bs).read x = (if a ≤ x ∧ x < a + bs.length then bs.getD (x - a) 0 else m.read x) ∧
    (m.write a b).wf = true ∧ (m.writeL a bs).wf = true ∧
    (m.word a).toNat = (m.read a).toNat + 2 ^ 8 * (m.read (a + 1)).toNat + 2 ^ 16 * (m.read (a + 2)).toNat +
      2 ^ 24 * (m.read (a + 3)).toNat ∧
    (∀ w : Word, (m.writeL a (wordBytes w)).word a = w) ∧
    (∀ n : Mem, n.wf = true → (∀ x, n.read x = m.read x) → n = m)

/-- The stages of a memory word's issue (R236): a word whose mask is empty moves on; a poisoned operand raises class 6; an access
outside its level raises class 5 with cause BOUNDS, then one that is not aligned to its width cause ALIGN, naming every slot
that fails the stage and the address of the lowest; then a slot without translation raises class 5; a word whose path counts
255 words waits (R51, R214, R416). -/
def Sys2Proof.Claims.AccessChecks : Prop :=
  ∀ (i : Instr) (a : Acc) (s : State) (is : Issuer) (g : Group) (f : Frag), accOf i = some a → Issues s is g f → g.wave = none →
    let len := match i with
      | .waitc .. | .comb .. => 2
      | _ => 1
    let run (slot : Nat) : Bool := accessing g f a slot
    let traps (cls sub : Nat) (bad : Nat → Prop) (addr : Nat → DWord) : Prop :=
      ∃ d, exec i s = .next (takeTrap s is cls d) ∧ d.sub = sub ∧
        (∀ slot, slot < 16 → (d.tinfo.getLsbD slot = true ↔ bad slot)) ∧
        (∀ slot, bad slot → (∀ r, r < slot → ¬bad r) → d.taddr = addr slot)
    ((∀ slot, slot < 16 → runsIn g f ⟨false, a.m.gp⟩ slot = false) → exec i s = .next (advance s is len)) ∧
    (MemReady g f a →
      ((∃ slot, run slot = true ∧ outside s g a (accAt g a slot)) →
        traps 5 7 (fun slot => run slot = true ∧ outside s g a (accAt g a slot)) (accAt g a)) ∧
      ((∃ slot, run slot = true ∧ (accAt g a slot).toNat % a.w ≠ 0) →
        (∀ slot, run slot = true → ¬outside s g a (accAt g a slot)) →
        traps 5 8 (fun slot => run slot = true ∧ (accAt g a slot).toNat % a.w ≠ 0) (accAt g a)) ∧
      (∀ (x : Nat → XFault) (bad : Nat → Prop), InPlace s g f a → a.path ≠ 1 → a.path ≠ 2 → (∃ slot, bad slot) →
        (∀ slot, bad slot → run slot = true) →
        (∀ slot, run slot = true → bad slot →
          xlate s g.rank g.core.die g.ctx (accVa g a (accAt g a slot)) a.op.access = (s, .error (x slot))) →
        (∀ slot, run slot = true → ¬bad slot →
          ∃ h, xlate s g.rank g.core.die g.ctx (accVa g a (accAt g a slot)) a.op.access = (s, .ok h)) →
        ∃ d, exec i s = .next (takeTrap s is 5 d) ∧ (∀ slot, slot < 16 → (d.tinfo.getLsbD slot = true ↔ bad slot)) ∧
          (∀ slot, bad slot → (∀ r, r < slot → ¬bad r) →
            d.sub = (x slot).cause ∧ d.taddr = BitVec.ofNat 64 (accVa g a (accAt g a slot)))) ∧
      (InPlace s g f a → a.path = 1 ∨ a.path = 2 → 255 ≤ g.path a.path → (∃ slot, run slot = true) → exec i s = .next s)) ∧
    ((∃ slot n, run slot = true ∧ n ∈ (if a.m.xi then [a.m.off.toNat] else []) ++ (List.range a.nsrc).map (a.d.toNat + ·) ∧
        (g.thread slot).poisoned n = true) → g.kbusy.getLsbD a.m.kbase.toNat = false → g.flights = [] → g.fenced = false →
      ∃ d, exec i s = .next (takeTrap s is 6 d))

/-- LDS and STS (R203, R239): a load takes, for every slot, the words at its address or poison, and changes no byte; a store
writes its data words; both go into flight and their reply is due. -/
def Sys2Proof.Claims.SharedMemoryWords : Prop :=
  ∀ (i : Instr) (a : Acc) (s : State) (is : Issuer) (g : Group) (f : Frag) (tm : Team), accOf i = some a → a.path = 1 →
    memoriesOk s = true → Issues s is g f → g.wave = none → s.team? g.tid = some tm → MemReady g f a → InPlace s g f a → g.path 1 < 255 →
    (∃ slot, accessing g f a slot = true) →
    ∃ t fl, exec i s = .next (advance t is 1) ∧ Flies t is g f a fl ∧
      t.agenda = s.agenda ++ [.event (.memoryReply is.gid g.nextSeq)] ∧
      (∀ n, n ≠ is.gid → t.group? n = s.group? n) ∧
      (a.op = .load →
        (∀ slot, accessing g f a slot = true →
          let x := (accAt g a slot).toNat
          fl.got.getD slot .pending = if tm.shared.bad 4 x a.w then .poison
            else .words ((List.range (a.w / 4)).map fun j => tm.shared.bytes.word (x + 4 * j))) ∧
        { t with groups := s.groups, agenda := s.agenda } = s ∧ SameBytes s t) ∧
      (a.op = .store → ∃ tm', t.team? g.tid = some tm' ∧ { tm' with shared := tm.shared } = tm ∧
        Stored g f a tm.shared.bytes tm'.shared.bytes ∧ (∀ n, n ≠ g.tid → t.team? n = s.team? n) ∧
        { t with groups := s.groups, teams := s.teams, agenda := s.agenda } = s ∧
        ∀ p, (∀ x, p ≠ .shared g.tid x) → byteAt t p = byteAt s p)

/-- LDX and STX (R206 to R211, R239): a load of a word that nothing has stored reads 0 and is counted in SPMODE, or is marked
uninitialised when SPMODE.TRAP is set; a store makes its words valid. -/
def Sys2Proof.Claims.ScratchpadWords : Prop :=
  ∀ (i : Instr) (a : Acc) (s : State) (is : Issuer) (g : Group) (f : Frag) (sg : Segment) (gr : Grid), accOf i = some a →
    a.path = 2 → memoriesOk s = true → Issues s is g f → g.wave = none → segOf s g.rank g.core.die g.grid = some sg →
    s.grid? (rootOf s g.grid) = some gr → MemReady g f a → InPlace s g f a → g.path 2 < 255 → gr.spCount < 2 ^ 32 →
    (∃ slot, accessing g f a slot = true) →
    let words (slot : Nat) : List Nat := (List.range (a.w / 4)).map fun j => (accAt g a slot).toNat / 4 + j
    let valid (w : Nat) : Bool := sg.valid.read w != 0
    ∃ t fl, exec i s = .next (advance t is 1) ∧ Flies t is g f a fl ∧
      t.agenda = s.agenda ++ [.event (.memoryReply is.gid g.nextSeq)] ∧ (∀ n, n ≠ is.gid → t.group? n = s.group? n) ∧
      (a.op = .load →
        (∀ slot, accessing g f a slot = true → fl.got.getD slot .pending =
          if (words slot).any fun w => valid w && sg.ram.bad 4 (4 * w) 4 then .poison
          else if gr.spTrap && (words slot).any fun w => !valid w then .uninit
          else .words ((words slot).map fun w => if valid w then sg.ram.bytes.word (4 * w) else 0)) ∧
        { t with groups := s.groups, agenda := s.agenda, grids := s.grids } = s ∧ SameBytes s t ∧
        (∀ n, n ≠ gr.id → t.grid? n = s.grid? n) ∧
        (gr.spTrap = true → t.grids = s.grids) ∧
        (gr.spTrap = false → ∃ gr', t.grid? gr.id = some gr' ∧
          gr'.spCount = min (2 ^ 32 - 1) (gr.spCount + (((List.range 16).filter (accessing g f a)).map fun slot =>
            ((words slot).filter fun w => !valid w).length).sum) ∧
          (gr.spCount ≠ 0 → gr'.spWord = gr.spWord ∧ gr'.spDie = gr.spDie) ∧
          { gr' with spCount := gr.spCount, spWord := gr.spWord, spDie := gr.spDie } = gr)) ∧
      (a.op = .store → ∃ sg', segOf t g.rank g.core.die g.grid = some sg' ∧
        { sg' with ram := sg.ram, valid := sg.valid } = sg ∧ Stored g f a sg.ram.bytes sg'.ram.bytes ∧
        (∀ w, sg'.valid.read w = if (List.range 16).any (fun slot => accessing g f a slot && (words slot).contains w) then 1
          else sg.valid.read w) ∧
        { t with groups := s.groups, segs := s.segs, agenda := s.agenda } = s ∧
        ∀ p, (∀ x, p ≠ .scratch sg.id x) → byteAt t p = byteAt s p)

/-- LDL and STL whose lines the core's spill buffer holds (R200, R201, R239): a load takes the bytes at WSPB plus its offset, and
a store writes them in the buffer alone. For accesses whose translations the die's TLB holds, or that it does not keep. -/
def Obligations.SpillStackWords : Prop :=
  ∀ (i : Instr) (a : Acc) (s : State) (is : Issuer) (g : Group) (f : Frag), accOf i = some a → a.path = 0 →
    Issues s is g f → g.wave = none → MemReady g f a → InPlace s g f a → g.path 0 < 255 → spillStuck s g.core = false →
    (∃ slot, accessing g f a slot = true) →
    let va (slot : Nat) : Nat := (((g.wspb.toNat : Int) + (accAt g a slot).toInt) % 2 ^ 64).toNat
    let line (s : State) (x : Nat) : Option SLine :=
      (s.core g.core).spill.find? fun l => l.ctx == g.ctx && l.va == x / 128 * 128
    (∀ slot, accessing g f a slot = true → (∃ h, xlate s g.rank g.core.die g.ctx (va slot) a.op.access = (s, .ok h)) ∧
      va slot % 128 + a.w ≤ 128 ∧ ∃ l, line s (va slot) = some l ∧ l.bytes.length = 128) →
    ∃ t fl, exec i s = .next (advance t is 1) ∧ Flies t is g f a fl ∧
      t.agenda = s.agenda ++ [.event (.memoryReply is.gid g.nextSeq)] ∧ (∀ n, n ≠ is.gid → t.group? n = s.group? n) ∧
      (a.op = .load →
        (∀ slot l, accessing g f a slot = true → line s (va slot) = some l → l.bad = [] →
          fl.got.getD slot .pending = .words ((List.range (a.w / 4)).map fun j =>
            BitVec.ofNat 32 (ofBytesLE ((List.range 4).map fun k => l.bytes.getD (va slot % 128 + 4 * j + k) 0)))) ∧
        { t with groups := s.groups, agenda := s.agenda } = s ∧ SameBytes s t) ∧
      (a.op = .store →
        (∀ slot, accessing g f a slot = true →
          (∀ r, slot < r → accessing g f a r = true → accAt g a r ≠ accAt g a slot) →
          ∃ l, line t (va slot) = some l ∧ l.dirty = true ∧ ∀ j k, j < a.w / 4 → k < 4 →
            l.bytes.getD (va slot % 128 + 4 * j + k) 0 =
              ((g.thread slot).v (a.d.toNat + j) >>> (8 * k)).setWidth 8) ∧
        (∀ c, c ≠ g.core → t.core c = s.core c) ∧
        { t.core g.core with spill := (s.core g.core).spill } = s.core g.core ∧
        { t with groups := s.groups, cores := s.cores, agenda := s.agenda } = s ∧
        ∀ p, (∀ slot k, accessing g f a slot = true → k < a.w → p ≠ .spill g.core g.ctx (va slot + k)) →
          byteAt t p = byteAt s p)

/-- PUT and GET (R217 to R219, R249, R250): neither changes a byte at issue. A PUT of one slot enters the line of the core's
write-combining buffer that its package, context and line name, or opens one; a GET with a local home is answered by a reply
that is due, from memory as it then is. For accesses whose translations the die's TLB holds, or that it does not keep. -/
def Sys2Proof.Claims.PutAndGetWords : Prop :=
  ∀ (i : Instr) (a : Acc) (s : State) (is : Issuer) (g : Group) (f : Frag) (h : Nat → Phys), accOf i = some a → a.path = 5 →
    Issues s is g f → g.wave = none → MemReady g f a → InPlace s g f a → g.path 5 < 255 →
    (∃ slot, accessing g f a slot = true) →
    (∀ slot, accessing g f a slot = true →
      xlate s g.rank g.core.die g.ctx (accAt g a slot).toNat a.op.access = (s, .ok (h slot))) →
    (∀ x ∈ g.flights, x.done = false → x.kind ≠ .get) →
    ∃ t fl, exec i s = .next (advance t is 1) ∧ Flies t is g f a fl ∧ SameBytes s t ∧
      (∀ n, n ≠ is.gid → t.group? n = s.group? n) ∧ (∀ c, c ≠ g.core → t.core c = s.core c) ∧
      { t.core g.core with wcb := (s.core g.core).wcb } = s.core g.core ∧
      t.teams = s.teams ∧ t.pkgs = s.pkgs ∧ t.segs = s.segs ∧ t.host = s.host ∧ t.ops = s.ops ∧ t.grids = s.grids ∧
      (a.op = .get → .event (.memoryReply is.gid g.nextSeq) ∈ t.agenda ∧ fl.lines = []) ∧
      (∀ slot, a.op = .put → accessing g f a slot = true → (∀ r, accessing g f a r = true → r = slot) →
        inWindow (h slot).tgt (h slot).pa = false →
        let va := (accAt g a slot).toNat
        let byte (k : Nat) : Byte := ((g.thread slot).v a.d.toNat >>> (8 * k)).setWidth 8
        let wcb := (s.core g.core).wcb
        let mine (l : WLine) : Bool := l.dest == (h slot).home && l.ctx == g.ctx && l.va == va / 256 * 256
        (wcb.find? mine = none → wcb.length < 64 →
          (t.core g.core).wcb = wcb ++ [{ id := s.fresh, dest := (h slot).home, ctx := g.ctx, va := va / 256 * 256
                                          bytes := [3, 2, 1, 0].map fun k => (va % 256 + k, byte k)
                                          last := [(is.gid, g.nextSeq)], since := s.cyc }] ∧
          t.fab = s.fab ∧ fl.lines = [s.fresh]) ∧
        (∀ l, wcb.find? mine = some l → l.bytes.length < 252 → ∃ l', l'.id = l.id ∧ l'.dest = l.dest ∧ l'.ctx = l.ctx ∧
          l'.va = l.va ∧ l'.since = l.since ∧ l'.last.get is.gid = some g.nextSeq ∧
          (∀ o, l'.bytes.get o = if va % 256 ≤ o ∧ o < va % 256 + 4 then some (byte (o - va % 256)) else l.bytes.get o) ∧
          (t.core g.core).wcb = wcb.map (fun x => if x.id = l.id then l' else x) ∧ t.fab = s.fab ∧ fl.lines = [l.id]))

/-- The path 6 words (R256 to R262, R283): with local homes, each slot's request joins the input queue of the home slice of its
line, in the order of the slots, with what it asks for and its data; nothing else changes. For accesses whose translations
the die's TLB holds, or that it does not keep, and for queues with room for them and a group with no request on its way. -/
def Sys2Proof.Claims.AtomicRequests : Prop :=
  ∀ (i : Instr) (a : Acc) (s : State) (is : Issuer) (g : Group) (f : Frag) (p : Pkg), accOf i = some a → a.path = 6 →
    Issues s is g f → g.wave = none → MemReady g f a → InPlace s g f a → g.path 6 < 255 → s.pkg? g.rank = some p →
    (∃ slot, accessing g f a slot = true) →
    (∀ slot, accessing g f a slot = true →
      ∃ h, xlate s g.rank g.core.die g.ctx (accAt g a slot).toNat a.op.access = (s, .ok h) ∧ h.home = g.rank) →
    (∀ n, (s.slice ⟨g.rank, n⟩).queue.length ≤ 496) → (∀ x ∈ s.fab.reqs, x.req.gid ≠ g.gid) →
    let len := match i with
      | .waitc .. | .comb .. => 2
      | _ => 1
    let data (slot : Nat) : List Word := (List.range a.nsrc).map fun j => (g.thread slot).v (a.d.toNat + j)
    let asks (k : ReqKind) (ws : List Word) : Prop := match i with
      | .atomAddI32 .. => k = .atom .addI32 ws
      | .atomAddF32 .. => k = .atom .addF32 ws
      | .atomMinI32 .. => k = .atom .minI32 ws
      | .atomMaxI32 .. => k = .atom .maxI32 ws
      | .atomMinN32 .. => k = .atom .minN32 ws
      | .atomMaxN32 .. => k = .atom .maxN32 ws
      | .atomAnd .. => k = .atom .and ws
      | .atomOr .. => k = .atom .or ws
      | .atomXor .. => k = .atom .xor ws
      | .atomXchg .. => k = .atom .xchg ws
      | .cas .. => k = .atom .cas ws
      | .casgt .. => k = .atom .casgt ws
      | .casv .. => k = .atom .casv ws
      | .caspt .. => k = .atom .caspt ws
      | .waitc _ _ x => k = .waitc (x.toNat % 8) (x.getLsbD 3) (x.toNat / 2 ^ 4 % 2 ^ 12) (ws.getD 0 0) (ws.getD 1 0)
      | .comb _ _ x => k = .comb (x.toNat % 2 ^ 6) ((ws.getD 1 0).append (ws.getD 0 0))
      | _ => False
    ∃ (t : State) (fl : Flight) (reqs : List Req), exec i s = .next (advance t is len) ∧ Flies t is g f a fl ∧
      reqs.map (·.slot) = (List.range 16).filter (accessing g f a) ∧
      (∀ r ∈ reqs, r.gid = is.gid ∧ r.seq = g.nextSeq ∧ r.ctx = g.ctx ∧ r.home = g.rank ∧
        r.va = (accAt g a r.slot).toNat ∧ asks r.kind (data r.slot)) ∧
      (∀ n, (t.slice ⟨g.rank, n⟩).queue = (s.slice ⟨g.rank, n⟩).queue ++ reqs.filter fun r => sliceOf r.va == n) ∧
      (∀ n, { t.slice ⟨g.rank, n⟩ with queue := [] } = { s.slice ⟨g.rank, n⟩ with queue := [] }) ∧
      (∃ p', t.pkg? g.rank = some p' ∧ { p' with slices := p.slices } = p) ∧ (∀ r, r ≠ g.rank → t.pkg? r = s.pkg? r) ∧
      (∀ n, n ≠ is.gid → t.group? n = s.group? n) ∧
      { t with groups := s.groups, pkgs := s.pkgs, agenda := s.agenda, fresh := s.fresh } = s ∧ SameBytes s t

/-- A memory word of paths 1, 2, 5 and 6 whose accesses are in place and are translated goes into flight and its fragment goes on,
whatever the homes of the accesses and whatever its translations bring into the TLB (R214, R236); one of path 0 does so too,
whether or not the spill buffer holds its lines, unless that is full of lines that cannot leave. A PUT waits for a GET of its
group. -/
def Sys2Proof.Claims.MemoryWordsComplete : Prop :=
  ∀ (i : Instr) (a : Acc) (s u : State) (is : Issuer) (g : Group) (f : Frag) (addrs : List DWord) (hs : List (Nat × Phys)),
    accOf i = some a → Issues s is g f → g.wave = none → MemReady g f a → InPlace s g f a → g.path a.path < 255 →
    (∃ slot, accessing g f a slot = true) →
    (∀ slot, accessing g f a slot = true → addrs.getD slot 0 = accAt g a slot) →
    (a.path ≠ 1 → a.path ≠ 2 → accXlate s g a addrs ((List.range 16).filter (accessing g f a)) = (u, hs, [])) →
    (a.path = 0 → spillStuck u g.core = false) → (∀ x ∈ g.flights, x.done = false → x.kind ≠ .get) →
    let len := match i with
      | .waitc .. | .comb .. => 2
      | _ => 1
    ∃ t g', exec i s = .next (advance t is len) ∧ t.group? is.gid = some g' ∧ g'.nextSeq = g.nextSeq + 1 ∧
      g'.threads = g.threads ∧ g'.k = g.k ∧ g'.q = g.q ∧ g'.frags = g.frags ∧ g'.trap = g.trap ∧
      (∃ fl ∈ g'.flights, fl.seq = g.nextSeq ∧ fl.path = a.path ∧ fl.kind = a.op.kind ∧ fl.done = false) ∧
      t.teams.map (·.tid) = s.teams.map (·.tid) ∧ t.ops = s.ops ∧ t.cyc = s.cyc

/-! ### Waits, fences and flushes -/

/-- WAITP, FENCE and AFENCE (R218, R251 to R253, R267, R268): each drains the group's lines, WAITP for path 5 alone; WAITP completes
when its path counts no more than the threshold. A release or full fence completes once every PUT, GET and path 6 word of the group
has been performed, an acquire fence once every GET and path 6 word has been answered, and one of thread scope at once; AFENCE,
after the same as a full fence, also writes the context's lines back from every memory-side cache and drops them. A word of the
memory class waits at issue while a fence of its group is under way. -/
def Sys2Proof.Claims.FenceAndWaitWords : Prop :=
  ∀ (p : BitVec 3) (ka : KReg) (k : FenceKind) (sc : Scope) (ug : UGuard) (s : State) (is : Issuer) (g : Group) (f : Frag),
    Issues s is g f → g.wave = none → uniformOn g ug = true →
    let mine (l : WLine) : Bool := (l.last.get g.gid).isSome
    let thr := (g.kr ka.toNat).toNat
    let open_ (k : FenceKind) : Prop := ∃ x ∈ g.flights, x.done = false ∧ x.seq < g.nextSeq ∧
      (x.kind = .get ∨ x.path = 6 ∨ (k ≠ .acq ∧ x.kind = .put))
    (g.fenced = true → exec (.fence k sc ug) s = .next s ∧ exec (.afence ug) s = .next s ∧
      (g.kbusy.getLsbD ka.toNat = false → exec (.waitp p ka ug) s = .next s)) ∧
    (g.fenced = false → g.kbusy.getLsbD ka.toNat = false → p ≠ 5 →
      (g.path p.toNat ≤ thr → exec (.waitp p ka ug) s = .next (advance s is 1)) ∧
      (thr < g.path p.toNat → exec (.waitp p ka ug) s = .next (block s is (.waitp p.toNat thr)))) ∧
    (g.fenced = false → g.kbusy.getLsbD ka.toNat = false → p = 5 → ∃ u, Drains s u g.core mine ∧
      (g.path 5 ≤ thr → exec (.waitp p ka ug) s = .next (advance u is 1)) ∧
      (thr < g.path 5 → exec (.waitp p ka ug) s = .next (block u is (.waitp 5 thr)))) ∧
    (g.fenced = false → ∃ u, Drains s u g.core mine ∧
      (sc = .thread → exec (.fence k sc ug) s = .next (advance u is 1)) ∧
      (sc ≠ .thread → ¬open_ k → ∃ v, exec (.fence k sc ug) s = .next (advance v is 1) ∧
        v.group? is.gid = some g.wakeScore ∧ { v with groups := u.groups } = u) ∧
      (sc ≠ .thread → open_ k → exec (.fence k sc ug) s = .next (block u is (.fence k g.nextSeq)))) ∧
    (g.fenced = false → ∃ u, Drains s u g.core mine ∧ (open_ .full → exec (.afence ug) s = .next (block u is (.afence g.nextSeq))) ∧
      (¬open_ .full → ∃ v, exec (.afence ug) s = .next (advance v is 1) ∧ v.group? is.gid = some g.wakeScore ∧
        (∀ q ∈ v.pkgs, ∀ c ∈ q.cache, c.ctx ≠ g.ctx) ∧ v.teams = s.teams ∧ v.segs = s.segs ∧ v.ops = s.ops ∧
        (∀ q ∈ s.pkgs, ∀ c ∈ q.cache, c.ctx ≠ g.ctx → ∃ q' ∈ v.pkgs, q'.rank = q.rank ∧ c ∈ q'.cache) ∧
        (∀ r q c, s.pkg? r = some q → c ∈ q.cache → c.ctx = g.ctx → c.tgt = 0 → (∀ n, n < 256 → inWindow 0 (c.pa + n) = false) →
          (∀ d ∈ q.cache, d.bytes.length = 256) → memoriesOk s = true →
          (∀ d ∈ q.cache, d.ctx = g.ctx → d.dirty ≠ 0 → d = c ∨ d.tgt ≠ 0 ∨ d.pa + 256 ≤ c.pa ∨ c.pa + 256 ≤ d.pa) →
          ∀ n, n < 256 → byteAt v (.hbm r (c.pa + n)) =
            if c.dirty.getLsbD n then some (c.bytes.getD n 0) else byteAt s (.hbm r (c.pa + n)))))

/-- HFLUSH (R254): a length beyond 2^40 raises cause OPERAND, an address that is not canonical a translation fault of cause 5,
and a length of 0 does nothing; otherwise, once the group's own bytes in the range widened to whole lines have been applied,
.wb leaves every line of the range clean in every memory-side cache, .wbinv leaves none of them, and .inv drops the clean
ones and no other. -/
def Sys2Proof.Claims.FlushWord : Prop :=
  ∀ (k : FlushKind) (ka kb : KReg) (ug : UGuard) (s : State) (is : Issuer) (g : Group) (f : Frag),
    Issues s is g f → g.wave = none → uniformOn g ug = true → g.kbusy.getLsbD ka.toNat = false →
    g.kbusy.getLsbD kb.toNat = false → g.fenced = false →
    let a := g.kr ka.toNat
    let n := (g.kr kb.toNat).toNat
    let lo := a.toNat / 256 * 256
    let hi := (a.toNat + n + 255) / 256 * 256
    let hit (c : CLine) : Prop := c.ctx = g.ctx ∧ lo < c.va + 256 ∧ c.va < hi
    let mine (l : WLine) : Bool := l.ctx == g.ctx && l.va + 256 > lo && l.va < hi && (l.last.get g.gid).isSome
    (2 ^ 40 < n → exec (.hflush k ka kb ug) s = .next (takeTrap s is 2 ⟨causeOperand, 0, 0⟩)) ∧
    (n ≤ 2 ^ 40 → canonical a = false → exec (.hflush k ka kb ug) s =
      .next (takeTrap s is 5 ⟨5, BitVec.ofNat 64 (6 * 2 ^ 26), a⟩)) ∧
    (n = 0 → canonical a = true → exec (.hflush k ka kb ug) s = .next (advance s is 1)) ∧
    (0 < n → n ≤ 2 ^ 40 → canonical a = true →
      (k = .inv → ∃ v, exec (.hflush k ka kb ug) s = .next (advance v is 1) ∧
        (∀ q ∈ v.pkgs, ∀ c ∈ q.cache, hit c → c.dirty ≠ 0) ∧
        (∀ q ∈ s.pkgs, ∀ c ∈ q.cache, ¬hit c ∨ c.dirty ≠ 0 → ∃ q' ∈ v.pkgs, q'.rank = q.rank ∧ c ∈ q'.cache) ∧
        { v with pkgs := s.pkgs } = s ∧ ∀ p, (∀ r x y, p ≠ .cached r x y) → byteAt v p = byteAt s p) ∧
      (k ≠ .inv → ∃ u, Drains s u g.core mine ∧
        (rangePending u g lo (hi - lo) = true → exec (.hflush k ka kb ug) s = .next (block u is (.hflush k lo (hi - lo)))) ∧
        (rangePending u g lo (hi - lo) = false → ∃ v, exec (.hflush k ka kb ug) s = .next (advance v is 1) ∧
          (k = .wbinv → ∀ q ∈ v.pkgs, ∀ c ∈ q.cache, ¬hit c) ∧
          (k = .wb → ∀ q ∈ v.pkgs, ∀ c ∈ q.cache, hit c → c.dirty = 0) ∧
          (k = .wb → ∀ q ∈ s.pkgs, ∀ c ∈ q.cache, ∃ q' ∈ v.pkgs, q'.rank = q.rank ∧
            ∃ d ∈ q'.cache, { d with dirty := c.dirty } = c) ∧
          v.groups = s.groups ∧ v.teams = s.teams ∧ v.segs = s.segs ∧ v.ops = s.ops)))

/-- DWFENCE waits for the group's path 6 words, and METHREG checks its entry; each then blocks until every home slice that it
names has acknowledged (R255, R261). DWFENCE_SLICE_CLOSE and METHREG_SLICE_UPDATE are one slice's part: the method table
takes or loses the entry, and the slice is ticked off. -/
def Sys2Proof.Claims.SliceFences : Prop :=
  (∀ (ka : KReg) (x : Word) (ug : UGuard) (s : State) (is : Issuer) (g : Group) (f : Frag), Issues s is g f → g.wave = none →
    uniformOn g ug = true → g.fenced = false →
    (∀ gr, s.grid? g.grid = some gr → gr.det = false →
      ((∃ y ∈ g.flights, y.done = false ∧ y.path = 6) → exec (.dwfence ug) s = .next (block s is .dwenter)) ∧
      ((∀ y ∈ g.flights, y.done = false → y.path ≠ 6) → exec (.dwfence ug) s = .next (advance s is 1))) ∧
    (∀ gr, s.grid? g.grid = some gr → gr.det = true →
      (entering s g.gid = true → exec (.dwfence ug) s = .next (block s is .dwenter)) ∧
      (entering s g.gid = false → ∃ t w, exec (.dwfence ug) s = .next t ∧ t.sliceWaits = s.sliceWaits ++ [w] ∧
        w.id = s.fresh ∧ w.gid = g.gid ∧ w.grid = gr.id ∧
        (∀ r n, n < 128 → (⟨r, n⟩ ∈ w.slices ↔ r = g.rank ∨ (r ∈ gr.peers ∧ r ≠ g.rank ∧ (s.pkg? r).isSome = true))) ∧
        t.group? is.gid = some (g.modFrag is.entry fun f => { f with st := .blocked, wait := some (.dwfence s.fresh) }) ∧
        (∀ sl ∈ w.slices, .event (.dwfenceSliceClose s.fresh sl) ∈ t.agenda) ∧ t.pkgs = s.pkgs ∧ SameBytes s t)) ∧
    (g.kbusy.getLsbD ka.toNat = false →
      let a := g.kr ka.toNat
      let size := x.toNat / 2 ^ 6 % 2 ^ 5
      let bad : Prop := x.getLsbD 11 = false ∧ (headerAddr a = false ∨ size = 0 ∨ 16 < size)
      (bad → exec (.methreg ka x ug) s = .next (takeTrap s is 2 ⟨causeOperand, 0, 0⟩)) ∧
      (¬bad → ∃ t w, exec (.methreg ka x ug) s = .next t ∧ t.sliceWaits = s.sliceWaits ++ [w] ∧ w.id = s.fresh ∧
        w.ctx = g.ctx ∧ w.method = x.toNat % 2 ^ 6 ∧
        w.entry = (if x.getLsbD 11 then none else some ⟨a, 16 * size⟩) ∧
        (∀ n, n < 128 → ⟨g.rank, n⟩ ∈ w.slices) ∧
        t.group? is.gid = some (g.modFrag is.entry fun f => { f with st := .blocked, wait := some (.methreg s.fresh) }) ∧
        (∀ sl ∈ w.slices, .event (.methregSliceUpdate s.fresh sl) ∈ t.agenda) ∧ t.pkgs = s.pkgs ∧ SameBytes s t))) ∧
  (∀ (id : Nat) (sl : SliceId) (s : State) (w : SliceWait) (p : Pkg), s.sliceWaits.find? (fun x => x.id == id) = some w →
    s.pkg? sl.rank = some p →
    (∃ t, exec (.methregSliceUpdate id sl) s = .next t ∧
      (t.slice sl).methods.get (w.ctx, w.method) = w.entry ∧
      (∀ k, k ≠ (w.ctx, w.method) → (t.slice sl).methods.get k = (s.slice sl).methods.get k) ∧
      { t.slice sl with methods := [] } = { s.slice sl with methods := [] } ∧
      (∀ r, r ≠ sl → t.slice r = s.slice r) ∧
      t.sliceWaits.find? (fun x => x.id == id) = some { w with slices := w.slices.filter (· != sl) } ∧
      { t with pkgs := s.pkgs, sliceWaits := s.sliceWaits } = s ∧ SameBytes s t) ∧
    (((s.slice sl).windows.all fun x => x.grid != w.grid) = true → ∃ t, exec (.dwfenceSliceClose id sl) s = .next t ∧
      (∀ k, (t.slice sl).closes.get k = if k.1 = w.grid then none else (s.slice sl).closes.get k) ∧
      { t.slice sl with closes := [] } = { s.slice sl with closes := [] } ∧
      t.sliceWaits.find? (fun x => x.id == id) = some { w with slices := w.slices.filter (· != sl) } ∧
      { t with pkgs := s.pkgs, sliceWaits := s.sliceWaits } = s ∧ SameBytes s t))

/-! ### Asynchronous words -/

/-- Posting an asynchronous word (R52, R241, R364 to R369): when its check passes and it has its resources, its operation joins
those in flight with every register captured and its number taken (R317, R325), its path counts one word more, k[n] is held
(R59), its kind counts one operation more (R389), the other members of its group-table entry are told (R317), and the step that
carries it on is due; no byte changes. A check that fails raises its trap. -/
def Obligations.EngineWords : Prop :=
  ∀ (i : Instr) (form : OpForm) (td ta kn : XReg) (bar : Option BReg) (foe : Bool)
    (check : State → Group → Nat → QWord → QWord → QWord → DWord → State × Chk) (s u : State) (is : Issuer) (g : Group) (f : Frag),
    engineOf i = some (form, td, ta, kn, bar, foe) → checkOf i = some check → Issues s is g f → g.wave = none →
    g.kbusy.getLsbD kn.toNat = false → (∀ p, s.pkg? g.rank = some p → p.gtBusy = false) → g.anyWait Wait.pfences = false →
    (form.kind = 0 → g.fenced = false) →
    let param := g.kr kn.toNat
    let checked (c : Chk) : Prop := check s g g.core.die (g.tr td) (g.tr ta) (g.tr kn) param = (u, c)
    (∀ sub, checked (.bad sub) → exec i s = .next (takeTrap u is 2 ⟨sub, 0, 0⟩)) ∧
    (∀ x, checked (.xf x) → ∃ d, exec i s = .next (takeTrap u is 5 d) ∧ d.sub = x.2.cause ∧ d.taddr = BitVec.ofNat 64 x.1) ∧
    (∀ spans, checked (.ok spans) → g.path form.path < 255 → (foe = true → (unitEntries u g.core).length < 64) →
      (form.queued = true → (dieQueue u g.rank g.core.die).length < 1024) →
      ∃ (t : State) (o : Op) (g' : Group) (fl : Flight) (told : List Nat) (old : List Op),
        exec i s = .next (advance t is 1) ∧ t.ops = old ++ [{ o with told := told }] ∧ old.length = u.ops.length ∧
        (∀ (n : Nat) (x : Op), u.ops[n]? = some x → x.id ≠ u.fresh → old[n]? = some x) ∧
        (o.id = u.fresh ∧ o.rank = g.rank ∧ o.die = g.core.die ∧ o.ctx = g.ctx ∧ o.gid = g.gid ∧ o.tid = g.tid ∧
          o.grid = g.grid ∧ o.form = form ∧ o.kind = form.kind ∧ o.word = BitVec.ofNat 32 ((encode i).headD 0) ∧
          o.param = param ∧ o.td = g.tr td ∧ o.ta = g.tr ta ∧ o.tn = g.tr kn ∧ o.kn = kn ∧ o.bar = bar ∧ o.foe = foe ∧
          o.level = g.level.toNat ∧ o.flight = g.nextSeq ∧ o.spans = spans ∧
          o.preds = (if foe then unitPreds u g.core spans else []) ∧ o.pidx = 0 ∧ o.chunks = []) ∧
        t.group? is.gid = some g' ∧ g'.flights = g.flights ++ [fl] ∧ g'.nextSeq = g.nextSeq + 1 ∧
        fl = { Flight.plain form.path .engine f.mask f.mask u.fresh with word := o.word, seq := g.nextSeq } ∧
        g'.kbusy = g.kbusy ||| BitVec.ofNat 32 (2 ^ kn.toNat) ∧
        (if form = .rsto then o.seqno = g.rseq.toNat ∧ g'.rseq = g.rseq + 1 else g'.rseq = g.rseq) ∧
        g'.eng = g.eng.setIfInBounds form.kind ((g.summary form.kind).issue g.nextSeq) ∧
        { g' with flights := g.flights, nextSeq := g.nextSeq, kbusy := g.kbusy, rseq := g.rseq, eng := g.eng } = g ∧
        (∀ p e, form.numbered = true → u.pkg? g.rank = some p → p.gt.get (g.ctx, param.toNat % 2 ^ 8) = some e →
          o.seqno = e.seq ∧ ((t.pkg? g.rank).bind fun p => p.gt.get (g.ctx, param.toNat % 2 ^ 8)) =
            some { e with seq := (e.seq + 1) % 2 ^ 32 }) ∧
        (∀ m ∈ o.go, m ∈ t.agenda) ∧ (∀ n, n ≠ is.gid → t.group? n = u.group? n) ∧
        { t with ops := u.ops, groups := u.groups, pkgs := u.pkgs, agenda := u.agenda, fresh := u.fresh, fab := u.fab } = u ∧ SameBytes u t)

/-- Reserved bits and ranges of the parameter word raise cause OPERAND, and a CPY whose regions do not agree cause TILE (R242, R370,
R371, R374, R376 to R378, R380, R381, R385, R387, R388). -/
def Sys2Proof.Claims.EngineParameters : Prop :=
  ∀ (td ta kn : XReg) (b : BReg) (bar : Option BReg) (foe : Bool) (c : Compl) (s : State) (is : Issuer) (g : Group) (f : Frag),
    Issues s is g f → g.wave = none → g.kbusy.getLsbD kn.toNat = false → (∀ p, s.pkg? g.rank = some p → p.gtBusy = false) →
    g.fenced = false →
    let n := (g.kr kn.toNat).toNat
    let operand (i : Instr) : Prop := exec i s = .next (takeTrap s is 2 ⟨causeOperand, 0, 0⟩)
    let tile (i : Instr) : Prop := exec i s = .next (takeTrap s is 2 ⟨causeTile, 0, 0⟩)
    (∀ form, n / 2 ^ 22 ≠ 0 ∨ n / 2 ^ 8 % 4 = 3 ∨ n / 2 ^ 10 % 4 = 3 → operand (.coll form td ta kn c)) ∧
    (n / 2 ^ 8 ≠ 0 → operand (.xchg td ta kn c) ∧ operand (.rotRun ta kn foe) ∧ operand (.rotClose kn)) ∧
    (n / 2 ^ 13 ≠ 0 ∨ 28 < n / 2 ^ 8 % 2 ^ 5 ∨ 28 < b.toNat ∨ (n / 2 ^ 8 % 2 ^ 5 ≤ b.toNat + 3 ∧ b.toNat ≤ n / 2 ^ 8 % 2 ^ 5 + 3) →
      operand (.rotOpen td kn b)) ∧
    (n / 2 ^ 6 % 4 ≠ 0 ∨ n / 2 ^ 40 ≠ 0 → operand (.rsto ta kn c)) ∧
    (∀ o m p, n % 128 ≠ 0 ∨ canonical (g.kr kn.toNat) = false → operand (.upd o m p td ta kn c)) ∧
    (∀ p, n / 2 ^ 20 ≠ 0 ∨ n = 0 ∨ 2 ^ 19 < n → operand (.place p ta kn c)) ∧
    (n ≠ 0 → operand (.step kn bar)) ∧
    (n / 2 % 2 ^ 7 ≠ 0 ∨ n / 2 ^ 16 ≠ 0 → operand (.snap kn bar)) ∧
    (let d := tileOf (g.tr td)
     let a := tileOf (g.tr ta)
     ∀ form, d.rsvd ≠ 0 ∨ a.rsvd ≠ 0 ∨ 2 < d.space ∨ 2 < a.space ∨ 10 < d.fmt ∨ 10 < a.fmt ∨ d.cols ≠ a.cols ∨
      (d.space = 2 ∧ (form = .in1d ∨ form = .in2d ∨ form = .in3d ∨ form = .inGather)) ∨
      (d.space ≠ 2 ∧ (form = .out1d ∨ form = .out2d ∨ form = .out3d ∨ form = .outScatter)) ∨
      (d.rows ≠ a.rows ∧ form ≠ .inGather ∧ form ≠ .outScatter) → tile (.cpy form td ta kn c))

/-- BPRI sets the bucket priority of the group and BPRI.get reads it (R379); ESTAT reads the summary of an engine kind, and EWAIT
does so once no more operations than its threshold are in flight (R389). -/
def Sys2Proof.Claims.EngineReads : Prop :=
  ∀ (k : EngKind) (kn : XReg) (s : State) (is : Issuer) (g : Group) (f : Frag), Issues s is g f → g.wave = none →
    g.kbusy.getLsbD kn.toNat = false →
    let v := (g.kr kn.toNat).toNat
    let code : Nat := match k with
      | .copy => 0
      | .collective => 1
      | .rotation => 2
      | .exchange => 3
      | .update => 4
      | .placement => 5
      | .snapshot => 6
    let inflight := (g.summary code).flying.length
    let summary (x : DWord) : Prop :=
      x.toNat % 2 ^ 16 = inflight % 2 ^ 16 ∧
      (∀ e, g.eng[code]? = some e → x.toNat / 2 ^ 16 % 2 ^ 4 = e.lastst % 2 ^ 4 ∧ x.getLsbD 20 = e.any) ∧
      x.toNat / 2 ^ 21 % 2 ^ 3 = 0 ∧ x.toNat / 2 ^ 56 = 0 ∧
      (∀ o, s.ops.find? (fun o => o.gid == g.gid && o.kind == code && o.st != .withdrawn) = some o →
        x.toNat / 2 ^ 24 = match o.form with
          | .cpy _ | .coll _ | .rotRun => o.pidx % 2 ^ 32
          | .upd opt _ _ => if opt = .lamb ∧ o.pass = 0 then 0 else (o.pidx - o.errs) % 2 ^ 32
          | _ => 0)
    (256 ≤ v → exec (.bpri kn) s = .next (takeTrap s is 2 ⟨causeOperand, 0, 0⟩)) ∧
    (v < 256 → ∃ t, exec (.bpri kn) s = .next (advance t is 1) ∧ Becomes s t is.gid { g with level := BitVec.ofNat 8 v }) ∧
    (∃ t, exec (.bpriGet kn) s = .next (advance t is 1) ∧ Becomes s t is.gid (g.setK kn.toNat (g.level.setWidth 64))) ∧
    (∃ t x, exec (.estat k kn) s = .next (advance t is 1) ∧ Becomes s t is.gid (g.setK kn.toNat x) ∧ summary x) ∧
    (inflight ≤ v ∨ 65535 ≤ v → ∃ t x, exec (.ewait k kn) s = .next (advance t is 1) ∧
      Becomes s t is.gid (g.setBusyK kn.toNat x) ∧ summary x) ∧
    (v < inflight → v < 65535 → exec (.ewait k kn) s = .next (block s is (.ewait k kn v)))

/-- The summary of an engine kind (R389): LASTST is the status of the record written last, ANY is then 1, and INFLIGHT counts on from
the first operation issued whose record is not written. -/
def Sys2Proof.Claims.EngineSummary : Prop :=
  ∀ (e : EngSum) (seq st : Nat) (r : List (Nat × Bool)),
    (e.issue seq) = { e with flying := e.flying ++ [(seq, false)] } ∧ (e.written seq st).lastst = st ∧ (e.written seq st).any = true ∧
    (∀ n, e.flying = (n, false) :: r → n ≠ seq → (e.written seq st).flying.length = e.flying.length) ∧
    (e.flying = (seq, false) :: r → (∀ x ∈ r, x.2 = false ∧ x.1 ≠ seq) → (e.written seq st).flying = r) ∧
    (∀ n q, e.flying = (seq, false) :: (n, true) :: q → (∀ x ∈ q, x.2 = false ∧ x.1 ≠ seq) → (e.written seq st).flying = q)

/-- PFENCE drains the group's lines and waits for its PUTs, path 6 words and operations; then, for .stripe, for every entry of the
package's Moraine queues to be stripe-durable (R386). -/
def Sys2Proof.Claims.PersistFence : Prop :=
  ∀ (stripe : Bool) (s : State) (is : Issuer) (g : Group) (f : Frag), Issues s is g f → g.wave = none →
    let pending : Prop := ∃ x ∈ g.flights, x.done = false ∧ x.seq < g.nextSeq ∧
      (x.kind = .put ∨ x.path = 6 ∨ x.path = 3 ∨ x.path = 4)
    ∃ u, Drains s u g.core (fun l => (l.last.get g.gid).isSome) ∧
      (pending → exec (.pfence stripe) s = .next (block u is (.pfence stripe g.nextSeq none))) ∧
      (¬pending → (stripe = true → ∀ p, s.pkg? g.rank = some p → (∀ d : Fin 4, p.tier.moraine[d] = []) ∧ p.tier.unstriped = []) →
        ∃ v, exec (.pfence stripe) s = .next (advance v is 1) ∧ v.group? is.gid = some g.wakeScore ∧
          { v with groups := u.groups } = u) ∧
      (¬pending → stripe = true → ∀ p d e, s.pkg? g.rank = some p → d < 4 → (p.tier.moraine[d]?.getD []).getLast? = some e →
        ∃ marks, exec (.pfence stripe) s = .next (block u is (.pfence stripe g.nextSeq (some marks))) ∧ (d, e.id) ∈ marks) ∧
      (¬pending → stripe = true → ∀ p (d : Fin 4) e, s.pkg? g.rank = some p → p.tier.moraine[d] = [] →
        (p.tier.unstriped.filter fun x => x.die == d.val).getLast? = some e →
        ∃ marks, exec (.pfence stripe) s = .next (block u is (.pfence stripe g.nextSeq (some marks))) ∧ (d.val, e.id) ∈ marks)

/-- ENGS and ENGR in a handler (R420): an address that is not a canonical multiple of 128 raises cause OPERAND; ENGS of a team with
no operation in flight writes the terminator record and its k takes 0; ENGR of a terminator takes 0. -/
def Sys2Proof.Claims.SerialWords : Prop :=
  ∀ (ka : KReg) (s : State) (is : Issuer) (g : Group) (f : Frag) (tm : Team), Issues s is g f → g.wave = none →
    g.trap.tmode = true → g.kbusy.getLsbD ka.toNat = false → s.team? g.tid = some tm →
    let a := g.kr ka.toNat
    let zero (i : Instr) (u : State) : Prop := ∃ t g', exec i s = .next (advance t is 1) ∧ t.group? is.gid = some g' ∧
      g'.kr ka.toNat = 0 ∧ (∀ n, n ≠ ka.toNat → g'.kr n = g.kr n) ∧ g'.threads = g.threads ∧ g'.frags = g.frags ∧
      g'.trap = g.trap ∧ t.ops = s.ops ∧ SameBytes u t
    (a.toNat % 128 ≠ 0 ∨ canonical a = false → ∀ i, (i = .engs ka ∨ i = .engr ka) →
      exec i s = .next (takeTrap s is 2 ⟨causeOperand, 0, 0⟩)) ∧
    (a.toNat % 128 = 0 → canonical a = true →
      (∀ u, tm.doneRecs = [] → (∀ o ∈ s.ops, o.tid = g.tid → o.st = .withdrawn) →
        gWrite s g.rank g.core.die g.ctx a.toNat (((15 : Byte) :: List.replicate 127 0).map fun b => (b, false)) = (u, .ok ()) →
        zero (.engs ka) u) ∧
      (∀ u bs b r, gRead s g.rank g.core.die g.ctx a.toNat 128 .read = (u, .ok bs) → bs.map (·.1) = b :: r →
        b.toNat % 16 = 15 → r.length = 127 → zero (.engr ka) u))

/-! ### Steps of the asynchronous engines -/

/-- The records of operations that have ended (R245, R366 to R368, R373, R375 to R378, R380, R383, R384): each step writes the
record of its form, after the barrier event that the form makes. -/
def Obligations.EngineRecords : Prop :=
  ∀ (s : State) (o : Op) (g : Group), Ends s o g →
    let st := o.status
    let record (i : Instr) (v : Nat) : Prop := ∃ t, exec i s = .next t ∧ Recorded (eventDone s o) t o g (BitVec.ofNat 64 v)
    let size (q : QWord) : Nat := (tileOf q).rows * (tileOf q).planes * (tileOf q).rowBytes
    let moved (n : Nat) : Nat := st + (if st = 0 then n else 4096 * o.pidx) * 2 ^ 8
    (∀ f, o.form = .cpy f → record .copyComplete (moved (size (if f = .outScatter then o.ta else o.td)))) ∧
    (∀ f, o.form = .coll f → record .collComplete (moved (size o.td))) ∧
    (o.form = .rotOpen → o.pass ≠ 2 → record .rotOpenComplete st) ∧
    (o.form = .rotRun → st ≠ 6 → st ≠ 8 → record .rotRunComplete (st + o.pidx * 2 ^ 8)) ∧
    (o.form = .rotClose → record .rotCloseComplete st) ∧
    (o.form = .xchg → record .xchgComplete (st + (o.results.filter fun w => match w with
      | none => false
      | some x => x.toNat / 2 ^ 28 == 2).length % 2 ^ 24 * 2 ^ 8 + o.filled % 2 ^ 24 * 2 ^ 32)) ∧
    (o.form = .rsto → record .rstoComplete (st + o.applied * 2 ^ 8)) ∧
    (∀ opt msk p, o.form = .upd opt msk p → record .updComplete
      (st + (if opt = .lamb ∧ o.pass = 0 then 0 else o.pidx - o.errs) % 2 ^ 32 * 2 ^ 8 + min o.errs (2 ^ 24 - 1) * 2 ^ 40)) ∧
    (o.form = .pairst → record .pairstComplete (st + o.pidx * 2 ^ 8))

/-- A copy engine with fewer than 32 chunks in flight takes, of its operations that have a chunk to start and are neither held nor
waiting, the one of highest effective level, the first issued on ties (R306, R307, R322); of a contiguous copy it reads the next
4 KiB chunk, which may commit once it is here and every lower one has (R243, R244); a chunk for other packages goes to them as a
packet (R428), and one that cannot be translated parks (R227). While it has operations with chunks to start it looks again later. -/
def Sys2Proof.Claims.ChunkStart : Prop :=
  ∀ (d : DieId) (e : Nat) (s : State),
    let mine (s : State) := (dieQueue s d.rank d.die).filter fun o => o.engine == e && o.st == .queued && hasStart o
    let busy := (((dieQueue s d.rank d.die).filter fun o => o.engine == e).map fun o => o.chunks.length).sum
    let ready (o : Op) : Bool := !engsWaits s o.tid && !opHeld s o && engineReady s o
    let level (o : Op) : Nat := effLevel s 64 o
    let look : Move := .event (.engineChunkStart d e)
    let again (u : State) : Prop := exec (.engineChunkStart d e) s = .next (if (mine u).isEmpty then u else u.oweOnce look)
    (mine s = [] → exec (.engineChunkStart d e) s = .next s) ∧
    (32 ≤ busy ∨ (mine s).all (fun o => !ready o) = true → again s) ∧
    (∀ pre o post, busy < 32 → (mine s).filter ready = pre ++ o :: post → (∀ x ∈ pre, level x < level o) →
      (∀ x ∈ post, level x ≤ level o) → s.op? o.id = some o →
      ∀ f u bs, o.form = .cpy f → (f = .in1d ∨ f = .out1d) →
        let src := tileOf o.ta
        let dst := tileOf o.td
        let i := o.pidx + o.chunks.length
        let n := min 4096 (dst.rows * dst.planes * dst.rowBytes - 4096 * i)
        let start (x : Tile) : Nat := (if x.space = 2 then (sext57 x.base).toNat else x.base) + 4096 * i
        let data := ((List.range n).map (start dst + ·)).zip bs
        let far := farHomes u o src.space .read [(start src, n)] ++ farHomes u o dst.space .write [(start dst, n)]
        (engRead s o src.space (start src) n = (u, .ok bs) → bs.length = n → far = [] →
          ∃ t o', exec (.engineChunkStart d e) s = .next t ∧ OpBecomes u t o.id o' ∧ { o' with chunks := o.chunks } = o ∧
            o'.chunks.getLast? = some ⟨i, .here, data⟩ ∧ o'.chunks.length = o.chunks.length + 1 ∧
            (∀ c ∈ o.chunks, c.idx ≠ i → c ∈ o'.chunks) ∧ (o.chunks = [] → .subject .copyChunkCommit o.id ∈ t.agenda)) ∧
        (engRead s o src.space (start src) n = (u, .ok bs) → bs.length = n → far ≠ [] →
          ∃ t pk, exec (.engineChunkStart d e) s = .next t ∧ pk ∈ t.fab.packets ∧ pk.chunkOf o.id = true ∧
            t.op? o.id = some { o with chunks := o.chunks ++ [⟨i, .moving, data⟩] } ∧ (∀ m, m ≠ o.id → t.op? m = u.op? m) ∧
            { t with ops := u.ops, agenda := u.agenda, fab := u.fab, fresh := u.fresh } = u ∧ SameBytes u t) ∧
        (∀ va x, engRead s o src.space (start src) n = (u, .fault va x) → again (parkChunk u o i va x false)))

/-- The lowest chunk of a copy to shared memory commits when it is here: its bytes are written, its barrier takes a delivery of as
many, and the progress index counts it. After the last the record is due; otherwise the next chunk commits when it is here, and one
that has failed gives the operation its status (R244, R246, R309). -/
def Sys2Proof.Claims.ChunkCommit : Prop :=
  ∀ (s : State) (o : Op) (f : CpyForm) (tm : Team) (i a : Nat) (bs : List PByte) (r : List OpChunk), s.op? s.subj = some o →
    o.st ≠ .withdrawn → o.form = .cpy f → (tileOf o.td).space = 0 → s.team? o.tid = some tm → engineHolds s tm o.id = false →
    bs ≠ [] → memoriesOk s = true → o.chunks = ⟨i, .here, ((List.range bs.length).map (a + ·)).zip bs⟩ :: r →
    let size (q : QWord) : Nat := (tileOf q).rows * (tileOf q).planes * (tileOf q).rowBytes
    let last : Prop := size (if f = .outScatter then o.ta else o.td) ≤ 4096 * (o.pidx + 1)
    let failed (st : Nat) : Prop := ∃ c, r.head? = some c ∧ c.st = .failed st
    ∃ t tm', exec .copyChunkCommit s = .next t ∧ t.team? o.tid = some tm' ∧
      (last → t.op? o.id = some { o with pidx := o.pidx + 1, status := 0, st := .ending, chunks := [] } ∧
        .subject .copyComplete o.id ∈ t.agenda) ∧
      (¬last → (∀ st, ¬failed st) → t.op? o.id = some { o with pidx := o.pidx + 1, chunks := r } ∧
        .event (.engineChunkStart ⟨o.rank, o.die⟩ o.engine) ∈ t.agenda ∧
        ((∃ c, r.head? = some c ∧ c.st = .here) → .subject .copyChunkCommit o.id ∈ t.agenda)) ∧
      (¬last → ∀ st, failed st → t.op? o.id = some { o with pidx := o.pidx + 1, status := st, st := .ending, chunks := [] } ∧
        .subject .copyComplete o.id ∈ t.agenda) ∧
      (∀ x, tm'.shared.bytes.read x = if a ≤ x ∧ x < a + bs.length then ((bs[x - a]?).map (·.1)).getD 0 else tm.shared.bytes.read x) ∧
      tm'.bars = (match o.bar with
        | none => tm.bars
        | some b => tm.bars.setIfInBounds b.toNat ((tm.bar b.toNat).event (.deliver bs.length))) ∧
      { tm' with shared := tm.shared, bars := tm.bars } = tm ∧ (∀ n, n ≠ o.id → t.op? n = s.op? n) ∧
      (∀ p, (∀ x, p ≠ .shared o.tid x) → byteAt t p = byteAt s p) ∧
      { t with teams := s.teams, ops := s.ops, groups := s.groups, pkgs := s.pkgs, agenda := s.agenda } = s

/-- A chunk that has found no path for 1 ms fails with LINK, and ends its operation so once it is the lowest; so does an operation
whose notice, token or line has found none; until then it looks again (R309, R310). FAULT_RESUME and FAULT_ABORT free a fault
record: the chunk parked there is read or written again or fails with FAULT, an operation goes on or ends with FAULT; a withdrawn
record is only freed, one of GTSYNC lets it go on or fail, and one of a context save resumes or aborts it (R227, R228, R316, R409). -/
def Sys2Proof.Claims.EngineFaults : Prop :=
  (∀ (s : State) (o : Op), s.op? s.subj = some o → o.st ≠ .withdrawn →
    let mine (pk : Packet) : Bool := pk.op? == some o.id && pk.stuck.isSome
    let late := s.fab.packets.filter fun pk => mine pk && pk.timedOut s.cyc
    (late = [] → exec .chunkLinkTimeout s = .next { s with agenda := s.agenda ++
      (if s.fab.packets.any mine then [.subject .chunkLinkTimeout o.id] else []) }) ∧
    (∀ pk, late = [pk] → ∃ t, exec .chunkLinkTimeout s = .next t ∧ (∀ n, n ≠ o.id → t.op? n = s.op? n) ∧
      (∀ x ∈ t.fab.packets, mine x = true → x.timedOut s.cyc = false) ∧
      (∀ idx c legs, pk.body = .msg (some o.id) legs (.chunk o.id idx) → c ∈ o.chunks → c.idx = idx →
        (o.chunks.head? = some c → t.op? o.id = some { o with status := 3, st := .ending, chunks := [] } ∧ o.fin ∈ t.agenda) ∧
        ((∀ h, o.chunks.head? = some h → h.idx ≠ idx) → t.op? o.id = some (o.setChunk idx (.failed 3)))) ∧
      ((match pk.body with
        | .msg _ _ (.chunk _ _) => False
        | _ => o.st = .queued ∨ o.st = .running ∨ o.st = .parked) →
        t.op? o.id = some { o with status := 3, st := .ending, chunks := [] } ∧ o.fin ∈ t.agenda) ∧
      t.groups = s.groups ∧ t.teams = s.teams ∧ SameBytes s t)) ∧
  (∀ (d : DieId) (n : Nat) (s : State) (p : Pkg) (r : FaultRec), s.pkg? d.rank = some p → d.die < 4 →
    (p.die d.die).faults.get n = some r →
    let x := p.die d.die
    let freed (p' : Pkg) : Prop := ∃ y, p' = withDie p d.die y ∧
      { y with faults := x.faults, unrecorded := x.unrecorded } = x ∧
      y.unrecorded = x.unrecorded.tail ∧ y.faults.get n = x.unrecorded.head? ∧
      ∀ m, m ≠ n → y.faults.get m = x.faults.get m
    let only (i : Instr) (more : List Move) : Prop := ∃ t p', exec i s = .next t ∧ PkgBecomes s t d.rank p' ∧ freed p' ∧
      t.agenda = s.agenda ++ more
    (r.wdrn = true → only (.faultResume d n) [] ∧ only (.faultAbort d n) []) ∧
    (r.wdrn = false → r.engine = 7 → only (.faultResume d n) [.event (.gtsyncReload d.rank)] ∧
      ∃ t p', exec (.faultAbort d n) s = .next t ∧ PkgBecomes s t d.rank { p' with gtBusy := false, gtFault := true } ∧ freed p') ∧
    (r.wdrn = false → r.engine = 8 → only (.faultResume d n) [.event (.preemptRequest d.rank)] ∧
      ∃ t p', exec (.faultAbort d n) s = .next t ∧ t.pkg? d.rank = some p' ∧ freed p' ∧
        (∀ tm, s.team? r.optag = some tm → t.team? r.optag = some { tm with st := .resident }) ∧
        (∀ m g, s.group? m = some g → g.tid = r.optag → g.wave = none →
          t.group? m = some { g with stopped := true, trap := { g.trap with faulted := true } })) ∧
    (r.wdrn = false → r.engine < 7 → ∀ o, s.op? o.id = some o →
      s.ops.find? (fun o => o.rank == d.rank && o.die == d.die && o.id % 2 ^ 32 == r.optag && o.st != .withdrawn && o.parkedAt r.va) =
        some o →
      let does (i : Instr) (o' : Op) (more : List Move) : Prop := ∃ t p', exec i s = .next t ∧ t.pkg? d.rank = some p' ∧ freed p' ∧
        t.op? o.id = some o' ∧ (∀ n, n ≠ o.id → t.op? n = s.op? n) ∧ (∀ m ∈ more, m ∈ t.agenda) ∧ SameBytes s t
      let here := o.chunks.find? fun c => c.parkedAt r.va
      let ended : Op := { o with status := 6, st := .ending, chunks := [] }
      (here = none → does (.faultResume d n) { o with st := .queued } o.go ∧ does (.faultAbort d n) ended [o.fin]) ∧
      (∀ c v, here = some c → c.st = .parked v true → does (.faultResume d n) (o.setChunk c.idx .here)
        (if o.chunks.head? = some c then o.commit else [])) ∧
      (∀ c v, here = some c → c.st = .parked v false → does (.faultResume d n)
        { o with chunks := o.chunks.filter fun x => x.idx != c.idx } o.go) ∧
      (∀ c, here = some c → (o.chunks.head? = some c → does (.faultAbort d n) ended [o.fin]) ∧
        ((∀ h, o.chunks.head? = some h → h.idx ≠ c.idx) → does (.faultAbort d n) (o.setChunk c.idx (.failed 6)) []))))

/-- TLBICTL: a GO while BUSY is 1 is ignored; otherwise ALLCTX and CTXID take their bits, and a GO sets BUSY until the
translations that the range and context of that moment cover are gone from the die (R224). -/
def Sys2Proof.Claims.Invalidation : Prop :=
  ∀ (d : DieId) (v : Nat) (s : State) (p : Pkg), s.pkg? d.rank = some p → d.die < 4 →
    let x := p.die d.die
    let go := v.testBit 0
    let all := v.testBit 2
    let ctx := v / 2 ^ 16 % 2 ^ 16
    (go = true → x.tlbJob.isSome = true → exec (.tlbInvalidate d v) s = .next s) ∧
    (go = false ∨ x.tlbJob = none → ∃ t, exec (.tlbInvalidate d v) s = .next t ∧
      PkgBecomes s t d.rank (withDie p d.die
        { x with tlbAll := all, tlbCtx := ctx, tlbJob := if go then some ⟨all, ctx, x.tlbiva, x.tlbisz⟩ else x.tlbJob }) ∧
      t.agenda = s.agenda ++ if go then [.event (.tlbInvalidateDone d)] else []) ∧
    (∀ j, x.tlbJob = some j → ∃ t y, exec (.tlbInvalidateDone d) s = .next t ∧ PkgBecomes s t d.rank (withDie p d.die y) ∧
      { y with tlb := x.tlb, tlbJob := some j } = x ∧ y.tlbJob = none ∧
      ∀ e, e ∈ y.tlb ↔ e ∈ x.tlb ∧ ¬((j.all = true ∨ e.ctx = j.ctx) ∧
        (j.isz = 0 ∨ (4096 * j.iva < e.va % 2 ^ 57 + e.size ∧ e.va % 2 ^ 57 < 4096 * (j.iva + j.isz)))))

/-! ### Steps of a group, of a grid and of the host's queues -/

/-- The steps of a group that no word makes: a pending event is taken at a boundary, class 15 first, then 5 to 12, then 14, with the
fragment that the lane would select next described (R398, R401); a timer or a deadline that has been reached is cleared and its
event becomes pending (R415); an IDLE of 65,536 cycles is woken (R421). -/
def Sys2Proof.Claims.GroupEvents : Prop :=
  ∀ (gid : Nat) (s : State) (g : Group), s.group? gid = some g → g.wave = none →
    let pend (new : Group) (c : Nat) : Group :=
      { new.wakeIdle with trap := { g.trap with
          tpend := g.trap.tpend ||| BitVec.ofNat 16 (2 ^ c), events := g.trap.events ++ [(c, ⟨0, 0, 0⟩)] } }
    let first (c : Nat) : Prop := g.trap.tpend.getLsbD c = true ∧ (c = 15 ∨ ((5 ≤ c ∧ c ≤ 12 ∨ c = 14) ∧
      g.trap.tpend.getLsbD 15 = false ∧ ∀ b, 5 ≤ b → b < c → b ≠ 13 → g.trap.tpend.getLsbD b = false))
    (Machine.runs s g = true → g.trap.tmode = false → g.trap.raised = [] → (∀ x ∈ g.flights, x.kind ≠ .load ∧ x.kind ≠ .get) →
      ∀ c d e f, first c → g.trap.events.find? (fun x => x.1 == c) = some (c, d) → g.described = some (e, f) →
        ∃ t g', exec (.boundaryTrapEntry gid) s = .next t ∧ t.group? gid = some g' ∧ g'.trap.tmode = true ∧ g'.trap.cls = c ∧
          g'.trap.sub = d.sub ∧ g'.trap.tinfo = d.tinfo ∧ g'.trap.taddr = d.taddr ∧ g'.trap.tmask = f.mask.setWidth 64 ∧
          g'.trap.tpc.toNat = f.clause.toNat % 2 ^ 57 + f.word % 16 * 2 ^ 57 ∧
          g'.trap.tks = #v[g.kr 28, g.kr 29, g.kr 30, g.kr 31] ∧ g'.reps = Reps.zero ∧ (∀ n, n < 28 → g'.kr n = g.kr n) ∧
          (∀ b, b < 16 → g'.trap.tpend.getLsbD b = (g.trap.tpend.getLsbD b &&
            (b != c || decide (1 < (g.trap.events.filter fun x => x.1 == c).length)))) ∧
          g'.threads = g.threads ∧ g'.q = g.q ∧ g'.t = g.t ∧ g'.seen = g.seen ∧ g'.flights = g.flights ∧
          (∀ n, n ≠ gid → t.group? n = s.group? n) ∧ t.teams = s.teams ∧ SameBytes s t) ∧
    ((g.trap.tmode = true ∨ Machine.runs s g = false ∨ g.trap.nextEvent = none) → exec (.boundaryTrapEntry gid) s = .next s) ∧
    (resident s g = true → g.trap.faulted = false → g.timer ≠ 0 → g.timer ≤ g.gtime →
      ∃ t, exec (.timerExpire gid) s = .next t ∧ Becomes s t gid (pend { g with timer := 0 } 11)) ∧
    (resident s g = true → g.trap.faulted = false → g.deadline ≠ 0 → g.deadline ≤ s.cyc →
      ∃ t, exec (.deadlineExpire gid) s = .next t ∧ Becomes s t gid (pend { g with deadline := 0 } 12)) ∧
    (resident s g = false ∨ g.timer = 0 ∨ g.gtime < g.timer → exec (.timerExpire gid) s = .next s) ∧
    (resident s g = false ∨ g.deadline = 0 ∨ s.cyc < g.deadline → exec (.deadlineExpire gid) s = .next s) ∧
    ∀ entry, ∃ t g', exec (.idleTimeout gid entry) s = .next t ∧ Becomes s { t with agenda := s.agenda } gid g' ∧
      { g' with frags := g.frags, spilled := g.spilled } = g ∧ g'.spilled.length = g.spilled.length ∧
      ∀ e f, g.frag e = some f → g'.frag e = some { f with wait := match f.wait with
        | some (.idle n) => if n + 65536 ≤ s.cyc then some .woken else some (.idle n)
        | w => w }

/-- BLOCKED_WORD_COMPLETE (R41, R142): a blocked word whose wait is met completes, as it would have at its issue: a WAITP whose
path has drained to the threshold, a BARW whose barrier has completed a phase, a fence whose earlier words have been performed, a
word that an event has woken. One whose wait is not met stays blocked, and is looked at again. -/
def Sys2Proof.Claims.BlockedWords : Prop :=
  ∀ (gid entry : Nat) (s : State) (g : Group) (f : Frag) (w : Wait), s.group? gid = some g → g.frag entry = some f →
    f.st = .blocked → f.wait = some w → Machine.runs s g = true →
    let is : Issuer := ⟨gid, entry⟩
    let ready : Group := g.modFrag entry fun f => { f with st := .ready, wait := none }
    let completes (new : Group) : Prop :=
      ∃ u, Becomes s u gid new ∧ exec (.blockedWordComplete gid entry) s = .next (advance u is 1)
    let stays : Prop := ∃ t, exec (.blockedWordComplete gid entry) s = .next t ∧ Becomes s { t with agenda := s.agenda } gid g ∧
      .event (.blockedWordComplete gid entry) ∈ t.agenda
    (w = .woken → completes ready) ∧
    (∀ n, w = .idle n → stays) ∧
    (∀ p thr, w = .waitp p thr → (g.path p ≤ thr → completes ready) ∧ (thr < g.path p → stays)) ∧
    (∀ k upto, w = .fence k upto →
      let pending : Prop := ∃ x ∈ g.flights, x.done = false ∧ x.seq < upto ∧ (x.kind = .get ∨ x.path = 6 ∨ (k ≠ .acq ∧ x.kind = .put))
      (pending → stays) ∧ (¬pending → completes ready.wakeScore)) ∧
    (∀ b tm, w = .barw none b → s.team? g.tid = some tm → (tm.bar b.toNat).broken = false →
      ((tm.bar b.toNat).phase = g.seen.getLsbD b.toNat → stays) ∧
      ((tm.bar b.toNat).phase ≠ g.seen.getLsbD b.toNat → completes (ready.see b))) ∧
    (∀ b, w = .barOver none b false → completes ready) ∧
    ((w = .scoreboard ∨ ∃ id kd, w = .acq id kd) → exec (.blockedWordComplete gid entry) s = .next s)

/-- FRAGMENT_EXCHANGE (R141): at a clause's end, with fragments in the spill queue and 64 issue opportunities since the last
exchange, the fragment goes to the tail of the queue, the record at its head takes its entry, and each other record moves one place; before
that nothing happens. For records whose lines the core's spill buffer holds. -/
def Sys2Proof.Claims.FragmentExchange : Prop :=
  ∀ (gid entry : Nat) (s : State) (g : Group) (f : Frag), s.group? gid = some g → g.frag entry = some f →
    (f.inClause = true ∨ g.spilled = [] ∨ g.sinceExch < 64 → exec (.fragmentExchange gid entry) s = .next s) ∧
    (f.inClause = false → 64 ≤ g.sinceExch → ∀ n r, g.spilled = n :: r →
      let va (k : Nat) : Nat := (((g.wspb.toNat : Int) + g.queueOff k) % 2 ^ 64).toNat
      (∀ k, k ≤ r.length + 1 → (∀ acc, acc = .read ∨ acc = .write →
          ∃ h, xlate s g.rank g.core.die g.ctx (va k) acc = (s, .ok h)) ∧ va k % 128 + 32 ≤ 128 ∧
        ∃ l, (s.core g.core).spill.find? (fun l => l.ctx == g.ctx && l.va == va k / 128 * 128) = some l ∧ l.bytes.length = 128) →
      let record (s : State) (k : Nat) : List Byte := (List.range 32).map fun i => (byteAt s (.spill g.core g.ctx (va k + i))).getD 0
      let head : Frag := Frag.ofNum (ofBytesLE (record s 0)) n
      ∃ t g', exec (.fragmentExchange gid entry) s = .next t ∧ t.group? gid = some g' ∧ g'.spilled = r ++ [⟨f.hdr, f.wait, g.srwq.filter fun w => w.entry == entry⟩] ∧
        g'.srwq = (g.srwq.filter fun w => w.entry != entry) ++ n.srw.map (fun w => { w with entry := entry }) ∧ g'.sinceExch = 0 ∧ g'.frag entry = (if head.mask = 0 then none else some head) ∧
        (∀ e, e ≠ entry → g'.frag e = g.frag e) ∧
        { g' with frags := g.frags, spilled := g.spilled, srwq := g.srwq, sinceExch := g.sinceExch } = g ∧
        (∀ k, k < r.length → record t k = record s (k + 1)) ∧ record t r.length = bytesLE 32 f.num ∧
        ∀ p, (∀ k i, k ≤ r.length + 1 → i < 32 → p ≠ .spill g.core g.ctx (va k + i)) → byteAt t p = byteAt s p)

/-- ACQ_GRANT (R154, R178): the oldest request of a core is granted once the free resources cover it: its team holds as many
more, its k register takes the place of the first, and its fragment goes on; until then it waits, and later requests behind
it. -/
def Sys2Proof.Claims.AcqGrants : Prop :=
  ∀ (c : CoreId) (s : State) (a : AcqReq) (r : List AcqReq) (tm : Team) (g : Group) (e : Nat) (f : Frag),
    (s.core c).acqs = a :: r → s.team? a.tid = some tm → tm.holds = true → s.group? a.gid = some g → g.frag e = some f →
    f.wait = some (.acq a.id a.kd) → e < 8 → (∀ j h, j < e → g.frag j = some h → h.wait ≠ some (.acq a.id a.kd)) →
    let has (t : Team) : Nat := match a.what with
      | .smem => t.holding
      | .tile => t.tiles
    let all : Nat := match a.what with
      | .smem => 128
      | .tile => 16
    let used : Nat := ((s.teams.filter fun t => t.core == c && t.holds).map has).sum
    (all < used + a.amount → 0 < a.amount → exec (.acqGrant c) s = .next s) ∧
    (used + a.amount ≤ all → ∃ (u : State) (tm' : Team) (g' : Group),
      exec (.acqGrant c) s = .next ((advance u ⟨a.gid, e⟩ 1).owe [.event (.acqGrant c)]) ∧
      u.group? a.gid = some g' ∧ g' = (g.setBusyK a.kd.toNat (BitVec.ofNat 64 (match a.what with
        | .smem => 4096 * tm.holding
        | .tile => tm.tiles))).modFrag e (fun f => { f with st := .ready, wait := none }) ∧
      u.team? a.tid = some tm' ∧ tm' = (match a.what with
        | .smem => { tm with holding := tm.holding + a.amount }
        | .tile => { tm with tiles := tm.tiles + a.amount }) ∧
      (u.core c).acqs = r ∧ (∀ n, n ≠ a.gid → u.group? n = s.group? n) ∧ (∀ n, n ≠ a.tid → u.team? n = s.team? n) ∧
      { u with cores := s.cores, teams := s.teams, groups := s.groups } = s ∧ SameBytes s u)

/-- GRID_RETIRE (R153): a grid all of whose teams have been dealt and are gone, with no operation in flight, leaves: a child frees its
slot and wakes its parent's IDLE, and a host grid gives back its segments and retires its descriptor; a grid with a team
left only loses the records of its teams that have exited and have no child, no operation and no access still to be performed, and
looks again while only accesses keep one. -/
def Sys2Proof.Claims.GridRetires : Prop :=
  ∀ (id : Nat) (s : State) (gr : Grid), s.grid? id = some gr → gr.started = true → gr.nextTeam = gr.nx * gr.ny * gr.nz →
    (∀ o ∈ s.ops, o.grid = id → o.st = .withdrawn) →
    let gone (t : Team) : Prop := t.grid = id ∧ t.st = .exited ∧ (∀ c ∈ s.grids, c.parent ≠ some t.tid) ∧
      (∀ o ∈ s.ops, o.tid = t.tid → o.st = .withdrawn) ∧ accessLeft s t.gids = false
    ((∃ t ∈ s.teams, t.grid = id ∧ ¬gone t) → ∃ t, exec (.gridRetire id) s = .next t ∧ t.grids = s.grids ∧
      (∀ x, x ∈ t.teams ↔ x ∈ s.teams ∧ ¬gone x) ∧
      ((∃ x ∈ t.teams, x.grid = id ∧ x.st = .exited ∧ accessLeft s x.gids = true) → .event (.gridRetire id) ∈ t.agenda) ∧
      { t with teams := s.teams, agenda := s.agenda } = s) ∧
    ((∀ t ∈ s.teams, t.grid = id → gone t) → gr.desc = none → ∀ p, s.pkg? gr.rank = some p →
      ∃ t p', exec (.gridRetire id) s = .next t ∧ (∀ x, x ∈ t.teams ↔ x ∈ s.teams ∧ x.grid ≠ id) ∧
        t.grids = s.grids.filter (fun x => x.id != id) ∧ t.segs = s.segs ∧
        t.pkg? gr.rank = some p' ∧ p' = { p with children := p'.children } ∧
        (∀ n x, p'.children.get n = some x → x.1 ≠ id) ∧ t.host = s.host ∧
        (∀ tm, gr.parent = some tm → ∀ parent, t.team? tm = some parent → ∀ n g, s.group? n = some g →
          t.group? n = some (if g.tid = tm then g.wakeIdle else g)) ∧
        (gr.parent = none → t.groups = s.groups)) ∧
    ((∀ t ∈ s.teams, t.grid = id → gone t) → ∀ hdr a, gr.desc = some (hdr, a) → s.host.mem.bytes.num (a + 0x60) 8 = 0 →
      (hdr + 0x1C ≤ a ∨ a + 0x70 ≤ hdr) → memoriesOk s = true →
      ∃ t, exec (.gridRetire id) s = .next t ∧ t.grids = s.grids.filter (fun x => x.id != id) ∧
        t.segs = s.segs.filter (fun x => x.grid != id) ∧ t.host.mem.bytes.num (a + 4) 4 = gr.status % 2 ^ 32 ∧
        (∀ p q, s.pkg? gr.rank = some p → p.queue? hdr = some q →
          t.host.mem.bytes.num (hdr + 0x18) 4 = (q.head + 1) % 2 ^ 32) ∧
        t.host.events = s.host.events ++ [(gr.rank, 0)] ∧ .event (.gridDispatch gr.rank) ∈ t.agenda ∧ t.groups = s.groups)

/-- QUEUE_DOORBELL (R444): a queue without a slot whose TAIL differs from HEAD becomes waiting, last; one that is already waiting or has
nothing does not; a mapped one has the dispatcher look again. -/
def Sys2Proof.Claims.QueueDoorbells : Prop :=
  ∀ (rank value : Nat) (s : State) (p : Pkg), s.pkg? rank = some p →
    let hdr := value / 64 * 64
    let mapped : Prop := ∃ e ∈ p.qslots, e.2.hdr = hdr
    let waiting : Prop := ∃ q ∈ p.qwait, q.hdr = hdr
    let head := ((p.queue? hdr).map (·.head)).getD (s.host.mem.bytes.num (hdr + 0x18) 4)
    let tail := s.host.mem.bytes.num (hdr + 0x1C) 4
    (mapped → ∃ t, exec (.queueDoorbell rank value) s = .next t ∧ { t with agenda := s.agenda } = s ∧
      .event (.gridDispatch rank) ∈ t.agenda) ∧
    (¬mapped → waiting ∨ tail = head → exec (.queueDoorbell rank value) s = .next s) ∧
    (¬mapped → ¬waiting → tail ≠ head → ∃ t q, exec (.queueDoorbell rank value) s = .next t ∧
      PkgBecomes s t rank { p with qwait := p.qwait ++ [q] } ∧ q.hdr = hdr ∧ q.head = head ∧
      q.prio = s.host.mem.bytes.num (hdr + 0x0C) 1 ∧ .event (.queueMapRound rank) ∈ t.agenda)

/-- QUEUE_MAP_ROUND (R157, R444): in a round that has not been made, the one waiting queue takes the lowest free slot, with the
context that its header names; the dispatcher then looks at it. In a round that has been made nothing is mapped. -/
def Sys2Proof.Claims.QueueRounds : Prop :=
  ∀ (rank : Nat) (s : State) (p : Pkg), s.pkg? rank = some p →
    let round := s.cyc / (20 * Config.usec)
    (round ≤ p.round → ∃ t, exec (.queueMapRound rank) s = .next t ∧ { t with agenda := s.agenda } = s) ∧
    (p.round < round → ∀ q, p.qwait = [q] → queueFenced s rank q = false → p.qslots.length < 4096 →
      let d := s.host.mem.bytes.num (q.hdr + 0x10) 8
      let w (i : Nat) : Nat := s.host.mem.bytes.num (d + 8 * i) 8
      ∃ (t : State) (p' : Pkg) (n : Nat) (q' : Queue) (c : Ctx), exec (.queueMapRound rank) s = .next t ∧ t.pkg? rank = some p' ∧
        p'.qwait = [] ∧ p.qslots.get n = none ∧ (∀ m, m < n → p.qslots.get m ≠ none) ∧ p'.qslots.get n = some q' ∧
        (∀ m, m ≠ n → p'.qslots.get m = p.qslots.get m) ∧ p'.round = round ∧
        q'.hdr = q.hdr ∧ q'.head = q.head ∧ q'.next = q.next ∧ q'.ctx = w 0 % 2 ^ 16 ∧ q'.round = round ∧
        t.ctx? rank (w 0 % 2 ^ 16) = some c ∧ c.ptroot = w 1 ∧ c.spbase = w 2 % 2 ^ 57 ∧ c.spstride = w 3 % 2 ^ 41 ∧
        c.spcount = w 4 % 2 ^ 18 ∧ c.gtbase = w 5 % 2 ^ 57 ∧ c.rwbase = w 6 % 2 ^ 57 ∧ c.rankmap = w 7 ∧ c.trapvec = w 8 ∧
        c.csave = w 9 ∧ c.tsave = w 10 ∧ .event (.gridDispatch rank) ∈ t.agenda ∧
        { p' with qslots := p.qslots, qwait := p.qwait, round := p.round } = p ∧
        (∀ r, r ≠ rank → t.pkg? r = s.pkg? r) ∧ SameBytes s t)

/-- GRID_DISPATCH (R158, R445): the next descriptor of the package's one mapped queue, when its WAIT words have reached their
thresholds and SERIAL is satisfied, starts a host grid of its fields, at depth 0, and deals its first team; a descriptor with a
field out of its limits retires with STATUS ERROR. -/
def Sys2Proof.Claims.GridDispatches : Prop :=
  ∀ (rank : Nat) (s : State) (p : Pkg) (n : Nat) (q : Queue) (c : Ctx), s.pkg? rank = some p → p.qslots = [(n, q)] →
    s.ctx? rank q.ctx = some c → c.fenced = false → (∀ g ∈ s.grids, g.id < s.fresh ∧ (g.rank = rank → g.started = true)) →
    let host (a k : Nat) : Nat := s.host.mem.bytes.num a k
    q.next ≠ host (q.hdr + 0x1C) 4 → 1 ≤ host (q.hdr + 0x08) 4 →
    let a := host q.hdr 8 + 128 * (q.next % host (q.hdr + 0x08) 4)
    let w (o k : Nat) : Nat := host (a + o) k
    let event (o : Nat) : Prop := w o 8 = 0 ∨ (w o 8 % 8 = 0 ∧ w o 8 < 2 ^ 20)
    let launch : Prop := w 8 8 % 4 = 0 ∧ w 8 8 < 2 ^ 57 ∧ 1 ≤ w 0x18 4 ∧ 1 ≤ w 0x1C 4 ∧ 1 ≤ w 0x20 4 ∧
      w 0x18 4 * w 0x1C 4 * w 0x20 4 ≤ 2 ^ 32 ∧ 1 ≤ w 0x26 1 ∧ 1 ≤ w 0x27 1 ∧ w 0x24 1 + w 0x26 1 ≤ 8 ∧
      w 0x25 1 + w 0x27 1 ≤ 16 ∧ 1 ≤ w 0x28 1 ∧ w 0x28 1 < 16 ∧ 1 ≤ w 0x29 1 ∧ w 0x29 1 ≤ 64 ∧ w 0x2A 1 ≤ 16 ∧
      w 0x2B 1 ≤ 7 ∧ 1 ≤ w 0x2C 1 ∧ w 0x2C 1 ≤ 3 ∧ w 0x2E 2 ≤ 128 ∧ w 0x30 4 ≤ 12288 ∧ 66 * 2 ^ 20 ≤ c.spstride ∧ 1 ≤ c.spcount
    let good : Prop := w 1 1 < 8 ∧ w 2 2 = 0 ∧ w 0x2D 1 = 0 ∧ w 0x34 4 = 0 ∧ w 0x70 16 = 0 ∧ event 0x40 ∧ event 0x50 ∧
      event 0x60 ∧ (w 0 1 = 2 ∨ (w 0 1 = 1 ∧ launch))
    let reached (o : Nat) : Prop := w o 8 = 0 ∨ (w o 8 + 8 ≤ 0xF0000 ∧ w (o + 8) 8 ≤ p.window.bytes.num (w o 8) 8)
    (good → w 0 1 = 1 → reached 0x40 → reached 0x50 →
      (w 1 1 % 2 = 1 → ∀ g ∈ s.grids, g.rank = rank → ∀ d, g.desc = some d → d.1 ≠ q.hdr) → segsFit s rank (w 0x30 4) (w 0x28 1) = true →
      ∃ (t : State) (g : Grid) (tm : Team), exec (.gridDispatch rank) s = .next t ∧ g ∈ t.grids ∧ g.rank = rank ∧ g.ctx = q.ctx ∧ g.depth = 0 ∧
        g.root = g.id ∧ g.parent = none ∧ g.nx = w 0x18 4 ∧ g.ny = w 0x1C 4 ∧ g.nz = w 0x20 4 ∧ g.row0 = w 0x24 1 ∧
        g.col0 = w 0x25 1 ∧ g.rows = w 0x26 1 ∧ g.cols = w 0x27 1 ∧ (∀ d, d ∈ g.dies ↔ d < 4 ∧ w 0x28 1 / 2 ^ d % 2 = 1) ∧
        g.groups = w 0x29 1 ∧ g.tiles = w 0x2A 1 ∧ g.priority = min (host (q.hdr + 0x0C) 1) (w 0x2B 1) ∧ g.nbv = w 0x2C 1 ∧
        g.smem = w 0x2E 2 ∧ g.seg = w 0x30 4 ∧ g.seed.toNat = w 0x38 8 ∧ g.args.toNat = w 0x10 8 ∧
        (g.det = true ↔ w 1 1 / 2 % 2 = 1) ∧ (g.spTrap = true ↔ w 1 1 / 4 % 2 = 1) ∧ g.desc = some (q.hdr, a) ∧
        g.started = true ∧ g.nextTeam = 1 ∧
        (∀ x ∈ s.grids, x ∈ t.grids) ∧
        t.teams = s.teams ++ [tm] ∧ tm.grid = g.id ∧ tm.x = 0 ∧ tm.y = 0 ∧ tm.z = 0 ∧ tm.die ∈ g.dies ∧ tm.st = .waiting ∧
        tm.holding = w 0x2E 2 ∧ tm.tiles = w 0x2A 1 ∧ .event (.teamPlace rank tm.die) ∈ t.agenda ∧ t.groups = s.groups) ∧
    (¬good → w 0x60 8 = 0 → (q.hdr + 0x1C ≤ a ∨ a + 0x70 ≤ q.hdr) → memoriesOk s = true → ∃ t, exec (.gridDispatch rank) s = .next t ∧ t.host.mem.bytes.num (a + 4) 4 = 8 ∧
      t.host.mem.bytes.num (q.hdr + 0x18) 4 = (q.head + 1) % 2 ^ 32 ∧ t.host.events = s.host.events ++ [(rank, 0)] ∧
      t.grids = s.grids ∧ t.teams = s.teams ∧ t.groups = s.groups)

/-- TEAM_PLACE (R155, R159): the one team that waits at a die, in a context without other groups, is placed on the first core of its
rectangle, in row-major order, that has places, memory and tiles for it; its groups start as R17, R29, R133 and R199 give. -/
def Sys2Proof.Claims.TeamPlacement : Prop :=
  ∀ (rank die : Nat) (s : State) (gr : Grid) (tm : Team) (cx : Ctx) (c : CoreId) (pre post : List CoreId),
    placing s rank die = [(gr, tm)] → tm.st = .waiting → s.team? tm.tid = some tm → s.grid? gr.id = some gr →
    s.ctx? gr.rank gr.ctx = some cx → (∀ g ∈ s.groups, g.tid ≠ tm.tid ∧ ¬(g.rank = gr.rank ∧ g.ctx = cx.id)) → gr.groups ≤ cx.spcount →
    (List.range gr.rows).flatMap (fun r => (List.range gr.cols).map fun k => (⟨gr.rank, tm.die, gr.row0 + r, gr.col0 + k⟩ : CoreId)) =
      pre ++ c :: post →
    (∀ x ∈ pre, coreFits s x gr.groups tm.holding tm.tiles = false) → coreFits s c gr.groups tm.holding tm.tiles = true →
    ∃ (t : State) (tm' : Team), exec (.teamPlace rank die) s = .next t ∧ t.team? tm.tid = some tm' ∧ tm'.st = .resident ∧ tm'.core = c ∧
      { tm' with st := tm.st, core := tm.core, placed := tm.placed, gids := tm.gids, wins := tm.wins, seats := tm.seats } = tm ∧
      (t.groups.filter fun g => g.tid == tm.tid).map (·.num) = List.range gr.groups ∧
      (∀ g ∈ s.groups, g ∈ t.groups) ∧
      ∀ g ∈ t.groups, g.tid = tm.tid → g.rank = tm.rank ∧ g.ctx = gr.ctx ∧ g.grid = gr.id ∧ g.core = c ∧ g.lane < 32 ∧ g.place < 4 ∧
        g.wave = none ∧ g.win = g.num ∧ g.wspb = sext57 cx.spbase + BitVec.ofNat 64 (g.num * cx.spstride + 2 ^ 21) ∧ g.kr 0 = gr.args ∧
        g.kr 1 = BitVec.ofNat 64 (gr.nx + gr.ny * 2 ^ 32) ∧ g.kr 2 = BitVec.ofNat 64 (gr.nz + gr.groups * 2 ^ 32) ∧
        (∀ n, 3 ≤ n → g.kr n = 0) ∧ g.q = 0 ∧ g.nbv = gr.nbv ∧ g.exited = 0 ∧ g.trap.tmode = false ∧
        g.frag 0 = some { mask := 0xFFFF, clause := gr.entry, word := 0, recx := 31, st := .ready, age := 0, hdr := none, wait := none } ∧
        (∀ e, 1 ≤ e → g.frag e = none) ∧ .lane c g.lane ∈ t.agenda ∧
        ∀ slot, slot < 16 → let x := g.thread slot
          x.wbase = 0 ∧ x.rbase = 0 ∧ x.frame = 64 ∧ x.cdepth = 0 ∧ x.links = [] ∧ x.p = 0 ∧ (∀ n, x.v n = 0) ∧
          x.s0 = gr.seed ^^^ BitVec.ofNat 64 (((tm.x + gr.nx * (tm.y + gr.ny * tm.z)) * 64 + g.num) * 16 + slot) ∧
          x.s1 = ~~~gr.seed

/-- PREEMPT_REQUEST (R160, R409): with no switch under way, the resident team of the lowest priority, the most recently placed of
those, in the rectangle of a team of higher priority that fits nowhere, begins to stop; with a switch under way, the groups of
its team stop; and with neither nothing happens. -/
def Sys2Proof.Claims.Preemption : Prop :=
  ∀ (rank : Nat) (s : State),
    ((∀ t ∈ s.teams, t.rank = rank → t.st ≠ .stopping ∧ t.st ≠ .saving) →
      ((∀ d, d < 4 → placing s rank d = []) → exec (.preemptRequest rank) s = .next s) ∧
      (∀ d gr tm v, d < 4 → placing s rank d = [(gr, tm)] → (∀ e, e < 4 → e ≠ d → placing s rank e = []) →
        firstCore s gr tm = none → s.team? v.tid = some v →
        (∃ x, (x, v) ∈ victims s gr tm.die ∧ ∀ y u, (y, u) ∈ victims s gr tm.die →
          x < y ∨ (x = y ∧ (u.placed < v.placed ∨ u = v))) →
        ∃ t, exec (.preemptRequest rank) s = .next t ∧ t.team? v.tid = some { v with st := .stopping } ∧
          (∀ n, n ≠ v.tid → t.team? n = s.team? n) ∧ .event (.preemptRequest rank) ∈ t.agenda ∧
          { t with teams := s.teams, agenda := s.agenda } = s)) ∧
    (∀ v, s.teams.find? (fun t => t.rank == rank && (t.st == .stopping || t.st == .saving)) = some v → v.st = .stopping →
      s.team? v.tid = some v → (∃ n ∈ v.gids, ∃ g, s.group? n = some g ∧ g.trap.tmode = true ∧ g.trap.faulted = false ∧ g.stopped = false) →
      ∃ t, exec (.preemptRequest rank) s = .next t ∧ t.teams = s.teams ∧ .event (.preemptRequest rank) ∈ t.agenda ∧ SameBytes s t ∧
        ∀ n g, s.group? n = some g → ∃ g', t.group? n = some g' ∧
          g'.stopped = (g.stopped || (v.gids.contains n && !g.trap.tmode && !g.trap.faulted && !g.latched)) ∧
          g'.threads = g.threads ∧ g'.k = g.k ∧ g'.trap = g.trap ∧ g'.flights = g.flights)

/-! ### The links -/

/-- FLIT_SEND (R436 to R439): nothing is sent while the link trains or is down, without a LIVE slot, or while 64 flits are
unacknowledged; a resend comes first, byte for byte; otherwise the next payload, or an IDLE flit, is sealed under the LIVE slot with
its counter, which goes up by one, and FSEQ counts it; it carries the report of the other direction's receiver, whose OLD slot is
erased if that covers its MARKER. A key at LKTHR gives way to a slot that is loaded; one that has protected 2^40 flits with none
loaded is erased and the link goes down, cause 2. -/
def Sys2Proof.Claims.FlitSending : Prop :=
  ∀ (l : LinkId) (s : State) (p : Pkg), s.pkg? l.rank = some p →
    let k := s.link l
    let b := s.link (otherWay l)
    let slot (i : Nat) : KeySlot := k.tx.slots[i]?.getD KeySlot.empty
    let idle : Prop := k.training = false ∧ k.tx.down = false
    (k.training = true ∨ k.tx.down = true → exec (.flitSend l) s = .next s) ∧
    (idle → k.resend = 0 → (slot 0).st ≠ 2 → (slot 1).st ≠ 2 → exec (.flitSend l) s = .next s) ∧
    (idle → k.resend = 0 → 64 ≤ k.unacked.length → ∃ t, exec (.flitSend l) s = .next t ∧ { t with agenda := s.agenda } = s) ∧
    (idle → ∀ pre f post, k.unacked = pre ++ f :: post → k.resend = post.length + 1 →
      ∃ t, exec (.flitSend l) s = .next t ∧ .event (.flitReceive l) ∈ t.agenda ∧ LinkBecomes s t l
        { k with wire := k.wire ++ [f], resend := post.length, resending := if post = [] then none else k.resending }) ∧
    (idle → k.resend = 0 → k.unacked.length < 64 → ∀ i c, i < 2 → c + i = 1 → (slot i).st = 2 → (slot c).st ≠ 2 →
      ((slot c).st ≠ 1 → (slot i).counter + 1 < 2 ^ 40 → (slot i).counter + 1 < k.tx.thr →
        let next := k.sendq.headD .idle
        let r := returned s b next
        let f : Flit := { type := (match next with
                            | .idle => 0
                            | .data _ => 1
                            | .marker _ => 2
                            | .control _ _ => 3)
                          kslot := i, fseq := k.fseq, ackseq := (b.expect + 65535) % 2 ^ 16, nak := b.nakDue, credit := r.2
                          cvc := r.1, key := (slot i).key, salt := (slot i).salt, counter := (slot i).counter
                          payload := next, corrupt := false }
        ∃ t b', exec (.flitSend l) s = .next t ∧ .event (.flitReceive l) ∈ t.agenda ∧ LinkPairBecomes s t l
          { k with fseq := (k.fseq + 1) % 2 ^ 16, unacked := k.unacked ++ [f], wire := k.wire ++ [f], sendq := k.sendq.tail
                   tx := { k.tx with slots := k.tx.slots.setIfInBounds i { slot i with counter := (slot i).counter + 1 } } } b' ∧
          { b' with rxMarker := b.rxMarker, rx := b.rx } = { b with
              nakDue := false, freed := if r.1 then b.freed else b.freed - r.2
              freedMelt := if r.1 then b.freedMelt - r.2 else b.freedMelt } ∧
          (b.rxMarker = none → b'.rxMarker = none ∧ b'.rx = b.rx) ∧
          ∀ m old, b.rxMarker = some m → old < 2 → (b.rx.slots[old]?).map (·.st) = some 3 →
            (b.rx.slots[1 - old]?).map (·.st) ≠ some 3 → b'.rxMarker = none ∧ b'.rx.slots[old]? = some KeySlot.empty) ∧
      ((slot c).st = 1 → k.tx.thr ≤ (slot i).counter → (slot i).counter < 2 ^ 40 →
        ∃ t f, exec (.flitSend l) s = .next t ∧ (t.link l).unacked = k.unacked ++ [f] ∧ f.payload = .marker c ∧ f.kslot = i ∧
          (t.link l).marker = some k.fseq ∧ ((t.link l).tx.slots[i]?).map (·.st) = some 3 ∧
          ((t.link l).tx.slots[c]?).map (·.st) = some 2 ∧ (t.link l).sendq = k.sendq) ∧
      ((slot c).st ≠ 1 → 2 ^ 40 ≤ (slot i).counter + 1 → ∃ t, exec (.flitSend l) s = .next t ∧ (t.link l).tx.down = true ∧
        (t.link l).tx.dcause = 2 ∧ (t.link l).rx.down = true ∧ (t.link l).tx.slots[i]? = some KeySlot.empty ∧
        (t.link l).unacked = [] ∧ (t.link l).wire = [] ∧ (l.rank, 1) ∈ t.host.events))

/-- FLIT_RECEIVE (R436 to R440, R472): the flit of the expected FSEQ that opens under a LIVE or OLD slot is accepted and counted: its
ACKSEQ retires the other direction's flits, its CREDIT returns buffer slots, its NAK is taken next; a DATA flit's packet enters the
node, a MARKER makes the slot that it names LIVE and the old one OLD, and every flit but an IDLE has the other direction answer. The
counter that reaches LKTHR sets THRX. A flit of another FSEQ is discarded, and a NAK is due unless one was within the hold-off; one
that does not open is counted in AUTHF, and the third in a row takes the link down, cause 1. -/
def Sys2Proof.Claims.FlitReceiving : Prop :=
  ∀ (l : LinkId) (s : State) (p : Pkg) (f : Flit) (rest : List Flit), s.pkg? l.rank = some p → (s.link l).wire = f :: rest →
    let k := s.link l
    let b := s.link (otherWay l)
    let slot (i : Nat) : KeySlot := k.rx.slots[i]?.getD KeySlot.empty
    let good : Prop := f.fseq = k.expect ∧ f.type < 4 ∧ f.kslot < 2 ∧ ((slot f.kslot).st = 2 ∨ (slot f.kslot).st = 3)
    let opened : Prop := f.corrupt = false ∧ (slot f.kslot).key = f.key ∧ (slot f.kslot).salt = f.salt ∧
      (slot f.kslot).counter = f.counter
    let more : KeySlot := { slot f.kslot with counter := (slot f.kslot).counter + 1 }
    let accepted : Link := { k with
      wire := rest, expect := (k.expect + 1) % 2 ^ 16, fails := 0, holdoff := none, nakDue := false
      rx := { k.rx with slots := k.rx.slots.setIfInBounds f.kslot more } }
    let left := b.unacked.filter fun x => decide (2 ^ 15 ≤ (f.ackseq + 2 ^ 16 - x.fseq) % 2 ^ 16)
    let told : Link := { b with
      unacked := left, resend := min b.resend left.length, used := if f.cvc then b.used else b.used - f.credit
      usedMelt := if f.cvc then b.usedMelt - f.credit else b.usedMelt, nakIn := if f.nak then some f.ackseq else b.nakIn }
    let quiet : Prop := more.counter < k.rx.thr
    (f.fseq ≠ k.expect → k.holdoff = none → ∃ t, exec (.flitReceive l) s = .next t ∧ LinkBecomes s t l
        { k with wire := rest, nakDue := true, holdoff := some s.cyc } ∧
      .event (.flitSend (otherWay l)) ∈ t.agenda ∧ .event (.nakHoldoffExpire l) ∈ t.agenda) ∧
    (f.fseq ≠ k.expect → ∀ c, k.holdoff = some c → ∃ t, exec (.flitReceive l) s = .next t ∧
      LinkBecomes s t l { k with wire := rest }) ∧
    (good → opened → quiet → f.payload = .idle → b.marker = none → ∃ t p', exec (.flitReceive l) s = .next t ∧
      LinkPairBecomes s t l accepted told ∧ (f.nak = true → .event (.nakReceive (otherWay l)) ∈ t.agenda) ∧
      t.pkg? l.rank = some p' ∧ p'.heard = if l.out then s.cyc else p.heard) ∧
    (good → opened → f.payload = .idle → b.marker = none → (slot f.kslot).st = 2 → (slot (1 - f.kslot)).st ≠ 2 →
      more.counter = k.rx.thr → k.rx.thrx = false →
      ∃ t, exec (.flitReceive l) s = .next t ∧ t.link l = { accepted with rx := { accepted.rx with thrx := true } } ∧
        t.host.events = s.host.events ++ [(l.rank, 1)]) ∧
    (good → opened → f.payload = .idle → ∀ m old, b.marker = some m → (f.ackseq + 2 ^ 16 - m) % 2 ^ 16 < 2 ^ 15 → old < 2 →
      (b.tx.slots[old]?).map (·.st) = some 3 → (b.tx.slots[1 - old]?).map (·.st) ≠ some 3 →
      ∃ t, exec (.flitReceive l) s = .next t ∧ (t.link (otherWay l)).marker = none ∧
        (t.link (otherWay l)).tx.slots[old]? = some KeySlot.empty) ∧
    (good → opened → quiet → ∀ id pk, f.payload = .data id → s.packet? id = some pk →
      let n : NodeId := if l.out then .col1 l.port (Config.l1Of l.rank) else .port l.rank l.port
      let i : Nat := if l.out then l.rank else 0
      ∃ t pk', exec (.flitReceive l) s = .next t ∧ t.packet? id = some pk' ∧ pk'.place = some (n, i) ∧ t.link l = accepted ∧
        (f.cvc = false → ((t.node n).buf i).pkts = ((s.node n).buf i).pkts ++ [id] ∧
          (if l.out then .subject .packetHop id else .subject .packetDeliver id) ∈ t.agenda) ∧
        (f.cvc = true → ((t.node n).buf i).melt = some id ∧ ((t.node n).buf i).pkts = ((s.node n).buf i).pkts ∧
          (if l.out then .event (.meltwaterMove n i) else .subject .packetDeliver id) ∈ t.agenda) ∧
        .event (.flitSend (otherWay l)) ∈ t.agenda ∧ SameBytes s t) ∧
    (good → opened → quiet → ∀ new old, f.payload = .marker new → new < 2 → old + new = 1 → f.kslot = old → (slot old).st = 2 →
      (slot new).st = 1 → b.marker = none →
      let slots := (k.rx.slots.setIfInBounds old { more with st := 3 }).setIfInBounds new { slot new with st := 2 }
      ∃ t, exec (.flitReceive l) s = .next t ∧
        LinkPairBecomes s t l { accepted with rxMarker := some f.fseq, rx := { k.rx with slots := slots } } told ∧
        .event (.flitSend (otherWay l)) ∈ t.agenda) ∧
    (good → ¬opened → ∃ t p', exec (.flitReceive l) s = .next t ∧ t.pkg? l.rank = some p' ∧ p'.authf = min 65535 (p.authf + 1) ∧
      (k.fails < 2 → (t.link l).fails = k.fails + 1 ∧ (t.link l).expect = k.expect ∧ (t.link l).rx = k.rx) ∧
      (k.fails = 2 → (t.link l).tx.down = true ∧ (t.link l).tx.dcause = 1 ∧ (t.link l).rx.down = true ∧
        t.host.events = s.host.events ++ [(l.rank, 1)]))

/-- NAK_RECEIVE (R438, R472): a NAK begins a resend of every flit after its ACKSEQ, modulo 2^16, unless one from there is under way or
none is left. NAK_HOLDOFF_EXPIRE ends the hold-off after 2 µs. -/
def Sys2Proof.Claims.LinkReports : Prop :=
  ∀ (l : LinkId) (s : State) (p : Pkg), s.pkg? l.rank = some p →
    let k := s.link l
    (k.nakIn = none → exec (.nakReceive l) s = .next s) ∧
    (∀ ack, k.nakIn = some ack →
      let left := k.unacked.filter fun f => decide (2 ^ 15 ≤ (ack + 2 ^ 16 - f.fseq) % 2 ^ 16)
      let again : Prop := k.resending ≠ some ((ack + 1) % 2 ^ 16) ∧ left ≠ []
      ∃ t, exec (.nakReceive l) s = .next t ∧
        (¬again → LinkBecomes s t l { k with nakIn := none }) ∧
        (again → LinkBecomes s t l { k with nakIn := none, resend := left.length, resending := some ((ack + 1) % 2 ^ 16) } ∧
          .event (.flitSend l) ∈ t.agenda)) ∧
    (k.holdoff = none → exec (.nakHoldoffExpire l) s = .next s) ∧
    (∀ c, k.holdoff = some c →
      (c + 2 * Config.usec ≤ s.cyc → ∃ t, exec (.nakHoldoffExpire l) s = .next t ∧ LinkBecomes s t l { k with holdoff := none }) ∧
      (s.cyc < c + 2 * Config.usec →
        exec (.nakHoldoffExpire l) s = .next { s with agenda := s.agenda ++ [.event (.nakHoldoffExpire l)] }))

/-- The key registers (R437, R439, R440, R471): LOAD puts LKKEY0 to LKKEY3 and LKSALT into the slot of LKCTL.SLOT, with counter 0, unless
it is LIVE or OLD; SWITCH sends a MARKER under the LIVE slot, which becomes OLD, and the loaded slot becomes LIVE, once training has
ended and fewer than 64 flits are unacknowledged, and not under a key that has protected 2^40 flits; RETRAIN empties both slots of
both ends, with FSEQ 0, and the link comes up when training is done; a write to the partner travels as a CONTROL flit, and is
ignored while the link is down. -/
def Sys2Proof.Claims.LinkKeys : Prop :=
  ∀ (l : LinkId) (s : State) (p : Pkg), s.pkg? l.rank = some p →
    let k := s.link l
    let b := s.link (otherWay l)
    (∀ tx : Bool,
      let r := if tx then k.tx else k.rx
      let key := (r.key[0]).toNat + (r.key[1]).toNat * 2 ^ 64 + (r.key[2]).toNat * 2 ^ 128 + (r.key[3]).toNat * 2 ^ 192
      let loaded : KeyRegs := if ((r.slots[r.slot]?).map (·.st)).getD 0 ≤ 1
        then { r with slots := r.slots.setIfInBounds r.slot ⟨1, key, r.salt, 0⟩ } else r
      ∃ t, exec (.linkKeyLoad l tx) s = .next t ∧
        LinkBecomes s t l (if tx then { k with tx := loaded } else { k with rx := loaded })) ∧
    ((∀ i, i < 2 → (k.tx.slots[i]?).map (·.st) ≠ some 1) → exec (.linkKeySwitch l) s = .next s) ∧
    (∀ old new a c, new < 2 → old + new = 1 → k.tx.slots[old]? = some a → k.tx.slots[new]? = some c → a.st = 2 → c.st = 1 →
      (2 ^ 40 ≤ a.counter → exec (.linkKeySwitch l) s = .next s) ∧
      (a.counter < 2 ^ 40 → k.training = true ∨ (64 ≤ k.unacked.length ∧ k.tx.down = false) →
        ∃ t, exec (.linkKeySwitch l) s = .next t ∧ { t with agenda := s.agenda } = s ∧ .event (.linkKeySwitch l) ∈ t.agenda) ∧
      (a.counter < 2 ^ 40 → k.training = false → k.tx.down = false → k.unacked.length < 64 → k.resend = 0 → b.rxMarker = none →
        a.counter + 1 < k.tx.thr →
        let r := returned s b (.marker new)
        let f : Flit := { type := 2, kslot := old, fseq := k.fseq, ackseq := (b.expect + 65535) % 2 ^ 16, nak := b.nakDue
                          credit := r.2, cvc := r.1, key := a.key, salt := a.salt, counter := a.counter
                          payload := .marker new, corrupt := false }
        let switched := (k.tx.slots.setIfInBounds old { a with st := 3, counter := a.counter + 1 }).setIfInBounds new { c with st := 2 }
        ∃ t, exec (.linkKeySwitch l) s = .next t ∧ .event (.flitReceive l) ∈ t.agenda ∧ LinkPairBecomes s t l
          { k with fseq := (k.fseq + 1) % 2 ^ 16, unacked := k.unacked ++ [f], wire := k.wire ++ [f], marker := some k.fseq
                   tx := { k.tx with slots := switched } }
          { b with nakDue := false, freed := if r.1 then b.freed else b.freed - r.2
                   freedMelt := if r.1 then b.freedMelt - r.2 else b.freedMelt })) ∧
    (∃ t, exec (.linkRetrain l) s = .next t ∧ (t.link l).training = true ∧ (t.link l).fseq = 0 ∧ (t.link l).expect = 0 ∧
      (t.link l).unacked = [] ∧ (t.link l).wire = [] ∧ (t.link l).tx.down = true ∧ (t.link l).tx.dcause = 3 ∧
      (t.link l).rx.down = true ∧ (∀ i, i < 2 → (t.link l).tx.slots[i]? = some KeySlot.empty ∧
        (t.link l).rx.slots[i]? = some KeySlot.empty) ∧ .event (.linkTrainDone l) ∈ t.agenda) ∧
    (k.training = true → ∃ t, exec (.linkTrainDone l) s = .next t ∧ LinkBecomes s t l
      { k with training := false, tx := { k.tx with down := false, dcause := 0 }, rx := { k.rx with down := false, dcause := 0 } }) ∧
    (k.training = false → exec (.linkTrainDone l) s = .next s) ∧
    ∀ (offset value : Nat), l.out = true →
      let live : Prop := k.tx.down = false ∧ k.training = false ∧ ∃ i, i < 2 ∧ (k.tx.slots[i]?).map (·.st) = some 2
      (¬live → exec (.partnerRegWrite l offset value) s = .next s) ∧
      (live → ∃ t, exec (.partnerRegWrite l offset value) s = .next t ∧ .event (.flitSend l) ∈ t.agenda ∧
        LinkBecomes s t l { k with sendq := k.sendq ++ [.control offset (value % 2 ^ 64)] })

/-! ### The fabric -/

/-- The port that a packet takes (R428): of the minimal ports with a free slot, the one with the most free slots; then the shorter
queue; then the lower number, which is the earlier in the list. -/
def Sys2Proof.Claims.PortChoice : Prop :=
  ∀ (s : State) (es : List Egress) (e : Egress), pickPort s es = some e ↔
    (e.room s).1 ≠ 0 ∧ ∃ pre post, es = pre ++ e :: post ∧
      (∀ x ∈ pre, (x.room s).1 < (e.room s).1 ∨ (x.room s).1 = (e.room s).1 ∧ (e.room s).2 < (x.room s).2) ∧
      ∀ x ∈ post, (x.room s).1 < (e.room s).1 ∨ (x.room s).1 = (e.room s).1 ∧ (e.room s).2 ≤ (x.room s).2

/-- PACKET_HOP (R310, R428, R433, R436): the packet at the head of its buffer, or any packet of a deflecting switch, leaves by its port:
onto a link, taking a slot of its partner's buffer, or into the next switch, where its age starts anew unless that switch deflects;
the slot that it leaves is to be returned. With no port free it waits, and with none usable its LINK timer runs. -/
def Sys2Proof.Claims.PacketHops : Prop :=
  ∀ (s : State) (pk : Packet) (n : NodeId) (i : Nat), s.packet? s.subj = some pk → pk.place = some (n, i) → pk.melt = false →
    let deflects := (s.node n).deflecting
    let ports := minimalPorts s n pk
    let turn : Prop := deflects = true ∨ ((s.node n).buf i).pkts.head? = some pk.id
    let again : State := { s with agenda := s.agenda ++ [.subject .packetHop pk.id] }
    let left (t : State) : Prop := ((t.node n).buf i).pkts = ((s.node n).buf i).pkts.filter (· != pk.id) ∧
      ∀ l q, feedOf n i = some l → s.pkg? l.rank = some q → t.link l =
        (if ((s.node n).buf i).melt = some pk.id then { s.link l with freedMelt := (s.link l).freedMelt + 1 }
          else { s.link l with freed := (s.link l).freed + 1 })
    (¬turn → exec .packetHop s = .next again) ∧
    (turn → switchTakes s n pk = none →
      let port : Option Egress :=
        if deflects then deflectPort (if ports.isEmpty then noPort s pk else s) n pk else pickPort s ports
      (port = none → ports ≠ [] → exec .packetHop s = .next again) ∧
      (port = none → ports = [] → ∃ t, exec .packetHop s = .next t ∧ .subject .packetHop pk.id ∈ t.agenda ∧
        t.packet? pk.id = some { pk with stuck := pk.stuck <|> some s.cyc } ∧ { t with fab := s.fab, agenda := s.agenda } = s ∧
        t.fab.nodes = s.fab.nodes ∧ (∀ o, pk.op? = some o → pk.stuck = none → .subject .chunkLinkTimeout o ∈ t.agenda)) ∧
      (∀ l p, port = some (.link l) → s.pkg? l.rank = some p → ∃ t, exec .packetHop s = .next t ∧
        t.packet? pk.id = some { pk with place := none, marked := false, plane := l.port, stuck := none } ∧
        t.link l = { s.link l with sendq := (s.link l).sendq ++ [.data pk.id], used := (s.link l).used + 1 } ∧
        .event (.flitSend l) ∈ t.agenda ∧ (∀ m, m ≠ l → feedOf n i ≠ some m → t.link m = s.link m) ∧ left t ∧
        (∀ m, m ≠ n → t.node m = s.node m) ∧ { t with fab := s.fab, pkgs := s.pkgs, agenda := s.agenda } = s ∧ SameBytes s t) ∧
      (∀ m j, port = some (.node m j) → ∃ t pk', exec .packetHop s = .next t ∧ t.packet? pk.id = some pk' ∧
        pk' = { pk with place := some (m, j), marked := false, stuck := none
                        age := if (s.node m).deflecting then min 4095 (pk.age + 1) else 0 } ∧
        ((t.node m).buf j).pkts = ((s.node m).buf j).pkts ++ [pk.id] ∧ .subject .packetHop pk.id ∈ t.agenda ∧ left t ∧
        { t with fab := s.fab, pkgs := s.pkgs, agenda := s.agenda } = s))

/-- PACKET_DELIVER (R428, R433): a packet at its destination is consumed, and does what it carries: an access or a transfer is
performed, a reply lands, a message goes on to the next package of its way; a second copy, of an end-to-end number already
delivered, has no effect; a packet deflected to another package is routed again. -/
def Sys2Proof.Claims.PacketDelivers : Prop :=
  ∀ (s : State) (pk : Packet) (rank port i : Nat), s.packet? s.subj = some pk → pk.place = some (.port rank port, i) →
    let seen := (s.fab.delivered.get (pk.src, pk.dest)).getD []
    let fabric (t : State) : Prop := { t with fab := s.fab, pkgs := s.pkgs, agenda := s.agenda } = s ∧ SameBytes s t
    (rank ≠ pk.dest → ∃ t pk', exec .packetDeliver s = .next t ∧ t.packet? pk.id = some pk' ∧
      pk' = { pk with place := some (.port rank 36, 0), melt := false, marked := false, stuck := none } ∧
      pk.id ∈ ((t.node (.port rank 36)).buf 0).pkts ∧ .subject .packetHop pk.id ∈ t.agenda ∧ fabric t) ∧
    (rank = pk.dest → pk.e2e ∈ seen → ∃ t, exec .packetDeliver s = .next t ∧ pk ∉ t.fab.packets ∧
      t.fab.delivered = s.fab.delivered ∧ fabric t) ∧
    (rank = pk.dest → pk.e2e ∉ seen → ∃ t, exec .packetDeliver s = .next t ∧
      t.fab.delivered.get (pk.src, pk.dest) = some (pk.e2e :: seen) ∧
      (∀ r, pk.body = .req r → .subject .peerAccess r ∈ t.agenda ∧ pk ∉ t.fab.packets ∧ fabric t) ∧
      (∀ x, pk.body = .xfer x → .subject .putLineApply x ∈ t.agenda ∧ pk ∉ t.fab.packets ∧ fabric t) ∧
      (∀ o ms, pk.body = .msg o [] (.moves ms) → (∀ m ∈ ms, m ∈ t.agenda) ∧ pk ∉ t.fab.packets ∧ fabric t) ∧
      (∀ o r legs c, pk.body = .msg o (r :: legs) c →
        (∃ q ∈ t.fab.packets, q.src = pk.dest ∧ q.dest = r ∧ q.body = .msg o legs c) ∧ SameBytes s t) ∧
      ∀ o gid seq slot rep g f, pk.body = .msg o [] (.reply gid seq slot rep) → s.group? gid = some g → f ∈ g.flights → f.seq = seq →
        slot < f.got.length → ∃ g' f', t.group? gid = some g' ∧ f' ∈ g'.flights ∧ f' = { f with got := f.got.set slot rep })

/-- The thaw token (R430, R431): a buffer whose head has not moved for 20 µs is SUSPECT; the token goes round the ring; at a node with
suspect buffers it stays, they become THAWING with up to 64 packets marked, and THAWS of the port's package counts; 10 ms without a
token start one of the next epoch at the lowest level 2 switch of plane 0. -/
def Sys2Proof.Claims.ThawToken : Prop :=
  ∀ (n : NodeId) (i : Nat) (s : State),
    let b := (s.node n).buf i
    let sus : Prop := ∃ x ∈ (s.node n).bufs, x.2.st = .suspect
    (b.pkts = [] ∨ b.st ≠ .normal → exec (.bufferSuspectTimeout n i) s = .next s) ∧
    (b.pkts ≠ [] → b.st = .normal → s.cyc < b.since + 20 * Config.usec →
      exec (.bufferSuspectTimeout n i) s = .next { s with agenda := s.agenda ++ [.event (.bufferSuspectTimeout n i)] }) ∧
    (b.pkts ≠ [] → b.st = .normal → b.since + 20 * Config.usec ≤ s.cyc → ∃ t, exec (.bufferSuspectTimeout n i) s = .next t ∧
      NodeBecomes s t n ((s.node n).modBuf i fun b => { b with st := .suspect }) fun F => F) ∧
    (s.fab.token ≠ some n → exec (.thawTokenArrive n) s = .next s) ∧
    (s.fab.token = some n → ¬sus → ∀ j m, s.fab.ring[j]? = some n → (∀ h, h < j → s.fab.ring[h]? ≠ some n) →
      s.fab.ring[(j + 1) % s.fab.ring.length]? = some m → ∃ t, exec (.thawTokenArrive n) s = .next t ∧
        t = { s with fab := { s.fab with token := some m, seen := if n = .col2 0 0 then s.cyc else s.fab.seen }
                     agenda := s.agenda ++ [.event (.thawTokenArrive m)] }) ∧
    (s.fab.token = some n → sus → ∃ t, exec (.thawTokenArrive n) s = .next t ∧ t.fab.token = some n ∧
      (∀ j x, (s.node n).bufs.get j = some x → x.st = .suspect →
        ((t.node n).buf j).st = .thawing ∧ ((t.node n).buf j).moved = s.cyc ∧ ((t.node n).buf j).pkts = x.pkts ∧
        (∀ id ∈ x.pkts.take 64, ∀ pk, t.packet? id = some pk → pk.marked = true) ∧ .event (.meltwaterMove n j) ∈ t.agenda ∧
        .event (.thawStallTimeout n j) ∈ t.agenda) ∧
      (((s.node n).bufs.map (·.1)).Nodup → ∀ j, ((s.node n).buf j).st ≠ .suspect → (t.node n).buf j = (s.node n).buf j) ∧
      (∀ rank port p, n = .port rank port → s.pkg? rank = some p → t.pkg? rank = some { p with thaws := min 65535 (p.thaws + 1) }) ∧
      { t with fab := s.fab, pkgs := s.pkgs, agenda := s.agenda } = s) ∧
    (s.fab.seen + 10000 * Config.usec ≤ s.cyc → exec .thawTokenReissue s = .next
      { s with fab := { s.fab with token := some (.col2 0 0), epoch := (s.fab.epoch + 1) % 2 ^ 16, seen := s.cyc }
               agenda := s.agenda ++ [.event (.thawTokenArrive (.col2 0 0)), .event .thawTokenReissue] }) ∧
    (s.cyc < s.fab.seen + 10000 * Config.usec → s.fab.ring ≠ [] →
      exec .thawTokenReissue s = .next { s with agenda := s.agenda ++ [.event .thawTokenReissue] })

/-- The meltwater lane (R429, R431, R433): its routes are fixed; the packet in the slot moves first, then, while the buffer is thawing, the
oldest marked one, into the slot downstream or out by a link; while that slot is taken, or the link is down, it waits, which is a
stall; a thawing buffer without marked packets is normal again; 100 µs without a move unmark its packets and a switch deflects. -/
def Sys2Proof.Claims.MeltwaterLane : Prop :=
  (∀ (s : State) (pk : Packet) (rank port plane k : Nat), linePlace s pk = none →
    (pk.plane < 36 → (s.link ⟨rank, pk.plane, true⟩).up = true → planeReaches s rank pk.plane pk = true →
      meltNext s (.port rank port) pk = .link ⟨rank, pk.plane, true⟩) ∧
    meltNext s (.col1 plane k) pk =
      (if Config.l1Of pk.dest = k then .link ⟨pk.dest, plane, false⟩ else .node (.col2 plane (Config.l2Of pk.dest)) k) ∧
    meltNext s (.col2 plane k) pk = .node (.col1 plane (Config.l1Of pk.dest)) (1024 + k)) ∧
  ∀ (n : NodeId) (i : Nat) (s : State),
    let b := (s.node n).buf i
    (∀ pk, s.packet? pk.id = some pk → pk.place = some (n, i) → (pk.melt = true → switchTakes s n pk = none) →
      (b.melt = some pk.id ∨ b.melt = none ∧ b.st = .thawing ∧ pk.marked = true ∧ ∃ pre post, b.pkts = pre ++ pk.id :: post ∧
        ∀ x ∈ pre, ∀ q, s.packet? x = some q → q.marked = false) →
      let free : Prop := match meltNext s n pk with
        | .link l => (s.link l).up = true ∧ (s.link l).usedMelt = 0
        | .node m j => ((s.node m).buf j).melt = none
      (¬free → ∃ t, exec (.meltwaterMove n i) s = .next t ∧ NodeBecomes s t n { s.node n with stall := s.cyc } (fun F => F) ∧
        .event (.meltwaterMove n i) ∈ t.agenda) ∧
      (free → ∃ t pk', exec (.meltwaterMove n i) s = .next t ∧ t.packet? pk.id = some pk' ∧
        { pk' with place := pk.place, plane := pk.plane } = { pk with melt := true, marked := false, age := 0, stuck := none } ∧
        ((t.node n).buf i).pkts = b.pkts.filter (· != pk.id) ∧ ((t.node n).buf i).melt = none ∧ ((t.node n).buf i).moved = s.cyc ∧
        (∀ l p, meltNext s n pk = .link l → s.pkg? l.rank = some p → pk'.place = none ∧ pk'.plane = l.port ∧
          .event (.flitSend l) ∈ t.agenda ∧
          t.link l = { s.link l with sendq := (s.link l).sendq ++ [.data pk.id], usedMelt := (s.link l).usedMelt + 1 }) ∧
        (∀ m j, meltNext s n pk = .node m j → pk'.place = some (m, j) ∧ pk'.plane = pk.plane ∧
          ((t.node m).buf j).melt = some pk.id ∧ .event (.meltwaterMove m j) ∈ t.agenda) ∧
        { t with fab := s.fab, pkgs := s.pkgs, agenda := s.agenda } = s)) ∧
    (b.melt = none → b.st ≠ .thawing → exec (.meltwaterMove n i) s = .next s) ∧
    (b.melt = none → b.st = .thawing → (∀ x ∈ b.pkts, ∀ q, s.packet? x = some q → q.marked = false) →
      ∃ t, exec (.meltwaterMove n i) s = .next t ∧ t.node n = (s.node n).modBuf i fun b => { b with st := .normal }) ∧
    (b.st ≠ .thawing → exec (.thawStallTimeout n i) s = .next s) ∧
    (b.st = .thawing → s.cyc < b.moved + 100 * Config.usec →
      exec (.thawStallTimeout n i) s = .next { s with agenda := s.agenda ++ [.event (.thawStallTimeout n i)] }) ∧
    (b.st = .thawing → b.moved + 100 * Config.usec ≤ s.cyc → ∃ t, exec (.thawStallTimeout n i) s = .next t ∧
      ((t.node n).buf i).st = .normal ∧ ((t.node n).buf i).pkts = b.pkts ∧
      (∀ id ∈ b.pkts, ∀ pk, t.packet? id = some pk → pk.marked = false) ∧
      (∀ plane k, n = .col1 plane k ∨ n = .col2 plane k →
        (t.node n).deflecting = true ∧ (t.node n).stall = s.cyc ∧ .event (.deflectionExit n) ∈ t.agenda))

/-- Deflection of a switch (R433, R434): disabling the buffer SRAM begins it; it ends when the SRAM is enabled, or after 1 ms in which
the meltwater lane has not stalled. -/
def Sys2Proof.Claims.Deflection : Prop :=
  ∀ (n : NodeId) (s : State), (∃ plane k, n = .col1 plane k ∨ n = .col2 plane k) →
    let x := s.node n
    (∃ t, exec (.deflectionEnter n) s = .next t ∧ .event (.deflectionExit n) ∈ t.agenda ∧
      NodeBecomes s t n { x with sram := false, deflecting := true, stall := s.cyc } fun F => F) ∧
    (∃ t, exec (.switchSramEnable n) s = .next t ∧ NodeBecomes s t n { x with sram := true, deflecting := false } fun F => F) ∧
    (x.deflecting = false → exec (.deflectionExit n) s = .next s) ∧
    (x.deflecting = true → x.stall + 1000 * Config.usec ≤ s.cyc → ∃ t, exec (.deflectionExit n) s = .next t ∧
      NodeBecomes s t n { x with deflecting := false } fun F => F) ∧
    (x.deflecting = true → s.cyc < x.stall + 1000 * Config.usec →
      exec (.deflectionExit n) s = .next { s with agenda := s.agenda ++ [.event (.deflectionExit n)] })

/-! ### Start, trimming and loss -/

/-- SUPPLY_LOSS (R282, R350): the persists that had entered a queue are in the tier; everything else that the package holds but its
start registers is gone, with its groups, teams, grids, contexts and operations. A package without supply stays as it is. -/
def Sys2Proof.Claims.SupplyLost : Prop :=
  ∀ (rank : Nat) (s : State),
    (s.pkg? rank = none → exec (.supplyLoss rank) s = .next s) ∧
    ∀ p, s.pkg? rank = some p →
      (p.start.powered = false → exec (.supplyLoss rank) s = .next s) ∧
      (p.start.powered = true → ∃ t q, exec (.supplyLoss rank) s = .next t ∧ t.pkg? rank = some q ∧
        q = { Pkg.reset rank with tier := q.tier, start := q.start, heard := s.cyc } ∧ q.tier.view = q.tier.store ∧ q.start.powered = false ∧
        q.start.log = p.start.log ∧ q.start.starts = p.start.starts ∧ q.start.imgv = p.start.imgv ∧
        (∀ g ∈ t.groups, g.rank ≠ rank) ∧ (∀ x ∈ t.teams, x.rank ≠ rank) ∧ (∀ c ∈ t.ctxs, c.rank ≠ rank) ∧
        (∀ o ∈ t.ops, o.rank ≠ rank) ∧ t.host = s.host ∧ .event (.lossDetectTimeout rank) ∈ t.agenda)

/-- The start sequence (R451 to R455): at power-up and at RESTART the steps 1 to 12 run in order and step 13 waits for DOMGO; a step
that may be skipped, with an OK or SKIPPED entry of the running images and FULL 0, is SKIPPED; a step that fails is tried with
VARIANT + 1, and the last failure, the third, or at step 1 the second, sets FAIL and CODE; a start that does not pass steps 1 to 3
leaves the log as it was. -/
def Sys2Proof.Claims.StartSequence : Prop :=
  (∀ (rank : Nat) (s : State) (p : Pkg), s.pkg? rank = some p →
    ∃ t q, exec (.supplyOn rank []) s = .next t ∧ t.pkg? rank = some q ∧ q.start.step = 13 ∧ q.start.fail = false ∧
      q.start.code = 0 ∧ q.start.warm = false ∧ q.start.powered = true ∧ q.start.starts = (p.start.starts + 1) % 2 ^ 32 ∧
      q.qslots = [] ∧ (∀ c ∈ t.ctxs, c.rank ≠ rank) ∧ ∀ k, 1 ≤ k → k ≤ 12 → ∃ e, q.start.log.get k = some e ∧
        e.step = k ∧ e.attempt = 1 ∧ e.code = 0 ∧ e.imgv = p.start.imgv ∧ e.start = (p.start.starts + 1) % 2 ^ 32 ∧
        if k ∈ [6, 7, 8, 9, 11, 12] ∧ p.start.full = false ∧
            ∃ x, p.start.log.get k = some x ∧ (x.st = 1 ∨ x.st = 3) ∧ x.imgv = p.start.imgv
        then e.st = 3 else e.st = 1) ∧
  (∀ (rank : Nat) (s : State), s.pkg? rank = none → ∃ t q, exec (.supplyOn rank []) s = .next t ∧ t.pkg? rank = some q ∧
      q.start.step = 13 ∧ q.start.fail = false ∧ q.start.starts = 1) ∧
  (∀ (rank a b c : Nat) (r : List Attempt) (s : State) (p : Pkg), s.pkg? rank = some p →
    (∃ t q, exec (.supplyOn rank (.failed a :: .failed b :: r)) s = .next t ∧ t.pkg? rank = some q ∧ q.start.step = 1 ∧
      q.start.fail = true ∧ q.start.code = b % 256 ∧ q.start.log = p.start.log) ∧
    ∃ t q e, exec (.supplyOn rank (.ok :: .ok :: .ok :: .failed a :: .failed b :: .failed c :: r)) s = .next t ∧
      t.pkg? rank = some q ∧ q.start.step = 4 ∧ q.start.fail = true ∧ q.start.code = c % 256 ∧ q.start.log.get 4 = some e ∧
      e.st = 2 ∧ e.attempt = 3 ∧ e.code = c) ∧
  (∀ (rank a : Nat) (s : State) (p : Pkg), s.pkg? rank = some p → p.start.log.get 1 = none →
    ∃ t q e, exec (.supplyOn rank [.failed a]) s = .next t ∧ t.pkg? rank = some q ∧ q.start.step = 13 ∧
      q.start.log.get 1 = some e ∧ e.st = 1 ∧ e.attempt = 2 ∧ e.variant = 1) ∧
  ∀ (rank : Nat) (s : State),
    (s.pkg? rank = none → ∀ found, exec (.startRestart rank found) s = .next s) ∧
    ∀ p, s.pkg? rank = some p →
      (p.start.powered = false → ∀ found, exec (.startRestart rank found) s = .next s) ∧
      (p.start.powered = true → ∃ t q, exec (.startRestart rank []) s = .next t ∧ t.pkg? rank = some q ∧ q.start.step = 13 ∧
        q.start.fail = false ∧ (q.start.warm = true ↔ p.start.step = 15 ∨ p.start.warm = true) ∧
        q.start.starts = (p.start.starts + 1) % 2 ^ 32 ∧ q.qslots = [] ∧ (∀ c ∈ t.ctxs, c.rank ≠ rank) ∧
        ∀ g ∈ t.groups, g.rank ≠ rank)

/-- DOMAIN_GO (R430, R451, R452): at step 13 the package takes the rank of STARTCTL, unless another package holds it (log 43), its 36
ports join the thaw-token ring, and it is READY, with no queue mapped and no context; at any other step DOMGO has no effect. -/
def Sys2Proof.Claims.DomainJoined : Prop :=
  ∀ (rank : Nat) (s : State) (p : Pkg), s.pkg? rank = some p →
    let x := p.start
    ((x.step ≠ 13 ∨ x.fail = true ∨ x.powered = false) → ∀ found, exec (.domainGo rank found) s = .next s) ∧
    (x.step = 13 → x.fail = false → x.powered = true →
      (∀ q ∈ s.pkgs, q.rank ≠ rank → ¬(q.start.step = 13 ∧ q.start.joined = true)) →
      ∀ r, ((∃ q ∈ s.pkgs, q.rank = x.rank ∧ q.rank ≠ rank) → r = rank) → ((∀ q ∈ s.pkgs, q.rank = x.rank → q.rank = rank) → r = x.rank) →
        ∃ t q, exec (.domainGo rank []) s = .next t ∧ t.pkg? r = some q ∧ q.start.step = 15 ∧ q.start.fail = false ∧
          q.start.joined = true ∧ (∀ n, n < 36 → NodeId.port r n ∈ t.fab.ring) ∧ t.fab.token ≠ none ∧ q.qslots = [] ∧
          (∀ c ∈ t.ctxs, c.rank ≠ r) ∧ (∀ g, g ∈ t.groups ↔ g ∈ s.groups ∧ g.rank ≠ r) ∧ t.host = s.host)

/-- Trimming the tier (R456): a GO while BUSY is ignored; while Firn tracks, or for a range beyond the tier, ERR is set and nothing else
changes; the trim waits for the range's Moraine entries, and then its units are unbacked and read zero. -/
def Sys2Proof.Claims.TierTrim : Prop :=
  ∀ (rank : Nat) (s : State) (p : Pkg), s.pkg? rank = some p →
    let x := p.start
    let inside (u : Nat) : Prop := x.trimaddr / 4096 ≤ u ∧ u < x.trimaddr / 4096 + x.trimlen
    (x.trimBusy = true → exec (.trimGo rank) s = .next s) ∧
    (x.trimBusy = false → (p.tier.track = true ∨ 2 ^ 42 < x.trimaddr + 4096 * x.trimlen) → ∃ t, exec (.trimGo rank) s = .next t ∧
      PkgBecomes s t rank { p with start := { x with trimErr := true } }) ∧
    (x.trimBusy = false → p.tier.track = false → x.trimaddr + 4096 * x.trimlen ≤ 2 ^ 42 → ∃ t, exec (.trimGo rank) s = .next t ∧
      PkgBecomes s t rank { p with start := { x with trimBusy := true, trimErr := false } } ∧ .event (.trimApply rank) ∈ t.agenda) ∧
    (x.trimBusy = false → exec (.trimApply rank) s = .next s) ∧
    (x.trimBusy = true → (∃ q ∈ p.tier.moraine.toList, ∃ e ∈ q, e.pre = none ∧ inside (e.line / 4096)) →
      exec (.trimApply rank) s = .next { s with agenda := s.agenda ++ [.event (.trimApply rank)] }) ∧
    (x.trimBusy = true → (∀ q ∈ p.tier.moraine.toList, ∀ e ∈ q, e.pre = none → ¬inside (e.line / 4096)) →
      ∃ t q, exec (.trimApply rank) s = .next t ∧ t.pkg? rank = some q ∧ q.start = { x with trimBusy := false } ∧
        (∀ u, inside u → q.tier.units.get u = none ∧ q.tier.storeUnits.get u = none ∨ p.tier.units.get u = none) ∧
        (∀ u, ¬inside u → q.tier.units.get u = p.tier.units.get u) ∧
        (∀ a, inside (a / 4096) → p.tier.units.get (a / 4096) ≠ none →
          q.tier.view.bytes.read a = 0 ∧ q.tier.store.bytes.read a = 0) ∧
        (∀ a, ¬inside (a / 4096) → q.tier.view.bytes.read a = p.tier.view.bytes.read a ∧
          q.tier.store.bytes.read a = p.tier.store.bytes.read a) ∧ q.hbm = p.hbm ∧ q.window = p.window ∧ t.host = s.host)

/-- Losing a package (R459, R460): RBLOST with GO, or 1 ms in which no flit of any of its ports is accepted, declares a rank lost: it performs
nothing further, and every other package of the domain is told. A survivor whose Firn tracks an entry with the lost rank fences the
context: none of its groups is left. -/
def Sys2Proof.Claims.PackageLoss : Prop :=
  (∀ (lost : Nat) (s : State) (i : Instr),
    ((∃ rank p, i = .packageLossDeclare rank lost ∧ s.pkg? rank = some p) ∨
      ∃ p, i = .lossDetectTimeout lost ∧ s.pkg? lost = some p ∧ p.heard + 1000 * Config.usec ≤ s.cyc ∧
        (p.start.powered = false ∨ p.start.joined = true ∧ ∀ n, n < 36 → (s.link ⟨lost, n, true⟩).up = false)) →
    ∃ t, exec i s = .next t ∧ (∀ g ∈ t.groups, g.rank ≠ lost) ∧ (∀ o ∈ t.ops, o.rank ≠ lost) ∧
      (∀ q, t.pkg? lost = some q → q.start.powered = false ∧ q.links = []) ∧
      (∀ q ∈ s.pkgs, q.rank ≠ lost → q.start.powered = true → .event (.lossReportArrive q.rank lost) ∈ t.agenda) ∧
      (∀ rank, i = .packageLossDeclare rank lost → ∃ q, t.pkg? rank = some q ∧ q.start.rblost = lost) ∧ t.host = s.host) ∧
  (∀ (rank lost : Nat) (s : State), s.pkg? rank = none → exec (.packageLossDeclare rank lost) s = .next s) ∧
  (∀ (lost : Nat) (s : State), (∀ p, s.pkg? lost = some p → p.start.powered = true ∧
      (p.start.joined = false ∨ ∃ n, n < 36 ∧ (s.link ⟨lost, n, true⟩).up = true)) → exec (.lossDetectTimeout lost) s = .next s) ∧
  (∀ (lost : Nat) (s : State) (p : Pkg), s.pkg? lost = some p → p.start.powered = false → s.cyc < p.heard + 1000 * Config.usec →
    exec (.lossDetectTimeout lost) s = .next { s with agenda := s.agenda ++ [.event (.lossDetectTimeout lost)] }) ∧
  ∀ (rank lost : Nat) (s : State),
    (s.pkg? rank = none → exec (.lossReportArrive rank lost) s = .next s) ∧
    ∀ p, s.pkg? rank = some p →
      let members := ((p.gt.get (p.tier.trackCtx, p.tier.entry)).map (·.members)).getD []
      (p.tier.track = false ∨ lost ∉ members → exec (.lossReportArrive rank lost) s = .next s) ∧
      (p.tier.track = true → lost ∈ members → ∃ t q, exec (.lossReportArrive rank lost) s = .next t ∧ t.pkg? rank = some q ∧
        q.start.phase = 2 ∧ q.start.lost = lost ∧ q.start.nospare = false ∧ q.start.nosnap = false ∧
        (∀ g ∈ t.groups, ¬(g.rank = rank ∧ g.ctx = p.tier.trackCtx)) ∧
        (∀ o ∈ t.ops, ¬(o.rank = rank ∧ o.ctx = p.tier.trackCtx)) ∧
        (∀ g ∈ t.grids, ¬(g.rank = rank ∧ g.ctx = p.tier.trackCtx)) ∧
        (∀ c, s.ctx? rank p.tier.trackCtx = some c → t.ctx? rank p.tier.trackCtx = some { c with fenced := true }) ∧
        .event (.fenceComplete rank) ∈ t.agenda)

/-- The end of the fence (R461 to R463, R466): with no consistent snapshot among the survivors NOSNAP is set and the procedure stops;
else the package rolls back to the highest SNAPC and its PSTEP is one more; with no spare NOSPARE is set and it waits; the lowest
spare takes the lost rank and position, and both resume. -/
def Sys2Proof.Claims.FenceEnds : Prop :=
  ∀ (rank : Nat) (s : State) (p : Pkg), s.pkg? rank = some p →
    let lost := p.start.lost
    let members := ((p.gt.get (p.tier.trackCtx, p.tier.entry)).map (·.members)).getD []
    let reports (n : Nat) : Prop := ∃ r ∈ members, ∃ q, r ≠ lost ∧ s.pkg? r = some q ∧ q.start.powered = true ∧ q.tier.snapv = true ∧
      q.tier.snapc = n
    let target (n : Nat) : Prop := reports n ∧ ∀ m, reports m → m ≤ n
    let fenced : Prop := p.start.phase = 2 ∨ p.start.phase = 4
    let spare (q : Pkg) : Prop := q.start.spare = true ∧ q.start.joined = true ∧ q.start.powered = true
    let taken : Prop := ∃ q, s.pkg? lost = some q ∧ q.start.powered = true ∧ q.start.phase = 5
    (¬fenced → exec (.fenceComplete rank) s = .next s) ∧
    (fenced → (∀ n, ¬reports n) → ∃ t, exec (.fenceComplete rank) s = .next t ∧
      PkgBecomes s t rank { p with start := { p.start with nosnap := true } }) ∧
    (∀ n, p.start.phase = 2 → target n → (∀ q ∈ s.pkgs, ¬spare q) → ¬taken → ∃ t q, exec (.fenceComplete rank) s = .next t ∧
      t.pkg? rank = some q ∧ q.start.phase = 4 ∧ q.start.nospare = true ∧ q.start.rolls = n % 2 ^ 32 ∧ q.tier.pstep = n + 1 ∧
      q.tier.snapc = n ∧ q.tier.track = true ∧ q.tier.pre = [] ∧ .event (.fenceComplete rank) ∈ t.agenda) ∧
    (∀ n sp gone, fenced → target n → ¬taken → sp ∈ s.pkgs → spare sp → (∀ q ∈ s.pkgs, spare q → sp.rank ≤ q.rank) →
      s.pkg? sp.rank = some sp → s.pkg? lost = some gone → rank ≠ lost → sp.rank ≠ rank → sp.rank ≠ lost →
      ∃ t q q', exec (.fenceComplete rank) s = .next t ∧ t.pkg? lost = some q ∧ q.start.phase = 5 ∧ q.start.spare = false ∧
        q.start.rank = lost ∧ q.start.pos = gone.start.pos ∧ q.start.set = gone.start.set ∧ q.tier.pstep = n + 1 ∧
        t.pkg? rank = some q' ∧ q'.start.phase = 5 ∧ q'.start.nospare = false ∧ .event (.rebuildUnit lost) ∈ t.agenda)

/-- REBUILD_UNIT (R464, R465): one more unit of the lost shard is in place; with none left, redundancy is full again on every member. -/
def Sys2Proof.Claims.ShardRebuild : Prop :=
  ∀ (rank : Nat) (s : State) (p : Pkg), s.pkg? rank = some p →
    (∀ u r, p.start.rebuild = u :: r → ∃ t, exec (.rebuildUnit rank) s = .next t ∧
      PkgBecomes s t rank { p with start := { p.start with rebuild := r, done := p.start.done + 1 } } ∧
      .event (.rebuildUnit rank) ∈ t.agenda) ∧
    (p.start.rebuild = [] → p.start.phase ≠ 5 → exec (.rebuildUnit rank) s = .next s) ∧
    (p.start.rebuild = [] → p.start.phase = 5 → ∃ t, exec (.rebuildUnit rank) s = .next t ∧
      (∀ r q, s.pkg? r = some q → q.start.phase = 5 → q.start.lost = p.start.lost →
        t.pkg? r = some { q with start := { q.start with phase := 6 } }) ∧
      (∀ r q, s.pkg? r = some q → ¬(q.start.phase = 5 ∧ q.start.lost = p.start.lost) → t.pkg? r = some q) ∧
      { t with pkgs := s.pkgs } = s)

/-! ### The host's writes, attestation, errors and contexts -/

/-- HOST_WINDOW_WRITE (R231, R450): below the start area the bytes are written, and no other byte changes; in the start area only an
aligned write of 8 bytes acts, on the register at its offset. -/
def Sys2Proof.Claims.WindowWrites : Prop :=
  ∀ (rank offset : Nat) (bytes : List Byte) (s : State) (p : Pkg), s.pkg? rank = some p →
    let start := 0xF0000
    let n := min bytes.length (start - offset)
    (offset < start → ∃ t, exec (.hostWindowWrite rank offset bytes) s = .next t ∧ SameBytesBut s t (.window rank) offset n ∧
      (memoriesOk s = true → ∀ i, i < n → byteAt t (.window rank (offset + i)) = bytes[i]?)) ∧
    (start ≤ offset → offset % 8 ≠ 0 ∨ bytes.length ≠ 8 → exec (.hostWindowWrite rank offset bytes) s = .next s) ∧
    (start ≤ offset → offset % 8 = 0 → bytes.length = 8 →
      let v := ofBytesLE bytes
      let o := offset - start
      let x := p.start
      let becomes (y : Start) : Prop := ∃ t, exec (.hostWindowWrite rank offset bytes) s = .next t ∧
        PkgBecomes s t rank { p with start := y }
      let makes (i : Instr) : Prop := exec (.hostWindowWrite rank offset bytes) s = exec i s
      (o = 0x08 → ∃ t, exec (.hostWindowWrite rank offset bytes) s = .next t ∧
        PkgBecomes s t rank { p with start := if 13 ≤ x.step then x else
          { x with full := v.testBit 1, spare := v.testBit 2, rank := v / 2 ^ 3 % 2 ^ 10, pos := v / 2 ^ 13 % 2 ^ 4, set := v / 2 ^ 17 % 2 ^ 15 } } ∧
        (v.testBit 0 = true → .event (.startRestart rank []) ∈ t.agenda) ∧
        (v.testBit 32 = true → .event (.domainGo rank []) ∈ t.agenda)) ∧
      (o = 0x10 → becomes { x with trimaddr := v / 2 ^ 12 % 2 ^ 30 * 2 ^ 12 }) ∧
      (o = 0x18 → becomes { x with trimlen := v % 2 ^ 31 }) ∧
      (o = 0x20 → v.testBit 0 = true → makes (.trimGo rank)) ∧
      (o = 0x20 → v.testBit 0 = false → exec (.hostWindowWrite rank offset bytes) s = .next s) ∧
      (o = 0x38 → v.testBit 10 = true → makes (.packageLossDeclare rank (v % 2 ^ 10))) ∧
      (o = 0x38 → v.testBit 10 = false → becomes { x with rblost := v % 2 ^ 10 }) ∧
      (o ∉ [0x08, 0x10, 0x18, 0x20, 0x38] → exec (.hostWindowWrite rank offset bytes) s = .next s))

/-- REGISTER_WRITE (R224, R228, R296, R303, R316, R343, R440, R442 to R444, R449): each register of the aperture takes the fields that
its layout gives, or makes its operation at once; a misaligned write and one to a read-only register have no effect. What the host
writes to LKKEY, LKSALT and FLTCTL reads as zero (R4, R228, R440). -/
def Sys2Proof.Claims.RegisterWrites : Prop :=
  ∀ (rank v : Nat) (s : State) (p : Pkg), s.pkg? rank = some p →
    let run (o : Nat) := exec (.registerWrite rank o v) s
    let becomes (o : Nat) (q : Pkg) : Prop := ∃ t, run o = .next t ∧ PkgBecomes s t rank q
    let links (o : Nat) (l : LinkId) (k : Link) : Prop := ∃ t, run o = .next t ∧ LinkBecomes s t l k
    (∀ o, o < 0x4000000 → o % 8 ≠ 0 → run o = .next s) ∧
    (∀ o ∈ [0xE00018, 0xE00020, 0xE00028, 0xE00030, 0xE00038, 0xE00100, 0xE00400, 0xE00800], run o = .next s) ∧
    (∀ d, d < 4 → let b := d * 0x1000000
      (becomes (b + 0xA00000) (withDie p d { p.die d with tlbiva := v / 2 ^ 12 % 2 ^ 45 })) ∧
      (becomes (b + 0xA00008) (withDie p d { p.die d with tlbisz := v / 2 ^ 12 % 2 ^ 33 })) ∧
      (apertureRead s rank (b + 0xA00000) = (p.die d).tlbiva % 2 ^ 45 * 2 ^ 12) ∧
      (run (b + 0xA00010) = exec (.tlbInvalidate ⟨rank, d⟩ v) s) ∧
      (run (b + 0xA00018) = if v / 64 % 4 = 1 then exec (.faultResume ⟨rank, d⟩ (v % 64)) s
        else if v / 64 % 4 = 2 then exec (.faultAbort ⟨rank, d⟩ (v % 64)) s else .next s) ∧
      (apertureRead s rank (b + 0xA00018) = 0) ∧
      (∀ c, c < 128 → ∃ t, run (b + c * 0x10000 + 0x8000) = .next t ∧
        t.core ⟨rank, d, c / 16, c % 16⟩ = { s.core ⟨rank, d, c / 16, c % 16⟩ with gselPlace := v % 2 ^ 7, gselSlot := v / 2 ^ 7 % 2 ^ 4 } ∧
        (∀ e, e ≠ ⟨rank, d, c / 16, c % 16⟩ → t.core e = s.core e) ∧ { t with cores := s.cores } = s) ∧
      (∀ k, k < 32 → let sl : SliceId := ⟨rank, 32 * d + k⟩
        (∃ t, run (b + 0x800000 + k * 0x1000) = .next t ∧
          t.slice sl = { s.slice sl with mrCtx := v % 2 ^ 16, mrBusy := (s.slice sl).mrBusy || v.testBit 16 } ∧
          t.agenda = s.agenda ++ if v.testBit 16 then [.event (.monitorReclaim sl (v % 2 ^ 16))] else []) ∧
        (run (b + 0x800008 + k * 0x1000) = if v.testBit 0 then exec (.cfclrClear sl) s else .next s) ∧
        (∃ t, run (b + 0x800020 + k * 0x1000) = .next t ∧ t.slice sl = { s.slice sl with monsel := v % 2 ^ 10 })) ∧
      (∀ q, q < 11 → ∀ tx : Bool, let l : LinkId := ⟨rank, if q < 9 then 9 * d + q else 36 + 2 * d + (q - 9), tx⟩
        let o := b + 0xC00000 + q * 0x1000 + if tx then 0 else 0x100
        let k := s.link l
        let r := if tx then k.tx else k.rx
        let put (x : KeyRegs) : Link := if tx then { k with tx := x } else { k with rx := x }
        (∀ i, i < 4 → links (o + 8 * i) l (put { r with key := r.key.setIfInBounds i (BitVec.ofNat 64 v) })) ∧
        (links (o + 0x20) l (put { r with salt := v % 2 ^ 32 })) ∧
        (∃ s1 s2 s3 t, run (o + 0x28) = .next t ∧ LinkBecomes s s1 l (put { r with slot := v % 2 }) ∧ s1.agenda = s.agenda ∧
          (if v.testBit 3 then exec (.linkRetrain l) s1 = .next s2 else s2 = s1) ∧
          (if v.testBit 1 then exec (.linkKeyLoad l tx) s2 = .next s3 else s3 = s2) ∧
          (if v.testBit 2 && tx then exec (.linkKeySwitch l) s3 = .next t else t = s3)) ∧
        ((∀ c, r.liveCounter = some c → c < v % 2 ^ 40) → links (o + 0x30) l (put { r with thr := v % 2 ^ 40 })) ∧
        (∀ c, r.liveCounter = some c → v % 2 ^ 40 ≤ c → c < r.thr → r.thrx = false → ∃ t, run (o + 0x30) = .next t ∧
          t.link l = put { r with thr := v % 2 ^ 40, thrx := true } ∧ t.host.events = s.host.events ++ [(rank, 1)]) ∧
        (links (o + 0x38) l (put { r with thrx := r.thrx && !v.testBit 4 })) ∧
        (∀ i, i < 5 → apertureRead s rank (o + 8 * i) = 0) ∧ (apertureRead s rank (o + 0x28) = r.slot % 2) ∧
        (q < 9 → run (b + 0xC00200 + q * 0x1000) = exec (.partnerRegWrite ⟨rank, 9 * d + q, true⟩ 0x200 v) s ∧
          run (b + 0xC00300 + q * 0x1000) = exec (.partnerRegWrite ⟨rank, 9 * d + q, true⟩ 0x300 v) s))) ∧
    (run 0xE00000 = exec (.gtsyncGo rank v) s) ∧
    ((∀ e ∈ p.place, e.st = .tier) → becomes 0xE00008 { p with plpoolb := v / 2 ^ 21 % 2 ^ 19 * 2 ^ 21 } ∧
      becomes 0xE00010 { p with plpools := v % 2 ^ 19 }) ∧
    ((∃ e ∈ p.place, e.st ≠ .tier) → becomes 0xE00008 p ∧ becomes 0xE00010 p) ∧
    (run 0xE00040 = exec (.queueDoorbell rank v) s) ∧
    (run 0xE00048 = if v.testBit 0 then exec (.attestGo rank) s else .next s) ∧
    (p.nonce.length = 64 → ∀ i, i < 8 → ∃ t q, run (0xE00080 + 8 * i) = .next t ∧ PkgBecomes s t rank { p with nonce := q } ∧
      ∀ j, j < 64 → q[j]? = if j / 8 = i then some (BitVec.ofNat 8 (v / 2 ^ (8 * (j % 8)))) else p.nonce[j]?)

/-- Attestation (R449): a GO while BUSY is ignored; the report holds the nonce, MEAS0 to MEAS7, the package's identity and rank, and a
signature over the SHA-512 of them, and BUSY ends. -/
def Sys2Proof.Claims.Attestation : Prop :=
  ∀ (rank : Nat) (s : State) (p : Pkg), s.pkg? rank = some p →
    let id := Config.identity rank
    let body := p.nonce ++ p.meas.toList.flatten ++ id.take 16 ++ bytesLE 4 rank ++ (id.drop 16).take 133
    (p.attBusy = true → exec (.attestGo rank) s = .next s) ∧
    (p.attBusy = false → ∃ t, exec (.attestGo rank) s = .next t ∧ PkgBecomes s t rank { p with attBusy := true } ∧
      .event (.attestReportWritten rank) ∈ t.agenda) ∧
    (p.attBusy = false → exec (.attestReportWritten rank) s = .next s) ∧
    (p.attBusy = true → ∃ t, exec (.attestReportWritten rank) s = .next t ∧ t.fresh = s.fresh + 1 ∧
      t.pkg? rank = some { p with attBusy := false, report := body ++ Config.signature s.fresh (Config.sha512 body) } ∧
      (∀ r, r ≠ rank → t.pkg? r = s.pkg? r) ∧ { t with pkgs := s.pkgs, fresh := s.fresh } = s)

/-- UNCORRECTABLE_ERROR (R416): the word of the SRAM, or the line of HBM, becomes poison; an error that the SRAM corrects is counted at
its die; and no byte changes. -/
def Sys2Proof.Claims.ErrorsPoison : Prop :=
  ∀ (site : ErrSite) (s : State), ∃ t, exec (.uncorrectableError site) s = .next t ∧ SameBytes s t ∧
    (∀ gid slot pos g, site = .backing gid slot pos → slot < 16 → s.group? gid = some g → ∃ g', t.group? gid = some g' ∧
      pos % 128 ∈ (g'.thread slot).bad ∧ (∀ n, n ≠ slot → g'.thread n = g.thread n) ∧
      (g'.thread slot).backing = (g.thread slot).backing) ∧
    (∀ tid z w tm, site = .tile tid z w → s.team? tid = some tm → z < tm.tiles → ∃ tm', t.team? tid = some tm' ∧
      4096 * z + w % 4096 ∈ tm'.acc.poison ∧ { tm' with acc := tm.acc } = tm) ∧
    (∀ tid w tm, site = .shared tid w → s.team? tid = some tm → 4 * w < 4096 * tm.holding → ∃ tm', t.team? tid = some tm' ∧
      w ∈ tm'.shared.poison ∧ { tm' with shared := tm.shared } = tm) ∧
    (∀ id w x, site = .scratch id w → s.segs.find? (fun y => y.id == id) = some x → 4 * w < x.size →
      ∃ x', t.segs.find? (fun y => y.id == id) = some x' ∧ w ∈ x'.ram.poison ∧ { x' with ram := x.ram } = x) ∧
    (∀ core va l, site = .spill core va → l ∈ (s.core core).spill → l.va = va / 128 * 128 →
      ∃ l' ∈ (t.core core).spill, va / 4 ∈ l'.bad ∧ { l' with bad := l.bad } = l) ∧
    (∀ rank ctx va p c, site = .cache rank ctx va → s.pkg? rank = some p → p.cached ctx va = some c →
      ∃ q c', t.pkg? rank = some q ∧ q.cached ctx va = some c' ∧ va % 256 / 4 ∈ c'.badw ∧ { c' with badw := c.badw } = c) ∧
    (∀ rank line p, site = .hbm rank line → s.pkg? rank = some p → line * 256 < 0xC000000000 →
      ∃ q, PkgBecomes s t rank q ∧ line ∈ q.hbm.poison ∧ { q with hbm := p.hbm } = p) ∧
    (∀ d p, site = .corrected d → s.pkg? d.rank = some p →
      PkgBecomes s t d.rank (withDie p d.die { p.die d.die with soft := (p.die d.die).soft + 1 }))

/-- CONTEXT_DESTROY (R296, R409): nothing of the context is left at the package: no group, team, grid, operation, queue, table entry,
monitor or register, nor the monitors that its groups hold at peers; beyond these, other packages stay, and the other contexts. -/
def Sys2Proof.Claims.ContextDestroyed : Prop :=
  ∀ (rank ctx : Nat) (s : State) (p : Pkg), s.pkg? rank = some p →
    ∃ t q, exec (.contextDestroy rank ctx) s = .next t ∧ t.pkg? rank = some q ∧ t.ctx? rank ctx = none ∧
      (∀ g ∈ t.groups, ¬(g.rank = rank ∧ g.ctx = ctx)) ∧ (∀ g ∈ t.grids, ¬(g.rank = rank ∧ g.ctx = ctx)) ∧
      (∀ o ∈ t.ops, ¬(o.rank = rank ∧ o.ctx = ctx)) ∧ (∀ e ∈ q.qslots, e.2.ctx ≠ ctx) ∧
      (∀ n, q.gt.get (ctx, n) = none ∧ q.rw.get (ctx, n) = none) ∧
      (∀ n, ∀ m ∈ (q.slice n).monitors, m.req.ctx ≠ ctx) ∧ (∀ n m, (q.slice n).methods.get (ctx, m) = none) ∧
      (∀ r c, ¬(r = rank ∧ c = ctx) → t.ctx? r c = s.ctx? r c) ∧
      (∀ r p', r ≠ rank → s.pkg? r = some p' → ∃ q', t.pkg? r = some q' ∧ { q' with slices := p'.slices } = p' ∧
        ∀ n m, m ∈ (q'.slice n).monitors ↔
          m ∈ (p'.slice n).monitors ∧ ∀ g ∈ s.groups, g.rank = rank → g.ctx = ctx → m.req.gid ≠ g.gid) ∧
      ({ q with qslots := p.qslots, qwait := p.qwait, gt := p.gt, rw := p.rw, slices := p.slices, rings := p.rings,
                children := p.children } = p) ∧ t.host = s.host ∧
      (∀ d, d < 4 → .event (.teamPlace rank d) ∈ t.agenda)

/-! ### Replies, and accesses between packages -/

/-- WCB_AGE_DRAIN (R218, R219, R428): 2 µs after its first byte entered it, a line of the write-combining buffer drains, to a peer as a
packet. -/
def Sys2Proof.Claims.BufferAges : Prop :=
  ∀ (c : CoreId) (line : Nat) (s : State),
    ((∀ l ∈ (s.core c).wcb, l.id ≠ line) → exec (.wcbAgeDrain c line) s = .next s) ∧
    ∀ l ∈ (s.core c).wcb, l.id = line → (∀ m ∈ (s.core c).wcb, m.id = line → m = l) →
      (s.cyc < l.since + 2 * Config.usec →
        exec (.wcbAgeDrain c line) s = .next { s with agenda := s.agenda ++ [.event (.wcbAgeDrain c line)] }) ∧
      (l.since + 2 * Config.usec ≤ s.cyc → ∃ t, exec (.wcbAgeDrain c line) s = .next t ∧
        Drains s t c (fun m => m.id == line) ∧ (l.dest = c.rank → .subject .putLineApply line ∈ t.agenda) ∧
        (l.dest ≠ c.rank → ∃ pk ∈ t.fab.packets, pk.src = c.rank ∧ pk.dest = l.dest ∧ pk.body = .xfer line))

/-- PUT_LINE_APPLY and PUT_ACK (R219, R226, R250, R424): a transfer waits for an earlier one of the same groups to its line, and for a
wave that holds the line; its bytes are put over the line under their mask at one instant, and the acknowledgement goes back, from a
peer as a packet; it returns each PUT that waits for no other line. -/
def Sys2Proof.Claims.PutLines : Prop :=
  (∀ (s : State) (x : Xfer), s.fab.xfers.find? (fun y => y.id == s.subj && !y.applied) = some x →
    let waits : Prop := unpowered s x.dest = true ∨ lineLocked s x.dest x.ctx x.va = true ∨
      ∃ pre post y, s.fab.xfers = pre ++ x :: post ∧ (∀ z ∈ pre, z.id ≠ x.id) ∧ y ∈ pre ∧ y.applied = false ∧ y.dest = x.dest ∧
        y.ctx = x.ctx ∧ y.va = x.va ∧ ∃ g ∈ y.last, (x.last.get g.1).isSome
    (waits → exec .putLineApply s = .next { s with agenda := s.agenda ++ [.subject .putLineApply x.id] }) ∧
    (∀ s1 f, (∀ y ∈ s.fab.xfers, y.id = x.id → y = x) → ¬waits → xferXlate s x = (s1, .error f) →
      ∃ t, exec .putLineApply s = .next t ∧ t.fab.xfers = s.fab.xfers.filter (fun y => y.id != x.id)) ∧
    (∀ s1 h s2 c, (∀ y ∈ s.fab.xfers, y.id = x.id → y = x) → ¬waits → xferXlate s x = (s1, .ok h) → h.tgt ≠ 2 →
      inWindow h.tgt h.pa = false → x.va % 256 = 0 → fetchLine s1 h x.ctx x.va = (s2, c) → c.bytes.length = 256 → x.bytes ≠ [] →
      (∀ b ∈ x.bytes, b.1 < 256) → (x.bytes.map (·.1)).Nodup →
      ∃ t q c', exec .putLineApply s = .next t ∧ t.pkg? h.home = some q ∧ q.cached x.ctx x.va = some c' ∧ c'.bytes.length = 256 ∧
        (∀ o, o < 256 → c'.bytes.getD o 0 = (x.bytes.get o).getD (c.bytes.getD o 0)) ∧
        { x with applied := true } ∈ t.fab.xfers ∧ (x.src = x.dest → .subject .putAck x.id ∈ t.agenda) ∧
        (x.src ≠ x.dest → ∃ pk ∈ t.fab.packets, pk.src = x.dest ∧ pk.dest = x.src ∧
          pk.body = .msg none [] (.moves [.subject .putAck x.id])))) ∧
  (∀ s : State, s.fab.xfers.find? (fun y => y.id == s.subj && !y.applied) = none → exec .putLineApply s = .next s) ∧
  (∀ (s : State) (x : Xfer), s.fab.xfers.find? (fun y => y.id == s.subj && y.applied) = some x →
    ∃ t, exec .putAck s = .next t ∧ t.fab.xfers = s.fab.xfers.filter (fun y => y.id != x.id) ∧
      (∀ gid g, (x.last.get gid).isSome → s.group? gid = some g → ∃ g', t.group? gid = some g' ∧
        (∀ f ∈ g'.flights, x.id ∉ f.lines) ∧ (∀ f ∈ g.flights, f.lines = [x.id] → ∀ f' ∈ g'.flights, f'.seq = f.seq → f'.done = true) ∧
        g'.threads = g.threads) ∧
      (∀ n, x.last.get n = none → t.group? n = s.group? n) ∧ { t with fab := s.fab, groups := s.groups } = s) ∧
  ∀ s : State, s.fab.xfers.find? (fun y => y.id == s.subj && y.applied) = none → exec .putAck s = .next s

/-- PEER_ACCESS (R250, R283, R424, R459): an access comes after the earlier ones of its group to its slice. A GET waits for the group's own
PUTs to its line and is then answered with the word that its home reads, as a packet to a peer's group; a path 6 request joins the
input queue of its home slice, which takes 512; what is on its way to a package without supply waits. -/
def Sys2Proof.Claims.PeerAccesses : Prop :=
  ∀ (s : State) (q : PeerReq), s.fab.reqs.find? (fun r => r.id == s.subj) = some q →
    let again : Prop := exec .peerAccess s = .next { s with agenda := s.agenda ++ [.subject .peerAccess q.id] }
    let left := s.fab.reqs.filter fun r => r.id != q.id
    let sl : SliceId := ⟨q.req.home, sliceOf q.req.va⟩
    (unpowered s q.dest = true → again) ∧
    (q.req.id = q.id → ∀ y ∈ s.fab.reqs.takeWhile fun x => x.id != q.id, y.req.gid = q.req.gid → y.dest = q.req.home →
      sliceOf y.req.va = sliceOf q.req.va → (y.req.kind = .get ↔ q.req.kind = .get) → again) ∧
    (q.req.kind ≠ .get → 512 ≤ (s.slice sl).queue.length → again) ∧
    (q.req.kind = .get → putUnderWay s q.req.gid q.src q.req.ctx q.req.va = true → again) ∧
    (unpowered s q.dest = false → earlierReq s q.req = false → q.req.kind = .get →
      putUnderWay s q.req.gid q.src q.req.ctx q.req.va = false →
      ∀ s1 h s2 bs g, homeXlate { s with fab := { s.fab with reqs := left } } q.req .read = (s1, .ok h) →
        lineRead s1 h q.req.ctx q.req.va 4 = (s2, bs) → (∀ b ∈ bs, b.2 = false) → s.group? q.req.gid = some g →
        let rep : Reply := .words (wordsOf (bs.map (·.1)))
        ∃ t, exec .peerAccess s = .next t ∧ t.fab.reqs = left ∧
          (g.rank = q.req.home → ∃ g', t.group? q.req.gid = some g' ∧
            (∀ f ∈ g.flights, f.seq = q.req.seq → { f with got := f.got.set q.req.slot rep } ∈ g'.flights) ∧
            { g' with flights := g.flights } = g) ∧
          (g.rank ≠ q.req.home → t.groups = s.groups ∧ ∃ pk ∈ t.fab.packets, pk.src = q.req.home ∧ pk.dest = g.rank ∧
            pk.body = .msg none [] (.reply q.req.gid q.req.seq q.req.slot rep))) ∧
    (unpowered s q.dest = false → earlierReq s q.req = false → q.req.kind ≠ .get → (s.slice sl).queue.length < 512 →
      ∀ p, s.pkg? q.req.home = some p → ∃ t, exec .peerAccess s = .next t ∧ t.fab.reqs = left ∧
        (t.slice sl).queue = (s.slice sl).queue ++ [{ q.req with arr := s.fresh }] ∧ t.groups = s.groups ∧ SameBytes s t)

/-- MEMORY_REPLY (R23, R210, R214, R215, R237, R250, R266): once every access of a word is answered its registers take their words and its
path counts one less, in order; a poisoned word raises class 6, an uninitialised one class 7, and the registers keep their values;
a GET reads its word at the home, after the group's PUTs to its line and its earlier GETs of the same address. A depth that RETs have
left above the window has no register, and its write changes none: log 57. -/
def Sys2Proof.Claims.RepliesLand : Prop :=
  ∀ (gid seq : Nat) (s : State),
    (∀ g, s.group? gid = some g → (∀ f ∈ g.flights, f.seq = seq → f.done = true) → exec (.memoryReply gid seq) s = .next s) ∧
    ∀ g f, s.group? gid = some g → f ∈ g.flights → f.seq = seq → f.done = false → (∀ y ∈ g.flights, y.seq = seq → y = f) →
      let at_ (slot : Nat) : Nat := f.depths.getD slot 0
      let resident (slot d : Nat) : Prop := (g.thread slot).rbase ≤ d ∧ d < (g.thread slot).wbase + 64
      let held (slot : Nat) : Prop := f.reply slot = .pending ∧ let va := (f.addrs.getD slot 0).toNat
        putUnderWay s gid g.rank g.ctx va = true ∨ ∃ e ∈ g.flights, e.done = false ∧ e.kind = .get ∧ e.seq < f.seq ∧
          ∃ j, j < 16 ∧ e.mask.getLsbD j = true ∧ (e.uni = true → j = lowest e.mask) ∧ e.reply j = .pending ∧
            (e.addrs.getD j 0).toNat = va
      (f.kind = .get → (∃ slot ∈ f.accessSlots, held slot) → ∃ t g', exec (.memoryReply gid seq) s = .next t ∧
        t.group? gid = some g' ∧ g'.threads = g.threads ∧ (∀ f' ∈ g'.flights, f'.seq = seq → f'.done = false) ∧
        .event (.memoryReply gid seq) ∈ t.agenda) ∧
      (f.kind ≠ .get → f.answered = false → exec (.memoryReply gid seq) s = .next s) ∧
      (f.answered = true →
        (∀ slot, slot < 16 → f.mask.getLsbD slot = true → ∃ ws, f.reply slot = .words ws ∧ ws.length ≤ 4) →
        ∃ t g', exec (.memoryReply gid seq) s = .next t ∧ t.group? gid = some g' ∧
          (∀ slot, slot < 16 → f.mask.getLsbD slot = true → ∀ ws, f.reply slot = .words ws →
            (∀ i, i < ws.length → resident slot (at_ slot + i) → (g'.thread slot).dget (at_ slot + i) = ws.getD i 0) ∧
            ((∀ i, i < ws.length → ¬resident slot (at_ slot + i)) → g'.thread slot = g.thread slot)) ∧
          (∀ slot, slot < 16 → f.mask.getLsbD slot = false → g'.thread slot = g.thread slot) ∧
          (∀ f' ∈ g'.flights, f'.seq = seq → f'.done = true) ∧ g'.k = g.k ∧ g'.trap = g.trap ∧
          (∀ n, n ≠ gid → t.group? n = s.group? n) ∧ SameBytes s t) ∧
      (f.answered = true → g.wave = none →
        (∀ slot, slot < 16 → f.mask.getLsbD slot = true → ∀ c l, f.reply slot ≠ .fault c l) →
        ∀ cls, (cls = 6 ∧ (∃ slot, slot < 16 ∧ f.mask.getLsbD slot = true ∧ f.reply slot = .poison)) ∨
            (cls = 7 ∧ (∀ slot, slot < 16 → f.mask.getLsbD slot = true → f.reply slot ≠ .poison) ∧
              ∃ slot, slot < 16 ∧ f.mask.getLsbD slot = true ∧ f.reply slot = .uninit) →
          ∃ t g', exec (.memoryReply gid seq) s = .next t ∧ t.group? gid = some g' ∧ g'.threads = g.threads ∧
            (g.trap.tmode = false → g.trap.faulted = false → g'.trap.tpend.getLsbD cls = true ∧
              g'.trap.raised = g.trap.raised ++ [f.replay cls 0]) ∧
            (g.trap.tmode = true → g'.trap.faulted = true) ∧ (∀ f' ∈ g'.flights, f'.seq = seq → f'.done = true) ∧
            (∀ n, n ≠ gid → t.group? n = s.group? n) ∧ SameBytes s t) ∧
      (f.kind = .get → g.wave = none → ∀ slot s1 h s2 bs, f.accessSlots = [slot] → f.got.length = 16 → slot < 16 →
        f.reply slot = .pending → ¬held slot → xlate s g.rank g.core.die g.ctx (f.addrs.getD slot 0).toNat .read = (s1, .ok h) →
        h.home = g.rank → lineRead s1 h g.ctx (f.addrs.getD slot 0).toNat 4 = (s2, bs) → (∀ b ∈ bs, b.2 = false) → bs.length = 4 →
        ∃ t g', exec (.memoryReply gid seq) s = .next t ∧ t.group? gid = some g' ∧
          (∀ n, n < 16 → f.mask.getLsbD n = true → resident n (at_ n) →
            (g'.thread n).dget (at_ n) = BitVec.ofNat 32 (ofBytesLE (bs.map (·.1)))) ∧
          (∀ f' ∈ g'.flights, f'.seq = seq → f'.done = true))

/-! ### Home slices -/

/-- The values of the atomics and CAS forms (R256, R258): what each leaves in the word m, for the data of its slot, and when a CAS
form writes nothing. -/
def Sys2Proof.Claims.AtomicValues : Prop :=
  ∀ (m : DWord) (x y lo hi : Word),
    let a : Word := m.setWidth 32
    let z (w : Word) : Option DWord := some (w.setWidth 64)
    let e : DWord := hi ++ lo
    let next (low : DWord) : DWord := ((m >>> 48).setWidth 16 + 1 : BitVec 16) ++ (low.setWidth 48)
    atomNext .addI32 m [x] = z (a + x) ∧
    atomNext .addF32 m [x] = some (BitVec.ofNat 64 (faddF .f32 .rne (valOf .f32 a.toNat) (valOf .f32 x.toNat)).1) ∧
    atomNext .minI32 m [x] = z (if x.toInt < a.toInt then x else a) ∧
    atomNext .maxI32 m [x] = z (if a.toInt < x.toInt then x else a) ∧
    atomNext .minN32 m [x] = z (if x.toNat < a.toNat then x else a) ∧
    atomNext .maxN32 m [x] = z (if a.toNat < x.toNat then x else a) ∧
    atomNext .and m [x] = z (a &&& x) ∧ atomNext .or m [x] = z (a ||| x) ∧ atomNext .xor m [x] = z (a ^^^ x) ∧
    atomNext .xchg m [x] = z x ∧
    atomNext .cas m [x, y] = (if a = x then z y else none) ∧
    atomNext .casgt m [x] = (if a.toNat < x.toNat then z x else none) ∧
    atomNext .casv m [lo, hi] = (if m.toNat / 2 ^ 48 = e.toNat / 2 ^ 48 then some (next e) else none) ∧
    atomNext .caspt m [lo, hi, x, y] = (if m = e then some (next (y ++ x)) else none)

/-- SLICE_ATOMIC (R256, R257, R284, R285): the next atomic of the slice's queue reads its word and writes it at one instant, and its
slot takes the old value; a CAS form whose condition fails writes nothing; a poisoned word is not changed, and poison is returned;
no other byte of the line changes. -/
def Sys2Proof.Claims.SliceAtomics : Prop :=
  ∀ (s : State) (sl : SliceId) (r : Req) (op : AtomOp) (data : List Word) (s1 s2 : State) (h : Phys) (c : CLine),
    NextOf s sl Req.isAtom r → r.det = none → r.kind = .atom op data → Asked s r → homeXlate s r .atomic = (s1, .ok h) →
    h.tgt ≠ 2 → inWindow h.tgt h.pa = false → fetchLine s1 h r.ctx r.va = (s2, c) → c.bytes.length = 256 → r.va % op.width = 0 →
    let o := r.va % 256
    let m := BitVec.ofNat 64 (ofBytesLE ((List.range op.width).map fun i => c.bytes.getD (o + i) 0))
    let old : Reply := .words (if op.width = 8 then [m.setWidth 32, (m >>> 32).setWidth 32] else [m.setWidth 32])
    let bad : Prop := c.bad = true ∨ ∃ i, i < op.width ∧ (o + i) / 4 ∈ c.badw
    ∃ t q c', exec (.sliceAtomic sl) s = .next t ∧ Left s t sl r ∧ t.pkg? h.home = some q ∧ q.cached r.ctx r.va = some c' ∧
      (bad → c' = c ∧ Answered t r .poison) ∧
      (¬bad → Answered t r old ∧ (∀ i, i < 256 → ¬(o ≤ i ∧ i < o + op.width) → c'.bytes[i]? = c.bytes[i]?) ∧
        ∀ i, i < op.width → c'.bytes[o + i]? = match atomNext op m data with
          | some x => some (BitVec.ofNat 8 (x.toNat / 2 ^ (8 * i)))
          | none => c.bytes[o + i]?)

/-- Deterministic windows (R287 to R289): an entry of a grid in deterministic mode joins the window of its grid and address, or opens
one; the window closes 256 cycles after its newest entry, and takes no entry later than that: the late entry opens another, and SPLIT
counts it; a closed window's entries are taken in the order of issuer index and issue. With no request that it can take the
slice's step has no effect. -/
def Sys2Proof.Claims.DeterministicWindows : Prop :=
  (∀ rs : List Req, (byKey rs).Perm rs ∧ (byKey rs).Pairwise fun a b =>
    a.key.1 < b.key.1 ∨ a.key.1 = b.key.1 ∧ a.key.2 ≤ b.key.2) ∧
  (∀ (s : State) (sl : SliceId), (∀ r ∈ (s.slice sl).queue, r.isAtom = false) → exec (.sliceAtomic sl) s = .next s) ∧
  (∀ (s : State) (sl : SliceId) (r : Req) (grid n : Nat) (p : Pkg), NextOf s sl Req.isAtom r → r.det = some (grid, n) →
    s.pkg? sl.rank = some p → ((s.slice sl).windows.map fun w => w.entries.length).sum < 15 →
    let same (w : Window) : Prop := w.grid = grid ∧ w.ctx = r.ctx ∧ w.va = r.va
    ∃ t, exec (.sliceAtomic sl) s = .next t ∧ Left s t sl r ∧
      (∀ pre w post, (s.slice sl).windows = pre ++ w :: post → same w → (∀ x ∈ pre ++ post, ¬same x ∧ x.id ≠ w.id) →
        (s.cyc < w.last + 256 →
          (t.slice sl).windows = pre ++ { w with entries := w.entries ++ [r], last := s.cyc } :: post) ∧
        (w.last + 256 ≤ s.cyc →
          (∃ id, (t.slice sl).windows = pre ++ post ++ [⟨id, grid, r.ctx, r.va, [r], s.cyc⟩]) ∧
          ∀ g, s.grid? grid = some g → ∃ g', t.grid? grid = some g' ∧ g'.split = min (2 ^ 32 - 1) (g.split + 1))) ∧
      ((∀ w ∈ (s.slice sl).windows, ¬same w) →
        (t.slice sl).windows = (s.slice sl).windows ++ [⟨s.fresh, grid, r.ctx, r.va, [r], s.cyc⟩] ∧
        .event (.windowCloseIdle sl s.fresh) ∈ t.agenda)) ∧
  ∀ (s : State) (sl : SliceId) (id : Nat) (p : Pkg), s.pkg? sl.rank = some p →
    ((∀ w ∈ (s.slice sl).windows, w.id ≠ id) → exec (.windowCloseIdle sl id) s = .next s) ∧
    ∀ w, (s.slice sl).windows.find? (fun w => w.id == id) = some w →
      (s.cyc < w.last + 256 →
        exec (.windowCloseIdle sl id) s = .next { s with agenda := s.agenda ++ [.event (.windowCloseIdle sl id)] }) ∧
      (w.last + 256 ≤ s.cyc → ∃ t, exec (.windowCloseIdle sl id) s = .next t ∧
        (t.slice sl).windows = (s.slice sl).windows.filter (fun x => x.id != id) ∧
        (t.slice sl).closes.get (w.grid, w.va) = some .idle)

/-- Monitors (R259, R260, R293 to R296): a WAITC slot is answered when its condition holds on arrival, SPURIOUS with reason 3 when the
table is full, and otherwise armed with its deadline; a deadline that has passed replies SPURIOUS with reason 2, and reclamation
with reason 1; while the team is out the reply is held, or the entry freed. An entry that has answered is Replied until the reply is
written into the registers. -/
def Sys2Proof.Claims.MonitorSteps : Prop :=
  let isWaitc (r : Req) : Bool := match r.kind with
    | .waitc _ _ _ _ _ => true
    | .atom _ _ | .comb _ _ | .get => false
  (∀ (s : State) (sl : SliceId), (∀ r ∈ (s.slice sl).queue, isWaitc r = false) → exec (.waitcTest sl) s = .next s) ∧
  (∀ (s : State) (sl : SliceId) (r : Req) (cond timeout : Nat) (signed : Bool) (val mask : Word) (p : Pkg) (s1 s2 : State) (h : Phys)
      (m : Word) (bad : Bool), NextOf s sl isWaitc r → r.kind = .waitc cond signed timeout val mask → Asked s r →
    s.pkg? sl.rank = some p → homeXlate (dropReq s sl r) r .read = (s1, .ok h) → wordAt s1 h r.ctx r.va = (s2, m, bad) →
    let holds : Prop := match cond with
      | 0 => m = val
      | 1 => m ≠ val
      | 2 => if signed then m.toInt < val.toInt else m.toNat < val.toNat
      | 3 => if signed then val.toInt ≤ m.toInt else val.toNat ≤ m.toNat
      | _ => m &&& mask = val &&& mask
    let ms := (s.slice sl).monitors
    ∃ t, exec (.waitcTest sl) s = .next t ∧ Left s t sl r ∧
      (bad = true → Answered t r .poison ∧ (t.slice sl).monitors = ms) ∧
      (bad = false → holds → Answered t r (.words [0, m]) ∧ (t.slice sl).monitors = ms) ∧
      (bad = false → ¬holds → 1024 ≤ ms.length → Answered t r (.words [7 + 16 * 3, m]) ∧ (t.slice sl).monitors = ms) ∧
      (bad = false → ¬holds → ms.length < 1024 → ∃ e, (t.slice sl).monitors = ms ++ [e] ∧ (∀ x ∈ ms, x.entry ≠ e.entry) ∧
        e.req = r ∧ e.cond = cond ∧ e.signed = signed ∧ e.val = val ∧ e.mask = mask ∧ e.st = .armed ∧ t.groups = s.groups ∧
        (timeout = 0 → e.deadline = none) ∧
        (timeout ≠ 0 → e.deadline = some (s.cyc + 1000 * timeout) ∧ .event (.monitorTimeout sl e.entry) ∈ t.agenda))) ∧
  (∀ (s : State) (sl : SliceId) (n : Nat),
    ((∀ x ∈ (s.slice sl).monitors, x.entry = n → x.st ≠ .armed) → exec (.monitorTimeout sl n) s = .next s) ∧
    ∀ e p s1 w, (s.slice sl).monitors.find? (fun m => m.entry == n && m.st == .armed) = some e → s.pkg? sl.rank = some p →
      monitorWord s e = (s1, w) →
      (e.deadline = none → exec (.monitorTimeout sl n) s = .next s) ∧
      ∀ d, e.deadline = some d →
        (s.cyc < d → exec (.monitorTimeout sl n) s = .next { s with agenda := s.agenda ++ [.event (.monitorTimeout sl n)] }) ∧
        (d ≤ s.cyc → teamOut s e.req.gid = false → Asked s e.req → ∃ t, exec (.monitorTimeout sl n) s = .next t ∧
          Answered t e.req (.words [7 + 16 * 2, w]) ∧
          (t.slice sl).monitors = (s.slice sl).monitors.map fun x => if x.entry = n then { x with st := .replied } else x) ∧
        (d ≤ s.cyc → teamOut s e.req.gid = true → ∃ t, exec (.monitorTimeout sl n) s = .next t ∧ t.groups = s.groups ∧
          { e with st := .fired 7 2 w } ∈ (t.slice sl).monitors)) ∧
  (∀ (s : State) (g : Group) (f : Flight), s.group? g.gid = some g → f ∈ g.flights → f.done = false → f.kind = .waitc →
    f.answered = true → (∀ y ∈ g.flights, y.seq = f.seq → y = f) → ∃ t, exec (.memoryReply g.gid f.seq) s = .next t ∧
      ∀ sl, ∀ x ∈ (t.slice sl).monitors, x.req.gid = g.gid → x.req.seq = f.seq → x.st ≠ .replied) ∧
  ∀ (s : State) (sl : SliceId) (ctx : Nat) (p : Pkg), s.pkg? sl.rank = some p →
    (∃ t, exec (.monitorReclaim sl ctx) s = .next t ∧ (t.slice sl).mrBusy = false ∧
      (∀ x ∈ (t.slice sl).monitors, x.req.ctx = ctx → x.st = .replied) ∧
      ∀ x ∈ (s.slice sl).monitors, x.req.ctx ≠ ctx → (∀ y ∈ (s.slice sl).monitors, y.entry = x.entry → y.req.ctx ≠ ctx) →
        x ∈ (t.slice sl).monitors) ∧
    ∀ e s1 w, (s.slice sl).monitors = [e] → e.req.ctx = ctx → e.st ≠ .replied → teamOut s e.req.gid = false → Asked s e.req →
      monitorWord s e = (s1, w) → ∃ t, exec (.monitorReclaim sl ctx) s = .next t ∧ Answered t e.req (.words [7 + 16, w])

/-- Combiner calls and waves (R262, R298 to R300): a call without a method is answered ERROR; another becomes pending while fewer than
512 are; when Confluence is free, and no request of its line that arrived before it is left in the queue, the oldest pending call and
up to 15 more of its object and method begin a wave, whose group has the arguments in v0:v1, and whose shadow holds the object. -/
def Sys2Proof.Claims.CombinerCalls : Prop :=
  let isComb (r : Req) : Bool := match r.kind with
    | .comb _ _ => true
    | .atom _ _ | .waitc _ _ _ _ _ | .get => false
  (∀ (s : State) (sl : SliceId), (∀ r ∈ (s.slice sl).queue, isComb r = false) → exec (.combCallArrive sl) s = .next s) ∧
  (∀ (s : State) (sl : SliceId) (r : Req) (m : Nat) (arg : DWord) (p : Pkg), NextOf s sl isComb r → r.kind = .comb m arg →
    s.pkg? sl.rank = some p →
    let entry := (s.slice ⟨r.home, sliceOf r.va⟩).methods.get (r.ctx, m)
    let known : Prop := ∃ e, entry = some e ∧ r.va % 256 + e.size ≤ 256
    (¬known → Asked s r → ∃ t, exec (.combCallArrive sl) s = .next t ∧ Left s t sl r ∧ Answered t r (.words [0, 0, 8, 0]) ∧
      (t.slice sl).calls = (s.slice sl).calls ∧ SameBytes s t) ∧
    (known → r.det = none → (s.slice sl).calls.length < 512 → ∃ t, exec (.combCallArrive sl) s = .next t ∧ Left s t sl r ∧
      (t.slice sl).calls = (s.slice sl).calls ++ [r] ∧ .event (.waveStart sl) ∈ t.agenda ∧ t.groups = s.groups ∧ SameBytes s t) ∧
    (known → r.det = none → 512 ≤ (s.slice sl).calls.length →
      exec (.combCallArrive sl) s = .next { s with agenda := s.agenda ++ [.event (.combCallArrive sl)] })) ∧
  (∀ (s : State) (sl : SliceId), ((s.slice sl).wave ≠ none ∨ (s.slice sl).runs = [] ∧ (s.slice sl).calls = []) →
    exec (.waveStart sl) s = .next s) ∧
  (∀ (s : State) (sl : SliceId) (r b : Req) (rest : List Req), (s.slice sl).wave = none → (s.slice sl).runs = [] →
    (s.slice sl).calls = r :: rest → b ∈ (s.slice sl).queue → b.sameLine r = true → b.arr < r.arr →
    exec (.waveStart sl) s = .next { s with agenda := s.agenda ++ [.event (.waveStart sl)] }) ∧
  ∀ (s : State) (sl : SliceId) (r : Req) (rest : List Req) (m : Nat) (arg : DWord) (e : Method) (p : Pkg) (s1 s2 : State) (h : Phys)
      (bs : List PByte), (s.slice sl).wave = none → (s.slice sl).runs = [] → (s.slice sl).calls = r :: rest →
    r.kind = .comb m arg → s.pkg? sl.rank = some p → sl = ⟨r.home, sliceOf r.va⟩ → lineLocked s r.home r.ctx r.va = false →
    (∀ b ∈ (s.slice sl).queue, b.sameLine r = true → r.arr ≤ b.arr) → (s.slice sl).methods.get (r.ctx, m) = some e → r.va % 256 + e.size ≤ 256 → homeXlate s r .atomic = (s1, .ok h) →
    lineRead s1 h r.ctx r.va e.size = (s2, bs) → (∀ b ∈ bs, b.2 = false) → bs.length = e.size →
    let joins (c : Req) : Bool := c.ctx == r.ctx && c.va == r.va && Req.isComb m c
    let lanes := r :: (rest.filter joins).take 15
    ∃ t w g, exec (.waveStart sl) s = .next t ∧ (t.slice sl).wave = some w ∧ w.calls = lanes ∧ w.obj = r.va ∧ w.ctx = r.ctx ∧
      w.method = m ∧ w.size = e.size ∧ w.fault = 0 ∧ w.ended = false ∧
      (∀ i, i < e.size → w.shadow.read i = ((bs.map (·.1)).getD i 0)) ∧
      (t.slice sl).calls = (s.slice sl).calls.filter (fun c => !(lanes.any fun x => x.id == c.id)) ∧
      t.groups = s.groups ++ [g] ∧ g.gid = w.gid ∧ w.gid = s.fresh ∧ g.wave = some sl ∧ g.kr 0 = 0 ∧
      g.kr 1 = BitVec.ofNat 64 r.va ∧ g.kr 2 = BitVec.ofNat 64 lanes.length ∧ g.kr 3 = BitVec.ofNat 64 m ∧
      (∀ i c, lanes[i]? = some c → (g.thread i).v64 0 = c.arg ∧ g.exited.getLsbD i = false) ∧
      (∀ i, lanes.length ≤ i → i < 16 → g.exited.getLsbD i = true) ∧
      (∃ f, g.frag 0 = some f ∧ f.clause = e.entry ∧ f.word = 0 ∧ f.mask = ~~~g.exited) ∧ .wave sl ∈ t.agenda

/-- WAVE_COMMIT and CFCLR (R300 to R303): a method that faulted leaves the object as it was, is logged, and each lane is answered FAULT;
else the shadow becomes the object by one write and each lane has v0:v1 of its exit; the wave's group is gone. -/
def Sys2Proof.Claims.WaveCommits : Prop :=
  (∀ (s : State) (sl : SliceId), ((s.slice sl).wave = none ∨ ∃ w, (s.slice sl).wave = some w ∧ w.ended = false) →
    exec (.waveCommit sl) s = .next s) ∧
  (∀ (s : State) (sl : SliceId) (w : Wave) (p : Pkg), (s.slice sl).wave = some w → s.pkg? sl.rank = some p → w.ended = true →
    w.rest = [] → (w.calls.map fun c => (c.gid, c.seq, c.slot)).Nodup → w.calls.length ≤ 16 →
    (∀ c ∈ w.calls, c.gid ≠ w.gid ∧ Asked s c) →
    (w.fault ≠ 0 → ∃ t, exec (.waveCommit sl) s = .next t ∧ (t.slice sl).wave = none ∧
      t.groups.map (·.gid) = (s.groups.map (·.gid)).filter (· != w.gid) ∧
      (∀ (i : Nat) (c : Req), w.calls[i]? = some c → Answered t c (.words [0, 0, 6, BitVec.ofNat 32 i])) ∧
      (t.slice sl).cfCount = min (2 ^ 32 - 1) ((s.slice sl).cfCount + 1) ∧
      ((s.slice sl).cfCount = 0 → (t.slice sl).cfAddr = w.obj % 2 ^ 57 ∧ (t.slice sl).cfMethod = w.method ∧
        (t.slice sl).cfCause = w.fault ∧ (t.slice sl).cfCtx = w.ctx) ∧ SameBytes s t) ∧
    (∀ r rest g s1 h s2 c, w.fault = 0 → w.calls = r :: rest → s.group? w.gid = some g → homeXlate s r .atomic = (s1, .ok h) →
      h.tgt ≠ 2 → inWindow h.tgt h.pa = false → w.obj = r.va → w.ctx = r.ctx → r.va % 256 + w.size ≤ 256 → 0 < w.size →
      fetchLine s1 h w.ctx w.obj = (s2, c) → c.bytes.length = 256 →
      ∃ t q c', exec (.waveCommit sl) s = .next t ∧ (t.slice sl).wave = none ∧ t.pkg? h.home = some q ∧
        q.cached w.ctx w.obj = some c' ∧
        (∀ i, i < w.size → c'.bytes[w.obj % 256 + i]? = some (w.shadow.read i)) ∧
        (∀ i, i < 256 → ¬(w.obj % 256 ≤ i ∧ i < w.obj % 256 + w.size) → c'.bytes[i]? = c.bytes[i]?) ∧
        ∀ (i : Nat) (c : Req), w.calls[i]? = some c → Answered t c (.words [(g.thread i).v 0, (g.thread i).v 1, 0, BitVec.ofNat 32 i]))) ∧
  ∀ (s : State) (sl : SliceId) (p : Pkg), s.pkg? sl.rank = some p → ∃ t, exec (.cfclrClear sl) s = .next t ∧
    t.slice sl = { s.slice sl with cfAddr := 0, cfMethod := 0, cfCause := 0, cfCtx := 0, cfCount := 0 } ∧
    (∀ x, x ≠ sl → t.slice x = s.slice x) ∧ SameBytes s t

/-! ### Collectives, rings, exchanges and reduce-stores -/

/-- A chunk of a collective to shared memory commits as one of a copy does: the lowest, once it is here. Its bytes are written, its
barrier takes a delivery of as many, and the progress index counts it; after the last the record is due (R246, R309, R318). -/
def Sys2Proof.Claims.CollChunks : Prop :=
  ∀ (s : State) (o : Op) (f : CollForm) (tm : Team) (i a : Nat) (bs : List PByte) (r : List OpChunk), s.op? s.subj = some o →
    o.st ≠ .withdrawn → o.form = .coll f → (tileOf o.td).space = 0 → s.team? o.tid = some tm → engineHolds s tm o.id = false →
    bs ≠ [] → memoriesOk s = true → o.chunks = ⟨i, .here, ((List.range bs.length).map (a + ·)).zip bs⟩ :: r →
    let d := tileOf o.td
    let last : Prop := d.rows * d.planes * d.rowBytes ≤ 4096 * (o.pidx + 1)
    let failed (st : Nat) : Prop := ∃ c, r.head? = some c ∧ c.st = .failed st
    ∃ t tm', exec .collChunkCommit s = .next t ∧ t.team? o.tid = some tm' ∧
      (last → t.op? o.id = some { o with pidx := o.pidx + 1, status := 0, st := .ending, chunks := [] } ∧
        .subject .collComplete o.id ∈ t.agenda) ∧
      (¬last → (∀ st, ¬failed st) → t.op? o.id = some { o with pidx := o.pidx + 1, chunks := r } ∧
        .event (.engineChunkStart ⟨o.rank, o.die⟩ o.engine) ∈ t.agenda ∧
        ((∃ c, r.head? = some c ∧ c.st = .here) → .subject .collChunkCommit o.id ∈ t.agenda)) ∧
      (¬last → ∀ st, failed st → t.op? o.id = some { o with pidx := o.pidx + 1, status := st, st := .ending, chunks := [] } ∧
        .subject .collComplete o.id ∈ t.agenda) ∧
      (∀ x, tm'.shared.bytes.read x = if a ≤ x ∧ x < a + bs.length then ((bs[x - a]?).map (·.1)).getD 0 else tm.shared.bytes.read x) ∧
      tm'.bars = (match o.bar with
        | none => tm.bars
        | some b => tm.bars.setIfInBounds b.toNat ((tm.bar b.toNat).event (.deliver bs.length))) ∧
      { tm' with shared := tm.shared, bars := tm.bars } = tm ∧ (∀ n, n ≠ o.id → t.op? n = s.op? n) ∧
      (∀ p, (∀ x, p ≠ .shared o.tid x) → byteAt t p = byteAt s p) ∧
      { t with teams := s.teams, ops := s.ops, groups := s.groups, pkgs := s.pkgs, agenda := s.agenda } = s

/-- The reductions of R319: one element over the members is the full binary tree of R87 over a power of two of positions, filled
with the identity, for .i32 the sum modulo 2^32, the greatest or the least, and for .bf16 reduced as .f32 and rounded once; and the
outputs of the five forms. -/
def Sys2Proof.Claims.CollectiveValues : Prop :=
  (∀ xs : List Word, xs.length ≤ 1024 →
    (collElem 0 2 xs).toNat = (xs.map (·.toNat)).sum % 2 ^ 32 ∧
    (xs ≠ [] → collElem 1 2 xs ∈ xs ∧ (∀ x ∈ xs, x.toInt ≤ (collElem 1 2 xs).toInt) ∧
      collElem 2 2 xs ∈ xs ∧ ∀ x ∈ xs, (collElem 2 2 xs).toInt ≤ x.toInt)) ∧
  (∀ (red k : Nat) (xs ys : List Word),
    let op : RedOp := match red with
      | 0 => .addF
      | 1 => .maxF
      | _ => .minF
    (∀ x, collElem red 0 [x] = x) ∧
    (k ≤ 9 → xs.length = 2 ^ k → ys.length = 2 ^ k →
      collElem red 0 (xs ++ ys) = redStep op (collElem red 0 xs) (collElem red 0 ys)) ∧
    (xs ≠ [] → xs.length < 2 ^ k → 2 ^ k < 2 * xs.length → k ≤ 10 →
      collElem red 0 xs = collElem red 0 (xs ++ List.replicate (2 ^ k - xs.length) op.ident)) ∧
    collElem red 1 xs = BitVec.ofNat 32 (convert .f32 .bf16 .rne (collElem red 0 (xs.map fun x : Word => x <<< 16)).toNat).1) ∧
  ∀ (red efmt root j : Nat) (xs : List (List PByte)),
    let eb := if efmt = 1 then 2 else 4
    let n := (xs.headD []).length
    let elem (x : List PByte) (k : Nat) : List PByte := (x.drop (k * eb)).take eb
    let y (f : CollForm) : List PByte := collOut f red efmt root xs j
    (∀ k i, k < n / eb → i < eb → (y .allreduce)[k * eb + i]? =
      some (BitVec.ofNat 8 ((collElem red efmt (xs.map fun x => BitVec.ofNat 32 (ofBytesLE ((elem x k).map (·.1))))).toNat / 2 ^ (8 * i)),
        xs.any fun x => (elem x k).any (·.2))) ∧
    (y .allreduce).length = n / eb * eb ∧
    (n % eb = 0 → y .reducescatter = ((y .allreduce).drop (j * (n / xs.length))).take (n / xs.length)) ∧
    y .allgather = xs.flatten ∧ y .bcast = xs.getD root [] ∧
    ((∀ x ∈ xs, x.length = n) → ∀ i x, xs[i]? = some x → n % xs.length = 0 → j < xs.length →
      ((y .alltoall).drop (i * (n / xs.length))).take (n / xs.length) = (x.drop (j * (n / xs.length))).take (n / xs.length))

/-- A collective captures its source, which goes to the other members with its notice; its outputs are given to every member once each
has captured its source: position j has output j of the sources in order of position (R317 to R320, R441). -/
def Sys2Proof.Claims.CollectiveRun : Prop :=
  ∀ (s : State) (d : DieId) (e : Nat) (o : Op) (f : CollForm),
    (((dieQueue s d.rank d.die).filter fun o => o.engine == e).map fun o => o.chunks.length).sum < 32 →
    ((dieQueue s d.rank d.die).filter fun x => x.engine == e && x.st == .queued && hasStart x && !engsWaits s x.tid && !opHeld s x &&
      engineReady s x) = [o] → o.form = .coll f → o.pass ≠ 1 → s.op? o.id = some o →
    (∀ s1 bs, o.src = none → engReads s o (tileOf o.ta).space ((tileOf o.ta).pieces false 0 (tileOf o.ta).bytes) = (s1, .ok bs) →
      ∃ t o', exec (.engineChunkStart d e) s = .next t ∧ t.op? o.id = some o' ∧ o'.src = some bs ∧
        { o' with src := o.src, told := o.told } = o ∧ (∀ n, n ≠ o.id → t.op? n = s1.op? n) ∧ SameBytes s1 t ∧
        ∀ r ∈ opMembers s1 o, r ≠ o.rank → r ∉ o.told →
          if sameDomain s1 o.rank o.ctx r = true then ∃ pk ∈ t.fab.packets, pk.src = o.rank ∧ pk.dest = r ∧
            pk.body = .msg (some o.id) [] (.notice o.id r) else r ∈ o'.told) ∧
    ∀ l, o.src.isSome = true → matching s o = .agreed l → (∀ x ∈ l, x.src.isSome = true) → (∀ x ∈ l, s.op? x.id = some x) →
      (l.map (·.id)).Nodup →
      ∃ t, exec (.engineChunkStart d e) s = .next t ∧ SameBytes s t ∧ { t with ops := s.ops, agenda := s.agenda } = s ∧
        (∀ n, (∀ x ∈ l, x.id ≠ n) → t.op? n = s.op? n) ∧
        ∀ (j : Nat) (x : Op), l[j]? = some x → (∀ m ∈ x.go, m ∈ t.agenda) ∧
          t.op? x.id = some { x with
            src := some (collOut f (x.param.toNat / 2 ^ 8 % 4) (x.param.toNat / 2 ^ 10 % 4) (x.param.toNat / 2 ^ 12 % 2 ^ 10)
              (l.map fun y => y.src.getD []) j)
            pass := 1 }

/-- GTSYNC (R316, R324, R326): a GO while BUSY is 1 is ignored; another write takes its fields, and a GO starts a synchronisation. It
waits for the operations in flight on the covered entries, SNAP among them, writes back SEQ and reloads them; a fault parks it with
a record of ENGINE 7, and an access that cannot be made now is tried again. A synchronisation of windows empties the filters and the
rounds of those it covers in every context of its package (which contexts it covers is the model's reading: log 72). -/
def Sys2Proof.Claims.GtSync : Prop :=
  (∀ (rank v : Nat) (s : State) (p : Pkg), s.pkg? rank = some p →
    let go := v.testBit 10
    (go = true → p.gtBusy = true → exec (.gtsyncGo rank v) s = .next s) ∧
    (go = false ∨ p.gtBusy = false → ∃ t, exec (.gtsyncGo rank v) s = .next t ∧
      PkgBecomes s t rank { p with gtsync := v % 2 ^ 10, gtBusy := p.gtBusy || go, gtFault := p.gtFault && !go } ∧
      t.agenda = s.agenda ++ if go then [.event (.gtsyncReload rank)] else [])) ∧
  ∀ (rank : Nat) (s : State) (p : Pkg), s.pkg? rank = some p →
    let all := p.gtsync.testBit 8
    let table := p.gtsync.testBit 9
    let n := p.gtsync % 2 ^ 8
    let go := exec (.gtsyncReload rank) s
    let again (u : State) : Prop := go = .next { u with agenda := u.agenda ++ [.event (.gtsyncReload rank)] }
    let covers (m : Nat) : Prop := all = true ∨ m = n
    let flies (o : Op) : Prop := o.rank = rank ∧ o.st ≠ .withdrawn ∧
      if table then o.form = .rsto ∧ covers (o.param.toNat % 2 ^ 6)
      else (o.form.numbered = true ∧ covers (o.param.toNat % 2 ^ 8)) ∨
        (o.form = .snap ∧ o.param.toNat.testBit 0 = true ∧ covers (o.param.toNat / 2 ^ 8 % 2 ^ 8))
    let groups := p.gt.filter fun k => all || k.1.2 == n
    let windows := p.rw.filter fun k => all || k.1.2 == n
    let emptied (u t : State) : Prop :=
      (∀ k, k ∈ t.fab.filters ↔ k ∈ u.fab.filters ∧ ¬(covers k.1.2.1 ∧ (s.ctx? rank k.1.1).isSome = true)) ∧
      (∀ k, k ∈ t.fab.rounds ↔ k ∈ u.fab.rounds ∧ ¬(covers k.1.2.1 ∧ (s.ctx? rank k.1.1).isSome = true)) ∧
      (∀ r, r ≠ rank → t.pkg? r = u.pkg? r) ∧ { t with pkgs := u.pkgs, fab := u.fab } = u
    let faulted (u : State) (va ctx access : Nat) (f : XFault) : Prop :=
      go = .next (postFault u rank 0 ⟨va % 2 ^ 57, f.cause, f.level, false, access, 7, ctx, 0⟩)
    (p.gtBusy = false → go = .next s) ∧
    (p.gtBusy = true → (∃ o ∈ s.ops, flies o) → again s) ∧
    (p.gtBusy = true → (∀ o ∈ s.ops, ¬flies o) →
      (table = false → groups = [] → ∃ t, go = .next t ∧ PkgBecomes s t rank { p with gtBusy := false } ∧ t.agenda = s.agenda) ∧
      (table = true → windows = [] → ∃ t, go = .next t ∧ t.pkg? rank = some { p with gtBusy := false } ∧ emptied s t) ∧
      (∀ ctx e x, table = false → groups = [((ctx, e), x)] →
        let a := gtAddr s rank ctx e
        let seq := (bytesLE 4 x.seq).map fun b => (b, false)
        (∀ s1 s2 bs p2, gWrite s rank 0 ctx (a + 0x84) seq = (s1, .ok ()) → devRead s1 rank 0 ctx a 256 = (s2, .ok bs) →
          s2.pkg? rank = some p2 → ∃ t, go = .next t ∧ PkgBecomes s2 t rank { p2 with gt := p2.gt.put (ctx, e) (gtOf bs), gtBusy := false }) ∧
        (∀ s1 s2 va f, gWrite s rank 0 ctx (a + 0x84) seq = (s1, .ok ()) → devRead s1 rank 0 ctx a 256 = (s2, .fault va f) →
          faulted s2 va ctx 0 f) ∧
        (∀ s1 s2, gWrite s rank 0 ctx (a + 0x84) seq = (s1, .ok ()) → devRead s1 rank 0 ctx a 256 = (s2, .wait) → again s2) ∧
        (∀ s1 va f, gWrite s rank 0 ctx (a + 0x84) seq = (s1, .fault va f) → faulted s1 va ctx 1 f) ∧
        ∀ s1, gWrite s rank 0 ctx (a + 0x84) seq = (s1, .wait) → again s1) ∧
      ∀ ctx w x, table = true → windows = [((ctx, w), x)] →
        let a := rwAddr s rank ctx w
        (∀ s2 bs p2, devRead s rank 0 ctx a 64 = (s2, .ok bs) → s2.pkg? rank = some p2 →
          ∃ t, go = .next t ∧ t.pkg? rank = some { p2 with rw := p2.rw.put (ctx, w) (rwOf bs), gtBusy := false } ∧ emptied s2 t) ∧
        (∀ s2 va f, devRead s rank 0 ctx a 64 = (s2, .fault va f) → faulted s2 va ctx 0 f) ∧
        ∀ s2, devRead s rank 0 ctx a 64 = (s2, .wait) → again s2)

/-- ROT_SLOT_RETURN and ROT_CREDIT_ARRIVE (R332, R376): a FULL slot whose block has been forwarded and whose done barrier has
completed a phase since it filled is FREE again, and its credit goes to the member upstream, which then holds it; a broken barrier
holds the slot, breaks the ring at every member, and ends the runs in progress on it with ERROR. -/
def Sys2Proof.Claims.RingReturns : Prop :=
  (∀ (s : State) (ring slot : Nat) (r : Ring), ringId s ring = some r → ∃ t, exec (.rotCreditArrive ring slot) s = .next t ∧
    ringId t ring = some { r with credits := r.credits.set slot true } ∧ (∀ n, n ≠ ring → ringId t n = ringId s n) ∧
    { t with pkgs := s.pkgs } = s ∧ SameBytes s t) ∧
  ∀ (s : State) (ring slot : Nat) (r : Ring), ringId s ring = some r →
    let go := exec (.rotSlotReturn ring slot) s
    let members := ringMembers s r
    let mine (o : Op) : Bool := o.form == .rotRun && o.rank == r.rank && o.ctx == r.ctx && o.entry == r.entry
    let broken : Prop := ∃ tm, s.team? r.tid = some tm ∧ ((tm.bar (r.arrb + slot)).broken = true ∨ (tm.bar (r.doneb + slot)).broken = true)
    let stopped : Prop := ∃ o ∈ s.ops, mine o = true ∧ o.st = .withdrawn ∧ o.pass = 1
    let sending : Prop := r.owner.getD slot 0 % (members.length - 1) + 2 < members.length ∧ r.fwd.getD slot 0 ≠ r.bsize
    let full : Prop := r.slots.getD slot 0 = 2 ∧ r.doneSeen.getD slot false = true
    (r.broken = true → go = .next s) ∧
    (r.broken = false → ¬broken → ¬full → go = .next s) ∧
    (r.broken = false → ¬broken → full → stopped ∨ sending →
      go = .next { s with agenda := s.agenda ++ [.event (.rotSlotReturn ring slot)] }) ∧
    (r.broken = false → ¬broken → full → ¬stopped → ¬sending → ∃ t, go = .next t ∧
      ringId t ring = some { r with slots := r.slots.set slot 0, fill := r.fill.set slot 0 } ∧
      (∀ n, n ≠ ring → ringId t n = ringId s n) ∧
      { t with pkgs := s.pkgs, fab := s.fab, agenda := s.agenda, fresh := s.fresh } = s ∧ SameBytes s t ∧
      ∀ u, ringOf s (ringPrev members r.rank) r.ctx r.entry = some u →
        let m : Move := .event (.rotCreditArrive u.id slot)
        if u.rank = r.rank then m ∈ t.agenda
        else ∃ pk ∈ t.fab.packets, pk.src = r.rank ∧ pk.dest = u.rank ∧ pk.body = .msg none [] (.moves [m])) ∧
    (r.broken = false → broken → ∃ t, go = .next t ∧ (∀ x, ringId t ring = some x → x.slots = r.slots.set slot 3) ∧
      (∀ m ∈ r.rank :: members, ∀ q, t.pkg? m = some q → ∀ x ∈ q.rings, x.ctx = r.ctx → x.entry = r.entry → x.broken = true) ∧
      (∀ o ∈ s.ops, s.op? o.id = some o → o.form = .rotRun → o.rank ∈ r.rank :: members → o.ctx = r.ctx → o.entry = r.entry →
        o.pass = 1 → o.st ≠ .withdrawn → o.st ≠ .ending →
        t.op? o.id = some { o with status := 8, st := .ending, chunks := [] } ∧ o.fin ∈ t.agenda) ∧
      ∀ o ∈ s.ops, (∀ x ∈ s.ops, x.id = o.id → x = o) → o.form ≠ .rotRun ∨ o.pass ≠ 1 → t.op? o.id = some o)

/-- ROT_CHUNK_ARRIVE (R331, R332): the chunk that the upstream member has read is written in the slot of its step; the first one
makes the expect and the arrival of the slot's barrier, each makes its delivery, and the last fills the slot, counts the block at the
receiver, and lets the sender go on to its next step. -/
def Sys2Proof.Claims.RingChunks : Prop :=
  ∀ (s : State) (ring : Nat) (r : Ring), ringId s ring = some r →
    (upstreamRun s r = none ∨ r.broken = true → exec (.rotChunkArrive ring) s = .next s) ∧
    ∀ (u : Op) (tm : Team) (sg : Segment) (bs : List PByte), upstreamRun s r = some u → r.broken = false →
      (u.chunks.head?.map (·.data)) = some (bs.mapIdx fun i b => (u.dups + i, b)) → bs ≠ [] → s.op? u.id = some u → s.team? r.tid = some tm →
      engineHolds s tm 0 = false → ringStopped s r = false → r.arrb + 3 < 32 → s.segs.find? (fun g => g.id == r.seg) = some sg → memoriesOk s = true →
      (∀ ur, opRing s u = some ur → ur.id ≠ r.id) → (∀ o, ringOp s u r.rank = some o → o.id ≠ u.id) →
      let j := (u.bound + u.applied) % 4
      let m := (opMembers s u).length
      let first : Prop := u.dups = 0
      let last : Prop := u.dups + bs.length = r.bsize
      let old := tm.bar (r.arrb + j)
      old.broken = false → (tm.bar (r.doneb + j)).broken = false → u.dups < r.bsize →
      ∃ t tm' r' u', exec (.rotChunkArrive ring) s = .next t ∧ t.team? r.tid = some tm' ∧ ringId t ring = some r' ∧
        t.op? u.id = some u' ∧
        (first → tm'.bars = tm.bars.setIfInBounds (r.arrb + j) (((old.event (.expect r.bsize)).event .arrive).event (.deliver bs.length))) ∧
        (¬first → tm'.bars = tm.bars.setIfInBounds (r.arrb + j) (old.event (.deliver bs.length))) ∧
        r'.slots = r.slots.set j (if u.dups + bs.length = r.bsize then 2 else 1) ∧ r'.fill = r.fill.set j (u.dups + bs.length) ∧
        r'.owner = r.owner.set j (u.bound + u.applied) ∧
        ((r.base + r.bsize * j + u.dups) % 4 = 0 → bs.length % 4 = 0 → ∀ k, byteAt t (.scratch r.seg k) =
          if r.base + r.bsize * j + u.dups ≤ k ∧ k < r.base + r.bsize * j + u.dups + bs.length
          then (bs[k - (r.base + r.bsize * j + u.dups)]?).map (·.1) else byteAt s (.scratch r.seg k)) ∧
        (∀ p, (∀ k, p ≠ .scratch r.seg k) → byteAt t p = byteAt s p) ∧ u'.chunks = [] ∧ u'.pidx = u.pidx ∧
        (¬last → u'.applied = u.applied ∧ u'.dups = u.dups + bs.length ∧ ∀ x ∈ u.go, x ∈ t.agenda) ∧
        (last → u'.applied = u.applied + 1 ∧ u'.dups = 0 ∧ .event (.rotSlotReturn r.id j) ∈ t.agenda ∧
          (u.pidx + 1 = m → u.applied + 2 = m → u'.st = .ending ∧ u'.status = 0 ∧ u.fin ∈ t.agenda) ∧
          ∀ o, ringOp s u r.rank = some o → s.op? o.id = some o → ∃ o', t.op? o.id = some o' ∧ o'.pidx = o.pidx + 1 ∧
            (o.pidx + 2 = m → o.applied + 1 = m → o.st ≠ .ending → o.st ≠ .withdrawn → o'.st = .ending ∧ o'.status = 0 ∧ o.fin ∈ t.agenda))

/-- Where a token goes (R327 to R329, R441): one whose expert is out of range or is not at members has result ERROR at its source; in
capacity mode it goes to replica 0, with the other used replicas for REROUTE; in replica mode it goes up to a Col switch, which
picks, of the used replicas with rows left, the one whose egress queue is shortest, the first on ties, or answers CAPACITY when none
has a row left. Outside the domain a token goes by the scale-out transport, which the model takes as done at once: log 32. -/
def Sys2Proof.Claims.TokenDestination : Prop :=
  (∀ (s : State) (id i : Nat) (o : Op) (e : GtEntry), s.op? id = some o → opGt s o = some e → o.form = .xchg →
    let go := exec (.xchgTokenAccept id i) s
    let token := o.tokens.get i
    (o.results[i]? ≠ some none → go = .next s) ∧
    (token = some .flying ∨ token = some .answered → go = .next s) ∧
    (o.results[i]? = some none → token = none → (o.st ≠ .running → go = .next s) ∧
      (o.st = .running → opHeld s o = true → go = .next { s with agenda := s.agenda ++ [.event (.xchgTokenAccept id i)] }) ∧
      ∀ (s1 : State) (row : List PByte) (reps : Option (List Nat)), o.st = .running → opHeld s o = false →
        tokenData s o e i = (s1, .ok (row, reps)) →
        let near (r : Nat) : Bool := sameDomain s1 o.rank o.ctx r
        let sent (l : List Nat) : Prop := l.headD 0xFFFF ≠ 0xFFFF ∧ ∀ r ∈ l, r = 0xFFFF ∨ r ∈ e.members
        let sends (dest : Nat) (picked : Bool) (rest : List Nat) : Prop := ∃ t o', go = .next t ∧ t.op? id = some o' ∧
          o'.tokens.get i = some .flying ∧ ∃ pk ∈ t.fab.packets, pk.src = o.rank ∧ pk.dest = dest ∧
            pk.body = .msg (some id) [] (.token id i picked rest row)
        let arrives (dest : Nat) (rest : List Nat) : Prop := ∃ t o', go = .next t ∧ t.op? id = some o' ∧
          o'.tokens.get i = some (.at_ dest rest row) ∧ .event (.xchgTokenAccept id i) ∈ t.agenda
        let refused (st : Nat) : Prop := ∃ t o' w, go = .next t ∧ t.op? id = some o' ∧ o'.results = o.results.set i (some w) ∧
          w.toNat / 2 ^ 28 = st ∧ w.toNat / 2 ^ 26 % 4 = 0
        ((∀ l, reps = some l → ¬sent l) → refused 8) ∧
        ∀ l, reps = some l → sent l →
          let used := l.filter fun r => r != 0xFFFF
          let dest := l.headD 0xFFFF
          let rest := if e.mode.testBit 2 then used.drop 1 else []
          (e.xmode ≠ 1 → (near dest = true → dest ≠ o.rank → sends dest true rest) ∧
            (near dest = false ∨ dest = o.rank → arrives dest rest)) ∧
          (e.xmode = 1 → (∀ r, used.find? near = some r → sends r false used) ∧
            (used.find? near = none → (∀ r, used.find? (fun r => rowsLeft s1 o e r != 0) = some r → arrives r used) ∧
              ((∀ r ∈ used, rowsLeft s1 o e r = 0) → refused 2))))) ∧
  ∀ (s : State) (pk : Packet) (plane sw b : Nat) (o : Op) (e : GtEntry) (m : Option Nat) (legs : List Nat) (i : Nat)
      (reps : List Nat) (row : List PByte), s.packet? s.subj = some pk → pk.place = some (.col1 plane sw, b) → pk.melt = false →
    (s.node (.col1 plane sw)).deflecting = true ∨ ((s.node (.col1 plane sw)).buf b).pkts.head? = some pk.id →
    pk.body = .msg m legs (.token o.id i false reps row) → s.op? o.id = some o → opGt s o = some e →
    let fits (r : Nat) : Prop := sameDomain s pk.src o.ctx r = true ∧ rowsLeft s o e r ≠ 0
    let len (r : Nat) : Nat := (s.link ⟨r, plane, false⟩).sendq.length
    let becomes (dest : Nat) (body : PktBody) : Prop := ∃ t, exec .packetHop s = .next t ∧ ∃ x ∈ t.fab.packets, x.id = pk.id ∧
      x.src = pk.src ∧ x.dest = dest ∧ x.body = body
    (∀ pre r post, reps = pre ++ r :: post → fits r → (∀ x ∈ pre, fits x → len r < len x) → (∀ x ∈ post, fits x → len r ≤ len x) →
      becomes r (.msg (some o.id) [] (.token o.id i true reps row))) ∧
    ((∀ r ∈ reps, rowsLeft s o e r = 0) → ∃ w : Word, w.toNat / 2 ^ 28 = 2 ∧ w.toNat / 2 ^ 26 % 4 = 0 ∧
      becomes pk.src (.msg (some o.id) [] (.result o.id i w)))

/-- XCHG_TOKEN_ACCEPT at a member (R274, R313, R328, R329, R378): a token waits while that member's operation is held or parked; it is
written to the next row of the receive tile and its result names member and row; without a row left it goes on to the next used
replica under REROUTE, or has CAPACITY; a member that has given its exchange up refuses it with ERROR (the model's choice: log 32).
The result goes back to the source, by the fabric in its domain. -/
def Sys2Proof.Claims.TokenAccepts : Prop :=
  ∀ (s : State) (id i r : Nat) (o : Op) (e : GtEntry) (reps : List Nat) (row : List PByte), s.op? id = some o → opGt s o = some e →
    o.form = .xchg → o.results[i]? = some none → o.tokens.get i = some (.at_ r reps row) →
    let go := exec (.xchgTokenAccept id i) s
    let near (a b : Nat) : Prop := a ≠ b ∧ sameDomain s a o.ctx b = true
    let result (t : State) (w : Word) : Prop :=
      (near r o.rank → ∃ pk ∈ t.fab.packets, pk.src = r ∧ pk.dest = o.rank ∧ pk.body = .msg (some id) [] (.result id i w)) ∧
      (¬near r o.rank → ∃ o', t.op? id = some o' ∧ o'.results = o.results.set i (some w))
    let refused (st : Nat) : Prop := ∃ t w, go = .next t ∧ result t w ∧ w.toNat / 2 ^ 28 = st ∧ w.toNat / 2 ^ 26 % 4 = 0 ∧ SameBytes s t
    (memberOp s o r = none → refused 8) ∧
    ∀ d, memberOp s o r = some d →
      let tile := tileOf d.td
      let rows := if e.xmode = 2 then min e.cap tile.rows else tile.rows
      (d.st = .ending → refused 8) ∧
      (d.st ≠ .ending → d.st = .parked ∨ opHeld s d = true →
        go = .next { s with agenda := s.agenda ++ [.event (.xchgTokenAccept id i)] }) ∧
      (d.st ≠ .ending → d.st ≠ .parked → opHeld s d = false →
        (rows ≤ d.filled → e.xmode ≠ 1 → reps = [] → refused 2) ∧
        (rows ≤ d.filled → e.xmode ≠ 1 → ∀ x rest, reps = x :: rest →
          (near r x → ∃ t, go = .next t ∧ ∃ pk ∈ t.fab.packets, pk.src = r ∧ pk.dest = x ∧
            pk.body = .msg (some id) [] (.token id i true rest row)) ∧
          (¬near r x → ∃ t o', go = .next t ∧ t.op? id = some o' ∧ o'.tokens.get i = some (.at_ x rest row) ∧
            .event (.xchgTokenAccept id i) ∈ t.agenda)) ∧
        (rows ≤ d.filled → e.xmode = 1 → (∀ x ∈ reps, rowsLeft s o e x = 0) → refused 2) ∧
        (d.filled < rows → tile.space = 0 → s.op? d.id = some d → ∀ tm, s.team? d.tid = some tm → memoriesOk s = true →
          let at_ := tile.base + d.filled * tile.pitch
          ∃ t d', go = .next t ∧ t.op? d.id = some d' ∧ d'.filled = d.filled + 1 ∧
            result t (BitVec.ofNat 32 (r % 2 ^ 10 + d.filled % 2 ^ 16 * 2 ^ 10)) ∧
            ∀ p, byteAt t p = match p with
              | .shared tid a => if tid = d.tid ∧ at_ ≤ a ∧ a < at_ + row.length then (row[a - at_]?).map (·.1) else byteAt s p
              | _ => byteAt s p))

/-- The filter of a window and a source (R326): a tag that it records is a duplicate, one more than 63 below the highest is a fault, and
another is applied; the filter then records it, and what it recorded that is not more than 63 below the new highest. -/
def Sys2Proof.Claims.ReplayFilter : Prop :=
  (∀ t, t < 2 ^ 32 → filterTag none t = .applied ⟨t, 1⟩) ∧
  ∀ (f : Filter) (t : Nat), f.h < 2 ^ 32 → f.b < 2 ^ 64 → t < 2 ^ 32 →
    let records (f : Filter) (x : Nat) : Prop := ∃ i, i < 64 ∧ f.b.testBit i = true ∧ (x + i) % 2 ^ 32 = f.h
    let below := (f.h + 2 ^ 32 - t) % 2 ^ 32
    (records f t → filterTag (some f) t = .duplicate) ∧
    (64 ≤ below → below < 2 ^ 31 → filterTag (some f) t = .tooOld) ∧
    (¬records f t → ¬(64 ≤ below ∧ below < 2 ^ 31) → ∃ f', filterTag (some f) t = .applied f' ∧ f'.b < 2 ^ 64 ∧
      f'.h = (if 2 ^ 31 ≤ below then t else f.h) ∧
      ∀ x, x < 2 ^ 32 → (records f' x ↔ x = t ∨ records f x ∧ (f'.h + 2 ^ 32 - x) % 2 ^ 32 < 64))

/-- RSTO_LINE_ARRIVE (R324 to R327, R427): a line is read and leaves for its reducing switch, which applies or discards it by the filter
of its window and source, and answers; an applied one joins its line's round, which goes home when it has CONTRIB contributions. A
line whose switch has gone down meanwhile leaves again. The RSTO counts the answers, and its record is due after the last. -/
def Sys2Proof.Claims.ReduceLines : Prop :=
  ∀ (s : State) (id line : Nat) (o : Op) (p : Pkg) (w : RwEntry), s.op? id = some o → o.form = .rsto → s.pkg? o.rank = some p →
    let win := o.param.toNat % 2 ^ 6
    let l := o.param.toNat / 2 ^ 8 % 2 ^ 32 + line
    let go := exec (.rstoLineArrive id line) s
    let again : Prop := go = .next { s with agenda := s.agenda ++ [.event (.rstoLineArrive id line)] }
    let token := o.tokens.get line
    p.rw.get (o.ctx, win) = some w →
    (o.results[line]? ≠ some none ∨ token = some .flying ∨ token = some .answered → go = .next s) ∧
    (o.results[line]? = some none → token = none → (o.st ≠ .queued → go = .next s) ∧ (o.st = .queued → opHeld s o = true → again) ∧
      ∀ (s1 : State) (bs : List PByte), o.st = .queued → opHeld s o = false →
        engReads s o (tileOf o.ta).space ((tileOf o.ta).pieces false (256 * line) 256) = (s1, .ok bs) →
        ∃ t o', go = .next t ∧ t.op? id = some o' ∧ o'.tokens.get line = some .flying ∧ { o' with tokens := o.tokens } = o ∧
          SameBytes s1 t ∧ ∃ pk ∈ t.fab.packets, pk.src = o.rank ∧ pk.dest = w.home ∧ pk.body = .msg (some id) [] (.line id line bs)) ∧
    (∀ (plane : Nat) (rs : List Nat) (bs : List PByte), o.results[line]? = some none → token = some (.at_ plane rs bs) →
      let here := reducePlane s (w.base + 256 * l) w.home
      (here ≠ plane → ∃ t o', go = .next t ∧ t.op? id = some o' ∧ o'.tokens.get line = none ∧
        .event (.rstoLineArrive id line) ∈ t.agenda ∧ SameBytes s t) ∧
      (here = plane →
        let key := (o.ctx, win, o.extra, plane + 36 * Config.l2Of w.home)
        let round := (o.ctx, win, l)
        let out := filterTag (s.fab.filters.get key) o.seqno
        let parts := (((s.fab.rounds.get round).map (·.parts)).getD []) ++ [⟨o.extra, id, (List.range 64).map fun i =>
          let x := (bs.drop (4 * i)).take 4
          (BitVec.ofNat 32 (ofBytesLE (x.map (·.1))), x.any (·.2))⟩]
        ∃ t o', go = .next t ∧ t.op? id = some o' ∧ o'.tokens.get line = some .answered ∧ { o' with tokens := o.tokens } = o ∧
          SameBytes s t ∧
          let answers (code : Nat) : Prop := ∃ pk ∈ t.fab.packets, pk.dest = o.rank ∧
            pk.body = .msg (some id) [] (.result id line (BitVec.ofNat 32 code))
          let same : Prop := t.fab.filters = s.fab.filters ∧ t.fab.rounds = s.fab.rounds ∧ t.fab.merges = s.fab.merges
          (out = .duplicate → answers 1 ∧ same) ∧ (out = .tooOld → answers 2 ∧ same) ∧
          ∀ f, out = .applied f → answers 0 ∧ t.fab.filters.get key = some f ∧
            (parts.length < w.contrib → ∃ m, t.fab.rounds.get round = some m ∧ m.parts = parts ∧ t.fab.merges = s.fab.merges) ∧
            (w.contrib ≤ parts.length → t.fab.rounds.get round = none ∧ ∃ m, t.fab.merges = s.fab.merges ++ [m] ∧ m.parts = parts ∧
              ∃ pk ∈ t.fab.packets, pk.dest = w.home ∧ pk.body = .msg none [] (.moves [.subject .reduceMergeApply m.id])))) ∧
    ∀ x : Word, o.results[line]? = some none →
      let t := resultArrives s id line x
      ∃ o', t.op? id = some o' ∧ o'.results = o.results.set line (some x) ∧ o'.applied = o.applied + (if x = 0 then 1 else 0) ∧
        o'.dups = o.dups + (if x = 1 then 1 else 0) ∧ o'.errs = o.errs + (if x = 2 then 1 else 0) ∧
        ((∀ y ∈ o'.results, y.isSome = true) → .subject .rstoComplete id ∈ t.agenda)

/-- REDUCE_MERGE_APPLY (R285, R324, R416): a round is combined in increasing SRCID order, whatever the order of arrival; the home
applies it to the words of its line, in which a poisoned word stays as it is, and then adds one at DONEADDR. -/
def Sys2Proof.Claims.ReduceMerges : Prop :=
  (∀ (op : Nat) (ps qs : List Contrib), ps.Perm qs → (ps.map (·.src)).Nodup → mergeParts op ps = mergeParts op qs) ∧
  (∀ (op : Nat) (c : Contrib) (cs : List Contrib) (k : Nat), (c :: cs).Pairwise (fun a b => a.src < b.src) →
    (∀ x ∈ c :: cs, x.words.length = 64) → k < 64 →
    let w (x : Contrib) : Word × Bool := x.words.getD k (0, false)
    (mergeParts op (c :: cs))[k]? = some (cs.foldl (fun a x => rwStep op a (w x).1) (w c).1, (c :: cs).any fun x => (w x).2)) ∧
  (∀ (op : Nat) (old : List PByte) (ws : List (Word × Bool)) (k i : Nat), old.length = 256 → k < 64 → i < 4 →
    let x := (old.drop (4 * k)).take 4
    let w := ws.getD k (0, false)
    (mergedLine op old ws)[4 * k + i]? = if x.any (·.2) = true then x[i]?
      else some (BitVec.ofNat 8 ((rwStep op (BitVec.ofNat 32 (ofBytesLE (x.map (·.1)))) w.1).toNat / 2 ^ (8 * i)), w.2)) ∧
  (∀ s : State, (∀ m ∈ s.fab.merges, m.id ≠ s.subj) → exec .reduceMergeApply s = .next s) ∧
  ∀ (s : State) (m : Merge) (s1 s2 : State) (h : Phys) (old : List PByte), s.fab.merges.find? (fun m => m.id == s.subj) = some m →
    mergeXlate s m m.va = (s1, .ok h) → lineRead s1 h m.ctx m.va 256 = (s2, old) →
    (lineWrite s2 h m.ctx m.va (mergedLine m.op old (mergeParts m.op m.parts)) = none →
      ∃ t, exec .reduceMergeApply s = .next t ∧ .subject .reduceMergeApply m.id ∈ t.agenda ∧ t.fab = s.fab ∧ SameBytes s t) ∧
    ∀ (s3 s4 s5 s6 : State) (k : Phys) (x : Word),
      lineWrite s2 h m.ctx m.va (mergedLine m.op old (mergeParts m.op m.parts)) = some s3 →
      mergeXlate s3 m m.done = (s4, .ok k) → wordAt s4 k m.ctx m.done = (s5, x, false) →
      lineWrite s5 k m.ctx m.done ((bytesLE 4 (x + 1).toNat).map fun b => (b, false)) = some s6 →
      ∃ t, exec .reduceMergeApply s = .next t ∧ SameBytes s6 t ∧ { t with fab := s6.fab } = s6 ∧
        ∀ y, y ∈ t.fab.merges ↔ y ∈ s6.fab.merges ∧ y.id ≠ s.subj

/-- PLANE_DOWN (R427): a plane goes down, or one of its level 2 switches alone. The rounds of the switches that it takes with it and
their filters are lost, RWLOSS of each contributor whose RSTO has been acknowledged counts it, and they serve no line from then on;
the others keep what they have. -/
def Sys2Proof.Claims.PlaneLost : Prop :=
  ∀ (s : State) (plane : Nat) (sw : Option Nat),
    let takes (j : Nat) : Bool := sw.all (· == j)
    let known : Prop := plane ∈ s.fab.down ∨ (∃ j, sw = some j ∧ (plane, j) ∈ s.fab.downSw)
    (known ∨ 36 ≤ plane → exec (.planeDown ⟨plane, sw⟩) s = .next s) ∧
    (¬known → plane < 36 →
      let gone (m : Merge) : Bool := reducePlane s m.va m.home == plane && takes (Config.l2Of m.home)
      let lost := (s.fab.rounds.map (·.2)).filter gone
      ∃ t, exec (.planeDown ⟨plane, sw⟩) s = .next t ∧
        t.fab.down = (if sw = none then plane :: s.fab.down else s.fab.down) ∧
        t.fab.downSw = (match sw with
          | none => s.fab.downSw
          | some j => (plane, j) :: s.fab.downSw) ∧
        (∀ k, k ∈ t.fab.filters ↔ k ∈ s.fab.filters ∧ ¬(k.1.2.2.2 % 36 = plane ∧ takes (k.1.2.2.2 / 36) = true)) ∧
        (∀ k ∈ t.fab.rounds, k ∈ s.fab.rounds ∧ gone k.2 = false) ∧
        (∀ k ∈ s.fab.rounds, (∀ m ∈ lost, m.id ≠ k.2.id) → k ∈ t.fab.rounds) ∧
        (∀ va home, let bad (q : Nat) : Prop := q ∈ t.fab.down ∨ (q, Config.l2Of home) ∈ t.fab.downSw
          (∃ q, q < 36 ∧ ¬bad q) → ¬bad (reducePlane t va home)) ∧
        (∀ r p, s.pkg? r = some p → ∃ p', t.pkg? r = some p' ∧ { p' with rwloss := p.rwloss } = p ∧
          ∀ w, (p'.rwloss.get w).getD 0 =
            let n := (lost.map fun m => (m.parts.filter fun c => m.win == w && c.src / 2 ^ 17 == r && (s.op? c.op).isNone).length).sum
            let x := (p.rwloss.get w).getD 0
            x / 2 ^ 16 * 2 ^ 16 + (x + n) % 2 ^ 16) ∧
        { t with pkgs := s.pkgs, fab := s.fab } = s ∧ SameBytes s t)

/-! ### The tier, its parity and its snapshots -/

/-- The code of R337: from P, Q and the eight data bytes of a stripe, with any two of the ten missing, the eight data bytes are
computed; and each stripe has its ten roles at ten positions, P at σ mod 10, Q next to it, then the data units (R336). -/
def Sys2Proof.Claims.StripeRecovery : Prop :=
  (∀ (data : List Nat) (a b : Nat), data.length = 8 → (∀ x ∈ data, x < 256) →
    stripeData (fun r => if r = a ∨ r = b then none else some (roleByte data r)) = data) ∧
  (∀ data : List Nat, data.length = 8 → (∀ x ∈ data, x < 256) →
    roleByte data 0 = data.foldl (· ^^^ ·) 0 ∧
    roleByte data 1 = ((List.range 8).map fun j => gfMul (gfPow j) (data.getD j 0)).foldl (· ^^^ ·) 0 ∧
    ∀ j, j < 8 → roleByte data (2 + j) = data.getD j 0) ∧
  (∀ a b c, a < 256 → b < 256 → c < 256 → gfMul a b < 256 ∧ gfMul a b = gfMul b a ∧ gfMul a (gfMul b c) = gfMul (gfMul a b) c ∧
    gfMul a (b ^^^ c) = gfMul a b ^^^ gfMul a c ∧ gfMul 1 a = a ∧ gfMul 2 a = (if 128 ≤ a then (2 * a) ^^^ 0x11D else 2 * a) ∧
    (a ≠ 0 → gfMul a (gfInv a) = 1)) ∧
  ∀ slot pos r, pos < 10 → r < 10 → (rolePos slot r = pos ↔ stripeRole slot pos = r) ∧ rolePos slot r = (slot + r) % 10

/-- MORAINE_WRITE (R338, R348, R353, R461): the oldest entry of a die's queue leaves it and is written into the tier, its bytes under the
mask only, a pre-image to its area; it waits while the parity of a pre-image of its line is under way, and a pre-image whose area is
free is dropped. In a recovery set the difference of each byte goes to the P holder, and g^j times it to the Q holder, as packets
to peers. -/
def Sys2Proof.Claims.MoraineDrains : Prop :=
  ∀ (d : DieId) (s : State) (p : Pkg), s.pkg? d.rank = some p → d.die < 4 →
    (p.tier.moraine[d.die]?.getD [] = [] → p.tier.track = false → exec (.moraineWrite d) s = .next s) ∧
    ∀ e rest, p.tier.moraine[d.die]?.getD [] = e :: rest →
      let under : Prop := e.pre = none ∧ ∃ u ∈ p.tier.unstriped, u.pre = true ∧ u.line = e.line
      let kept : Prop := ∀ area, e.pre = some area → p.tier.pstep ≤ area + 2 ∧ ∃ im ∈ p.tier.pre, im.slot = e.slot
      (under → exec (.moraineWrite d) s = .next { s with agenda := s.agenda ++ [.event (.moraineWrite d)] }) ∧
      (¬under → ∃ t p', exec (.moraineWrite d) s = .next t ∧ t.pkg? d.rank = some p' ∧ (∀ r, r ≠ d.rank → t.pkg? r = s.pkg? r) ∧
        (∀ i, i < 4 → p'.tier.moraine[i]?.getD [] = if i = d.die then rest else p.tier.moraine[i]?.getD []) ∧
        (p'.die d.die).drained = ((p.die d.die).drained + 1) % 2 ^ 32 ∧ p'.tier.view = p.tier.view ∧
        (e.pre = none → memoriesOk s = true → (e.bytes.map (·.1)).Nodup →
          (∀ x ∈ e.bytes, p'.tier.store.bytes.read (e.line + x.1) = x.2) ∧
          (∀ a, (∀ x ∈ e.bytes, a ≠ e.line + x.1) → p'.tier.store.bytes.read a = p.tier.store.bytes.read a) ∧
          (e.line / 256 ∈ p'.tier.store.poison ↔ e.bad = true ∨ e.line / 256 ∈ p.tier.store.poison ∧ e.bytes.length ≠ 256) ∧
          p'.tier.storeUnits.get (e.line / 4096) = some e.slot ∧ p'.tier.storePre = p.tier.storePre) ∧
        (∀ area, e.pre = some area → p'.tier.store = p.tier.store ∧ .event (.moraineWrite d) ∈ t.agenda ∧
          (¬kept → p'.tier.storePre = p.tier.storePre) ∧
          (kept → ∀ im, p.tier.pre.find? (fun x => x.slot == e.slot) = some im → p'.tier.storePre = im :: p.tier.storePre)) ∧
        (10 ≤ p.start.pos ∨ ¬kept → t.fab.parity = s.fab.parity ∧ p'.tier.unstriped = p.tier.unstriped) ∧
        (p.start.pos < 10 → kept →
          p'.tier.unstriped = p.tier.unstriped ++ [⟨e.id, e.line, e.pre.isSome, e.tag, d.die, 0⟩] ∧
          ∃ mp mq, t.fab.parity = s.fab.parity ++ [mp, mq] ∧ mp.id ≠ mq.id ∧
            (∀ m ∈ [mp, mq], m.persist = e.id ∧ m.slot = e.slot ∧ m.acked = false ∧ m.src = p.rank ∧
              ∀ h, setMember s p m.holder = some h →
                (h.rank = p.rank → .subject .parityDeltaArrive m.id ∈ t.agenda) ∧
                (h.rank ≠ p.rank → ∃ pk ∈ t.fab.packets, pk.src = p.rank ∧ pk.dest = h.rank ∧
                  pk.body = .msg none [] (.moves [.subject .parityDeltaArrive m.id]))) ∧
            mp.isQ = false ∧ mp.holder = e.slot % 10 ∧ mq.isQ = true ∧ mq.holder = (e.slot + 1) % 10 ∧
            mp.delta = (e.bytes.map fun x =>
              (e.line % 4096 + x.1, BitVec.ofNat 8 (p.tier.slotByte e.slot (e.line % 4096 + x.1)) ^^^ x.2)) ∧
            ∀ j, j < 8 → (e.slot + 2 + j) % 10 = p.start.pos →
              mq.delta = mp.delta.map fun x => (x.1, BitVec.ofNat 8 (gfMul (gfPow j) x.2.toNat))))

/-- Parity updates (R338, R461): those of one slot are applied in the order of their persists; a holder xors its part into its slot and
acknowledges, as a packet to a peer; after both acknowledgements the persist is stripe-durable, and a package whose persists before
its step all are announces the step to the members of the entry it tracks. -/
def Sys2Proof.Claims.ParityUpdates : Prop :=
  ∀ s : State,
    ((∀ m ∈ s.fab.parity, m.id = s.subj → m.acked = true) → exec .parityDeltaArrive s = .next s) ∧
    ((∀ m ∈ s.fab.parity, m.id = s.subj → m.acked = false) → exec .parityAckArrive s = .next s) ∧
    ∀ pre m post, s.fab.parity = pre ++ m :: post → m.id = s.subj → (∀ x ∈ pre, x.id ≠ s.subj) →
      let earlier : Prop := ∃ x ∈ pre, x.src = m.src ∧ x.slot = m.slot ∧ x.isQ = m.isQ ∧ x.acked = false
      (m.acked = false → parityHolder s m = none ∨ earlier →
        exec .parityDeltaArrive s = .next { s with agenda := s.agenda ++ [.subject .parityDeltaArrive m.id] }) ∧
      (∀ h, m.acked = false → parityHolder s m = some h → ¬earlier → s.pkg? h.rank = some h → memoriesOk s = true →
        (m.delta.map (·.1)).Nodup →
        let at_ (n : Nat) : Nat := 8192 * m.slot + (if m.isQ = true then 4096 else 0) + n
        ∃ t p', exec .parityDeltaArrive s = .next t ∧ t.pkg? h.rank = some p' ∧ (∀ r, r ≠ h.rank → t.pkg? r = s.pkg? r) ∧
          (∀ x ∈ m.delta, p'.tier.parity.read (at_ x.1) = h.tier.parity.read (at_ x.1) ^^^ x.2) ∧
          (∀ a, (∀ x ∈ m.delta, a ≠ at_ x.1) → p'.tier.parity.read a = h.tier.parity.read a) ∧
          { p' with tier := { p'.tier with parity := h.tier.parity } } = h ∧
          t.fab.parity = (s.fab.parity.map fun x => if x.id = m.id then { x with acked := true } else x) ∧
          (h.rank = m.src → .subject .parityAckArrive m.id ∈ t.agenda) ∧
          (h.rank ≠ m.src → ∃ pk ∈ t.fab.packets, pk.src = h.rank ∧ pk.dest = m.src ∧
            pk.body = .msg none [] (.moves [.subject .parityAckArrive m.id]))) ∧
      ∀ p, m.acked = true → s.pkg? m.src = some p → ∃ t p', exec .parityAckArrive s = .next t ∧ t.pkg? m.src = some p' ∧
        t.fab.parity = s.fab.parity.filter (fun x => x.id != m.id) ∧
        (∀ u, u ∈ p'.tier.unstriped ↔ u.acks < 2 ∧ ∃ v ∈ p.tier.unstriped,
          u = if v.id = m.persist then { v with acks := v.acks + 1 } else v) ∧
        { p' with tier := { p'.tier with unstriped := p.tier.unstriped, announced := p.tier.announced } } = p ∧
        let due : Prop := p.tier.track = true ∧ p.tier.announced < p.tier.pstep ∧
          (∀ u ∈ p'.tier.unstriped, u.pre = true ∨ p.tier.pstep ≤ u.tag) ∧
          ∀ q ∈ p.tier.moraine.toList, ∀ e ∈ q, e.pre.isSome = true ∨ p.tier.pstep ≤ e.tag
        (¬due → p'.tier.announced = p.tier.announced ∧ t.fab.packets = s.fab.packets) ∧
        (due → p'.tier.announced = p.tier.pstep ∧ ∀ r ∈ trackedMembers p, r ≠ m.src → (∃ q, s.pkg? r = some q) →
          ∃ pk ∈ t.fab.packets, pk.src = m.src ∧ pk.dest = r ∧
            pk.body = .msg none [] (.moves [.event (.memberStepReport r m.src p.tier.pstep)]))

/-- A damaged tier line (R339 to R341): a read that finds the error joins the reconstruction of its stripe, or begins one, and the other
members that hold the stripe without error are asked, as packets; with fewer than eight of them readers receive poison from then on.
The reconstruction ends for every line that joined it, once parity is at rest and eight have answered, or no more can: a line with
eight is rewritten, and CORR counts it and its unit moves to a fresh slot; any other is marked poison, and POIS and LASTP say
so. -/
def Sys2Proof.Claims.DamagedLines : Prop :=
  ∀ (rank : Nat) (s : State) (p : Pkg), s.pkg? rank = some p →
    let unit (line : Nat) : Option Nat := p.tier.storeUnits.get (line / 4096)
    (∀ line ps, rebuiltLine s p line ps = none ↔ (∃ slot, unit line = some slot) ∧ (10 ≤ p.start.pos ∨ ps.length < 8)) ∧
    (∀ a damaged,
      let l := a / 256 * 256
      let run := exec (.tierReadError rank a damaged) s
      (unit l = none → run = .next s) ∧
      ∀ slot, unit l = some slot →
        let old := p.tier.recon.find? fun r => r.slot == slot
        let r : Recon := old.getD ⟨slot, [], [], [], []⟩
        let others := readableOthers s p slot (l % 4096)
        let asks := others.filter fun pos => !r.asked.contains pos
        let r' : Recon := { r with lines := (r.lines ++ [l]).dedup, damaged := (r.damaged ++ damaged).dedup, asked := r.asked ++ asks }
        let few : Prop := (others.filter fun pos => !r'.damaged.contains pos).length < 8
        ∃ t q, run = .next t ∧ t.pkg? rank = some q ∧ (∀ n, n ≠ rank → t.pkg? n = s.pkg? n) ∧
          { q with tier := { q.tier with recon := p.tier.recon, view := p.tier.view } } = p ∧
          (∀ x, x ∈ q.tier.recon ↔ x = r' ∨ x ∈ p.tier.recon ∧ x.slot ≠ slot) ∧
          (few → q.tier.view = p.tier.view.mark 256 l) ∧ (¬few → q.tier.view = p.tier.view) ∧
          (∀ pos ∈ asks, ∀ m, setMember s p pos = some m → m.rank ≠ rank → ∃ pk ∈ t.fab.packets, pk.src = rank ∧ pk.dest = m.rank ∧
            pk.body = .msg none [rank] (.stripe rank slot pos)) ∧
          (old = none → .event (.reconstructDone rank l) ∈ t.agenda)) ∧
    ∀ line,
      ((∀ r ∈ p.tier.recon, line ∉ r.lines) → exec (.reconstructDone rank line) s = .next s) ∧
      ∀ r, p.tier.recon.find? (fun r => r.lines.contains line) = some r →
        let good (l : Nat) : List Nat :=
          (readableOthers s p r.slot (l % 4096)).filter fun pos => !r.damaged.contains pos && r.answered.contains pos
        let busy : Prop := ∃ m ∈ s.fab.parity, m.slot = r.slot ∧ m.acked = false
        let enough : Prop := ∀ l ∈ r.lines, 8 ≤ (good l).length
        let ended : Prop := ∀ pos ∈ r.asked, pos ∈ r.answered ∨ ∃ pk ∈ s.fab.packets, ∃ o legs since,
          pk.body = .msg o legs (.stripe rank r.slot pos) ∧ pk.stuck = some since ∧ since + 1000 * Config.usec ≤ s.cyc
        (busy ∨ p.start.pos < 10 ∧ ¬enough ∧ ¬ended →
          exec (.reconstructDone rank line) s = .next { s with agenda := s.agenda ++ [.event (.reconstructDone rank line)] }) ∧
        (¬busy → 10 ≤ p.start.pos ∨ enough ∨ ended → memoriesOk s = true → (s.pkgs.map (·.rank)).Nodup →
          r.lines.Nodup → (∀ l ∈ r.lines, l % 256 = 0 ∧ l < 2 ^ 42 ∧ ∃ slot, unit l = some slot) →
          ∃ t q, exec (.reconstructDone rank line) s = .next t ∧ t.pkg? rank = some q ∧
            (∀ x, x ∈ q.tier.recon ↔ x ∈ p.tier.recon ∧ x.slot ≠ r.slot) ∧
            (∀ l ∈ r.lines, ∀ bs, rebuiltLine s p l (good l) = some bs → bs.length = 256 ∧ l / 256 ∉ q.tier.store.poison ∧
              l / 256 ∉ q.tier.view.poison ∧ ∀ i, i < 256 → q.tier.store.bytes.read (l + i) = bs.getD i 0) ∧
            (∀ l ∈ r.lines, rebuiltLine s p l (good l) = none → l / 256 ∈ q.tier.store.poison ∧ l / 256 ∈ q.tier.view.poison ∧
              ∀ i, i < 256 → q.tier.store.bytes.read (l + i) = p.tier.store.bytes.read (l + i)) ∧
            (∀ a, (∀ l ∈ r.lines, a / 256 ≠ l / 256) → q.tier.store.bytes.read a = p.tier.store.bytes.read a) ∧
            ∀ l, r.lines = [l] →
              let d := l / 2 ^ 40 % 4
              (∀ bs, rebuiltLine s p l (good l) = some bs → (q.die d).corr = min (2 ^ 32 - 1) ((p.die d).corr + 1) ∧
                (p.tier.free ≠ 0 → ∃ n, q.tier.storeUnits.get (l / 4096) = some n ∧ (∀ x ∈ p.tier.units, x.2 ≠ n) ∧
                  (∀ x ∈ p.tier.pre, x.slot ≠ n) ∧ 2 ≤ stripeRole n p.start.pos)) ∧
              (rebuiltLine s p l (good l) = none → (q.die d).pois = min 65535 ((p.die d).pois + 1) ∧ (q.die d).lastp = l))

/-- MEMBER_STEP_REPORT and STEP_BOUNDARY (R352 to R355, R387, R388, R461): a report raises what a member is known to have reached, and
a snapshot that all have left becomes the consistent one; PSTEP passes a boundary when a STEP waits on every die and, under tracking,
every member has reached it: the areas older than two steps are freed, the step is announced to the members by packets once every
earlier persist is stripe-durable, and each STEP at the boundary completes with PSTEP. A SNAP that stops tracking, or finds it begun,
completes at once: in its record PSTEP as it stood when tracking began is the step that the boundary entered (log 47). -/
def Sys2Proof.Claims.StepsPass : Prop :=
  ∀ (rank : Nat) (s : State) (p : Pkg), s.pkg? rank = some p →
    let members := ((p.gt.get (p.tier.trackCtx, p.tier.entry)).map (·.members)).getD []
    (∀ member n m,
      let reached := p.tier.reached.put member (max n ((p.tier.reached.get member).getD 0))
      let known (r : Nat) : Nat := if r = p.rank then p.tier.pstep else (reached.get r).getD 0
      let new : Prop := p.tier.track = true ∧ p.tier.trackFrom + 1 ≤ m ∧ (p.tier.snapv = false ∨ p.tier.snapc < m - 1)
      m ≤ p.tier.pstep → (∀ r ∈ members, m ≤ known r) → (m = p.tier.pstep ∨ ∃ r ∈ members, m = known r) →
      ∃ t, exec (.memberStepReport rank member n) s = .next t ∧ .event (.stepBoundary rank) ∈ t.agenda ∧
        (new → PkgBecomes s t rank { p with tier := { p.tier with reached := reached, snapv := true, snapc := m - 1 } }) ∧
        (¬new → PkgBecomes s t rank { p with tier := { p.tier with reached := reached } })) ∧
    ((∀ o ∈ s.ops, ¬(o.rank = rank ∧ o.form = .snap)) →
      let due : Prop := (∀ n ∈ p.tier.arrived.toList, 1 ≤ n) ∧
        (p.tier.track = true → ∀ r ∈ members, r ≠ p.rank → p.tier.pstep ≤ (p.tier.reached.get r).getD 0)
      let new := (p.tier.pstep + 1) % 2 ^ 64
      (¬due → exec (.stepBoundary rank) s = .next s) ∧
      (due → (s.ops.map (·.id)).Nodup → ∃ t p', exec (.stepBoundary rank) s = .next t ∧ t.pkg? rank = some p' ∧ p'.tier.pstep = new ∧
        p'.tier.arrived = p.tier.arrived.map (· - 1) ∧ .event (.stepBoundary rank) ∈ t.agenda ∧
        (∀ im, im ∈ p'.tier.pre ↔ im ∈ p.tier.pre ∧ new ≤ im.area + 2) ∧
        p'.tier.free = p.tier.free + (p.tier.pre.filter fun im => im.area + 2 < new).length ∧
        (p.tier.track = true → p.tier.announced < new → (∀ u ∈ p.tier.unstriped, u.pre = true ∨ new ≤ u.tag) →
          (∀ q ∈ p.tier.moraine.toList, ∀ e ∈ q, e.pre.isSome = true ∨ new ≤ e.tag) → p'.tier.announced = new ∧
          ∀ r ∈ members, r ≠ rank → (∃ q, s.pkg? r = some q) → ∃ pk ∈ t.fab.packets, pk.src = rank ∧ pk.dest = r ∧
            pk.body = .msg none [] (.moves [.event (.memberStepReport r rank new)])) ∧
        ∀ o ∈ s.ops, o.rank = rank → o.form = .step → o.st ≠ .withdrawn →
          (1 < o.bound → t.op? o.id = some { o with bound := o.bound - 1 }) ∧
          (o.bound ≤ 1 → t.op? o.id = none ∧ ∀ g, s.group? o.gid = some g → teamOut s o.gid = false →
            ∃ g', t.group? o.gid = some g' ∧ g'.kr o.kn.toNat = BitVec.ofNat 64 new))) ∧
    ∀ o, (s.ops.filter fun x => x.rank == rank && x.form == .snap) = [o] → s.op? o.id = some o → o.st = .queued → o.pass = 0 →
      opHeld s o = false → p.tier.roll = false → 0 ∈ p.tier.arrived.toList →
      let en := o.param.toNat.testBit 0
      (en = false → ∃ t p', exec (.stepBoundary rank) s = .next t ∧ t.pkg? rank = some p' ∧ p'.tier.track = false ∧
        p'.tier.snapv = false ∧ p'.tier.pre = [] ∧ t.op? o.id = none) ∧
      (en = true → p.tier.track = false → ∃ t, exec (.stepBoundary rank) s = .next t ∧
        OpBecomes s t o.id { o with pass := 1, st := .running }) ∧
      (en = true → p.tier.track = true → ∃ t, exec (.stepBoundary rank) s = .next t ∧ t.op? o.id = none ∧ t.pkg? rank = some p ∧
        ∀ g, s.group? o.gid = some g → teamOut s o.gid = false → ∃ g', t.group? o.gid = some g' ∧
          g'.kr o.kn.toNat = BitVec.ofNat 64
            ((if o.param.toNat / 2 ^ 8 % 2 ^ 8 = p.tier.entry then 0 else 8) + (p.tier.trackFrom + 1) % 2 ^ 32 * 2 ^ 32))

/-! ### The update engine and placement -/

/-- The steps of R358 are each rounded once to the nearest FP32 value, division and square root too; the rules of one element; the
trust factor (R359); and a mask keeps the n largest magnitudes of a group, ties to the lower index, which its metadata name
(R360). -/
def Sys2Proof.Claims.UpdateValues : Prop :=
  let fin (x : Nat) : Prop := x < 2 ^ 32 ∧ (valOf .f32 x).isNan = false ∧ (valOf .f32 x).isInf = false
  let v (x : Nat) : ℚ := ratOf (valOf .f32 x)
  let nearest (r : Nat) (x : ℝ) : Prop := ∀ c, fin c → |(v r : ℝ) - x| ≤ |(v c : ℝ) - x|
  (∀ x y, fin x → fin y →
    (fin (rnAdd x y) → nearest (rnAdd x y) (v x + v y)) ∧ (fin (rnSub x y) → nearest (rnSub x y) (v x - v y)) ∧
    (fin (rnMul x y) → nearest (rnMul x y) (v x * v y)) ∧
    (v y ≠ 0 → fin (rnDiv x y) → nearest (rnDiv x y) (v x / v y)) ∧
    (0 ≤ v x → fin (rnSqrt x) ∧ nearest (rnSqrt x) (Real.sqrt (v x)))) ∧
  (∀ (h : UpdDesc) (w m u g trust d : Nat),
    let m1 := rnAdd (rnMul h.mu m) g
    let m2 := rnAdd (rnMul h.b1 m) (rnMul h.a1 g)
    let u2 := rnAdd (rnMul h.b2 u) (rnMul h.a2 (rnMul g g))
    let q := rnDiv (rnMul h.c1 m2) (rnAdd (rnSqrt (rnMul h.c2 u2)) h.eps)
    updElem h .sgdm w m u g = (m1, u, rnAdd m1 (rnMul h.wd w)) ∧
    updElem h .adam w m u g = (m2, u2, rnAdd q (rnMul h.wd w)) ∧ updElem h .lamb w m u g = (m2, u2, rnAdd q (rnMul h.wd w)) ∧
    updW h .sgdm trust w d = rnSub w (rnMul h.lr d) ∧ updW h .adam trust w d = rnSub w (rnMul h.lr d) ∧
    updW h .lamb trust w d = rnSub w (rnMul (rnMul h.lr trust) d)) ∧
  (∀ x y, fin x → fin y → (v x = 0 ∨ v y = 0 → lambTrust x y = 0x3F800000) ∧ (v x ≠ 0 → v y ≠ 0 → lambTrust x y = rnDiv x y)) ∧
  (∀ (n : Nat) (ws : List Nat), n ≤ ws.length →
    let mag (i : Nat) : Nat := ws.getD i 0 % 2 ^ 31
    (keptOf n ws).length = n ∧ (keptOf n ws).Pairwise (· < ·) ∧ (∀ i ∈ keptOf n ws, i < ws.length) ∧
    ∀ i ∈ keptOf n ws, ∀ j, j < ws.length → j ∉ keptOf n ws → mag j < mag i ∨ mag j = mag i ∧ i < j) ∧
  ∀ ws : List Nat, ws.length = 64 →
    (maskMeta .m24 ws).length = 16 ∧ (maskMeta .m48 ws).length = 16 ∧
    (∀ i a b, i < 16 → keptOf 2 ((ws.drop (4 * i)).take 4) = [a, b] →
      ofBytesLE (maskMeta .m24 ws) / 2 ^ (4 * i) % 2 ^ 4 = a + 4 * b) ∧
    ∀ i a b c d, i < 8 → keptOf 4 ((ws.drop (8 * i)).take 8) = [a, b, c, d] →
      ofBytesLE (maskMeta .m48 ws) / 2 ^ (16 * i) % 2 ^ 16 = a + 8 * b + 64 * c + 512 * d

/-- UPD_BLOCK_WRITE (R310, R361 to R363, R381 to R384, R428): a block whose lines have peer homes crosses the fabric first. A UPD reads its
descriptor, and one that is not valid ends it with ERROR; a block whose inputs are sound is computed and all of it is written, or,
at a fault or for want of space, none of it; a poisoned block is reconstructed once more, and one that cannot be is logged, and the
UPD goes on and ends PARTIAL; a PAIRST writes both copies of its block together. -/
def Sys2Proof.Claims.UpdateSteps : Prop :=
  ∀ (s : State) (o : Op), s.op? s.subj = some o → (∀ x ∈ s.ops, x.id = o.id → x = o) →
    let run := exec .updBlockWrite s
    let again (u : State) : Prop := run = .next { u with agenda := u.agenda ++ [.subject .updBlockWrite o.id] }
    let far := farHomes s o 2 .read (blockRanges o)
    let active : Prop := o.st = .queued ∨ o.st = .running
    let runs : Prop := o.form = .pairst ∨ ∃ opt msk pair, o.form = .upd opt msk pair
    let ready : Prop := active ∧ opHeld s o = false ∧ (o.chunks = [] ∧ far = [] ∨ ∃ i ds cs, o.chunks = ⟨i, .here, ds⟩ :: cs)
    let c : Op := { o with chunks := [] }
    let s1 := s.modOp o.id fun x => { x with chunks := [] }
    let goes (u : State) (logged : Nat) : Prop := ∃ t, run = .next t ∧
      if (tileOf o.td).rows * ((tileOf o.td).cols / 64) ≤ o.pidx + 1
      then OpBecomes u t o.id { c with
          pidx := o.pidx + 1
          errs := o.errs + logged
          st := .ending
          status := if o.errs + logged = 0 then 0 else 1 } ∧ o.fin ∈ t.agenda
      else OpBecomes u t o.id { c with pidx := o.pidx + 1, errs := o.errs + logged, st := .running } ∧
        .subject .updBlockWrite o.id ∈ t.agenda
    let writes (u : State) (rs : List (Nat × List PByte)) : Prop :=
      (∀ w, globalRuns u o.rank o.die o.ctx rs = .done w → w.op? o.id = some c → goes w 0) ∧
      (∀ w va f, globalRuns u o.rank o.die o.ctx rs = .fault w va f → run = .next (park w c va f 1)) ∧
      (∀ w, globalRuns u o.rank o.die o.ctx rs = .capacity w → w.op? o.id = some c → ∃ t, run = .next t ∧
        OpBecomes w t o.id { c with st := .ending, status := 2 } ∧ o.fin ∈ t.agenda) ∧
      (∀ w, globalRuns u o.rank o.die o.ctx rs = .wait w → again w)
    let logs (w : State) (h : UpdDesc) (opt : UpdOpt) (which : Nat) : Prop :=
      ∀ p, w.op? o.id = some c → w.pkg? o.rank = some p → o.die < 4 →
        ∃ w' q, goes w' 1 ∧ PkgBecomes w w' o.rank (withDie p o.die q) ∧ w'.agenda = w.agenda ∧
          q.updLog = (if (p.die o.die).updLog.length < 64
            then (p.die o.die).updLog ++ [((updLines o h opt o.pidx).headD 0 % 2 ^ 57, which, o.ctx)] else (p.die o.die).updLog)
    (¬active → run = .next s) ∧
    (active → runs → opHeld s o = true → again s) ∧
    (active → runs → opHeld s o = false → o.chunks = [] → ∀ h rest, far = h :: rest → ∃ t, run = .next t ∧
      t.op? o.id = some { o with chunks := [⟨o.pidx, .moving, []⟩] } ∧ ∃ pk ∈ t.fab.packets, pk.src = o.rank ∧ pk.dest = h ∧
        pk.body = .msg (some o.id) (rest ++ [o.rank]) (.chunk o.id o.pidx)) ∧
    (∀ opt msk pair u bs, ready → o.form = .upd opt msk pair → o.src = none → engRead s1 c 2 o.param.toNat 128 = (u, .ok bs) →
      u.op? o.id = some c →
      let ok := (updDesc (bs.map (·.1))).ok opt msk pair (tileOf o.ta).fmt
      (ok = false → ∃ t, run = .next t ∧ OpBecomes u t o.id { c with st := .ending, status := 8 } ∧ o.fin ∈ t.agenda) ∧
      (ok = true → ∃ t, run = .next t ∧ OpBecomes u t o.id { c with src := some bs } ∧ .subject .updBlockWrite o.id ∈ t.agenda)) ∧
    (∀ opt msk pair src u x, ready → o.form = .upd opt msk pair → o.src = some src →
      let h := updDesc (src.map (·.1))
      updRead s1 c h opt o.pidx = (u, .ok x) → ¬(opt = .lamb ∧ o.pass = 0) →
      let block (u : State) (x : UpdIn) : Prop :=
        let code (l : List PByte) (i : Nat) : Nat := (codesOf l).getD i 0
        let el (i : Nat) : Nat × Nat × Nat := updElem h opt (code x.w i) (code x.m i) (code x.v i) ((gradCodes h x.g).getD i 0)
        let new (i : Nat) : Nat := updW h opt (lambTrust o.nw o.nd) (code x.w i) (el i).2.2
        let line (f : Nat → Nat) : List PByte := ((List.range 64).flatMap fun i => bytesLE 4 (f i)).map fun b => (b, false)
        let nb := (tileOf o.td).cols / 64
        writes u ((updLines o h opt o.pidx).zip [line new, line fun i => (el i).1, line fun i => (el i).2.1] ++
          workRuns h msk (tileOf o.td).cols (o.pidx / nb) (o.pidx % nb) ((List.range 64).map new))
      (x.which = 0 → block u x) ∧
      (x.which ≠ 0 →
        (rebuildBlock u c h opt o.pidx = .wait → again u) ∧
        (∀ w, rebuildBlock u c h opt o.pidx = .bad w → logs w h opt x.which) ∧
        ∀ w v y, rebuildBlock u c h opt o.pidx = .rebuilt w → updRead w c h opt o.pidx = (v, .ok y) →
          (y.which = 0 → block v y) ∧ (y.which ≠ 0 → logs v h opt y.which))) ∧
    ∀ u bs u' ts, ready → o.form = .pairst →
      let d := tileOf o.td
      let a := tileOf o.ta
      let n := if a.fmt = 6 then 48 else 64 * fmtBytes a.fmt
      let r := o.pidx / (d.cols / 64)
      let b := o.pidx % (d.cols / 64)
      engRead s1 c a.space (a.start + r * a.pitch + b * n) n = (u, .ok bs) → pairTrans u c r b bs = (u', .ok ts) →
      writes u' ((d.start + r * d.pitch + b * n, bs) :: ts)

/-- Frames (R343, R346): a promote takes a run of free contiguous frames of the pool, evicting no more than HBM objects that are not
pinned, the oldest first; with none to be had nothing is evicted. -/
def Sys2Proof.Claims.FramesChosen : Prop :=
  ∀ (p : Pkg) (n : Nat), (p.place.map (·.idx)).Nodup →
    let frames (x : PlaceEntry) : Nat := x.length / 2 ^ 21
    let apart (f : Nat) (x : PlaceEntry) : Prop := x.frame0 + frames x ≤ f ∨ f + n ≤ x.frame0
    let loose (x : PlaceEntry) : Prop := x.st = .hbm ∧ x.pin = false
    (∀ f vs, planFrames p n = some (f, vs) → f + n ≤ p.plpools ∧
      (∀ x ∈ p.place, x.st ≠ .tier → x.idx ∉ vs → apart f x) ∧ (∀ v ∈ vs, ∃ x ∈ p.place, x.idx = v ∧ loose x) ∧
      (∀ x ∈ p.place, ∀ y ∈ p.place, loose x → x.idx ∉ vs → y.idx ∈ vs → y.since ≤ x.since) ∧
      (vs ≠ [] → ∀ f', f' + n ≤ p.plpools → ∃ x ∈ p.place, x.st ≠ .tier ∧ ¬apart f' x)) ∧
    (planFrames p n = none → ∀ f, f + n ≤ p.plpools → ∃ x ∈ p.place, x.st ≠ .tier ∧ ¬loose x ∧ ¬apart f x)

/-- PLACE_COPY_DONE (R342 to R346, R385): the next request acts on its object by the table of R344, and the copies end: a copy to HBM,
once its victims are gone, in one remap, after which no translation or cached line of the object stands; a copy back chunk by chunk,
then the lines written meanwhile, and then the remap to the tier. -/
def Sys2Proof.Claims.PlacementSteps : Prop :=
  (∀ (rank entry : Nat) (s : State), entry < 4096 →
    (placeEntry s rank entry = none → exec (.placeCopyDone rank entry) s = .next s) ∧
    ∀ e p, placeEntry s rank entry = some e → s.pkg? rank = some p →
      (e.st = .tier ∨ e.st = .hbm → exec (.placeCopyDone rank entry) s = .next s) ∧
      (e.st = .promoting → e.victims ≠ [] →
        exec (.placeCopyDone rank entry) s = .next { s with agenda := s.agenda ++ [.event (.placeCopyDone rank entry)] }) ∧
      (e.st = .promoting → e.victims = [] → ∃ t e', exec (.placeCopyDone rank entry) s = .next t ∧
        placeEntry t rank entry = some e' ∧ e'.st = .hbm ∧ e'.waiting = [] ∧ e'.frame0 = e.frame0 ∧ e'.pin = e.pin ∧
        (∀ x ∈ e.waiting, t.op? x = none) ∧
        ((∀ q ∈ p.slices, q.2.monitors = []) → ∀ q, t.pkg? rank = some q →
          let touches (ctx va n : Nat) : Prop := ctx = e.ctx ∧ va < e.start + e.length ∧ e.start < va + n
          (∀ d, d < 4 → ∀ x ∈ (q.die d).tlb, ¬touches x.ctx x.va x.size) ∧ ∀ c ∈ q.cache, ¬touches c.ctx c.va 256)) ∧
      (e.st = .demoting →
        let chunk : Prop := 16 * e.done < pageLines e.pages
        let lines := if chunk then (List.range 16).filterMap fun i => pageLine e.pages (16 * e.done + i) else tierLines e (e.marks.take 16)
        let back := backLines rank e lines (cleanLines s rank (inRange e.ctx e.start e.length))
        (chunk ∨ e.marks ≠ [] →
          (back = .wait →
            exec (.placeCopyDone rank entry) s = .next { s with agenda := s.agenda ++ [.event (.placeCopyDone rank entry)] }) ∧
          ∀ s2, back = .ok s2 → ∃ t, exec (.placeCopyDone rank entry) s = .next t ∧ .event (.placeCopyDone rank entry) ∈ t.agenda ∧
            ∀ e2, placeEntry s2 rank entry = some e2 → placeEntry t rank entry =
              some (if chunk then { e2 with done := e2.done + 1 } else { e2 with marks := e2.marks.drop 16 })) ∧
        (¬chunk → e.marks = [] → e.pin = false → (p.place.map (·.idx)).Nodup →
          ∃ t, exec (.placeCopyDone rank entry) s = .next t ∧ placeEntry t rank entry = none ∧ ∀ x ∈ e.waiting, t.op? x = none))) ∧
  (∀ (rank n : Nat) (s : State), 4096 ≤ n → (∀ o ∈ s.ops, ¬(o.rank = rank ∧ o.kind = 5 ∧ o.st = .queued)) →
    exec (.placeCopyDone rank n) s = .next s) ∧
  ∀ (rank n : Nat) (s : State) (o : Op) (op : PlaceOp) (p : Pkg) (e : PlaceEntry), 4096 ≤ n →
    s.ops.find? (fun o => o.rank == rank && o.kind == 5 && o.st == .queued) = some o → o.form = .place op → opHeld s o = false →
    s.op? o.id = some o → s.pkg? rank = some p → (p.place.map (·.idx)).Nodup → e ∈ p.place →
    let base := (tileOf o.ta).base
    let len := o.param.toNat % 2 ^ 20 * 2 ^ 21
    p.place.find? (fun e => e.ctx == o.ctx && e.base < base + len && base < e.base + e.length) = some e →
    ∃ t, exec (.placeCopyDone rank n) s = .next t ∧
      let entry := placeEntry t rank e.idx
      let gone : Prop := t.op? o.id = none
      let stays : Prop := t.op? o.id = some { o with st := .running }
      let superseded : Prop := ∀ x ∈ e.waiting, x ≠ o.id → t.op? x = none
      (e.base ≠ base ∨ e.length ≠ len → gone ∧ entry = some e) ∧
      (e.base = base → e.length = len →
        (op = .pin → gone ∧ entry = some { e with pin := true }) ∧
        (op = .unpin → gone ∧ (e.st ≠ .tier → entry = some { e with pin := false }) ∧ (e.st = .tier → e.waiting = [] → entry = none)) ∧
        (op = .promote → e.st = .hbm → gone ∧ entry = some e) ∧
        (op = .demote → e.st = .tier → gone) ∧
        (op = .demote → e.st = .hbm → stays ∧
          entry = some { e with pin := false, st := .demoting, done := 0, marks := [], waiting := [o.id] } ∧
          .event (.placeCopyDone rank e.idx) ∈ t.agenda) ∧
        (op = .promote → e.st = .promoting → o.id ∉ e.waiting → stays ∧ superseded ∧ entry = some { e with waiting := [o.id] }) ∧
        (op = .demote → e.st = .demoting → o.id ∉ e.waiting → stays ∧ superseded ∧ entry = some { e with waiting := [o.id] }) ∧
        (op = .demote → e.st = .promoting → gone ∧ superseded ∧
          (e.pin = true → entry = some { e with st := .tier, victims := [], waiting := [] }) ∧ (e.pin = false → entry = none)) ∧
        (op = .promote → e.st = .demoting → (∀ x ∈ p.place, e.idx ∉ x.victims) → gone ∧ superseded ∧
          entry = some { e with st := .hbm, waiting := [] }) ∧
        (op = .promote → e.st = .tier →
          (planFrames p (e.length / 2 ^ 21) = none → gone) ∧
          ∀ f vs, planFrames p (e.length / 2 ^ 21) = some (f, vs) → stays ∧ .event (.placeCopyDone rank e.idx) ∈ t.agenda ∧
            entry = some { e with st := .promoting, frame0 := f, victims := vs, waiting := [o.id] } ∧
            ∀ v ∈ vs, ∃ x, placeEntry t rank v = some x ∧ x.st = .demoting))

/-! ### An invariant of every step -/

/-- Every step keeps the canonical form of every memory (addresses rising, no byte listed that an unlisted address reads as), so that
memories with equal contents are equal data. The form is the model's own; the bytes and their places are those of R2, R200, R203,
R207, R213 and R333. -/
def Obligations.MemoriesStayCanonical : Prop :=
  ∀ s t : State, memoriesOk s = true → step s = .next t → memoriesOk t = true

/-- The canonical form holds at reset: no memory lists a byte. It is the model's own form of the memories of R2, R203, R207, R213 and
R333. -/
def Obligations.ResetIsCanonical : Prop := memoriesOk State.reset = true

/-! ### Statements of several parts -/

/-- Decoding is exact: no bit of a word is dropped, and no unassigned opcode decodes (R46, R62, R66). -/
def Obligations.Decoding : Prop :=
  Claims.DecodeExact ∧ Claims.UnassignedRefused

/-- A step runs the decoded word of the fragment that its lane picks, or the step of the hardware or the host that its agenda
gives next. -/
def Obligations.StepRunsDecoded : Prop :=
  Claims.StepRunsWords ∧ Claims.OpportunityPasses ∧ Claims.StepRunsEvents

/-- The registers of a thread slot and of a group read as written, and a write changes one register alone (R11, R13, R16). -/
def Obligations.RegisterFile : Prop :=
  Claims.ThreadRegisters ∧ Claims.GroupRegisters

/-- The words of R99, R100 and R101 complete, and write their destination in every slot of the execution mask alone. -/
def Obligations.ImmediateWords : Prop :=
  Claims.BitFieldWords ∧ Claims.ShortImmediateWords ∧ Claims.AddressWords

/-- Floating-point arithmetic and comparison, with their special operands (R78, R103, R107, R108). -/
def Obligations.ArithmeticIsExact : Prop :=
  Claims.ExactArithmetic ∧ Claims.ComparisonsAndSigns

/-- A floating-point word always writes its results; an enabled condition then raises the arithmetic trap (R96, R107). -/
def Obligations.FloatWords : Prop :=
  Claims.FloatResults ∧ Claims.ArithmeticTrap

/-- The thread combiners read before they write, and broadcast to one k register (R163 to R169). -/
def Obligations.CombinerWords : Prop :=
  Claims.GroupCombiners ∧ Claims.BroadcastWord

/-- REP checks and sets up its repeats, and each repeat runs the stepped word (R57, R124 to R126). -/
def Obligations.RepeatWords : Prop :=
  Claims.RepWord ∧ Claims.RepRefuses ∧ Claims.RepeatRunsSteppedWord ∧ Claims.RepeatChecks

/-- The start of a clause: its checks and its waits (R38, R45). -/
def Obligations.ClauseStart : Prop :=
  Claims.ClauseEntry ∧ Claims.ClauseHeaderChecks

/-- BR by its table, and the parts of a split (R117, R135). -/
def Obligations.BranchWord : Prop :=
  Claims.BranchTable ∧ Claims.SplitPartition

/-- Calls and returns (R16 to R21, R127 to R133). -/
def Obligations.CallAndReturn : Prop :=
  Claims.CallWord ∧ Claims.RetWord

/-- JOIN, and where the joined fragment goes on (R34, R118, R138). -/
def Obligations.JoinWord : Prop :=
  Claims.JoinParks ∧ Claims.JoinCompletes ∧ Claims.AfterJoin

/-- The barrier words, and one phase of a barrier (R149, R150, R175). -/
def Obligations.BarrierWords : Prop :=
  Claims.BarrierPhase ∧ Claims.BarrierWaiters ∧ Claims.BarrierEventWords ∧ Claims.BarrierWaitWords

/-- The words on child grids, tile registers and holdings. -/
def Obligations.HoldingWords : Prop :=
  Claims.ChildWaitAndTileWords ∧ Claims.ResourceWords

/-- SRR, and what system registers hold (R30, R33, R418). -/
def Obligations.SystemRead : Prop :=
  Claims.SystemReadWord ∧ Claims.SystemRegisterValues

/-- SRW, and the effect of a system register write (R31, R32, R403, R418). -/
def Obligations.SystemWrite : Prop :=
  Claims.SystemWriteWord ∧ Claims.SystemWriteEffect

/-- The system words that trap, need trap mode, wait or halt (R397, R399, R419, R421). -/
def Obligations.TrapWords : Prop :=
  Claims.TrapWordAndModes ∧ Claims.IdleAndHalt

/-- The matrix words at issue (R186 to R192). -/
def Obligations.MatrixWords : Prop :=
  Claims.MatrixMultiplyWords ∧ Claims.MatrixMoveWords

/-- The life of a matrix entry from its start to its completion (R181 to R196). -/
def Obligations.MatrixEntries : Prop :=
  Claims.MatrixEntryStart ∧ Claims.MatrixCycles ∧ Claims.MatrixEntryComplete

/-- Byte order, and the stages of the issue of a memory word (R2, R236). -/
def Obligations.MemoryWordChecks : Prop :=
  Claims.ByteOrder ∧ Claims.AccessChecks

/-- LDS, STS, LDX and STX (R203, R206 to R211, R239). -/
def Obligations.LocalMemoryWords : Prop :=
  Claims.SharedMemoryWords ∧ Claims.ScratchpadWords

/-- The words of global memory at issue: what goes into flight, and that no byte changes (R214, R217 to R219, R249, R256 to
R262). -/
def Obligations.GlobalMemoryWords : Prop :=
  Claims.PutAndGetWords ∧ Claims.AtomicRequests ∧ Claims.MemoryWordsComplete

/-- What fences drain and when they complete; DWFENCE and METHREG and the home slices that answer them (R218, R251 to R254,
R386). -/
def Obligations.FenceWords : Prop :=
  Claims.FenceAndWaitWords ∧ Claims.FlushWord ∧ Claims.PersistFence ∧ Claims.SliceFences

/-- The checks of parameter words, and the words that read engine status or save and restore operations (R242, R370 to R389,
R420). -/
def Obligations.EngineStatusWords : Prop :=
  Claims.EngineParameters ∧ Claims.EngineReads ∧ Claims.EngineSummary ∧ Claims.SerialWords

/-- The steps of the copy engines, of fault records and of translation invalidation (R224, R227, R243 to R246, R310). -/
def Obligations.EngineChunks : Prop :=
  Claims.ChunkStart ∧ Claims.ChunkCommit ∧ Claims.EngineFaults ∧ Claims.Invalidation

/-- The steps of the hardware on groups, and the completion of words that waited. -/
def Obligations.GroupSteps : Prop :=
  Claims.GroupEvents ∧ Claims.BlockedWords ∧ Claims.FragmentExchange ∧ Claims.AcqGrants

/-- The steps of queues, grids and teams. -/
def Obligations.GridSteps : Prop :=
  Claims.GridRetires ∧ Claims.QueueDoorbells ∧ Claims.QueueRounds ∧ Claims.GridDispatches ∧ Claims.TeamPlacement ∧
  Claims.Preemption

/-- The steps of the links and of the nodes of the fabric. -/
def Obligations.FabricSteps : Prop :=
  Claims.FlitSending ∧ Claims.FlitReceiving ∧ Claims.LinkReports ∧ Claims.LinkKeys ∧ Claims.PortChoice ∧ Claims.PacketHops ∧
  Claims.PacketDelivers ∧ Claims.ThawToken ∧ Claims.MeltwaterLane ∧ Claims.Deflection

/-- The steps of start, of failure and of shard rebuild. -/
def Obligations.StartAndLoss : Prop :=
  Claims.SupplyLost ∧ Claims.StartSequence ∧ Claims.DomainJoined ∧ Claims.TierTrim ∧ Claims.PackageLoss ∧ Claims.FenceEnds ∧
  Claims.ShardRebuild

/-- The steps of the host and of memory words in flight. -/
def Obligations.HostSteps : Prop :=
  Claims.WindowWrites ∧ Claims.RegisterWrites ∧ Claims.Attestation ∧ Claims.ErrorsPoison ∧ Claims.ContextDestroyed ∧
  Claims.BufferAges ∧ Claims.PutLines ∧ Claims.PeerAccesses ∧ Claims.RepliesLand

/-- The steps of a home slice. -/
def Obligations.SliceSteps : Prop :=
  Claims.AtomicValues ∧ Claims.SliceAtomics ∧ Claims.DeterministicWindows ∧ Claims.MonitorSteps ∧ Claims.CombinerCalls ∧
  Claims.WaveCommits

/-- The steps of operations among the members of a group-table entry. -/
def Obligations.CollectiveSteps : Prop :=
  Claims.CollChunks ∧ Claims.CollectiveValues ∧ Claims.CollectiveRun ∧ Claims.GtSync ∧ Claims.RingReturns ∧
  Claims.RingChunks

/-- The steps of XCHG and RSTO in the fabric. -/
def Obligations.ExchangeSteps : Prop :=
  Claims.TokenDestination ∧ Claims.TokenAccepts ∧ Claims.ReplayFilter ∧ Claims.ReduceLines ∧ Claims.ReduceMerges ∧
  Claims.PlaneLost

/-- The steps of the storage-class tier. -/
def Obligations.TierSteps : Prop :=
  Claims.StripeRecovery ∧ Claims.MoraineDrains ∧ Claims.ParityUpdates ∧ Claims.DamagedLines ∧ Claims.StepsPass

/-- The steps of the update engine and of placement. -/
def Obligations.UpdateAndPlacement : Prop :=
  Claims.UpdateValues ∧ Claims.UpdateSteps ∧ Claims.FramesChosen ∧ Claims.PlacementSteps

end
end

