-- ==== Sys2Proof/Laws/Mem.lean ====
section
/-! SUPPORT. The memory of bytes: a read after a write, and that every operation on a memory keeps its canonical form. -/

namespace Sys2Proof.Machine

/-! ### The canonical form -/

/-- A canonical list has nothing at or below a bound under which it stands. -/
theorem Mem.read_below (m : Mem) (l a : Nat) (h : Mem.wfFrom (some l) m = true) (ha : a ≤ l) : Mem.read m a = 0 := by
  induction m generalizing l with
  | nil => rfl
  | cons c r ih =>
    obtain ⟨k, v⟩ := c
    simp only [Mem.wfFrom, Bool.and_eq_true, decide_eq_true_eq] at h
    have hk : (k == a) = false := by simp; omega
    simp only [Mem.read, hk]
    exact ih k h.2 (by omega)

/-- A canonical list stands under any lower bound. -/
theorem Mem.wfFrom_mono (m : Mem) (l l' : Nat) (hl : l' ≤ l) (h : Mem.wfFrom (some l) m = true) : Mem.wfFrom (some l') m = true := by
  cases m with
  | nil => rfl
  | cons c r =>
    obtain ⟨k, v⟩ := c
    simp only [Mem.wfFrom, Bool.and_eq_true, decide_eq_true_eq] at h ⊢
    exact ⟨⟨by omega, h.1.2⟩, h.2⟩

/-- A canonical list stands under no bound. -/
theorem Mem.wfFrom_none (m : Mem) (lo : Option Nat) (h : Mem.wfFrom lo m = true) : Mem.wfFrom none m = true := by
  cases m with
  | nil => rfl
  | cons c r =>
    obtain ⟨k, v⟩ := c
    simp only [Mem.wfFrom, Bool.and_eq_true] at h ⊢
    exact ⟨⟨trivial, h.1.2⟩, h.2⟩

/-- The lower bound admits an address. -/
def Mem.above : Option Nat → Nat → Prop
  | none, _ => True
  | some l, a => l < a

/-- A write keeps the form under any bound below its address. -/
theorem Mem.wfFrom_write (m : Mem) (lo : Option Nat) (a : Nat) (b : Byte) (h : Mem.wfFrom lo m = true)
    (ha : Mem.above lo a) : Mem.wfFrom lo (m.write a b) = true := by
  induction m generalizing lo with
  | nil =>
    unfold Mem.write
    split
    · rfl
    · rename_i hb
      cases lo with
      | none => simpa [Mem.wfFrom] using hb
      | some l => simp only [Mem.above] at ha; simpa [Mem.wfFrom, ha] using hb
  | cons c r ih =>
    obtain ⟨k, v⟩ := c
    simp only [Mem.wfFrom, Bool.and_eq_true] at h
    unfold Mem.write
    split
    · rename_i hk
      simp only [Mem.wfFrom, Bool.and_eq_true]
      exact ⟨h.1, ih (some k) h.2 (by simpa [Mem.above] using hk)⟩
    · rename_i hk
      split
      · rename_i he
        have he : k = a := by simpa using he
        subst he
        split
        · cases lo with
          | none => exact Mem.wfFrom_none r (some k) h.2
          | some l => exact Mem.wfFrom_mono r k l (by have := h.1.1; simp at this; omega) h.2
        · rename_i hb
          simp only [Mem.wfFrom, Bool.and_eq_true]
          exact ⟨⟨h.1.1, by simpa using hb⟩, h.2⟩
      · rename_i he
        have he : k ≠ a := by simpa using he
        split
        · simp only [Mem.wfFrom, Bool.and_eq_true]; exact h
        · rename_i hb
          simp only [Mem.wfFrom, Bool.and_eq_true, decide_eq_true_eq]
          refine ⟨⟨?_, by simpa using hb⟩, ⟨by omega, h.1.2⟩, h.2⟩
          cases lo with
          | none => rfl
          | some l => simpa [Mem.above] using ha

/-- The empty memory is canonical. -/
@[simp] theorem Mem.wf_nil : Mem.wf [] = true := rfl

/-- A write of one byte keeps the canonical form. -/
theorem Mem.wf_write (m : Mem) (a : Nat) (b : Byte) (h : m.wf = true) : (m.write a b).wf = true :=
  Mem.wfFrom_write m none a b h trivial

/-- A write of bytes keeps the canonical form. -/
theorem Mem.wf_writeL (m : Mem) (a : Nat) (bs : List Byte) (h : m.wf = true) : (m.writeL a bs).wf = true := by
  induction bs generalizing m a with
  | nil => exact h
  | cons b bs ih => exact ih _ _ (Mem.wf_write m a b h)

/-- Any sequence of writes keeps the canonical form. -/
theorem Mem.wf_foldl {α : Type} (l : List α) (f : Mem → α → Mem) (hf : ∀ m x, m.wf = true → (f m x).wf = true) (m : Mem)
    (h : m.wf = true) : (l.foldl f m).wf = true := by
  induction l generalizing m with
  | nil => exact h
  | cons x r ih => exact ih _ (hf m x h)

/-- A part of a canonical memory is canonical. -/
theorem Mem.wfFrom_filter (m : Mem) (lo : Option Nat) (p : Host.Cell → Bool) (h : Mem.wfFrom lo m = true) :
    Mem.wfFrom lo (m.filter p) = true := by
  induction m generalizing lo with
  | nil => exact h
  | cons c r ih =>
    obtain ⟨k, v⟩ := c
    simp only [Mem.wfFrom, Bool.and_eq_true] at h
    rw [List.filter_cons]
    split
    · simp only [Mem.wfFrom, Bool.and_eq_true]; exact ⟨h.1, ih _ h.2⟩
    · cases lo with
      | none => exact Mem.wfFrom_none _ _ (ih (some k) h.2)
      | some l => exact Mem.wfFrom_mono _ k l (by have := h.1.1; simp at this; omega) (ih _ h.2)

theorem Mem.wf_filter (m : Mem) (p : Host.Cell → Bool) (h : m.wf = true) : Mem.wf (m.filter p) = true :=
  Mem.wfFrom_filter m none p h

/-! ### Reads after writes -/

/-- The byte just written. -/
theorem Mem.read_write_same (m : Mem) (a : Nat) (b : Byte) (h : m.wf = true) : (m.write a b).read a = b := by
  suffices ∀ lo, Mem.wfFrom lo m = true → (m.write a b).read a = b from this none h
  clear h
  induction m with
  | nil =>
    intro lo _
    unfold Mem.write
    split
    · rename_i hb; simpa [Mem.read] using Eq.symm (by simpa using hb)
    · simp [Mem.read]
  | cons c r ih =>
    obtain ⟨k, v⟩ := c
    intro lo h
    simp only [Mem.wfFrom, Bool.and_eq_true] at h
    unfold Mem.write
    split
    · rename_i hk
      have : (k == a) = false := by simp; omega
      simp only [Mem.read, this]
      exact ih (some k) h.2
    · rename_i hk
      split
      · rename_i he
        have he : k = a := by simpa using he
        subst he
        split
        · rename_i hb
          have hb : b = 0 := by simpa using hb
          rw [hb]
          exact Mem.read_below r k k h.2 (by omega)
        · simp [Mem.read]
      · rename_i he
        have he : k ≠ a := by simpa using he
        split
        · rename_i hb
          have hb : b = 0 := by simpa using hb
          have : (k == a) = false := by simpa using he
          simp only [Mem.read, this]
          rw [hb]
          exact Mem.read_below r k a h.2 (by omega)
        · simp [Mem.read]

/-- Another byte is as it was. -/
theorem Mem.read_write_other (m : Mem) (a a' : Nat) (b : Byte) (h : a' ≠ a) : (m.write a b).read a' = m.read a' := by
  induction m with
  | nil =>
    unfold Mem.write
    split
    · rfl
    · have : (a == a') = false := by simp; omega
      simp [Mem.read, this]
  | cons c r ih =>
    obtain ⟨k, v⟩ := c
    unfold Mem.write
    split
    · simp only [Mem.read]; split <;> simp_all
    · split
      · rename_i he
        have he : k = a := by simpa using he
        subst he
        have : (k == a') = false := by simp; omega
        split
        · simp [Mem.read, this]
        · simp [Mem.read, this]
      · split
        · rfl
        · have : (a == a') = false := by simp; omega
          simp [Mem.read, this]

/-- A byte outside the bytes written is as it was. -/
theorem Mem.read_writeL_other (m : Mem) (a a' : Nat) (bs : List Byte) (h : a' < a ∨ a + bs.length ≤ a') :
    (m.writeL a bs).read a' = m.read a' := by
  induction bs generalizing m a with
  | nil => rfl
  | cons b bs ih =>
    simp only [List.length_cons] at h
    simp only [Mem.writeL]
    rw [ih _ _ (by omega), Mem.read_write_other _ _ _ _ (by omega)]

/-- A byte among those written. -/
theorem Mem.read_writeL_in (m : Mem) (a i : Nat) (bs : List Byte) (h : m.wf = true) (hi : i < bs.length) :
    (m.writeL a bs).read (a + i) = bs[i] := by
  induction bs generalizing m a i with
  | nil => simp at hi
  | cons b bs ih =>
    simp only [Mem.writeL]
    cases i with
    | zero =>
      rw [Mem.read_writeL_other _ _ _ _ (by omega)]
      simpa using Mem.read_write_same m a b h
    | succ i =>
      have := ih (m.write a b) (a + 1) i (Mem.wf_write m a b h) (by simpa using hi)
      rw [show a + (i + 1) = a + 1 + i by omega, this]
      rfl

/-- Two canonical memories that read alike everywhere are the same list. -/
theorem Mem.ext_of_wf (m n : Mem) (hm : m.wf = true) (hn : n.wf = true) (h : ∀ a, m.read a = n.read a) : m = n := by
  suffices ∀ lo lo', Mem.wfFrom lo m = true → Mem.wfFrom lo' n = true → m = n from this none none hm hn
  clear hm hn
  induction m generalizing n with
  | nil =>
    intro lo lo' _ hn
    cases n with
    | nil => rfl
    | cons c r =>
      obtain ⟨k, v⟩ := c
      have := h k
      simp only [Mem.wfFrom, Bool.and_eq_true] at hn
      simp [Mem.read] at this
      exact absurd this.symm (by simpa using hn.1.2)
  | cons c r ih =>
    obtain ⟨k, v⟩ := c
    intro lo lo' hm hn
    simp only [Mem.wfFrom, Bool.and_eq_true] at hm
    have hv : v ≠ 0 := by simpa using hm.1.2
    cases n with
    | nil => exact absurd (h k) (by simpa [Mem.read] using hv)
    | cons c' r' =>
      obtain ⟨k', v'⟩ := c'
      simp only [Mem.wfFrom, Bool.and_eq_true] at hn
      have hv' : v' ≠ 0 := by simpa using hn.1.2
      have hkk : k = k' := by
        rcases Nat.lt_trichotomy k k' with hlt | heq | hgt
        · have h1 := h k
          have : (k' == k) = false := by simp; omega
          simp only [Mem.read, this, beq_self_eq_true, if_true] at h1
          rw [Mem.read_below r' k' k hn.2 (by omega)] at h1
          exact absurd h1 hv
        · exact heq
        · have h1 := h k'
          have : (k == k') = false := by simp; omega
          simp only [Mem.read, this, beq_self_eq_true, if_true] at h1
          rw [Mem.read_below r k k' hm.2 (by omega)] at h1
          exact absurd h1.symm hv'
      subst hkk
      have hvv : v = v' := by simpa [Mem.read] using h k
      subst hvv
      congr 1
      apply ih r' _ (some k) (some k) hm.2 hn.2
      intro a
      by_cases ha : a ≤ k
      · rw [Mem.read_below r k a hm.2 ha, Mem.read_below r' k a hn.2 ha]
      · have h1 := h a
        have : (k == a) = false := by simp; omega
        simpa [Mem.read, this] using h1

/-- The canonical form, in terms of the list. -/
theorem Mem.wfFrom_iff (m : Mem) (lo : Option Nat) :
    Mem.wfFrom lo m = true ↔ (m.Pairwise fun x y => x.1 < y.1) ∧ (∀ c ∈ m, c.2 ≠ 0) ∧ ∀ c ∈ m, Mem.above lo c.1 := by
  induction m generalizing lo with
  | nil => simp [Mem.wfFrom]
  | cons c r ih =>
    obtain ⟨k, v⟩ := c
    simp only [Mem.wfFrom, Bool.and_eq_true, ih, List.pairwise_cons, List.mem_cons, forall_eq_or_imp, bne_iff_ne, ne_eq]
    have hm : (match lo with | none => true | some l => (decide (l < k) : Bool)) = true ↔ Mem.above lo k := by
      cases lo <;> simp [Mem.above]
    have hlo : ∀ h : Mem.above lo k, (∀ c ∈ r, Mem.above (some k) c.1) → ∀ c ∈ r, Mem.above lo c.1 := by
      intro h hr c hc
      have := hr c hc
      cases lo with
      | none => trivial
      | some l => simp only [Mem.above] at *; omega
    constructor
    · rintro ⟨⟨h1, h2⟩, h3, h4, h5⟩
      exact ⟨⟨h5, h3⟩, ⟨h2, h4⟩, hm.1 h1, hlo (hm.1 h1) h5⟩
    · rintro ⟨⟨h1, h2⟩, ⟨h3, h4⟩, h5, h6⟩
      exact ⟨⟨hm.2 h5, h3⟩, h2, h4, h1⟩

theorem Mem.wf_iff (m : Mem) : m.wf = true ↔ (m.Pairwise fun x y => x.1 < y.1) ∧ ∀ c ∈ m, c.2 ≠ 0 := by
  unfold Mem.wf
  rw [Mem.wfFrom_iff]
  simp [Mem.above]

/-! ### Memories with poison marks -/

@[simp] theorem Ram.write_bytes (r : Ram) (gran a : Nat) (bs : List Byte) : (r.write gran a bs).bytes = r.bytes.writeL a bs := rfl

@[simp] theorem Ram.mark_bytes (r : Ram) (gran a : Nat) : (r.mark gran a).bytes = r.bytes := by unfold Ram.mark; split <;> rfl

/-- A write with marks writes the bytes. -/
@[simp] theorem Ram.writeP_bytes (r : Ram) (a : Nat) (bs : List PByte) : (r.writeP a bs).bytes = r.bytes.writeL a (bs.map (·.1)) := by
  have key : ∀ (l : List Nat) (r : Ram), (l.foldl (fun (r : Ram) i => if (bs.getD i (0, false)).2 then r.mark 4 (a + i) else r) r).bytes = r.bytes := by
    intro l
    induction l with
    | nil => intro r; rfl
    | cons i l ih =>
      intro r
      simp only [List.foldl_cons]
      rw [ih]
      split <;> simp
  unfold Ram.writeP
  simp only [key, Ram.write_bytes]

theorem Ram.wf_write (r : Ram) (gran a : Nat) (bs : List Byte) (h : r.bytes.wf = true) : (r.write gran a bs).bytes.wf = true :=
  Mem.wf_writeL _ _ _ h

theorem Ram.wf_mark (r : Ram) (gran a : Nat) (h : r.bytes.wf = true) : (r.mark gran a).bytes.wf = true := by simpa using h

theorem Ram.wf_writeP (r : Ram) (a : Nat) (bs : List PByte) (h : r.bytes.wf = true) : (r.writeP a bs).bytes.wf = true := by
  simpa using Mem.wf_writeL _ _ _ h

/-- A memory cut at an address (R178) is canonical. -/
theorem Ram.wf_below (r : Ram) (a : Nat) (h : r.bytes.wf = true) : (r.below a).bytes.wf = true := Mem.wf_filter _ _ h

/-- Bytes of one memory put over a range of another (R345). -/
theorem wf_copyRange (dst src : Ram) (to_ from_ n : Nat) (hd : dst.bytes.wf = true) (hs : src.bytes.wf = true) :
    (copyRange dst src to_ from_ n).bytes.wf = true := by
  rw [Mem.wf_iff] at *
  simp only [copyRange]
  constructor
  · rw [List.pairwise_append, List.pairwise_append]
    refine ⟨⟨hd.1.filter _, ?_, ?_⟩, hd.1.filter _, ?_⟩
    · rw [List.pairwise_map]
      refine (hs.1.filter _).imp_of_mem ?_
      intro a b ha hb hab
      simp only [List.mem_filter, Bool.and_eq_true, decide_eq_true_eq] at ha hb
      simp only
      omega
    · intro a ha b hb
      simp only [List.mem_filter, List.mem_map, Bool.and_eq_true, decide_eq_true_eq] at ha hb
      obtain ⟨c, hc, rfl⟩ := hb
      simp only
      omega
    · intro a ha b hb
      simp only [List.mem_append, List.mem_filter, List.mem_map, Bool.and_eq_true, decide_eq_true_eq] at ha hb
      rcases ha with ha | ⟨c, hc, rfl⟩
      · omega
      · simp only; omega
  · intro c hc
    simp only [List.mem_append, List.mem_filter, List.mem_map] at hc
    rcases hc with (⟨h, _⟩ | ⟨d, ⟨h, _⟩, rfl⟩) | ⟨h, _⟩
    · exact hd.2 c h
    · exact hs.2 d h
    · exact hd.2 c h

/-- A parity delta added (R338). -/
theorem wf_applyDelta (m : ParityMsg) (p : Mem) (h : p.wf = true) : (applyDelta m p).wf = true := by
  unfold applyDelta
  exact Mem.wf_foldl _ _ (fun m x hm => Mem.wf_write _ _ _ hm) _ h

end Sys2Proof.Machine
end

