-- ==== Sys2Proof/Laws/State.lean ====
section
/-! SUPPORT. What each update of the state leaves alone, and what the lookups find after it. -/

namespace Sys2Proof.Machine

/-! ### State.modGroup -/

@[simp] theorem State.modGroup_teams (s : State) (gid : Nat) (f : Group → Group) : (s.modGroup gid f).teams = s.teams := rfl
@[simp] theorem State.modGroup_cores (s : State) (gid : Nat) (f : Group → Group) : (s.modGroup gid f).cores = s.cores := rfl
@[simp] theorem State.modGroup_grids (s : State) (gid : Nat) (f : Group → Group) : (s.modGroup gid f).grids = s.grids := rfl
@[simp] theorem State.modGroup_segs (s : State) (gid : Nat) (f : Group → Group) : (s.modGroup gid f).segs = s.segs := rfl
@[simp] theorem State.modGroup_ctxs (s : State) (gid : Nat) (f : Group → Group) : (s.modGroup gid f).ctxs = s.ctxs := rfl
@[simp] theorem State.modGroup_ops (s : State) (gid : Nat) (f : Group → Group) : (s.modGroup gid f).ops = s.ops := rfl
@[simp] theorem State.modGroup_sliceWaits (s : State) (gid : Nat) (f : Group → Group) : (s.modGroup gid f).sliceWaits = s.sliceWaits := rfl
@[simp] theorem State.modGroup_pkgs (s : State) (gid : Nat) (f : Group → Group) : (s.modGroup gid f).pkgs = s.pkgs := rfl
@[simp] theorem State.modGroup_fab (s : State) (gid : Nat) (f : Group → Group) : (s.modGroup gid f).fab = s.fab := rfl
@[simp] theorem State.modGroup_host (s : State) (gid : Nat) (f : Group → Group) : (s.modGroup gid f).host = s.host := rfl
@[simp] theorem State.modGroup_cyc (s : State) (gid : Nat) (f : Group → Group) : (s.modGroup gid f).cyc = s.cyc := rfl
@[simp] theorem State.modGroup_dt (s : State) (gid : Nat) (f : Group → Group) : (s.modGroup gid f).dt = s.dt := rfl
@[simp] theorem State.modGroup_agenda (s : State) (gid : Nat) (f : Group → Group) : (s.modGroup gid f).agenda = s.agenda := rfl
@[simp] theorem State.modGroup_who (s : State) (gid : Nat) (f : Group → Group) : (s.modGroup gid f).who = s.who := rfl
@[simp] theorem State.modGroup_subj (s : State) (gid : Nat) (f : Group → Group) : (s.modGroup gid f).subj = s.subj := rfl
@[simp] theorem State.modGroup_fresh (s : State) (gid : Nat) (f : Group → Group) : (s.modGroup gid f).fresh = s.fresh := rfl

/-! ### State.modTeam -/

@[simp] theorem State.modTeam_groups (s : State) (tid : Nat) (f : Team → Team) : (s.modTeam tid f).groups = s.groups := rfl
@[simp] theorem State.modTeam_cores (s : State) (tid : Nat) (f : Team → Team) : (s.modTeam tid f).cores = s.cores := rfl
@[simp] theorem State.modTeam_grids (s : State) (tid : Nat) (f : Team → Team) : (s.modTeam tid f).grids = s.grids := rfl
@[simp] theorem State.modTeam_segs (s : State) (tid : Nat) (f : Team → Team) : (s.modTeam tid f).segs = s.segs := rfl
@[simp] theorem State.modTeam_ctxs (s : State) (tid : Nat) (f : Team → Team) : (s.modTeam tid f).ctxs = s.ctxs := rfl
@[simp] theorem State.modTeam_ops (s : State) (tid : Nat) (f : Team → Team) : (s.modTeam tid f).ops = s.ops := rfl
@[simp] theorem State.modTeam_sliceWaits (s : State) (tid : Nat) (f : Team → Team) : (s.modTeam tid f).sliceWaits = s.sliceWaits := rfl
@[simp] theorem State.modTeam_pkgs (s : State) (tid : Nat) (f : Team → Team) : (s.modTeam tid f).pkgs = s.pkgs := rfl
@[simp] theorem State.modTeam_fab (s : State) (tid : Nat) (f : Team → Team) : (s.modTeam tid f).fab = s.fab := rfl
@[simp] theorem State.modTeam_host (s : State) (tid : Nat) (f : Team → Team) : (s.modTeam tid f).host = s.host := rfl
@[simp] theorem State.modTeam_cyc (s : State) (tid : Nat) (f : Team → Team) : (s.modTeam tid f).cyc = s.cyc := rfl
@[simp] theorem State.modTeam_dt (s : State) (tid : Nat) (f : Team → Team) : (s.modTeam tid f).dt = s.dt := rfl
@[simp] theorem State.modTeam_agenda (s : State) (tid : Nat) (f : Team → Team) : (s.modTeam tid f).agenda = s.agenda := rfl
@[simp] theorem State.modTeam_who (s : State) (tid : Nat) (f : Team → Team) : (s.modTeam tid f).who = s.who := rfl
@[simp] theorem State.modTeam_subj (s : State) (tid : Nat) (f : Team → Team) : (s.modTeam tid f).subj = s.subj := rfl
@[simp] theorem State.modTeam_fresh (s : State) (tid : Nat) (f : Team → Team) : (s.modTeam tid f).fresh = s.fresh := rfl

/-! ### State.modGrid -/

@[simp] theorem State.modGrid_groups (s : State) (id : Nat) (f : Grid → Grid) : (s.modGrid id f).groups = s.groups := rfl
@[simp] theorem State.modGrid_teams (s : State) (id : Nat) (f : Grid → Grid) : (s.modGrid id f).teams = s.teams := rfl
@[simp] theorem State.modGrid_cores (s : State) (id : Nat) (f : Grid → Grid) : (s.modGrid id f).cores = s.cores := rfl
@[simp] theorem State.modGrid_segs (s : State) (id : Nat) (f : Grid → Grid) : (s.modGrid id f).segs = s.segs := rfl
@[simp] theorem State.modGrid_ctxs (s : State) (id : Nat) (f : Grid → Grid) : (s.modGrid id f).ctxs = s.ctxs := rfl
@[simp] theorem State.modGrid_ops (s : State) (id : Nat) (f : Grid → Grid) : (s.modGrid id f).ops = s.ops := rfl
@[simp] theorem State.modGrid_sliceWaits (s : State) (id : Nat) (f : Grid → Grid) : (s.modGrid id f).sliceWaits = s.sliceWaits := rfl
@[simp] theorem State.modGrid_pkgs (s : State) (id : Nat) (f : Grid → Grid) : (s.modGrid id f).pkgs = s.pkgs := rfl
@[simp] theorem State.modGrid_fab (s : State) (id : Nat) (f : Grid → Grid) : (s.modGrid id f).fab = s.fab := rfl
@[simp] theorem State.modGrid_host (s : State) (id : Nat) (f : Grid → Grid) : (s.modGrid id f).host = s.host := rfl
@[simp] theorem State.modGrid_cyc (s : State) (id : Nat) (f : Grid → Grid) : (s.modGrid id f).cyc = s.cyc := rfl
@[simp] theorem State.modGrid_dt (s : State) (id : Nat) (f : Grid → Grid) : (s.modGrid id f).dt = s.dt := rfl
@[simp] theorem State.modGrid_agenda (s : State) (id : Nat) (f : Grid → Grid) : (s.modGrid id f).agenda = s.agenda := rfl
@[simp] theorem State.modGrid_who (s : State) (id : Nat) (f : Grid → Grid) : (s.modGrid id f).who = s.who := rfl
@[simp] theorem State.modGrid_subj (s : State) (id : Nat) (f : Grid → Grid) : (s.modGrid id f).subj = s.subj := rfl
@[simp] theorem State.modGrid_fresh (s : State) (id : Nat) (f : Grid → Grid) : (s.modGrid id f).fresh = s.fresh := rfl

/-! ### State.modOp -/

@[simp] theorem State.modOp_groups (s : State) (id : Nat) (f : Op → Op) : (s.modOp id f).groups = s.groups := rfl
@[simp] theorem State.modOp_teams (s : State) (id : Nat) (f : Op → Op) : (s.modOp id f).teams = s.teams := rfl
@[simp] theorem State.modOp_cores (s : State) (id : Nat) (f : Op → Op) : (s.modOp id f).cores = s.cores := rfl
@[simp] theorem State.modOp_grids (s : State) (id : Nat) (f : Op → Op) : (s.modOp id f).grids = s.grids := rfl
@[simp] theorem State.modOp_segs (s : State) (id : Nat) (f : Op → Op) : (s.modOp id f).segs = s.segs := rfl
@[simp] theorem State.modOp_ctxs (s : State) (id : Nat) (f : Op → Op) : (s.modOp id f).ctxs = s.ctxs := rfl
@[simp] theorem State.modOp_sliceWaits (s : State) (id : Nat) (f : Op → Op) : (s.modOp id f).sliceWaits = s.sliceWaits := rfl
@[simp] theorem State.modOp_pkgs (s : State) (id : Nat) (f : Op → Op) : (s.modOp id f).pkgs = s.pkgs := rfl
@[simp] theorem State.modOp_fab (s : State) (id : Nat) (f : Op → Op) : (s.modOp id f).fab = s.fab := rfl
@[simp] theorem State.modOp_host (s : State) (id : Nat) (f : Op → Op) : (s.modOp id f).host = s.host := rfl
@[simp] theorem State.modOp_cyc (s : State) (id : Nat) (f : Op → Op) : (s.modOp id f).cyc = s.cyc := rfl
@[simp] theorem State.modOp_dt (s : State) (id : Nat) (f : Op → Op) : (s.modOp id f).dt = s.dt := rfl
@[simp] theorem State.modOp_agenda (s : State) (id : Nat) (f : Op → Op) : (s.modOp id f).agenda = s.agenda := rfl
@[simp] theorem State.modOp_who (s : State) (id : Nat) (f : Op → Op) : (s.modOp id f).who = s.who := rfl
@[simp] theorem State.modOp_subj (s : State) (id : Nat) (f : Op → Op) : (s.modOp id f).subj = s.subj := rfl
@[simp] theorem State.modOp_fresh (s : State) (id : Nat) (f : Op → Op) : (s.modOp id f).fresh = s.fresh := rfl

/-! ### State.modPkg -/

@[simp] theorem State.modPkg_groups (s : State) (rank : Nat) (f : Pkg → Pkg) : (s.modPkg rank f).groups = s.groups := rfl
@[simp] theorem State.modPkg_teams (s : State) (rank : Nat) (f : Pkg → Pkg) : (s.modPkg rank f).teams = s.teams := rfl
@[simp] theorem State.modPkg_cores (s : State) (rank : Nat) (f : Pkg → Pkg) : (s.modPkg rank f).cores = s.cores := rfl
@[simp] theorem State.modPkg_grids (s : State) (rank : Nat) (f : Pkg → Pkg) : (s.modPkg rank f).grids = s.grids := rfl
@[simp] theorem State.modPkg_segs (s : State) (rank : Nat) (f : Pkg → Pkg) : (s.modPkg rank f).segs = s.segs := rfl
@[simp] theorem State.modPkg_ctxs (s : State) (rank : Nat) (f : Pkg → Pkg) : (s.modPkg rank f).ctxs = s.ctxs := rfl
@[simp] theorem State.modPkg_ops (s : State) (rank : Nat) (f : Pkg → Pkg) : (s.modPkg rank f).ops = s.ops := rfl
@[simp] theorem State.modPkg_sliceWaits (s : State) (rank : Nat) (f : Pkg → Pkg) : (s.modPkg rank f).sliceWaits = s.sliceWaits := rfl
@[simp] theorem State.modPkg_fab (s : State) (rank : Nat) (f : Pkg → Pkg) : (s.modPkg rank f).fab = s.fab := rfl
@[simp] theorem State.modPkg_host (s : State) (rank : Nat) (f : Pkg → Pkg) : (s.modPkg rank f).host = s.host := rfl
@[simp] theorem State.modPkg_cyc (s : State) (rank : Nat) (f : Pkg → Pkg) : (s.modPkg rank f).cyc = s.cyc := rfl
@[simp] theorem State.modPkg_dt (s : State) (rank : Nat) (f : Pkg → Pkg) : (s.modPkg rank f).dt = s.dt := rfl
@[simp] theorem State.modPkg_agenda (s : State) (rank : Nat) (f : Pkg → Pkg) : (s.modPkg rank f).agenda = s.agenda := rfl
@[simp] theorem State.modPkg_who (s : State) (rank : Nat) (f : Pkg → Pkg) : (s.modPkg rank f).who = s.who := rfl
@[simp] theorem State.modPkg_subj (s : State) (rank : Nat) (f : Pkg → Pkg) : (s.modPkg rank f).subj = s.subj := rfl
@[simp] theorem State.modPkg_fresh (s : State) (rank : Nat) (f : Pkg → Pkg) : (s.modPkg rank f).fresh = s.fresh := rfl

/-! ### State.modCtx -/

@[simp] theorem State.modCtx_groups (s : State) (rank id : Nat) (f : Ctx → Ctx) : (s.modCtx rank id f).groups = s.groups := rfl
@[simp] theorem State.modCtx_teams (s : State) (rank id : Nat) (f : Ctx → Ctx) : (s.modCtx rank id f).teams = s.teams := rfl
@[simp] theorem State.modCtx_cores (s : State) (rank id : Nat) (f : Ctx → Ctx) : (s.modCtx rank id f).cores = s.cores := rfl
@[simp] theorem State.modCtx_grids (s : State) (rank id : Nat) (f : Ctx → Ctx) : (s.modCtx rank id f).grids = s.grids := rfl
@[simp] theorem State.modCtx_segs (s : State) (rank id : Nat) (f : Ctx → Ctx) : (s.modCtx rank id f).segs = s.segs := rfl
@[simp] theorem State.modCtx_ops (s : State) (rank id : Nat) (f : Ctx → Ctx) : (s.modCtx rank id f).ops = s.ops := rfl
@[simp] theorem State.modCtx_sliceWaits (s : State) (rank id : Nat) (f : Ctx → Ctx) : (s.modCtx rank id f).sliceWaits = s.sliceWaits := rfl
@[simp] theorem State.modCtx_pkgs (s : State) (rank id : Nat) (f : Ctx → Ctx) : (s.modCtx rank id f).pkgs = s.pkgs := rfl
@[simp] theorem State.modCtx_fab (s : State) (rank id : Nat) (f : Ctx → Ctx) : (s.modCtx rank id f).fab = s.fab := rfl
@[simp] theorem State.modCtx_host (s : State) (rank id : Nat) (f : Ctx → Ctx) : (s.modCtx rank id f).host = s.host := rfl
@[simp] theorem State.modCtx_cyc (s : State) (rank id : Nat) (f : Ctx → Ctx) : (s.modCtx rank id f).cyc = s.cyc := rfl
@[simp] theorem State.modCtx_dt (s : State) (rank id : Nat) (f : Ctx → Ctx) : (s.modCtx rank id f).dt = s.dt := rfl
@[simp] theorem State.modCtx_agenda (s : State) (rank id : Nat) (f : Ctx → Ctx) : (s.modCtx rank id f).agenda = s.agenda := rfl
@[simp] theorem State.modCtx_who (s : State) (rank id : Nat) (f : Ctx → Ctx) : (s.modCtx rank id f).who = s.who := rfl
@[simp] theorem State.modCtx_subj (s : State) (rank id : Nat) (f : Ctx → Ctx) : (s.modCtx rank id f).subj = s.subj := rfl
@[simp] theorem State.modCtx_fresh (s : State) (rank id : Nat) (f : Ctx → Ctx) : (s.modCtx rank id f).fresh = s.fresh := rfl

/-! ### State.modSlice -/

@[simp] theorem State.modSlice_groups (s : State) (sl : SliceId) (f : Slice → Slice) : (s.modSlice sl f).groups = s.groups := rfl
@[simp] theorem State.modSlice_teams (s : State) (sl : SliceId) (f : Slice → Slice) : (s.modSlice sl f).teams = s.teams := rfl
@[simp] theorem State.modSlice_cores (s : State) (sl : SliceId) (f : Slice → Slice) : (s.modSlice sl f).cores = s.cores := rfl
@[simp] theorem State.modSlice_grids (s : State) (sl : SliceId) (f : Slice → Slice) : (s.modSlice sl f).grids = s.grids := rfl
@[simp] theorem State.modSlice_segs (s : State) (sl : SliceId) (f : Slice → Slice) : (s.modSlice sl f).segs = s.segs := rfl
@[simp] theorem State.modSlice_ctxs (s : State) (sl : SliceId) (f : Slice → Slice) : (s.modSlice sl f).ctxs = s.ctxs := rfl
@[simp] theorem State.modSlice_ops (s : State) (sl : SliceId) (f : Slice → Slice) : (s.modSlice sl f).ops = s.ops := rfl
@[simp] theorem State.modSlice_sliceWaits (s : State) (sl : SliceId) (f : Slice → Slice) : (s.modSlice sl f).sliceWaits = s.sliceWaits := rfl
@[simp] theorem State.modSlice_fab (s : State) (sl : SliceId) (f : Slice → Slice) : (s.modSlice sl f).fab = s.fab := rfl
@[simp] theorem State.modSlice_host (s : State) (sl : SliceId) (f : Slice → Slice) : (s.modSlice sl f).host = s.host := rfl
@[simp] theorem State.modSlice_cyc (s : State) (sl : SliceId) (f : Slice → Slice) : (s.modSlice sl f).cyc = s.cyc := rfl
@[simp] theorem State.modSlice_dt (s : State) (sl : SliceId) (f : Slice → Slice) : (s.modSlice sl f).dt = s.dt := rfl
@[simp] theorem State.modSlice_agenda (s : State) (sl : SliceId) (f : Slice → Slice) : (s.modSlice sl f).agenda = s.agenda := rfl
@[simp] theorem State.modSlice_who (s : State) (sl : SliceId) (f : Slice → Slice) : (s.modSlice sl f).who = s.who := rfl
@[simp] theorem State.modSlice_subj (s : State) (sl : SliceId) (f : Slice → Slice) : (s.modSlice sl f).subj = s.subj := rfl
@[simp] theorem State.modSlice_fresh (s : State) (sl : SliceId) (f : Slice → Slice) : (s.modSlice sl f).fresh = s.fresh := rfl

/-! ### State.modNode -/

@[simp] theorem State.modNode_groups (s : State) (n : NodeId) (f : Node → Node) : (s.modNode n f).groups = s.groups := rfl
@[simp] theorem State.modNode_teams (s : State) (n : NodeId) (f : Node → Node) : (s.modNode n f).teams = s.teams := rfl
@[simp] theorem State.modNode_cores (s : State) (n : NodeId) (f : Node → Node) : (s.modNode n f).cores = s.cores := rfl
@[simp] theorem State.modNode_grids (s : State) (n : NodeId) (f : Node → Node) : (s.modNode n f).grids = s.grids := rfl
@[simp] theorem State.modNode_segs (s : State) (n : NodeId) (f : Node → Node) : (s.modNode n f).segs = s.segs := rfl
@[simp] theorem State.modNode_ctxs (s : State) (n : NodeId) (f : Node → Node) : (s.modNode n f).ctxs = s.ctxs := rfl
@[simp] theorem State.modNode_ops (s : State) (n : NodeId) (f : Node → Node) : (s.modNode n f).ops = s.ops := rfl
@[simp] theorem State.modNode_sliceWaits (s : State) (n : NodeId) (f : Node → Node) : (s.modNode n f).sliceWaits = s.sliceWaits := rfl
@[simp] theorem State.modNode_pkgs (s : State) (n : NodeId) (f : Node → Node) : (s.modNode n f).pkgs = s.pkgs := rfl
@[simp] theorem State.modNode_host (s : State) (n : NodeId) (f : Node → Node) : (s.modNode n f).host = s.host := rfl
@[simp] theorem State.modNode_cyc (s : State) (n : NodeId) (f : Node → Node) : (s.modNode n f).cyc = s.cyc := rfl
@[simp] theorem State.modNode_dt (s : State) (n : NodeId) (f : Node → Node) : (s.modNode n f).dt = s.dt := rfl
@[simp] theorem State.modNode_agenda (s : State) (n : NodeId) (f : Node → Node) : (s.modNode n f).agenda = s.agenda := rfl
@[simp] theorem State.modNode_who (s : State) (n : NodeId) (f : Node → Node) : (s.modNode n f).who = s.who := rfl
@[simp] theorem State.modNode_subj (s : State) (n : NodeId) (f : Node → Node) : (s.modNode n f).subj = s.subj := rfl
@[simp] theorem State.modNode_fresh (s : State) (n : NodeId) (f : Node → Node) : (s.modNode n f).fresh = s.fresh := rfl

/-! ### State.modPacket -/

@[simp] theorem State.modPacket_groups (s : State) (id : Nat) (f : Packet → Packet) : (s.modPacket id f).groups = s.groups := rfl
@[simp] theorem State.modPacket_teams (s : State) (id : Nat) (f : Packet → Packet) : (s.modPacket id f).teams = s.teams := rfl
@[simp] theorem State.modPacket_cores (s : State) (id : Nat) (f : Packet → Packet) : (s.modPacket id f).cores = s.cores := rfl
@[simp] theorem State.modPacket_grids (s : State) (id : Nat) (f : Packet → Packet) : (s.modPacket id f).grids = s.grids := rfl
@[simp] theorem State.modPacket_segs (s : State) (id : Nat) (f : Packet → Packet) : (s.modPacket id f).segs = s.segs := rfl
@[simp] theorem State.modPacket_ctxs (s : State) (id : Nat) (f : Packet → Packet) : (s.modPacket id f).ctxs = s.ctxs := rfl
@[simp] theorem State.modPacket_ops (s : State) (id : Nat) (f : Packet → Packet) : (s.modPacket id f).ops = s.ops := rfl
@[simp] theorem State.modPacket_sliceWaits (s : State) (id : Nat) (f : Packet → Packet) : (s.modPacket id f).sliceWaits = s.sliceWaits := rfl
@[simp] theorem State.modPacket_pkgs (s : State) (id : Nat) (f : Packet → Packet) : (s.modPacket id f).pkgs = s.pkgs := rfl
@[simp] theorem State.modPacket_host (s : State) (id : Nat) (f : Packet → Packet) : (s.modPacket id f).host = s.host := rfl
@[simp] theorem State.modPacket_cyc (s : State) (id : Nat) (f : Packet → Packet) : (s.modPacket id f).cyc = s.cyc := rfl
@[simp] theorem State.modPacket_dt (s : State) (id : Nat) (f : Packet → Packet) : (s.modPacket id f).dt = s.dt := rfl
@[simp] theorem State.modPacket_agenda (s : State) (id : Nat) (f : Packet → Packet) : (s.modPacket id f).agenda = s.agenda := rfl
@[simp] theorem State.modPacket_who (s : State) (id : Nat) (f : Packet → Packet) : (s.modPacket id f).who = s.who := rfl
@[simp] theorem State.modPacket_subj (s : State) (id : Nat) (f : Packet → Packet) : (s.modPacket id f).subj = s.subj := rfl
@[simp] theorem State.modPacket_fresh (s : State) (id : Nat) (f : Packet → Packet) : (s.modPacket id f).fresh = s.fresh := rfl

/-! ### State.owe -/

@[simp] theorem State.owe_groups (s : State) (ms : List Move) : (s.owe ms).groups = s.groups := rfl
@[simp] theorem State.owe_teams (s : State) (ms : List Move) : (s.owe ms).teams = s.teams := rfl
@[simp] theorem State.owe_cores (s : State) (ms : List Move) : (s.owe ms).cores = s.cores := rfl
@[simp] theorem State.owe_grids (s : State) (ms : List Move) : (s.owe ms).grids = s.grids := rfl
@[simp] theorem State.owe_segs (s : State) (ms : List Move) : (s.owe ms).segs = s.segs := rfl
@[simp] theorem State.owe_ctxs (s : State) (ms : List Move) : (s.owe ms).ctxs = s.ctxs := rfl
@[simp] theorem State.owe_ops (s : State) (ms : List Move) : (s.owe ms).ops = s.ops := rfl
@[simp] theorem State.owe_sliceWaits (s : State) (ms : List Move) : (s.owe ms).sliceWaits = s.sliceWaits := rfl
@[simp] theorem State.owe_pkgs (s : State) (ms : List Move) : (s.owe ms).pkgs = s.pkgs := rfl
@[simp] theorem State.owe_fab (s : State) (ms : List Move) : (s.owe ms).fab = s.fab := rfl
@[simp] theorem State.owe_host (s : State) (ms : List Move) : (s.owe ms).host = s.host := rfl
@[simp] theorem State.owe_cyc (s : State) (ms : List Move) : (s.owe ms).cyc = s.cyc := rfl
@[simp] theorem State.owe_dt (s : State) (ms : List Move) : (s.owe ms).dt = s.dt := rfl
@[simp] theorem State.owe_who (s : State) (ms : List Move) : (s.owe ms).who = s.who := rfl
@[simp] theorem State.owe_subj (s : State) (ms : List Move) : (s.owe ms).subj = s.subj := rfl
@[simp] theorem State.owe_fresh (s : State) (ms : List Move) : (s.owe ms).fresh = s.fresh := rfl

/-! ### State.modCore -/

@[simp] theorem State.modCore_groups (s : State) (id : CoreId) (f : Core → Core) : (s.modCore id f).groups = s.groups := by unfold State.modCore; split <;> rfl
@[simp] theorem State.modCore_teams (s : State) (id : CoreId) (f : Core → Core) : (s.modCore id f).teams = s.teams := by unfold State.modCore; split <;> rfl
@[simp] theorem State.modCore_grids (s : State) (id : CoreId) (f : Core → Core) : (s.modCore id f).grids = s.grids := by unfold State.modCore; split <;> rfl
@[simp] theorem State.modCore_segs (s : State) (id : CoreId) (f : Core → Core) : (s.modCore id f).segs = s.segs := by unfold State.modCore; split <;> rfl
@[simp] theorem State.modCore_ctxs (s : State) (id : CoreId) (f : Core → Core) : (s.modCore id f).ctxs = s.ctxs := by unfold State.modCore; split <;> rfl
@[simp] theorem State.modCore_ops (s : State) (id : CoreId) (f : Core → Core) : (s.modCore id f).ops = s.ops := by unfold State.modCore; split <;> rfl
@[simp] theorem State.modCore_sliceWaits (s : State) (id : CoreId) (f : Core → Core) : (s.modCore id f).sliceWaits = s.sliceWaits := by unfold State.modCore; split <;> rfl
@[simp] theorem State.modCore_pkgs (s : State) (id : CoreId) (f : Core → Core) : (s.modCore id f).pkgs = s.pkgs := by unfold State.modCore; split <;> rfl
@[simp] theorem State.modCore_fab (s : State) (id : CoreId) (f : Core → Core) : (s.modCore id f).fab = s.fab := by unfold State.modCore; split <;> rfl
@[simp] theorem State.modCore_host (s : State) (id : CoreId) (f : Core → Core) : (s.modCore id f).host = s.host := by unfold State.modCore; split <;> rfl
@[simp] theorem State.modCore_cyc (s : State) (id : CoreId) (f : Core → Core) : (s.modCore id f).cyc = s.cyc := by unfold State.modCore; split <;> rfl
@[simp] theorem State.modCore_dt (s : State) (id : CoreId) (f : Core → Core) : (s.modCore id f).dt = s.dt := by unfold State.modCore; split <;> rfl
@[simp] theorem State.modCore_agenda (s : State) (id : CoreId) (f : Core → Core) : (s.modCore id f).agenda = s.agenda := by unfold State.modCore; split <;> rfl
@[simp] theorem State.modCore_who (s : State) (id : CoreId) (f : Core → Core) : (s.modCore id f).who = s.who := by unfold State.modCore; split <;> rfl
@[simp] theorem State.modCore_subj (s : State) (id : CoreId) (f : Core → Core) : (s.modCore id f).subj = s.subj := by unfold State.modCore; split <;> rfl
@[simp] theorem State.modCore_fresh (s : State) (id : CoreId) (f : Core → Core) : (s.modCore id f).fresh = s.fresh := by unfold State.modCore; split <;> rfl

/-! ### gensym and the free values -/

@[simp] theorem State.gensym_groups (s : State) : s.gensym.2.groups = s.groups := rfl
@[simp] theorem State.gensym_teams (s : State) : s.gensym.2.teams = s.teams := rfl
@[simp] theorem State.gensym_cores (s : State) : s.gensym.2.cores = s.cores := rfl
@[simp] theorem State.gensym_grids (s : State) : s.gensym.2.grids = s.grids := rfl
@[simp] theorem State.gensym_segs (s : State) : s.gensym.2.segs = s.segs := rfl
@[simp] theorem State.gensym_ctxs (s : State) : s.gensym.2.ctxs = s.ctxs := rfl
@[simp] theorem State.gensym_ops (s : State) : s.gensym.2.ops = s.ops := rfl
@[simp] theorem State.gensym_sliceWaits (s : State) : s.gensym.2.sliceWaits = s.sliceWaits := rfl
@[simp] theorem State.gensym_pkgs (s : State) : s.gensym.2.pkgs = s.pkgs := rfl
@[simp] theorem State.gensym_fab (s : State) : s.gensym.2.fab = s.fab := rfl
@[simp] theorem State.gensym_host (s : State) : s.gensym.2.host = s.host := rfl
@[simp] theorem State.gensym_cyc (s : State) : s.gensym.2.cyc = s.cyc := rfl
@[simp] theorem State.gensym_dt (s : State) : s.gensym.2.dt = s.dt := rfl
@[simp] theorem State.gensym_agenda (s : State) : s.gensym.2.agenda = s.agenda := rfl
@[simp] theorem State.gensym_who (s : State) : s.gensym.2.who = s.who := rfl
@[simp] theorem State.gensym_subj (s : State) : s.gensym.2.subj = s.subj := rfl
@[simp] theorem State.freeWord_groups (s : State) : s.freeWord.2.groups = s.groups := rfl
@[simp] theorem State.freeWord_teams (s : State) : s.freeWord.2.teams = s.teams := rfl
@[simp] theorem State.freeWord_cores (s : State) : s.freeWord.2.cores = s.cores := rfl
@[simp] theorem State.freeWord_grids (s : State) : s.freeWord.2.grids = s.grids := rfl
@[simp] theorem State.freeWord_segs (s : State) : s.freeWord.2.segs = s.segs := rfl
@[simp] theorem State.freeWord_ctxs (s : State) : s.freeWord.2.ctxs = s.ctxs := rfl
@[simp] theorem State.freeWord_ops (s : State) : s.freeWord.2.ops = s.ops := rfl
@[simp] theorem State.freeWord_sliceWaits (s : State) : s.freeWord.2.sliceWaits = s.sliceWaits := rfl
@[simp] theorem State.freeWord_pkgs (s : State) : s.freeWord.2.pkgs = s.pkgs := rfl
@[simp] theorem State.freeWord_fab (s : State) : s.freeWord.2.fab = s.fab := rfl
@[simp] theorem State.freeWord_host (s : State) : s.freeWord.2.host = s.host := rfl
@[simp] theorem State.freeWord_cyc (s : State) : s.freeWord.2.cyc = s.cyc := rfl
@[simp] theorem State.freeWord_dt (s : State) : s.freeWord.2.dt = s.dt := rfl
@[simp] theorem State.freeWord_agenda (s : State) : s.freeWord.2.agenda = s.agenda := rfl
@[simp] theorem State.freeWord_who (s : State) : s.freeWord.2.who = s.who := rfl
@[simp] theorem State.freeWord_subj (s : State) : s.freeWord.2.subj = s.subj := rfl
@[simp] theorem State.freeDWord_groups (s : State) : s.freeDWord.2.groups = s.groups := rfl
@[simp] theorem State.freeDWord_teams (s : State) : s.freeDWord.2.teams = s.teams := rfl
@[simp] theorem State.freeDWord_cores (s : State) : s.freeDWord.2.cores = s.cores := rfl
@[simp] theorem State.freeDWord_grids (s : State) : s.freeDWord.2.grids = s.grids := rfl
@[simp] theorem State.freeDWord_segs (s : State) : s.freeDWord.2.segs = s.segs := rfl
@[simp] theorem State.freeDWord_ctxs (s : State) : s.freeDWord.2.ctxs = s.ctxs := rfl
@[simp] theorem State.freeDWord_ops (s : State) : s.freeDWord.2.ops = s.ops := rfl
@[simp] theorem State.freeDWord_sliceWaits (s : State) : s.freeDWord.2.sliceWaits = s.sliceWaits := rfl
@[simp] theorem State.freeDWord_pkgs (s : State) : s.freeDWord.2.pkgs = s.pkgs := rfl
@[simp] theorem State.freeDWord_fab (s : State) : s.freeDWord.2.fab = s.fab := rfl
@[simp] theorem State.freeDWord_host (s : State) : s.freeDWord.2.host = s.host := rfl
@[simp] theorem State.freeDWord_cyc (s : State) : s.freeDWord.2.cyc = s.cyc := rfl
@[simp] theorem State.freeDWord_dt (s : State) : s.freeDWord.2.dt = s.dt := rfl
@[simp] theorem State.freeDWord_agenda (s : State) : s.freeDWord.2.agenda = s.agenda := rfl
@[simp] theorem State.freeDWord_who (s : State) : s.freeDWord.2.who = s.who := rfl
@[simp] theorem State.freeDWord_subj (s : State) : s.freeDWord.2.subj = s.subj := rfl

/-! ### The fields of a group -/

@[simp] theorem Group.setK_gid (g : Group) (n : Nat) (x : DWord) : (g.setK n x).gid = g.gid := rfl
@[simp] theorem Group.setK_rank (g : Group) (n : Nat) (x : DWord) : (g.setK n x).rank = g.rank := rfl
@[simp] theorem Group.setK_ctx (g : Group) (n : Nat) (x : DWord) : (g.setK n x).ctx = g.ctx := rfl
@[simp] theorem Group.setK_grid (g : Group) (n : Nat) (x : DWord) : (g.setK n x).grid = g.grid := rfl
@[simp] theorem Group.setK_tid (g : Group) (n : Nat) (x : DWord) : (g.setK n x).tid = g.tid := rfl
@[simp] theorem Group.setK_num (g : Group) (n : Nat) (x : DWord) : (g.setK n x).num = g.num := rfl
@[simp] theorem Group.setK_win (g : Group) (n : Nat) (x : DWord) : (g.setK n x).win = g.win := rfl
@[simp] theorem Group.setK_wspb (g : Group) (n : Nat) (x : DWord) : (g.setK n x).wspb = g.wspb := rfl
@[simp] theorem Group.setK_core (g : Group) (n : Nat) (x : DWord) : (g.setK n x).core = g.core := rfl
@[simp] theorem Group.setK_lane (g : Group) (n : Nat) (x : DWord) : (g.setK n x).lane = g.lane := rfl
@[simp] theorem Group.setK_place (g : Group) (n : Nat) (x : DWord) : (g.setK n x).place = g.place := rfl
@[simp] theorem Group.setK_wave (g : Group) (n : Nat) (x : DWord) : (g.setK n x).wave = g.wave := rfl
@[simp] theorem Group.setK_threads (g : Group) (n : Nat) (x : DWord) : (g.setK n x).threads = g.threads := rfl
@[simp] theorem Group.setK_kbusy (g : Group) (n : Nat) (x : DWord) : (g.setK n x).kbusy = g.kbusy := rfl
@[simp] theorem Group.setK_q (g : Group) (n : Nat) (x : DWord) : (g.setK n x).q = g.q := rfl
@[simp] theorem Group.setK_t (g : Group) (n : Nat) (x : DWord) : (g.setK n x).t = g.t := rfl
@[simp] theorem Group.setK_nbv (g : Group) (n : Nat) (x : DWord) : (g.setK n x).nbv = g.nbv := rfl
@[simp] theorem Group.setK_srwq (g : Group) (n : Nat) (x : DWord) : (g.setK n x).srwq = g.srwq := rfl
@[simp] theorem Group.setK_exited (g : Group) (n : Nat) (x : DWord) : (g.setK n x).exited = g.exited := rfl
@[simp] theorem Group.setK_frags (g : Group) (n : Nat) (x : DWord) : (g.setK n x).frags = g.frags := rfl
@[simp] theorem Group.setK_recs (g : Group) (n : Nat) (x : DWord) : (g.setK n x).recs = g.recs := rfl
@[simp] theorem Group.setK_spilled (g : Group) (n : Nat) (x : DWord) : (g.setK n x).spilled = g.spilled := rfl
@[simp] theorem Group.setK_sinceExch (g : Group) (n : Nat) (x : DWord) : (g.setK n x).sinceExch = g.sinceExch := rfl
@[simp] theorem Group.setK_jaddr (g : Group) (n : Nat) (x : DWord) : (g.setK n x).jaddr = g.jaddr := rfl
@[simp] theorem Group.setK_jmask (g : Group) (n : Nat) (x : DWord) : (g.setK n x).jmask = g.jmask := rfl
@[simp] theorem Group.setK_jpc (g : Group) (n : Nat) (x : DWord) : (g.setK n x).jpc = g.jpc := rfl
@[simp] theorem Group.setK_reps (g : Group) (n : Nat) (x : DWord) : (g.setK n x).reps = g.reps := rfl
@[simp] theorem Group.setK_seen (g : Group) (n : Nat) (x : DWord) : (g.setK n x).seen = g.seen := rfl
@[simp] theorem Group.setK_gtime (g : Group) (n : Nat) (x : DWord) : (g.setK n x).gtime = g.gtime := rfl
@[simp] theorem Group.setK_timer (g : Group) (n : Nat) (x : DWord) : (g.setK n x).timer = g.timer := rfl
@[simp] theorem Group.setK_deadline (g : Group) (n : Nat) (x : DWord) : (g.setK n x).deadline = g.deadline := rfl
@[simp] theorem Group.setK_arithen (g : Group) (n : Nat) (x : DWord) : (g.setK n x).arithen = g.arithen := rfl
@[simp] theorem Group.setK_rseq (g : Group) (n : Nat) (x : DWord) : (g.setK n x).rseq = g.rseq := rfl
@[simp] theorem Group.setK_rstpt (g : Group) (n : Nat) (x : DWord) : (g.setK n x).rstpt = g.rstpt := rfl
@[simp] theorem Group.setK_rstseq (g : Group) (n : Nat) (x : DWord) : (g.setK n x).rstseq = g.rstseq := rfl
@[simp] theorem Group.setK_level (g : Group) (n : Nat) (x : DWord) : (g.setK n x).level = g.level := rfl
@[simp] theorem Group.setK_flights (g : Group) (n : Nat) (x : DWord) : (g.setK n x).flights = g.flights := rfl
@[simp] theorem Group.setK_nextSeq (g : Group) (n : Nat) (x : DWord) : (g.setK n x).nextSeq = g.nextSeq := rfl
@[simp] theorem Group.setK_eng (g : Group) (n : Nat) (x : DWord) : (g.setK n x).eng = g.eng := rfl
@[simp] theorem Group.setK_trap (g : Group) (n : Nat) (x : DWord) : (g.setK n x).trap = g.trap := rfl
@[simp] theorem Group.setK_stopped (g : Group) (n : Nat) (x : DWord) : (g.setK n x).stopped = g.stopped := rfl
@[simp] theorem Group.setK_lastPick (g : Group) (n : Nat) (x : DWord) : (g.setK n x).lastPick = g.lastPick := rfl
@[simp] theorem Group.setK_stalled (g : Group) (n : Nat) (x : DWord) : (g.setK n x).stalled = g.stalled := rfl
@[simp] theorem Group.setK_budget (g : Group) (n : Nat) (x : DWord) : (g.setK n x).budget = g.budget := rfl

@[simp] theorem Group.setQ_gid (g : Group) (n : Nat) (b : Bool) : (g.setQ n b).gid = g.gid := rfl
@[simp] theorem Group.setQ_rank (g : Group) (n : Nat) (b : Bool) : (g.setQ n b).rank = g.rank := rfl
@[simp] theorem Group.setQ_ctx (g : Group) (n : Nat) (b : Bool) : (g.setQ n b).ctx = g.ctx := rfl
@[simp] theorem Group.setQ_grid (g : Group) (n : Nat) (b : Bool) : (g.setQ n b).grid = g.grid := rfl
@[simp] theorem Group.setQ_tid (g : Group) (n : Nat) (b : Bool) : (g.setQ n b).tid = g.tid := rfl
@[simp] theorem Group.setQ_num (g : Group) (n : Nat) (b : Bool) : (g.setQ n b).num = g.num := rfl
@[simp] theorem Group.setQ_win (g : Group) (n : Nat) (b : Bool) : (g.setQ n b).win = g.win := rfl
@[simp] theorem Group.setQ_wspb (g : Group) (n : Nat) (b : Bool) : (g.setQ n b).wspb = g.wspb := rfl
@[simp] theorem Group.setQ_core (g : Group) (n : Nat) (b : Bool) : (g.setQ n b).core = g.core := rfl
@[simp] theorem Group.setQ_lane (g : Group) (n : Nat) (b : Bool) : (g.setQ n b).lane = g.lane := rfl
@[simp] theorem Group.setQ_place (g : Group) (n : Nat) (b : Bool) : (g.setQ n b).place = g.place := rfl
@[simp] theorem Group.setQ_wave (g : Group) (n : Nat) (b : Bool) : (g.setQ n b).wave = g.wave := rfl
@[simp] theorem Group.setQ_threads (g : Group) (n : Nat) (b : Bool) : (g.setQ n b).threads = g.threads := rfl
@[simp] theorem Group.setQ_k (g : Group) (n : Nat) (b : Bool) : (g.setQ n b).k = g.k := rfl
@[simp] theorem Group.setQ_kbusy (g : Group) (n : Nat) (b : Bool) : (g.setQ n b).kbusy = g.kbusy := rfl
@[simp] theorem Group.setQ_t (g : Group) (n : Nat) (b : Bool) : (g.setQ n b).t = g.t := rfl
@[simp] theorem Group.setQ_nbv (g : Group) (n : Nat) (b : Bool) : (g.setQ n b).nbv = g.nbv := rfl
@[simp] theorem Group.setQ_srwq (g : Group) (n : Nat) (b : Bool) : (g.setQ n b).srwq = g.srwq := rfl
@[simp] theorem Group.setQ_exited (g : Group) (n : Nat) (b : Bool) : (g.setQ n b).exited = g.exited := rfl
@[simp] theorem Group.setQ_frags (g : Group) (n : Nat) (b : Bool) : (g.setQ n b).frags = g.frags := rfl
@[simp] theorem Group.setQ_recs (g : Group) (n : Nat) (b : Bool) : (g.setQ n b).recs = g.recs := rfl
@[simp] theorem Group.setQ_spilled (g : Group) (n : Nat) (b : Bool) : (g.setQ n b).spilled = g.spilled := rfl
@[simp] theorem Group.setQ_sinceExch (g : Group) (n : Nat) (b : Bool) : (g.setQ n b).sinceExch = g.sinceExch := rfl
@[simp] theorem Group.setQ_jaddr (g : Group) (n : Nat) (b : Bool) : (g.setQ n b).jaddr = g.jaddr := rfl
@[simp] theorem Group.setQ_jmask (g : Group) (n : Nat) (b : Bool) : (g.setQ n b).jmask = g.jmask := rfl
@[simp] theorem Group.setQ_jpc (g : Group) (n : Nat) (b : Bool) : (g.setQ n b).jpc = g.jpc := rfl
@[simp] theorem Group.setQ_reps (g : Group) (n : Nat) (b : Bool) : (g.setQ n b).reps = g.reps := rfl
@[simp] theorem Group.setQ_seen (g : Group) (n : Nat) (b : Bool) : (g.setQ n b).seen = g.seen := rfl
@[simp] theorem Group.setQ_gtime (g : Group) (n : Nat) (b : Bool) : (g.setQ n b).gtime = g.gtime := rfl
@[simp] theorem Group.setQ_timer (g : Group) (n : Nat) (b : Bool) : (g.setQ n b).timer = g.timer := rfl
@[simp] theorem Group.setQ_deadline (g : Group) (n : Nat) (b : Bool) : (g.setQ n b).deadline = g.deadline := rfl
@[simp] theorem Group.setQ_arithen (g : Group) (n : Nat) (b : Bool) : (g.setQ n b).arithen = g.arithen := rfl
@[simp] theorem Group.setQ_rseq (g : Group) (n : Nat) (b : Bool) : (g.setQ n b).rseq = g.rseq := rfl
@[simp] theorem Group.setQ_rstpt (g : Group) (n : Nat) (b : Bool) : (g.setQ n b).rstpt = g.rstpt := rfl
@[simp] theorem Group.setQ_rstseq (g : Group) (n : Nat) (b : Bool) : (g.setQ n b).rstseq = g.rstseq := rfl
@[simp] theorem Group.setQ_level (g : Group) (n : Nat) (b : Bool) : (g.setQ n b).level = g.level := rfl
@[simp] theorem Group.setQ_flights (g : Group) (n : Nat) (b : Bool) : (g.setQ n b).flights = g.flights := rfl
@[simp] theorem Group.setQ_nextSeq (g : Group) (n : Nat) (b : Bool) : (g.setQ n b).nextSeq = g.nextSeq := rfl
@[simp] theorem Group.setQ_eng (g : Group) (n : Nat) (b : Bool) : (g.setQ n b).eng = g.eng := rfl
@[simp] theorem Group.setQ_trap (g : Group) (n : Nat) (b : Bool) : (g.setQ n b).trap = g.trap := rfl
@[simp] theorem Group.setQ_stopped (g : Group) (n : Nat) (b : Bool) : (g.setQ n b).stopped = g.stopped := rfl
@[simp] theorem Group.setQ_lastPick (g : Group) (n : Nat) (b : Bool) : (g.setQ n b).lastPick = g.lastPick := rfl
@[simp] theorem Group.setQ_stalled (g : Group) (n : Nat) (b : Bool) : (g.setQ n b).stalled = g.stalled := rfl
@[simp] theorem Group.setQ_budget (g : Group) (n : Nat) (b : Bool) : (g.setQ n b).budget = g.budget := rfl

@[simp] theorem Group.setFrag_gid (g : Group) (e : Nat) (f : Option Frag) : (g.setFrag e f).gid = g.gid := rfl
@[simp] theorem Group.setFrag_rank (g : Group) (e : Nat) (f : Option Frag) : (g.setFrag e f).rank = g.rank := rfl
@[simp] theorem Group.setFrag_ctx (g : Group) (e : Nat) (f : Option Frag) : (g.setFrag e f).ctx = g.ctx := rfl
@[simp] theorem Group.setFrag_grid (g : Group) (e : Nat) (f : Option Frag) : (g.setFrag e f).grid = g.grid := rfl
@[simp] theorem Group.setFrag_tid (g : Group) (e : Nat) (f : Option Frag) : (g.setFrag e f).tid = g.tid := rfl
@[simp] theorem Group.setFrag_num (g : Group) (e : Nat) (f : Option Frag) : (g.setFrag e f).num = g.num := rfl
@[simp] theorem Group.setFrag_win (g : Group) (e : Nat) (f : Option Frag) : (g.setFrag e f).win = g.win := rfl
@[simp] theorem Group.setFrag_wspb (g : Group) (e : Nat) (f : Option Frag) : (g.setFrag e f).wspb = g.wspb := rfl
@[simp] theorem Group.setFrag_core (g : Group) (e : Nat) (f : Option Frag) : (g.setFrag e f).core = g.core := rfl
@[simp] theorem Group.setFrag_lane (g : Group) (e : Nat) (f : Option Frag) : (g.setFrag e f).lane = g.lane := rfl
@[simp] theorem Group.setFrag_place (g : Group) (e : Nat) (f : Option Frag) : (g.setFrag e f).place = g.place := rfl
@[simp] theorem Group.setFrag_wave (g : Group) (e : Nat) (f : Option Frag) : (g.setFrag e f).wave = g.wave := rfl
@[simp] theorem Group.setFrag_threads (g : Group) (e : Nat) (f : Option Frag) : (g.setFrag e f).threads = g.threads := rfl
@[simp] theorem Group.setFrag_k (g : Group) (e : Nat) (f : Option Frag) : (g.setFrag e f).k = g.k := rfl
@[simp] theorem Group.setFrag_kbusy (g : Group) (e : Nat) (f : Option Frag) : (g.setFrag e f).kbusy = g.kbusy := rfl
@[simp] theorem Group.setFrag_q (g : Group) (e : Nat) (f : Option Frag) : (g.setFrag e f).q = g.q := rfl
@[simp] theorem Group.setFrag_t (g : Group) (e : Nat) (f : Option Frag) : (g.setFrag e f).t = g.t := rfl
@[simp] theorem Group.setFrag_nbv (g : Group) (e : Nat) (f : Option Frag) : (g.setFrag e f).nbv = g.nbv := rfl
@[simp] theorem Group.setFrag_srwq (g : Group) (e : Nat) (f : Option Frag) : (g.setFrag e f).srwq = g.srwq := rfl
@[simp] theorem Group.setFrag_exited (g : Group) (e : Nat) (f : Option Frag) : (g.setFrag e f).exited = g.exited := rfl
@[simp] theorem Group.setFrag_recs (g : Group) (e : Nat) (f : Option Frag) : (g.setFrag e f).recs = g.recs := rfl
@[simp] theorem Group.setFrag_spilled (g : Group) (e : Nat) (f : Option Frag) : (g.setFrag e f).spilled = g.spilled := rfl
@[simp] theorem Group.setFrag_sinceExch (g : Group) (e : Nat) (f : Option Frag) : (g.setFrag e f).sinceExch = g.sinceExch := rfl
@[simp] theorem Group.setFrag_jaddr (g : Group) (e : Nat) (f : Option Frag) : (g.setFrag e f).jaddr = g.jaddr := rfl
@[simp] theorem Group.setFrag_jmask (g : Group) (e : Nat) (f : Option Frag) : (g.setFrag e f).jmask = g.jmask := rfl
@[simp] theorem Group.setFrag_jpc (g : Group) (e : Nat) (f : Option Frag) : (g.setFrag e f).jpc = g.jpc := rfl
@[simp] theorem Group.setFrag_reps (g : Group) (e : Nat) (f : Option Frag) : (g.setFrag e f).reps = g.reps := rfl
@[simp] theorem Group.setFrag_seen (g : Group) (e : Nat) (f : Option Frag) : (g.setFrag e f).seen = g.seen := rfl
@[simp] theorem Group.setFrag_gtime (g : Group) (e : Nat) (f : Option Frag) : (g.setFrag e f).gtime = g.gtime := rfl
@[simp] theorem Group.setFrag_timer (g : Group) (e : Nat) (f : Option Frag) : (g.setFrag e f).timer = g.timer := rfl
@[simp] theorem Group.setFrag_deadline (g : Group) (e : Nat) (f : Option Frag) : (g.setFrag e f).deadline = g.deadline := rfl
@[simp] theorem Group.setFrag_arithen (g : Group) (e : Nat) (f : Option Frag) : (g.setFrag e f).arithen = g.arithen := rfl
@[simp] theorem Group.setFrag_rseq (g : Group) (e : Nat) (f : Option Frag) : (g.setFrag e f).rseq = g.rseq := rfl
@[simp] theorem Group.setFrag_rstpt (g : Group) (e : Nat) (f : Option Frag) : (g.setFrag e f).rstpt = g.rstpt := rfl
@[simp] theorem Group.setFrag_rstseq (g : Group) (e : Nat) (f : Option Frag) : (g.setFrag e f).rstseq = g.rstseq := rfl
@[simp] theorem Group.setFrag_level (g : Group) (e : Nat) (f : Option Frag) : (g.setFrag e f).level = g.level := rfl
@[simp] theorem Group.setFrag_flights (g : Group) (e : Nat) (f : Option Frag) : (g.setFrag e f).flights = g.flights := rfl
@[simp] theorem Group.setFrag_nextSeq (g : Group) (e : Nat) (f : Option Frag) : (g.setFrag e f).nextSeq = g.nextSeq := rfl
@[simp] theorem Group.setFrag_eng (g : Group) (e : Nat) (f : Option Frag) : (g.setFrag e f).eng = g.eng := rfl
@[simp] theorem Group.setFrag_trap (g : Group) (e : Nat) (f : Option Frag) : (g.setFrag e f).trap = g.trap := rfl
@[simp] theorem Group.setFrag_stopped (g : Group) (e : Nat) (f : Option Frag) : (g.setFrag e f).stopped = g.stopped := rfl
@[simp] theorem Group.setFrag_lastPick (g : Group) (e : Nat) (f : Option Frag) : (g.setFrag e f).lastPick = g.lastPick := rfl
@[simp] theorem Group.setFrag_stalled (g : Group) (e : Nat) (f : Option Frag) : (g.setFrag e f).stalled = g.stalled := rfl
@[simp] theorem Group.setFrag_budget (g : Group) (e : Nat) (f : Option Frag) : (g.setFrag e f).budget = g.budget := rfl

@[simp] theorem Group.modFrag_gid (g : Group) (e : Nat) (f : Frag → Frag) : (g.modFrag e f).gid = g.gid := rfl
@[simp] theorem Group.modFrag_rank (g : Group) (e : Nat) (f : Frag → Frag) : (g.modFrag e f).rank = g.rank := rfl
@[simp] theorem Group.modFrag_ctx (g : Group) (e : Nat) (f : Frag → Frag) : (g.modFrag e f).ctx = g.ctx := rfl
@[simp] theorem Group.modFrag_grid (g : Group) (e : Nat) (f : Frag → Frag) : (g.modFrag e f).grid = g.grid := rfl
@[simp] theorem Group.modFrag_tid (g : Group) (e : Nat) (f : Frag → Frag) : (g.modFrag e f).tid = g.tid := rfl
@[simp] theorem Group.modFrag_num (g : Group) (e : Nat) (f : Frag → Frag) : (g.modFrag e f).num = g.num := rfl
@[simp] theorem Group.modFrag_win (g : Group) (e : Nat) (f : Frag → Frag) : (g.modFrag e f).win = g.win := rfl
@[simp] theorem Group.modFrag_wspb (g : Group) (e : Nat) (f : Frag → Frag) : (g.modFrag e f).wspb = g.wspb := rfl
@[simp] theorem Group.modFrag_core (g : Group) (e : Nat) (f : Frag → Frag) : (g.modFrag e f).core = g.core := rfl
@[simp] theorem Group.modFrag_lane (g : Group) (e : Nat) (f : Frag → Frag) : (g.modFrag e f).lane = g.lane := rfl
@[simp] theorem Group.modFrag_place (g : Group) (e : Nat) (f : Frag → Frag) : (g.modFrag e f).place = g.place := rfl
@[simp] theorem Group.modFrag_wave (g : Group) (e : Nat) (f : Frag → Frag) : (g.modFrag e f).wave = g.wave := rfl
@[simp] theorem Group.modFrag_threads (g : Group) (e : Nat) (f : Frag → Frag) : (g.modFrag e f).threads = g.threads := rfl
@[simp] theorem Group.modFrag_k (g : Group) (e : Nat) (f : Frag → Frag) : (g.modFrag e f).k = g.k := rfl
@[simp] theorem Group.modFrag_kbusy (g : Group) (e : Nat) (f : Frag → Frag) : (g.modFrag e f).kbusy = g.kbusy := rfl
@[simp] theorem Group.modFrag_q (g : Group) (e : Nat) (f : Frag → Frag) : (g.modFrag e f).q = g.q := rfl
@[simp] theorem Group.modFrag_t (g : Group) (e : Nat) (f : Frag → Frag) : (g.modFrag e f).t = g.t := rfl
@[simp] theorem Group.modFrag_nbv (g : Group) (e : Nat) (f : Frag → Frag) : (g.modFrag e f).nbv = g.nbv := rfl
@[simp] theorem Group.modFrag_srwq (g : Group) (e : Nat) (f : Frag → Frag) : (g.modFrag e f).srwq = g.srwq := rfl
@[simp] theorem Group.modFrag_exited (g : Group) (e : Nat) (f : Frag → Frag) : (g.modFrag e f).exited = g.exited := rfl
@[simp] theorem Group.modFrag_recs (g : Group) (e : Nat) (f : Frag → Frag) : (g.modFrag e f).recs = g.recs := rfl
@[simp] theorem Group.modFrag_spilled (g : Group) (e : Nat) (f : Frag → Frag) : (g.modFrag e f).spilled = g.spilled := rfl
@[simp] theorem Group.modFrag_sinceExch (g : Group) (e : Nat) (f : Frag → Frag) : (g.modFrag e f).sinceExch = g.sinceExch := rfl
@[simp] theorem Group.modFrag_jaddr (g : Group) (e : Nat) (f : Frag → Frag) : (g.modFrag e f).jaddr = g.jaddr := rfl
@[simp] theorem Group.modFrag_jmask (g : Group) (e : Nat) (f : Frag → Frag) : (g.modFrag e f).jmask = g.jmask := rfl
@[simp] theorem Group.modFrag_jpc (g : Group) (e : Nat) (f : Frag → Frag) : (g.modFrag e f).jpc = g.jpc := rfl
@[simp] theorem Group.modFrag_reps (g : Group) (e : Nat) (f : Frag → Frag) : (g.modFrag e f).reps = g.reps := rfl
@[simp] theorem Group.modFrag_seen (g : Group) (e : Nat) (f : Frag → Frag) : (g.modFrag e f).seen = g.seen := rfl
@[simp] theorem Group.modFrag_gtime (g : Group) (e : Nat) (f : Frag → Frag) : (g.modFrag e f).gtime = g.gtime := rfl
@[simp] theorem Group.modFrag_timer (g : Group) (e : Nat) (f : Frag → Frag) : (g.modFrag e f).timer = g.timer := rfl
@[simp] theorem Group.modFrag_deadline (g : Group) (e : Nat) (f : Frag → Frag) : (g.modFrag e f).deadline = g.deadline := rfl
@[simp] theorem Group.modFrag_arithen (g : Group) (e : Nat) (f : Frag → Frag) : (g.modFrag e f).arithen = g.arithen := rfl
@[simp] theorem Group.modFrag_rseq (g : Group) (e : Nat) (f : Frag → Frag) : (g.modFrag e f).rseq = g.rseq := rfl
@[simp] theorem Group.modFrag_rstpt (g : Group) (e : Nat) (f : Frag → Frag) : (g.modFrag e f).rstpt = g.rstpt := rfl
@[simp] theorem Group.modFrag_rstseq (g : Group) (e : Nat) (f : Frag → Frag) : (g.modFrag e f).rstseq = g.rstseq := rfl
@[simp] theorem Group.modFrag_level (g : Group) (e : Nat) (f : Frag → Frag) : (g.modFrag e f).level = g.level := rfl
@[simp] theorem Group.modFrag_flights (g : Group) (e : Nat) (f : Frag → Frag) : (g.modFrag e f).flights = g.flights := rfl
@[simp] theorem Group.modFrag_nextSeq (g : Group) (e : Nat) (f : Frag → Frag) : (g.modFrag e f).nextSeq = g.nextSeq := rfl
@[simp] theorem Group.modFrag_eng (g : Group) (e : Nat) (f : Frag → Frag) : (g.modFrag e f).eng = g.eng := rfl
@[simp] theorem Group.modFrag_trap (g : Group) (e : Nat) (f : Frag → Frag) : (g.modFrag e f).trap = g.trap := rfl
@[simp] theorem Group.modFrag_stopped (g : Group) (e : Nat) (f : Frag → Frag) : (g.modFrag e f).stopped = g.stopped := rfl
@[simp] theorem Group.modFrag_lastPick (g : Group) (e : Nat) (f : Frag → Frag) : (g.modFrag e f).lastPick = g.lastPick := rfl
@[simp] theorem Group.modFrag_stalled (g : Group) (e : Nat) (f : Frag → Frag) : (g.modFrag e f).stalled = g.stalled := rfl
@[simp] theorem Group.modFrag_budget (g : Group) (e : Nat) (f : Frag → Frag) : (g.modFrag e f).budget = g.budget := rfl

@[simp] theorem Group.setRec_gid (g : Group) (i : Nat) (r : Option RRec) : (g.setRec i r).gid = g.gid := rfl
@[simp] theorem Group.setRec_rank (g : Group) (i : Nat) (r : Option RRec) : (g.setRec i r).rank = g.rank := rfl
@[simp] theorem Group.setRec_ctx (g : Group) (i : Nat) (r : Option RRec) : (g.setRec i r).ctx = g.ctx := rfl
@[simp] theorem Group.setRec_grid (g : Group) (i : Nat) (r : Option RRec) : (g.setRec i r).grid = g.grid := rfl
@[simp] theorem Group.setRec_tid (g : Group) (i : Nat) (r : Option RRec) : (g.setRec i r).tid = g.tid := rfl
@[simp] theorem Group.setRec_num (g : Group) (i : Nat) (r : Option RRec) : (g.setRec i r).num = g.num := rfl
@[simp] theorem Group.setRec_win (g : Group) (i : Nat) (r : Option RRec) : (g.setRec i r).win = g.win := rfl
@[simp] theorem Group.setRec_wspb (g : Group) (i : Nat) (r : Option RRec) : (g.setRec i r).wspb = g.wspb := rfl
@[simp] theorem Group.setRec_core (g : Group) (i : Nat) (r : Option RRec) : (g.setRec i r).core = g.core := rfl
@[simp] theorem Group.setRec_lane (g : Group) (i : Nat) (r : Option RRec) : (g.setRec i r).lane = g.lane := rfl
@[simp] theorem Group.setRec_place (g : Group) (i : Nat) (r : Option RRec) : (g.setRec i r).place = g.place := rfl
@[simp] theorem Group.setRec_wave (g : Group) (i : Nat) (r : Option RRec) : (g.setRec i r).wave = g.wave := rfl
@[simp] theorem Group.setRec_threads (g : Group) (i : Nat) (r : Option RRec) : (g.setRec i r).threads = g.threads := rfl
@[simp] theorem Group.setRec_k (g : Group) (i : Nat) (r : Option RRec) : (g.setRec i r).k = g.k := rfl
@[simp] theorem Group.setRec_kbusy (g : Group) (i : Nat) (r : Option RRec) : (g.setRec i r).kbusy = g.kbusy := rfl
@[simp] theorem Group.setRec_q (g : Group) (i : Nat) (r : Option RRec) : (g.setRec i r).q = g.q := rfl
@[simp] theorem Group.setRec_t (g : Group) (i : Nat) (r : Option RRec) : (g.setRec i r).t = g.t := rfl
@[simp] theorem Group.setRec_nbv (g : Group) (i : Nat) (r : Option RRec) : (g.setRec i r).nbv = g.nbv := rfl
@[simp] theorem Group.setRec_srwq (g : Group) (i : Nat) (r : Option RRec) : (g.setRec i r).srwq = g.srwq := rfl
@[simp] theorem Group.setRec_exited (g : Group) (i : Nat) (r : Option RRec) : (g.setRec i r).exited = g.exited := rfl
@[simp] theorem Group.setRec_frags (g : Group) (i : Nat) (r : Option RRec) : (g.setRec i r).frags = g.frags := rfl
@[simp] theorem Group.setRec_spilled (g : Group) (i : Nat) (r : Option RRec) : (g.setRec i r).spilled = g.spilled := rfl
@[simp] theorem Group.setRec_sinceExch (g : Group) (i : Nat) (r : Option RRec) : (g.setRec i r).sinceExch = g.sinceExch := rfl
@[simp] theorem Group.setRec_jaddr (g : Group) (i : Nat) (r : Option RRec) : (g.setRec i r).jaddr = g.jaddr := rfl
@[simp] theorem Group.setRec_jmask (g : Group) (i : Nat) (r : Option RRec) : (g.setRec i r).jmask = g.jmask := rfl
@[simp] theorem Group.setRec_jpc (g : Group) (i : Nat) (r : Option RRec) : (g.setRec i r).jpc = g.jpc := rfl
@[simp] theorem Group.setRec_reps (g : Group) (i : Nat) (r : Option RRec) : (g.setRec i r).reps = g.reps := rfl
@[simp] theorem Group.setRec_seen (g : Group) (i : Nat) (r : Option RRec) : (g.setRec i r).seen = g.seen := rfl
@[simp] theorem Group.setRec_gtime (g : Group) (i : Nat) (r : Option RRec) : (g.setRec i r).gtime = g.gtime := rfl
@[simp] theorem Group.setRec_timer (g : Group) (i : Nat) (r : Option RRec) : (g.setRec i r).timer = g.timer := rfl
@[simp] theorem Group.setRec_deadline (g : Group) (i : Nat) (r : Option RRec) : (g.setRec i r).deadline = g.deadline := rfl
@[simp] theorem Group.setRec_arithen (g : Group) (i : Nat) (r : Option RRec) : (g.setRec i r).arithen = g.arithen := rfl
@[simp] theorem Group.setRec_rseq (g : Group) (i : Nat) (r : Option RRec) : (g.setRec i r).rseq = g.rseq := rfl
@[simp] theorem Group.setRec_rstpt (g : Group) (i : Nat) (r : Option RRec) : (g.setRec i r).rstpt = g.rstpt := rfl
@[simp] theorem Group.setRec_rstseq (g : Group) (i : Nat) (r : Option RRec) : (g.setRec i r).rstseq = g.rstseq := rfl
@[simp] theorem Group.setRec_level (g : Group) (i : Nat) (r : Option RRec) : (g.setRec i r).level = g.level := rfl
@[simp] theorem Group.setRec_flights (g : Group) (i : Nat) (r : Option RRec) : (g.setRec i r).flights = g.flights := rfl
@[simp] theorem Group.setRec_nextSeq (g : Group) (i : Nat) (r : Option RRec) : (g.setRec i r).nextSeq = g.nextSeq := rfl
@[simp] theorem Group.setRec_eng (g : Group) (i : Nat) (r : Option RRec) : (g.setRec i r).eng = g.eng := rfl
@[simp] theorem Group.setRec_trap (g : Group) (i : Nat) (r : Option RRec) : (g.setRec i r).trap = g.trap := rfl
@[simp] theorem Group.setRec_stopped (g : Group) (i : Nat) (r : Option RRec) : (g.setRec i r).stopped = g.stopped := rfl
@[simp] theorem Group.setRec_lastPick (g : Group) (i : Nat) (r : Option RRec) : (g.setRec i r).lastPick = g.lastPick := rfl
@[simp] theorem Group.setRec_stalled (g : Group) (i : Nat) (r : Option RRec) : (g.setRec i r).stalled = g.stalled := rfl
@[simp] theorem Group.setRec_budget (g : Group) (i : Nat) (r : Option RRec) : (g.setRec i r).budget = g.budget := rfl

@[simp] theorem Group.modThreads_gid (g : Group) (p : Nat → Bool) (f : Nat → Thread → Thread) : (g.modThreads p f).gid = g.gid := rfl
@[simp] theorem Group.modThreads_rank (g : Group) (p : Nat → Bool) (f : Nat → Thread → Thread) : (g.modThreads p f).rank = g.rank := rfl
@[simp] theorem Group.modThreads_ctx (g : Group) (p : Nat → Bool) (f : Nat → Thread → Thread) : (g.modThreads p f).ctx = g.ctx := rfl
@[simp] theorem Group.modThreads_grid (g : Group) (p : Nat → Bool) (f : Nat → Thread → Thread) : (g.modThreads p f).grid = g.grid := rfl
@[simp] theorem Group.modThreads_tid (g : Group) (p : Nat → Bool) (f : Nat → Thread → Thread) : (g.modThreads p f).tid = g.tid := rfl
@[simp] theorem Group.modThreads_num (g : Group) (p : Nat → Bool) (f : Nat → Thread → Thread) : (g.modThreads p f).num = g.num := rfl
@[simp] theorem Group.modThreads_win (g : Group) (p : Nat → Bool) (f : Nat → Thread → Thread) : (g.modThreads p f).win = g.win := rfl
@[simp] theorem Group.modThreads_wspb (g : Group) (p : Nat → Bool) (f : Nat → Thread → Thread) : (g.modThreads p f).wspb = g.wspb := rfl
@[simp] theorem Group.modThreads_core (g : Group) (p : Nat → Bool) (f : Nat → Thread → Thread) : (g.modThreads p f).core = g.core := rfl
@[simp] theorem Group.modThreads_lane (g : Group) (p : Nat → Bool) (f : Nat → Thread → Thread) : (g.modThreads p f).lane = g.lane := rfl
@[simp] theorem Group.modThreads_place (g : Group) (p : Nat → Bool) (f : Nat → Thread → Thread) : (g.modThreads p f).place = g.place := rfl
@[simp] theorem Group.modThreads_wave (g : Group) (p : Nat → Bool) (f : Nat → Thread → Thread) : (g.modThreads p f).wave = g.wave := rfl
@[simp] theorem Group.modThreads_k (g : Group) (p : Nat → Bool) (f : Nat → Thread → Thread) : (g.modThreads p f).k = g.k := rfl
@[simp] theorem Group.modThreads_kbusy (g : Group) (p : Nat → Bool) (f : Nat → Thread → Thread) : (g.modThreads p f).kbusy = g.kbusy := rfl
@[simp] theorem Group.modThreads_q (g : Group) (p : Nat → Bool) (f : Nat → Thread → Thread) : (g.modThreads p f).q = g.q := rfl
@[simp] theorem Group.modThreads_t (g : Group) (p : Nat → Bool) (f : Nat → Thread → Thread) : (g.modThreads p f).t = g.t := rfl
@[simp] theorem Group.modThreads_nbv (g : Group) (p : Nat → Bool) (f : Nat → Thread → Thread) : (g.modThreads p f).nbv = g.nbv := rfl
@[simp] theorem Group.modThreads_srwq (g : Group) (p : Nat → Bool) (f : Nat → Thread → Thread) : (g.modThreads p f).srwq = g.srwq := rfl
@[simp] theorem Group.modThreads_exited (g : Group) (p : Nat → Bool) (f : Nat → Thread → Thread) : (g.modThreads p f).exited = g.exited := rfl
@[simp] theorem Group.modThreads_frags (g : Group) (p : Nat → Bool) (f : Nat → Thread → Thread) : (g.modThreads p f).frags = g.frags := rfl
@[simp] theorem Group.modThreads_recs (g : Group) (p : Nat → Bool) (f : Nat → Thread → Thread) : (g.modThreads p f).recs = g.recs := rfl
@[simp] theorem Group.modThreads_spilled (g : Group) (p : Nat → Bool) (f : Nat → Thread → Thread) : (g.modThreads p f).spilled = g.spilled := rfl
@[simp] theorem Group.modThreads_sinceExch (g : Group) (p : Nat → Bool) (f : Nat → Thread → Thread) : (g.modThreads p f).sinceExch = g.sinceExch := rfl
@[simp] theorem Group.modThreads_jaddr (g : Group) (p : Nat → Bool) (f : Nat → Thread → Thread) : (g.modThreads p f).jaddr = g.jaddr := rfl
@[simp] theorem Group.modThreads_jmask (g : Group) (p : Nat → Bool) (f : Nat → Thread → Thread) : (g.modThreads p f).jmask = g.jmask := rfl
@[simp] theorem Group.modThreads_jpc (g : Group) (p : Nat → Bool) (f : Nat → Thread → Thread) : (g.modThreads p f).jpc = g.jpc := rfl
@[simp] theorem Group.modThreads_reps (g : Group) (p : Nat → Bool) (f : Nat → Thread → Thread) : (g.modThreads p f).reps = g.reps := rfl
@[simp] theorem Group.modThreads_seen (g : Group) (p : Nat → Bool) (f : Nat → Thread → Thread) : (g.modThreads p f).seen = g.seen := rfl
@[simp] theorem Group.modThreads_gtime (g : Group) (p : Nat → Bool) (f : Nat → Thread → Thread) : (g.modThreads p f).gtime = g.gtime := rfl
@[simp] theorem Group.modThreads_timer (g : Group) (p : Nat → Bool) (f : Nat → Thread → Thread) : (g.modThreads p f).timer = g.timer := rfl
@[simp] theorem Group.modThreads_deadline (g : Group) (p : Nat → Bool) (f : Nat → Thread → Thread) : (g.modThreads p f).deadline = g.deadline := rfl
@[simp] theorem Group.modThreads_arithen (g : Group) (p : Nat → Bool) (f : Nat → Thread → Thread) : (g.modThreads p f).arithen = g.arithen := rfl
@[simp] theorem Group.modThreads_rseq (g : Group) (p : Nat → Bool) (f : Nat → Thread → Thread) : (g.modThreads p f).rseq = g.rseq := rfl
@[simp] theorem Group.modThreads_rstpt (g : Group) (p : Nat → Bool) (f : Nat → Thread → Thread) : (g.modThreads p f).rstpt = g.rstpt := rfl
@[simp] theorem Group.modThreads_rstseq (g : Group) (p : Nat → Bool) (f : Nat → Thread → Thread) : (g.modThreads p f).rstseq = g.rstseq := rfl
@[simp] theorem Group.modThreads_level (g : Group) (p : Nat → Bool) (f : Nat → Thread → Thread) : (g.modThreads p f).level = g.level := rfl
@[simp] theorem Group.modThreads_flights (g : Group) (p : Nat → Bool) (f : Nat → Thread → Thread) : (g.modThreads p f).flights = g.flights := rfl
@[simp] theorem Group.modThreads_nextSeq (g : Group) (p : Nat → Bool) (f : Nat → Thread → Thread) : (g.modThreads p f).nextSeq = g.nextSeq := rfl
@[simp] theorem Group.modThreads_eng (g : Group) (p : Nat → Bool) (f : Nat → Thread → Thread) : (g.modThreads p f).eng = g.eng := rfl
@[simp] theorem Group.modThreads_trap (g : Group) (p : Nat → Bool) (f : Nat → Thread → Thread) : (g.modThreads p f).trap = g.trap := rfl
@[simp] theorem Group.modThreads_stopped (g : Group) (p : Nat → Bool) (f : Nat → Thread → Thread) : (g.modThreads p f).stopped = g.stopped := rfl
@[simp] theorem Group.modThreads_lastPick (g : Group) (p : Nat → Bool) (f : Nat → Thread → Thread) : (g.modThreads p f).lastPick = g.lastPick := rfl
@[simp] theorem Group.modThreads_stalled (g : Group) (p : Nat → Bool) (f : Nat → Thread → Thread) : (g.modThreads p f).stalled = g.stalled := rfl
@[simp] theorem Group.modThreads_budget (g : Group) (p : Nat → Bool) (f : Nat → Thread → Thread) : (g.modThreads p f).budget = g.budget := rfl

@[simp] theorem Group.setT_gid (g : Group) (n : XReg) (lo hi : DWord) : (g.setT n lo hi).gid = g.gid := rfl
@[simp] theorem Group.setT_rank (g : Group) (n : XReg) (lo hi : DWord) : (g.setT n lo hi).rank = g.rank := rfl
@[simp] theorem Group.setT_ctx (g : Group) (n : XReg) (lo hi : DWord) : (g.setT n lo hi).ctx = g.ctx := rfl
@[simp] theorem Group.setT_grid (g : Group) (n : XReg) (lo hi : DWord) : (g.setT n lo hi).grid = g.grid := rfl
@[simp] theorem Group.setT_tid (g : Group) (n : XReg) (lo hi : DWord) : (g.setT n lo hi).tid = g.tid := rfl
@[simp] theorem Group.setT_num (g : Group) (n : XReg) (lo hi : DWord) : (g.setT n lo hi).num = g.num := rfl
@[simp] theorem Group.setT_win (g : Group) (n : XReg) (lo hi : DWord) : (g.setT n lo hi).win = g.win := rfl
@[simp] theorem Group.setT_wspb (g : Group) (n : XReg) (lo hi : DWord) : (g.setT n lo hi).wspb = g.wspb := rfl
@[simp] theorem Group.setT_core (g : Group) (n : XReg) (lo hi : DWord) : (g.setT n lo hi).core = g.core := rfl
@[simp] theorem Group.setT_lane (g : Group) (n : XReg) (lo hi : DWord) : (g.setT n lo hi).lane = g.lane := rfl
@[simp] theorem Group.setT_place (g : Group) (n : XReg) (lo hi : DWord) : (g.setT n lo hi).place = g.place := rfl
@[simp] theorem Group.setT_wave (g : Group) (n : XReg) (lo hi : DWord) : (g.setT n lo hi).wave = g.wave := rfl
@[simp] theorem Group.setT_threads (g : Group) (n : XReg) (lo hi : DWord) : (g.setT n lo hi).threads = g.threads := rfl
@[simp] theorem Group.setT_k (g : Group) (n : XReg) (lo hi : DWord) : (g.setT n lo hi).k = g.k := rfl
@[simp] theorem Group.setT_kbusy (g : Group) (n : XReg) (lo hi : DWord) : (g.setT n lo hi).kbusy = g.kbusy := rfl
@[simp] theorem Group.setT_q (g : Group) (n : XReg) (lo hi : DWord) : (g.setT n lo hi).q = g.q := rfl
@[simp] theorem Group.setT_nbv (g : Group) (n : XReg) (lo hi : DWord) : (g.setT n lo hi).nbv = g.nbv := rfl
@[simp] theorem Group.setT_srwq (g : Group) (n : XReg) (lo hi : DWord) : (g.setT n lo hi).srwq = g.srwq := rfl
@[simp] theorem Group.setT_exited (g : Group) (n : XReg) (lo hi : DWord) : (g.setT n lo hi).exited = g.exited := rfl
@[simp] theorem Group.setT_frags (g : Group) (n : XReg) (lo hi : DWord) : (g.setT n lo hi).frags = g.frags := rfl
@[simp] theorem Group.setT_recs (g : Group) (n : XReg) (lo hi : DWord) : (g.setT n lo hi).recs = g.recs := rfl
@[simp] theorem Group.setT_spilled (g : Group) (n : XReg) (lo hi : DWord) : (g.setT n lo hi).spilled = g.spilled := rfl
@[simp] theorem Group.setT_sinceExch (g : Group) (n : XReg) (lo hi : DWord) : (g.setT n lo hi).sinceExch = g.sinceExch := rfl
@[simp] theorem Group.setT_jaddr (g : Group) (n : XReg) (lo hi : DWord) : (g.setT n lo hi).jaddr = g.jaddr := rfl
@[simp] theorem Group.setT_jmask (g : Group) (n : XReg) (lo hi : DWord) : (g.setT n lo hi).jmask = g.jmask := rfl
@[simp] theorem Group.setT_jpc (g : Group) (n : XReg) (lo hi : DWord) : (g.setT n lo hi).jpc = g.jpc := rfl
@[simp] theorem Group.setT_reps (g : Group) (n : XReg) (lo hi : DWord) : (g.setT n lo hi).reps = g.reps := rfl
@[simp] theorem Group.setT_seen (g : Group) (n : XReg) (lo hi : DWord) : (g.setT n lo hi).seen = g.seen := rfl
@[simp] theorem Group.setT_gtime (g : Group) (n : XReg) (lo hi : DWord) : (g.setT n lo hi).gtime = g.gtime := rfl
@[simp] theorem Group.setT_timer (g : Group) (n : XReg) (lo hi : DWord) : (g.setT n lo hi).timer = g.timer := rfl
@[simp] theorem Group.setT_deadline (g : Group) (n : XReg) (lo hi : DWord) : (g.setT n lo hi).deadline = g.deadline := rfl
@[simp] theorem Group.setT_arithen (g : Group) (n : XReg) (lo hi : DWord) : (g.setT n lo hi).arithen = g.arithen := rfl
@[simp] theorem Group.setT_rseq (g : Group) (n : XReg) (lo hi : DWord) : (g.setT n lo hi).rseq = g.rseq := rfl
@[simp] theorem Group.setT_rstpt (g : Group) (n : XReg) (lo hi : DWord) : (g.setT n lo hi).rstpt = g.rstpt := rfl
@[simp] theorem Group.setT_rstseq (g : Group) (n : XReg) (lo hi : DWord) : (g.setT n lo hi).rstseq = g.rstseq := rfl
@[simp] theorem Group.setT_level (g : Group) (n : XReg) (lo hi : DWord) : (g.setT n lo hi).level = g.level := rfl
@[simp] theorem Group.setT_flights (g : Group) (n : XReg) (lo hi : DWord) : (g.setT n lo hi).flights = g.flights := rfl
@[simp] theorem Group.setT_nextSeq (g : Group) (n : XReg) (lo hi : DWord) : (g.setT n lo hi).nextSeq = g.nextSeq := rfl
@[simp] theorem Group.setT_eng (g : Group) (n : XReg) (lo hi : DWord) : (g.setT n lo hi).eng = g.eng := rfl
@[simp] theorem Group.setT_trap (g : Group) (n : XReg) (lo hi : DWord) : (g.setT n lo hi).trap = g.trap := rfl
@[simp] theorem Group.setT_stopped (g : Group) (n : XReg) (lo hi : DWord) : (g.setT n lo hi).stopped = g.stopped := rfl
@[simp] theorem Group.setT_lastPick (g : Group) (n : XReg) (lo hi : DWord) : (g.setT n lo hi).lastPick = g.lastPick := rfl
@[simp] theorem Group.setT_stalled (g : Group) (n : XReg) (lo hi : DWord) : (g.setT n lo hi).stalled = g.stalled := rfl
@[simp] theorem Group.setT_budget (g : Group) (n : XReg) (lo hi : DWord) : (g.setT n lo hi).budget = g.budget := rfl

@[simp] theorem Group.see_gid (g : Group) (b : BReg) : (g.see b).gid = g.gid := rfl
@[simp] theorem Group.see_rank (g : Group) (b : BReg) : (g.see b).rank = g.rank := rfl
@[simp] theorem Group.see_ctx (g : Group) (b : BReg) : (g.see b).ctx = g.ctx := rfl
@[simp] theorem Group.see_grid (g : Group) (b : BReg) : (g.see b).grid = g.grid := rfl
@[simp] theorem Group.see_tid (g : Group) (b : BReg) : (g.see b).tid = g.tid := rfl
@[simp] theorem Group.see_num (g : Group) (b : BReg) : (g.see b).num = g.num := rfl
@[simp] theorem Group.see_win (g : Group) (b : BReg) : (g.see b).win = g.win := rfl
@[simp] theorem Group.see_wspb (g : Group) (b : BReg) : (g.see b).wspb = g.wspb := rfl
@[simp] theorem Group.see_core (g : Group) (b : BReg) : (g.see b).core = g.core := rfl
@[simp] theorem Group.see_lane (g : Group) (b : BReg) : (g.see b).lane = g.lane := rfl
@[simp] theorem Group.see_place (g : Group) (b : BReg) : (g.see b).place = g.place := rfl
@[simp] theorem Group.see_wave (g : Group) (b : BReg) : (g.see b).wave = g.wave := rfl
@[simp] theorem Group.see_threads (g : Group) (b : BReg) : (g.see b).threads = g.threads := rfl
@[simp] theorem Group.see_k (g : Group) (b : BReg) : (g.see b).k = g.k := rfl
@[simp] theorem Group.see_kbusy (g : Group) (b : BReg) : (g.see b).kbusy = g.kbusy := rfl
@[simp] theorem Group.see_q (g : Group) (b : BReg) : (g.see b).q = g.q := rfl
@[simp] theorem Group.see_t (g : Group) (b : BReg) : (g.see b).t = g.t := rfl
@[simp] theorem Group.see_nbv (g : Group) (b : BReg) : (g.see b).nbv = g.nbv := rfl
@[simp] theorem Group.see_srwq (g : Group) (b : BReg) : (g.see b).srwq = g.srwq := rfl
@[simp] theorem Group.see_exited (g : Group) (b : BReg) : (g.see b).exited = g.exited := rfl
@[simp] theorem Group.see_frags (g : Group) (b : BReg) : (g.see b).frags = g.frags := rfl
@[simp] theorem Group.see_recs (g : Group) (b : BReg) : (g.see b).recs = g.recs := rfl
@[simp] theorem Group.see_spilled (g : Group) (b : BReg) : (g.see b).spilled = g.spilled := rfl
@[simp] theorem Group.see_sinceExch (g : Group) (b : BReg) : (g.see b).sinceExch = g.sinceExch := rfl
@[simp] theorem Group.see_jaddr (g : Group) (b : BReg) : (g.see b).jaddr = g.jaddr := rfl
@[simp] theorem Group.see_jmask (g : Group) (b : BReg) : (g.see b).jmask = g.jmask := rfl
@[simp] theorem Group.see_jpc (g : Group) (b : BReg) : (g.see b).jpc = g.jpc := rfl
@[simp] theorem Group.see_reps (g : Group) (b : BReg) : (g.see b).reps = g.reps := rfl
@[simp] theorem Group.see_gtime (g : Group) (b : BReg) : (g.see b).gtime = g.gtime := rfl
@[simp] theorem Group.see_timer (g : Group) (b : BReg) : (g.see b).timer = g.timer := rfl
@[simp] theorem Group.see_deadline (g : Group) (b : BReg) : (g.see b).deadline = g.deadline := rfl
@[simp] theorem Group.see_arithen (g : Group) (b : BReg) : (g.see b).arithen = g.arithen := rfl
@[simp] theorem Group.see_rseq (g : Group) (b : BReg) : (g.see b).rseq = g.rseq := rfl
@[simp] theorem Group.see_rstpt (g : Group) (b : BReg) : (g.see b).rstpt = g.rstpt := rfl
@[simp] theorem Group.see_rstseq (g : Group) (b : BReg) : (g.see b).rstseq = g.rstseq := rfl
@[simp] theorem Group.see_level (g : Group) (b : BReg) : (g.see b).level = g.level := rfl
@[simp] theorem Group.see_flights (g : Group) (b : BReg) : (g.see b).flights = g.flights := rfl
@[simp] theorem Group.see_nextSeq (g : Group) (b : BReg) : (g.see b).nextSeq = g.nextSeq := rfl
@[simp] theorem Group.see_eng (g : Group) (b : BReg) : (g.see b).eng = g.eng := rfl
@[simp] theorem Group.see_trap (g : Group) (b : BReg) : (g.see b).trap = g.trap := rfl
@[simp] theorem Group.see_stopped (g : Group) (b : BReg) : (g.see b).stopped = g.stopped := rfl
@[simp] theorem Group.see_lastPick (g : Group) (b : BReg) : (g.see b).lastPick = g.lastPick := rfl
@[simp] theorem Group.see_stalled (g : Group) (b : BReg) : (g.see b).stalled = g.stalled := rfl
@[simp] theorem Group.see_budget (g : Group) (b : BReg) : (g.see b).budget = g.budget := rfl

@[simp] theorem Group.holdK_gid (g : Group) (n : Nat) : (g.holdK n).gid = g.gid := rfl
@[simp] theorem Group.holdK_rank (g : Group) (n : Nat) : (g.holdK n).rank = g.rank := rfl
@[simp] theorem Group.holdK_ctx (g : Group) (n : Nat) : (g.holdK n).ctx = g.ctx := rfl
@[simp] theorem Group.holdK_grid (g : Group) (n : Nat) : (g.holdK n).grid = g.grid := rfl
@[simp] theorem Group.holdK_tid (g : Group) (n : Nat) : (g.holdK n).tid = g.tid := rfl
@[simp] theorem Group.holdK_num (g : Group) (n : Nat) : (g.holdK n).num = g.num := rfl
@[simp] theorem Group.holdK_win (g : Group) (n : Nat) : (g.holdK n).win = g.win := rfl
@[simp] theorem Group.holdK_wspb (g : Group) (n : Nat) : (g.holdK n).wspb = g.wspb := rfl
@[simp] theorem Group.holdK_core (g : Group) (n : Nat) : (g.holdK n).core = g.core := rfl
@[simp] theorem Group.holdK_lane (g : Group) (n : Nat) : (g.holdK n).lane = g.lane := rfl
@[simp] theorem Group.holdK_place (g : Group) (n : Nat) : (g.holdK n).place = g.place := rfl
@[simp] theorem Group.holdK_wave (g : Group) (n : Nat) : (g.holdK n).wave = g.wave := rfl
@[simp] theorem Group.holdK_threads (g : Group) (n : Nat) : (g.holdK n).threads = g.threads := rfl
@[simp] theorem Group.holdK_k (g : Group) (n : Nat) : (g.holdK n).k = g.k := rfl
@[simp] theorem Group.holdK_q (g : Group) (n : Nat) : (g.holdK n).q = g.q := rfl
@[simp] theorem Group.holdK_t (g : Group) (n : Nat) : (g.holdK n).t = g.t := rfl
@[simp] theorem Group.holdK_nbv (g : Group) (n : Nat) : (g.holdK n).nbv = g.nbv := rfl
@[simp] theorem Group.holdK_srwq (g : Group) (n : Nat) : (g.holdK n).srwq = g.srwq := rfl
@[simp] theorem Group.holdK_exited (g : Group) (n : Nat) : (g.holdK n).exited = g.exited := rfl
@[simp] theorem Group.holdK_frags (g : Group) (n : Nat) : (g.holdK n).frags = g.frags := rfl
@[simp] theorem Group.holdK_recs (g : Group) (n : Nat) : (g.holdK n).recs = g.recs := rfl
@[simp] theorem Group.holdK_spilled (g : Group) (n : Nat) : (g.holdK n).spilled = g.spilled := rfl
@[simp] theorem Group.holdK_sinceExch (g : Group) (n : Nat) : (g.holdK n).sinceExch = g.sinceExch := rfl
@[simp] theorem Group.holdK_jaddr (g : Group) (n : Nat) : (g.holdK n).jaddr = g.jaddr := rfl
@[simp] theorem Group.holdK_jmask (g : Group) (n : Nat) : (g.holdK n).jmask = g.jmask := rfl
@[simp] theorem Group.holdK_jpc (g : Group) (n : Nat) : (g.holdK n).jpc = g.jpc := rfl
@[simp] theorem Group.holdK_reps (g : Group) (n : Nat) : (g.holdK n).reps = g.reps := rfl
@[simp] theorem Group.holdK_seen (g : Group) (n : Nat) : (g.holdK n).seen = g.seen := rfl
@[simp] theorem Group.holdK_gtime (g : Group) (n : Nat) : (g.holdK n).gtime = g.gtime := rfl
@[simp] theorem Group.holdK_timer (g : Group) (n : Nat) : (g.holdK n).timer = g.timer := rfl
@[simp] theorem Group.holdK_deadline (g : Group) (n : Nat) : (g.holdK n).deadline = g.deadline := rfl
@[simp] theorem Group.holdK_arithen (g : Group) (n : Nat) : (g.holdK n).arithen = g.arithen := rfl
@[simp] theorem Group.holdK_rseq (g : Group) (n : Nat) : (g.holdK n).rseq = g.rseq := rfl
@[simp] theorem Group.holdK_rstpt (g : Group) (n : Nat) : (g.holdK n).rstpt = g.rstpt := rfl
@[simp] theorem Group.holdK_rstseq (g : Group) (n : Nat) : (g.holdK n).rstseq = g.rstseq := rfl
@[simp] theorem Group.holdK_level (g : Group) (n : Nat) : (g.holdK n).level = g.level := rfl
@[simp] theorem Group.holdK_flights (g : Group) (n : Nat) : (g.holdK n).flights = g.flights := rfl
@[simp] theorem Group.holdK_nextSeq (g : Group) (n : Nat) : (g.holdK n).nextSeq = g.nextSeq := rfl
@[simp] theorem Group.holdK_eng (g : Group) (n : Nat) : (g.holdK n).eng = g.eng := rfl
@[simp] theorem Group.holdK_trap (g : Group) (n : Nat) : (g.holdK n).trap = g.trap := rfl
@[simp] theorem Group.holdK_stopped (g : Group) (n : Nat) : (g.holdK n).stopped = g.stopped := rfl
@[simp] theorem Group.holdK_lastPick (g : Group) (n : Nat) : (g.holdK n).lastPick = g.lastPick := rfl
@[simp] theorem Group.holdK_stalled (g : Group) (n : Nat) : (g.holdK n).stalled = g.stalled := rfl
@[simp] theorem Group.holdK_budget (g : Group) (n : Nat) : (g.holdK n).budget = g.budget := rfl

/-! ### The fields of a thread slot -/

@[simp] theorem Thread.dset_wbase (t : Thread) (d : Nat) (x : Word) : (t.dset d x).wbase = t.wbase := rfl
@[simp] theorem Thread.dset_rbase (t : Thread) (d : Nat) (x : Word) : (t.dset d x).rbase = t.rbase := rfl
@[simp] theorem Thread.dset_frame (t : Thread) (d : Nat) (x : Word) : (t.dset d x).frame = t.frame := rfl
@[simp] theorem Thread.dset_cdepth (t : Thread) (d : Nat) (x : Word) : (t.dset d x).cdepth = t.cdepth := rfl
@[simp] theorem Thread.dset_links (t : Thread) (d : Nat) (x : Word) : (t.dset d x).links = t.links := rfl
@[simp] theorem Thread.dset_p (t : Thread) (d : Nat) (x : Word) : (t.dset d x).p = t.p := rfl
@[simp] theorem Thread.dset_s0 (t : Thread) (d : Nat) (x : Word) : (t.dset d x).s0 = t.s0 := rfl
@[simp] theorem Thread.dset_s1 (t : Thread) (d : Nat) (x : Word) : (t.dset d x).s1 = t.s1 := rfl
@[simp] theorem Thread.setV_wbase (t : Thread) (n : Nat) (x : Word) : (t.setV n x).wbase = t.wbase := rfl
@[simp] theorem Thread.setV_rbase (t : Thread) (n : Nat) (x : Word) : (t.setV n x).rbase = t.rbase := rfl
@[simp] theorem Thread.setV_frame (t : Thread) (n : Nat) (x : Word) : (t.setV n x).frame = t.frame := rfl
@[simp] theorem Thread.setV_cdepth (t : Thread) (n : Nat) (x : Word) : (t.setV n x).cdepth = t.cdepth := rfl
@[simp] theorem Thread.setV_links (t : Thread) (n : Nat) (x : Word) : (t.setV n x).links = t.links := rfl
@[simp] theorem Thread.setV_p (t : Thread) (n : Nat) (x : Word) : (t.setV n x).p = t.p := rfl
@[simp] theorem Thread.setV_s0 (t : Thread) (n : Nat) (x : Word) : (t.setV n x).s0 = t.s0 := rfl
@[simp] theorem Thread.setV_s1 (t : Thread) (n : Nat) (x : Word) : (t.setV n x).s1 = t.s1 := rfl
@[simp] theorem Thread.setP_backing (t : Thread) (n : PReg) (b : Bool) : (t.setP n b).backing = t.backing := by unfold Thread.setP; split <;> rfl
@[simp] theorem Thread.setP_bad (t : Thread) (n : PReg) (b : Bool) : (t.setP n b).bad = t.bad := by unfold Thread.setP; split <;> rfl
@[simp] theorem Thread.setP_wbase (t : Thread) (n : PReg) (b : Bool) : (t.setP n b).wbase = t.wbase := by unfold Thread.setP; split <;> rfl
@[simp] theorem Thread.setP_rbase (t : Thread) (n : PReg) (b : Bool) : (t.setP n b).rbase = t.rbase := by unfold Thread.setP; split <;> rfl
@[simp] theorem Thread.setP_frame (t : Thread) (n : PReg) (b : Bool) : (t.setP n b).frame = t.frame := by unfold Thread.setP; split <;> rfl
@[simp] theorem Thread.setP_cdepth (t : Thread) (n : PReg) (b : Bool) : (t.setP n b).cdepth = t.cdepth := by unfold Thread.setP; split <;> rfl
@[simp] theorem Thread.setP_links (t : Thread) (n : PReg) (b : Bool) : (t.setP n b).links = t.links := by unfold Thread.setP; split <;> rfl
@[simp] theorem Thread.setP_s0 (t : Thread) (n : PReg) (b : Bool) : (t.setP n b).s0 = t.s0 := by unfold Thread.setP; split <;> rfl
@[simp] theorem Thread.setP_s1 (t : Thread) (n : PReg) (b : Bool) : (t.setP n b).s1 = t.s1 := by unfold Thread.setP; split <;> rfl

/-! ### Lookups -/

/-- A lookup by a key that an update keeps. -/
theorem find_modWhere {α : Type} (p q : α → Bool) (f : α → α) (l : List α) (h : ∀ a, q (f a) = q a) :
    (modWhere p f l).find? q = (l.find? q).map fun a => if p a then f a else a := by
  induction l with
  | nil => rfl
  | cons a r ih =>
    have e : q (if p a then f a else a) = q a := by split <;> simp [h]
    simp only [modWhere, List.map_cons, List.find?_cons, e]
    cases q a with
    | true => rfl
    | false => simpa [modWhere] using ih

/-- The group of a key after an update that keeps the key. -/
theorem State.group_modGroup (s : State) (a b : Nat) (f : Group → Group) (h : ∀ x, (f x).gid = x.gid) :
    (s.modGroup a f).group? b = (s.group? b).map fun x => if b == a then f x else x := by
  unfold State.group? State.modGroup
  rw [find_modWhere _ _ _ _ fun x => by simp [h]]
  cases e : s.groups.find? fun x => x.gid == b with
  | none => rfl
  | some x =>
    have := List.find?_some e
    simp only [beq_iff_eq] at this
    simp [this]

@[simp] theorem State.group_modTeam (s : State) (tid : Nat) (f : Team → Team) (b : Nat) : (s.modTeam tid f).group? b = s.group? b := by simp [State.group?]
@[simp] theorem State.group_modGrid (s : State) (id : Nat) (f : Grid → Grid) (b : Nat) : (s.modGrid id f).group? b = s.group? b := by simp [State.group?]
@[simp] theorem State.group_modOp (s : State) (id : Nat) (f : Op → Op) (b : Nat) : (s.modOp id f).group? b = s.group? b := by simp [State.group?]
@[simp] theorem State.group_modPkg (s : State) (rank : Nat) (f : Pkg → Pkg) (b : Nat) : (s.modPkg rank f).group? b = s.group? b := by simp [State.group?]
@[simp] theorem State.group_modCtx (s : State) (rank id : Nat) (f : Ctx → Ctx) (b : Nat) : (s.modCtx rank id f).group? b = s.group? b := by simp [State.group?]
@[simp] theorem State.group_modSlice (s : State) (sl : SliceId) (f : Slice → Slice) (b : Nat) : (s.modSlice sl f).group? b = s.group? b := by simp [State.group?]
@[simp] theorem State.group_modNode (s : State) (n : NodeId) (f : Node → Node) (b : Nat) : (s.modNode n f).group? b = s.group? b := by simp [State.group?]
@[simp] theorem State.group_modPacket (s : State) (id : Nat) (f : Packet → Packet) (b : Nat) : (s.modPacket id f).group? b = s.group? b := by simp [State.group?]
@[simp] theorem State.group_owe (s : State) (ms : List Move) (b : Nat) : (s.owe ms).group? b = s.group? b := by simp [State.group?]
@[simp] theorem State.group_modCore (s : State) (id : CoreId) (f : Core → Core) (b : Nat) : (s.modCore id f).group? b = s.group? b := by simp [State.group?]

/-- The team of a key after an update that keeps the key. -/
theorem State.team_modTeam (s : State) (a b : Nat) (f : Team → Team) (h : ∀ x, (f x).tid = x.tid) :
    (s.modTeam a f).team? b = (s.team? b).map fun x => if b == a then f x else x := by
  unfold State.team? State.modTeam
  rw [find_modWhere _ _ _ _ fun x => by simp [h]]
  cases e : s.teams.find? fun x => x.tid == b with
  | none => rfl
  | some x =>
    have := List.find?_some e
    simp only [beq_iff_eq] at this
    simp [this]

@[simp] theorem State.team_modGroup (s : State) (gid : Nat) (f : Group → Group) (b : Nat) : (s.modGroup gid f).team? b = s.team? b := by simp [State.team?]
@[simp] theorem State.team_modGrid (s : State) (id : Nat) (f : Grid → Grid) (b : Nat) : (s.modGrid id f).team? b = s.team? b := by simp [State.team?]
@[simp] theorem State.team_modOp (s : State) (id : Nat) (f : Op → Op) (b : Nat) : (s.modOp id f).team? b = s.team? b := by simp [State.team?]
@[simp] theorem State.team_modPkg (s : State) (rank : Nat) (f : Pkg → Pkg) (b : Nat) : (s.modPkg rank f).team? b = s.team? b := by simp [State.team?]
@[simp] theorem State.team_modCtx (s : State) (rank id : Nat) (f : Ctx → Ctx) (b : Nat) : (s.modCtx rank id f).team? b = s.team? b := by simp [State.team?]
@[simp] theorem State.team_modSlice (s : State) (sl : SliceId) (f : Slice → Slice) (b : Nat) : (s.modSlice sl f).team? b = s.team? b := by simp [State.team?]
@[simp] theorem State.team_modNode (s : State) (n : NodeId) (f : Node → Node) (b : Nat) : (s.modNode n f).team? b = s.team? b := by simp [State.team?]
@[simp] theorem State.team_modPacket (s : State) (id : Nat) (f : Packet → Packet) (b : Nat) : (s.modPacket id f).team? b = s.team? b := by simp [State.team?]
@[simp] theorem State.team_owe (s : State) (ms : List Move) (b : Nat) : (s.owe ms).team? b = s.team? b := by simp [State.team?]
@[simp] theorem State.team_modCore (s : State) (id : CoreId) (f : Core → Core) (b : Nat) : (s.modCore id f).team? b = s.team? b := by simp [State.team?]

/-- The grid of a key after an update that keeps the key. -/
theorem State.grid_modGrid (s : State) (a b : Nat) (f : Grid → Grid) (h : ∀ x, (f x).id = x.id) :
    (s.modGrid a f).grid? b = (s.grid? b).map fun x => if b == a then f x else x := by
  unfold State.grid? State.modGrid
  rw [find_modWhere _ _ _ _ fun x => by simp [h]]
  cases e : s.grids.find? fun x => x.id == b with
  | none => rfl
  | some x =>
    have := List.find?_some e
    simp only [beq_iff_eq] at this
    simp [this]

@[simp] theorem State.grid_modGroup (s : State) (gid : Nat) (f : Group → Group) (b : Nat) : (s.modGroup gid f).grid? b = s.grid? b := by simp [State.grid?]
@[simp] theorem State.grid_modTeam (s : State) (tid : Nat) (f : Team → Team) (b : Nat) : (s.modTeam tid f).grid? b = s.grid? b := by simp [State.grid?]
@[simp] theorem State.grid_modOp (s : State) (id : Nat) (f : Op → Op) (b : Nat) : (s.modOp id f).grid? b = s.grid? b := by simp [State.grid?]
@[simp] theorem State.grid_modPkg (s : State) (rank : Nat) (f : Pkg → Pkg) (b : Nat) : (s.modPkg rank f).grid? b = s.grid? b := by simp [State.grid?]
@[simp] theorem State.grid_modCtx (s : State) (rank id : Nat) (f : Ctx → Ctx) (b : Nat) : (s.modCtx rank id f).grid? b = s.grid? b := by simp [State.grid?]
@[simp] theorem State.grid_modSlice (s : State) (sl : SliceId) (f : Slice → Slice) (b : Nat) : (s.modSlice sl f).grid? b = s.grid? b := by simp [State.grid?]
@[simp] theorem State.grid_modNode (s : State) (n : NodeId) (f : Node → Node) (b : Nat) : (s.modNode n f).grid? b = s.grid? b := by simp [State.grid?]
@[simp] theorem State.grid_modPacket (s : State) (id : Nat) (f : Packet → Packet) (b : Nat) : (s.modPacket id f).grid? b = s.grid? b := by simp [State.grid?]
@[simp] theorem State.grid_owe (s : State) (ms : List Move) (b : Nat) : (s.owe ms).grid? b = s.grid? b := by simp [State.grid?]
@[simp] theorem State.grid_modCore (s : State) (id : CoreId) (f : Core → Core) (b : Nat) : (s.modCore id f).grid? b = s.grid? b := by simp [State.grid?]

/-- The op of a key after an update that keeps the key. -/
theorem State.op_modOp (s : State) (a b : Nat) (f : Op → Op) (h : ∀ x, (f x).id = x.id) :
    (s.modOp a f).op? b = (s.op? b).map fun x => if b == a then f x else x := by
  unfold State.op? State.modOp
  rw [find_modWhere _ _ _ _ fun x => by simp [h]]
  cases e : s.ops.find? fun x => x.id == b with
  | none => rfl
  | some x =>
    have := List.find?_some e
    simp only [beq_iff_eq] at this
    simp [this]

@[simp] theorem State.op_modGroup (s : State) (gid : Nat) (f : Group → Group) (b : Nat) : (s.modGroup gid f).op? b = s.op? b := by simp [State.op?]
@[simp] theorem State.op_modTeam (s : State) (tid : Nat) (f : Team → Team) (b : Nat) : (s.modTeam tid f).op? b = s.op? b := by simp [State.op?]
@[simp] theorem State.op_modGrid (s : State) (id : Nat) (f : Grid → Grid) (b : Nat) : (s.modGrid id f).op? b = s.op? b := by simp [State.op?]
@[simp] theorem State.op_modPkg (s : State) (rank : Nat) (f : Pkg → Pkg) (b : Nat) : (s.modPkg rank f).op? b = s.op? b := by simp [State.op?]
@[simp] theorem State.op_modCtx (s : State) (rank id : Nat) (f : Ctx → Ctx) (b : Nat) : (s.modCtx rank id f).op? b = s.op? b := by simp [State.op?]
@[simp] theorem State.op_modSlice (s : State) (sl : SliceId) (f : Slice → Slice) (b : Nat) : (s.modSlice sl f).op? b = s.op? b := by simp [State.op?]
@[simp] theorem State.op_modNode (s : State) (n : NodeId) (f : Node → Node) (b : Nat) : (s.modNode n f).op? b = s.op? b := by simp [State.op?]
@[simp] theorem State.op_modPacket (s : State) (id : Nat) (f : Packet → Packet) (b : Nat) : (s.modPacket id f).op? b = s.op? b := by simp [State.op?]
@[simp] theorem State.op_owe (s : State) (ms : List Move) (b : Nat) : (s.owe ms).op? b = s.op? b := by simp [State.op?]
@[simp] theorem State.op_modCore (s : State) (id : CoreId) (f : Core → Core) (b : Nat) : (s.modCore id f).op? b = s.op? b := by simp [State.op?]

/-- The pkg of a key after an update that keeps the key. -/
theorem State.pkg_modPkg (s : State) (a b : Nat) (f : Pkg → Pkg) (h : ∀ x, (f x).rank = x.rank) :
    (s.modPkg a f).pkg? b = (s.pkg? b).map fun x => if b == a then f x else x := by
  unfold State.pkg? State.modPkg
  rw [find_modWhere _ _ _ _ fun x => by simp [h]]
  cases e : s.pkgs.find? fun x => x.rank == b with
  | none => rfl
  | some x =>
    have := List.find?_some e
    simp only [beq_iff_eq] at this
    simp [this]

@[simp] theorem State.pkg_modGroup (s : State) (gid : Nat) (f : Group → Group) (b : Nat) : (s.modGroup gid f).pkg? b = s.pkg? b := by simp [State.pkg?]
@[simp] theorem State.pkg_modTeam (s : State) (tid : Nat) (f : Team → Team) (b : Nat) : (s.modTeam tid f).pkg? b = s.pkg? b := by simp [State.pkg?]
@[simp] theorem State.pkg_modGrid (s : State) (id : Nat) (f : Grid → Grid) (b : Nat) : (s.modGrid id f).pkg? b = s.pkg? b := by simp [State.pkg?]
@[simp] theorem State.pkg_modOp (s : State) (id : Nat) (f : Op → Op) (b : Nat) : (s.modOp id f).pkg? b = s.pkg? b := by simp [State.pkg?]
@[simp] theorem State.pkg_modCtx (s : State) (rank id : Nat) (f : Ctx → Ctx) (b : Nat) : (s.modCtx rank id f).pkg? b = s.pkg? b := by simp [State.pkg?]
@[simp] theorem State.pkg_modNode (s : State) (n : NodeId) (f : Node → Node) (b : Nat) : (s.modNode n f).pkg? b = s.pkg? b := by simp [State.pkg?]
@[simp] theorem State.pkg_modPacket (s : State) (id : Nat) (f : Packet → Packet) (b : Nat) : (s.modPacket id f).pkg? b = s.pkg? b := by simp [State.pkg?]
@[simp] theorem State.pkg_owe (s : State) (ms : List Move) (b : Nat) : (s.owe ms).pkg? b = s.pkg? b := by simp [State.pkg?]
@[simp] theorem State.pkg_modCore (s : State) (id : CoreId) (f : Core → Core) (b : Nat) : (s.modCore id f).pkg? b = s.pkg? b := by simp [State.pkg?]

end Sys2Proof.Machine
end

