-- ==== Sys2Proof/Tests/Slice0.lean ====
section
/-! SUPPORT. Tests: ill-formed instructions that the check refuses, words written out from the encodings of the spec, and for
each statement with hypotheses a state that meets them. Their expected results come from the spec's tables. -/

set_option Elab.async false

namespace Sys2Proof

open Sys2Proof.Machine Sys2Proof.Safety

/-! ### Well-formedness and decoding -/

/-- One ill-formed instruction for each check of `Instr.wf`, which the check refuses: an odd register of a 64-bit icmp; an odd
pair of add64; an odd pair of lea; an odd pair of add64i; cvt of a format to itself; cvt between two narrow formats; cvt of l6
to an integer; cvt of an integer to l6; b of fabs; a group of three past v63; an index past the pack; a group of three past
v63 read; KB of umov; an odd pair of bcast; a q register past q3; A rows past v63; scales past v63; A rows of L6 past v63; A
rows of i8 past v63; A rows of bf16 past v63; A rows of f16 past v63; a ramp above 10; odd data of ldl.b64; odd data of
stl.b64; odd data of lds.b64; odd data of sts.b64; odd data of ldx.b64; odd data of stx.b64; data of lds.b128 not a multiple
of 4; of sts.b128; of ldx.b128; of stx.b128; odd data of cas; of casv; data of caspt; odd data of waitc; COND 5 of waitc;
SIGNED with eq; bit 16 of the literal of waitc; data of comb; bit 6 of the literal of comb; bit 12 of the literal of methreg;
a size with REMOVE; KA with REMOVE; k32 of srr; k32 of srw. -/
theorem test_wellFormed_refuses :
    ([.icmp .i64 .eq 0 1 2 ⟨false, 7⟩,
      .add64 .add 2 4 5 ⟨false, 7⟩,
      .lea 1 3 4 5 ⟨false, 7⟩,
      .add64i 2 5 1,
      .cvt .f32 .f32 .rne 1 2 ⟨false, 7⟩,
      .cvt .e4m3 .l6 .rne 1 2 ⟨false, 7⟩,
      .cvt .l6 .n32 .rne 1 2 ⟨false, 7⟩,
      .cvt .i32 .l6 .rne 1 2 ⟨false, 7⟩,
      .fsign .abs 1 2 3 ⟨false, 7⟩,
      .pack .l6 62 1 2 ⟨false, 7⟩,
      .unpk .bf16 2 1 2 ⟨false, 7⟩,
      .unpk .l6 0 1 62 ⟨false, 7⟩] ++
    [.ualu .umov 1 2 3 none,
      .bcast 1 3 true none ⟨false, 7⟩,
      .bart .q 4 1 none,
      .mmaE4m3 0 0 49 none false,
      .mmaE5m2 0 0 0 (some (60, 0)) false,
      .mmaL6 0 0 53 none false,
      .mmaI8 0 0 49 false,
      .mmaBf16 0 0 49 false,
      .mmaF16 0 0 49 false,
      .mramp 11 none,
      .ldlB64 1 ⟨0, false, 0, 7⟩,
      .stlB64 1 ⟨0, false, 0, 7⟩] ++
    [.ldsB64 1 ⟨0, false, 0, 7⟩,
      .stsB64 1 ⟨0, false, 0, 7⟩,
      .ldxB64 1 ⟨0, false, 0, 7⟩,
      .stxB64 1 ⟨0, false, 0, 7⟩,
      .ldsB128 2 ⟨0, false, 0, 7⟩,
      .stsB128 2 ⟨0, false, 0, 7⟩,
      .ldxB128 2 ⟨0, false, 0, 7⟩,
      .stxB128 2 ⟨0, false, 0, 7⟩,
      .cas 1 ⟨0, false, 0, 7⟩,
      .casv 1 ⟨0, false, 0, 7⟩,
      .caspt 2 ⟨0, false, 0, 7⟩,
      .waitc 1 ⟨0, false, 0, 7⟩ 0] ++
    [.waitc 0 ⟨0, false, 0, 7⟩ 5,
      .waitc 0 ⟨0, false, 0, 7⟩ 8,
      .waitc 0 ⟨0, false, 0, 7⟩ 0x10000,
      .comb 2 ⟨0, false, 0, 7⟩ 0,
      .comb 0 ⟨0, false, 0, 7⟩ 0x40,
      .methreg 0 0x1000 none,
      .methreg 0 0x840 none,
      .methreg 1 0x800 none,
      .srr 32 0 true,
      .srw 32 0 true] : List Instr).all (fun i => !i.wf) = true := by
  decide +kernel

/-- R47, R64, R98: opcode, d = 9, a = 33, b = 50, GN = 1, GP = 2, MOD. -/
theorem test_decode_integer :
    decode 0x01261CAA 0 = some (.iadd .satN 9 33 50 ⟨true, 2⟩) ∧
    decode 0x02261CA9 0 = some (.isub .satI 9 33 50 ⟨true, 2⟩) ∧
    decode 0x03261CAA 0 = some (.imul .hiN 9 33 50 ⟨true, 2⟩) ∧
    decode 0x04261CA9 0 = some (.imad .satI 9 33 50 ⟨true, 2⟩) ∧
    decode 0x05261CA9 0 = some (.iminmax .maxI 9 33 50 ⟨true, 2⟩) ∧
    decode 0x0626102A 0 = some (.iabs .absSat 9 33 ⟨true, 2⟩) ∧
    decode 0x07261CAB 0 = some (.logic .andn 9 33 50 ⟨true, 2⟩) ∧
    decode 0x0826102A 0 = some (.bitop .clz 9 33 ⟨true, 2⟩) ∧
    decode 0x09261CAB 0 = some (.shift .rotl 9 33 50 ⟨true, 2⟩) ∧
    decode 0x0A261CA9 0 = some (.bfe .int 9 33 50 ⟨true, 2⟩) ∧
    decode 0x0B261CA8 0 = some (.bfi 9 33 50 ⟨true, 2⟩) ∧
    decode 0x0C760CAB 0 = some (.icmp .n64 .le 5 32 50 ⟨true, 2⟩) ∧
    decode 0x0D261CA8 0 = some (.sel 9 33 50 ⟨true, 2⟩) ∧
    decode 0x0E220CEA 0 = some (.add64 .addSx 8 32 51 ⟨true, 2⟩) ∧
    decode 0x0F220CEB 0 = some (.lea 3 8 32 51 ⟨true, 2⟩) := by
  decide +kernel

/-- R49, R100: opcode, d = 9, a = 33, IMM12 = 0x805 or a count of 21. -/
theorem test_decode_immediate :
    decode 0x10261805 0 = some (.iaddi 9 33 0x805) ∧
    decode 0x11261805 0 = some (.imuli 9 33 0x805) ∧
    decode 0x12261805 0 = some (.andi 9 33 0x805) ∧
    decode 0x13261805 0 = some (.ori 9 33 0x805) ∧
    decode 0x14261805 0 = some (.xori 9 33 0x805) ∧
    decode 0x15261015 0 = some (.shli 9 33 21) ∧
    decode 0x16261015 0 = some (.shri 9 33 21) ∧
    decode 0x17261015 0 = some (.sari 9 33 21) ∧
    decode 0x189A1805 0 = some (.icmpiI32 .gt 6 33 0x805) ∧
    decode 0x19BA1805 0 = some (.icmpiN32 .ge 6 33 0x805) ∧
    decode 0x1A240805 0 = some (.movi 9 0x805) ∧
    decode 0x1B240000 0xDEADBEEF = some (.movl 9 0xDEADBEEF) ∧
    decode 0x1C220805 0 = some (.add64i 8 32 0x805) ∧
    decode 0x1D000030 0 = some (.enter 48) := by
  decide +kernel

/-- R47, R64, R103, R107 to R115: MOD is the rounding mode or the format. -/
theorem test_decode_float :
    decode 0x20261CAA 0 = some (.fadd .rup 9 33 50 ⟨true, 2⟩) ∧
    decode 0x21261CA9 0 = some (.fsub .rz 9 33 50 ⟨true, 2⟩) ∧
    decode 0x22261CAB 0 = some (.fmul .rdn 9 33 50 ⟨true, 2⟩) ∧
    decode 0x23261CA8 0 = some (.ffma .rne 9 33 50 ⟨true, 2⟩) ∧
    decode 0x24261CA9 0 = some (.fminmax .max 9 33 50 ⟨true, 2⟩) ∧
    decode 0x25F21CAA 0 = some (.fcmp .f16 .ord 4 33 50 ⟨true, 2⟩) ∧
    decode 0x26261CAA 0 = some (.fsign .copysign 9 33 50 ⟨true, 2⟩) ∧
    decode 0x28261CA8 0 = some (.padd2 .bf16 9 33 50 ⟨true, 2⟩) ∧
    decode 0x29261CA9 0 = some (.pmul2 .f16 9 33 50 ⟨true, 2⟩) ∧
    decode 0x2A261CA8 0 = some (.pfma2 .bf16 9 33 50 ⟨true, 2⟩) ∧
    decode 0x2B261CAA 0 = some (.pminmax2 .f16 .min 9 33 50 ⟨true, 2⟩) ∧
    decode 0x2C261CA9 0 = some (.hadd .f16 9 33 50 ⟨true, 2⟩) ∧
    decode 0x2D261CA8 0 = some (.hmul .bf16 9 33 50 ⟨true, 2⟩) ∧
    decode 0x2E261CA9 0 = some (.hfma .f16 9 33 50 ⟨true, 2⟩) := by
  decide +kernel

/-- R64, R65, R109 to R115: cvt names its source in b[11:9] and its destination in b[8:6]. -/
theorem test_decode_convert :
    decode 0x302615A9 0 = some (.cvt .f16 .i32 .rz 9 33 ⟨true, 2⟩) ∧
    decode 0x31261CAB 0 = some (.pack .bf16 9 33 50 ⟨true, 2⟩) ∧
    decode 0x3226136A 0 = some (.unpk .l6 13 9 33 ⟨true, 2⟩) ∧
    decode 0x3326102A 0 = some (.frnd .rup 9 33 ⟨true, 2⟩) ∧
    decode 0x3426136A 0 = some (.fspec .sin .accurate .f16 9 33 ⟨true, 2⟩) ∧
    decode 0x35240029 0 = some (.rand .f32 9 ⟨true, 2⟩) := by
  decide +kernel

/-- R64, R105, R106, R118, R126: plop names its function and its result in d. -/
theorem test_decode_predicate :
    decode 0x368431A8 0 = some (.plop .orn 1 3 6 ⟨true, 2⟩) ∧
    decode 0x37245028 0 = some (.pmovV 9 5 ⟨true, 2⟩) ∧
    decode 0x37161029 0 = some (.pmovP 5 33 ⟨true, 2⟩) ∧
    decode 0x3800001C 0 = some (.join) ∧
    decode 0x39A28000 0 = some (.rep 40 true false true) := by
  decide +kernel

/-- R63: br holds RCV in [23:6], the guard in [5:2] and the mode in [1:0], and its displacement in the literal. -/
theorem test_decode_control :
    decode 0x40FFFF6B 0x80000010 = some (.br 0x3FFFD ⟨true, 2⟩ .all 0x80000010) ∧
    decode 0x42000028 0x10 = some (.call ⟨true, 2⟩ 0x10) ∧
    decode 0x430541E0 0 = some (.callk 21 (some (true, 3))) ∧
    decode 0x4400001C 0 = some (.ret) ∧
    decode 0x45000028 0 = some (.exit ⟨true, 2⟩) := by
  decide +kernel

/-- R50, R64, R170 to R174: KD, KA, KB, QGE, QGN, QG, FUNC. -/
theorem test_decode_uniform :
    decode 0x504CB7EC 0 = some (.ualu .umaxN 9 18 27 (some (true, 3))) ∧
    decode 0x5114B7E9 0 = some (.ucmp .geN 2 18 27 (some (true, 3))) ∧
    decode 0x524801E2 0x5 = some (.umovl .hi 9 5 (some (true, 3))) ∧
    decode 0x534C81E0 0x5 = some (.uaddl 9 18 5 (some (true, 3))) ∧
    decode 0x540887E7 0 = some (.qlop .xnor 1 2 3 (some (true, 3))) := by
  decide +kernel

/-- R64, R163 to R169: bcast names its k register in d[4:0], its slot in b[9:6] and its width in b[10]. -/
theorem test_decode_combiner :
    decode 0x58261CAB 0 = some (.shfl .xor 9 33 50 ⟨true, 2⟩) ∧
    decode 0x5914602A 0 = some (.vote .eq 5 6 ⟨true, 2⟩) ∧
    decode 0x5A246028 0 = some (.ballot 9 6 ⟨true, 2⟩) ∧
    decode 0x5B26102A 0 = some (.redt .maxF 9 33 ⟨true, 2⟩) ∧
    decode 0x5C261029 0 = some (.scan .addI 9 33 ⟨true, 2⟩) ∧
    decode 0x5D4E06E8 0 = some (.bcast 19 32 true (some 11) ⟨true, 2⟩) ∧
    decode 0x5D4E1029 0 = some (.bcast 19 33 false none ⟨true, 2⟩) ∧
    decode 0x5E24002B 0 = some (.fragq .spill 9 ⟨true, 2⟩) := by
  decide +kernel

/-- R50, R175 to R180: the barrier number stands in KA, the tile register of tset in KD and of tget in KA. -/
theorem test_decode_team :
    decode 0x6004B7E0 0 = some (.barinit 18 27 (some (true, 3))) ∧
    decode 0x6104B7E1 0 = some (.barx true 18 27 (some (true, 3))) ∧
    decode 0x620481E0 0 = some (.bara 18 (some (true, 3))) ∧
    decode 0x630481E0 0 = some (.barw none 18 (some (true, 3))) ∧
    decode 0x634C81E1 0 = some (.barw (some 9) 18 (some (true, 3))) ∧
    decode 0x641C81E2 0 = some (.bart .take 3 18 (some (true, 3))) ∧
    decode 0x654C81E0 0 = some (.launch 9 18 (some (true, 3))) ∧
    decode 0x664C81E0 0 = some (.cwait 9 (some 18) (some (true, 3))) ∧
    decode 0x664801E1 0 = some (.cwait 9 none (some (true, 3))) ∧
    decode 0x674C81E1 0 = some (.acq .tile 9 18 (some (true, 3))) ∧
    decode 0x680481E0 0 = some (.rel .smem 18 (some (true, 3))) ∧
    decode 0x694CB7E0 0 = some (.tset 9 18 27 (some (true, 3))) ∧
    decode 0x6A4B01E1 0 = some (.tget 9 12 true (some (true, 3))) := by
  decide +kernel

/-- R52, R53, R186 to R197: MMA names Z, TB, VA, VS, SBYTE, REUSE and SCL; the moves name their z register in TD. -/
theorem test_decode_matrix :
    decode 0x7096A32B 0 = some (.mmaE4m3 9 6 40 (some (50, 2)) true) ∧
    decode 0x7196A000 0 = some (.mmaE5m2 9 6 40 none false) ∧
    decode 0x7296A32D 0 = some (.mmaL6 9 6 40 (some (50, 3)) false) ∧
    decode 0x7396A002 0 = some (.mmaI8 9 6 40 true) ∧
    decode 0x7496A000 0 = some (.mmaBf16 9 6 40 false) ∧
    decode 0x7596A002 0 = some (.mmaF16 9 6 40 true) ∧
    decode 0x76900AA0 0 = some (.mzero 9 (some 21)) ∧
    decode 0x77960AE0 0 = some (.mld 9 6 ⟨some 21, true⟩) ∧
    decode 0x78960AE0 0 = some (.mst 6 9 ⟨some 21, true⟩) ∧
    decode 0x7996CAFB 0 = some (.mdrain .e4m3 6 9 (some 12) true ⟨some 21, true⟩) ∧
    decode 0x7A0001EA 0 = some (.mramp 10 (some (true, 3))) := by
  decide +kernel

/-- R51, R234: DATA = 36, KBASE = 18, XI = 1, VIDX = 50, GP = 5, and the path of the opcode. -/
theorem test_decode_local :
    decode 0x80925C85 0 = some (.ldlB32 36 ⟨18, true, 50, 5⟩) ∧
    decode 0x81925C85 0 = some (.ldlB64 36 ⟨18, true, 50, 5⟩) ∧
    decode 0x82925C85 0 = some (.stlB32 36 ⟨18, true, 50, 5⟩) ∧
    decode 0x83925C85 0 = some (.stlB64 36 ⟨18, true, 50, 5⟩) ∧
    decode 0x84925C8D 0 = some (.ldsB32 36 ⟨18, true, 50, 5⟩) ∧
    decode 0x85925C8D 0 = some (.ldsB64 36 ⟨18, true, 50, 5⟩) ∧
    decode 0x86925C8D 0 = some (.ldsB128 36 ⟨18, true, 50, 5⟩) ∧
    decode 0x87925C8D 0 = some (.stsB32 36 ⟨18, true, 50, 5⟩) ∧
    decode 0x88925C8D 0 = some (.stsB64 36 ⟨18, true, 50, 5⟩) ∧
    decode 0x89925C8D 0 = some (.stsB128 36 ⟨18, true, 50, 5⟩) ∧
    decode 0x8A925C95 0 = some (.ldxB32 36 ⟨18, true, 50, 5⟩) ∧
    decode 0x8B925C95 0 = some (.ldxB64 36 ⟨18, true, 50, 5⟩) ∧
    decode 0x8C925C95 0 = some (.ldxB128 36 ⟨18, true, 50, 5⟩) ∧
    decode 0x8D925C95 0 = some (.stxB32 36 ⟨18, true, 50, 5⟩) ∧
    decode 0x8E925C95 0 = some (.stxB64 36 ⟨18, true, 50, 5⟩) ∧
    decode 0x8F925C95 0 = some (.stxB128 36 ⟨18, true, 50, 5⟩) := by
  decide +kernel

/-- R51, R234, R249 to R262: puts and gets on path 5, atomics, WAITC and COMB on path 6. -/
theorem test_decode_global :
    decode 0x91925CAD 0 = some (.put 36 ⟨18, true, 50, 5⟩) ∧
    decode 0x92925CAD 0 = some (.get 36 ⟨18, true, 50, 5⟩) ∧
    decode 0xA0925CB5 0 = some (.atomAddI32 36 ⟨18, true, 50, 5⟩) ∧
    decode 0xA1925CB5 0 = some (.atomAddF32 36 ⟨18, true, 50, 5⟩) ∧
    decode 0xA2925CB5 0 = some (.atomMinI32 36 ⟨18, true, 50, 5⟩) ∧
    decode 0xA3925CB5 0 = some (.atomMaxI32 36 ⟨18, true, 50, 5⟩) ∧
    decode 0xA4925CB5 0 = some (.atomMinN32 36 ⟨18, true, 50, 5⟩) ∧
    decode 0xA5925CB5 0 = some (.atomMaxN32 36 ⟨18, true, 50, 5⟩) ∧
    decode 0xA6925CB5 0 = some (.atomAnd 36 ⟨18, true, 50, 5⟩) ∧
    decode 0xA7925CB5 0 = some (.atomOr 36 ⟨18, true, 50, 5⟩) ∧
    decode 0xA8925CB5 0 = some (.atomXor 36 ⟨18, true, 50, 5⟩) ∧
    decode 0xA9925CB5 0 = some (.atomXchg 36 ⟨18, true, 50, 5⟩) ∧
    decode 0xAA925CB5 0 = some (.cas 36 ⟨18, true, 50, 5⟩) ∧
    decode 0xAB925CB5 0 = some (.casgt 36 ⟨18, true, 50, 5⟩) ∧
    decode 0xAC925CB5 0 = some (.casv 36 ⟨18, true, 50, 5⟩) ∧
    decode 0xAD925CB5 0 = some (.caspt 36 ⟨18, true, 50, 5⟩) ∧
    decode 0xAE925CB5 0xA5B = some (.waitc 36 ⟨18, true, 50, 5⟩ 0x0A5B) ∧
    decode 0xAF925CB5 0x3E = some (.comb 36 ⟨18, true, 50, 5⟩ 0x3E) := by
  decide +kernel

/-- R50, R251 to R255, R261: FENCE has its kind in FUNC[4:3] and its scope in FUNC[2:0]. -/
theorem test_decode_fences :
    decode 0x930481E5 0 = some (.waitp 5 18 (some (true, 3))) ∧
    decode 0x940001ED 0 = some (.fence .rel .package (some (true, 3))) ∧
    decode 0x950001E0 0 = some (.afence (some (true, 3))) ∧
    decode 0x9604B7E2 0 = some (.hflush .wbinv 18 27 (some (true, 3))) ∧
    decode 0x970001E0 0 = some (.dwfence (some (true, 3))) ∧
    decode 0x980481E0 0x3C5 = some (.methreg 18 0x3C5 (some (true, 3))) := by
  decide +kernel

/-- R52, R241, R370 to R389: the parameter register k[n] stands in [15:12]. -/
theorem test_decode_engines :
    decode 0x9096CAE7 0 = some (.cpy .outScatter 9 6 12 ⟨some 21, true⟩) ∧
    decode 0xB096CAE4 0 = some (.coll .alltoall 9 6 12 ⟨some 21, true⟩) ∧
    decode 0xB190CAA0 0 = some (.rotOpen 9 12 21) ∧
    decode 0xB106C041 0 = some (.rotRun 6 12 true) ∧
    decode 0xB100C002 0 = some (.rotClose 12) ∧
    decode 0xB296CAE0 0 = some (.xchg 9 6 12 ⟨some 21, true⟩) ∧
    decode 0xB300C000 0 = some (.bpri 12) ∧
    decode 0xB300C001 0 = some (.bpriGet 12) ∧
    decode 0xB406CAE0 0 = some (.rsto 6 12 ⟨some 21, true⟩) ∧
    decode 0xB596CAF9 0 = some (.upd .adam .m48 true 9 6 12 ⟨some 21, true⟩) ∧
    decode 0xB696CAE0 0 = some (.pairst 9 6 12 ⟨some 21, true⟩) ∧
    decode 0xB706CAE2 0 = some (.place .pin 6 12 ⟨some 21, true⟩) ∧
    decode 0xB8000001 0 = some (.pfence true) ∧
    decode 0xB900CAA0 0 = some (.step 12 (some 21)) ∧
    decode 0xBA00C000 0 = some (.snap 12 none) ∧
    decode 0xBB00C006 0 = some (.estat .snapshot 12) ∧
    decode 0xBC00C003 0 = some (.ewait .exchange 12) := by
  decide +kernel

/-- R54, R418 to R421: REG, INDEX12, RK; RINJ has its mask and TRAP its code in INDEX12; ENGS and ENGR name a k register. -/
theorem test_decode_system :
    decode 0xC0980800 0 = some (.srr 38 0x020 false) ∧
    decode 0xC1544020 0 = some (.srw 21 0x100 true) ∧
    decode 0xC202AF00 0 = some (.trap 0xABC) ∧
    decode 0xC3000000 0 = some (.reti) ∧
    decode 0xC4002940 0 = some (.rinj 0xA5) ∧
    decode 0xC5540020 0 = some (.engs 21) ∧
    decode 0xC6540020 0 = some (.engr 21) ∧
    decode 0xC7000000 0 = some (.idle) ∧
    decode 0xC8000000 0 = some (.halt) := by
  decide +kernel

/-- Words that R66 refuses: reserved MOD of iadd (R64); b of iabs not zero (R64); reserved condition of icmp (R64); reserved
MODE of br (R63); d of movl unused (R49); QG with QGE = 0 (R50); BAR with BCE = 0 (R52); PATH of lds not 1 (R51); reserved
FUNC of ualu (R64); reserved MODE bits of rep (R56); SCL of mma.i8 (R53); the all-zero word (R62); the all-one word (R62);
REG[5] of srr with RK = 1 (R54). -/
theorem test_decode_refuses :
    decode 0x01261CAB 0 = none ∧
    decode 0x06261068 0 = none ∧
    decode 0x0CC20C9C 0 = none ∧
    decode 0x4000001D 0 = none ∧
    decode 0x1B241000 0 = none ∧
    decode 0x50000020 0 = none ∧
    decode 0x77960A80 0 = none ∧
    decode 0x84924017 0 = none ∧
    decode 0x5008420E 0 = none ∧
    decode 0x39000001 0 = none ∧
    decode 0x73110001 0 = none ∧
    decode 0x00000000 0 = none ∧
    decode 0xFFFFFFFF 0 = none ∧
    decode 0xC0840820 0 = none := by
  decide +kernel


/-! ### A small state for the witnesses -/

/-- One group of context 0 that issues the word w: the machine of `State.withFetchWord`, at the issue of the word. -/
def demo (w : Nat) : State := { bootState State.reset w with who := some ⟨2, 0⟩ }

/-- Its fragment, its group, and the state with another group in its place. -/
def demoFrag : Frag := { Frag.at 0xFFFF (BitVec.ofNat 64 bootClause) 31 with hdr := some bootHeader }
def demoGroup : Group := bootGroup 0 1 2
def demoWith (g : Group) : State := { demo 0 with groups := [g] }

/-- The group with another fragment in entry 0, and with another thread in every slot. -/
def demoRun (f : Frag) : Group := demoGroup.setFrag 0 (some f)
def demoThreads (h : Thread → Thread) (g : Group) : Group := { g with threads := g.threads.map h }

theorem demo_issues (w : Nat) : Issues (demo w) ⟨2, 0⟩ demoGroup demoFrag := ⟨rfl, rfl, rfl⟩

theorem demo_issues_with {g : Group} {f : Frag} (h : g.gid = 2) (hf : g.frag 0 = some f) : Issues (demoWith g) ⟨2, 0⟩ g f :=
  ⟨rfl, by simp [demoWith, State.group?, h], hf⟩

theorem demo_ready (gd : Guard) (reads writes : List Nat) : Ready demoGroup demoFrag gd reads writes := by
  constructor <;> intro slot hs _ n _ <;> interval_cases slot <;> first | exact ⟨rfl, rfl⟩ | rfl

/-- The team, and the state with another group and team. -/
def demoTeam : Team := bootTeam 0 1 2
def demoSt (g : Group) (t : Team) : State := { demo 0 with groups := [g], teams := [t] }


/-- A descriptor of one plane: base, space, format, columns, rows and pitch (R179). -/
def demoTile (base space fmt cols rows pitch : Nat) : QWord :=
  BitVec.ofNat 128 (base + space * 2 ^ 57 + fmt * 2 ^ 60 + (cols - 1) * 2 ^ 64 + (rows - 1) * 2 ^ 78 + pitch * 2 ^ 100)

/-- The group with t0 to t3 set, and a team of 32 pages and two accumulator tiles. -/
def demoTiles (a b c d : QWord) : Group :=
  { demoGroup with t := (((demoGroup.t.setIfInBounds 0 a).setIfInBounds 1 b).setIfInBounds 2 c).setIfInBounds 3 d }
def demoHeld : Team := { demoTeam with holding := 32, tiles := 2 }
def demoCore (k : Core) (s : State) : State := { s with cores := [k] }

/-- What an address of context 0 translates to; and the state once the TLB holds its page. -/
def demoHit (s : State) (va : Nat) (acc : Access) : Option (State × Phys) :=
  match xlate s 0 0 0 va acc with
  | (u, .ok h) => some (u, h)
  | (_, .error _) => none
def demoTlb (s : State) (va : Nat) (acc : Access) : State := (xlate s 0 0 0 va acc).1

/-- An operation of the group, with one word of path 3 in flight. -/
def demoOp (form : OpForm) (st : OpSt) : Op :=
  { id := 3, rank := 0, die := 0, ctx := 0, core := bootCore, gid := 2, tid := 1, grid := 0, kind := form.kind, form := form, word := 0
    param := 0, td := demoTile 0 0 1 16 32 64, ta := demoTile 0x2000 2 1 16 32 64, tn := 0, kn := 4, bar := some 5, foe := false, level := 0
    seqno := 0, engine := 0, flight := 0, st := st, spans := [], preds := [], pidx := 0, chunks := [], told := [], status := 0, extra := 0
    src := none, pass := 0, nw := 0, nd := 0, applied := 0, dups := 0, errs := 0, results := [], tokens := [], filled := 0, bound := 0
    detached := false }
def demoOps (l : List Op) (s : State) : State := { s with ops := l, subj := 3 }

/-- The group with words in flight, with another fragment that waits, and the package of the state changed. -/
def demoFlying (l : List Flight) : Group := { demoGroup with flights := l, nextSeq := l.length }
def demoWaits (w : Wait) : Group := { demoGroup with frags := demoGroup.frags.setIfInBounds 1 (some { demoFrag with st := .blocked, wait := some w }) }
def demoPkg (h : Pkg → Pkg) (s : State) : State := s.modPkg 0 h
/-! ### Witnesses: the step, the registers and the thread words -/

/-- A lane with one group: nothing is due before its word, which is fetched and decodes. -/
theorem witness_StepRunsWords :
    let s := bootState State.reset 0x1B240000
    let v := clearWaits { s.tick with agenda := [], cur := some (.lane bootCore 0) } (.lane bootCore 0)
    let u := v.owe [.lane bootCore 0]
    s.tick.agenda = [.lane bootCore 0] ∧ laneLive v bootCore 0 = true ∧
      ((laneGroups u bootCore 0).find? fun g => g.trapDue && (!g.resident.isEmpty || g.spilled.isEmpty)) = none ∧
      ((laneGroups u bootCore 0).find? fun g => g.settleDue) = none ∧
      (pickOffer (offersOf u (laneGroups u bootCore 0))).map (fun o => (o.gid, o.entry)) = some (2, 0) ∧
      ((u.group? 2).map fun g => (g.reps.active, (g.frag 0).map fun f => f.hdr.isSome,
        match (fetchInstr u g (BitVec.ofNat 64 bootClause) 0 none).2 with
        | .ok (w, x) => decode w.toNat x.toNat
        | _ => none)) = some (false, some true, decode 0x1B240000 0) := by
  decide +kernel

/-- A word that completes lets its group go on; one that has not started leaves it. -/
theorem witness_OpportunityPasses :
    let t := advance (demo 0) ⟨2, 0⟩ 1
    ((t.group? 2).map fun h => (demoGroup.moved h, h.onScore 0)) = some (true, false) ∧
      (demo 0).who = some ⟨2, 0⟩ ∧ demoGroup.moved demoGroup = false := by
  decide +kernel

/-- An event and a subject step at the head of the agenda, and an empty agenda. -/
theorem witness_StepRunsEvents :
    { State.reset with agenda := [.event (.stepBoundary 0)] }.tick.agenda = [.event (.stepBoundary 0)] ∧
      { State.reset with agenda := [.subject .putAck 0] }.tick.agenda = [.subject .putAck 0] ∧ State.reset.tick.agenda = [] := by
  decide +kernel

/-- A word that decodes and is exact, and an unassigned opcode at each end of the table. -/
theorem witness_Decoding :
    decode 0x1D000030 0 = some (.enter 48) ∧ (0x1D000030 : Nat) < 2 ^ 32 ∧ (0xFF000000 : Nat) / 2 ^ 24 = 0xFF := by
  decide +kernel

/-- A group that issues with its registers ready, for any thread word: v63 as operand, v0 as result, in every slot. -/
theorem witness_ThreadWord (gd : Guard) : Issues (demo 0) ⟨2, 0⟩ demoGroup demoFrag ∧ Ready demoGroup demoFrag gd [63, 62] [0, 1] :=
  ⟨demo_issues 0, demo_ready gd _ _⟩

theorem witness_IntegerWords (gd : Guard) (d a b : VReg) : Issues (demo 0) ⟨2, 0⟩ demoGroup demoFrag ∧
    Ready demoGroup demoFrag gd [a.toNat, b.toNat] [d.toNat] ∧ Ready demoGroup demoFrag gd [a.toNat, b.toNat, d.toNat] [d.toNat] :=
  ⟨demo_issues 0, demo_ready gd _ _, demo_ready gd _ _⟩

theorem witness_ImmediateWords (d a : VReg) : Issues (demo 0) ⟨2, 0⟩ demoGroup demoFrag ∧
    Ready demoGroup demoFrag ⟨false, 7⟩ [a.toNat, a.toNat + 1] [d.toNat, d.toNat + 1] :=
  ⟨demo_issues 0, demo_ready _ _ _⟩

theorem witness_PredicateWords (gd : Guard) (a b : VReg) : Issues (demo 0) ⟨2, 0⟩ demoGroup demoFrag ∧
    Ready demoGroup demoFrag gd [a.toNat, a.toNat + 1, b.toNat, b.toNat + 1] [] :=
  ⟨demo_issues 0, demo_ready _ _ _⟩

/-- The least and the greatest frame, and the sizes beside them. -/
theorem witness_EnterWord : Issues (demo 0) ⟨2, 0⟩ demoGroup demoFrag ∧
    (∀ n : BitVec 12, n = 8 ∨ n = 64 → (n = 8 ∨ n = 16 ∨ n = 24 ∨ n = 32 ∨ n = 40 ∨ n = 48 ∨ n = 56 ∨ n = 64)) ∧
    ¬((7 : BitVec 12) = 8 ∨ (7 : BitVec 12) = 16) ∧ ¬((72 : BitVec 12) = 64) :=
  ⟨demo_issues 0, by intro n h; rcases h with h | h <;> simp [h], by decide, by decide⟩

theorem witness_RandWords (gd : Guard) (d : VReg) : demoGroup.wave = none ∧ Issues (demo 0) ⟨2, 0⟩ demoGroup demoFrag ∧
    Ready demoGroup demoFrag gd [] [d.toNat] :=
  ⟨rfl, demo_issues 0, demo_ready _ _ _⟩

/-- A rounding that is exact, one that is not, and one beyond the largest value. -/
theorem witness_RoundingIsCorrect :
    (toFmt .e4m3 .rne (.num false 1 0)).2.inexact = false ∧ (toFmt .e4m3 .rne (.num false 449 0)).2.ovfl = false ∧
      (toFmt .e4m3 .rne (.num false 449 0)).2.inexact = true ∧ (toFmt .e4m3 .rne (.num false 465 0)).2.ovfl = true ∧
      (toFmt .f16 .rne (.num true 65520 0)).2.ovfl = true := by
  decide +kernel

/-- Finite operands, a NaN, and a zero. -/
theorem witness_ArithmeticIsExact :
    (Val.num false 1 0).isNan = false ∧ (Val.num false 1 0).isInf = false ∧ (Val.nan true).isNan = true ∧
      (Val.num true 0 0).isZero = true ∧ (valOf .f32 0x3F800000).isNan = false ∧ (valOf .f32 0x7F800001).snan = true := by
  decide +kernel

/-- A floating-point word that raises nothing enabled: 0 + 0. -/
theorem witness_FloatResults : floatOp (.fadd .rne 0 1 2 ⟨false, 7⟩) ≠ none ∧ Issues (demo 0) ⟨2, 0⟩ demoGroup demoFrag ∧
    Ready demoGroup demoFrag ⟨false, 7⟩ [1, 2] [0] ∧
    ∀ slot, slot < 16 → runsIn demoGroup demoFrag ⟨false, 7⟩ slot = true →
      (faddF .f32 .rne (f32 (demoGroup.thread slot) 1) (f32 (demoGroup.thread slot) 2)).2.bits &&& demoGroup.arithen = 0 :=
  ⟨by simp [floatOp, toV], demo_issues 0, demo_ready _ _ _, by decide +kernel⟩

/-- Two infinities of opposite signs in every slot, with the condition invalid enabled. -/
theorem witness_ArithmeticTrap :
    let g := { demoThreads (fun t => (t.setV 1 0x7F800000).setV 2 0xFF800000) demoGroup with arithen := 1 }
    Issues (demoWith g) ⟨2, 0⟩ g demoFrag ∧
      (∃ slot, slot < 16 ∧ runsIn g demoFrag ⟨false, 7⟩ slot = true ∧ source demoFrag slot = slot ∧
        (faddF .f32 .rne (f32 (g.thread slot) 1) (f32 (g.thread slot) 2)).2.bits &&& g.arithen ≠ 0) :=
  ⟨demo_issues_with rfl rfl, 15, by decide +kernel⟩

/-- A guard that no slot meets: ?p0 with p0 clear, and ?!p7. -/
theorem witness_MaskedOff : guardOf (.iadd .wrap 0 1 2 ⟨false, 0⟩) = some ⟨false, 0⟩ ∧ Issues (demo 0) ⟨2, 0⟩ demoGroup demoFrag ∧
    demoGroup.wave = none ∧ ∀ slot, slot < 16 → runsIn demoGroup demoFrag ⟨false, 0⟩ slot = false :=
  ⟨rfl, demo_issues 0, rfl, by decide +kernel⟩

theorem witness_PredicateSeven : guardOf (.iadd .wrap 0 1 2 ⟨true, 7⟩) = some ⟨true, 7⟩ ∧
    Issues (demo 0) ⟨2, 0⟩ demoGroup demoFrag ∧ demoGroup.wave = none ∧ (6 : PReg) ≠ 7 :=
  ⟨rfl, demo_issues 0, rfl, by decide⟩

theorem witness_CombinerWords (gd : Guard) (a b d : VReg) : Issues (demo 0) ⟨2, 0⟩ demoGroup demoFrag ∧
    Ready demoGroup demoFrag gd [a.toNat, b.toNat] [d.toNat] ∧ demoGroup.kbusy.getLsbD 31 = false ∧
    ∃ i, i < 16 ∧ runsIn demoGroup demoFrag ⟨false, 7⟩ i = true :=
  ⟨demo_issues 0, demo_ready _ _ _, by decide, 15, by decide +kernel⟩

/-- Operands of every class that a step of a reduction tells apart. -/
theorem witness_ReductionOrder :
    (valOf .f32 0x3F800000).isNan = false ∧ (valOf .f32 0x3F800000).isInf = false ∧ (valOf .f32 0x7FC00000).isNan = true ∧
      (#v[some (1 : Word), none, some 2, none, none, none, none, none, none, none, none, none, none, none, none, none] :
        Vector (Option Word) 16).toList.filterMap id = 1 :: [2] := by
  decide +kernel

theorem witness_UniformWords : Issues (demo 0) ⟨2, 0⟩ demoGroup demoFrag ∧
    (∀ regs : List (Fin 32), demoGroup.ksBusy (regs.map (·.val)) = false) ∧ uniformOn demoGroup (some (true, 0)) = true ∧
    uniformOn demoGroup (some (false, 3)) = false :=
  ⟨demo_issues 0, by intro regs; simp [Group.ksBusy, demoGroup, bootGroup, newGroup], by decide +kernel, by decide +kernel⟩

/-! ### Witnesses: control, barriers and teams -/

/-- The last word of a clause, one before it, and repeats under way and over. -/
theorem witness_MovingOn :
    (demo 0).group? 2 = some demoGroup ∧ demoGroup.frag 0 = some demoFrag ∧ demoGroup.wave = none ∧ demoGroup.reps.active = false ∧
      demoFrag.word + 1 < demoFrag.count ∧ demoFrag.count ≤ { demoFrag with word := 14 }.word + 1 ∧ demoFrag.recx = 31 ∧
      demoGroup.spilled = [] ∧ { Reps.zero with active := true, remain := 1 }.remain ≠ 0 := by
  decide +kernel

/-- REP before movi: the word is fetched, decodes and passes the checks for 64 repeats of one register. -/
theorem witness_RepWord :
    let s := demo (0x39FC0000 + 0x1A000001 * 2 ^ 32)
    Issues s ⟨2, 0⟩ demoGroup demoFrag ∧ demoGroup.reps.active = false ∧ demoFrag.word + 1 < demoFrag.count ∧
      (match (fetchInstr s demoGroup demoFrag.clause 1 none).2 with
        | .ok (w, x) => (decodeRep w.toNat x.toNat).map fun i => (i, repOk i 64 true false false)
        | _ => none) = some (.movi 0 1, true) :=
  ⟨demo_issues _, rfl, by decide, by decide +kernel⟩
/-- REP before an unassigned word, before one whose field leaves the registers, and before an address that is not mapped. -/
theorem witness_RepRefuses :
    let words (s : State) (g : Group) (c : DWord) : Option (Option Instr) := match (fetchInstr s g c 1 none).2 with
      | .ok (w, x) => some (decodeRep w.toNat x.toNat)
      | _ => none
    words (demo (0x39FC0000 + 0xFF000000 * 2 ^ 32)) demoGroup demoFrag.clause = some none ∧
      words (demo (0x39FC0000 + 0x1A040001 * 2 ^ 32)) demoGroup demoFrag.clause = some (some (.movi 1 1)) ∧
      repOk (.movi 1 1) 64 true false false = false ∧
      (match (fetchInstr (demo 0) demoGroup 0x80000000 1 none).2 with
        | .fault _ _ => true
        | _ => false) = true := by
  decide +kernel

/-- The last repeat of a movi that writes v63, and of an iadd whose three registers step. -/
theorem witness_RepeatRunsSteppedWord :
    let g := { demoGroup with reps := { Reps.zero with active := true, index := 63, stepd := true } }
    let h := { demoGroup with reps := { Reps.zero with active := true, index := 61, stepd := true, stepa := true, stepb := true } }
    Issues { demoWith g with pkgs := (demo 0x1A000001).pkgs } ⟨2, 0⟩ g demoFrag ∧ g.wave = none ∧
      (match (fetchInstr (demo 0x1A000001) g demoFrag.clause 0 none).2 with
        | .ok (w, x) => (decodeRep w.toNat x.toNat).map fun i =>
          (i, decode (stepWord i w.toNat 63 true false false) x.toNat)
        | _ => none) = some (.movi 0 1, some (.movi 63 1)) ∧
      (0 : VReg).toNat + 63 < 64 ∧
      (match (fetchInstr (demo 0x0100105C) h demoFrag.clause 0 none).2 with
        | .ok (w, x) => (decodeRep w.toNat x.toNat).map fun i => (i, (decode (stepWord i w.toNat 61 true true true) x.toNat).isSome)
        | _ => none) = some (.iadd .wrap 0 1 1 ⟨false, 7⟩, true) :=
  ⟨⟨rfl, rfl, rfl⟩, rfl, by decide +kernel, by decide, by decide +kernel⟩

theorem witness_RepeatChecks : repOk (.iadd .wrap 0 63 1 ⟨false, 7⟩) 1 true true true = true ∧
    repOk (.iadd .wrap 0 63 1 ⟨false, 7⟩) 2 true true true = false := by
  decide

/-- Headers: a plain clause, one that waits for path 7, and one that fails a check, each with its body. -/
theorem witness_ClauseEntry :
    let at_ (h : Nat) : State := { demoWith (demoRun { demoFrag with hdr := none }) with
      pkgs := [bootPkg 0 (Pkg.reset 0)].map fun p => { p with hbm := p.hbm.write 256 0x10000 (bytesLE 4 h) } }
    let g := demoRun { demoFrag with hdr := none }
    let fault (h : Nat) : Option Nat := match fetchWord (at_ h) g bootClause with
      | (u, .ok w) => match (fetchBody u g (BitVec.ofNat 64 bootClause) (w.toNat % 16)).2 with
        | .ok body => some (clauseFault w body)
        | _ => none
      | _ => none
    fault 0x7F = some 0 ∧ fault 0x407F = some 0 ∧ fault 0x70 = some 1 ∧ g.path 7 = 0 ∧ g.wave = none ∧
      (at_ 0).team? g.tid = some demoTeam ∧ (demoTeam.bar 31).broken = false := by
  decide +kernel

/-- A branch that one thread takes, and the room for its split. -/
theorem witness_BranchTable :
    let g := { demoGroup with threads := demoGroup.threads.setIfInBounds 15 (Thread.zero.setP 0 true) }
    Issues (demoWith g) ⟨2, 0⟩ g demoFrag ∧ (∃ slot, slot < 16 ∧ runsIn g demoFrag ⟨false, 0⟩ slot = true) ∧
      (∃ slot, slot < 16 ∧ demoFrag.mask.getLsbD slot = true ∧ runsIn g demoFrag ⟨false, 0⟩ slot = false) ∧
      (∀ slot, slot < 16 → runsIn g demoFrag ⟨true, 7⟩ slot = false) ∧ g.wave = none ∧ g.freeEntry = some 1 ∧
      g.freeRec = some 0 ∧ g.spilled = [] ∧ demoFrag.clause + 64 ≠ demoFrag.clause + 4 :=
  ⟨demo_issues_with rfl rfl, ⟨15, by decide +kernel⟩, ⟨0, by decide +kernel⟩, by decide +kernel, rfl, by decide +kernel,
    by decide +kernel, rfl, by decide⟩

/-- Threads at the edges of R18: one that may call, and CDEPTH 8,191. -/
theorem witness_CallWord :
    let g := demoThreads (fun t => { t with cdepth := 8191 }) demoGroup
    Issues (demo 0) ⟨2, 0⟩ demoGroup demoFrag ∧ demoGroup.wave = none ∧ demoFrag.mask ≠ 0 ∧
      (∀ slot, slot < 16 → runsIn demoGroup demoFrag ⟨false, 7⟩ slot = true) ∧
      (∀ slot, slot < 16 → runsIn demoGroup demoFrag ⟨true, 7⟩ slot = false) ∧
      (∀ slot, slot < 16 → (demoGroup.thread slot).cdepth ≠ 8191 ∧
        (demoGroup.thread slot).wbase + (demoGroup.thread slot).frame + 64 ≤ 2 ^ 20 ∧ (demoGroup.thread slot).links.length < 8 ∧
        (demoGroup.thread slot).wbase + (demoGroup.thread slot).frame + 64 - (demoGroup.thread slot).rbase ≤ 128) ∧
      spillStuck (demo 0) demoGroup.core = false ∧ (∃ slot, slot < 16 ∧ (g.thread slot).cdepth = 8191) ∧
      uniformOn demoGroup none = true ∧ demoGroup.kbusy.getLsbD 31 = false ∧ (demoGroup.kr 31).toNat % 4 = 0 ∧
      canonical (demoGroup.kr 31) = true ∧ uniformOn demoGroup (some (false, 0)) = false :=
  ⟨demo_issues 0, rfl, by decide, by decide +kernel, by decide +kernel, by decide +kernel, by decide +kernel, ⟨15, by decide +kernel⟩,
    by decide +kernel, by decide +kernel, by decide +kernel, by decide +kernel, by decide +kernel⟩

/-- Threads that have called from one clause with frame 8, from two, and with CDEPTH 0. -/
theorem witness_RetWord :
    let link (a : Nat) : DWord := BitVec.ofNat 64 (a + 8 * 2 ^ 57)
    let called (a : Nat) (t : Thread) : Thread := { t with links := [link a], wbase := 8, cdepth := 1 }
    let g := demoThreads (called 0x20000) demoGroup
    let h := { g with threads := g.threads.setIfInBounds 15 (called 0x30000 Thread.zero) }
    Issues (demoWith g) ⟨2, 0⟩ g demoFrag ∧ Issues (demoWith h) ⟨2, 0⟩ h demoFrag ∧ g.wave = none ∧ demoFrag.mask ≠ 0 ∧
      spillStuck (demoWith g) g.core = false ∧
      (∀ slot, slot < 16 → (g.thread slot).cdepth ≠ 0 ∧ (g.thread slot).links ≠ [] ∧
        (g.thread slot).rbase ≤ (g.thread slot).wbase - 8 ∧
        sext57 (((g.thread slot).links.getLastD 0).toNat % 2 ^ 57) = (0x20000 : DWord)) ∧
      h.recs = Vector.replicate 16 none ∧ h.freeEntry = some 1 ∧
      sext57 (((h.thread 15).links.getLastD 0).toNat % 2 ^ 57) = (0x30000 : DWord) ∧ (demoGroup.thread 0).cdepth = 0 :=
  ⟨demo_issues_with rfl rfl, demo_issues_with rfl rfl, rfl, by decide, by decide +kernel, by decide +kernel, by decide +kernel,
    by decide +kernel, by decide +kernel, by decide +kernel⟩

/-- EXIT of no thread, of one, and of all. -/
theorem witness_ExitWord :
    let g := { demoGroup with threads := demoGroup.threads.setIfInBounds 15 (Thread.zero.setP 0 true) }
    Issues (demoWith g) ⟨2, 0⟩ g demoFrag ∧ g.wave = none ∧ (∀ i, g.rec? i = none) ∧ g.jmask = 0 ∧ g.spilled = [] ∧ g.srwq = [] ∧
      (∀ slot, slot < 16 → runsIn g demoFrag ⟨true, 7⟩ slot = false) ∧
      (∃ slot, slot < 16 ∧ runsIn g demoFrag ⟨false, 0⟩ slot = true) ∧
      (∃ slot, slot < 16 ∧ g.exited.getLsbD slot = false ∧ runsIn g demoFrag ⟨false, 0⟩ slot = false) ∧
      (∀ slot, slot < 16 → runsIn g demoFrag ⟨false, 7⟩ slot = true) :=
  ⟨demo_issues_with rfl rfl, rfl, by
      intro i
      simp [Group.rec?, demoGroup, bootGroup, newGroup, Vector.getElem?_replicate]
      split <;> rfl, rfl, rfl,
    rfl, by decide +kernel, ⟨15, by decide +kernel⟩, ⟨0, by decide +kernel⟩, by decide +kernel⟩

/-- A fragment of eight slots whose join register is empty, holds another address, or holds the other eight. -/
theorem witness_JoinWord :
    let f := { demoFrag with mask := 0x00FF }
    let g := demoRun f
    let a : DWord := BitVec.ofNat 64 (wordVa f.clause f.word % 2 ^ 57)
    Issues (demoWith g) ⟨2, 0⟩ g f ∧ g.wave = none ∧ g.completeRec = none ∧ g.spilled = [] ∧ g.jmask = 0 ∧
      (g.jmask ||| f.mask) ||| g.exited ≠ 0xFFFF ∧ ({ g with jmask := 0x0F00, jaddr := 4 } : Group).jaddr ≠ a ∧
      (0xFF00 ||| f.mask) ||| g.exited = 0xFFFF ∧ (∀ k, k ≠ 0 → g.frag k = none) ∧
      ((((List.range 16).map fun x => (g.thread x).cdepth).dedup).length ≤ 8) ∧ f.word + 1 < f.count ∧
      ({ f with word := 15 } : Frag).count ≤ ({ f with word := 15 } : Frag).word + 1 :=
  ⟨demo_issues_with rfl rfl, rfl, by decide +kernel, rfl, rfl, by decide, by decide, by decide,
    by
      intro k hk
      by_cases h : k < 8
      · interval_cases k <;> first | rfl | exact absurd rfl hk
      · simp only [Group.frag, demoRun, demoGroup, Group.setFrag]
        rw [Vector.getElem?_eq_none (by omega)]; rfl,
    by decide +kernel, by decide, by decide⟩

/-- Barriers at each row of the table: before and at its last arrival, at its bounds, and broken. -/
theorem witness_BarrierEvents :
    let b : Barrier := Barrier.new 2
    b.count ≤ b.target ∧ b.broken = false ∧ b.pend + (2 ^ 39 - 1 : Nat) ≤ 2 ^ 39 - 1 ∧ b.pend + (2 ^ 39 : Nat) > 2 ^ 39 - 1 ∧
      b.pend - (2 ^ 39 : Nat) ≥ -(2 ^ 39) ∧ b.count < b.target ∧ b.pend - (2 ^ 39 + 1 : Nat) < -(2 ^ 39) ∧ b.count + 1 < b.target ∧
      ({ b with count := 1 } : Barrier).count + 1 = b.target ∧ ({ b with count := 2, pend := 1 } : Barrier).pend - (1 : Nat) = 0 := by
  decide

theorem witness_BarrierWaiters :
    let g := demoRun { demoFrag with st := .blocked, wait := some (.barw none 31) }
    g.frag 0 = some { demoFrag with st := .blocked, wait := some (.barw none 31) } ∧ g.seen.getLsbD 31 ≠ true ∧
      ({ Barrier.new 1 with phase := true } : Barrier).phase ≠ (Barrier.new 1).phase ∧ (Barrier.new 1).broken = false := by
  decide +kernel

theorem witness_BarrierPhase : (Barrier.new 1).broken = false ∧ (Barrier.new 1).count = 0 ∧ (Barrier.new 1).pend = 0 ∧
    1 ≤ (Barrier.new 1).target ∧ 2 ^ 39 - 1 ≤ 2 ^ 39 - 1 ∧ [2 ^ 39 - 2, 1].sum = 2 ^ 39 - 1 := by
  decide

/-- The team of the group, its barrier, and a k register at each bound of a barrier's operand. -/
theorem witness_BarrierWords :
    Issues (demo 0) ⟨2, 0⟩ demoGroup demoFrag ∧ demoGroup.wave = none ∧ (demo 0).team? demoGroup.tid = some demoTeam ∧
      uniformOn demoGroup none = true ∧ demoGroup.kbusy.getLsbD 31 = false ∧ (demoGroup.kr 31).toNat = 0 ∧
      ((demoGroup.setK 31 1023).kr 31).toNat = 1023 ∧ ((demoGroup.setK 31 (2 ^ 39 - 1)).kr 31).toNat = 2 ^ 39 - 1 ∧
      (∀ x ∈ demoGroup.flights, x.done = true) ∧ (demoTeam.bar 31).broken = false ∧
      ((demoTeam.bar 31).phase != demoGroup.seen.getLsbD 31) = false ∧ -(2 ^ 39) ≤ (demoTeam.bar 31).pend :=
  ⟨demo_issues 0, rfl, by decide +kernel, by decide +kernel, by decide +kernel, by decide +kernel, by decide +kernel,
    by decide +kernel, by decide +kernel, by decide +kernel, by decide +kernel, by decide +kernel⟩

/-- A record in shared memory that passes every check of LAUNCH, by the leader of a team of one page. -/
theorem witness_LaunchWord :
    let rec64 : List Byte := bytesLE 8 0x20000 ++ bytesLE 8 7 ++ bytesLE 4 1 ++ bytesLE 4 1 ++ bytesLE 4 1 ++ bytesLE 4 0 ++ bytesLE 2 1 ++
      bytesLE 2 1 ++ bytesLE 1 1 ++ bytesLE 1 1 ++ bytesLE 1 0 ++ bytesLE 1 1 ++ bytesLE 20 0
    let tm : Team := { demoTeam with holding := 1, shared := Ram.empty.writeP 0 (sound rec64) }
    let num (o n : Nat) : Nat := tm.shared.bytes.num o n
    Issues (demoSt demoGroup tm) ⟨2, 0⟩ demoGroup demoFrag ∧ (demoSt demoGroup tm).team? demoGroup.tid = some tm ∧
      ((demoSt demoGroup tm).grid? demoGroup.grid).map (·.depth) = some 0 ∧ demoGroup.num = 0 ∧ (demoGroup.kr 0).toNat = 0 ∧
      (0 + 64 ≤ tm.holding * 4096) ∧ num 0 8 % 4 = 0 ∧ num 0 8 < 2 ^ 57 ∧ num 0x10 4 * num 0x14 4 * num 0x18 4 = 1 ∧
      num 0x1C 4 = 0 ∧ num 0x20 2 = 1 ∧ num 0x22 2 = 1 ∧ num 0x24 1 = 1 ∧ num 0x25 1 = 1 ∧ num 0x26 1 = 0 ∧ num 0x27 1 = 1 ∧
      num 0x28 1 = 0 ∧ num 0x29 1 = 0 ∧ num 0x2A 2 = 0 ∧ num 0x2C 4 = 0 ∧ num 0x38 8 = 0 ∧
      ((demoSt demoGroup tm).pkg? 0).map (fun p => p.children.length) = some 0 ∧ demoGroup.flights = [] :=
  ⟨⟨rfl, rfl, rfl⟩, by decide +kernel⟩

/-- A team without children, a handle never issued, and one whose child is there. -/
theorem witness_ChildWaitAndTileWords :
    Issues (demo 0) ⟨2, 0⟩ demoGroup demoFrag ∧ demoGroup.wave = none ∧ ((demo 0).pkg? 0).isSome = true ∧
      uniformOn demoGroup none = true ∧ demoGroup.kbusy.getLsbD 31 = false ∧ (∀ c ∈ (demo 0).grids, c.parent ≠ some demoGroup.tid) ∧
      ((demo 0).pkg? 0).map (fun p => p.childSeq.get 4095) = some none ∧
      ({ demo 0 with grids := [{ bootGrid 9 with parent := some 1 }] } : State).grids.any (fun c => c.parent == some demoGroup.tid) = true :=
  ⟨demo_issues 0, rfl, by decide +kernel⟩

/-- Nothing asked for, one page more than a core has, and one page of a holding of one given back. -/
theorem witness_ResourceWords :
    Issues (demoSt demoGroup { demoTeam with holding := 1 }) ⟨2, 0⟩ demoGroup demoFrag ∧ demoGroup.wave = none ∧
      (demoSt demoGroup { demoTeam with holding := 1 }).team? demoGroup.tid = some { demoTeam with holding := 1 } ∧
      (demoGroup.kr 31).toNat = 0 ∧ demoTeam.tiles ≤ 16 ∧ 128 < ({ demoTeam with holding := 1 } : Team).holding + 128 ∧
      relBusy (demoSt demoGroup { demoTeam with holding := 1 }) demoGroup { demoTeam with holding := 1 } .smem 1 = false :=
  ⟨⟨rfl, rfl, rfl⟩, by decide +kernel⟩

/-! ### Witnesses: system words and traps -/

theorem witness_SystemRead :
    Issues (demo 0) ⟨2, 0⟩ demoGroup demoFrag ∧ demoGroup.wave = none ∧ sysWidth 0xFFF = none ∧ sysWidth 0x020 = some 64 ∧
      sysWidth 0x000 = some 32 ∧ demoGroup.kbusy.getLsbD 31 = false ∧ (demo 0).team? demoGroup.tid = some demoTeam ∧
      (demo 0).grid? demoGroup.grid = some (bootGrid 0) ∧ (∀ slot, slot < 16 → demoGroup.vbusy slot 63 = false) :=
  ⟨demo_issues 0, rfl, by decide +kernel, by decide +kernel, by decide +kernel, by decide +kernel, by decide +kernel, by decide +kernel,
    by decide +kernel⟩

theorem witness_SystemWrite : Issues (demo 0) ⟨2, 0⟩ demoGroup demoFrag ∧ demoGroup.wave = none ∧ (31 : BitVec 6).toNat < 32 ∧
    demoGroup.kbusy.getLsbD 31 = false ∧ demoGroup.trap.tmode = false ∧ (0x1FF : BitVec 12).toNat ≤ 0x1FF ∧
    (4 : DWord).toNat % 4 = 0 ∧ (3 : DWord).toNat % 4 ≠ 0 :=
  ⟨demo_issues 0, rfl, by decide, by decide, rfl, by decide, by decide, by decide⟩

/-- A group outside trap mode, with nothing in flight, and its team and context; and one in trap mode. -/
theorem witness_TrapEntry : Issues (demo 0) ⟨2, 0⟩ demoGroup demoFrag ∧ demoGroup.wave = none ∧ demoGroup.trap.tmode = false ∧
    (demo 0).team? demoGroup.tid = some demoTeam ∧ (demo 0).ctx? demoGroup.rank demoGroup.ctx = some bootCtx ∧
    demoGroup.trap.raised = [] ∧ (∀ x ∈ demoGroup.flights, x.kind ≠ .load ∧ x.kind ≠ .get) ∧
    ({ demoGroup with trap := { demoGroup.trap with tmode := true } } : Group).trap.tmode = true :=
  ⟨demo_issues 0, rfl, by decide +kernel⟩

theorem witness_TrapWords : Issues (demo 0) ⟨2, 0⟩ demoGroup demoFrag ∧ demoGroup.trap.tmode = false ∧
    (let g := { demoGroup with trap := { demoGroup.trap with tmode := true, cls := 13 } }
     Issues (demoWith g) ⟨2, 0⟩ g demoFrag ∧ g.trap.tmode = true ∧ g.trap.cls ≠ 14 ∧ (∀ i, i < 16 → g.rec? i = none) ∧ g.jmask = 0 ∧
      g.spilled = []) :=
  ⟨demo_issues 0, rfl, demo_issues_with rfl rfl, rfl, by decide, by decide +kernel, rfl, rfl⟩

/-- A handler of all slots over a frozen table without records, and one of eight slots. -/
theorem witness_HandlerReturn :
    let z : Frozen := { frags := demoGroup.frags, recs := Vector.replicate 16 none, jaddr := 0, jmask := 0, jpc := JoinPc.zero, spilled := []
                        reps := Reps.zero, srwq := [], entry := 0 }
    let g := { demoGroup with trap := { demoGroup.trap with tmode := true, frozen := some z } }
    Issues (demoWith g) ⟨2, 0⟩ g demoFrag ∧ g.wave = none ∧ g.trap.tmode = true ∧ g.trap.frozen = some z ∧
      demoFrag.mask = ~~~g.exited ∧ ({ demoFrag with mask := 0x00FF } : Frag).mask ≠ ~~~g.exited ∧ g.spilled = [] ∧ g.jmask = 0 ∧
      g.srwq = [] ∧ (∀ e, e < 8 → g.trap.sel.getLsbD e = false) ∧ (demoWith g).team? g.tid = some demoTeam ∧
      demoTeam.st = .resident ∧ (∀ h ∈ (demoWith g).groups, h.tid = g.tid → h.stopped = false) :=
  ⟨demo_issues_with rfl rfl, rfl, rfl, rfl, by decide +kernel, by decide +kernel, rfl, rfl, rfl, by decide +kernel, by decide +kernel,
    by decide +kernel, by decide +kernel⟩
/-! ### Witnesses: the matrix engine -/

/-- Descriptors that an MMA of e4m3 and of bf16 takes, one with too few rows, and a fragment of eight slots. -/
theorem witness_MatrixMultiplyWords :
    let g := demoTiles (demoTile 0 0 4 16 64 16) (demoTile 256 0 2 256 32 512) (demoTile 0 0 4 16 16 16) 0
    Issues (demoSt g demoHeld) ⟨2, 0⟩ g demoFrag ∧ g.wave = none ∧ (demoSt g demoHeld).team? g.tid = some demoHeld ∧
      demoFrag.mask = 0xFFFF ∧ ({ demoFrag with mask := 0xFF } : Frag).mask ≠ 0xFFFF ∧ demoHeld.tiles ≤ (2 : XReg).toNat ∧
      (1 : XReg).toNat < demoHeld.tiles ∧
      (∀ q ∈ [(g.tr 0, 4, 64), (g.tr 1, 2, 32)], MatrixTile (tileOf q.1) demoHeld ∧ (tileOf q.1).fmt = q.2.1 ∧
        ((tileOf q.1).fmt = 6 → (tileOf q.1).cols % 16 = 0) ∧ (tileOf q.1).rows = q.2.2 ∧ (tileOf q.1).rowBytes ≤ (tileOf q.1).pitch) ∧
      (tileOf (g.tr 2)).rows ≠ 64 ∧ (∀ slot, slot < 16 → ∀ n, n < 64 → g.vbusy slot n = false) ∧
      FifoRoom (demoSt g demoHeld) g true := by
  refine ⟨⟨rfl, rfl, rfl⟩, rfl, by decide +kernel, by decide, by decide, by decide, by decide, ?_, by decide +kernel,
    by decide +kernel, by unfold FifoRoom; decide +kernel⟩
  unfold MatrixTile; decide +kernel

/-- Descriptors that MLD, MST and mdrain.f32 take, an AMX address that they take and one that is not aligned. -/
theorem witness_MatrixMoveWords :
    let g := demoTiles (demoTile 0 0 1 16 16 64) (demoTile 0 0 2 16 16 64) 0 0
    Issues (demoSt g demoHeld) ⟨2, 0⟩ g demoFrag ∧ g.wave = none ∧ (demoSt g demoHeld).team? g.tid = some demoHeld ∧
      demoHeld.tiles ≤ (2 : XReg).toNat ∧ (1 : XReg).toNat < demoHeld.tiles ∧ MatrixTile (tileOf (g.tr 0)) demoHeld ∧
      (tileOf (g.tr 0)).rows = 16 ∧ (tileOf (g.tr 0)).fmt ∈ [1, 9, 10] ∧ (tileOf (g.tr 1)).fmt ∈ [2] ∧
      ¬(tileOf (g.tr 1)).fmt ∈ [1, 9, 10] ∧ g.kbusy.getLsbD 3 = false ∧ (g.kr 3).toNat % 4 = 0 ∧ canonical (g.kr 3) = true ∧
      ((g.setK 3 2).kr 3).toNat % 4 ≠ 0 ∧ canonical ((g.setK 3 (2 ^ 63)).kr 3) = false ∧ uniformOn g none = true ∧
      FifoRoom (demoSt g demoHeld) g true ∧ FifoRoom (demoSt g demoHeld) g false := by
  refine ⟨⟨rfl, rfl, rfl⟩, rfl, by decide +kernel, by decide, by decide, by unfold MatrixTile; decide +kernel, by decide +kernel,
    by decide +kernel, by decide +kernel, by decide +kernel, by decide +kernel, by decide +kernel, by decide +kernel,
    by decide +kernel, by decide +kernel, rfl, by unfold FifoRoom; decide +kernel, by unfold FifoRoom; decide +kernel⟩

/-- An entry, and a core whose FIFO holds some. -/
def demoEntry (work : MWork) (phase : MPhase) : MEntry :=
  { id := 3, gid := 2, tid := 1, seq := 0, work := work, bar := none, foe := false, level := 0, spans := [], preds := [], phase := phase }
def demoFifo (l : List MEntry) : Core := { Core.empty bootCore with fifo := l }

/-- A posted entry behind none, behind a running one, and behind a predecessor in flight. -/
theorem witness_MatrixEntryStart :
    let e := demoEntry (.mzero 0) .posted
    let r := demoEntry (.mzero 0) (.running 4)
    let h := { e with preds := [9] }
    (∀ l ∈ [[e], [e, r], [h]], ((demoFifo l).fifo.find? fun e => e.phase == .posted).isSome = true) ∧
      (∀ x ∈ (demoFifo [e]).fifo, ∀ n, x.phase ≠ .running n) ∧ (∃ x ∈ (demoFifo [e, r]).fifo, ∃ n, x.phase = .running n) ∧
      inFlight (demoCore (demoFifo [h, { r with id := 9 }]) (demo 0)) 9 = true ∧
      (∀ p ∈ e.preds, inFlight (demoCore (demoFifo [e]) (demo 0)) p = false) := by
  refine ⟨by decide +kernel, ?_, ⟨_, List.mem_cons_of_mem _ (List.mem_singleton.2 rfl), 4, rfl⟩, by decide +kernel, by decide +kernel⟩
  intro x hx n; obtain rfl := List.mem_singleton.1 hx; exact nofun

/-- A core at each bound of its cycle: the start of a run and a place in it, a full window and one with room. -/
theorem witness_MatrixCycles :
    let k := demoFifo [demoEntry (.mzero 0) (.running 1)]
    (16 % 8 = 0 ∧ 17 % 8 ≠ 0) ∧ k.run ≤ 8 - k.rstep ∧ k.run < 8 - k.rstep ∧ k.busy + k.fill < k.active + 100 ∧
      ({ k with busy := 100 } : Core).busy + k.fill ≤ k.active + 100 ∧ k.fifo = [] ++ demoEntry (.mzero 0) (.running 1) :: [] := by
  decide +kernel

/-- For each kind of work, the oldest entry at its completion, with its descriptor's rows in place. -/
theorem witness_MatrixEntryComplete :
    let t1 := demoTile 0 0 1 16 16 64
    let b := demoTile 0 0 7 16 64 16
    ∀ w ∈ [MWork.mzero 0, .mld 0 t1, .mst t1 0, .mdrain .f32 t1 0 none true, .mdrain .f32 t1 0 (some 64) false,
        .mma .i8 0 b 3 (List.replicate 16 (List.replicate 16 0)) [] [] false false],
      let e := demoEntry w (.drained 0)
      let s := demoCore (demoFifo [e]) (demoSt demoGroup demoHeld)
      (s.core bootCore).fifo = [e] ∧ 0 ≤ s.cyc ∧ s.team? e.tid = some demoHeld ∧ s.group? e.gid = some demoGroup ∧
        demoGroup.tid = e.tid ∧ demoGroup.wave = none ∧ memoriesOk s = true ∧ (tileOf t1).rowBytes = 4 * (tileOf t1).cols ∧
        (tileOf t1).cols ≤ 256 ∧ (tileOf t1).rowBytes ≤ (tileOf t1).pitch ∧ (tileOf b).rowBytes = (tileOf b).cols ∧
        (tileOf b).cols ≤ 256 := by
  decide +kernel

/-- Chunks of each kind: with a NaN, infinities of one sign and of both, finite and not all zero, and all zero. -/
theorem witness_MatrixSums :
    (∃ p ∈ [Val.nan false, .num false 1 0], p.isNan = true) ∧ (Val.inf true ∈ [Val.inf true, .inf false]) ∧
      (∀ p ∈ [Val.inf true, .num false 1 0], p.isNan = false) ∧ Val.inf false ∉ [Val.inf true, .num false 1 0] ∧
      (∀ p ∈ [Val.num false 3 0, .num true 1 0], p.isNan = false ∧ p.isInf = false) ∧ ratOf (.num false 3 0) ≠ 0 ∧
      ratOf (.num false 0 0) = 0 ∧ (valOf .f32 0x7FC00000).isNan = true ∧ (valOf .f32 0x3F800000).isNan = false ∧
      (valOf .f32 0x3F800000).isInf = false := by
  refine ⟨by decide, by decide, by decide, by decide, by decide, ?_, ?_, by decide +kernel, by decide +kernel, by decide +kernel⟩ <;>
    simp [ratOf]

/-- A drain with AMX that has drained, whose address translates once the TLB holds its entry; windows that have and have not ended. -/
theorem witness_MatrixWindows :
    let e := demoEntry (.mdrain .f32 (demoTile 0 0 1 16 16 64) 0 (some 64) false) (.merging 7 0)
    let s := demoCore (demoFifo [e]) (demoSt demoGroup demoHeld)
    let u := demoTlb s 64 .atomic
    (s.core bootCore).fifo = [e] ∧ (u.core bootCore).fifo = [e] ∧
      ((demoHit u 64 .atomic).map fun x => ((wordAt x.1 x.2 0 64).2.2, (lineWrite (wordAt x.1 x.2 0 64).1 x.2 0 64 [(0, false)]).isSome)) =
        some (false, true) ∧ demoHit u (2 ^ 40) .atomic = none ∧
      (s.core bootCore).ended = false ∧ ({ demoFifo [e] with ended := true } : Core).lag = 0 ∧ (s.core bootCore).step ≤ 7 ∧
      (s.pkg? 0).isSome = true := by
  decide +kernel
/-! ### Witnesses: memory words -/

theorem witness_ByteOrder : (Mem.write [] 5 1).wf = true ∧ Mem.write (Mem.write [] 5 1) 5 0 = [] := by decide +kernel

/-- The address in k0, which is 0, at guard p7. -/
def demoAddr : MAddr := ⟨0, false, 0, 7⟩

theorem demo_memReady {a : Acc} (h : a.m = demoAddr) : MemReady demoGroup demoFrag a where
  regs := demo_ready _ _ _
  base := by rw [h]; decide +kernel
  fence := rfl
  acquire := by intro x hx; exact absurd hx (List.not_mem_nil)
  release := by intro _ x hx; exact absurd hx (List.not_mem_nil)
  numbers := by intro x hx; exact absurd hx (List.not_mem_nil)

theorem demo_addr {a : Acc} (h : a.m = demoAddr) (slot : Nat) : accAt demoGroup a slot = 0 := by
  simp only [accAt, MAddr.addr, h, demoAddr, Bool.false_eq_true, if_false]
  have : demoGroup.kr 0 = 0 := by decide +kernel
  simp [this]

theorem demo_inPlace {s : State} {a : Acc} (h : a.m = demoAddr) (ho : ¬outside s demoGroup a 0) :
    InPlace s demoGroup demoFrag a := by
  intro slot _
  rw [demo_addr h]
  exact ⟨ho, Nat.zero_mod _⟩

theorem demo_accessing {a : Acc} (h : a.m = demoAddr) : ∃ slot, accessing demoGroup demoFrag a slot = true :=
  ⟨15, by simp only [accessing, h]; decide +kernel⟩

/-- The same for a group whose k registers and words in flight differ, where none of those words writes a register. -/
theorem demo_memReady_with {a : Acc} {k : Vector DWord 32} {l : List Flight} (n : Nat) (h : a.m = demoAddr)
    (hl : ∀ x ∈ l, x.dstn = 0 ∧ x.path < 5 ∧ x.seq < n) :
    MemReady { demoGroup with k := k, flights := l, nextSeq := n } demoFrag a where
  regs := by
    have hv : ∀ slot m, ({ demoGroup with k := k, flights := l, nextSeq := n } : Group).vbusy slot m = false := by
      intro slot m
      simp only [Group.vbusy, List.any_eq_false]
      intro x hx
      simp [Flight.holds, (hl x hx).1]
    exact ⟨fun slot hs hr m hm => ⟨hv _ _, ((demo_ready _ [m] []).sources slot hs hr m (by simp)).2⟩, fun _ _ _ _ _ => hv _ _⟩
  base := by rw [h]; show demoGroup.kbusy.getLsbD _ = false; decide +kernel
  fence := rfl
  acquire := by intro x hx _ hp; have := (hl x hx).2.1; omega
  release := by intro _ x hx _ hp; have := (hl x hx).2.1; omega
  numbers := fun x hx => (hl x hx).2.2

/-- An LDS of eight bytes: none of its slots runs under p0; at k0 = 0 its first byte lies outside an empty holding, and inside one of
a page, where k0 = 4 is not aligned; path 1 may be full; a register may be poisoned; and a GET of an address that is not
mapped has no translation. -/
theorem witness_MemoryWordChecks :
    let a := lsAcc (.ldsB64 0 demoAddr) 1 .load 8 0 demoAddr
    let b := pgAcc (.get 0 demoAddr) .get 0 demoAddr
    let paged := demoSt demoGroup { demoTeam with holding := 1 }
    let off (k0 : DWord) : Group := { demoGroup with k := demoGroup.k.setIfInBounds 0 k0, flights := [], nextSeq := 0 }
    let full : Group := { demoGroup with k := demoGroup.k, flights := List.replicate 255 (Flight.plain 1 .store 0 0 0), nextSeq := 1 }
    accOf (.ldsB64 0 demoAddr) = some a ∧ accOf (.get 0 demoAddr) = some b ∧ Issues (demo 0) ⟨2, 0⟩ demoGroup demoFrag ∧
      Issues paged ⟨2, 0⟩ demoGroup demoFrag ∧ demoGroup.wave = none ∧
      (∀ slot, slot < 16 → runsIn demoGroup demoFrag ⟨false, 0⟩ slot = false) ∧ MemReady demoGroup demoFrag a ∧
      (accessing demoGroup demoFrag a 15 = true ∧ outside (demo 0) demoGroup a (accAt demoGroup a 15)) ∧
      InPlace paged demoGroup demoFrag a ∧ Issues (demoSt (off 4) { demoTeam with holding := 1 }) ⟨2, 0⟩ (off 4) demoFrag ∧
      MemReady (off 4) demoFrag a ∧ accessing (off 4) demoFrag a 0 = true ∧ (accAt (off 4) a 0).toNat % 8 = 4 ∧
      ¬outside (demoSt (off 4) { demoTeam with holding := 1 }) (off 4) a (accAt (off 4) a 0) ∧ MemReady full demoFrag a ∧
      full.path 1 = 255 ∧ MemReady (off (2 ^ 40)) demoFrag b ∧ InPlace (demo 0) (off (2 ^ 40)) demoFrag b ∧
      (match xlate (demo 0) 0 0 0 (2 ^ 40) .read with
        | (u, .error _) => decide (u = demo 0)
        | _ => false) = true ∧
      (∃ t : Thread, t.poisoned 0 = true) := by
  refine ⟨rfl, rfl, demo_issues 0, ⟨rfl, rfl, rfl⟩, rfl, by decide +kernel, demo_memReady rfl, ⟨by decide +kernel, ?_⟩,
    demo_inPlace rfl ?_, ⟨rfl, rfl, rfl⟩, demo_memReady_with 0 rfl (by simp), by decide +kernel, by decide +kernel, ?_,
    demo_memReady_with 1 rfl (by intro x hx; rw [List.eq_of_mem_replicate hx]; decide), by decide +kernel, demo_memReady_with 0 rfl (by simp),
    fun slot _ => ⟨not_false, ?_⟩, ?_, ⟨{ demoGroup.thread 0 with bad := [posOf ((demoGroup.thread 0).depth 0)] }, by decide +kernel⟩⟩
  · rw [demo_addr rfl]; show _ < _; decide +kernel
  · show ¬_ < _; decide +kernel
  · show ¬_ < _; decide +kernel
  · show (accAt _ _ _).toNat % 4 = 0
    simp only [accAt, MAddr.addr, pgAcc, demoAddr, Bool.false_eq_true, if_false]; decide +kernel
  · decide +kernel

/-- Loads and stores of 16 bytes in a holding of one page. -/
theorem witness_SharedMemoryWords :
    let s := demoSt demoGroup { demoTeam with holding := 1 }
    ∀ a ∈ [lsAcc (.ldsB128 0 demoAddr) 1 .load 16 0 demoAddr, lsAcc (.stsB128 0 demoAddr) 1 .store 16 0 demoAddr],
      a.path = 1 ∧ memoriesOk s = true ∧ Issues s ⟨2, 0⟩ demoGroup demoFrag ∧ demoGroup.wave = none ∧
        s.team? demoGroup.tid = some { demoTeam with holding := 1 } ∧ MemReady demoGroup demoFrag a ∧
        InPlace s demoGroup demoFrag a ∧ demoGroup.path 1 < 255 ∧ ∃ slot, accessing demoGroup demoFrag a slot = true := by
  intro s a ha
  rcases List.mem_pair.1 ha with rfl | rfl <;>
    exact ⟨rfl, by decide +kernel, ⟨rfl, rfl, rfl⟩, rfl, by decide +kernel, demo_memReady rfl,
      demo_inPlace rfl (by show ¬_ < _; decide +kernel), by decide +kernel, demo_accessing rfl⟩

/-- A segment of one page that the grid has on its die, with and without valid words, and both values of SPMODE.TRAP. -/
theorem witness_ScratchpadWords (trap : Bool) :
    let sg : Segment := { id := 4, rank := 0, die := 0, grid := 0, size := 4096, ram := Ram.empty, valid := Mem.write [] 1 1 }
    let gr := { bootGrid 0 with spTrap := trap }
    let s := { demo 0 with segs := [sg], grids := [gr] }
    sg.valid.read 0 = 0 ∧ sg.valid.read 1 = 1 ∧ ∀ a ∈ [lsAcc (.ldxB128 0 demoAddr) 2 .load 16 0 demoAddr, lsAcc (.stxB32 0 demoAddr) 2 .store 4 0 demoAddr],
      a.path = 2 ∧ memoriesOk s = true ∧ Issues s ⟨2, 0⟩ demoGroup demoFrag ∧ demoGroup.wave = none ∧
        segOf s demoGroup.rank demoGroup.core.die demoGroup.grid = some sg ∧ s.grid? (rootOf s demoGroup.grid) = some gr ∧
        MemReady demoGroup demoFrag a ∧ InPlace s demoGroup demoFrag a ∧ demoGroup.path 2 < 255 ∧ gr.spCount < 2 ^ 32 ∧
        ∃ slot, accessing demoGroup demoFrag a slot = true := by
  refine ⟨by decide +kernel, by decide +kernel, ?_⟩
  cases trap <;> intro a ha <;> rcases List.mem_pair.1 ha with rfl | rfl <;>
    exact ⟨rfl, by decide +kernel, ⟨rfl, rfl, rfl⟩, rfl, by decide +kernel, by decide +kernel, demo_memReady rfl,
      demo_inPlace rfl (by show ¬_ < _; decide +kernel), by decide +kernel, by decide +kernel, demo_accessing rfl⟩

/-- A spill buffer that holds the line of WSPB, clean or dirty, and an address whose page the TLB holds. -/
theorem witness_SpillStackWords :
    let l : SLine := { gid := 2, ctx := 0, va := 2 ^ 22, bytes := List.replicate 128 5, dirty := false, bad := [] }
    let s := demoTlb (demoCore { Core.empty bootCore with spill := [l] } (demo 0)) (2 ^ 22) .write
    demoGroup.wspb.toNat = 2 ^ 22 ∧ ∀ a ∈ [lsAcc (.ldlB64 0 demoAddr) 0 .load 8 0 demoAddr, lsAcc (.stlB64 0 demoAddr) 0 .store 8 0 demoAddr],
      a.path = 0 ∧ Issues s ⟨2, 0⟩ demoGroup demoFrag ∧ demoGroup.wave = none ∧ MemReady demoGroup demoFrag a ∧
        InPlace s demoGroup demoFrag a ∧ demoGroup.path 0 < 255 ∧ spillStuck s demoGroup.core = false ∧
        (∃ slot, accessing demoGroup demoFrag a slot = true) ∧
        (demoHit s (2 ^ 22) a.op.access).map (fun x => decide (x.1 = s)) = some true ∧ (2 ^ 22) % 128 + a.w ≤ 128 ∧
        ((s.core bootCore).spill.find? fun m => m.ctx == 0 && m.va == 2 ^ 22 / 128 * 128) = some l ∧ l.bytes.length = 128 := by
  refine ⟨by decide +kernel, ?_⟩
  intro a ha
  rcases List.mem_pair.1 ha with rfl | rfl <;>
    exact ⟨rfl, ⟨rfl, by decide +kernel, by decide +kernel⟩, rfl, demo_memReady rfl,
      demo_inPlace rfl (by show ¬(_ ∨ _); decide +kernel), by decide +kernel, by decide +kernel, demo_accessing rfl, by decide +kernel,
      by decide +kernel, by decide +kernel, by decide +kernel⟩

/-- Addresses in local memory, outside the host window, whose page the TLB holds; a fragment of one slot; a buffer without the
line, and one that holds it. -/
theorem witness_PutAndGetWords :
    let s := demoTlb (demo 0) 0 .write
    let l : WLine := { id := 7, dest := 0, ctx := 0, va := 0, bytes := [(9, 1)], last := [(2, 0)], since := 0 }
    (∀ a ∈ [pgAcc (.put 0 demoAddr) .put 0 demoAddr, pgAcc (.get 0 demoAddr) .get 0 demoAddr],
      a.path = 5 ∧ Issues s ⟨2, 0⟩ demoGroup demoFrag ∧ demoGroup.wave = none ∧ MemReady demoGroup demoFrag a ∧
        InPlace s demoGroup demoFrag a ∧ demoGroup.path 5 < 255 ∧ (∃ slot, accessing demoGroup demoFrag a slot = true) ∧
        (demoHit s 0 a.op.access).map (fun x => (decide (x.1 = s), inWindow x.2.tgt x.2.pa)) = some (true, false) ∧
        ∀ x ∈ demoGroup.flights, x.kind ≠ .get) ∧
      (∀ r, accessing (demoRun { demoFrag with mask := 1 }) { demoFrag with mask := 1 } (pgAcc (.put 0 demoAddr) .put 0 demoAddr) r = true →
        r = 0) ∧
      (s.core bootCore).wcb = [] ∧ ({ Core.empty bootCore with wcb := [l] } : Core).wcb.length < 64 ∧ l.bytes.length < 252 := by
  refine ⟨?_, ?_, by decide +kernel, by decide, by decide⟩
  · intro a ha
    rcases List.mem_pair.1 ha with rfl | rfl <;>
      exact ⟨rfl, ⟨rfl, by decide +kernel, by decide +kernel⟩, rfl, demo_memReady rfl, demo_inPlace rfl not_false, by decide +kernel,
        demo_accessing rfl, by decide +kernel, by decide +kernel⟩
  · intro r hr
    have h : r < 16 := by
      simp only [accessing, Bool.and_eq_true, decide_eq_true_eq] at hr; exact hr.1.1
    revert hr
    interval_cases r <;> decide +kernel

/-- Every path 6 word at an aligned address of local memory whose page the TLB holds, with empty queues. -/
theorem witness_AtomicRequests :
    let s := demoTlb (demo 0) 0 .atomic
    (∀ a ∈ [p6Acc (.atomAddI32 0 demoAddr) (.atom .addI32) 4 1 1 0 demoAddr, p6Acc (.casv 0 demoAddr) (.atom .casv) 8 2 2 0 demoAddr,
        p6Acc (.caspt 0 demoAddr) (.atom .caspt) 8 4 2 0 demoAddr, p6Acc (.waitc 0 demoAddr 8) (.waitc 8) 4 2 2 0 demoAddr,
        p6Acc (.comb 0 demoAddr 63) (.comb 63) 16 2 4 0 demoAddr],
      a.path = 6 ∧ Issues s ⟨2, 0⟩ demoGroup demoFrag ∧ demoGroup.wave = none ∧ MemReady demoGroup demoFrag a ∧
        InPlace s demoGroup demoFrag a ∧ demoGroup.path 6 < 255 ∧ (s.pkg? demoGroup.rank).isSome = true ∧
        (∃ slot, accessing demoGroup demoFrag a slot = true) ∧
        (demoHit s 0 a.op.access).map (fun x => (decide (x.1 = s), x.2.home)) = some (true, demoGroup.rank)) ∧
      (∀ n, (s.slice ⟨demoGroup.rank, n⟩).queue.length ≤ 496) ∧ ∀ x ∈ s.fab.reqs, x.req.gid ≠ demoGroup.gid := by
  refine ⟨?_, ?_, by decide +kernel⟩
  · intro a ha
    simp only [List.mem_cons, List.not_mem_nil, or_false] at ha
    rcases ha with rfl | rfl | rfl | rfl | rfl <;>
      exact ⟨rfl, ⟨rfl, by decide +kernel, by decide +kernel⟩, rfl, demo_memReady rfl, demo_inPlace rfl not_false, by decide +kernel,
        by decide +kernel, demo_accessing rfl, by decide +kernel⟩
  · intro n
    have h : ((demoTlb (demo 0) 0 .atomic).pkg? 0).map (fun p => p.slices) = some [] := by decide +kernel
    show ((((demoTlb (demo 0) 0 .atomic).pkg? 0).map fun p => p.slice n).getD Slice.empty).queue.length ≤ 496
    revert h
    cases (demoTlb (demo 0) 0 .atomic).pkg? 0 <;> intro h
    · simp at h
    · simp only [Option.map_some, Option.some.injEq] at h
      simp [Pkg.slice, h, AL.get, Slice.empty]

/-- One word of each path in place, with the addresses of its slots and their translations. -/
theorem witness_MemoryWordsComplete :
    let s := { demo 0 with teams := [{ demoTeam with holding := 1 }]
                           segs := [{ id := 4, rank := 0, die := 0, grid := 0, size := 4096, ram := Ram.empty, valid := [] }] }
    ∀ a ∈ [lsAcc (.ldlB64 0 demoAddr) 0 .load 8 0 demoAddr, lsAcc (.stsB128 0 demoAddr) 1 .store 16 0 demoAddr,
        lsAcc (.ldxB32 0 demoAddr) 2 .load 4 0 demoAddr, pgAcc (.put 0 demoAddr) .put 0 demoAddr,
        p6Acc (.comb 0 demoAddr 63) (.comb 63) 16 2 4 0 demoAddr],
      let x := accXlate s demoGroup a (List.replicate 16 0) ((List.range 16).filter (accessing demoGroup demoFrag a))
      Issues s ⟨2, 0⟩ demoGroup demoFrag ∧ demoGroup.wave = none ∧ MemReady demoGroup demoFrag a ∧
        InPlace s demoGroup demoFrag a ∧ demoGroup.path a.path < 255 ∧ (∃ slot, accessing demoGroup demoFrag a slot = true) ∧
        (∀ slot, slot < 16 → (List.replicate 16 (0 : DWord)).getD slot 0 = 0) ∧ (a.path ≠ 1 → a.path ≠ 2 → x.2.2 = []) ∧
        (a.path = 0 → spillStuck x.1 demoGroup.core = false) ∧ ∀ x ∈ demoGroup.flights, x.kind ≠ .get := by
  intro s a ha
  simp only [List.mem_cons, List.not_mem_nil, or_false] at ha
  rcases ha with rfl | rfl | rfl | rfl | rfl <;>
    exact ⟨⟨rfl, by decide +kernel, by decide +kernel⟩, rfl, demo_memReady rfl, demo_inPlace rfl (by first | exact not_false | (show ¬_ < _; decide +kernel) | (show ¬(_ ∨ _); decide +kernel)), by decide +kernel,
      demo_accessing rfl, by decide, by decide +kernel, by decide +kernel, by decide +kernel⟩
/-! ### Witnesses: waits, fences and asynchronous words -/

/-- No word in flight, a GET under way, and a fence under way; counts at and above the threshold 0; and a dirty line of the context,
alone in its place. -/
theorem witness_FenceWords :
    let fly := demoFlying [{ Flight.plain 5 .get 1 1 0 with seq := 0 }]
    let c : CLine := { ctx := 0, va := 512, tgt := 0, pa := 512, bytes := List.replicate 256 3, dirty := 4, bad := false, badw := [] }
    let s := demoPkg (fun p => { p with cache := [c] }) (demo 0)
    (∀ g ∈ [demoGroup, fly, demoWaits (.fence .full 0)], Issues (demoWith g) ⟨2, 0⟩ g demoFrag ∧ g.wave = none ∧ uniformOn g none = true ∧
      g.kbusy.getLsbD 31 = false) ∧
      (demoWaits (.fence .full 0)).fenced = true ∧ demoGroup.fenced = false ∧ fly.fenced = false ∧ demoGroup.path 7 ≤ (demoGroup.kr 31).toNat ∧
      (fly.kr 31).toNat < fly.path 5 ∧ fly.flights.any (fun x => !x.done && x.seq < fly.nextSeq && x.kind == .get) = true ∧
      demoGroup.flights = [] ∧ (s.pkg? 0).map (·.cache) = some [c] ∧ c.bytes.length = 256 ∧ memoriesOk s = true ∧
      (∀ n, n < 256 → inWindow 0 (c.pa + n) = false) := by
  refine ⟨fun g hg => ?_, by decide +kernel, by decide +kernel, by decide +kernel, by decide +kernel, by decide +kernel, by decide +kernel,
    by decide +kernel, by decide +kernel, by decide +kernel, by decide +kernel, by decide +kernel⟩
  simp only [List.mem_cons, List.not_mem_nil, or_false] at hg
  rcases hg with rfl | rfl | rfl <;> exact ⟨⟨rfl, by decide +kernel, by decide +kernel⟩, rfl, by decide +kernel, by decide +kernel⟩

/-- Lengths at each bound, an address that is not canonical, and a range with a byte of the group in its buffer and without. -/
theorem witness_FlushWord :
    let n (x : DWord) : Group := demoGroup.setK 31 x
    let l : WLine := { id := 7, dest := 0, ctx := 0, va := 256, bytes := [(9, 1)], last := [(2, 0)], since := 0 }
    (∀ x : DWord, x = 2 ^ 40 + 1 ∨ x = 2 ^ 40 ∨ x = 0 → Issues (demoWith (n x)) ⟨2, 0⟩ (n x) demoFrag) ∧ demoGroup.wave = none ∧
      uniformOn demoGroup none = true ∧ demoGroup.kbusy = 0 ∧ demoGroup.fenced = false ∧ 2 ^ 40 < ((n (2 ^ 40 + 1)).kr 31).toNat ∧
      ((n (2 ^ 40)).kr 31).toNat ≤ 2 ^ 40 ∧ 0 < ((n (2 ^ 40)).kr 31).toNat ∧ ((n 0).kr 31).toNat = 0 ∧
      canonical (demoGroup.kr 0) = true ∧ canonical (2 ^ 57) = false ∧
      rangePending (demoCore { Core.empty bootCore with wcb := [l] } (demo 0)) demoGroup 0 512 = true ∧
      rangePending (demo 0) demoGroup 0 512 = false := by
  refine ⟨?_, rfl, rfl, by decide +kernel, by decide +kernel, by decide +kernel, by decide +kernel, by decide +kernel, by decide +kernel,
    by decide +kernel, by decide +kernel, by decide +kernel, by decide +kernel⟩
  rintro x (rfl | rfl | rfl) <;> exact ⟨rfl, by decide +kernel, by decide +kernel⟩

/-- A grid of each kind, a path 6 word under way, one still entering a queue, and a method of 16 registers and of 0. -/
theorem witness_SliceFences :
    let fly := demoFlying [{ Flight.plain 6 .atomic 1 1 0 with seq := 0 }]
    let r : Req := { id := 5, gid := 2, seq := 0, slot := 0, ctx := 0, va := 0, home := 0, kind := .atom .addI32 [1], det := none, arr := 0 }
    let q := demoPkg (fun p => { p with slices := [(0, { Slice.empty with queue := [r] })] }) (demo 0)
    let w : SliceWait := { id := 9, gid := 2, ctx := 0, grid := 0, slices := [⟨0, 3⟩], method := 1, entry := none }
    Issues (demo 0) ⟨2, 0⟩ demoGroup demoFrag ∧ Issues (demoWith fly) ⟨2, 0⟩ fly demoFrag ∧ demoGroup.wave = none ∧
      uniformOn demoGroup none = true ∧ demoGroup.fenced = false ∧ ((demo 0).grid? 0).map (fun x => x.det) = some false ∧
      (State.grid? { demo 0 with grids := [{ bootGrid 0 with det := true }] } 0).map (fun x => x.det) = some true ∧
      fly.flights.any (fun y => !y.done && y.path == 6) = true ∧ entering q 2 = true ∧ entering (demo 0) 2 = false ∧
      demoGroup.kbusy.getLsbD 0 = false ∧ headerAddr (demoGroup.kr 0) = true ∧ (0x400 : Word).toNat / 2 ^ 6 % 2 ^ 5 = 16 ∧
      (0x000 : Word).toNat / 2 ^ 6 % 2 ^ 5 = 0 ∧ ([w].find? fun x => x.id == 9) = some w ∧
      ((demo 0).pkg? 0).isSome = true ∧ ((demo 0).slice ⟨0, 3⟩).windows.all (fun x => x.grid != w.grid) = true :=
  ⟨demo_issues 0, ⟨rfl, by decide +kernel, by decide +kernel⟩, rfl, by decide +kernel⟩

/-- Checks of asynchronous words that pass, that fail with OPERAND, and that find no translation. -/
theorem witness_EngineWords :
    let gt (s : State) : Chk := (snapCheck s demoGroup 0 0 0 0 (256 * 7)).2
    (engineOf (.step 31 none)).map (fun x => x.1) = some .step ∧ (checkOf (.step 31 none)).isSome = true ∧
      Issues (demo 0) ⟨2, 0⟩ demoGroup demoFrag ∧ demoGroup.wave = none ∧ demoGroup.kbusy.getLsbD 31 = false ∧
      ((demo 0).pkg? 0).map (·.gtBusy) = some false ∧ demoGroup.anyWait Wait.pfences = false ∧ demoGroup.fenced = false ∧
      (stepCheck (demo 0) demoGroup 0 0 0 0 0) = (demo 0, .ok []) ∧ (stepCheck (demo 0) demoGroup 0 0 0 0 1) = (demo 0, .bad causeOperand) ∧
      (match gt { demo 0 with ctxs := [{ bootCtx with gtbase := 2 ^ 40 }] } with
        | .xf _ => true
        | _ => false) = true ∧
      demoGroup.path 3 < 255 ∧ (unitEntries (demo 0) demoGroup.core).length < 64 ∧ (dieQueue (demo 0) 0 0).length < 1024 :=
  ⟨by decide +kernel, rfl, demo_issues 0, rfl, by decide +kernel, by decide +kernel, by decide +kernel, by decide +kernel, rfl, rfl,
    by decide +kernel, by decide +kernel, by decide +kernel, by decide +kernel⟩

/-- A parameter word at and beyond each bound. -/
theorem witness_EngineParameters :
    Issues (demo 0) ⟨2, 0⟩ demoGroup demoFrag ∧ demoGroup.wave = none ∧ demoGroup.kbusy.getLsbD 31 = false ∧
      ((demo 0).pkg? 0).map (·.gtBusy) = some false ∧ demoGroup.fenced = false ∧
      (∀ x : DWord, x = 2 ^ 22 ∨ x = 2 ^ 8 ∨ x = 2 ^ 13 ∨ x = 2 ^ 6 ∨ x = 2 ^ 40 ∨ x = 1 ∨ x = 2 ^ 20 ∨ x = 2 →
        Issues (demoWith (demoGroup.setK 31 x)) ⟨2, 0⟩ (demoGroup.setK 31 x) demoFrag) ∧
      canonical (2 ^ 57) = false ∧ (28 : BReg).toNat ≤ 28 ∧ (3 : Nat) ≤ (0 : BReg).toNat + 3 ∧
      (tileOf (demoTile 0 3 1 16 16 64)).space = 3 ∧ (tileOf (demoTile 0 0 11 16 16 64)).fmt = 11 ∧
      (tileOf (demoTile 0 2 1 16 16 64)).space = 2 ∧ (tileOf (demoTile 0 0 1 17 15 64)).cols ≠ 16 := by
  refine ⟨demo_issues 0, rfl, by decide +kernel, by decide +kernel, by decide +kernel, ?_, by decide +kernel, by decide, by decide,
    by decide +kernel, by decide +kernel, by decide +kernel, by decide +kernel⟩
  intro x hx
  exact demo_issues_with rfl rfl

/-- Thresholds at each bound, and a kind with an operation in flight. -/
theorem witness_EngineStatusWords :
    let busy := { demoGroup with eng := demoGroup.eng.setIfInBounds 5 ((demoGroup.summary 5).issue 0) }
    (∀ x : DWord, x = 255 ∨ x = 256 ∨ x = 65535 → Issues (demoWith (demoGroup.setK 31 x)) ⟨2, 0⟩ (demoGroup.setK 31 x) demoFrag) ∧
      Issues (demoWith busy) ⟨2, 0⟩ busy demoFrag ∧ demoGroup.wave = none ∧ demoGroup.kbusy.getLsbD 31 = false ∧
      (demoGroup.summary 5).flying.length ≤ (demoGroup.kr 31).toNat ∧ (busy.kr 31).toNat < (busy.summary 5).flying.length ∧
      (busy.kr 31).toNat < 65535 :=
  ⟨fun _ _ => demo_issues_with rfl rfl, demo_issues_with rfl rfl, rfl, by decide +kernel⟩

theorem witness_EngineSummary :
    let e : EngSum := { lastst := 0, any := false, flying := [(3, false), (4, true)] }
    e.flying = (3, false) :: (4, true) :: [] ∧ (3 : Nat) ≠ 4 ∧ ({ e with flying := [(3, false), (4, false)] } : EngSum).flying.tail = [(4, false)] := by
  decide

/-- A group with a PUT under way and one without; queues that are empty, that hold an entry, and one whose entry has drained. -/
theorem witness_PersistFence :
    let fly := demoFlying [{ Flight.plain 5 .put 1 1 0 with seq := 0 }]
    let e : Moraine := { id := 6, line := 0, bytes := [(0, 1)], tag := 0, pre := none, slot := 0, bad := false }
    let u : Unstriped := { id := 6, line := 0, pre := false, tag := 0, die := 3, acks := 2 }
    let p := demoPkg (fun p => { p with tier := { p.tier with moraine := p.tier.moraine.setIfInBounds 3 [e] } }) (demo 0)
    let q := demoPkg (fun p => { p with tier := { p.tier with unstriped := [u] } }) (demo 0)
    Issues (demo 0) ⟨2, 0⟩ demoGroup demoFrag ∧ Issues (demoWith fly) ⟨2, 0⟩ fly demoFrag ∧ demoGroup.wave = none ∧
      demoGroup.flights = [] ∧ fly.flights.any (fun x => !x.done && x.seq < fly.nextSeq && x.kind == .put) = true ∧
      ((demo 0).pkg? 0).map (fun p => (p.tier.moraine.toList, p.tier.unstriped)) = some ([[], [], [], []], []) ∧
      ((p.pkg? 0).map fun p => (p.tier.moraine[3]?.getD []).getLast?) = some (some e) ∧
      ((q.pkg? 0).map fun p => (p.tier.moraine[3]?.getD [], (p.tier.unstriped.filter fun x => x.die == 3).getLast?)) = some ([], some u) :=
  ⟨demo_issues 0, demo_issues_with rfl rfl, rfl, by decide +kernel⟩

/-- A handler whose k31 names a record area that it can write and read; and addresses that fail the check. -/
theorem witness_SerialWords :
    let g := { demoGroup with trap := { demoGroup.trap with tmode := true } }
    let s := demoTlb (demoWith g) 0 .write
    let rec128 : List Byte := 15 :: List.replicate 127 0
    Issues s ⟨2, 0⟩ g demoFrag ∧ g.wave = none ∧ g.trap.tmode = true ∧ g.kbusy.getLsbD 31 = false ∧ s.team? g.tid = some demoTeam ∧
      ((64 : DWord).toNat % 128 ≠ 0 ∧ canonical (2 ^ 57) = false) ∧ ((g.kr 31).toNat % 128 = 0 ∧ canonical (g.kr 31) = true) ∧
      demoTeam.doneRecs = [] ∧ s.ops = [] ∧
      (match gWrite s 0 0 0 0 (rec128.map fun b => (b, false)) with
        | (u, .ok ()) => (match gRead u 0 0 0 0 128 .read with
            | (_, .ok bs) => decide (bs.map (·.1) = rec128)
            | _ => false)
        | _ => false) = true :=
  ⟨⟨rfl, by decide +kernel, by decide +kernel⟩, by decide +kernel⟩
/-! ### Witnesses: engines, and the steps of a group -/

/-- An operation of each form that is ending, with a status and without. -/
theorem witness_EngineRecords : ∀ f ∈ [OpForm.cpy .in1d, .coll .bcast, .rotOpen, .rotRun, .rotClose, .xchg, .rsto, .upd .lamb .none false, .pairst],
    ∀ st ∈ [0, 3], let o := { demoOp f .ending with status := st }
      ∃ g, Ends (demoOps [o] (demo 0)) o g := by
  have h : ∀ f ∈ [OpForm.cpy .in1d, .coll .bcast, .rotOpen, .rotRun, .rotClose, .xchg, .rsto, .upd .lamb .none false, .pairst],
      ∀ st ∈ [0, 3], let o := { demoOp f .ending with status := st }
        (demoOps [o] (demo 0)).op? 3 = some o ∧ ((eventDone (demoOps [o] (demo 0)) o).group? 2).isSome = true ∧
          engineHolds (demoOps [o] (demo 0)) demoTeam 3 = false := by decide +kernel
  intro f hf st hs
  obtain ⟨h1, h2, h3⟩ := h f hf st hs
  refine ⟨_, h1, rfl, (Option.some_get h2).symm, fun tm ht => ?_⟩
  have ht : (demo 0).team? 1 = some tm := ht
  rw [show (demo 0).team? 1 = some demoTeam by decide +kernel, Option.some.injEq] at ht
  exact ht ▸ h3

/-- An engine with an operation that has a chunk to start, whose source the TLB holds; one that is held; and 32 chunks in flight. -/
theorem witness_ChunkStart :
    let o := demoOp (.cpy .in1d) .queued
    let h := { o with preds := [9] }
    let s := demoTlb (demoOps [o] (demoSt demoGroup demoHeld)) 0x2000 .read
    ((dieQueue s 0 0).filter fun o => o.engine == 0 && o.st == .queued && hasStart o) = [o] ∧
      (dieQueue (demo 0) 0 0 = []) ∧ (!engsWaits s o.tid && !opHeld s o && engineReady s o) = true ∧
      opHeld (demoOps [h, { demoOp .step .running with id := 9 }] (demo 0)) h = true ∧
      ({ o with chunks := List.replicate 32 ⟨0, .moving, []⟩ } : Op).chunks.length = 32 ∧ s.op? o.id = some o ∧
      (match engRead s o 0 0x2000 2048 with
        | (u, .ok bs) => decide (bs.length = 2048) && decide (farHomes u o 0 .read [(0x2000, 2048)] = [])
        | _ => false) = true ∧
      (match engRead s o 2 (2 ^ 40) 2048 with
        | (_, .fault _ _) => true
        | _ => false) = true := by
  decide +kernel

/-- A copy to shared memory whose lowest chunk is here: the only one, the last, and one before a failed one. -/
theorem witness_ChunkCommit :
    let c : OpChunk := ⟨0, .here, ((List.range 4).map (0 + ·)).zip [(1, false), (2, false), (3, true), (4, false)]⟩
    let o := { demoOp (.cpy .in1d) .running with chunks := [c, ⟨1, .failed 6, []⟩] }
    let s := demoOps [o] (demoSt demoGroup demoHeld)
    s.op? s.subj = some o ∧ o.st ≠ .withdrawn ∧ (tileOf o.td).space = 0 ∧ s.team? o.tid = some demoHeld ∧
      engineHolds s demoHeld o.id = false ∧ memoriesOk s = true ∧
      (tileOf o.td).rows * (tileOf o.td).planes * (tileOf o.td).rowBytes ≤ 4096 * (o.pidx + 1) ∧
      4096 * (0 + 1) < (tileOf (demoTile 0 0 1 64 32 256)).rows * (tileOf (demoTile 0 0 1 64 32 256)).rowBytes ∧
      o.chunks.tail.head?.map (·.st) = some (.failed 6) := by
  decide +kernel

/-- A chunk and a notice without a path for 1 ms; records of each engine; and a chunk parked at the record's address. -/
theorem witness_EngineFaults :
    let o := { demoOp (.cpy .in1d) .running with chunks := [⟨0, .parked 0x2000 false, []⟩, ⟨1, .parked 0x3000 true, []⟩] }
    let pk (c : Cargo) : Packet := { id := 8, src := 0, dest := 1, e2e := 0, body := .msg (some 3) [] c, age := 0, marked := false
                                     melt := false, plane := 0, stuck := some 0, place := none }
    let s := demoOps [o] (demo 0)
    let late := { s with cyc := 1000 * Config.usec, fab := { s.fab with packets := [pk (.chunk 3 1)] } }
    let r (e va : Nat) : FaultRec := { va := va, cause := 1, level := 1, wdrn := false, access := 0, engine := e, ctx := 0, optag := 3 }
    let p := demoPkg (fun p => p.modDie 0 fun d => { d with faults := [(0, r 0 0x2000), (1, r 7 0), (2, { r 0 0 with wdrn := true })] }) s
    s.op? s.subj = some o ∧ o.st ≠ .withdrawn ∧ s.fab.packets = [] ∧ (pk (.chunk 3 1)).op? = some o.id ∧
      (late.fab.packets.filter fun pk => pk.op? == some o.id && pk.stuck.isSome && pk.timedOut late.cyc).length = 1 ∧
      (pk (.chunk 3 1)).timedOut (1000 * Config.usec) = true ∧ (pk (.notice 3 1)).op? = some o.id ∧
      (∀ n ∈ [(0, 0), (1, 7), (2, 0)], (((p.pkg? 0).map fun p => p.die 0).bind fun d => (d.faults.get n.1)).map (·.engine) = some n.2) ∧
      p.ops.find? (fun o => o.rank == 0 && o.die == 0 && o.id % 2 ^ 32 == 3 && o.st != .withdrawn && o.parkedAt 0x2000) = some o ∧
      (o.chunks.find? fun c => c.parkedAt 0x2000) = o.chunks.head? ∧ (o.chunks.find? fun c => c.parkedAt 0x3000) ≠ o.chunks.head? ∧
      (o.chunks.find? fun c => c.parkedAt 0x4000) = none := by
  refine ⟨by decide +kernel, by decide, by decide +kernel, by decide, ?_, ?_, by decide, by decide +kernel, by decide +kernel, by decide,
    by decide, by decide⟩
  · simp [Packet.timedOut, Packet.op?, demoOp]
  · simp [Packet.timedOut]

/-- A die whose invalidation is under way, one without, and a translation that a job covers and one that it does not. -/
theorem witness_Invalidation :
    let x := (((demo 0).pkg? 0).map fun p => p.die 3).getD DieRegs.reset
    let j : TlbJob := ⟨false, 0, 1, 1⟩
    ((demo 0).pkg? 0).isSome = true ∧ (3 : Nat) < 4 ∧ x.tlbJob = none ∧ ({ x with tlbJob := some j } : DieRegs).tlbJob = some j ∧
      (5 : Nat).testBit 0 = true ∧ (4 : Nat).testBit 0 = false ∧ (4096 * j.iva < 8192 % 2 ^ 57 + 4096 ∧ 8191 % 2 ^ 57 < 4096 * (j.iva + j.isz)) ∧
      ¬4096 * (j.iva + j.isz) > 8192 := by
  decide +kernel

/-- A group with a pending event of a trap, of class 15 before it and without; a timer and a deadline that have been reached; and a
fragment that is idle. -/
theorem witness_GroupEvents :
    let ev (l : List (Nat × TrapD)) (b : BitVec 16) : Group := { demoGroup with trap := { demoGroup.trap with events := l, tpend := b } }
    let g := { ev [(11, ⟨0, 0, 0⟩), (15, ⟨1, 0, 0⟩)] 0x8800 with timer := 5, gtime := 5, deadline := 3 }
    let i := { demoFrag with st := .blocked, wait := some (.idle 0) }
    g.wave = none ∧ Machine.runs (demoWith g) g = true ∧ g.trap.tmode = false ∧ g.trap.raised = [] ∧ g.flights = [] ∧
      g.trap.tpend.getLsbD 15 = true ∧ (g.trap.events.find? fun x => x.1 == 15) = some (15, ⟨1, 0, 0⟩) ∧
      (ev [(11, ⟨0, 0, 0⟩)] 0x800).trap.tpend.getLsbD 15 = false ∧ (∀ b, 5 ≤ b → b < 11 → (ev [] 0x800).trap.tpend.getLsbD b = false) ∧
      g.described.isSome = true ∧ (ev [] 0).trap.nextEvent = none ∧ resident (demoWith g) g = true ∧ g.trap.faulted = false ∧
      g.timer ≠ 0 ∧ g.timer ≤ g.gtime ∧ g.deadline ≠ 0 ∧ g.deadline ≤ { demoWith g with cyc := 3 }.cyc ∧
      (demoRun i).frag 0 = some i ∧ 0 + 65536 ≤ { demoWith g with cyc := 65536 }.cyc := by
  refine ⟨rfl, by decide +kernel, rfl, by decide +kernel, by decide +kernel, by decide +kernel, by decide +kernel, by decide +kernel, ?_,
    by decide +kernel, by decide +kernel, by decide +kernel, by decide +kernel, by decide, by decide, by decide, by decide, rfl, by decide⟩
  intro b h1 h2
  interval_cases b <;> decide +kernel

/-- A fragment blocked on each kind of wait, met and not met. -/
theorem witness_BlockedWords :
    let f (w : Wait) : Frag := { demoFrag with st := .blocked, wait := some w }
    let fly := { demoFlying [{ Flight.plain 5 .get 1 1 0 with seq := 0 }] with frags := (demoRun (f (.fence .acq 1))).frags }
    (∀ w ∈ [Wait.woken, .idle 0, .waitp 5 0, .fence .full 1, .barw none 4, .barOver none 4 false, .scoreboard, .acq 3 4],
      (demoRun (f w)).frag 0 = some (f w) ∧ (f w).st = .blocked ∧ Machine.runs (demoWith (demoRun (f w))) (demoRun (f w)) = true ∧
        (demoWith (demoRun (f w))).group? 2 = some (demoRun (f w))) ∧
      demoGroup.path 5 ≤ 0 ∧ 0 < fly.path 5 ∧ fly.flights.any (fun x => !x.done && x.seq < 1 && x.kind == .get) = true ∧
      (demo 0).team? demoGroup.tid = some demoTeam ∧ (demoTeam.bar 4).broken = false ∧ (demoTeam.bar 4).phase = demoGroup.seen.getLsbD 4 ∧
      (demoTeam.bar 4).phase ≠ { demoGroup with seen := 0xFFFFFFFF }.seen.getLsbD 4 := by
  decide +kernel

/-- A fragment at a clause's end, with one record in the queue whose lines the spill buffer holds, before and at the 64th opportunity. -/
theorem witness_FragmentExchange :
    let f := { demoFrag with hdr := none }
    let g (n : Nat) : Group := { demoRun f with spilled := [⟨none, none, []⟩], sinceExch := n }
    let line (a : Nat) : SLine := { gid := 2, ctx := 0, va := a, bytes := List.replicate 128 0, dirty := false, bad := [] }
    let s := demoTlb (demoCore { Core.empty bootCore with spill := [line (2 ^ 22 - 2 ^ 20 - 128)] } (demoWith (g 64))) (2 ^ 22 - 2 ^ 20 - 64) .write
    s.group? 2 = some (g 64) ∧ (g 64).frag 0 = some f ∧ f.inClause = false ∧ demoFrag.inClause = true ∧ (g 63).sinceExch < 64 ∧
      64 ≤ (g 64).sinceExch ∧ ∀ k ∈ ([0, 1] : List Nat), let va : Int := (((g 64).wspb.toNat : Int) + (g 64).queueOff k) % 2 ^ 64
        va = 2 ^ 22 - 2 ^ 20 - 32 * (k + 1 : Nat) ∧
          (demoHit s va.toNat .read).map (fun x => decide (x.1 = s)) = some true ∧
          (demoHit s va.toNat .write).map (fun x => decide (x.1 = s)) = some true ∧ va.toNat % 128 + 32 ≤ 128 ∧
          ((s.core bootCore).spill.find? fun l => l.ctx == 0 && l.va == va.toNat / 128 * 128).map (·.bytes.length) = some 128 := by
  decide +kernel

/-- A request that the free resources cover, at the bound, and one that they do not. -/
theorem witness_AcqGrants :
    let a (n : Nat) : AcqReq := { id := 6, gid := 2, entry := 0, tid := 1, what := .smem, amount := n, kd := 4 }
    let f := { demoFrag with st := .blocked, wait := some (.acq 6 4) }
    let g := demoRun f
    let s (n : Nat) : State := demoCore { Core.empty bootCore with acqs := [a n] } (demoSt g { demoTeam with holding := 1 })
    (∀ n ∈ [0, 127, 128], ((s n).core bootCore).acqs = [a n] ∧ (s n).team? 1 = some { demoTeam with holding := 1 } ∧
      (s n).group? 2 = some g) ∧ ({ demoTeam with holding := 1 } : Team).holds = true ∧ g.frag 0 = some f ∧ f.wait = some (.acq 6 4) ∧
      (((s 0).teams.filter fun t => t.core == bootCore && t.holds).map (·.holding)).sum = 1 ∧ 1 + 127 ≤ 128 ∧ 128 < 1 + 128 := by
  decide +kernel
/-! ### Witnesses: grids, queues and links -/

/-- Host memory with these words, each of so many bytes, at their addresses. -/
def demoHost (l : List (Nat × Nat × Nat)) (s : State) : State :=
  { s with host := { s.host with mem := l.foldl (fun m x => m.writeP x.1 (sound (bytesLE x.2.1 x.2.2))) Ram.empty } }

/-- A grid all of whose teams are dealt: with a team left, with one that is gone, a child, and a host grid with its descriptor. -/
theorem witness_GridRetires :
    let gr (d : Option (Nat × Nat)) : Grid := { bootGrid 0 with started := true, nextTeam := 1, desc := d }
    let s (d : Option (Nat × Nat)) (st : TeamSt) : State := { demo 0 with grids := [gr d], teams := [{ demoTeam with st := st }], groups := [] }
    (∀ d ∈ [none, some (64, 256)], ∀ st ∈ [TeamSt.resident, .exited], (s d st).grid? 0 = some (gr d) ∧ (gr d).started = true ∧
      (gr d).nextTeam = (gr d).nx * (gr d).ny * (gr d).nz ∧ (s d st).ops = [] ∧ ((s d st).pkg? 0).isSome = true ∧ memoriesOk (s d st) = true ∧
      (∀ c ∈ (s d st).grids, c.parent ≠ some 1) ∧ accessLeft (s d st) [2] = false ∧ (s d st).host.mem.bytes.num (256 + 0x60) 8 = 0) ∧
      64 + 0x1C ≤ 256 ∧ (gr none).desc = none ∧ TeamSt.resident ≠ .exited := by
  decide +kernel

/-- A mapped queue, a waiting one, and one that is neither, with and without work. -/
theorem witness_QueueDoorbells :
    let q : Queue := { hdr := 64, ctx := 0, prio := 0, head := 0, next := 0, round := 0, served := 0, since := 0 }
    let p (h : Pkg → Pkg) : Option Pkg := (demoPkg h (demoHost [(64 + 0x1C, 4, 1)] (demo 0))).pkg? 0
    ((p fun p => { p with qslots := [(5, q)] }).map fun p => p.qslots.any fun e => e.2.hdr == 64) = some true ∧
      ((p fun p => { p with qwait := [q] }).map fun p => (p.qslots.any (fun e => e.2.hdr == 64), p.qwait.any fun q => q.hdr == 64)) =
        some (false, true) ∧
      ((p id).map fun p => ((p.queue? 64).map (·.head), p.qwait.length)) = some (none, 0) ∧
      ((demoHost [(64 + 0x1C, 4, 1)] (demo 0)).host.mem.bytes.num (64 + 0x1C) 4,
        (demoHost [(64 + 0x1C, 4, 1)] (demo 0)).host.mem.bytes.num (64 + 0x18) 4) = (1, 0) ∧ 71 / 64 * 64 = 64 := by
  decide +kernel

/-- One waiting queue, in a round that has been made and in the next. -/
theorem witness_QueueRounds :
    let q : Queue := { hdr := 64, ctx := 0, prio := 0, head := 0, next := 0, round := 0, served := 0, since := 0 }
    let s (c : Nat) : State := demoPkg (fun p => { p with qwait := [q] }) { demo 0 with cyc := c }
    ((s 0).pkg? 0).map (fun p => decide ((s 0).cyc / (20 * Config.usec) ≤ p.round)) = some true ∧
      ((s 20000).pkg? 0).map (fun p => (decide (p.round < (s 20000).cyc / (20 * Config.usec)), decide (p.qwait = [q]), decide (p.qslots.length < 4096))) =
        some (true, true, true) ∧ queueFenced (s 20000) 0 q = false := by
  decide +kernel

/-- A descriptor of a launch that is within every limit, of a WAIT, and one of an unknown type, in the one mapped queue. -/
theorem witness_GridDispatches :
    let q : Queue := { hdr := 64, ctx := 0, prio := 0, head := 0, next := 0, round := 1, served := 0, since := 0 }
    let d (t : Nat) : List (Nat × Nat × Nat) :=
      [(64, 8, 4096), (64 + 8, 4, 4), (64 + 0x0C, 1, 3), (64 + 0x1C, 4, 1), (4096, 1, t), (4096 + 8, 8, 0x20000), (4096 + 0x18, 4, 1),
        (4096 + 0x1C, 4, 1), (4096 + 0x20, 4, 1), (4096 + 0x26, 1, 1), (4096 + 0x27, 1, 1), (4096 + 0x28, 1, 1), (4096 + 0x29, 1, 1),
        (4096 + 0x2C, 1, 1)]
    let s (t : Nat) : State := demoPkg (fun p => { p with qslots := [(5, q)] }) (demoHost (d t) { demo 0 with grids := [], groups := [], teams := [] })
    let w (t o k : Nat) : Nat := (s t).host.mem.bytes.num (4096 + o) k
    (∀ t ∈ [1, 9], ((s t).pkg? 0).map (fun p => decide (p.qslots = [(5, q)])) = some true ∧ (s t).ctx? 0 0 = some bootCtx ∧
      (s t).grids = [] ∧ (s t).host.mem.bytes.num (64 + 0x1C) 4 = 1 ∧ (s t).host.mem.bytes.num (64 + 8) 4 = 4 ∧
      (s t).host.mem.bytes.num 64 8 = 4096 ∧ memoriesOk (s t) = true ∧ w t 0x60 8 = 0 ∧ segsFit (s t) 0 0 1 = true) ∧
      bootCtx.fenced = false ∧ w 1 0 1 = 1 ∧ w 9 0 1 = 9 ∧ w 1 8 8 % 4 = 0 ∧ w 1 8 8 < 2 ^ 57 ∧
      (∀ o ∈ [0x18, 0x1C, 0x20], w 1 o 4 = 1) ∧ (∀ o ∈ [0x26, 0x27, 0x28, 0x29, 0x2C], w 1 o 1 = 1) ∧
      (∀ o ∈ [0x24, 0x25, 0x2A, 0x2B, 0x2D], w 1 o 1 = 0) ∧ w 1 0x2E 2 = 0 ∧ w 1 0x30 4 = 0 ∧ w 1 0x34 4 = 0 ∧ w 1 1 1 = 0 ∧
      w 1 2 2 = 0 ∧ w 1 0x70 16 = 0 ∧ w 1 0x40 8 = 0 ∧ w 1 0x50 8 = 0 ∧ 66 * 2 ^ 20 ≤ bootCtx.spstride ∧ 1 ≤ bootCtx.spcount ∧ 64 + 0x1C ≤ 4096 := by
  decide +kernel

/-- One waiting team, in a context without other groups, and the first core of its rectangle. -/
theorem witness_TeamPlacement :
    let gr := { bootGrid 0 with started := true, nextTeam := 1, rows := 1, cols := 2 }
    let tm := { newTeam gr 1 0 0 with st := .waiting }
    let s := { demo 0 with grids := [gr], teams := [tm], groups := [] }
    placing s 0 0 = [(gr, tm)] ∧ tm.st = .waiting ∧ s.team? tm.tid = some tm ∧ s.grid? gr.id = some gr ∧ s.ctx? 0 0 = some bootCtx ∧
      s.groups = [] ∧ gr.groups ≤ bootCtx.spcount ∧
      ((List.range gr.rows).flatMap fun r => (List.range gr.cols).map fun k => (⟨gr.rank, tm.die, gr.row0 + r, gr.col0 + k⟩ : CoreId)) =
        [] ++ bootCore :: [⟨0, 0, 0, 1⟩] ∧ coreFits s bootCore gr.groups tm.holding tm.tiles = true := by
  decide +kernel

/-- A resident team of low priority on the only core of a team of higher priority, and the same while it stops. -/
theorem witness_Preemption :
    let hi := { bootGrid 9 with started := true, nextTeam := 1, priority := 1, smem := 128 }
    let lo := bootGrid 0
    let tm := { newTeam hi 7 0 0 with st := .waiting }
    let v := { demoTeam with holding := 128 }
    let s (v : Team) : State := { demo 0 with grids := [lo, hi], teams := [v, tm] }
    placing (s v) 0 0 = [(hi, tm)] ∧ (∀ e, e < 4 → e ≠ 0 → placing (s v) 0 e = []) ∧ firstCore (s v) hi tm = none ∧
      (s v).team? v.tid = some v ∧ (victims (s v) hi tm.die).map (·.2) = [v] ∧
      (∀ t ∈ (s v).teams, t.st ≠ .stopping ∧ t.st ≠ .saving) ∧
      ((s { v with st := .stopping }).teams.find? fun t => t.rank == 0 && (t.st == .stopping || t.st == .saving)) = some { v with st := .stopping } ∧
      (∀ d, d < 4 → placing (demo 0) 0 d = []) ∧
      { demoGroup with trap := { demoGroup.trap with tmode := true } }.stopped = false ∧ v.gids = [2] := by
  decide +kernel

/-- A link with a key in slot 0, of which h changes the rest; its state, and its package. -/
def demoLink (h : Link → Link) : Link :=
  h { Link.reset with tx := { KeyRegs.reset with slots := KeyRegs.reset.slots.setIfInBounds 0 ⟨2, 7, 9, 100⟩ }
                      rx := { KeyRegs.reset with slots := KeyRegs.reset.slots.setIfInBounds 0 ⟨2, 7, 9, 100⟩ } }
def demoWire (l : Link) : State := demoPkg (fun p => { p with links := [((3, true), l)] }) (demo 0)
def demoFlit : Flit :=
  { type := 0, kslot := 0, fseq := 0, ackseq := 65535, nak := false, credit := 0, cvc := false, key := 7, salt := 9, counter := 100
    payload := .idle, corrupt := false }

/-- Links that train, have no key, are full, resend, send, change their key, and have none left. -/
theorem witness_FlitSending :
    let l : LinkId := ⟨0, 3, true⟩
    let slot (k : Link) (i : Nat) : KeySlot := k.tx.slots[i]?.getD KeySlot.empty
    let loaded (c : Nat) (k : Link) : Link :=
      { k with tx := { k.tx with slots := (k.tx.slots.setIfInBounds 0 ⟨2, 7, 9, c⟩).setIfInBounds 1 ⟨1, 8, 9, 0⟩ } }
    let k := demoLink id
    (∀ h ∈ [k, Link.reset, demoLink (loaded (2 ^ 40 - 1))], (demoWire h).link l = h ∧ ((demoWire h).pkg? 0).isSome = true) ∧
      k.training = false ∧ k.tx.down = false ∧ k.resend = 0 ∧ k.unacked.length < 64 ∧ (slot k 0).st = 2 ∧ (slot k 1).st = 0 ∧
      (slot k 0).counter + 1 < k.tx.thr ∧ k.tx.thr < 2 ^ 40 ∧ (slot Link.reset 0).st ≠ 2 ∧
      64 ≤ { k with unacked := List.replicate 64 demoFlit }.unacked.length ∧
      { k with unacked := [demoFlit], resend := 1 }.unacked = [] ++ demoFlit :: [] ∧ (slot (loaded (2 ^ 40 - 1) k) 1).st = 1 ∧
      k.tx.thr ≤ (slot (loaded (2 ^ 40 - 1) k) 0).counter ∧ (slot (loaded (2 ^ 40 - 1) k) 0).counter < 2 ^ 40 ∧
      2 ^ 40 ≤ (slot (loaded (2 ^ 40 - 1) k) 0).counter + 1 ∧ { k with training := true }.training = true := by
  decide +kernel

/-- Flits that are expected and open: IDLE, at the threshold, DATA, MARKER; one that is not expected, within and outside a hold-off;
and one that does not open. -/
theorem witness_FlitReceiving :
    let l : LinkId := ⟨0, 3, true⟩
    let k (f : Flit) : Link := demoLink fun k => { k with wire := [f] }
    let slot (i : Nat) : KeySlot := (k demoFlit).rx.slots[i]?.getD KeySlot.empty
    (∀ f ∈ [demoFlit, { demoFlit with type := 1, payload := .data 8 }, { demoFlit with type := 2, payload := .marker 1 }],
      (demoWire (k f)).link l = k f ∧ (k f).wire = f :: [] ∧ f.fseq = (k f).expect ∧ f.type < 4 ∧ f.kslot < 2) ∧
      (slot 0).st = 2 ∧ (slot 0).key = demoFlit.key ∧ (slot 0).salt = demoFlit.salt ∧ (slot 0).counter = demoFlit.counter ∧
      (slot 1).st ≠ 2 ∧ (slot 0).counter + 1 < (k demoFlit).rx.thr ∧
      ({ slot 0 with counter := 0xFEFFFFFFFF } : KeySlot).counter + 1 = (k demoFlit).rx.thr ∧ (k demoFlit).rx.thrx = false ∧
      ((demoWire (k demoFlit)).link (otherWay l)).marker = none ∧ (demoFlit.ackseq + 2 ^ 16 - 65535) % 2 ^ 16 < 2 ^ 15 ∧
      { demoFlit with fseq := 1 }.fseq ≠ (k demoFlit).expect ∧ (k demoFlit).holdoff = none ∧
      { k demoFlit with holdoff := some 0 }.holdoff = some 0 ∧ { demoFlit with corrupt := true }.corrupt = true ∧
      { k demoFlit with fails := 2 }.fails = 2 ∧ ((demoWire (k demoFlit)).pkg? 0).isSome = true := by
  decide +kernel

/-- A NAK that begins a resend, one during it, and one with nothing left; a hold-off before and after 2 µs. -/
theorem witness_LinkReports :
    let k := demoLink fun k => { k with nakIn := some 65535, unacked := [demoFlit] }
    (demoWire k).link ⟨0, 3, true⟩ = k ∧ k.nakIn = some 65535 ∧ k.resending ≠ some ((65535 + 1) % 2 ^ 16) ∧
      (k.unacked.filter fun f => decide (2 ^ 15 ≤ (65535 + 2 ^ 16 - f.fseq) % 2 ^ 16)) = [demoFlit] ∧
      (k.unacked.filter fun f => decide (2 ^ 15 ≤ (0 + 2 ^ 16 - f.fseq) % 2 ^ 16)) = [] ∧
      { k with resending := some 0 }.resending = some ((65535 + 1) % 2 ^ 16) ∧ k.holdoff = none ∧ 0 + 2 * Config.usec ≤ 2000 ∧
      1999 < 0 + 2 * Config.usec := by
  decide +kernel

/-- A link with a loaded slot beside its LIVE one, at and below 2^40 flits, full and with room, in training and live. -/
theorem witness_LinkKeys :
    let l : LinkId := ⟨0, 3, true⟩
    let k := demoLink fun k => { k with tx := { k.tx with slots := k.tx.slots.setIfInBounds 1 ⟨1, 8, 9, 0⟩ } }
    (demoWire k).link l = k ∧ ((demoWire k).pkg? 0).isSome = true ∧ k.tx.slots[0]? = some ⟨2, 7, 9, 100⟩ ∧ k.tx.slots[1]? = some ⟨1, 8, 9, 0⟩ ∧
      (100 : Nat) < 2 ^ 40 ∧ k.training = false ∧ k.tx.down = false ∧ k.unacked.length < 64 ∧ k.resend = 0 ∧
      ((demoWire k).link (otherWay l)).rxMarker = none ∧ 100 + 1 < k.tx.thr ∧ { k with training := true }.training = true ∧
      64 ≤ { k with unacked := List.replicate 64 demoFlit }.unacked.length ∧ (Link.reset.tx.slots[0]?).map (·.st) ≠ some 1 ∧
      (Link.reset.tx.slots[1]?).map (·.st) ≠ some 1 ∧ l.out = true := by
  decide +kernel
/-! ### Witnesses: the fabric, start, trimming and loss -/

/-- A packet at a place; nodes with buffers; two packages with a link up in each direction on port 3. -/
def demoPacket (body : PktBody) (place : Option (NodeId × Nat)) : Packet :=
  { id := 8, src := 1, dest := 0, e2e := 5, body := body, age := 3, marked := false, melt := false, plane := 3, stuck := none, place := place }
def demoBuf (st : BufSt) (pkts : List Nat) (melt : Option Nat) : Buffer := { st := st, pkts := pkts, since := 0, moved := 0, melt := melt }
def demoNode (n : NodeId) (b : Buffer) (deflecting : Bool) (s : State) : State :=
  { s with fab := { s.fab with nodes := [(n, { bufs := [(0, b)], deflecting := deflecting, sram := true, stall := 0 })] } }
def demoNet (l : List Packet) (s : State) : State := { s with subj := 8, fab := { s.fab with packets := l } }

theorem witness_PortChoice : (Egress.room (demo 0) (.link ⟨0, 3, true⟩)).1 ≠ 0 := by
  have : ((demo 0).link ⟨0, 3, true⟩).used = 0 := by decide +kernel
  simp [Egress.room, this, bufSize]

/-- A packet at the head of its buffer and behind it; at a node without ports, on a link, and at a deflecting switch. -/
theorem witness_PacketHops :
    let pk := demoPacket (.req 4) (some (.col1 3 0, 0))
    let s (b : List Nat) (d : Bool) : State := demoNode (.col1 3 0) (demoBuf .normal b none) d (demoNet [pk] (demo 0))
    (∀ b ∈ [[8], [7, 8]], ∀ d ∈ [true, false], (s b d).packet? (s b d).subj = some pk ∧ ((s b d).node (.col1 3 0)).deflecting = d ∧
      (((s b d).node (.col1 3 0)).buf 0).pkts = b ∧ switchTakes (s b d) (.col1 3 0) pk = none) ∧
      pk.melt = false ∧ [8].head? = some pk.id ∧ [7, 8].head? ≠ some pk.id ∧ feedOf (.col1 3 0) 0 = some ⟨0, 3, true⟩ := by
  decide +kernel

/-- A packet at its destination, new and as a second copy, with each body; and one at another package. -/
theorem witness_PacketDelivers :
    let fly := demoFlying [{ Flight.plain 6 .atomic 1 1 0 with seq := 0, got := List.replicate 16 .pending }]
    let s (r : Nat) (b : PktBody) (seen : List Nat) : State :=
      let u := demoNet [demoPacket b (some (.port r 3, 0))] (demoWith fly)
      { u with fab := { u.fab with delivered := [((1, 0), seen)] } }
    (∀ r ∈ [0, 2], ∀ b ∈ [PktBody.req 4, .xfer 4, .msg none [] (.moves []), .msg none [2] (.moves []), .msg none [] (.reply 2 0 15 .poison)],
      (s r b [5]).packet? 8 = some (demoPacket b (some (.port r 3, 0))) ∧ (s r b [5]).fab.delivered.get (1, 0) = some [5] ∧
        (s r b []).fab.delivered.get (1, 0) = some []) ∧
      (demoPacket (.req 4) none).dest = 0 ∧ (2 : Nat) ≠ 0 ∧ (demoWith fly).group? 2 = some fly ∧
      fly.flights.all (fun f => f.seq == 0 && decide (15 < f.got.length)) = true := by
  decide +kernel

/-- A buffer that has not moved, at and before 20 µs; the token at a node with a suspect buffer and without, in a ring of two. -/
theorem witness_ThawToken :
    let n : NodeId := .port 0 3
    let s (st : BufSt) (c : Nat) : State :=
      let u := demoNode n (demoBuf st [8] none) false { demo 0 with cyc := c }
      { u with fab := { u.fab with token := some n, ring := [n, .col2 0 0] } }
    (∀ st ∈ [BufSt.normal, .suspect], ((s st 0).node n).buf 0 = demoBuf st [8] none ∧ (s st 0).fab.token = some n ∧
      (s st 0).fab.ring[0]? = some n ∧ (s st 0).fab.ring[(0 + 1) % (s st 0).fab.ring.length]? = some (.col2 0 0) ∧
      (((s st 0).node n).bufs.map (·.1)).Nodup) ∧
      (demoBuf .normal [8] none).since + 20 * Config.usec ≤ (s .normal 20000).cyc ∧ (s .normal 19999).cyc < 0 + 20 * Config.usec ∧
      (((s .suspect 0).node n).bufs.any fun x => x.2.st == .suspect) = true ∧ (((s .normal 0).node n).bufs.any fun x => x.2.st == .suspect) = false ∧
      (s .normal 0).fab.seen + 10000 * Config.usec ≤ (s .normal 10000000).cyc ∧ (s .normal 0).cyc < (s .normal 0).fab.seen + 10000 * Config.usec := by
  decide +kernel

/-- A packet in the slot, one marked in a thawing buffer, a slot downstream that is taken and one that is free, and a buffer without marked
packets at and before 100 µs. -/
theorem witness_MeltwaterLane :
    let n : NodeId := .col2 3 0
    let pk := { demoPacket (.req 4) (some (n, 0)) with marked := true }
    let s (b : Buffer) (pk : Packet) : State := demoNode n b false (demoNet [pk] (demo 0))
    let b := demoBuf .thawing [8] none
    linePlace (s b pk) pk = none ∧ (s b pk).packet? 8 = some pk ∧ pk.place = some (n, 0) ∧ ((s b pk).node n).buf 0 = b ∧
      b.pkts = [] ++ pk.id :: [] ∧ pk.marked = true ∧ ((s (demoBuf .normal [] (some 8)) { pk with melt := true }).node n).buf 0 = demoBuf .normal [] (some 8) ∧
      switchTakes (s (demoBuf .normal [] (some 8)) { pk with melt := true }) n { pk with melt := true } = none ∧
      (((demoNode (.col1 3 0) (demoBuf .normal [] (some 9)) false (demo 0)).node (.col1 3 0)).buf 0).melt = some 9 ∧ (demoBuf .normal [] none).melt = none ∧ { pk with marked := false }.marked = false ∧
      b.moved + 100 * Config.usec ≤ 100000 ∧ 99999 < b.moved + 100 * Config.usec := by
  decide +kernel

/-- A level 1 switch that deflects, at and before 1 ms. -/
theorem witness_Deflection :
    let n : NodeId := .col1 0 2
    ((demoNode n (demoBuf .normal [] none) true (demo 0)).node n).deflecting = true ∧ ((demo 0).node n).deflecting = false ∧
      ((demoNode n (demoBuf .normal [] none) true (demo 0)).node n).stall + 1000 * Config.usec ≤ 1000000 ∧
      999999 < ((demoNode n (demoBuf .normal [] none) true (demo 0)).node n).stall + 1000 * Config.usec := by
  decide +kernel

/-- The state with its package's start registers changed. -/
def demoStart (h : Start → Start) : State := demoPkg (fun p => { p with start := h p.start }) (demo 0)

theorem witness_SupplyLost : ((demo 0).pkg? 0).map (fun p => p.start.powered) = some true ∧ (demo 0).pkg? 7 = none ∧
    (State.pkg? (demoStart fun x => { x with powered := false }) 0).map (fun p => p.start.powered) = some false := by
  decide +kernel

theorem witness_StartSequence : ((demo 0).pkg? 0).isSome = true ∧ (demo 0).pkg? 7 = none ∧
    ((demoStart fun x => { x with log := [] }).pkg? 0).map (fun p => (decide (p.start.log.get 1 = none), p.start.powered)) = some (true, true) := by
  decide +kernel

/-- A package at step 13 that no other shares, with a rank that is free and one that is taken; and one at step 12. -/
theorem witness_DomainJoined :
    let s (rank : Nat) : State :=
      let u := demoStart fun x => { x with step := 13, fail := false, powered := true, joined := false, rank := rank }
      { u with pkgs := u.pkgs ++ [{ Pkg.reset 1 with start := { (Pkg.reset 1).start with step := 12 } }] }
    (∀ r ∈ [0, 1, 5], ((s r).pkg? 0).map (fun p => (p.start.step, p.start.fail, p.start.powered, p.start.rank)) = some (13, false, true, r) ∧
      (∀ q ∈ (s r).pkgs, q.rank ≠ 0 → ¬(q.start.step = 13 ∧ q.start.joined = true))) ∧
      ((s 5).pkgs.any fun q => q.rank == 5 && q.rank != 0) = false ∧ ((s 1).pkgs.any fun q => q.rank == 1 && q.rank != 0) = true ∧
      ((s 0).pkg? 1).map (·.start.step) = some 12 := by
  decide +kernel

/-- A range inside the tier and one beyond it, a tracking tier, and an entry of a queue inside the range. -/
theorem witness_TierTrim :
    let x := (((demo 0).pkg? 0).map fun p => p.start).getD (Pkg.reset 0).start
    let e : Moraine := { id := 6, line := 8192, bytes := [(0, 1)], tag := 0, pre := none, slot := 0, bad := false }
    ((demo 0).pkg? 0).isSome = true ∧ x.trimBusy = false ∧ { x with trimBusy := true }.trimBusy = true ∧
      ((demo 0).pkg? 0).map (fun p => p.tier.track) = some false ∧
      { x with trimaddr := 2 ^ 42 - 4096, trimlen := 1 }.trimaddr + 4096 * 1 ≤ 2 ^ 42 ∧ 2 ^ 42 < 2 ^ 42 + 4096 * 1 ∧
      (8192 / 4096 ≤ e.line / 4096 ∧ e.line / 4096 < 8192 / 4096 + 1) ∧ e.pre = none ∧
      ((demo 0).pkg? 0).map (fun p => p.tier.moraine.toList) = some [[], [], [], []] := by
  decide +kernel

/-- A package silent for 1 ms without supply, before that, and one that is heard; a survivor that tracks an entry with the lost rank. -/
theorem witness_PackageLoss :
    let s (c : Nat) (pw : Bool) : State := { demoStart fun x => { x with powered := pw } with cyc := c }
    let t := demoPkg (fun p => { p with gt := [((0, 7), { members := [0, 1], rank := 0, mode := 0, seq := 0, exmap := 0, nexpert := 0, cap := 0, badZero := false })]
                                        tier := { p.tier with track := true, entry := 7, trackCtx := 0 } }) (demo 0)
    ((s 1000000 false).pkg? 0).map (fun p => (decide (p.heard + 1000 * Config.usec ≤ (s 1000000 false).cyc), p.start.powered)) = some (true, false) ∧
      ((s 999999 false).pkg? 0).map (fun p => decide ((s 999999 false).cyc < p.heard + 1000 * Config.usec)) = some true ∧
      ((s 0 true).pkg? 0).map (fun p => (p.start.powered, p.start.joined)) = some (true, false) ∧ (demo 0).pkg? 7 = none ∧
      ((demo 0).pkg? 0).map (fun p => p.tier.track) = some false ∧
      (t.pkg? 0).map (fun p => (p.tier.track, (((p.gt.get (p.tier.trackCtx, p.tier.entry)).map (·.members)).getD []).contains 1)) = some (true, true) ∧
      t.ctx? 0 0 = some bootCtx := by
  decide +kernel

/-- A survivor in phase 2 whose members report a snapshot, with a spare and without; one without a report; and one that is not fenced. -/
theorem witness_FenceEnds :
    let gt : GtEntry := { members := [0, 1], rank := 0, mode := 0, seq := 0, exmap := 0, nexpert := 0, cap := 0, badZero := false }
    let start (ph : Nat) : Start := { (Pkg.reset 0).start with phase := ph, lost := 1, powered := true }
    let tier (v : Bool) : Tier := { (Pkg.reset 0).tier with entry := 7, snapv := v, snapc := 4 }
    let me (ph : Nat) (v : Bool) : Pkg := { Pkg.reset 0 with gt := [((0, 7), gt)], start := start ph, tier := tier v }
    let gone : Pkg := { Pkg.reset 1 with start := { (Pkg.reset 1).start with powered := false } }
    let sp : Pkg := { Pkg.reset 2 with start := { (Pkg.reset 2).start with spare := true, joined := true, powered := true } }
    let s (ph : Nat) (v : Bool) (l : List Pkg) : State := { demo 0 with pkgs := me ph v :: gone :: l }
    (∀ ph ∈ [0, 2, 4], ∀ v ∈ [true, false], ∀ l ∈ [[], [sp]], (s ph v l).pkg? 0 = some (me ph v) ∧ (s ph v l).pkg? 1 = some gone) ∧
      (me 2 true).tier.snapv = true ∧ (me 2 true).tier.snapc = 4 ∧ (me 2 false).tier.snapv = false ∧ gone.start.powered = false ∧
      (∀ q ∈ (s 2 true []).pkgs, ¬(q.start.spare = true)) ∧ (s 2 true [sp]).pkg? 2 = some sp ∧
      (∀ q ∈ (s 2 true [sp]).pkgs, q.start.spare = true → sp.rank ≤ q.rank) := by
  decide +kernel

theorem witness_ShardRebuild :
    ((demoStart fun x => { x with rebuild := [4, 5], phase := 5 }).pkg? 0).map (fun p => p.start.rebuild) = some [4, 5] ∧
      ((demoStart fun x => { x with rebuild := [], phase := 5 }).pkg? 0).map (fun p => (p.start.rebuild, p.start.phase)) = some ([], 5) ∧
      ((demo 0).pkg? 0).map (fun p => (decide (p.start.rebuild = []), decide (p.start.phase = 5))) = some (true, false) := by
  decide +kernel
/-! ### Witnesses: the host's writes, replies and home slices -/

theorem witness_WindowWrites : ((demo 0).pkg? 0).isSome = true ∧ (0xEFFFF : Nat) < 0xF0000 ∧ 0xF0000 ≤ 0xF0000 ∧ 0xF0008 % 8 = 0 ∧
    0xF0004 % 8 ≠ 0 ∧ (List.replicate 8 (0 : Byte)).length = 8 ∧ (2 ^ 10 : Nat).testBit 10 = true ∧ (2 ^ 9 : Nat).testBit 10 = false := by
  decide +kernel

/-- A live counter below and at a threshold that is written, and a placement table with an entry in transit and without. -/
theorem witness_RegisterWrites :
    let k := demoLink id
    ((demo 0).pkg? 0).map (fun p => (decide (p.nonce.length = 64), p.place.length)) = some (true, 0) ∧ k.tx.liveCounter = some 100 ∧
      (100 : Nat) < 101 % 2 ^ 40 ∧ 100 % 2 ^ 40 ≤ 100 ∧ 100 < k.tx.thr ∧ k.tx.thrx = false ∧ (3 : Nat) < 0x4000000 ∧ 3 % 8 ≠ 0 := by
  decide +kernel

theorem witness_Attestation : ((demo 0).pkg? 0).map (fun p => p.attBusy) = some false ∧
    ((demoPkg (fun p => { p with attBusy := true }) (demo 0)).pkg? 0).map (fun p => p.attBusy) = some true := by
  decide +kernel

/-- Each site, inside its memory: the last word of a tile and of a page, a line of HBM, a cached line. -/
theorem witness_ErrorsPoison :
    let c : CLine := { ctx := 0, va := 512, tgt := 0, pa := 512, bytes := List.replicate 256 3, dirty := 0, bad := false, badw := [] }
    let s := demoPkg (fun p => { p with cache := [c] }) (demoSt demoGroup demoHeld)
    s.group? 2 = some demoGroup ∧ s.team? 1 = some demoHeld ∧ (1 : Nat) < demoHeld.tiles ∧ 4 * (32 * 1024 - 1) < 4096 * demoHeld.holding ∧
      ((s.pkg? 0).bind fun p => p.cached 0 767) = some c ∧ (3221225471 : Nat) * 256 < 0xC000000000 := by
  decide +kernel

theorem witness_ContextDestroyed : ((demo 0).pkg? 0).isSome = true ∧ (demo 0).ctx? 0 0 = some bootCtx := by decide +kernel

/-- A line before and at 2 µs, with a local and a peer home. -/
theorem witness_BufferAges :
    let l (d : Nat) : WLine := { id := 7, dest := d, ctx := 0, va := 256, bytes := [(9, 1)], last := [(2, 0)], since := 0 }
    (∀ d ∈ [0, 1], ((demoCore { Core.empty bootCore with wcb := [l d] } (demo 0)).core bootCore).wcb = [l d] ∧ (l d).id = 7) ∧
      ((demo 0).core bootCore).wcb = [] ∧ 1999 < 0 + 2 * Config.usec ∧ 0 + 2 * Config.usec ≤ 2000 ∧ bootCore.rank = 0 := by
  decide +kernel

/-- A transfer whose line the cache can take, one behind another of its group, one that cannot be translated, and one that has been
applied, for the last line that a PUT waits for. -/
theorem witness_PutLines :
    let x (id va : Nat) (ap : Bool) : Xfer :=
      { id := id, src := 0, dest := 0, ctx := 0, va := va, bytes := [(0, 1), (255, 2)], last := [(2, 0)], applied := ap }
    let s (l : List Xfer) : State := { demoTlb (demo 0) 0 .write with fab := { (demo 0).fab with xfers := l }, subj := 7 }
    ((s [x 7 0 false]).fab.xfers.find? fun y => y.id == (s [x 7 0 false]).subj && !y.applied) = some (x 7 0 false) ∧
      unpowered (s []) 0 = false ∧ lineLocked (s []) 0 0 0 = false ∧ (x 6 0 false).va = (x 7 0 false).va ∧
      ((x 7 0 false).last.get 2).isSome = true ∧
      (match xferXlate (s [x 7 (2 ^ 40) false]) (x 7 (2 ^ 40) false) with
        | (_, .error _) => true
        | _ => false) = true ∧
      (match xferXlate (s [x 7 0 false]) (x 7 0 false) with
        | (u, .ok h) => decide (h.tgt = 0) && !inWindow h.tgt h.pa && decide ((fetchLine u h 0 0).2.bytes.length = 256)
        | _ => false) = true ∧
      ((x 7 0 false).bytes.map (·.1)).Nodup ∧ ((s [x 7 0 true]).fab.xfers.find? fun y => y.id == 7 && y.applied) = some (x 7 0 true) := by
  decide +kernel

/-- A request and its slice: at home, with words in flight for its replies. -/
def demoReq (kind : ReqKind) (va : Nat) : Req :=
  { id := 5, gid := 2, seq := 0, slot := 0, ctx := 0, va := va, home := 0, kind := kind, det := none, arr := 0 }
def demoAsk (kind : FlightKind) : Group :=
  demoFlying [{ Flight.plain 6 kind 1 1 0 with seq := 0, got := List.replicate 16 .pending }]
def demoSlice (g : Group) (q : Slice) : State :=
  demoPkg (fun p => { p with slices := [(0, q)] }) (demoTlb (demoWith g) 0 .atomic)

theorem demo_next {g : Group} {q : Slice} {p : Req → Bool} {r : Req} (h : q.queue = [r]) (hp : p r = true)
    (hs : (demoSlice g q).slice ⟨0, 0⟩ = q) (hh : reqHeld (demoSlice g q) q r = false) : NextOf (demoSlice g q) ⟨0, 0⟩ p r :=
  ⟨[], [], by rw [hs, h]; rfl, hp, by rw [hs]; exact hh, by simp, .inr (by simp)⟩

/-- A GET and an atomic on their way, alone and behind another of their group; a slice that is full, and one that is not. -/
theorem witness_PeerAccesses :
    let q (k : ReqKind) (id : Nat) : PeerReq := { id := id, src := 0, dest := 0, req := { demoReq k 0 with id := id } }
    let s (l : List PeerReq) : State :=
      let u := demoTlb (demoWith (demoAsk .get)) 0 .read
      { u with fab := { u.fab with reqs := l }, subj := 5 }
    (∀ k ∈ [ReqKind.get, .atom .addI32 [1]], ((s [q k 5]).fab.reqs.find? fun r => r.id == (s [q k 5]).subj) = some (q k 5) ∧
      (q k 5).req.id = (q k 5).id ∧ ((s [q k 4, q k 5]).fab.reqs.takeWhile fun x => x.id != 5) = [q k 4] ∧
      unpowered (s [q k 5]) 0 = false ∧ earlierReq (s [q k 5]) (q k 5).req = false) ∧
      putUnderWay (s []) 2 0 0 0 = false ∧ ((s []).slice ⟨0, 0⟩).queue.length < 512 ∧ 512 ≤ (List.replicate 512 (demoReq .get 0)).length ∧
      (match homeXlate (s []) (demoReq .get 0) .read with
        | (u, .ok h) => (lineRead u h 0 0 4).2.all fun b => !b.2
        | _ => false) = true ∧ (s []).group? 2 = some (demoAsk .get) := by
  decide +kernel

/-- A word that is answered with words, with poison, and with an uninitialised word; one that is not; and a GET of one slot. -/
theorem witness_RepliesLand :
    let g (k : FlightKind) (r : Reply) : Group :=
      demoFlying [{ Flight.plain 5 k 1 1 0 with seq := 0, got := r :: List.replicate 15 .pending, dstn := 1, depths := List.replicate 16 0
                                                addrs := List.replicate 16 0 }]
    (∀ r ∈ [Reply.words [7], .poison, .uninit], (demoWith (g .load r)).group? 2 = some (g .load r) ∧ (g .load r).wave = none ∧
      ((g .load r).flights.map fun f => (f.seq, f.done, f.answered, decide (f.reply 0 = r))) = [(0, false, true, true)]) ∧
      ((g .load .pending).flights.map fun f => f.answered) = [false] ∧
      ((g .get .pending).flights.map fun f => (f.accessSlots, f.got.length, decide (f.reply 0 = .pending))) = [([0], 16, true)] ∧
      putUnderWay (demoWith (g .get .pending)) 2 0 0 0 = false ∧
      ((g .load (.words [7])).thread 0).rbase ≤ 0 ∧ 0 < ((g .load (.words [7])).thread 0).wbase + 64 ∧
      ((demoHit (demoTlb (demoWith (g .get .pending)) 0 .read) 0 .read).map fun x => (x.2.home, (lineRead x.1 x.2 0 0 4).2)) =
        some (0, List.replicate 4 (0, false)) := by
  decide +kernel

/-- An atomic and a CAS, next in their slice and asked for, on a word that is not poisoned and one that is. -/
theorem witness_SliceAtomics :
    let q (r : Req) : Slice := { Slice.empty with queue := [r] }
    (∀ r ∈ [demoReq (.atom .addI32 [1]) 0, demoReq (.atom .caspt [0, 0, 1, 0]) 0],
      NextOf (demoSlice (demoAsk .atomic) (q r)) ⟨0, 0⟩ Req.isAtom r ∧ r.det = none ∧ Asked (demoSlice (demoAsk .atomic) (q r)) r ∧
        (match homeXlate (demoSlice (demoAsk .atomic) (q r)) r .atomic with
          | (u, .ok h) => decide (h.tgt = 0) && !inWindow h.tgt h.pa && decide ((fetchLine u h r.ctx r.va).2.bytes.length = 256) &&
              !(fetchLine u h r.ctx r.va).2.bad
          | _ => false) = true) ∧
      (demoReq (.atom .addI32 [1]) 4).va % AtomOp.addI32.width = 0 ∧ (demoReq (.atom .caspt []) 8).va % AtomOp.caspt.width = 0 := by
  refine ⟨fun r hr => ?_, by decide, by decide⟩
  rcases List.mem_pair.1 hr with rfl | rfl <;>
    exact ⟨demo_next rfl rfl (by decide +kernel) (by decide +kernel), rfl,
      ⟨demoAsk .atomic, _, by decide +kernel, List.mem_singleton.2 rfl, rfl, by decide +kernel⟩, by decide +kernel⟩

/-- An entry of a deterministic grid: without a window of its address, with one before its 256th cycle, and with one at it. -/
theorem witness_DeterministicWindows :
    let r := { demoReq (.atom .addI32 [1]) 0 with det := some (0, 3) }
    let w : Window := { id := 6, grid := 0, ctx := 0, va := 0, entries := [], last := 0 }
    let q (l : List Window) : Slice := { Slice.empty with queue := [r], windows := l }
    (∀ l ∈ [[], [w]], NextOf (demoSlice (demoAsk .atomic) (q l)) ⟨0, 0⟩ Req.isAtom r ∧
      ((demoSlice (demoAsk .atomic) (q l)).slice ⟨0, 0⟩).windows = l ∧ (l.map fun w => w.entries.length).sum < 15) ∧
      ((demoSlice (demoAsk .atomic) (q [])).pkg? 0).isSome = true ∧ (w.grid = 0 ∧ w.ctx = r.ctx ∧ w.va = r.va) ∧ 255 < w.last + 256 ∧
      w.last + 256 ≤ 256 ∧ ((demoSlice (demoAsk .atomic) (q [w])).grid? 0).isSome = true ∧ ([w].find? fun w => w.id == 6) = some w := by
  refine ⟨fun l hl => ?_, by decide +kernel, by decide, by decide, by decide, by decide +kernel, by decide +kernel⟩
  rcases List.mem_pair.1 hl with rfl | rfl <;>
    exact ⟨demo_next rfl rfl (by decide +kernel) (by decide +kernel), by decide +kernel, by decide⟩

/-- A WAITC next in its slice, on a word that meets each condition and not; a monitor with a deadline, before it and at it, and one of
the reclaimed context. -/
theorem witness_MonitorSteps :
    let r := demoReq (.waitc 0 false 2 5 0) 0
    let q : Slice := { Slice.empty with queue := [r] }
    let m : Monitor := { entry := 9, req := r, cond := 0, signed := false, val := 5, mask := 0, deadline := some 2000, st := .armed }
    let s := demoSlice (demoAsk .waitc) { Slice.empty with monitors := [m] }
    NextOf (demoSlice (demoAsk .waitc) q) ⟨0, 0⟩ (fun r => match r.kind with
      | .waitc _ _ _ _ _ => true
      | .atom _ _ | .comb _ _ | .get => false) r ∧ Asked (demoSlice (demoAsk .waitc) q) r ∧
      (match homeXlate (dropReq (demoSlice (demoAsk .waitc) q) ⟨0, 0⟩ r) r .read with
        | (u, .ok h) => decide ((wordAt u h 0 0).2 = (0, false))
        | _ => false) = true ∧ (0 : Word) ≠ 5 ∧ ((s.slice ⟨0, 0⟩).monitors.find? fun m => m.entry == 9 && m.st == .armed) = some m ∧
      1999 < 2000 ∧ teamOut s r.gid = false ∧ Asked s r ∧ (s.slice ⟨0, 0⟩).monitors = [m] ∧ r.ctx = 0 ∧ m.st ≠ .replied := by
  refine ⟨demo_next rfl rfl (by decide +kernel) (by decide +kernel), ⟨demoAsk .waitc, _, by decide +kernel, List.mem_singleton.2 rfl, rfl, by decide +kernel⟩,
    by decide +kernel, by decide, by decide +kernel, by decide, by decide +kernel,
    ⟨demoAsk .waitc, _, by decide +kernel, List.mem_singleton.2 rfl, rfl, by decide +kernel⟩, by decide +kernel, rfl, by decide⟩

/-- A call with a method of its slice and without, one that becomes a wave, and one that waits for an earlier request of its line. -/
theorem witness_CombinerCalls :
    let r := demoReq (.comb 1 7) 0
    let e : Method := ⟨0x20000, 16⟩
    let q (l c : List Req) : Slice := { Slice.empty with queue := l, calls := c, methods := [((0, 1), e)] }
    let b := { demoReq (.atom .addI32 [1]) 0 with id := 4, arr := 0 }
    (∀ ms ∈ [[], [((0, 1), e)]], NextOf (demoSlice (demoAsk .comb) { Slice.empty with queue := [r], methods := ms }) ⟨0, 0⟩ (fun r => match r.kind with
      | .comb _ _ => true
      | .atom _ _ | .waitc _ _ _ _ _ | .get => false) r) ∧
      ((demoSlice (demoAsk .comb) (q [r] [])).slice ⟨0, 0⟩).methods.get (0, 1) = some e ∧ r.va % 256 + e.size ≤ 256 ∧
      (Slice.empty.methods.get ((0, 1) : Nat × Nat)) = none ∧ ((demoSlice (demoAsk .comb) (q [] [r])).slice ⟨0, 0⟩).calls = [r] ∧
      lineLocked (demoSlice (demoAsk .comb) (q [] [r])) 0 0 0 = false ∧ sliceOf r.va = 0 ∧ b.sameLine r = true ∧ b.arr < { r with arr := 1 }.arr ∧
      (match homeXlate (demoSlice (demoAsk .comb) (q [] [r])) r .atomic with
        | (u, .ok h) => decide ((lineRead u h 0 0 16).2 = List.replicate 16 (0, false))
        | _ => false) = true := by
  refine ⟨fun ms hm => ?_, by decide +kernel, by decide, by decide +kernel, by decide +kernel, by decide +kernel, by decide +kernel, by decide,
    by decide, by decide +kernel⟩
  rcases List.mem_pair.1 hm with rfl | rfl <;> exact demo_next rfl rfl (by decide +kernel) (by decide +kernel)

/-- A wave that has ended, with a fault and without. -/
theorem witness_WaveCommits :
    let r := demoReq (.comb 1 7) 0
    let w (f : Nat) : Wave := { gid := 40, calls := [r], ctx := 0, obj := 0, method := 1, size := 16, shadow := [], fault := f, ended := true, rest := [] }
    let s (f : Nat) : State := demoSlice (demoAsk .comb) { Slice.empty with wave := some (w f) }
    (∀ f ∈ [0, 2], ((s f).slice ⟨0, 0⟩).wave = some (w f) ∧ ((s f).pkg? 0).isSome = true ∧ Asked (s f) r) ∧
      ((w 0).calls.map fun c => (c.gid, c.seq, c.slot)).Nodup ∧ r.gid ≠ 40 ∧ (w 2).fault ≠ 0 ∧ r.va % 256 + (w 0).size ≤ 256 ∧
      (match homeXlate (s 0) r .atomic with
        | (u, .ok h) => decide (h.tgt = 0) && !inWindow h.tgt h.pa && decide ((fetchLine u h 0 0).2.bytes.length = 256)
        | _ => false) = true := by
  refine ⟨fun f hf => ?_, by decide, by decide, by decide, by decide, by decide +kernel⟩
  rcases List.mem_pair.1 hf with rfl | rfl <;>
    exact ⟨by decide +kernel, by decide +kernel, ⟨demoAsk .comb, _, by decide +kernel, List.mem_singleton.2 rfl, rfl, by decide +kernel⟩⟩
/-! ### Witnesses: collectives, rings, exchanges and reduce-stores -/

/-- Two packages of one domain, each with the group-table entry 0 of context 0. -/
def demoEntry2 (mode : Nat) (r : Nat) : GtEntry :=
  { members := [0, 1], rank := r, mode := mode, seq := 4, exmap := 0x10000, nexpert := 2, cap := 1, badZero := false }
def demoPair (mode : Nat) (l : List Op) (s : State) : State :=
  let q (r : Nat) (p : Pkg) : Pkg := { p with gt := [((0, 0), demoEntry2 mode r)] }
  { s with pkgs := (s.pkgs.map (q 0)) ++ [q 1 { Pkg.reset 1 with start := { (Pkg.reset 1).start with powered := true } }], ops := l, subj := 3 }

/-- A chunk that is here, at a collective's last place, before it, and before a failed one. -/
theorem witness_CollChunks :
    let c : OpChunk := ⟨0, .here, ((List.range 2).map (64 + ·)).zip [(1, false), (2, false)]⟩
    let o := { demoOp (.coll .bcast) .running with chunks := [c, ⟨1, .failed 3, []⟩] }
    let s := demoOps [o] (demoSt demoGroup demoHeld)
    s.op? s.subj = some o ∧ o.st ≠ .withdrawn ∧ (tileOf o.td).space = 0 ∧ s.team? o.tid = some demoHeld ∧
      engineHolds s demoHeld o.id = false ∧ memoriesOk s = true ∧
      (tileOf o.td).rows * (tileOf o.td).planes * (tileOf o.td).rowBytes ≤ 4096 * (o.pidx + 1) ∧
      4096 < (tileOf (demoTile 0 0 1 64 32 256)).rows * (tileOf (demoTile 0 0 1 64 32 256)).rowBytes ∧
      o.chunks.tail.head?.map (·.st) = some (.failed 3) := by
  decide +kernel

theorem witness_CollectiveValues : ([5, 0xFFFFFFFF] : List Word).length ≤ 1024 ∧ ([5] : List Word) ≠ [] ∧ [(1 : Word), 2].length = 2 ^ 1 ∧
    [(1 : Word), 2, 3].length < 2 ^ 2 ∧ 2 ^ 2 < 2 * [(1 : Word), 2, 3].length ∧ (∀ x ∈ [[((0 : Byte), false)], [(1, true)]], x.length = 1) := by
  decide

/-- A collective that has not captured its source, and one whose members all have. -/
theorem witness_CollectiveRun :
    let o := { demoOp (.coll .allreduce) .queued with ta := demoTile 0x2000 2 1 16 1 64, td := demoTile 0 0 1 16 1 64, seqno := 4 }
    let c (r : Nat) : Op := { o with id := 3 + r, rank := r, src := some (List.replicate 64 (1, false)), told := [1 - r] }
    let s := demoTlb (demoPair 0 [o] (demoSt demoGroup demoHeld)) 0x2000 .read
    let t := demoPair 0 [c 0, c 1] (demoSt demoGroup demoHeld)
    (∀ x ∈ [(s, o), (t, c 0)], ((dieQueue x.1 0 0).filter fun y => y.engine == 0 && y.st == .queued && hasStart y && !engsWaits x.1 y.tid &&
        !opHeld x.1 y && engineReady x.1 y) = [x.2] ∧ x.1.op? 3 = some x.2 ∧ x.2.chunks = []) ∧
      (match engReads s o (tileOf o.ta).space ((tileOf o.ta).pieces false 0 (tileOf o.ta).bytes) with
        | (_, .ok bs) => decide (bs.length = 64)
        | _ => false) = true ∧
      (match matching t (c 0) with
        | .agreed l => l.all (fun x => x.src.isSome) && decide (l.map (·.id) = [3, 4])
        | _ => false) = true := by
  decide +kernel

/-- A GO and another write; a package whose entry can be written back and read, an operation in flight on it, and one whose table is
not mapped. -/
theorem witness_GtSync :
    let s (b : Nat) (l : List Op) : State :=
      let u := demoPkg (fun p => { p with gtBusy := true, gt := [((0, 0), demoEntry2 0 0)] }) { demo 0 with ctxs := [{ bootCtx with gtbase := b }] }
      { u with ops := l }
    (1024 : Nat).testBit 10 = true ∧ (1 : Nat).testBit 10 = false ∧
      ((s 0 []).pkg? 0).map (fun p => (p.gtBusy, p.gtsync, decide (p.gt = [((0, 0), demoEntry2 0 0)]))) = some (true, 0, true) ∧ (s 0 []).ops = [] ∧
      ((s 0 [demoOp .xchg .running]).ops.any fun o => o.rank == 0 && o.st != .withdrawn && o.form.numbered && o.param.toNat % 2 ^ 8 == 0) = true ∧
      (match gWrite (s 0 []) 0 0 0 (gtAddr (s 0 []) 0 0 0 + 0x84) ((bytesLE 4 4).map fun b => (b, false)) with
        | (u, .ok ()) => (match devRead u 0 0 0 (gtAddr (s 0 []) 0 0 0) 256 with
            | (_, .ok bs) => decide (bs.length = 256)
            | _ => false)
        | _ => false) = true ∧
      (match gWrite (s (2 ^ 40) []) 0 0 0 (gtAddr (s (2 ^ 40) []) 0 0 0 + 0x84) ((bytesLE 4 4).map fun b => (b, false)) with
        | (_, .fault _ _) => true
        | _ => false) = true ∧
      ((demo 0).pkg? 0).map (fun p => (p.gtBusy, p.rw.length)) = some (false, 0) := by
  decide +kernel

/-- A ring of package 0 with its slot in each state; and the state that holds it. -/
def demoRing (slots : List Nat) (seen : List Bool) : Ring :=
  { id := 6, rank := 0, ctx := 0, entry := 0, tid := 1, die := 0, seg := 4, base := 0, bsize := 64, arrb := 8, doneb := 12
    credits := List.replicate 4 false, slots := slots, fill := [0, 0, 0, 0], owner := [0, 0, 0, 0], fwd := [0, 0, 0, 0], doneSeen := seen
    received := 0, broken := false }
def demoRinged (r : Ring) (l : List Op) (t : Team) : State :=
  demoPkg (fun p => { p with rings := [r] }) (demoPair 0 l (demoSt demoGroup t))

/-- A slot that is full and whose block is done, one that is not, and one whose barrier is broken. -/
theorem witness_RingReturns :
    let r := demoRing [2, 0, 0, 0] [true, false, false, false]
    let b := { demoTeam with bars := demoTeam.bars.setIfInBounds 8 { Barrier.new 1 with broken := true } }
    (∀ t ∈ [demoTeam, b], ringId (demoRinged r [] t) 6 = some r ∧ (demoRinged r [] t).team? r.tid = some t) ∧
      (demoTeam.bar 8).broken = false ∧ (demoTeam.bar 12).broken = false ∧ (b.bar 8).broken = true ∧ r.slots.getD 0 0 = 2 ∧
      r.doneSeen.getD 0 false = true ∧ r.slots.getD 1 0 = 0 ∧ r.broken = false ∧ (demoRinged r [] demoTeam).ops = [] ∧
      ¬(r.owner.getD 0 0 % ((ringMembers (demoRinged r [] demoTeam) r).length - 1) + 2 < (ringMembers (demoRinged r [] demoTeam) r).length) := by
  decide +kernel

/-- A chunk that the upstream run has read, the first of its block; the whole block; and no such run. -/
theorem witness_RingChunks :
    let r := demoRing [0, 0, 0, 0] [false, false, false, false]
    let u (n : Nat) : Op :=
      { demoOp .rotRun .running with rank := 1, id := 9, seqno := 4, tid := 77, dups := 0, chunks := [⟨0, .here, (List.replicate n (5, false)).mapIdx fun i b => (i, b)⟩] }
    let sg : Segment := { id := 4, rank := 0, die := 0, grid := 0, size := 4096, ram := Ram.empty, valid := [] }
    let s (n : Nat) : State := { demoRinged r [u n] demoTeam with segs := [sg] }
    (∀ n ∈ [32, 64], upstreamRun (s n) r = some (u n) ∧ (s n).op? 9 = some (u n) ∧ ringId (s n) 6 = some r ∧ memoriesOk (s n) = true ∧
      ringStopped (s n) r = false ∧ engineHolds (s n) demoTeam 0 = false) ∧ upstreamRun (demoRinged r [] demoTeam) r = none ∧
      (s 32).team? r.tid = some demoTeam ∧ ((s 32).segs.find? fun g => g.id == r.seg) = some sg ∧ r.arrb + 3 < 32 ∧
      (demoTeam.bar 8).broken = false ∧ (demoTeam.bar 12).broken = false ∧ (u 32).dups + 64 = r.bsize := by
  decide +kernel

/-- An exchange of package 0 in capacity mode and in replica mode, its member's at package 1, and a token at each stage. -/
def demoXchg (r : Nat) (st : OpSt) (tk : AL Nat TokenAt) : Op :=
  { demoOp .xchg st with id := 3 + r, rank := r, seqno := 4, ta := demoTile 0 0 1 16 2 64, tn := demoTile 0x400 0 10 2 1 16, tid := 1 + 6 * r
                         td := demoTile 0x800 0 1 16 1 64, results := [none, some 7], tokens := tk, told := [0, 1] }

theorem witness_TokenDestination :
    let o := demoXchg 0 .running []
    let map : List (Byte × Bool) := ([1, 0] ++ List.replicate 14 0xFF : List Byte).map fun b => (b, false)
    let s (m : Nat) : State := demoTlb ((demoPkg (fun p => { p with hbm := p.hbm.writeP 0x10000 map }) (demoPair m [o, demoXchg 1 .running []]
      (demoSt demoGroup demoHeld)))) 0x10000 .read
    (∀ m ∈ [0, 1, 2], (s m).op? 3 = some o ∧ opGt (s m) o = some (demoEntry2 m 0)) ∧ o.results[0]? = some none ∧ o.results[1]? ≠ some none ∧
      o.tokens.get 0 = none ∧ (demoXchg 0 .running [(0, .flying)]).tokens.get 0 = some .flying ∧ opHeld (s 0) o = false ∧
      opHeld (demoPair 0 [{ o with preds := [9] }, { demoXchg 1 .running [] with id := 9 }] (demo 0)) { o with preds := [9] } = true ∧
      (match tokenData (s 1) o (demoEntry2 1 0) 0 with
        | (_, .ok (row, some l)) => decide (row.length = 64) && decide (l.headD 0xFFFF = 1) && (l.filter fun r => r != 0xFFFF) == [1]
        | _ => false) = true ∧ (∃ m, m < 8 ∧ (demoEntry2 m 0).xmode = 1) ∧ ∃ m, m < 8 ∧ (demoEntry2 m 0).xmode = 2 := by
  decide +kernel

/-- A token at a member with a row left, with none, and that is held or has given up. -/
theorem witness_TokenAccepts :
    let o := demoXchg 0 .running [(0, .at_ 1 [] [(5, false)])]
    let d := demoXchg 1 .running []
    let s (d : Op) : State := { demoPair 0 [o, d] (demo 0) with teams := [demoHeld, { demoHeld with tid := 7 }] }
    (∀ x ∈ [d, { d with filled := 1 }, { d with st := .ending }, { d with st := .parked }], (s x).op? 3 = some o ∧
      opGt (s x) o = some (demoEntry2 0 0) ∧ memberOp (s x) o 1 = some x ∧ opHeld (s x) x = false ∧ (s x).op? 4 = some x) ∧
      o.results[0]? = some none ∧ o.tokens.get 0 = some (.at_ 1 [] [(5, false)]) ∧ (tileOf d.td).rows = 1 ∧ d.filled < 1 ∧
      (tileOf d.td).space = 0 ∧ (s d).team? d.tid = some { demoHeld with tid := 7 } ∧ memoriesOk (s d) = true ∧
      memberOp (demoPair 0 [o] (demo 0)) o 1 = none ∧ (demoEntry2 0 0).xmode ≠ 1 := by
  decide +kernel

theorem witness_ReplayFilter : (2 : Nat) ^ 32 - 1 < 2 ^ 32 ∧ (⟨5, 1⟩ : Filter).b.testBit 0 = true ∧ (5 + 0) % 2 ^ 32 = (⟨5, 1⟩ : Filter).h ∧
    64 ≤ (100 + 2 ^ 32 - 36) % 2 ^ 32 ∧ (100 + 2 ^ 32 - 36) % 2 ^ 32 < 2 ^ 31 ∧ (100 + 2 ^ 32 - 37) % 2 ^ 32 < 64 := by
  decide

/-- A line that leaves, and one at its reducing switch, whose filter is empty. -/
theorem witness_ReduceLines :
    let w : RwEntry := { base := 0x4000, length := 512, home := 1, op := 0, flags := 0, contrib := 2, doneaddr := 0x8000, badZero := false }
    let o (tk : AL Nat TokenAt) : Op := { demoOp .rsto .queued with ta := demoTile 0 0 1 16 8 64, results := [none, none], tokens := tk, seqno := 9 }
    let s (tk : AL Nat TokenAt) : State := demoPkg (fun p => { p with rw := [((0, 0), w)] }) (demoPair 0 [o tk] (demoSt demoGroup demoHeld))
    (∀ tk ∈ ([[], [(1, .flying)], [(1, .at_ 28 [] [(5, false)])]] : List (AL Nat TokenAt)), (s tk).op? 3 = some (o tk) ∧ opHeld (s tk) (o tk) = false) ∧
      ((s []).pkg? 0).map (fun p => p.rw.get (0, 0)) = some (some w) ∧ (o []).results[1]? = some none ∧ (o []).tokens.get 1 = none ∧
      (match engReads (s []) (o []) 0 ((tileOf (o []).ta).pieces false 256 256) with
        | (_, .ok bs) => decide (bs.length = 256)
        | _ => false) = true ∧ (0x4000 + 256) / 256 % 36 = 29 := by
  refine ⟨by decide +kernel, by decide +kernel, by decide, by decide, by decide +kernel, by decide⟩

/-- A merged line on its way to a home whose pages the TLB holds, with two contributions. -/
theorem witness_ReduceMerges :
    let ws : List (Word × Bool) := List.replicate 64 (1, false)
    let m : Merge := { id := 3, ctx := 0, win := 0, line := 0, home := 0, va := 0, op := 0, done := 512, parts := [⟨1, 7, ws⟩, ⟨2, 8, ws⟩] }
    let s := { demoTlb (demo 0) 0 .write with fab := { (demo 0).fab with merges := [m] }, subj := 3 }
    (s.fab.merges.find? fun m => m.id == s.subj) = some m ∧ (m.parts.map (·.src)).Nodup ∧ (∀ x ∈ m.parts, x.words.length = 64) ∧
      m.parts.Pairwise (fun a b => a.src < b.src) ∧
      (match mergeXlate s m m.va with
        | (u, .ok h) =>
          let (u, old) := lineRead u h 0 0 256
          (lineWrite u h 0 0 (mergedLine 0 old (mergeParts 0 m.parts))).any fun v => match mergeXlate v m m.done with
            | (v, .ok k) => decide ((wordAt v k 0 512).2 = (0, false)) && (lineWrite (wordAt v k 0 512).1 k 0 512 [(1, false)]).isSome
            | _ => false
        | _ => false) = true := by
  decide +kernel

/-- A plane that is up and one that is down, and a level 2 switch. -/
theorem witness_PlaneLost :
    let s : State := { demo 0 with fab := { (demo 0).fab with down := [4], downSw := [(5, 1)] } }
    4 ∈ s.fab.down ∧ 3 ∉ s.fab.down ∧ (5, 1) ∈ s.fab.downSw ∧ (5, 0) ∉ s.fab.downSw ∧ ¬(36 : Nat) < 36 := by
  decide +kernel
/-! ### Witnesses: the tier, the update engine and placement -/

theorem witness_StripeRecovery : (List.replicate 8 255).length = 8 ∧ (∀ x ∈ List.replicate 8 255, x < 256) ∧ (9 : Nat) < 10 ∧ (255 : Nat) < 256 := by
  decide

/-- The package with its tier changed, at a position of its recovery set. -/
def demoTier (pos : Nat) (h : Tier → Tier) (s : State) : State :=
  demoPkg (fun p => { p with tier := h p.tier, start := { p.start with pos := pos } }) s
def demoPersist (pre : Option Nat) : Moraine := { id := 6, line := 4096, bytes := [(0, 1), (255, 2)], tag := 0, pre := pre, slot := 11, bad := false }

/-- Queues that are empty, that hold an entry, one of a line whose pre-image's parity is under way, and a pre-image whose area is free and is
not; in a recovery set and not. -/
theorem witness_MoraineDrains :
    let q (e : Moraine) : Tier → Tier := fun t => { t with moraine := t.moraine.setIfInBounds 3 [e] }
    let im : PreImage := { area := 0, line := 4096, bytes := [], tag := 0, unbacked := false, slot := 11, bad := false }
    (∀ pos ∈ [0, 9, 10], ∀ e ∈ [demoPersist none, demoPersist (some 0)],
      ((demoTier pos (q e) (demo 0)).pkg? 0).map (fun p => (decide (p.tier.moraine[3]?.getD [] = [e]), p.start.pos)) = some (true, pos)) ∧
      ((demo 0).pkg? 0).map (fun p => (decide (p.tier.moraine[3]?.getD [] = []), p.tier.track)) = some (true, false) ∧
      (({ id := 5, line := 4096, pre := true, tag := 0, die := 3, acks := 0 } : Unstriped).line = (demoPersist none).line) ∧
      ((demoTier 10 (fun t => { q (demoPersist (some 0)) t with pstep := 2, pre := [im] }) (demo 0)).pkg? 0).map (fun p =>
        decide (p.tier.pstep ≤ 0 + 2) && p.tier.pre.any fun im => im.slot == 11) = some true ∧
      ((demoTier 10 (fun t => { q (demoPersist (some 0)) t with pstep := 3 }) (demo 0)).pkg? 0).map (fun p => decide (p.tier.pstep ≤ 0 + 2)) = some false ∧
      memoriesOk (demoTier 10 (q (demoPersist none)) (demo 0)) = true ∧ ((demoPersist none).bytes.map (·.1)).Nodup ∧ (11 + 2 + 7) % 10 = 0 := by
  decide +kernel

/-- A part whose holder is there, behind an earlier one of its slot and not; one whose holder is absent; and an acknowledgement that makes the
step durable. -/
theorem witness_ParityUpdates :
    let m (id : Nat) (holder : Nat) (ack : Bool) : ParityMsg :=
      { id := id, persist := 6, src := 0, holder := holder, slot := 11, isQ := false, delta := [(0, 1), (4095, 2)], acked := ack }
    let s (l : List ParityMsg) : State :=
      let u := demoTier 1 (fun t => { t with track := true, pstep := 4, announced := 3, unstriped := [⟨6, 4096, false, 3, 3, 1⟩] }) (demoPair 0 [] (demo 0))
      { u with subj := 3, fab := { u.fab with parity := l } }
    (parityHolder (s []) (m 3 1 false)).map (·.rank) = some 0 ∧ (parityHolder (s []) (m 3 7 false)).isNone = true ∧
      (s [m 3 1 false]).fab.parity = [] ++ m 3 1 false :: [] ∧ (s [m 2 1 false, m 3 1 false]).fab.parity = [m 2 1 false] ++ m 3 1 false :: [] ∧
      (m 2 1 false).slot = (m 3 1 false).slot ∧ memoriesOk (s []) = true ∧ ((m 3 1 false).delta.map (·.1)).Nodup ∧ (m 3 1 true).acked = true ∧
      ((s []).pkg? 0).map (fun p => (p.tier.track, decide (p.tier.announced < p.tier.pstep), p.tier.unstriped.map (·.acks))) = some (true, true, [1]) := by
  decide +kernel

/-- A package in no set and one in a set of ten; a unit that is backed and one that is not; a reconstruction under way, whose members have
and have not answered. -/
theorem witness_DamagedLines :
    let set : List Pkg := (List.range 10).map fun n =>
      { Pkg.reset n with start := { (Pkg.reset n).start with set := 1, pos := n, powered := true }
                         tier := { (Pkg.reset n).tier with storeUnits := if n = 3 then [(2, 11)] else [] } }
    let r (a : List Nat) : Recon := { slot := 11, lines := [8192], damaged := [], asked := [0, 1, 2, 4, 5, 6, 7, 8, 9], answered := a }
    let s (a : List Nat) : State := { demo 0 with pkgs := set.map fun p => if p.rank = 3 then { p with tier := { p.tier with recon := [r a] } } else p }
    (∀ a ∈ [[], [0, 1, 2, 4, 5, 6, 7, 8]], ((s a).pkg? 3).map (fun p => (p.tier.storeUnits.get 2, p.tier.storeUnits.get 3,
        decide ((p.tier.recon.find? fun r => r.lines.contains 8192) = some (r a)), (readableOthers (s a) p 11 0).length)) =
        some (some 11, none, true, 9) ∧ (s a).fab.parity = [] ∧ memoriesOk (s a) = true ∧ ((s a).pkgs.map (·.rank)).Nodup) ∧
      8 ≤ ([0, 1, 2, 4, 5, 6, 7, 8] : List Nat).length ∧ ((s []).pkg? 3).map (fun p => (rebuiltLine (s []) p 8192 []).isNone) = some true ∧
      ((demoTier 10 (fun t => { t with storeUnits := [(2, 11)] }) (demo 0)).pkg? 0).map (fun p => (p.start.pos, (readableOthers (demo 0) p 11 0).length)) =
        some (10, 0) := by
  decide +kernel

/-- A package whose dies have all arrived and one whose have not; members that have reached the step and not; and SNAPs. -/
theorem witness_StepsPass :
    let s (n : Nat) (track : Bool) (l : List Op) : State :=
      demoTier 15 (fun t => { t with pstep := 4, arrived := Vector.replicate 4 n, track := track, trackFrom := 2, reached := [(1, 4)] }) (demoPair 0 l (demo 0))
    let snap (p : Nat) : Op := { demoOp .snap .queued with param := BitVec.ofNat 64 p }
    ((s 1 true []).pkg? 0).map (fun p => (decide (p.tier.arrived = Vector.replicate 4 1), p.tier.track, p.tier.pstep, p.tier.reached.get 1)) =
      some (true, true, 4, some 4) ∧ (s 1 true []).ops = [] ∧
      ((s 1 true []).pkg? 0).map (fun p => ((p.gt.get (p.tier.trackCtx, p.tier.entry)).map (·.members))) = some (some [0, 1]) ∧
      (∀ p ∈ [0, 1], (s 0 true [snap p]).op? 3 = some (snap p) ∧ opHeld (s 0 true [snap p]) (snap p) = false) ∧
      ((s 0 true []).pkg? 0).map (fun p => p.tier.roll) = some false ∧ (2 + 1 ≤ 4 ∧ (4 ≤ 4)) ∧
      ((s 1 true [{ demoOp .step .running with bound := 1 }, { demoOp .step .running with id := 4, bound := 2 }]).ops.map (·.id)).Nodup := by
  decide +kernel

theorem witness_UpdateValues : (0x3F800000 : Nat) < 2 ^ 32 ∧ (valOf .f32 0x3F800000).isNan = false ∧ (valOf .f32 0x3F800000).isInf = false ∧
    2 ≤ [3, 0x80000004, 4, 1].length ∧ (List.replicate 64 0).length = 64 ∧ keptOf 2 [3, 0x80000004, 4, 1] = [1, 2] ∧
    (keptOf 4 [1, 2, 3, 4, 5, 6, 7, 8]) = [4, 5, 6, 7] := by
  decide +kernel

/-- A UPD before it has read its descriptor, one whose first block's inputs are sound, a held one, one whose lines have a peer home; and a
PAIRST. -/
theorem witness_UpdateSteps :
    let desc : List PByte := (bytesLE 8 0x15000 ++ bytesLE 8 0x16000 ++ List.replicate 112 0).map fun b => (b, false)
    let td := demoTile 0x14000 2 1 64 2 256
    let o (src : Option (List PByte)) : Op :=
      { demoOp (.upd .adam .none false) .queued with td := td, ta := demoTile 0 0 1 64 2 256, param := 0x20000, src := src }
    let p : Op := { demoOp .pairst .queued with td := td, ta := demoTile 0 0 1 64 2 256, tn := demoTile 0x18000 2 1 16 64 64 }
    let s (o : Op) : State := demoTlb (demoPkg (fun p => { p with hbm := p.hbm.writeP 0x20000 desc }) (demoOps [o] (demoSt demoGroup demoHeld))) 0x14000 .write
    (∀ x ∈ [o none, o (some desc), p], (s x).op? (s x).subj = some x ∧ opHeld (s x) x = false ∧ x.chunks = [] ∧
      farHomes (s x) x 2 .read (blockRanges x) = []) ∧
      opHeld (demoOps [{ o none with preds := [9] }, { demoOp .step .running with id := 9 }] (demo 0)) { o none with preds := [9] } = true ∧
      (match engRead (s (o none)) (o none) 2 0x20000 128 with
        | (_, .ok bs) => decide (bs = desc) && (updDesc (bs.map (·.1))).ok .adam .none false 1
        | _ => false) = true ∧ (updDesc (desc.map (·.1))).ok .sgdm .none false 1 = false ∧
      (match updRead (s (o (some desc))) (o (some desc)) (updDesc (desc.map (·.1))) .adam 0 with
        | (_, .ok x) => x.which == 0
        | _ => false) = true ∧
      (match engRead (s p) p 0 0 256 with
        | (u, .ok bs) => (match pairTrans u p 0 0 bs with
          | (_, .ok ts) => decide (ts.length = 64)
          | _ => false)
        | _ => false) = true ∧
      (match globalRuns (s p) 0 0 0 [(0x14000, [(1, false)])] with
        | .done u => decide ((u.op? 3) = some p)
        | _ => false) = true := by
  decide +kernel

/-- Entries of each state. -/
def demoPlace (idx : Nat) (st : PlaceSt) : PlaceEntry :=
  { idx := idx, base := 2 ^ 21, length := 2 ^ 21, st := st, pin := false, ctx := 0, frame0 := idx, since := 0, waiting := [], victims := [], pages := []
    done := 0, marks := [] }
def demoPlaced (l : List PlaceEntry) (o : Op) : State := demoPkg (fun p => { p with place := l, plpools := 2 }) (demoOps [o] (demo 0))

theorem witness_FramesChosen :
    let p := fun (l : List PlaceEntry) => (((demoPlaced l (demoOp .step .running)).pkg? 0).getD (Pkg.reset 0))
    (planFrames (p [demoPlace 0 .hbm]) 1).isSome = true ∧ planFrames (p [demoPlace 0 .promoting, demoPlace 1 .demoting]) 1 = none ∧
      planFrames (p [demoPlace 0 .hbm]) 2 = some (0, [0]) ∧ ((p [demoPlace 0 .hbm, demoPlace 1 .tier]).place.map (·.idx)).Nodup := by
  decide +kernel

/-- Entries of each state at the end of a copy, and a request of each kind over one of them. -/
theorem witness_PlacementSteps :
    let o (op : PlaceOp) : Op := { demoOp (.place op) .queued with ta := demoTile (2 ^ 21) 2 0 16 1 16, param := 1 }
    (∀ st ∈ [PlaceSt.tier, .promoting, .hbm, .demoting], ∀ op ∈ [PlaceOp.promote, .demote, .pin, .unpin],
      let s := demoPlaced [demoPlace 0 st] (o op)
      placeEntry s 0 0 = some (demoPlace 0 st) ∧ s.op? 3 = some (o op) ∧
        (s.ops.find? fun o => o.rank == 0 && o.kind == 5 && o.st == .queued) = some (o op) ∧ opHeld s (o op) = false ∧
        ((s.pkg? 0).bind fun p => p.place.find? fun e => e.ctx == 0 && e.base < 2 ^ 21 + 2 ^ 21 && 2 ^ 21 < e.base + e.length) = some (demoPlace 0 st)) ∧
      (tileOf (o .pin).ta).base = 2 ^ 21 ∧ (o .pin).param.toNat % 2 ^ 20 * 2 ^ 21 = 2 ^ 21 ∧ (demoPlace 0 .promoting).victims = [] ∧
      placeEntry (demo 0) 0 0 = none ∧ (0 : Nat) < 4096 ∧ (4096 : Nat) ≤ 4096 ∧ (demo 0).ops = [] ∧ 16 * (demoPlace 0 .demoting).done ≥ pageLines [] := by
  decide +kernel

/-- A state with a word stored in every kind of memory is in canonical form, and steps. -/
theorem witness_MemoriesStayCanonical :
    let s := demoPkg (fun p => { p with hbm := p.hbm.writeP 0 [(1, false)], window := p.window.writeP 0 [(1, false)] })
      (demoSt demoGroup { demoHeld with shared := Ram.empty.writeP 0 [(1, false)], acc := Ram.empty.writeP 4 [(1, true)] })
    memoriesOk { s with who := none } = true ∧ stops (step { s with who := none }) = false := by
  decide +kernel
end Sys2Proof
end

namespace Sys2Proof.Machine

open Sys2Proof.Safety

/-! ### Lists and masks of slots -/

@[simp] theorem mem_upTo {a n : Nat} : a ∈ upTo n ↔ a < n := by
  induction n with
  | zero => simp [upTo]
  | succ n ih => simp only [upTo, List.mem_append, ih, List.mem_singleton]; omega

/-- One bit of a bit vector. -/
theorem getLsbD_twoPow {w i j : Nat} (h : j < w) : (BitVec.ofNat w (2 ^ i)).getLsbD j = decide (j = i) := by
  rw [BitVec.getLsbD_ofNat, Nat.testBit_two_pow]
  simp [h, eq_comm]

/-- A bit vector with one bit set. -/
theorem getLsbD_or_twoPow {w : Nat} (x : BitVec w) (i : Nat) {j : Nat} (h : j < w) :
    (x ||| BitVec.ofNat w (2 ^ i)).getLsbD j = (x.getLsbD j || decide (j = i)) := by
  rw [BitVec.getLsbD_or, getLsbD_twoPow h]

/-- A bit vector with one bit cleared. -/
theorem getLsbD_andNot_twoPow {w : Nat} (x : BitVec w) (i : Nat) {j : Nat} (h : j < w) :
    (x &&& ~~~(BitVec.ofNat w (2 ^ i))).getLsbD j = (x.getLsbD j && decide (j ≠ i)) := by
  rw [BitVec.getLsbD_and, BitVec.getLsbD_not, getLsbD_twoPow h]
  simp [h]

/-- The mask of one slot has that slot alone. -/
theorem getLsbD_slotBit {s i : Nat} (hi : i < 16) : (slotBit s).getLsbD i = decide (i = s) := getLsbD_twoPow hi

/-- A fold that adds, of the slots of a list, those that satisfy `p`. -/
theorem getLsbD_foldl_slotBit (p : Nat → Bool) (l : List Nat) (m : Mask) {i : Nat} (hi : i < 16) :
    (l.foldl (fun m s => if p s then m ||| slotBit s else m) m).getLsbD i = (m.getLsbD i || (decide (i ∈ l) && p i)) := by
  induction l generalizing m with
  | nil => simp
  | cons s l ih =>
    rw [List.foldl_cons, ih]
    by_cases h : i = s
    · subst h; cases p i <;> simp [getLsbD_slotBit hi]
    · cases p s <;> simp [getLsbD_slotBit hi, h]

/-- The mask of the slots that satisfy `p`, slot by slot. -/
@[simp] theorem getLsbD_maskOf (p : Nat → Bool) (i : Nat) : (maskOf p).getLsbD i = (decide (i < 16) && p i) := by
  by_cases hi : i < 16
  · rw [maskOf, getLsbD_foldl_slotBit p (upTo 16) 0 hi]
    simp
  · rw [BitVec.getLsbD_of_ge _ _ (by omega)]
    simp [hi]

theorem lt_of_getLsbD_mask {m : Mask} {i : Nat} (h : m.getLsbD i = true) : i < 16 := BitVec.lt_of_getLsbD h

@[simp] theorem mem_maskSlots {m : Mask} {i : Nat} : i ∈ maskSlots m ↔ m.getLsbD i = true := by
  simp only [maskSlots, List.mem_filter, mem_upTo, and_iff_right_iff_imp]
  exact lt_of_getLsbD_mask

/-- Masks that agree in every slot are equal. -/
theorem mask_ext {m n : Mask} (h : ∀ i, i < 16 → m.getLsbD i = n.getLsbD i) : m = n := BitVec.eq_of_getLsbD_eq h

theorem mask_eq_zero_iff {m : Mask} : m = 0 ↔ ∀ i, i < 16 → m.getLsbD i = false :=
  ⟨fun h i _ => by simp [h], fun h => mask_ext fun i hi => by simp [h i hi]⟩

theorem maskOf_eq_zero_iff {p : Nat → Bool} : maskOf p = 0 ↔ ∀ i, i < 16 → p i = false := by
  rw [mask_eq_zero_iff]
  exact forall₂_congr fun i hi => by rw [getLsbD_maskOf]; simp [hi]

theorem exists_slot_of_ne_zero {m : Mask} (h : m ≠ 0) : ∃ i, i < 16 ∧ m.getLsbD i = true := by
  by_contra hn
  exact h (mask_eq_zero_iff.2 fun i hi => by_contra fun hb => hn ⟨i, hi, by simpa using hb⟩)

/-- The lowest slot of a mask that is not empty is one of its slots. -/
theorem getLsbD_lowest {m : Mask} (h : m ≠ 0) : m.getLsbD (lowest m) = true := by
  obtain ⟨i, hi, hb⟩ := exists_slot_of_ne_zero h
  cases e : (upTo 16).find? fun s => m.getLsbD s with
  | none => exact absurd hb (by simpa using List.find?_eq_none.1 e i (mem_upTo.2 hi))
  | some j => simpa [lowest, e] using List.find?_some e

theorem lowest_lt (m : Mask) : lowest m < 16 := by
  by_cases h : m = 0
  · subst h; decide
  · exact lt_of_getLsbD_mask (getLsbD_lowest h)

/-! ### What a lookup finds after an update of one group -/

theorem State.group_modGroup_same {s : State} {gid : Nat} {g : Group} {F : Group → Group} (hg : s.group? gid = some g)
    (hF : ∀ x, (F x).gid = x.gid) : (s.modGroup gid F).group? gid = some (F g) := by
  simp [State.group_modGroup s gid gid F hF, hg]

theorem State.group_modGroup_other {s : State} {gid n : Nat} {F : Group → Group} (hF : ∀ x, (F x).gid = x.gid) (hn : n ≠ gid) :
    (s.modGroup gid F).group? n = s.group? n := by
  simp [State.group_modGroup s gid n F hF, hn]

theorem State.gid_of_group {s : State} {gid : Nat} {g : Group} (h : s.group? gid = some g) : g.gid = gid := by
  simpa using List.find?_some h

/-- The core of an identity after an update that keeps identities. -/
theorem State.core_modCore (s : State) (id c : CoreId) (F : Core → Core) (hF : ∀ x, (F x).id = x.id) :
    (s.modCore id F).core c = if c = id then F (s.core id) else s.core c := by
  unfold State.core State.modCore
  split
  next h =>
    simp only [find_modWhere (fun x => x.id == id) (fun x => x.id == c) F s.cores fun x => by simp [hF]]
    cases e : s.cores.find? fun x => x.id == c with
    | none =>
      have hc : c ≠ id := by
        rintro rfl
        obtain ⟨x, hx, hxc⟩ := List.any_eq_true.1 h
        exact List.find?_eq_none.1 e x hx hxc
      simp [hc]
    | some x =>
      have hx : x.id = c := by simpa using List.find?_some e
      by_cases hc : c = id
      · subst hc; simp [hx, e]
      · simp [hc, hx]
  next h =>
    have hid : (Core.empty id).id = id := rfl
    have hnone : s.cores.find? (fun x => x.id == id) = none :=
      List.find?_eq_none.2 fun x hx hxc => h (List.any_eq_true.2 ⟨x, hx, hxc⟩)
    by_cases hc : c = id
    · subst hc; simp [hF, hid, hnone]
    · simp [hF, hid, hc, Ne.symm hc]

end Sys2Proof.Machine

namespace Sys2Proof.Machine

/-! ### Registers and predicates of a thread slot (R13, R16, R416) -/

/-- Two v registers of one window stand at different backing positions (R16). -/
theorem posOf_depth_ne (t : Thread) {n m : Nat} (hn : n < 64) (hm : m < 64) (h : m ≠ n) :
    posOf (t.depth m) ≠ posOf (t.depth n) := by
  simp only [posOf, Thread.depth]; omega

theorem posOf_lt (d : Nat) : posOf d < 128 := Nat.mod_lt _ (by decide)

@[simp] theorem Thread.setV_depth (t : Thread) (n m : Nat) (x : Word) : (t.setV n x).depth m = t.depth m := rfl

@[simp] theorem Thread.setV_v_same (t : Thread) (n : Nat) (x : Word) : (t.setV n x).v n = x := by
  simp [Thread.v, Thread.setV, Thread.dset, Thread.dget, Thread.depth, posOf_lt]

theorem Thread.setV_v_other (t : Thread) {n m : Nat} (x : Word) (hn : n < 64) (hm : m < 64) (h : m ≠ n) :
    (t.setV n x).v m = t.v m := by
  have hp := (posOf_depth_ne t hn hm h).symm
  simp only [Thread.depth] at hp
  simp [Thread.v, Thread.setV, Thread.dset, Thread.dget, Thread.depth, hp]

@[simp] theorem Thread.setV_poisoned_same (t : Thread) (n : Nat) (x : Word) : (t.setV n x).poisoned n = false := by
  simp [Thread.poisoned, Thread.setV, Thread.dset, Thread.depth]

theorem Thread.setV_poisoned_other (t : Thread) {n m : Nat} (x : Word) (hn : n < 64) (hm : m < 64) (h : m ≠ n) :
    (t.setV n x).poisoned m = t.poisoned m := by
  have hp := posOf_depth_ne t hn hm h
  simp only [Thread.depth] at hp
  simp [Thread.poisoned, Thread.setV, Thread.dset, Thread.depth, hp]

@[simp] theorem Thread.setV_pr (t : Thread) (n : Nat) (x : Word) (r : PReg) : (t.setV n x).pr r = t.pr r := rfl

/-- p7 reads 1 (R13). -/
@[simp] theorem Thread.pr_seven (t : Thread) : t.pr 7 = true := rfl

/-- A write to p7 is discarded (R13). -/
@[simp] theorem Thread.setP_seven (t : Thread) (b : Bool) : t.setP 7 b = t := rfl

theorem PReg.lt_seven {p : PReg} (h : p ≠ 7) : p.toNat < 7 := by
  have : p.toNat ≠ 7 := fun e => h (BitVec.eq_of_toNat_eq e)
  have := p.isLt
  omega

/-- The predicates after a write to one of p0 to p6 (R13). -/
theorem Thread.setP_pr (t : Thread) {p : PReg} (q : PReg) (b : Bool) (hp : p ≠ 7) :
    (t.setP p b).pr q = if q = p then b else t.pr q := by
  have hset : t.setP p b =
      { t with p := if b then t.p ||| BitVec.ofNat 7 (2 ^ p.toNat) else t.p &&& ~~~(BitVec.ofNat 7 (2 ^ p.toNat)) } :=
    if_neg (by simpa using hp)
  by_cases h7 : q = 7
  · subst h7; rw [Thread.pr_seven, if_neg (Ne.symm hp), Thread.pr_seven]
  · have hread : ∀ u : Thread, u.pr q = u.p.getLsbD q.toNat := fun u => by
      rw [Thread.pr, (by simpa using h7 : (q == 7) = false), Bool.false_or]
    rw [hread, hread, hset]
    cases b with
    | false =>
      simp only [Bool.false_eq_true, if_false]
      rw [getLsbD_andNot_twoPow _ _ (PReg.lt_seven h7)]
      by_cases h : q = p <;> simp [h, BitVec.toNat_inj]
    | true =>
      simp only [if_true]
      rw [getLsbD_or_twoPow _ _ (PReg.lt_seven h7)]
      by_cases h : q = p <;> simp [h, BitVec.toNat_inj]

theorem Thread.setP_pr_same (t : Thread) {p : PReg} (b : Bool) (hp : p ≠ 7) : (t.setP p b).pr p = b := by
  simp [t.setP_pr p b hp]

theorem Thread.setP_pr_other (t : Thread) {p q : PReg} (b : Bool) (h : q ≠ p) : (t.setP p b).pr q = t.pr q := by
  by_cases hp : p = 7
  · rw [hp, t.setP_seven]
  · rw [t.setP_pr q b hp, if_neg h]

@[simp] theorem Thread.setP_v (t : Thread) (p : PReg) (b : Bool) (r : Nat) : (t.setP p b).v r = t.v r := by
  simp [Thread.v, Thread.dget, Thread.depth]

/-! ### Registers of a group (R11, R58, R59) -/

@[simp] theorem Group.setK_kr_same (g : Group) (d : KReg) (x : DWord) : (g.setK d.toNat x).kr d.toNat = x := by
  simp [Group.kr, Group.setK, d.isLt]

theorem Group.setK_kr_other (g : Group) {d e : KReg} (x : DWord) (h : e ≠ d) : (g.setK d.toNat x).kr e.toNat = g.kr e.toNat := by
  have hn : d.toNat ≠ e.toNat := fun c => h (BitVec.eq_of_toNat_eq c.symm)
  simp [Group.kr, Group.setK, hn]

theorem Group.setQ_qr (g : Group) (p q : QReg) (b : Bool) : (g.setQ p.toNat b).qr q = if q = p then b else g.qr q := by
  cases b with
  | false =>
    show (g.q &&& ~~~(BitVec.ofNat 4 (2 ^ p.toNat))).getLsbD q.toNat = _
    rw [getLsbD_andNot_twoPow _ _ q.isLt]
    by_cases h : q = p <;> simp [h, BitVec.toNat_inj, Group.qr]
  | true =>
    show (g.q ||| BitVec.ofNat 4 (2 ^ p.toNat)).getLsbD q.toNat = _
    rw [getLsbD_or_twoPow _ _ q.isLt]
    by_cases h : q = p <;> simp [h, BitVec.toNat_inj, Group.qr]

theorem Group.setBusyK_kbusy (g : Group) (d e : KReg) (x : DWord) :
    (g.setBusyK d.toNat x).kbusy.getLsbD e.toNat = (g.kbusy.getLsbD e.toNat && decide (e ≠ d)) := by
  show (g.kbusy &&& ~~~(BitVec.ofNat 32 (2 ^ d.toNat))).getLsbD e.toNat = _
  rw [getLsbD_andNot_twoPow _ _ e.isLt]
  simp [BitVec.toNat_inj]

/-- A fragment of a mapped split table. -/
theorem Group.frag_map_frags (g : Group) (F : Frag → Frag) (i : Nat) :
    ({ g with frags := g.frags.map fun f => f.map F } : Group).frag i = (g.frag i).map F := by
  cases h : g.frags[i]? with
  | none => simp [Group.frag, h]
  | some f => cases f <;> simp [Group.frag, h]

/-- Fragments that waited for the scoreboard try again once a held k register is written (R41, R59). -/
theorem Group.setBusyK_frag (g : Group) (n : Nat) (x : DWord) (i : Nat) :
    (g.setBusyK n x).frag i = (g.frag i).map fun f => if f.wait == some .scoreboard then { f with st := .ready, wait := none } else f :=
  (g.setK n x).frag_map_frags _ i

/-- Writing a held k register changes the registers, the scoreboard and the waits alone (R59). -/
theorem Group.setBusyK_frame (g : Group) (n : Nat) (x : DWord) :
    { g.setBusyK n x with k := g.k, kbusy := g.kbusy, frags := g.frags, spilled := g.spilled } = g := by
  cases g; rfl

/-- The registers of a thread slot. -/
theorem threadRegisters : Claims.ThreadRegisters := by
  intro t n m x p q b hn hm
  exact ⟨rfl, t.setV_v_same n x, t.setV_poisoned_same n x, fun h => ⟨t.setV_v_other x hn hm h, t.setV_poisoned_other x hn hm h⟩,
    fun r => rfl, t.pr_seven, t.setP_seven b, t.setP_pr_same b, t.setP_pr_other b, t.setP_v p b⟩

/-- The registers of a group. -/
theorem groupRegisters : Claims.GroupRegisters := by
  intro g d e p q x b
  refine ⟨g.setK_kr_same d x, g.setK_kr_other x, fun _ => rfl, ?_, fun h => ?_, fun _ => rfl, rfl, ?_, fun h => ?_, g.setBusyK_frame _ x,
    fun i _ => ?_⟩
  · rw [g.setQ_qr, if_pos rfl]
  · rw [g.setQ_qr, if_neg h]
  · rw [g.setBusyK_kbusy]; simp
  · rw [g.setBusyK_kbusy]; simp [h]
  · simp [g.setBusyK_frag]

/-- Settles O6, register by register: a window has 64 registers of 128 positions, and the bits of a predicate, of a q register and of
the scoreboard stand apart. -/
theorem registerFile : Obligations.RegisterFile := ⟨threadRegisters, groupRegisters⟩

end Sys2Proof.Machine

namespace Sys2Proof.Machine

open Sys2Proof.Safety

/-! ### What a word leaves as it was -/

/-- Every byte is as before when the memories and the spill buffers are. -/
theorem sameBytes_of_memories {s t : State} (hh : t.host = s.host) (hp : t.pkgs = s.pkgs) (ht : t.teams = s.teams)
    (hs : t.segs = s.segs) (hc : ∀ c, (t.core c).spill = (s.core c).spill) : SameBytes s t := by
  intro p
  cases p <;> simp [byteAt, State.pkg?, State.team?, hh, hp, ht, hs, hc]

theorem onlyGroup_refl (s : State) (gid : Nat) : OnlyGroup s s gid :=
  ⟨fun _ _ => rfl, fun _ => rfl, rfl, fun _ => rfl⟩

theorem onlyGroup_trans {s t u : State} {gid : Nat} (h : OnlyGroup s t gid) (k : OnlyGroup t u gid) : OnlyGroup s u gid where
  groups n hn := (k.groups n hn).trans (h.groups n hn)
  cores c := (k.cores c).trans (h.cores c)
  rest := by
    have := congrArg (fun x : State => { x with groups := s.groups, cores := s.cores }) k.rest
    exact this.trans h.rest
  bytes p := (k.bytes p).trans (h.bytes p)

/-- An update of one group changes nothing beyond it. -/
theorem onlyGroup_modGroup (s : State) (gid : Nat) {F : Group → Group} (hF : ∀ x, (F x).gid = x.gid) :
    OnlyGroup s (s.modGroup gid F) gid where
  groups _ hn := State.group_modGroup_other hF hn
  cores _ := rfl
  rest := rfl
  bytes := sameBytes_of_memories rfl rfl rfl rfl fun _ => rfl

/-- The cores after operand latches are released (R189). -/
theorem core_dropLatches (s : State) (g : Group) (regs : List Nat) (c : CoreId) :
    (dropLatches s g regs).core c = if c = g.core then
      { s.core g.core with
        latches := (s.core g.core).latches.filter fun l => !(l.gid == g.gid && regs.any fun r => l.va ≤ r && r < l.va + l.count) }
      else s.core c :=
  State.core_modCore s g.core c _ fun _ => rfl

@[simp] theorem group_dropLatches (s : State) (g : Group) (regs : List Nat) (n : Nat) :
    (dropLatches s g regs).group? n = s.group? n := by simp [dropLatches]

/-- Releasing operand latches changes nothing but them (R189). -/
theorem onlyGroup_dropLatches (s : State) (g : Group) (regs : List Nat) (gid : Nat) : OnlyGroup s (dropLatches s g regs) gid where
  groups n _ := group_dropLatches s g regs n
  cores c := by
    rw [core_dropLatches]
    split
    next h => subst h; rfl
    next => rfl
  rest := by unfold dropLatches State.modCore; split <;> rfl
  bytes := sameBytes_of_memories (by simp [dropLatches]) (by simp [dropLatches]) (by simp [dropLatches]) (by simp [dropLatches])
    fun c => by
      rw [core_dropLatches]
      split
      next h => subst h; rfl
      next => rfl

/-- One group updated: it becomes what the update makes of it, and beyond it nothing changes. -/
theorem becomes_modGroup {s : State} {gid : Nat} {g : Group} {F : Group → Group} (hg : s.group? gid = some g)
    (hF : ∀ x, (F x).gid = x.gid) : Becomes s (s.modGroup gid F) gid (F g) :=
  ⟨State.group_modGroup_same hg hF, onlyGroup_modGroup s gid hF⟩

/-! ### Thread slots changed together -/

/-- The slots of a group after a change of those that satisfy `p`. -/
theorem Group.thread_modThreads (g : Group) (p : Nat → Bool) (F : Nat → Thread → Thread) {i : Nat} (hi : i < 16) :
    (g.modThreads p F).thread i = if p i then F i (g.thread i) else g.thread i := by
  simp [Group.thread, Group.modThreads, hi]

theorem Group.modThreads_frame (g : Group) (p : Nat → Bool) (F : Nat → Thread → Thread) :
    { g.modThreads p F with threads := g.threads } = g := rfl

/-! ### The issue of a word -/

/-- A word of a fragment that issues runs its meaning (R26). -/
theorem issue_of_issues {s : State} {is : Issuer} {g : Group} {f : Frag} (h : Issues s is g f) (hw : g.wave = none) (inWave : Bool)
    (k : Iss → State) : issue s inWave k = .next (k ⟨s, is, g, f⟩) := by
  simp [issue, h.who, h.group, h.frag, hw]

/-- A word that a combiner method may use runs its meaning in a group and in a wave alike (R26, R301). -/
theorem issue_inWave {s : State} {is : Issuer} {g : Group} {f : Frag} (h : Issues s is g f) (k : Iss → State) :
    issue s true k = .next (k ⟨s, is, g, f⟩) := by
  cases hw : g.wave <;> simp [issue, h.who, h.group, h.frag, hw]

/-! ### Execution masks (R44, R48) -/

/-- The execution mask holds the slots that run (R44, R48). -/
theorem getLsbD_guarded (s : State) (is : Issuer) (g : Group) (f : Frag) (gd : Guard) {slot : Nat} (h : slot < 16) :
    (Iss.guarded ⟨s, is, g, f⟩ gd).getLsbD slot = runsIn g f gd slot := by
  unfold Iss.guarded runsIn source
  cases f.uni with
  | false =>
    simp only [Bool.false_eq_true, if_false]
    rw [getLsbD_maskOf, decide_eq_true h, Bool.true_and, bne_comm]
  | true =>
    simp only [if_true]
    cases (g.thread (lowest f.mask)).pr gd.p <;> cases gd.neg <;> simp

/-- The execution mask is empty when no slot runs. -/
theorem guarded_eq_zero_iff (s : State) (is : Issuer) (g : Group) (f : Frag) (gd : Guard) :
    Iss.guarded ⟨s, is, g, f⟩ gd = 0 ↔ ∀ slot, slot < 16 → runsIn g f gd slot = false := by
  rw [mask_eq_zero_iff]
  exact forall₂_congr fun slot h => by rw [getLsbD_guarded s is g f gd h]

/-- A slot that runs is active. -/
theorem getLsbD_of_runsIn {g : Group} {f : Frag} {gd : Guard} {slot : Nat} (h : runsIn g f gd slot = true) :
    f.mask.getLsbD slot = true := by
  simp only [runsIn, Bool.and_eq_true] at h
  exact h.1

/-- The lowest active slot runs when any slot does under UNI (R44). -/
theorem runsIn_source {g : Group} {f : Frag} {gd : Guard} {slot : Nat} (h : runsIn g f gd slot = true) :
    runsIn g f gd (source f slot) = true := by
  cases hu : f.uni with
  | false => simpa [source, hu] using h
  | true =>
    have hm : f.mask ≠ 0 := fun e => by simpa [e] using getLsbD_of_runsIn h
    simp only [runsIn, source, hu, Bool.and_eq_true, if_true] at h ⊢
    exact ⟨getLsbD_lowest hm, h.2⟩

theorem source_source (f : Frag) (slot : Nat) : source f (source f slot) = source f slot := by
  unfold source; split <;> rfl

theorem source_lt (f : Frag) {slot : Nat} (h : slot < 16) : source f slot < 16 := by
  unfold source; split
  · exact lowest_lt _
  · exact h

/-- The slots that a word reads are those of its execution mask that are their own source (R44). -/
theorem getLsbD_sources (s : State) (is : Issuer) (g : Group) (f : Frag) (gd : Guard) {slot : Nat} (h : slot < 16)
    (hm : Iss.guarded ⟨s, is, g, f⟩ gd ≠ 0) :
    (Iss.sources ⟨s, is, g, f⟩ (Iss.guarded ⟨s, is, g, f⟩ gd)).getLsbD slot = (runsIn g f gd slot && source f slot == slot) := by
  unfold Iss.sources
  cases hu : f.uni with
  | false => simp [getLsbD_guarded s is g f gd h, source, hu]
  | true =>
    obtain ⟨i, hi, hb⟩ := exists_slot_of_ne_zero hm
    rw [getLsbD_guarded s is g f gd hi] at hb
    have hl : runsIn g f gd (lowest f.mask) = true := by simpa [source, hu] using runsIn_source hb
    by_cases he : slot = lowest f.mask
    · rw [if_pos rfl, he, getLsbD_slotBit (lowest_lt _), hl]; simp [source, hu]
    · rw [if_pos rfl, getLsbD_slotBit h]; simp [source, hu, he, Ne.symm he]

/-! ### Thread words (R48, R58, R93, R96, R416) -/

/-- A thread word that no slot executes only moves on (R48). -/
theorem threadWord_masked (x : Iss) (gd : Guard) (len : Nat) (reads writes : List Nat) (F : Mask → Nat → Thread → TRes)
    (h : x.guarded gd = 0) : threadWord x gd len reads writes F = advance x.s x.is len := by
  simp [threadWord, h]

/-- No register of a mask's slots is pending when none is in any of its slots (R58). -/
theorem vsBusy_eq_false {g : Group} {m : Mask} {regs : List Nat}
    (h : ∀ slot, slot < 16 → m.getLsbD slot = true → ∀ n ∈ regs, g.vbusy slot n = false) : g.vsBusy m regs = false := by
  refine List.any_eq_false.2 fun slot hs => ?_
  have hs := mem_maskSlots.1 hs
  simpa using h slot (lt_of_getLsbD_mask hs) hs

/-- What a thread word makes of a slot: the slot takes the result `r`, and its own random state when it was read (R93, R115). -/
def TRes.into (r : TRes) (own : Bool) (t : Thread) : Thread :=
  if own then r.applyRng (r.apply t) else r.apply t

/-- What a thread word makes of its group: the slots of `m` take the results of the slots that they read, which `src` are (R44, R93). -/
def Iss.written (x : Iss) (m src : Mask) (F : Mask → Nat → Thread → TRes) (g : Group) : Group :=
  g.modThreads (fun i => m.getLsbD i) fun i t => (F src (x.from i) (x.g.thread (x.from i))).into (src.getLsbD i) t

/-- A thread word that no check stops writes its results and moves on (R93). -/
theorem threadWord_completes (x : Iss) (gd : Guard) (len : Nat) (reads writes : List Nat) (F : Mask → Nat → Thread → TRes)
    (hm : x.guarded gd ≠ 0) (hreads : x.g.vsBusy (x.sources (x.guarded gd)) reads = false)
    (hwrites : x.g.vsBusy (x.guarded gd) writes = false) (hpois : x.poisoned (x.sources (x.guarded gd)) reads = 0)
    (hhit : (maskOf fun i => (x.sources (x.guarded gd)).getLsbD i &&
      (F (x.sources (x.guarded gd)) (x.from i) (x.g.thread (x.from i))).conds.enabled x.g.arithen != 0) = 0) :
    threadWord x gd len reads writes F =
      advance ((dropLatches x.s x.g writes).modGroup x.is.gid (x.written (x.guarded gd) (x.sources (x.guarded gd)) F)) x.is len := by
  simp only [threadWord, beq_iff_eq, hm, if_false, hreads, hwrites, Bool.or_self, Bool.false_eq_true, hpois, bne_self_eq_false, hhit]
  rfl

/-- A thread word whose registers are ready, and that raises no enabled condition, completes: every slot of its execution mask takes
the result of the slot that is read (R44, R93, R96). -/
theorem threadWord_ready {s : State} {is : Issuer} {g : Group} {f : Frag} (hg : s.group? is.gid = some g) {gd : Guard}
    {reads writes : List Nat} (hr : Ready g f gd reads writes) (len : Nat) (F : Mask → Nat → Thread → TRes)
    (hc : ∀ slot, slot < 16 → runsIn g f gd slot = true → source f slot = slot →
      ∀ src, (F src slot (g.thread slot)).conds.enabled g.arithen = 0) :
    ∃ t g', threadWord ⟨s, is, g, f⟩ gd len reads writes F = advance t is len ∧ t.group? is.gid = some g' ∧
      (∀ slot, slot < 16 → g'.thread slot =
        if runsIn g f gd slot then
          (F (Iss.sources ⟨s, is, g, f⟩ (Iss.guarded ⟨s, is, g, f⟩ gd)) (source f slot) (g.thread (source f slot))).into
            (source f slot == slot) (g.thread slot)
        else g.thread slot) ∧
      { g' with threads := g.threads } = g ∧ OnlyGroup s t is.gid := by
  by_cases hm : Iss.guarded ⟨s, is, g, f⟩ gd = 0
  · have hoff := (guarded_eq_zero_iff s is g f gd).1 hm
    exact ⟨s, g, threadWord_masked _ gd len reads writes F hm, hg, fun slot h => by simp [hoff slot h], rfl, onlyGroup_refl s is.gid⟩
  have hsrc := fun {slot} (h : slot < 16) => getLsbD_sources s is g f gd h hm
  have hown : ∀ {slot}, slot < 16 → (Iss.sources ⟨s, is, g, f⟩ (Iss.guarded ⟨s, is, g, f⟩ gd)).getLsbD slot = true →
      runsIn g f gd slot = true ∧ source f slot = slot := fun h hs => by simpa [hsrc h] using hs
  have hreads : g.vsBusy (Iss.sources ⟨s, is, g, f⟩ (Iss.guarded ⟨s, is, g, f⟩ gd)) reads = false :=
    vsBusy_eq_false fun slot h hs n hn => by
      obtain ⟨hrun, he⟩ := hown h hs
      simpa [he] using (hr.sources slot h hrun n hn).1
  have hwrites : g.vsBusy (Iss.guarded ⟨s, is, g, f⟩ gd) writes = false := vsBusy_eq_false fun slot h hs n hn =>
    hr.results slot h (by rwa [getLsbD_guarded s is g f gd h] at hs) n hn
  have hpois : Iss.poisoned ⟨s, is, g, f⟩ (Iss.sources ⟨s, is, g, f⟩ (Iss.guarded ⟨s, is, g, f⟩ gd)) reads = 0 :=
    maskOf_eq_zero_iff.2 fun slot h => Bool.eq_false_iff.2 fun hbad => by
      obtain ⟨hs, hbad⟩ := Bool.and_eq_true_iff.1 hbad
      obtain ⟨n, hn, hp⟩ := List.any_eq_true.1 hbad
      obtain ⟨hrun, he⟩ := hown h hs
      simpa [he, hp] using (hr.sources slot h hrun n hn).2
  refine ⟨_, _, threadWord_completes _ gd len reads writes F hm hreads hwrites hpois
      (maskOf_eq_zero_iff.2 fun slot h => Bool.eq_false_iff.2 fun hbad => ?_),
    State.group_modGroup_same (by simpa using hg) fun _ => rfl, fun slot h => ?_, rfl,
    onlyGroup_trans (onlyGroup_dropLatches s g writes is.gid) (onlyGroup_modGroup _ _ fun _ => rfl)⟩
  · obtain ⟨hs, hbad⟩ := Bool.and_eq_true_iff.1 hbad
    obtain ⟨hrun, he⟩ := hown h hs
    have hfrom : Iss.from ⟨s, is, g, f⟩ slot = slot := he
    rw [hfrom] at hbad
    simp [hc slot h hrun he] at hbad
  · rw [Iss.written, Group.thread_modThreads _ _ _ h, getLsbD_guarded s is g f gd h]
    cases hrun : runsIn g f gd slot with
    | false => rfl
    | true => rw [hsrc h, hrun, Bool.true_and]; rfl

end Sys2Proof.Machine

namespace Sys2Proof.Machine

open Sys2Proof.Safety

/-! ### A word that no slot executes (R13, R48) -/

/-- The outcome is that of a word that only moves on when its guard leaves no slot (R48). -/
def MovesOn (gd : Guard) (s : State) (o : Outcome) : Prop :=
  ∃ inWave k, o = issue s inWave k ∧ ∀ x : Iss, x.guarded gd = 0 → k x = advance x.s x.is 1

/-- A thread word of one word under a guard. -/
theorem movesOn_threadWord (gd : Guard) (s : State) (inWave : Bool) (reads writes : Iss → List Nat)
    (F : Iss → Mask → Nat → Thread → TRes) :
    MovesOn gd s (issue s inWave fun x => threadWord x gd 1 (reads x) (writes x) (F x)) :=
  ⟨inWave, _, rfl, fun x h => threadWord_masked x gd 1 _ _ _ h⟩

/-! The forms of thread words with one, two and three operands. -/

theorem movesOn_tw1 (gd : Guard) (s : State) (d a : VReg) (F : Word → Word) : MovesOn gd s (tw1 s d a gd F) :=
  movesOn_threadWord gd s _ _ _ _
theorem movesOn_tw2 (gd : Guard) (s : State) (d a b : VReg) (F : Word → Word → Word) : MovesOn gd s (tw2 s d a b gd F) :=
  movesOn_threadWord gd s _ _ _ _
theorem movesOn_tw3 (gd : Guard) (s : State) (d a b : VReg) (F : Word → Word → Word → Word) : MovesOn gd s (tw3 s d a b gd F) :=
  movesOn_threadWord gd s _ _ _ _
theorem movesOn_fw1 (gd : Guard) (s : State) (d a : VReg) (F : Thread → Nat × Conds) : MovesOn gd s (fw1 s d a gd F) :=
  movesOn_threadWord gd s _ _ _ _
theorem movesOn_fw2 (gd : Guard) (s : State) (d a b : VReg) (F : Thread → Nat × Conds) : MovesOn gd s (fw2 s d a b gd F) :=
  movesOn_threadWord gd s _ _ _ _
theorem movesOn_fw3 (gd : Guard) (s : State) (d a b : VReg) (F : Thread → Nat × Conds) : MovesOn gd s (fw3 s d a b gd F) :=
  movesOn_threadWord gd s _ _ _ _

/-- Every word of a T-format class with a guard looks at its execution mask first (R48). -/
theorem exec_movesOn {i : Instr} {gd : Guard} (h : guardOf i = some gd) (s : State) : MovesOn gd s (exec i s) := by
  cases i with
  | iabs | bitop =>
    obtain rfl : _ = gd := Option.some.inj h
    simp only [exec]
    exact movesOn_tw1 _ s _ _ _
  | iadd | isub | imul | iminmax | logic | shift | bfe =>
    obtain rfl : _ = gd := Option.some.inj h
    simp only [exec]
    exact movesOn_tw2 _ s _ _ _ _
  | imad | bfi =>
    obtain rfl : _ = gd := Option.some.inj h
    simp only [exec]
    exact movesOn_tw3 _ s _ _ _ _
  | cvt | frnd | fspec =>
    obtain rfl : _ = gd := Option.some.inj h
    simp only [exec]
    exact movesOn_fw1 _ s _ _ _
  | fadd | fsub | fmul | fminmax | padd2 | pmul2 | pminmax2 | hadd | hmul =>
    obtain rfl : _ = gd := Option.some.inj h
    simp only [exec]
    exact movesOn_fw2 _ s _ _ _ _
  | ffma | pfma2 | hfma =>
    obtain rfl : _ = gd := Option.some.inj h
    simp only [exec]
    exact movesOn_fw3 _ s _ _ _ _
  | fsign op =>
    obtain rfl : _ = gd := Option.some.inj h
    simp only [exec, execFsign]
    split
    · exact movesOn_fw2 _ s _ _ _ _
    · exact movesOn_fw1 _ s _ _ _
  | icmp | add64 | lea | fcmp | pack | unpk | rand | plop | pmovV | pmovP | shfl | vote | ballot | redt | scan | fragq =>
    obtain rfl : _ = gd := Option.some.inj h
    simp only [exec]
    exact movesOn_threadWord _ s _ _ _ _
  | bcast =>
    obtain rfl : _ = gd := Option.some.inj h
    simp only [exec]
    exact ⟨true, _, rfl, fun x hx => if_pos (beq_iff_eq.2 hx)⟩
  | _ => cases h

/-- Settles O15: every such word looks at its execution mask first, and that mask is empty. -/
theorem maskedOff : Obligations.MaskedOff := by
  intro i gd s is g f hgd hi hw hoff
  obtain ⟨inWave, k, hk, hmove⟩ := exec_movesOn hgd s
  rw [hk, issue_of_issues hi hw, hmove _ ((guarded_eq_zero_iff s is g f gd).2 hoff)]

/-- No slot runs under `?!p7` (R13). -/
theorem runsIn_not_seven (g : Group) (f : Frag) (slot : Nat) : runsIn g f ⟨true, 7⟩ slot = false := by
  rw [runsIn, Thread.pr_seven, bne_self_eq_false, Bool.and_false]

/-- p7 without negation selects every active slot (R13). -/
theorem runsIn_seven (g : Group) (f : Frag) (slot : Nat) : runsIn g f ⟨false, 7⟩ slot = f.mask.getLsbD slot := by
  rw [runsIn, Thread.pr_seven]
  exact Bool.and_true _

/-- Settles O16: p7 reads 1 in every slot, so that its negation selects none. -/
theorem predicateSeven : Obligations.PredicateSeven :=
  ⟨fun t _ _ b => ⟨t.pr_seven, t.setP_seven b, t.setP_pr_same b, t.setP_pr_other b⟩,
    fun g f slot => ⟨runsIn_not_seven g f slot, runsIn_seven g f slot⟩,
    fun i s is g f hgd hi hw => maskedOff i ⟨true, 7⟩ s is g f hgd hi hw fun slot _ => runsIn_not_seven g f slot⟩

end Sys2Proof.Machine

namespace Sys2Proof

open Sys2Proof.Safety

/-! ### Numbers that FP32 holds exactly (R69, R76) -/

/-- The value of a normal FP32 code, by its fields (R69). -/
theorem valOf_f32_normal (neg : Bool) {ex fr : Nat} (hex : 0 < ex) (hex' : ex < 255) (hfr : fr < 2 ^ 23) :
    valOf .f32 (b2n neg * 2 ^ 31 + (ex * 2 ^ 23 + fr)) = .num neg (fr + 2 ^ 23) (ex - 150) := by
  have hneg : bitOf (b2n neg * 2 ^ 31 + (ex * 2 ^ 23 + fr)) 31 = neg := by
    have : (b2n neg * 2 ^ 31 + (ex * 2 ^ 23 + fr)) / 2 ^ 31 = b2n neg := by omega
    rw [bitOf, this]; cases neg <;> rfl
  have hexp : bitsOf (b2n neg * 2 ^ 31 + (ex * 2 ^ 23 + fr)) 23 8 = ex := by unfold bitsOf; omega
  have hfrac : bitsOf (b2n neg * 2 ^ 31 + (ex * 2 ^ 23 + fr)) 0 23 = fr := by unfold bitsOf; omega
  have htop : (ex == 2 ^ 8 - 1) = false := by simp; omega
  have hzero : (ex == 0) = false := by simp; omega
  have hbias : ((ex : Int) - (127 : Nat) - (23 : Nat)) = ex - 150 := by omega
  simp only [valOf, CvtFmt.width, CvtFmt.fb, CvtFmt.eb, CvtFmt.bias, hneg, hexp, hfrac, htop, hzero, hbias, Bool.and_false,
    Bool.false_and, Bool.false_eq_true, if_false]

/-- A number of at most 24 significant bits, shifted up until it has 24. -/
theorem significand_bounds {m : Nat} (hm : 0 < m) (hm24 : m < 2 ^ 24) :
    Nat.log2 m ≤ 23 ∧ 2 ^ 23 ≤ m * 2 ^ (23 - Nat.log2 m) ∧ m * 2 ^ (23 - Nat.log2 m) < 2 ^ 24 := by
  have hL : Nat.log2 m < 24 := (Nat.log2_lt (by omega)).2 hm24
  refine ⟨by omega, ?_, ?_⟩
  · calc 2 ^ 23 = 2 ^ Nat.log2 m * 2 ^ (23 - Nat.log2 m) := by rw [← Nat.pow_add]; congr 1; omega
      _ ≤ m * 2 ^ (23 - Nat.log2 m) := Nat.mul_le_mul_right _ (Nat.log2_self_le (by omega))
  · calc m * 2 ^ (23 - Nat.log2 m) < 2 ^ (Nat.log2 m + 1) * 2 ^ (23 - Nat.log2 m) :=
          Nat.mul_lt_mul_of_pos_right Nat.lt_log2_self (by positivity)
      _ = 2 ^ 24 := by rw [← Nat.pow_add]; congr 1; omega

/-- A number of at most 24 significant bits whose exponent is in the normal range: its code in FP32, in every mode. -/
theorem toFmt_f32_normal (rm : Rm) (neg : Bool) {m : Nat} {e : Int} (hm : 0 < m) (hm24 : m < 2 ^ 24)
    (hlo : -126 ≤ (Nat.log2 m : Int) + e) (hhi : (Nat.log2 m : Int) + e ≤ 127) :
    (toFmt .f32 rm (.num neg m e)).1 =
      b2n neg * 2 ^ 31 + (((Nat.log2 m : Int) + e + 127).toNat * 2 ^ 23 + (m * 2 ^ (23 - Nat.log2 m) - 2 ^ 23)) := by
  obtain ⟨hL, hn, hn'⟩ := significand_bounds hm hm24
  have hmax : max ((Nat.log2 m : Int) + e) (1 - ((127 : Nat) : Int)) = Nat.log2 m + e := by omega
  have hround : roundAt rm neg m e ((Nat.log2 m : Int) + e - ((23 : Nat) : Int)) = (m * 2 ^ (23 - Nat.log2 m), false) := by
    have hq : (Nat.log2 m : Int) + e - ((23 : Nat) : Int) ≤ e := by omega
    have hsh : (e - ((Nat.log2 m : Int) + e - ((23 : Nat) : Int))).toNat = 23 - Nat.log2 m := by omega
    simp only [roundAt, hq, if_true, hsh]
  generalize m * 2 ^ (23 - Nat.log2 m) = n at hn hn' hround ⊢
  have hk : ((Nat.log2 m : Int) + e - (1 - ((127 : Nat) : Int))).toNat = ((Nat.log2 m : Int) + e + 127).toNat - 1 := by omega
  have hcode : ¬ (((Nat.log2 m : Int) + e + 127).toNat - 1) * 2 ^ 23 + n > CvtFmt.maxCode .f32 := by
    have : CvtFmt.maxCode .f32 = 255 * 2 ^ 23 - 1 := by decide
    omega
  have hm0 : (m == 0) = false := by simp; omega
  simp only [toFmt, roundTo, hm0, Bool.false_eq_true, if_false, roundFloat, CvtFmt.bias, CvtFmt.fb, hmax, hround, hk, hcode,
    CvtFmt.signed, CvtFmt.width]
  omega

/-- A number of at most 24 significant bits whose exponent is in the normal range is exact in FP32, and its code has 32 bits. -/
theorem toFmt_f32_exact (rm : Rm) (neg : Bool) {m : Nat} {e : Int} (hm : 0 < m) (hm24 : m < 2 ^ 24)
    (hlo : -126 ≤ (Nat.log2 m : Int) + e) (hhi : (Nat.log2 m : Int) + e ≤ 127) :
    (toFmt .f32 rm (.num neg m e)).1 < 2 ^ 32 ∧
      ratOf (valOf .f32 (toFmt .f32 rm (.num neg m e)).1) = ratOf (.num neg m e) := by
  obtain ⟨hL, hn, hn'⟩ := significand_bounds hm hm24
  rw [toFmt_f32_normal rm neg hm hm24 hlo hhi, valOf_f32_normal neg (by omega) (by omega) (by omega)]
  refine ⟨?_, ?_⟩
  · have : b2n neg ≤ 1 := by cases neg <;> decide
    omega
  · have hsig : m * 2 ^ (23 - Nat.log2 m) - 2 ^ 23 + 2 ^ 23 = m * 2 ^ (23 - Nat.log2 m) := by omega
    have hexp : (((((Nat.log2 m : Int) + e + 127).toNat : Nat) : Int) - 150) = e - ((23 - Nat.log2 m : Nat) : Int) := by omega
    rw [hsig, hexp]
    simp only [ratOf, Nat.cast_mul, Nat.cast_pow, Nat.cast_ofNat, zpow_sub₀ (two_ne_zero' ℚ), zpow_natCast]
    field_simp

end Sys2Proof

namespace Sys2Proof.Machine

open Sys2Proof.Safety

/-! ### RAND (R115) -/

/-- The word that RAND writes from what a step of the generator returns (R115). -/
def randValue (k : RandKind) (r : DWord) : Word :=
  match k with
  | .b32 => BitVec.ofNat 32 (r.toNat / 2 ^ 32)
  | .f32 => BitVec.ofNat 32 (toFmt .f32 .rne (.num false (r.toNat / 2 ^ 40) (-24))).1

/-- RAND is a thread word that reads no register, and steps the generator of the slot that it reads (R115). -/
theorem exec_rand (k : RandKind) (d : VReg) (gd : Guard) (s : State) :
    exec (.rand k d gd) s = issue s false fun x => threadWord x gd 1 [] [d.toNat] fun _ _ t =>
      { v := [(d.toNat, randValue k (randStep t.s0 t.s1).2)], p := none, rng := some (randStep t.s0 t.s1).1, conds := Conds.none } := by
  cases k <;> rfl

/-- rand.b32 writes the top 32 bits (R115). -/
theorem randValue_b32 (r : DWord) : randValue .b32 r = (r >>> 32).setWidth 32 := by
  apply BitVec.eq_of_toNat_eq
  simp [randValue, Nat.shiftRight_eq_div_pow]

/-- rand.f32 writes exactly the top 24 bits times 2^−24 (R115). -/
theorem ratOf_randValue_f32 (r : DWord) :
    ratOf (valOf .f32 (randValue .f32 r).toNat) = (r.toNat / 2 ^ 40 : Nat) / 2 ^ 24 := by
  have hr : r.toNat / 2 ^ 40 < 2 ^ 24 := by have := r.isLt; omega
  simp only [randValue, BitVec.toNat_ofNat]
  generalize r.toNat / 2 ^ 40 = m at hr
  rcases Nat.eq_zero_or_pos m with rfl | hm
  · decide +kernel
  · obtain ⟨hL, -⟩ := significand_bounds hm hr
    obtain ⟨hlt, hval⟩ := toFmt_f32_exact .rne false hm hr (e := -24) (by omega) (by omega)
    rw [Nat.mod_eq_of_lt hlt, hval]
    simp [ratOf, zpow_neg, div_eq_mul_inv]

/-- Settles O11: RAND is a thread word with no operand, and 24 bits are exact in FP32. -/
theorem randWords : Obligations.RandWords := by
  intro k d gd s is g f hw hi hr
  obtain ⟨t, g', hexec, hg', hthreads, hframe, honly⟩ := threadWord_ready hi.group hr 1
    (fun _ _ t => { v := [(d.toNat, randValue k (randStep t.s0 t.s1).2)], p := none, rng := some (randStep t.s0 t.s1).1
                    conds := Conds.none }) fun _ _ _ _ _ => by simp [Conds.enabled, Conds.bits, Conds.none, b2n]
  refine ⟨t, g', ?_, hg', fun slot h => ?_, hframe, honly⟩
  · rw [exec_rand, issue_of_issues hi hw, hexec]
  · rw [hthreads slot h]
    cases hrun : runsIn g f gd slot with
    | false => rfl
    | true =>
      refine ⟨randValue k (randStep (g.thread (source f slot)).s0 (g.thread (source f slot)).s1).2, ?_, ?_⟩
      · cases k with
        | b32 => exact randValue_b32 _
        | f32 => exact ratOf_randValue_f32 _
      · by_cases he : source f slot = slot <;> simp [TRes.into, TRes.apply, TRes.applyRng, randStep, he]

end Sys2Proof.Machine

namespace Sys2Proof.Machine

open Sys2Proof.Safety

/-! ### SRR (R33, R418) -/

theorem loOf_eq_setWidth (x : DWord) : loOf x = x.setWidth 32 := by
  apply BitVec.eq_of_toNat_eq
  simp [loOf]

theorem hiOf_eq_setWidth (x : DWord) : hiOf x = (x >>> 32).setWidth 32 := by
  apply BitVec.eq_of_toNat_eq
  simp [hiOf, Nat.shiftRight_eq_div_pow]

@[simp] theorem Group.ksBusy_singleton (g : Group) (n : Nat) : g.ksBusy [n] = g.kbusy.getLsbD n := by
  simp [Group.ksBusy]

/-- The v registers that a system word names are free when each of them is. -/
theorem vsBusy_sysRegs {g : Group} {m : Mask} {r w : Nat} (h : ∀ slot, slot < 16 → m.getLsbD slot = true →
    g.vbusy slot r = false ∧ (w = 64 → g.vbusy slot (r + 1) = false)) : g.vsBusy m (sysRegs r w) = false := by
  refine vsBusy_eq_false fun slot hs hm n hn => ?_
  obtain ⟨hlo, hhi⟩ := h slot hs hm
  by_cases hw : w = 64
  · rcases (by simpa [sysRegs, hw] using hn : n = r ∨ n = r + 1) with rfl | rfl
    · exact hlo
    · exact hhi hw
  · obtain rfl : n = r := by simpa [sysRegs, hw] using hn
    exact hlo

/-- SRR with its value in v: each active slot takes its own (R33). -/
theorem exec_srr_v {s : State} {is : Issuer} {g : Group} {f : Frag} (hi : Issues s is g f) (hw : g.wave = none) {reg : BitVec 6}
    {idx : BitVec 12} {w : Nat} (hwidth : sysWidth idx.toNat = some w) (hpair : w = 64 → reg.toNat % 2 = 0)
    (hbusy : g.vsBusy f.mask (sysRegs reg.toNat w) = false) :
    exec (.srr reg idx false) s = .next (advance ((dropLatches s g (sysRegs reg.toNat w)).modGroup is.gid fun h =>
      h.modThreads (fun n => f.mask.getLsbD n) fun n t =>
        if w == 64 then (t.setV reg.toNat (loOf (sysRead s g idx.toNat n))).setV (reg.toNat + 1) (hiOf (sysRead s g idx.toNat n))
        else t.setV reg.toNat (loOf (sysRead s g idx.toNat n))) is 1) := by
  have hbad : sysRegBad reg.toNat w false = false := by
    by_cases h : w = 64
    · simp [sysRegBad, hpair h]
    · simp [sysRegBad, h]
  show execSrr reg idx false s = _
  simp only [execSrr, issue_of_issues hi hw, hwidth, hbad, sysBusy, hbusy, Bool.false_eq_true, if_false]

theorem systemReadWord : Claims.SystemReadWord := by
  intro reg idx s is g f hi hw r i
  refine ⟨fun rk hnone => ?_, fun _ hsome hfree => ?_, fun hwidth hodd => ?_, fun w hwidth hpair hfree => ?_⟩
  · show execSrr reg idx rk s = _
    simp only [execSrr, issue_of_issues hi hw, show sysWidth idx.toNat = none from hnone, illegal]
  · obtain ⟨w, hwidth⟩ := Option.ne_none_iff_exists'.1 hsome
    refine ⟨_, ?_, becomes_modGroup (F := fun h => h.setK r (sysRead s g i (lowest f.mask))) hi.group fun _ => rfl⟩
    show execSrr reg idx true s = _
    simp only [execSrr, issue_of_issues hi hw, show sysWidth idx.toNat = some w from hwidth, sysRegBad, sysBusy, Group.ksBusy_singleton,
      show g.kbusy.getLsbD reg.toNat = false from hfree, Bool.not_true, Bool.false_and, Bool.false_eq_true, if_false, if_true]
    rfl
  · have hbad : sysRegBad reg.toNat 64 false = true := by simp [sysRegBad, show reg.toNat % 2 = 1 from hodd]
    show execSrr reg idx false s = _
    simp only [execSrr, issue_of_issues hi hw, show sysWidth idx.toNat = some 64 from hwidth, hbad, if_true, illegal]
  · refine ⟨_, _, exec_srr_v hi hw hwidth hpair (vsBusy_sysRegs hfree),
      State.group_modGroup_same (by simpa using hi.group) fun _ => rfl, fun slot h => ?_, rfl,
      onlyGroup_trans (onlyGroup_dropLatches s g _ is.gid) (onlyGroup_modGroup _ _ fun _ => rfl)⟩
    rw [Group.thread_modThreads _ _ _ h]
    simp only [loOf_eq_setWidth, hiOf_eq_setWidth, beq_iff_eq]
    rfl

/-! ### The values of system registers (R25, R27, R30, R33) -/

/-- The fields of WSTATE (R25). -/
theorem wstate_fields (t : Thread) :
    t.wstate.toNat % 2 ^ 20 = t.wbase % 2 ^ 20 ∧ t.wstate.toNat / 2 ^ 20 % 2 ^ 20 = t.rbase % 2 ^ 20 ∧
      t.wstate.toNat / 2 ^ 40 % 2 ^ 7 = t.frame % 2 ^ 7 ∧ t.wstate.toNat / 2 ^ 47 % 2 ^ 4 = t.links.length % 2 ^ 4 ∧
      t.wstate.toNat / 2 ^ 51 = t.cdepth % 2 ^ 13 := by
  simp only [Thread.wstate, BitVec.toNat_ofNat]
  omega

theorem b2n_le (b : Bool) : b2n b ≤ 1 := by cases b <;> decide

/-- The fields of REPS (R27), as a number. -/
theorem reps_fields (r : Reps) :
    r.num % 2 ^ 6 = r.remain % 2 ^ 6 ∧ r.num / 2 ^ 6 % 2 ^ 6 = r.index % 2 ^ 6 ∧ r.num / 2 ^ 12 % 2 = b2n r.stepb ∧
      r.num / 2 ^ 13 % 2 = b2n r.stepa ∧ r.num / 2 ^ 14 % 2 = b2n r.stepd ∧ r.num / 2 ^ 15 % 2 = b2n r.active ∧ r.num < 2 ^ 16 := by
  have := b2n_le r.stepb
  have := b2n_le r.stepa
  have := b2n_le r.stepd
  have := b2n_le r.active
  simp only [Reps.num]
  omega

/-- A bit of a number that a 64-bit value holds, read as a flag. -/
theorem getLsbD_ofNat_eq {n i : Nat} {b : Bool} (hi : i < 64) (h : n / 2 ^ i % 2 = b2n b) : (BitVec.ofNat 64 n).getLsbD i = b := by
  rw [BitVec.getLsbD_ofNat, Nat.testBit_eq_decide_div_mod_eq, h]
  cases b <;> simp [hi, b2n]

theorem systemRegisterValues : Claims.SystemRegisterValues := by
  intro s g tm gr slot hslot htm hgr
  have hws : sysRead s g 0x040 slot = (g.thread slot).wstate := by simp only [sysRead]
  have hreps : sysRead s g 0x042 slot = BitVec.ofNat 64 g.reps.num := by simp only [sysRead]
  obtain ⟨hw, hr, hf, hl, hc⟩ := wstate_fields (g.thread slot)
  obtain ⟨hrem, hidx, hb, ha, hd, hact, hlt⟩ := reps_fields g.reps
  have hnum : (BitVec.ofNat 64 g.reps.num).toNat = g.reps.num := by rw [BitVec.toNat_ofNat]; omega
  dsimp only
  rw [hws, hreps, hnum]
  refine ⟨?_, ?_, ?_, ?_, ?_, ?_, ?_, ?_, ?_, ?_, ?_, ?_, hw, hr, hf, hl, hc, hrem, hidx, getLsbD_ofNat_eq (by decide) hb,
    getLsbD_ofNat_eq (by decide) ha, getLsbD_ofNat_eq (by decide) hd, getLsbD_ofNat_eq (by decide) hact, hlt⟩
  · simp only [sysRead, BitVec.toNat_ofNat]; omega
  all_goals simp [sysRead, coreRead, gthread, htm, hgr]

/-- Settles O31: SRR branch by branch, and the layouts field by field. -/
theorem systemRead : Obligations.SystemRead := ⟨systemReadWord, systemRegisterValues⟩

/-! ### SRW (R32, R403, R418) -/

/-- The registers that user code may write have a width, and none is a handler's (R33, R403). -/
theorem sysUser_spec {i : Nat} (h : i = 0x010 ∨ i = 0x022 ∨ i = 0x023 ∨ i = 0x024 ∨ i = 0x044) :
    sysUser i = true ∧ sysHandler i = false ∧ sysWidth i ≠ none := by
  rcases h with rfl | rfl | rfl | rfl | rfl <;> decide

/-- The registers that a handler alone may write have a width (R403). -/
theorem sysHandler_spec {i : Nat} (h : i = 0x043 ∨ i = 0x045 ∨ (0x060 ≤ i ∧ i ≤ 0x065) ∨ (0x06C ≤ i ∧ i ≤ 0x06F) ∨
    (0x100 ≤ i ∧ i ≤ 0x1FF)) : sysHandler i = true ∧ sysWidth i ≠ none := by
  refine ⟨by simpa [sysHandler, or_assoc] using h, ?_⟩
  unfold sysWidth
  rcases h with rfl | rfl | h | h | h
  · decide
  · decide
  all_goals
    have h5 : (i == 0x005) = false := by simp; omega
    have h32 : (decide (i ≤ 0x006) || i == 0x043 || i == 0x045) = false := by simp; omega
    simp only [h5, h32]
    simp; omega

/-- SRW of a k register that the group may write queues the write (R32). -/
theorem exec_srw_queues {s : State} {is : Issuer} {g : Group} {f : Frag} (hi : Issues s is g f) (hw : g.wave = none)
    {reg : BitVec 6} {idx : BitVec 12} (hfree : g.kbusy.getLsbD reg.toNat = false) (hwidth : sysWidth idx.toNat ≠ none)
    (hmay : (sysHandler idx.toNat && !g.trap.tmode) = false) (hwrite : (!sysHandler idx.toNat && !sysUser idx.toNat) = false) :
    exec (.srw reg idx true) s = .next (advance (s.modGroup is.gid fun h =>
      { h with srwq := h.srwq ++ [⟨is.entry, idx.toNat, g.kr reg.toNat⟩] }) is 1) := by
  obtain ⟨w, hwidth⟩ := Option.ne_none_iff_exists'.1 hwidth
  show execSrw reg idx true s = _
  simp only [execSrw, issue_of_issues hi hw, hwidth, sysRegBad, hmay, hwrite, Group.ksBusy_singleton, hfree, Bool.not_true, Bool.false_and,
    Bool.false_eq_true, if_false, if_true, bne_self_eq_false]

theorem systemWriteWord : Claims.SystemWriteWord := by
  intro reg idx s is g f hi hw _ hfree i user handler
  have hbecomes := becomes_modGroup (F := fun h : Group => { h with srwq := h.srwq ++ [⟨is.entry, idx.toNat, g.kr reg.toNat⟩] })
    hi.group fun _ => rfl
  refine ⟨?_, fun hh htm => ?_⟩
  · rintro (hu | ⟨hh, htm⟩)
    · obtain ⟨huser, hnot, hwidth⟩ := sysUser_spec hu
      exact ⟨_, exec_srw_queues hi hw hfree hwidth (by simp [i, hnot]) (by simp [i, huser]), hbecomes⟩
    · obtain ⟨hand, hwidth⟩ := sysHandler_spec hh
      exact ⟨_, exec_srw_queues hi hw hfree hwidth (by simp [htm]) (by simp [i, hand]), hbecomes⟩
  · obtain ⟨hand, hwidth⟩ := sysHandler_spec hh
    obtain ⟨w, hwidth⟩ := Option.ne_none_iff_exists'.1 hwidth
    have hand : sysHandler idx.toNat = true := hand
    show execSrw reg idx true s = _
    simp only [execSrw, issue_of_issues hi hw, show sysWidth idx.toNat = some w from hwidth, sysRegBad, hand, htm, Bool.not_true,
      Bool.false_and, Bool.false_eq_true, if_false, Bool.not_false, Bool.and_self, if_true, illegal]

/-! ### A system register write takes effect (R31, R403, R404) -/

/-- TPEND after a write: the pending bits 5 to 15 that are written with 1 are cleared (R404). -/
theorem tpend_write (t : TrapState) (x : DWord) {c : Nat} (hc : c < 16) :
    (t.write 0x065 x).tpend.getLsbD c = (t.tpend.getLsbD c && !(decide (5 ≤ c) && x.getLsbD c)) := by
  have hbit : bitOf x.toNat c = x.getLsbD c := by
    rw [BitVec.getLsbD, Nat.testBit_eq_decide_div_mod_eq]; rfl
  have hfold := getLsbD_foldl_slotBit (fun c => t.tpend.getLsbD c && !(decide (5 ≤ c) && decide (c ≤ 15) && bitOf x.toNat c))
    (upTo 16) 0 hc
  refine Eq.trans hfold ?_
  have hc' : c ≤ 15 := by omega
  simp [hc, hc', hbit]

theorem systemWriteEffect : Claims.SystemWriteEffect := by
  intro g x
  have hnbv : bitsOf x.toNat 0 2 = x.toNat % 4 := by simp [bitsOf]
  refine ⟨fun h => by simp [Group.writeSys, hnbv, h], fun h => by simp [Group.writeSys, hnbv, h], rfl, rfl, ?_, ?_, ?_, ?_, ?_,
    fun c hc => tpend_write g.trap x hc⟩
  · have : BitVec.ofNat 5 x.toNat = x.setWidth 5 := BitVec.eq_of_toNat_eq (by simp)
    simp only [Group.writeSys, this]
  · have : BitVec.ofNat 64 (bitsOf x.toNat 0 57) = x &&& (2 ^ 57 - 1) := by
      apply BitVec.eq_of_toNat_eq
      have hmask : (2 ^ 57 - 1 : BitVec 64).toNat = 2 ^ 57 - 1 := by decide
      rw [BitVec.toNat_ofNat, BitVec.toNat_and, hmask, Nat.and_two_pow_sub_one_eq_mod, bitsOf]
      omega
    simp only [Group.writeSys, this]
  · simp only [Group.writeSys, loOf_eq_setWidth]
  · simp only [Group.writeSys, loOf_eq_setWidth]
  · intro i
    fin_cases i <;> exact ⟨by simp [Group.writeSys, TrapState.write], rfl⟩

/-- Settles O32: SRW queues its write or traps by the register that it names, and each write is a field of its register. -/
theorem systemWrite : Obligations.SystemWrite := ⟨systemWriteWord, systemWriteEffect⟩

end Sys2Proof.Machine

namespace Sys2Proof.Machine

open Sys2Proof.Safety

/-! ### What a step runs (R26, R38, R66, R144) -/

/-- A step whose next move runs an instruction: its `exec`, and then what the opportunity has come to. -/
theorem step_of_run {s u w : State} {i : Instr} (h : nextIssue s.tick = .run i u) (hw : exec i u = .next w) :
    step s = .next (afterIssue s.tick u w) := by
  simp only [step, h, hw]

theorem step_of_done {s u : State} (h : nextIssue s.tick = .done u) : step s = .next u := by
  simp only [step, h]

/-- With no issuer there is no opportunity. -/
theorem afterIssue_of_noIssuer {old s t : State} (h : s.who = none) : afterIssue old s t = t := by
  simp only [afterIssue, h]

/-- A step whose next move runs an instruction for no issuer is that instruction's `exec`. -/
theorem step_of_run_noIssuer {s u : State} {i : Instr} (h : nextIssue s.tick = .run i u) (hu : u.who = none) : step s = exec i u := by
  simp only [step, h]
  cases exec i u with
  | next t => exact congrArg Host.Outcome.next (afterIssue_of_noIssuer hu)
  | fault f => rfl
  | refused r => rfl

/-- A lane's opportunity, when no event and no settlement of its groups is due: the picked fragment issues (R144, R398). -/
theorem nextIssue_lane {s : State} {c : CoreId} {l : Nat} {r : List Move} {o : Offer} {g : Group} {f : Frag}
    (hagenda : s.agenda = .lane c l :: r) {u : State}
    (hu : u = (clearWaits { s with agenda := r, cur := some (.lane c l) } (.lane c l)).owe [.lane c l])
    (hlive : laneLive (clearWaits { s with agenda := r, cur := some (.lane c l) } (.lane c l)) c l = true)
    (htrap : ((laneGroups u c l).find? fun g => g.trapDue && (!g.resident.isEmpty || g.spilled.isEmpty)) = none)
    (hsettle : ((laneGroups u c l).find? fun g => g.settleDue) = none) (hpick : pickOffer (offersOf u (laneGroups u c l)) = some o)
    (hg : u.group? o.gid = some g) (hf : g.frag o.entry = some f) :
    nextIssue s = issueFrag { u with who := some ⟨o.gid, o.entry⟩ } ⟨o.gid, o.entry⟩ g f := by
  have hg' : ({ u with who := some ⟨o.gid, o.entry⟩ } : State).group? o.gid = some g := hg
  have hlane : laneIssue u c l = issueFrag { u with who := some ⟨o.gid, o.entry⟩ } ⟨o.gid, o.entry⟩ g f := by
    simp only [laneIssue, htrap, hsettle, issueFrom, hpick, hg', hf]
  rw [← hlane, hu]
  simp only [nextIssue, hagenda, hlive, if_true]

/-- A fragment inside its clause issues the word at its PC (R26, R66). -/
theorem issueFrag_inClause {s : State} {is : Issuer} {g : Group} {f : Frag} {h : Word} (hreps : g.reps.active = false)
    (hhdr : f.hdr = some h) : issueFrag s is g f = issueWord s is g f := by
  simp only [issueFrag, hreps, hhdr, Bool.false_eq_true, if_false]

theorem issueWord_of_decode {s u : State} {is : Issuer} {g : Group} {f : Frag} {w x : Word} {i : Instr}
    (h : fetchInstr s g f.clause f.word none = (u, .ok (w, x))) (hdec : decode w.toNat x.toNat = some i) :
    issueWord s is g f = .run i (passOpportunity u is) := by
  simp only [issueWord, fetched, h, hdec]

theorem issueWord_of_decode_none {s u : State} {is : Issuer} {g : Group} {f : Frag} {w x : Word}
    (h : fetchInstr s g f.clause f.word none = (u, .ok (w, x))) (hdec : decode w.toNat x.toNat = none) :
    issueWord s is g f = .done (undecoded u is g w) := by
  simp only [issueWord, fetched, h, hdec]

/-- A code fetch that faults raises class 5 (R226). -/
theorem issueWord_of_fault {s u : State} {is : Issuer} {g : Group} {f : Frag} {va : Nat} {x : XFault} (hw : g.wave = none)
    (h : fetchInstr s g f.clause f.word none = (u, .fault va x)) :
    issueWord s is g f = .done (takeTrap u is 5 ⟨x.cause, BitVec.ofNat 64 (x.level * 2 ^ 26), BitVec.ofNat 64 va⟩) := by
  simp [issueWord, fetched, h, fetchTrap, hw, faultD, tinfoOf]

theorem stepRunsWords : Claims.StepRunsWords := by
  rintro s t c l r o g f hagenda ⟨hlive, htrap, hsettle, hpick, rfl⟩ hg hf is runs
  have hnext := nextIssue_lane hagenda rfl hlive htrap hsettle hpick hg hf
  refine ⟨fun hreps w hw => ?_, fun hreps hhdr hword w hw => ?_, fun h w x u i hreps hhdr hfetch hdec v hv => ?_,
    fun h w x u hreps hhdr hfetch hdec => ⟨?_, fun hwave => by simp only [undecoded, hwave]⟩,
    fun u va x hreps hwave hhdr hfetch => ?_⟩
  · exact step_of_run (hnext.trans (if_pos hreps)) hw
  · exact step_of_run (hnext.trans (by simp [issueFrag, hreps, hhdr, hword])) hw
  · exact step_of_run (hnext.trans ((issueFrag_inClause hreps hhdr).trans (issueWord_of_decode hfetch hdec))) hv
  · exact step_of_done (hnext.trans ((issueFrag_inClause hreps hhdr).trans (issueWord_of_decode_none hfetch hdec)))
  · obtain ⟨h, hhdr⟩ := Option.ne_none_iff_exists'.1 hhdr
    exact step_of_done (hnext.trans ((issueFrag_inClause hreps hhdr).trans (issueWord_of_fault hwave hfetch)))

/-! ### What an opportunity comes to (R41, R129) -/

theorem Group.frag_mapIdx_frags (g : Group) (F : Nat → Frag → Frag) (e : Nat) :
    ({ g with frags := g.frags.mapIdx fun i (x : Option Frag) => x.map (F i) } : Group).frag e = (g.frag e).map (F e) := by
  cases h : g.frags[e]? with
  | none => simp [Group.frag, h]
  | some f => cases f <;> simp [Group.frag, h]

theorem Group.noOpportunity_frag (g old : Group) (e : Nat) :
    (g.noOpportunity old).frag e = (g.frag e).map fun f => { f with age := ((old.frag e).map (·.age)).getD f.age } :=
  Group.frag_mapIdx_frags { g with sinceExch := old.sinceExch, lastPick := old.lastPick, stalled := old.stalled }
    (fun i f => { f with age := ((old.frag i).map (·.age)).getD f.age }) e

/-- The groups of `t` as they were in `old` before the opportunity. -/
def noOpportunities (old t : State) : State :=
  { t with groups := t.groups.map fun x => ((old.group? x.gid).map x.noOpportunity).getD x }

theorem noOpportunities_group {old t : State} {n : Nat} {x y : Group} (hx : old.group? n = some x) (hy : t.group? n = some y) :
    (noOpportunities old t).group? n = some (y.noOpportunity x) := by
  have hgid : ∀ z : Group, (((old.group? z.gid).map z.noOpportunity).getD z).gid = z.gid := fun z => by
    cases old.group? z.gid <;> rfl
  have hpred : ((fun g : Group => g.gid == n) ∘ fun z => ((old.group? z.gid).map z.noOpportunity).getD z) = fun g => g.gid == n :=
    funext fun z => by rw [Function.comp_apply, hgid]
  have hfind : (t.groups.find? fun g => g.gid == n) = some y := hy
  show ((t.groups.map _).find? _) = _
  rw [List.find?_map, hpred, hfind, Option.map_some, State.gid_of_group hy, hx]
  rfl

/-- After a word that did not start, what the opportunity changed is as before. -/
theorem noOpportunity_restores (y x : Group) (e : Nat) :
    ((y.noOpportunity x).frag e).map (·.mask) = (y.frag e).map (·.mask) ∧
      ∀ p q, x.frag e = some p → (y.noOpportunity x).frag e = some q → q.age = p.age := by
  rw [y.noOpportunity_frag x e]
  refine ⟨by cases y.frag e <;> rfl, fun p q hp hq => ?_⟩
  obtain ⟨f, -, rfl⟩ := Option.map_eq_some_iff.1 hq
  simp [hp]

theorem opportunityPasses : Claims.OpportunityPasses := by
  intro old s t is g h hwho hg hh
  refine ⟨fun hmoved hscore => by simp [afterIssue, hwho, hg, hh, hmoved, hscore], fun hnot n x y e hx hy => ?_⟩
  have hno := noOpportunities_group hx hy
  obtain ⟨hmask, hage⟩ := noOpportunity_restores y x e
  have hcond : (g.moved h && !h.onScore is.entry) = false := by rcases hnot with hm | hs <;> simp [*]
  cases hmoved : g.moved h with
  | true =>
    have hafter : afterIssue old s t = noOpportunities old t := by
      rw [hmoved] at hcond
      simp only [afterIssue, hwho, hg, hh, hmoved, hcond, Bool.false_eq_true, if_false, if_true]
      rfl
    rw [hafter]
    exact ⟨_, hno, rfl, rfl, rfl, rfl, rfl, hmask, hage, fun _ hc => Bool.noConfusion hc⟩
  | false =>
    have hafter : afterIssue old s t = (noOpportunities old t).modGroup is.gid fun x => { x with stalled := true } := by
      simp only [afterIssue, hwho, hg, hh, hmoved, Bool.false_and, Bool.false_eq_true, if_false]
      rfl
    rw [hafter]
    by_cases hn : n = is.gid
    · subst hn
      exact ⟨_, State.group_modGroup_same hno fun _ => rfl, rfl, rfl, rfl, rfl, rfl, hmask, hage, fun _ _ => rfl⟩
    · have hother := (State.group_modGroup_other (F := fun x => { x with stalled := true }) (fun _ => rfl) hn).trans hno
      exact ⟨_, hother, rfl, rfl, rfl, rfl, rfl, hmask, hage, fun hc => absurd hc hn⟩

/-! ### Steps of the hardware and the host -/

/-- Time passes with no issuer. -/
theorem tick_who (s : State) : s.tick.who = none := rfl

theorem stepRunsEvents : Claims.StepRunsEvents := by
  refine fun s r => ⟨fun i h => step_of_run_noIssuer ?_ (tick_who s), fun i x h => step_of_run_noIssuer ?_ (tick_who s),
    fun h => step_of_done ?_⟩
  · simp only [nextIssue, h]
  · simp only [nextIssue, h]
  · simp only [nextIssue, h]

/-- Settles O4, by what the next move of the agenda issues. -/
theorem stepRunsDecoded : Obligations.StepRunsDecoded := ⟨stepRunsWords, opportunityPasses, stepRunsEvents⟩

end Sys2Proof.Machine

namespace Sys2Proof.Machine

open Sys2Proof.Safety

/-! ### The slots of a fragment, one after the other (R21) -/

/-- When no slot faults, each slot's window is the one that its own step gives. -/
theorem eachSlot_ok {α : Type} {f : State → Nat → State × Except VFault α} {F : Nat → α}
    (hf : ∀ s slot u a, f s slot = (u, .ok a) → a = F slot) (l : List Nat) {s u : State} {ts : List (Nat × α)}
    (h : eachSlot f s l = (u, ts, [])) : ts = l.map fun i => (i, F i) := by
  induction l generalizing s u ts with
  | nil => exact (congrArg (fun x => x.2.1) h).symm
  | cons i l ih =>
    rcases hfi : f s i with ⟨v, r⟩
    rcases hrest : eachSlot f v l with ⟨w, ok, bad⟩
    cases r with
    | error x => simp [eachSlot, hfi, hrest] at h
    | ok a =>
      simp only [eachSlot, hfi, hrest, Prod.mk.injEq] at h
      obtain ⟨rfl, rfl, rfl⟩ := h
      rw [ih hrest, hf _ _ _ _ hfi, List.map_cons]

/-- When no slot's step changes the state, the slots change nothing. -/
theorem eachSlot_pure {α : Type} {f : State → Nat → State × Except VFault α} {F : Nat → α} {s : State} {l : List Nat}
    (hf : ∀ i ∈ l, f s i = (s, .ok (F i))) : eachSlot f s l = (s, l.map fun i => (i, F i), []) := by
  induction l with
  | nil => rfl
  | cons i l ih =>
    rw [List.forall_mem_cons] at hf
    simp only [eachSlot, hf.1, ih hf.2, List.map_cons]

/-- What a table of slots holds for a slot. -/
theorem find_slot {α : Type} (F : Nat → α) (l : List Nat) (i : Nat) :
    ((l.map fun j => (j, F j)).find? fun x => x.1 == i) = if i ∈ l then some (i, F i) else none := by
  induction l with
  | nil => rfl
  | cons j l ih =>
    by_cases h : j = i
    · simp [h]
    · simp [h, Ne.symm h, ih]

/-- The windows of some slots committed: these slots alone change (R21). -/
theorem thread_commitThreads (F : Nat → Thread) (m : Mask) (g : Group) {slot : Nat} (h : slot < 16) :
    (commitThreads ((maskSlots m).map fun i => (i, F i)) g).thread slot = if m.getLsbD slot then F slot else g.thread slot := by
  rw [commitThreads, Group.thread_modThreads _ _ _ h, find_slot]
  cases hm : m.getLsbD slot <;> simp [hm]

theorem commitThreads_frame (ts : List (Nat × Thread)) (g : Group) : { commitThreads ts g with threads := g.threads } = g := rfl

theorem commitThreads_frag (ts : List (Nat × Thread)) (g : Group) (e : Nat) : (commitThreads ts g).frag e = g.frag e := rfl

/-- The registers from a depth to a lower one are none (R18). -/
theorem depths_of_le {a b : Nat} (h : b ≤ a) : depths a b = [] := by
  simp [depths, Nat.sub_eq_zero_of_le h, upTo]

theorem depthsBusy_nil (g : Group) (slot : Nat) : depthsBusy g slot [] = false := by simp [depthsBusy]

/-- The WINDOW trap names in TINFO the slots that raised it (R18, R404). -/
theorem windowTrap_names (s : State) (is : Issuer) (m : Mask) (p : Nat → Bool) :
    ∃ d, windowTrap s is (maskSlots m) p = takeTrap s is 2 d ∧ d.sub = causeWindow ∧ d.tinfo.toNat < 2 ^ 16 ∧
      ∀ slot, slot < 16 → (d.tinfo.getLsbD slot = true ↔ m.getLsbD slot = true ∧ p slot = true) := by
  have hlt := (maskOf fun i => (maskSlots m).contains i && p i).isLt
  refine ⟨_, rfl, rfl, ?_, fun slot h => ?_⟩
  · simp only [tinfoOf, BitVec.toNat_ofNat]
    omega
  · have hbit : (tinfoOf (maskOf fun i => (maskSlots m).contains i && p i) 0 0 0 0).getLsbD slot =
        (maskOf fun i => (maskSlots m).contains i && p i).getLsbD slot := by
      simp only [tinfoOf, Nat.zero_mul, Nat.add_zero]
      rw [BitVec.getLsbD_ofNat, decide_eq_true (by omega : slot < 64), Bool.true_and, BitVec.testBit_toNat]
    rw [hbit, getLsbD_maskOf]
    simp [h]

/-! ### CALL (R18, R19, R119, R120) -/

/-- The window of a thread that a CALL has moved (R18, R19). -/
def Thread.called (t : Thread) (ret : DWord) : Thread :=
  { t with
    links := (if t.links.length < 8 then t.links else t.links.drop 1) ++ [linkOf ret t.frame]
    rbase := t.callRbase, wbase := t.wbase + t.frame, frame := 64, cdepth := t.cdepth + 1 }

theorem linkOf_eq (ret : DWord) (frame : Nat) : linkOf ret frame = BitVec.ofNat 64 (ret.toNat % 2 ^ 57 + frame % 128 * 2 ^ 57) := by
  simp [linkOf, bitsOf]

/-- A slot's CALL that meets no fault moves its window as R18 gives it, whatever it spills. -/
theorem callThread_ok {s u : State} {g : Group} {slot : Nat} {ret : DWord} {t : Thread}
    (h : callThread s g slot ret = (u, .ok t)) : t = (g.thread slot).called ret := by
  dsimp only [callThread] at h
  split at h
  next => cases h
  next v ls hlink =>
    split at h
    next => cases h
    next =>
      obtain rfl := Except.ok.inj (Prod.mk.inj h).2
      have hls : ls = if (g.thread slot).links.length < 8 then (g.thread slot).links else (g.thread slot).links.drop 1 := by
        split at hlink
        next hlen => rw [if_pos hlen]; exact (Except.ok.inj (Prod.mk.inj hlink).2).symm
        next hlen =>
          rw [if_neg hlen]
          split at hlink
          next => cases hlink
          next => exact (Except.ok.inj (Prod.mk.inj hlink).2).symm
      rw [Thread.called, ← hls]

/-- A slot's CALL with room for its link and its window spills nothing. -/
theorem callThread_resident (s : State) {g : Group} {slot : Nat} (ret : DWord) (hl : (g.thread slot).links.length < 8)
    (hr : (g.thread slot).callRbase = (g.thread slot).rbase) :
    callThread s g slot ret = (s, .ok ((g.thread slot).called ret)) := by
  simp only [callThread, hl, if_true, hr, depths_of_le (Nat.le_refl _), spillRegs, Thread.called]

section
variable (s : State) (is : Issuer) (g : Group) (f : Frag) (target : DWord)

/-- A CALL whose window an active thread refuses (R18). -/
theorem callTo_refused (hbad : ∃ i, f.mask.getLsbD i = true ∧ (g.thread i).callBad = true) :
    callTo ⟨s, is, g, f⟩ f.mask target = windowTrap s is (maskSlots f.mask) fun i => (g.thread i).callBad := by
  obtain ⟨i, hi, hb⟩ := hbad
  have hm : ¬ f.mask = 0 := fun h => by simp [h] at hi
  have hany : ((maskSlots f.mask).any fun i => (g.thread i).callBad) = true := List.any_eq_true.2 ⟨i, mem_maskSlots.2 hi, hb⟩
  simp only [callTo, beq_iff_eq, hm, if_false, hany, if_true]

variable (hm : f.mask ≠ 0) (hok : ∀ i, f.mask.getLsbD i = true → (g.thread i).callBad = false)
include hm hok

/-- A CALL waits while the spill buffer has no line to give (log 12). -/
theorem callTo_waits (hstuck : spillStuck s g.core = true) : callTo ⟨s, is, g, f⟩ f.mask target = s := by
  have hany : ((maskSlots f.mask).any fun i => (g.thread i).callBad) = false :=
    List.any_eq_false.2 fun i hi => by simp [hok i (mem_maskSlots.1 hi)]
  simp only [callTo, beq_iff_eq, hm, if_false, hany, Bool.false_eq_true, hstuck, if_true]

/-- A CALL of every active slot commits the windows and goes to its target (R21, R119). -/
theorem callTo_moves (hstuck : spillStuck s g.core = false)
    (hbusy : ∀ i ∈ maskSlots f.mask, depthsBusy g i (depths (g.thread i).rbase (g.thread i).callRbase) = false) {u : State}
    {ts : List (Nat × Thread)} (hts : eachSlot (fun s i => callThread s g i f.nextClause) s (maskSlots f.mask) = (u, ts, [])) :
    callTo ⟨s, is, g, f⟩ f.mask target = goTo (u.modGroup is.gid (commitThreads ts)) is target := by
  have hany : ((maskSlots f.mask).any fun i => (g.thread i).callBad) = false :=
    List.any_eq_false.2 fun i hi => by simp [hok i (mem_maskSlots.1 hi)]
  have hfree : ((maskSlots f.mask).any fun i => depthsBusy g i (depths (g.thread i).rbase (g.thread i).callRbase)) = false :=
    List.any_eq_false.2 fun i hi => by simp [hbusy i hi]
  simp only [callTo, beq_iff_eq, hm, if_false, hany, Bool.false_eq_true, hstuck, hfree, hts, BEq.rfl, if_true]

/-- What a CALL of every active slot leaves: their windows moved, and nothing else changed but what the spills changed (R21). -/
theorem callTo_windows (hstuck : spillStuck s g.core = false)
    (hbusy : ∀ i ∈ maskSlots f.mask, depthsBusy g i (depths (g.thread i).rbase (g.thread i).callRbase) = false) {u : State}
    {ts : List (Nat × Thread)} (hts : eachSlot (fun s i => callThread s g i f.nextClause) s (maskSlots f.mask) = (u, ts, []))
    (hu : u.group? is.gid = some g) :
    ∃ t g', callTo ⟨s, is, g, f⟩ f.mask target = goTo t is target ∧ t.group? is.gid = some g' ∧
      (∀ slot, slot < 16 → g'.thread slot = if f.mask.getLsbD slot then (g.thread slot).called f.nextClause else g.thread slot) ∧
      { g' with threads := g.threads } = g ∧ OnlyGroup u t is.gid := by
  refine ⟨_, _, callTo_moves s is g f target hm hok hstuck hbusy hts, State.group_modGroup_same hu fun _ => rfl, fun slot h => ?_,
    commitThreads_frame ts g, onlyGroup_modGroup u is.gid fun _ => rfl⟩
  rw [eachSlot_ok (F := fun i => (g.thread i).called f.nextClause) (fun _ _ _ _ => callThread_ok) _ hts,
    thread_commitThreads _ _ _ h]

end

/-- CALL of every active slot (R119). -/
theorem exec_call_all {s : State} {is : Issuer} {g : Group} {f : Frag} (hi : Issues s is g f) (hw : g.wave = none) {gd : Guard}
    (hall : ∀ slot, slot < 16 → f.mask.getLsbD slot = true → runsIn g f gd slot = true) (disp : Word) :
    exec (.call gd disp) s = .next (callTo ⟨s, is, g, f⟩ f.mask (f.target disp.toInt)) := by
  have he : Iss.guarded ⟨s, is, g, f⟩ gd = f.mask := mask_ext fun slot h => by
    rw [getLsbD_guarded s is g f gd h, Bool.eq_iff_iff]
    exact ⟨getLsbD_of_runsIn, hall slot h⟩
  show execCall gd disp s = _
  rw [execCall, issue_of_issues hi hw, he]

/-- CALL of no slot goes on at the next clause (R119). -/
theorem exec_call_none {s : State} {is : Issuer} {g : Group} {f : Frag} (hi : Issues s is g f) (hw : g.wave = none) {gd : Guard}
    (hnone : ∀ slot, slot < 16 → runsIn g f gd slot = false) (disp : Word) :
    exec (.call gd disp) s = .next (goTo s is f.nextClause) := by
  have he := (guarded_eq_zero_iff s is g f gd).2 hnone
  show execCall gd disp s = _
  rw [execCall, issue_of_issues hi hw, he]
  rfl

/-- CALLK, by its uniform guard and the address in its k register (R63, R120). -/
theorem exec_callk {s : State} {is : Issuer} {g : Group} {f : Frag} (hi : Issues s is g f) (hw : g.wave = none) (ka : KReg) (ug : UGuard)
    (hfree : uniformOn g ug = true → g.kbusy.getLsbD ka.toNat = false) :
    exec (.callk ka ug) s = .next (if uniformOn g ug = false then advance s is 1
      else if headerAddr (g.kr ka.toNat) = false then takeTrap s is 2 ⟨causeOperand, 0, 0⟩
      else callTo ⟨s, is, g, f⟩ f.mask (g.kr ka.toNat)) := by
  have huok : Iss.uok ⟨s, is, g, f⟩ ug = uniformOn g ug := rfl
  show execCallk ka ug s = _
  rw [execCallk, issue_of_issues hi hw, uniIssue, huok]
  cases hon : uniformOn g ug with
  | false => rfl
  | true =>
    simp only [Group.ksBusy_singleton, hfree hon, Bool.not_true, Bool.false_eq_true, if_false, illegal]
    cases headerAddr (g.kr ka.toNat) <;> rfl

/-- The window after a CALL, as the table of R18 writes it. -/
theorem Thread.called_eq (t : Thread) (ret : DWord) : t.called ret =
    { t with
      links := (if t.links.length < 8 then t.links else t.links.drop 1) ++
        [BitVec.ofNat 64 (ret.toNat % 2 ^ 57 + t.frame % 128 * 2 ^ 57)]
      rbase := if 128 < t.wbase + t.frame + 64 - t.rbase then t.wbase + t.frame - 64 else t.rbase
      wbase := t.wbase + t.frame, frame := 64, cdepth := t.cdepth + 1 } := by
  rw [Thread.called, linkOf_eq, Thread.callRbase]

/-- A CALL is refused at the deepest call, or when its window would not fit (R18). -/
theorem Thread.callBad_iff (t : Thread) : t.callBad = true ↔ t.cdepth = 8191 ∨ 2 ^ 20 < t.wbase + t.frame + 64 := by
  rw [Thread.callBad, Bool.or_eq_true, beq_iff_eq, decide_eq_true_eq, Config.wmax]

theorem callWord : Claims.CallWord := by
  intro gd disp ka ug s is g f hi hw hm slots next target call bad still badIn does
  have hcall : ∀ t : Thread, t.called f.nextClause = call t := fun t => t.called_eq _
  have hbad : bad ↔ ∃ i, f.mask.getLsbD i = true ∧ (g.thread i).callBad = true :=
    ⟨fun ⟨i, _, hb⟩ => ⟨i, hb.1, (Thread.callBad_iff _).2 hb.2⟩,
      fun ⟨i, hi, hb⟩ => ⟨i, lt_of_getLsbD_mask hi, hi, (Thread.callBad_iff _).1 hb⟩⟩
  have hok : ¬bad → ∀ i, f.mask.getLsbD i = true → (g.thread i).callBad = false := fun hn i hi =>
    Bool.eq_false_iff.2 fun hb => hn (hbad.2 ⟨i, hi, hb⟩)
  have hdoes : ∀ i c, exec i s = .next (callTo ⟨s, is, g, f⟩ f.mask c) → does i c := by
    intro i c hexec
    have hmoves := fun hn hstuck => callTo_windows s is g f c hm (hok hn) hstuck
    simp only [hcall] at hmoves
    refine ⟨fun hb => ?_, fun hn hstuck => ?_, fun hn hstuck hstill => ?_, fun hn hstuck hbusy u ts hts hu => ?_⟩
    · obtain ⟨d, hd, hsub, hlt, hnames⟩ := windowTrap_names s is f.mask fun i => (g.thread i).callBad
      refine ⟨d, by rw [hexec, callTo_refused s is g f c (hbad.1 hb), hd], hsub, hlt, fun slot h => ?_⟩
      rw [hnames slot h, Thread.callBad_iff]
    · rw [hexec, callTo_waits s is g f c hm (hok hn) hstuck]
    · have hrbase : ∀ i ∈ maskSlots f.mask, (g.thread i).callRbase = (g.thread i).rbase := fun i hi =>
        if_neg (Nat.not_lt.2 (hstill i (lt_of_getLsbD_mask (mem_maskSlots.1 hi)) (mem_maskSlots.1 hi)).2)
      obtain ⟨t, g', hgo, hrest⟩ := hmoves hn hstuck
        (fun i hi => by rw [hrbase i hi, depths_of_le (Nat.le_refl _), depthsBusy_nil])
        (eachSlot_pure fun i hi => callThread_resident s f.nextClause
          (hstill i (lt_of_getLsbD_mask (mem_maskSlots.1 hi)) (mem_maskSlots.1 hi)).1 (hrbase i hi)) hi.group
      exact ⟨t, g', hexec.trans (congrArg _ hgo), hrest⟩
    · obtain ⟨t, g', hgo, hrest⟩ := hmoves hn hstuck hbusy hts hu
      exact ⟨t, g', hexec.trans (congrArg _ hgo), hrest⟩
  refine ⟨fun hall => hdoes _ _ (exec_call_all hi hw hall disp), fun hnone => exec_call_none hi hw hnone disp,
    fun hon hfree hmul hcan => hdoes _ _ ?_, fun hoff => ?_, fun hon hfree haddr => ?_⟩
  · rw [exec_callk hi hw ka ug fun _ => hfree]
    simp [hon, headerAddr, hmul, hcan]
  · rw [exec_callk hi hw ka ug fun hon => by simp [hoff] at hon]
    simp [hoff]
  · rw [exec_callk hi hw ka ug fun _ => hfree]
    have hheader : headerAddr (g.kr ka.toNat) = false := by rcases haddr with h | h <;> simp [headerAddr, h]
    simp [hon, hheader]

end Sys2Proof.Machine

namespace Sys2Proof.Machine

open Sys2Proof.Safety

/-! ### A group with no record, no pending JOIN and no spilled fragment (R136 to R141) -/

/-- Nothing of the group is to fuse, to join or to be reloaded. -/
structure Group.Quiet (g : Group) : Prop where
  recs : g.recs = Vector.replicate 16 none
  jmask : g.jmask = 0
  spilled : g.spilled = []

/-- Where a fragment stands. -/
def Frag.place (f : Frag) : Mask × DWord × Nat × Nat := (f.mask, f.clause, f.word, f.recx)

theorem Group.Quiet.rec? {g : Group} (h : g.Quiet) (i : Nat) : g.rec? i = none := by
  rw [Group.rec?, h.recs, Vector.getElem?_replicate]
  split <;> rfl

theorem Group.Quiet.completeRec {g : Group} (h : g.Quiet) : g.completeRec = none := by
  have hnone : ((upTo 16).filterMap fun i => (g.rec? i).bind fun r => if g.complete r then some (i, r) else none) = [] :=
    List.filterMap_eq_nil_iff.2 fun i _ => by rw [h.rec? i]; rfl
  rw [Group.completeRec, hnone]
  rfl

theorem Group.Quiet.reached {g : Group} (h : g.Quiet) (f : Frag) : g.reached f = false := by
  simp only [Group.reached, h.rec? f.recx]

section
variable {s : State} {gid : Nat} {g : Group} (hg : s.group? gid = some g) (hq : g.Quiet)
include hg hq

theorem fuse_quiet (n : Nat) : fuse s gid n = s := by
  cases n with
  | zero => rfl
  | succ n => simp only [fuse, hg, hq.completeRec]

theorem joinComplete_quiet : joinComplete s gid = s := by
  simp [joinComplete, hg, hq.jmask]

theorem reload_quiet (n : Nat) : reload s gid n = s := by
  cases n with
  | zero => rfl
  | succ n => cases hf : g.freeEntry <;> simp only [reload, hg, hq.spilled, hf]

/-- Nothing settles in a quiet group. -/
theorem settle_quiet : settle s gid = s := by
  rw [settle, fuse_quiet hg hq, joinComplete_quiet hg hq, reload_quiet hg hq]

end

/-! ### What a fragment that changes its clause leaves (R32, R116) -/

/-- The tables of two groups are the same. -/
structure SameTables (g h : Group) : Prop where
  gid : h.gid = g.gid
  frags : h.frags = g.frags
  recs : h.recs = g.recs
  jmask : h.jmask = g.jmask
  spilled : h.spilled = g.spilled

theorem SameTables.trans {g h k : Group} (a : SameTables g h) (b : SameTables h k) : SameTables g k :=
  ⟨b.gid.trans a.gid, b.frags.trans a.frags, b.recs.trans a.recs, b.jmask.trans a.jmask, b.spilled.trans a.spilled⟩

theorem SameTables.quiet {g h : Group} (a : SameTables g h) (q : g.Quiet) : h.Quiet :=
  ⟨a.recs.trans q.recs, a.jmask.trans q.jmask, a.spilled.trans q.spilled⟩

/-- A system register write leaves the tables (R32). -/
theorem Group.writeSys_tables (g : Group) (i : Nat) (x : DWord) : SameTables g (g.writeSys i x) := by
  unfold Group.writeSys
  split
  · split <;> exact ⟨rfl, rfl, rfl, rfl, rfl⟩
  all_goals exact ⟨rfl, rfl, rfl, rfl, rfl⟩

theorem foldl_writeSys_tables (l : List SrwPend) (g : Group) : SameTables g (l.foldl (fun g w => g.writeSys w.index w.value) g) := by
  induction l generalizing g with
  | nil => exact ⟨rfl, rfl, rfl, rfl, rfl⟩
  | cons w l ih => exact (g.writeSys_tables w.index w.value).trans (ih _)

/-- The queued writes of a clause leave the tables (R32). -/
theorem Group.flushSrw_tables (g : Group) (e : Nat) : SameTables g (g.flushSrw e) :=
  SameTables.trans (h := { g with srwq := g.srwq.filter fun w => w.entry != e }) ⟨rfl, rfl, rfl, rfl, rfl⟩ (foldl_writeSys_tables _ _)

theorem Group.modFrag_frag (g : Group) (e i : Nat) (F : Frag → Frag) :
    (g.modFrag e F).frag i = if i = e then (g.frag i).map F else g.frag i := by
  cases h : g.frags[i]? with
  | none => simp [Group.modFrag, Group.frag, h]
  | some f =>
    by_cases hi : i = e
    · subst hi; cases f <;> simp [Group.modFrag, Group.frag, h]
    · simp [Group.modFrag, Group.frag, h, hi]

theorem Group.setFrag_frag (g : Group) {e : Nat} (i : Nat) (f : Option Frag) (he : e < 8) :
    (g.setFrag e f).frag i = if i = e then f else g.frag i := by
  by_cases h : i = e
  · subst h; simp [Group.setFrag, Group.frag, he]
  · simp [Group.setFrag, Group.frag, h, Ne.symm h]

/-- A fragment changed to itself. -/
theorem Group.modFrag_eq_self {g : Group} {e : Nat} {f : Frag} {F : Frag → Frag} (h : g.frag e = some f) (hF : F f = f) :
    g.modFrag e F = g := by
  have hfrags : (g.modFrag e F).frags = g.frags := by
    apply Vector.ext
    intro i hi
    by_cases hie : i = e
    · subst hie
      have : g.frags[i] = some f := by simpa [Group.frag, hi] using h
      simp [Group.modFrag, this, hF]
    · simp [Group.modFrag, hie]
  exact (congrArg (fun v => { g with frags := v }) hfrags)

/-- The end of a clause in a quiet group leaves every fragment where it stands. -/
theorem clauseEnd_quiet {s : State} {is : Issuer} {g h : Group} (hs : s.group? is.gid = some h) (hq : h.Quiet) :
    ∃ h', (clauseEnd s is g).group? is.gid = some h' ∧ h'.Quiet ∧ ∀ i, (h'.frag i).map Frag.place = (h.frag i).map Frag.place := by
  have hstay : ∀ {u : State} {h' : Group}, h'.Quiet →
      (if (h'.frag is.entry).any h'.reached then arrive u is.gid is.entry
        else if h'.exchangeDue then { u with agenda := .event (.fragmentExchange is.gid is.entry) :: u.agenda } else u) = u := by
    intro u h' hq'
    have hreach : (h'.frag is.entry).any h'.reached = false := by
      cases h'.frag is.entry <;> simp [hq'.reached]
    simp [hreach, Group.exchangeDue, hq'.spilled]
  unfold clauseEnd
  split
  next =>
    have hu := State.group_modGroup_same (F := fun g => g.modFrag is.entry fun f => { f with age := 0 }) hs fun _ => rfl
    have hq' : (h.modFrag is.entry fun f => { f with age := 0 }).Quiet := ⟨hq.recs, hq.jmask, hq.spilled⟩
    refine ⟨_, ?_, hq', fun i => ?_⟩
    · simp only [hu]
      rw [hstay hq', hu]
    · rw [Group.modFrag_frag]
      split
      next => rw [Option.map_map]; rfl
      next => rfl
  next =>
    refine ⟨h, ?_, hq, fun _ => rfl⟩
    simp only [hs]
    rw [hstay hq, hs]

theorem Group.toClause_gid (g : Group) (e : Nat) (c : DWord) : (g.toClause e c).gid = g.gid := (g.flushSrw_tables e).gid

/-- A fragment that goes to another clause in a quiet group: it stands there at word 0, and every other where it stood. -/
theorem goTo_quiet {s : State} {is : Issuer} {g : Group} (c : DWord) (hg : s.group? is.gid = some g) (hw : g.wave = none)
    (hq : g.Quiet) :
    ∃ h, (goTo s is c).group? is.gid = some h ∧ h.Quiet ∧
      ∀ i, (h.frag i).map Frag.place = (g.frag i).map fun x => if i = is.entry then (x.mask, c, 0, x.recx) else x.place := by
  have htables := g.flushSrw_tables is.entry
  have hquiet : (g.toClause is.entry c).Quiet := ⟨(htables.quiet hq).recs, (htables.quiet hq).jmask, (htables.quiet hq).spilled⟩
  have hgo : goTo s is c = clauseEnd (s.modGroup is.gid fun g => g.toClause is.entry c) is g := by
    simp only [goTo, hg, spendBudget, hw, toNext]
  obtain ⟨h, hh, hq', hplace⟩ := clauseEnd_quiet (g := g)
    (State.group_modGroup_same hg fun x => x.toClause_gid is.entry c) hquiet
  refine ⟨h, by rw [hgo, hh], hq', fun i => ?_⟩
  have hfrag : (g.flushSrw is.entry).frag i = g.frag i := by rw [Group.frag, htables.frags, Group.frag]
  rw [hplace, Group.toClause, Group.modFrag_frag, hfrag]
  split
  next => rw [Option.map_map]; rfl
  next => rfl

end Sys2Proof.Machine

namespace Sys2Proof.Machine

open Sys2Proof.Safety

/-! ### RET (R18, R19, R121) -/

/-- FRAME of the caller, in the newest link (R19). -/
def Thread.callerFrame (t : Thread) : Nat := (t.links.getLastD 0).toNat / 2 ^ 57

/-- The return clause in the newest link (R19). -/
def Thread.returnClause (t : Thread) : DWord := sext57 ((t.links.getLastD 0).toNat % 2 ^ 57)

/-- The window of a thread whose newest link is popped, with every register of it resident (R18). -/
def Thread.returned (t : Thread) : Thread :=
  { t with links := t.links.dropLast, wbase := t.wbase - t.callerFrame, frame := t.callerFrame, cdepth := t.cdepth - 1 }

/-- The newest link of a slot, and the links left without it. -/
def Group.newest (g : Group) (i : Nat) : DWord × List DWord := ((g.thread i).links.getLastD 0, (g.thread i).links.dropLast)

theorem Group.newest_link (g : Group) (i : Nat) : (g.newest i).1 = (g.thread i).links.getLastD 0 := rfl

/-- The link of a slot in a table of popped links. -/
def linkIn (ls : List (Nat × DWord × List DWord)) (i : Nat) : DWord × List DWord :=
  ((ls.find? fun l => l.1 == i).map (·.2)).getD (0, [])

/-- The slots of a fragment that return to a clause. -/
def retSet (g : Group) (f : Frag) (a : DWord) : Mask := maskOf fun i => f.mask.getLsbD i && (g.thread i).returnClause == a

theorem bitsOf_frame (t : Thread) : bitsOf (t.links.getLastD 0).toNat 57 7 = t.callerFrame := by
  have := (t.links.getLastD 0).isLt
  unfold bitsOf Thread.callerFrame
  omega

theorem sext57_link (t : Thread) : sext57 (bitsOf (t.links.getLastD 0).toNat 0 57) = t.returnClause := by
  rw [bitsOf, Nat.pow_zero, Nat.div_one, Thread.returnClause]

/-- FRAME of the newest link passes the check of R18. -/
theorem linkOk_newest (t : Thread) : linkOk t (t.links.getLastD 0) = true ↔
    t.callerFrame % 8 = 0 ∧ 8 ≤ t.callerFrame ∧ t.callerFrame ≤ 64 ∧ t.callerFrame ≤ t.wbase := by
  simp only [linkOk, bitsOf_frame, Bool.and_eq_true, beq_iff_eq, decide_eq_true_eq, and_assoc]

/-- A slot with a resident link pops it, and reads no memory (R19). -/
theorem popLink_resident (s : State) {g : Group} {i : Nat} (h : (g.thread i).links ≠ []) :
    popLink s g i = (s, .ok (g.newest i)) := by
  obtain ⟨l, hl⟩ := Option.ne_none_iff_exists'.1 (mt List.getLast?_eq_none_iff.1 h)
  simp [popLink, hl, Group.newest, List.getLastD_eq_getLast?]

/-- A slot whose caller's registers are resident refills none (R18). -/
theorem retThread_resident (s : State) {g : Group} {i : Nat}
    (h : (g.thread i).rbase ≤ (g.thread i).wbase - (g.thread i).callerFrame) :
    retThread s g i (g.newest i).1 (g.newest i).2 = (s, .ok (g.thread i).returned) := by
  simp only [retThread, retDepths, Group.newest, bitsOf_frame, depths_of_le h, refillRegs, Nat.min_eq_left h, Thread.returned]

/-- The table of the links that the slots of a mask pop. -/
def Group.popped (g : Group) (m : Mask) : List (Nat × DWord × List DWord) := (maskSlots m).map fun i => (i, g.newest i)

theorem linkIn_popped (g : Group) {m : Mask} {i : Nat} (h : m.getLsbD i = true) : linkIn (g.popped m) i = g.newest i := by
  rw [linkIn, Group.popped, find_slot, if_pos (mem_maskSlots.2 h)]
  rfl

theorem clause_popped (g : Group) {m : Mask} {i : Nat} (h : m.getLsbD i = true) :
    sext57 (bitsOf (linkIn (g.popped m) i).1.toNat 0 57) = (g.thread i).returnClause := by
  rw [linkIn_popped g h, Group.newest_link, sext57_link]

/-- A check that every popped link passes. -/
theorem any_popped_eq_false {g : Group} {m : Mask} {p : Nat × DWord × List DWord → Bool}
    (h : ∀ i, m.getLsbD i = true → p (i, g.newest i) = false) : (g.popped m).any p = false :=
  List.any_eq_false.2 fun l hl => by
    obtain ⟨i, hi, rfl⟩ := List.mem_map.1 hl
    simp [h i (mem_maskSlots.1 hi)]

/-- The slots that pop one return clause, by the table of popped links. -/
theorem maskOf_popped (g : Group) (f : Frag) (a : DWord) :
    (maskOf fun i => f.mask.getLsbD i && sext57 (bitsOf (linkIn (g.popped f.mask) i).1.toNat 0 57) == a) = retSet g f a :=
  congrArg maskOf (funext fun i => by
    cases h : f.mask.getLsbD i with
    | false => rw [Bool.false_and, Bool.false_and]
    | true => rw [clause_popped g h])

section
variable {s : State} {is : Issuer} {g : Group} {f : Frag} (hi : Issues s is g f) (hw : g.wave = none)
include hi hw

/-- RET at call depth 0 (R18). -/
theorem exec_ret_empty (h : ∃ i, f.mask.getLsbD i = true ∧ (g.thread i).cdepth = 0) :
    exec .ret s = .next (windowTrap s is (maskSlots f.mask) fun i => (g.thread i).cdepth == 0) := by
  obtain ⟨i, him, hd⟩ := h
  have hany : ((maskSlots f.mask).any fun i => (g.thread i).cdepth == 0) = true :=
    List.any_eq_true.2 ⟨i, mem_maskSlots.2 him, beq_iff_eq.2 hd⟩
  show execRet s = _
  simp only [execRet, issue_of_issues hi hw, hany, if_true]

variable (hdepth : ∀ i, f.mask.getLsbD i = true → (g.thread i).cdepth ≠ 0)
include hdepth

omit hi hw in
theorem depths_any_zero : ((maskSlots f.mask).any fun i => (g.thread i).cdepth == 0) = false :=
  List.any_eq_false.2 fun i h => by simp [hdepth i (mem_maskSlots.1 h)]

/-- RET waits while the spill buffer has no line to give (log 12). -/
theorem exec_ret_waits (hstuck : spillStuck s g.core = true) : exec .ret s = .next s := by
  show execRet s = _
  simp only [execRet, issue_of_issues hi hw, depths_any_zero hdepth, Bool.false_eq_true, if_false, hstuck, if_true]

variable (hlinks : ∀ i, f.mask.getLsbD i = true → (g.thread i).links ≠ []) (hstuck : spillStuck s g.core = false)
include hlinks hstuck

omit hi hw hdepth hstuck in
theorem eachSlot_popLink : eachSlot (fun s i => popLink s g i) s (maskSlots f.mask) = (s, g.popped f.mask, []) :=
  eachSlot_pure fun i h => popLink_resident s (hlinks i (mem_maskSlots.1 h))

/-- RET with a link whose FRAME fails the check of R18. -/
theorem exec_ret_wrong (h : ∃ i, f.mask.getLsbD i = true ∧ linkOk (g.thread i) (g.newest i).1 = false) :
    exec .ret s = .next (windowTrap s is (maskSlots f.mask) fun i =>
      (g.popped f.mask).any fun l => l.1 == i && !linkOk (g.thread i) l.2.1) := by
  obtain ⟨i, him, hd⟩ := h
  have hany : ((g.popped f.mask).any fun l => !linkOk (g.thread l.1) l.2.1) = true :=
    List.any_eq_true.2 ⟨_, List.mem_map_of_mem (mem_maskSlots.2 him), by simp [hd]⟩
  show execRet s = _
  simp only [execRet, issue_of_issues hi hw, depths_any_zero hdepth, hstuck, eachSlot_popLink hlinks, hany, Bool.false_eq_true,
    if_false, if_true]

/-- RET with every window resident: the windows are committed, the further sets take entries, and the first goes on in the
fragment's own entry (R21, R121). -/
theorem exec_ret_returns (hok : ∀ i, f.mask.getLsbD i = true → linkOk (g.thread i) (g.newest i).1 = true)
    (hres : ∀ i, f.mask.getLsbD i = true → (g.thread i).rbase ≤ (g.thread i).wbase - (g.thread i).callerFrame) {a : DWord}
    {more : List DWord} (haddrs : ((maskSlots f.mask).map fun i => (g.thread i).returnClause).dedup = a :: more) {u : State}
    (hfrags : retFrags (s.modGroup is.gid (commitThreads ((maskSlots f.mask).map fun i => (i, (g.thread i).returned)))) is f.recx
      (more.map fun a => (retSet g f a, a)) = (u, .ok ())) :
    exec .ret s = .next (settle (goTo (u.modGroup is.gid fun h => h.modFrag is.entry fun x => { x with mask := retSet g f a }) is a)
      is.gid) := by
  have hwrong : ((g.popped f.mask).any fun l => !linkOk (g.thread l.1) l.2.1) = false :=
    any_popped_eq_false fun i h => by rw [hok i h, Bool.not_true]
  have hbusy : ((g.popped f.mask).any fun l => depthsBusy g l.1 (retDepths (g.thread l.1) l.2.1)) = false :=
    any_popped_eq_false fun i h => by rw [retDepths, Group.newest_link, bitsOf_frame, depths_of_le (hres i h), depthsBusy_nil]
  have hret : eachSlot (fun s i => retThread s g i (linkIn (g.popped f.mask) i).1 (linkIn (g.popped f.mask) i).2) s
      (maskSlots f.mask) = (s, (maskSlots f.mask).map fun i => (i, (g.thread i).returned), []) :=
    eachSlot_pure fun i h => by
      rw [linkIn_popped g (mem_maskSlots.1 h), retThread_resident s (hres i (mem_maskSlots.1 h))]
  have hmap : ((maskSlots f.mask).map fun i => sext57 (bitsOf (linkIn (g.popped f.mask) i).1.toNat 0 57)).dedup = a :: more := by
    rw [← haddrs, List.map_congr_left fun i h => clause_popped g (mem_maskSlots.1 h)]
  have hset := maskOf_popped g f
  simp only [linkIn] at hret hmap hset
  show execRet s = _
  simp only [execRet, issue_of_issues hi hw, depths_any_zero hdepth, hstuck, eachSlot_popLink hlinks, hwrong, hbusy, Bool.false_eq_true,
    if_false, hret, hmap, hset, List.map_cons, hfrags]

end

end Sys2Proof.Machine

namespace Sys2Proof.Machine

open Sys2Proof.Safety

/-! ### The clauses that the slots of a RET return to (R121) -/

theorem dedup_singleton_of_mem_iff {l : List DWord} {a : DWord} (h : ∀ x, x ∈ l ↔ x = a) : l.dedup = [a] :=
  List.perm_singleton.1 ((List.perm_ext_iff_of_nodup l.nodup_dedup (List.nodup_singleton a)).2 fun x => by simp [h])

theorem dedup_pair_of_mem_iff {l : List DWord} {a c : DWord} (hne : a ≠ c) (h : ∀ x, x ∈ l ↔ x = a ∨ x = c) :
    l.dedup = [a, c] ∨ l.dedup = [c, a] :=
  List.perm_pair.1 ((List.perm_ext_iff_of_nodup l.nodup_dedup (by simp [hne])).2 fun x => by simp [h])

theorem mem_returnClauses {g : Group} {m : Mask} {x : DWord} :
    x ∈ (maskSlots m).map (fun i => (g.thread i).returnClause) ↔ ∃ i, m.getLsbD i = true ∧ (g.thread i).returnClause = x := by
  simp only [List.mem_map, mem_maskSlots]

theorem getLsbD_retSet (g : Group) (f : Frag) (a : DWord) {i : Nat} (h : i < 16) :
    (retSet g f a).getLsbD i = true ↔ f.mask.getLsbD i = true ∧ (g.thread i).returnClause = a := by
  rw [retSet, getLsbD_maskOf, decide_eq_true h, Bool.true_and, Bool.and_eq_true, beq_iff_eq]

/-- The slots whose newest link is wrong are those that the table of popped links shows. -/
theorem any_popped_wrong (g : Group) {m : Mask} {i : Nat} (h : m.getLsbD i = true) :
    ((g.popped m).any fun l => l.1 == i && !linkOk (g.thread i) l.2.1) = true ↔ linkOk (g.thread i) (g.newest i).1 = false := by
  simp only [Group.popped, List.any_map, List.any_eq_true, Function.comp_apply, Bool.and_eq_true, beq_iff_eq, Bool.not_eq_true',
    mem_maskSlots]
  exact ⟨fun ⟨j, _, hji, hbad⟩ => hji ▸ hbad, fun hbad => ⟨i, h, rfl, hbad⟩⟩

/-- The fragment of a further set takes the free entry (R121, R140). -/
theorem retFrags_one {s : State} {is : Issuer} {g : Group} {e : Nat} (hg : s.group? is.gid = some g) (hq : g.Quiet)
    (hfree : g.freeEntry = some e) (recx : Nat) (m : Mask) (a : DWord) :
    retFrags s is recx [(m, a)] = (s.modGroup is.gid fun g => g.setFrag e (some (Frag.at m a recx)), .ok ()) := by
  simp only [retFrags, hg, Option.any_some, hq.reached, takeEntry, hfree, Bool.false_eq_true, if_false]

section
variable {s : State} {is : Issuer} {g : Group} {f : Frag} (hi : Issues s is g f) (hw : g.wave = none)
  (hdepth : ∀ i, f.mask.getLsbD i = true → (g.thread i).cdepth ≠ 0)
  (hlinks : ∀ i, f.mask.getLsbD i = true → (g.thread i).links ≠ []) (hstuck : spillStuck s g.core = false)
  (hok : ∀ i, f.mask.getLsbD i = true → linkOk (g.thread i) (g.newest i).1 = true)
  (hres : ∀ i, f.mask.getLsbD i = true → (g.thread i).rbase ≤ (g.thread i).wbase - (g.thread i).callerFrame)
include hi hw hdepth hlinks hstuck hok hres

/-- RET whose active threads all popped one return clause goes there whole (R121). -/
theorem exec_ret_whole (hm : f.mask ≠ 0) {a : DWord} (ha : ∀ i, f.mask.getLsbD i = true → (g.thread i).returnClause = a) :
    ∃ t g', exec .ret s = .next (settle (goTo t is a) is.gid) ∧ t.group? is.gid = some g' ∧
      (∀ slot, slot < 16 → g'.thread slot = if f.mask.getLsbD slot then (g.thread slot).returned else g.thread slot) ∧
      { g' with threads := g.threads } = g ∧ OnlyGroup s t is.gid := by
  have haddrs : ((maskSlots f.mask).map fun i => (g.thread i).returnClause).dedup = [a] :=
    dedup_singleton_of_mem_iff fun x => by
      rw [mem_returnClauses]
      exact ⟨fun ⟨i, him, hx⟩ => hx ▸ ha i him, fun hx => ⟨lowest f.mask, getLsbD_lowest hm, hx ▸ ha _ (getLsbD_lowest hm)⟩⟩
  have hset : retSet g f a = f.mask := mask_ext fun i h => by
    rw [Bool.eq_iff_iff, getLsbD_retSet g f a h]
    exact ⟨And.left, fun him => ⟨him, ha i him⟩⟩
  have hexec := exec_ret_returns hi hw hdepth hlinks hstuck hok hres haddrs (u := _) rfl
  rw [hset] at hexec
  obtain ⟨hcommit, honly⟩ := becomes_modGroup
    (F := commitThreads ((maskSlots f.mask).map fun i => (i, (g.thread i).returned))) hi.group fun _ => rfl
  obtain ⟨hgroup, honly'⟩ := becomes_modGroup (F := fun h => h.modFrag is.entry fun x => { x with mask := f.mask }) hcommit
    fun _ => rfl
  rw [Group.modFrag_eq_self ((commitThreads_frag _ g is.entry).trans hi.frag) rfl] at hgroup
  exact ⟨_, _, hexec, hgroup, fun slot h => thread_commitThreads _ _ _ h, commitThreads_frame _ g, onlyGroup_trans honly honly'⟩

/-- RET whose active threads popped two return clauses: the first set goes on in the fragment's own entry, and the other in the
lowest free one (R121, R139). -/
theorem exec_ret_splits {x y : DWord} (haddrs : ((maskSlots f.mask).map fun i => (g.thread i).returnClause).dedup = [x, y])
    (hq : g.Quiet) {e : Nat} (he : e < 8) (hne : e ≠ is.entry) (hfree : g.freeEntry = some e) :
    ∃ t g', exec .ret s = .next t ∧ t.group? is.gid = some g' ∧
      (g'.frag is.entry).map Frag.place = some (retSet g f x, x, 0, f.recx) ∧
      (g'.frag e).map Frag.place = some (retSet g f y, y, 0, f.recx) := by
  have hcommit := State.group_modGroup_same
    (F := commitThreads ((maskSlots f.mask).map fun i => (i, (g.thread i).returned))) hi.group fun _ => rfl
  have hexec := exec_ret_returns hi hw hdepth hlinks hstuck hok hres haddrs
    (retFrags_one hcommit ⟨hq.recs, hq.jmask, hq.spilled⟩ hfree f.recx (retSet g f y) y)
  have hset := State.group_modGroup_same (F := fun h => h.setFrag e (some (Frag.at (retSet g f y) y f.recx))) hcommit fun _ => rfl
  have hmod := State.group_modGroup_same (F := fun h => h.modFrag is.entry fun z => { z with mask := retSet g f x }) hset fun _ => rfl
  obtain ⟨h, hh, hqh, hplace⟩ := goTo_quiet x hmod hw ⟨hq.recs, hq.jmask, hq.spilled⟩
  refine ⟨_, h, hexec, by rw [settle_quiet hh hqh, hh], ?_, ?_⟩
  · rw [hplace, Group.modFrag_frag, if_pos rfl, Group.setFrag_frag _ _ _ he, if_neg (Ne.symm hne),
      commitThreads_frag, hi.frag]
    simp
  · rw [hplace, Group.modFrag_frag, if_neg hne, Group.setFrag_frag _ _ _ he, if_pos rfl]
    simp [hne, Frag.place, Frag.at]

end

theorem retWord : Claims.RetWord := by
  intro s is g f a hi hw hm active fc wrong refused
  have hactive : ∀ {i}, f.mask.getLsbD i = true → active i := fun h => ⟨lt_of_getLsbD_mask h, h⟩
  have hwrong : ∀ i, linkOk (g.thread i) (g.newest i).1 = false ↔ wrong (g.thread i) := fun i => by
    rw [← Bool.not_eq_true, Group.newest_link, linkOk_newest]
    exact Iff.rfl
  have hrefused : ∀ {p : Nat → Bool} {P : Thread → Prop}, exec .ret s = .next (windowTrap s is (maskSlots f.mask) p) →
      (∀ i, f.mask.getLsbD i = true → (p i = true ↔ P (g.thread i))) → refused P := by
    intro p P hexec hp
    obtain ⟨d, hd, hsub, hlt, hnames⟩ := windowTrap_names s is f.mask p
    refine ⟨d, by rw [hexec, hd], hsub, hlt, fun slot h => (hnames slot h).trans ?_⟩
    exact ⟨fun ⟨hs, hb⟩ => ⟨⟨h, hs⟩, (hp slot hs).1 hb⟩, fun ⟨⟨_, hs⟩, hb⟩ => ⟨hs, (hp slot hs).2 hb⟩⟩
  refine ⟨fun ⟨i, ha, hd⟩ => hrefused (P := fun t => t.cdepth = 0) (exec_ret_empty hi hw ⟨i, ha.2, hd⟩) fun _ _ => beq_iff_eq,
    fun hd hstuck => exec_ret_waits hi hw (fun i h => hd i (hactive h)) hstuck, fun hact hstuck => ?_⟩
  have hdepth := fun i h => (hact i (hactive h)).1
  have hlinks := fun i h => (hact i (hactive h)).2
  have hok : ∀ i, ¬wrong (g.thread i) → linkOk (g.thread i) (g.newest i).1 = true := fun i h => by
    rwa [← hwrong, Bool.not_eq_false] at h
  refine ⟨fun ⟨i, ha, hb⟩ => hrefused (exec_ret_wrong hi hw hdepth hlinks hstuck ⟨i, ha.2, (hwrong i).2 hb⟩) fun j hj =>
      (any_popped_wrong g hj).trans (hwrong j),
    fun hall => exec_ret_whole hi hw hdepth hlinks hstuck (fun i h => hok i (hall i (hactive h)).1)
      (fun i h => (hall i (hactive h)).2.1) hm fun i h => (hall i (hactive h)).2.2, ?_⟩
  intro c hrecs hjmask hspilled hne e he hentry hfree hrecx hall goes ⟨i, hia⟩ ⟨j, hjc⟩
  have hmem : ∀ x, x ∈ (maskSlots f.mask).map (fun i => (g.thread i).returnClause) ↔ x = a ∨ x = c := fun x => by
    rw [mem_returnClauses]
    constructor
    · rintro ⟨k, hk, rfl⟩
      exact (hall k (hactive hk)).2.2
    · rintro (rfl | rfl)
      · exact ⟨i, hia.1.2, hia.2⟩
      · exact ⟨j, hjc.1.2, hjc.2⟩
  have hbits : ∀ x slot, slot < 16 → ((retSet g f x).getLsbD slot = true ↔ goes x slot) := fun x slot h =>
    (getLsbD_retSet g f x h).trans ⟨fun ⟨hs, hx⟩ => ⟨⟨h, hs⟩, hx⟩, fun ⟨⟨_, hs⟩, hx⟩ => ⟨hs, hx⟩⟩
  have hsplits := fun {x y} haddrs => exec_ret_splits hi hw hdepth hlinks hstuck (fun i h => hok i (hall i (hactive h)).1)
    (fun i h => (hall i (hactive h)).2.1) (x := x) (y := y) haddrs ⟨hrecs, hjmask, hspilled⟩ he hentry hfree
  rw [hrecx] at hsplits
  rcases dedup_pair_of_mem_iff hne hmem with haddrs | haddrs
  · obtain ⟨t, g', hexec, hg', hfirst, hother⟩ := hsplits haddrs
    exact ⟨t, g', _, _, _, _, hexec, hg', Or.inl ⟨rfl, rfl⟩, fun slot h => ⟨hbits a slot h, hbits c slot h⟩, hfirst, hother⟩
  · obtain ⟨t, g', hexec, hg', hfirst, hother⟩ := hsplits haddrs
    exact ⟨t, g', _, _, _, _, hexec, hg', Or.inr ⟨rfl, rfl⟩, fun slot h => ⟨hbits a slot h, hbits c slot h⟩, hother, hfirst⟩

/-- Settles O24: CALL and RET take the active slots one after the other, each with its own window. -/
theorem callAndReturn : Obligations.CallAndReturn := ⟨callWord, retWord⟩

end Sys2Proof.Machine

namespace Sys2Proof.Laws.RoundTrip

/-- Settles O1, word by word: the fields that a format packs are the fields that `pick` reads. A step of the hardware or of the host
has no words. -/
theorem roundTrip : Obligations.RoundTrip := by
  intro i
  cases i with
  | iadd => apply iadd | isub => apply isub | imul => apply imul | imad => apply imad | iminmax => apply iminmax
  | iabs => apply iabs | logic => apply logic | bitop => apply bitop | shift => apply shift | bfe => apply bfe
  | bfi => apply bfi | icmp => apply icmp | sel => apply sel | add64 => apply add64 | lea => apply lea | iaddi => apply iaddi
  | imuli => apply imuli | andi => apply andi | ori => apply ori | xori => apply xori | shli => apply shli | shri => apply shri
  | sari => apply sari | icmpiI32 => apply icmpiI32 | icmpiN32 => apply icmpiN32 | movi => apply movi | movl => apply movl
  | add64i => apply add64i | enter => apply enter | fadd => apply fadd | fsub => apply fsub | fmul => apply fmul
  | ffma => apply ffma | fminmax => apply fminmax | fcmp => apply fcmp | fsign => apply fsign | padd2 => apply padd2
  | pmul2 => apply pmul2 | pfma2 => apply pfma2 | pminmax2 => apply pminmax2 | hadd => apply hadd | hmul => apply hmul
  | hfma => apply hfma | cvt => apply cvt | pack => apply pack | unpk => apply unpk | frnd => apply frnd | fspec => apply fspec
  | rand => apply rand | plop => apply plop | pmovV => apply pmovV | pmovP => apply pmovP | rep => apply rep | br => apply br
  | call => apply call | callk => apply callk | exit => apply exit | ualu => apply ualu | ucmp => apply ucmp
  | umovl => apply umovl | uaddl => apply uaddl | qlop => apply qlop | shfl => apply shfl | vote => apply vote
  | ballot => apply ballot | redt => apply redt | scan => apply scan | bcast => apply bcast | fragq => apply fragq
  | barinit => apply barinit | barx => apply barx | bara => apply bara | barw => apply barw | bart => apply bart
  | launch => apply launch | cwait => apply cwait | acq => apply acq | rel => apply rel | tset => apply tset
  | tget => apply tget | mmaE4m3 => apply mmaE4m3 | mmaE5m2 => apply mmaE5m2 | mmaL6 => apply mmaL6 | mmaI8 => apply mmaI8
  | mmaBf16 => apply mmaBf16 | mmaF16 => apply mmaF16 | mzero => apply mzero | mld => apply mld | mst => apply mst
  | mdrain => apply mdrain | mramp => apply mramp | ldlB32 => apply ldlB32 | ldlB64 => apply ldlB64 | stlB32 => apply stlB32
  | stlB64 => apply stlB64 | ldsB32 => apply ldsB32 | ldsB64 => apply ldsB64 | ldsB128 => apply ldsB128
  | stsB32 => apply stsB32 | stsB64 => apply stsB64 | stsB128 => apply stsB128 | ldxB32 => apply ldxB32
  | ldxB64 => apply ldxB64 | ldxB128 => apply ldxB128 | stxB32 => apply stxB32 | stxB64 => apply stxB64
  | stxB128 => apply stxB128 | cpy => apply cpy | put => apply put | get => apply get | waitp => apply waitp
  | fence => apply fence | afence => apply afence | hflush => apply hflush | dwfence => apply dwfence
  | methreg => apply methreg | atomAddI32 => apply atomAddI32 | atomAddF32 => apply atomAddF32 | atomMinI32 => apply atomMinI32
  | atomMaxI32 => apply atomMaxI32 | atomMinN32 => apply atomMinN32 | atomMaxN32 => apply atomMaxN32 | atomAnd => apply atomAnd
  | atomOr => apply atomOr | atomXor => apply atomXor | atomXchg => apply atomXchg | cas => apply cas | casgt => apply casgt
  | casv => apply casv | caspt => apply caspt | waitc => apply waitc | comb => apply comb | coll => apply coll
  | rotOpen => apply rotOpen | rotRun => apply rotRun | rotClose => apply rotClose | xchg => apply xchg | bpri => apply bpri
  | bpriGet => apply bpriGet | rsto => apply rsto | upd => apply upd | pairst => apply pairst | place => apply place
  | pfence => apply pfence | step => apply step | snap => apply snap | estat => apply estat | ewait => apply ewait
  | srr => apply srr | srw => apply srw | trap => apply trap | rinj => apply rinj | engs => apply engs | engr => apply engr
  | join => apply join | ret => apply ret | reti => apply reti | idle => apply idle | halt => apply halt
  | boundaryTrapEntry | blockedWordComplete | memoryReply | wcbAgeDrain | fragmentExchange | acqGrant | gridRetire
  | queueDoorbell | queueMapRound | gridDispatch | teamPlace | preemptRequest | timerExpire | deadlineExpire | idleTimeout
  | matrixEntryStart | matrixEntryComplete | drainMerge | rampWindowEnd | rampTargetExpire | throttleWindow | energyUpdate
  | sliceAtomic | windowCloseIdle | dwfenceSliceClose | waitcTest | monitorTimeout | monitorReclaim | combCallArrive
  | waveStart | waveCommit | cfclrClear | methregSliceUpdate | engineChunkStart | faultResume | faultAbort | tlbInvalidate
  | tlbInvalidateDone | gtsyncGo | gtsyncReload | rstoLineArrive | planeDown | xchgTokenAccept | rotChunkArrive | rotSlotReturn
  | rotCreditArrive | placeCopyDone | moraineWrite | tierReadError | reconstructDone | stepBoundary | memberStepReport
  | supplyLoss | supplyOn | startRestart | domainGo | trimGo | trimApply | packageLossDeclare | lossDetectTimeout
  | lossReportArrive | fenceComplete | rebuildUnit | bufferSuspectTimeout | thawTokenArrive | meltwaterMove | thawStallTimeout
  | deflectionEnter | deflectionExit | flitSend | flitReceive | nakReceive | nakHoldoffExpire | linkKeyLoad | linkKeySwitch
  | linkRetrain | linkTrainDone | partnerRegWrite | hostWindowWrite | attestGo | attestReportWritten | registerWrite
  | switchSramEnable | contextDestroy | uncorrectableError | clauseStart | repRepeat | thawTokenReissue | copyChunkCommit
  | copyComplete | chunkLinkTimeout | collChunkCommit | collComplete | rstoComplete | xchgComplete | rotOpenComplete
  | rotRunComplete | rotCloseComplete | updBlockWrite | updComplete | pairstComplete | putAck | putLineApply | peerAccess
  | packetHop | packetDeliver | parityDeltaArrive | parityAckArrive | reduceMergeApply =>
    exact fun _ h => absurd rfl h

end Sys2Proof.Laws.RoundTrip

namespace Sys2Proof

/-! ### What an opcode row reads (R62, R63) -/

/-- The opcode `op` is assigned, and the instruction has one word, or one and the literal in an L form. -/
structure ReadUnder (op lit : Nat) (i : Instr) : Prop where
  assigned : assigned op = true
  words : ∃ v, encode i = v :: if longOp op then [lit % 2 ^ 32] else []

/-- Whatever is read, is read under the opcode. -/
def Reads (op lit : Nat) (o : Option Instr) : Prop := ∀ i, o = some i → ReadUnder op lit i

section
variable {op lit : Nat} {α : Type}

@[simp] theorem reads_none : Reads op lit none := fun _ h => nomatch h

@[simp] theorem reads_some {i : Instr} : Reads op lit (some i) ↔ ReadUnder op lit i :=
  ⟨fun h => h i rfl, fun h _ e => Option.some.inj e ▸ h⟩

@[simp] theorem reads_map {o : Option α} {F : α → Instr} :
    Reads op lit (o.map F) ↔ ∀ a, o = some a → ReadUnder op lit (F a) := by
  cases o with
  | none => simp
  | some a => simp

@[simp] theorem reads_bind {o : Option α} {F : α → Option Instr} :
    Reads op lit (o.bind F) ↔ ∀ a, o = some a → Reads op lit (F a) := by
  cases o with
  | none => simp
  | some a => simp

@[simp] theorem reads_ite {c : Prop} [Decidable c] {o o' : Option Instr} :
    Reads op lit (if c then o else o') ↔ (c → Reads op lit o) ∧ (¬c → Reads op lit o') := by
  by_cases h : c <;> simp [h]

end

/-- The opcode of a word by its row and its place in the row (R62). -/
theorem opcode_eq (w : Nat) : w / 2 ^ 24 = 16 * (w / 2 ^ 28) + bitsOf w 24 4 := by
  simp only [bitsOf, Nat.reducePow]
  omega

/-- Row 0xB0 of R62, where 0xB1 holds the three rotation words. -/
theorem pickB_reads (lo w lit : Nat) : Reads (16 * 11 + lo) lit (pickB lo w) := by
  unfold pickB
  split
  case h_2 => split <;> simp only [reads_some, reads_none] <;> exact ⟨rfl, _, rfl⟩
  all_goals
    simp only [reads_map, reads_bind, reads_ite, reads_some, reads_none] <;> and_intros <;> intros <;> exact ⟨rfl, _, rfl⟩

/-- The rows of R62: what `pick` reads is read under the word's opcode. -/
theorem pick_reads (w lit : Nat) : Reads (w / 2 ^ 24) lit (pick w lit) := by
  rw [opcode_eq]
  simp only [pick]
  generalize bitsOf w 24 4 = lo
  generalize w / 2 ^ 28 = hi
  split
  case h_12 => exact pickB_reads lo w lit
  case h_14 => exact reads_none
  all_goals
    simp only [pick0, pick1, pick2, pick3, pick4, pick5, pick6, pick7, pick8, pick9, pickA, pickC]
    split
  all_goals
    simp only [reads_map, reads_bind, reads_ite, reads_some, reads_none] <;> and_intros <;> intros <;> exact ⟨rfl, _, rfl⟩

/-- A word that decodes is the first word of the encoding of a well-formed instruction, which `pick` reads in it. -/
theorem decode_eq_some {w l : Nat} {i : Instr} (h : decode w l = some i) :
    pick w l = some i ∧ (encode i).headD 0 = w ∧ i.wf = true := by
  unfold decode at h
  split at h
  · exact nomatch h
  next j hj =>
    obtain ⟨⟨hw, hwf⟩, rfl⟩ : ((encode j).headD 0 = w ∧ j.wf = true) ∧ j = i := by simpa using h
    exact ⟨hj, hw, hwf⟩

/-- No bit of a word, and no bit of its literal, is lost. -/
theorem decodeExact : Claims.DecodeExact := by
  intro w l i _ hl h
  obtain ⟨hp, hw, hwf⟩ := decode_eq_some h
  obtain ⟨v, hv⟩ := (pick_reads w l i hp).words
  obtain rfl : v = w := by rw [← hw, hv]; rfl
  refine ⟨hwf, ?_⟩
  rw [hv, Nat.mod_eq_of_lt hl]
  split <;> rfl

/-- A word whose opcode R62 leaves unassigned does not decode. -/
theorem decode_eq_none_of_unassigned {w l : Nat} (h : assigned (w / 2 ^ 24) = false) : decode w l = none := by
  cases hd : decode w l with
  | none => rfl
  | some i => exact absurd (pick_reads w l i (decode_eq_some hd).1).assigned (by rw [h]; decide)

/-- The opcodes that R62 leaves unassigned, as `assigned` has them. -/
theorem unassignedRefused : Claims.UnassignedRefused := by
  intro w l hw hop
  refine decode_eq_none_of_unassigned ?_
  have hhi : w / 2 ^ 28 < 16 := by omega
  have hlo : bitsOf w 24 4 < 16 := Nat.mod_lt _ (by decide)
  rw [opcode_eq] at hop ⊢
  generalize w / 2 ^ 28 = hi at *
  generalize bitsOf w 24 4 = lo at *
  have hdiv : (16 * hi + lo) / 16 = hi := by omega
  have hmod : (16 * hi + lo) % 16 = lo := by omega
  simp only [assigned, hdiv, hmod]
  interval_cases hi <;> simp <;> omega

/-- Settles O2: `pick` reads an instruction under an assigned opcode, and `decode` takes it only when the word is its encoding. -/
theorem decoding : Obligations.Decoding := ⟨decodeExact, unassignedRefused⟩

/-- A word of the spec decodes to the instruction whose encoding it is. -/
theorem decode_of_encode {i : Instr} {w : Nat} (he : encode i = [w]) (hw : i.wf = true) : decode w 0 = some i := by
  simpa [he] using Laws.RoundTrip.roundTrip i hw

/-- Settles O3: each word is the encoding of the instruction that the spec names; br has its displacement as its literal. -/
theorem wordsDecode : Obligations.WordsDecode := by
  refine ⟨decode_of_encode rfl rfl, decode_of_encode rfl rfl, decode_of_encode rfl rfl, ?_, decode_of_encode rfl rfl,
    decode_of_encode rfl rfl, decode_of_encode rfl rfl, decode_of_encode rfl rfl, decode_of_encode rfl rfl, decode_of_encode rfl rfl⟩
  exact Laws.RoundTrip.br 4 ⟨false, 1⟩ .thread (-64) rfl nofun

end Sys2Proof

namespace Sys2Proof.Machine

open Sys2Proof.Safety

/-! ### What a read of global memory leaves as it was (R222, R223, R284) -/

/-- Beyond the packages and host memory, t is s, and every package is as busy with a synchronisation as before: what a
translation, a line brought into a memory-side cache and a table entry that the device loads can change. -/
structure ReadOnly (s t : State) : Prop where
  rest : { t with pkgs := s.pkgs, host := s.host } = s
  busy : ∀ r, (t.pkg? r).map (·.gtBusy) = (s.pkg? r).map (·.gtBusy)

theorem ReadOnly.refl (s : State) : ReadOnly s s := ⟨rfl, fun _ => rfl⟩

theorem ReadOnly.trans {s t u : State} (h : ReadOnly s t) (k : ReadOnly t u) : ReadOnly s u where
  rest := (congrArg (fun x : State => { x with pkgs := s.pkgs, host := s.host }) k.rest).trans h.rest
  busy r := (k.busy r).trans (h.busy r)

theorem ReadOnly.groups {s t : State} (h : ReadOnly s t) : t.groups = s.groups := (congrArg State.groups h.rest :)

theorem ReadOnly.who {s t : State} (h : ReadOnly s t) : t.who = s.who := (congrArg State.who h.rest :)

theorem ReadOnly.group {s t : State} (h : ReadOnly s t) (n : Nat) : t.group? n = s.group? n := by
  rw [State.group?, h.groups, State.group?]

theorem ReadOnly.issues {s t : State} {is : Issuer} {g : Group} {f : Frag} (h : ReadOnly s t) (hi : Issues s is g f) :
    Issues t is g f := ⟨h.who.trans hi.who, (h.group _).trans hi.group, hi.frag⟩

/-- What a change of a package leaves of every package. -/
theorem State.map_pkg_modPkg {α : Type} (s : State) (r : Nat) {F : Pkg → Pkg} (hr : ∀ p, (F p).rank = p.rank) {φ : Pkg → α}
    (hφ : ∀ p, φ (F p) = φ p) (n : Nat) : ((s.modPkg r F).pkg? n).map φ = (s.pkg? n).map φ := by
  rw [State.pkg_modPkg s r n F hr, Option.map_map]
  exact congrArg (fun f => (s.pkg? n).map f) (funext fun p => by simp only [Function.comp_apply]; split <;> simp [hφ])

/-- A change of a package that keeps its rank and GTSYNC's mark. -/
theorem readOnly_modPkg (s : State) (r : Nat) {F : Pkg → Pkg} (hr : ∀ p, (F p).rank = p.rank) (hb : ∀ p, (F p).gtBusy = p.gtBusy) :
    ReadOnly s (s.modPkg r F) := ⟨rfl, s.map_pkg_modPkg r hr hb⟩

/-- Steps that only read, one after the other. -/
theorem readOnly_foldl {α β : Type} {F : State × β → α → State × β} (hF : ∀ x a, ReadOnly x.1 (F x a).1) (l : List α)
    (x : State × β) : ReadOnly x.1 (l.foldl F x).1 := by
  induction l generalizing x with
  | nil => exact .refl _
  | cons a l ih => exact (hF x a).trans (ih _)

/-- A translation changes at most a TLB (R223). -/
theorem readOnly_translate1 (s : State) (rank die ctx va : Nat) (acc : Access) : ReadOnly s (translate1 s rank die ctx va acc).1 := by
  fun_cases translate1 s rank die ctx va acc
  case case6 => exact readOnly_modPkg s rank (fun _ => rfl) fun _ => rfl
  all_goals exact .refl s

theorem readOnly_xlate (s : State) (rank die ctx va : Nat) (acc : Access) : ReadOnly s (xlate s rank die ctx va acc).1 := by
  have h1 := readOnly_translate1 s rank die ctx va acc
  unfold xlate
  split
  next u f e => rw [e] at h1; exact h1
  next u e pa he =>
    rw [he] at h1
    split
    · exact h1
    · split
      · exact h1
      · split
        · exact h1
        · have h2 := readOnly_translate1 u e.peer (dieOfSlice (sliceOf va)) ctx va acc
          split
          next v f he' => rw [he'] at h2; exact h1.trans h2
          next v x pa' he' =>
            rw [he'] at h2
            split <;> exact h1.trans h2

theorem readOnly_xlateAll (s : State) (rank die ctx : Nat) (acc : Access) (l : List (Nat × Nat)) :
    ReadOnly s (xlateAll s rank die ctx acc l).1 := by
  induction l generalizing s with
  | nil => exact .refl s
  | cons x l ih =>
    have h1 := readOnly_xlate s rank die ctx (wrap64 x.1) acc
    unfold xlateAll
    split
    next u f e => rw [e] at h1; exact h1
    next u h e =>
      rw [e] at h1
      have h2 := h1.trans (ih u)
      split
      · exact h1
      · split <;> next e' => rw [e'] at h2; exact h2

/-- A write behind the caches leaves every package's number and GTSYNC's mark. -/
theorem readOnly_rawWrite (s : State) (h : Phys) (bs : List Byte) (bad : Bool) : ReadOnly s (rawWrite s h bs bad) := by
  unfold rawWrite
  split
  · refine readOnly_modPkg s h.home (fun p => ?_) fun p => ?_ <;> dsimp only <;> split <;> rfl
  · exact ⟨rfl, fun _ => rfl⟩
  · exact .refl s

theorem readOnly_writeBack (s : State) (home : Nat) (c : CLine) : ReadOnly s (writeBack s home c) := by
  unfold writeBack
  induction c.dirtyRuns generalizing s with
  | nil => exact .refl s
  | cons r l ih => exact (readOnly_rawWrite s _ _ _).trans (ih _)

theorem readOnly_evictLine (s : State) (home va : Nat) : ReadOnly s (evictLine s home va) := by
  fun_cases evictLine s home va
  case case4 => exact (readOnly_writeBack s home _).trans (readOnly_modPkg _ home (fun _ => rfl) fun _ => rfl)
  all_goals exact .refl s

theorem readOnly_fetchLine (s : State) (h : Phys) (ctx va : Nat) : ReadOnly s (fetchLine s h ctx va).1 := by
  unfold fetchLine
  split
  · exact .refl s
  · split
    · exact .refl s
    · exact (readOnly_evictLine s h.home va).trans (readOnly_modPkg _ h.home (fun _ => rfl) fun _ => rfl)

theorem readOnly_lineRead (s : State) (h : Phys) (ctx va n : Nat) : ReadOnly s (lineRead s h ctx va n).1 := by
  unfold lineRead
  split
  · split <;> exact .refl s
  · exact readOnly_fetchLine s h ctx va

/-- A read of global memory changes translations, caches and the memory behind them alone. -/
theorem readOnly_gRead (s : State) (rank die ctx va n : Nat) (acc : Access) : ReadOnly s (gRead s rank die ctx va n acc).1 := by
  have h := readOnly_xlateAll s rank die ctx acc (linePieces va n)
  unfold gRead
  split
  next e => rw [e] at h; exact h
  next e => rw [e] at h; exact h
  next u l e =>
    rw [e] at h
    exact h.trans (readOnly_foldl (x := (u, [])) (fun x a => by exact readOnly_lineRead x.1 a.2.2 ctx a.1 a.2.1) l)

/-! ### Fetches (R34, R226) -/

theorem readOnly_fetchWord (s : State) (g : Group) (va : Nat) : ReadOnly s (fetchWord s g va).1 := by
  have h := readOnly_gRead s g.rank g.core.die g.ctx va 4 .fetch
  unfold fetchWord
  split <;> next e => rw [e] at h; exact h

theorem readOnly_fetchInstr (s : State) (g : Group) (clause : DWord) (word : Nat) (lit : Option Word) :
    ReadOnly s (fetchInstr s g clause word lit).1 := by
  have h := readOnly_fetchWord s g (wordVa clause word)
  unfold fetchInstr
  split
  next e => rw [e] at h; exact h
  next e => rw [e] at h; exact h
  next u w e =>
    rw [e] at h
    split
    · exact h
    · exact h
    · have h2 := h.trans (readOnly_fetchWord u g (wordVa clause (word + 1)))
      split <;> next e' => rw [e'] at h2; exact h2

/-- A word that is no L form is fetched alone (R63). -/
theorem fetchInstr_literal {s : State} {g : Group} {clause : DWord} {word : Nat} {lit : Option Word} {w x : Word}
    (h : (fetchInstr s g clause word lit).2 = .ok (w, x)) (hw : longOp (w.toNat / 2 ^ 24) = false) : x = 0 := by
  unfold fetchInstr at h
  split at h
  · exact nomatch h
  · exact nomatch h
  next u v e =>
    split at h
    · obtain ⟨-, rfl⟩ := Prod.mk.inj (GOut.ok.inj h)
      rfl
    next hl =>
      obtain ⟨rfl, -⟩ := Prod.mk.inj (GOut.ok.inj h)
      exact absurd hl (by rw [hw]; decide)
    next hl =>
      split at h
      · exact nomatch h
      · exact nomatch h
      · obtain ⟨rfl, -⟩ := Prod.mk.inj (GOut.ok.inj h)
        exact absurd hl (by rw [hw]; decide)

end Sys2Proof.Machine

namespace Sys2Proof.Machine

open Sys2Proof.Safety

/-! ### A word that decodes is issued (R26, R126) -/

/-- What a word comes to that is issued for the fragment that `State.who` names: K outside waves, L in a wave (R26, R301). -/
def issuesAs (s : State) (K : Issuer → Group → Frag → State) (L : Issuer → Group → Frag → SliceId → State) : Outcome :=
  match s.who with
  | none => .fault .noIssuer
  | some is =>
    match s.group? is.gid with
    | none => .fault .noIssuer
    | some g =>
      match g.frag is.entry with
      | none => .fault .noIssuer
      | some f =>
        match g.wave with
        | none => .next (K is g f)
        | some sl => .next (L is g f sl)

/-- A repeat of a word runs the meaning that the word has, and every word is issued for a fragment (R26, R126). -/
theorem runWord_issues {i : Instr} (h : encode i ≠ []) (s : State) :
    runWord i s = exec i s ∧ ∃ K L, exec i s = issuesAs s K L := by
  cases i with
  | iadd | isub | imul | imad | iminmax | iabs | logic | bitop | shift | bfe | bfi | icmp | sel | add64 | lea | iaddi | imuli
  | andi | ori | xori | shli | shri | sari | icmpiI32 | icmpiN32 | movi | movl | add64i | enter | fadd | fsub | fmul | ffma
  | fminmax | fcmp | padd2 | pmul2 | pfma2 | pminmax2 | hadd | hmul | hfma | cvt | pack | unpk | frnd | fspec | rand | plop
  | pmovV | pmovP | rep | br | call | callk | exit | ualu | ucmp | umovl | uaddl | qlop | shfl | vote | ballot | redt | scan
  | bcast | fragq | barinit | barx | bara | barw | bart | launch | cwait | acq | rel | tset | tget | mmaE4m3 | mmaE5m2 | mmaL6
  | mmaI8 | mmaBf16 | mmaF16 | mzero | mld | mst | mdrain | mramp | ldlB32 | ldlB64 | stlB32 | stlB64 | ldsB32 | ldsB64
  | ldsB128 | stsB32 | stsB64 | stsB128 | ldxB32 | ldxB64 | ldxB128 | stxB32 | stxB64 | stxB128 | cpy | put | get | waitp
  | fence | afence | hflush | dwfence | methreg | atomAddI32 | atomAddF32 | atomMinI32 | atomMaxI32 | atomMinN32 | atomMaxN32
  | atomAnd | atomOr | atomXor | atomXchg | cas | casgt | casv | caspt | waitc | comb | coll | rotOpen | rotRun | rotClose
  | xchg | bpri | bpriGet | rsto | upd | pairst | place | pfence | step | snap | estat | ewait | srr | srw | trap | rinj | engs
  | engr | join | ret | reti | idle | halt => exact ⟨rfl, _, _, rfl⟩
  | fsign op =>
    refine ⟨rfl, ?_⟩
    simp only [exec, execFsign]
    split <;> exact ⟨_, _, rfl⟩
  | _ => exact absurd rfl h

/-- A word that a group outside a wave issues completes its step (R26). -/
theorem exec_next_of_issues {s : State} {is : Issuer} {g : Group} {f : Frag} {i : Instr} (h : Issues s is g f) (hw : g.wave = none)
    (hi : encode i ≠ []) : ∃ t, exec i s = .next t := by
  obtain ⟨-, K, L, hk⟩ := runWord_issues hi s
  exact ⟨K is g f, by simp [hk, issuesAs, h.who, h.group, h.frag, hw]⟩

/-- What decodes is a word. -/
theorem encode_ne_nil_of_decode {w l : Nat} {i : Instr} (h : decode w l = some i) : encode i ≠ [] := by
  obtain ⟨v, hv⟩ := (pick_reads w l i (decode_eq_some h).1).words
  simp [hv]

/-- What REP accepts is an instruction whose encoding begins with the word. -/
theorem headD_of_decodeRep {w l : Nat} {i : Instr} (h : decodeRep w l = some i) : (encode i).headD 0 = w := by
  unfold decodeRep at h
  split at h
  · exact nomatch h
  next j _ =>
    obtain ⟨⟨hw, -⟩, rfl⟩ : ((encode j).headD 0 = w ∧ j.encOk = true) ∧ j = i := by simpa using h
    exact hw

/-! ### A word inside its clause (R26, R301) -/

/-- A combiner method's budget is all that a word spends of its group. -/
theorem spendBudget_group {s : State} {g g' : Group} (h : s.group? g.gid = some g') :
    ∃ b, (spendBudget s g).group? g.gid = some { g' with budget := b } := by
  unfold spendBudget
  split
  · exact ⟨g'.budget, h⟩
  · refine ⟨g'.budget + 1, ?_⟩
    have h' := State.group_modGroup_same (F := fun g => { g with budget := g.budget + 1 }) h fun _ => rfl
    dsimp only
    split
    · simpa [waveFault] using h'
    · exact h'

@[simp] theorem Group.gid_past (g : Group) (e : Nat) (f : Frag) (len : Nat) : (g.past e f len).gid = g.gid := by
  unfold Group.past
  split
  · rfl
  · dsimp only
    split <;> split <;> simp [Group.toClause_gid]

/-- Inside its clause, and outside repeats, a fragment goes on with the word that follows. -/
theorem advance_inClause {s : State} {is : Issuer} {g : Group} {f : Frag} {len : Nat} (hg : s.group? is.gid = some g)
    (hf : g.frag is.entry = some f) (hreps : g.reps.active = false) (hword : f.word + len < f.count) :
    ∃ b, (advance s is len).group? is.gid =
      some { g.modFrag is.entry (fun f => { f with word := f.word + len }) with budget := b } := by
  have hpast : g.past is.entry f len = g.modFrag is.entry fun f => { f with word := f.word + len } := by
    simp [Group.past, hreps, Nat.not_le.2 hword]
  have hends : g.endsClause f len = false := by simp [Group.endsClause, Nat.not_le.2 hword]
  have hgid := State.gid_of_group hg
  obtain ⟨b, hb⟩ := spendBudget_group (g := g) (s := s.modGroup is.gid fun g => g.past is.entry f len)
    (g' := g.modFrag is.entry fun f => { f with word := f.word + len })
    (by rw [hgid, ← hpast]; exact State.group_modGroup_same hg fun x => x.gid_past _ f len)
  exact ⟨b, by simpa [advance, passWord, hg, hf, hends, hgid] using hb⟩

/-! ### REP (R57, R124 to R126) -/

theorem repWord : Claims.RepWord := by
  intro n sd sa sb s is g f w x i hi hreps hword hfetch hdec hok
  obtain ⟨u, hu⟩ : ∃ u, fetchInstr s g f.clause (f.word + 1) none = (u, .ok (w, x)) := ⟨_, Prod.ext rfl hfetch⟩
  have hr : ReadOnly s u := by simpa [hu] using readOnly_fetchInstr s g f.clause (f.word + 1) none
  obtain ⟨b, hb⟩ := advance_inClause ((hr.group _).trans hi.group) hi.frag hreps hword
  have hexec : execRep n sd sa sb s = .next ((advance u is 1).modGroup is.gid fun g =>
      { g with reps := ⟨n.toNat, 0, sb, sa, sd, true, is.entry, some x⟩ }) := by
    simp only [execRep, issue_inWave hi, hu, hdec, hok, Bool.not_true, Bool.false_eq_true, if_false]
  exact ⟨_, _, hexec, State.group_modGroup_same hb fun _ => rfl, rfl⟩

theorem repRefuses : Claims.RepRefuses := by
  intro n sd sa sb s u is g f hi hw
  refine ⟨fun w x hu => ⟨fun hdec => ?_, fun i hdec hok => ?_⟩, fun va x hu => ?_⟩ <;> show execRep n sd sa sb s = _
  · simp only [execRep, issue_inWave hi, hu, hdec, undecoded, hw]
  · simp only [execRep, issue_inWave hi, hu, hdec, hok, Bool.not_false, if_true]
  · simp [execRep, issue_inWave hi, hu, fetchTrap, hw, faultD, tinfoOf]

/-- The fields that an integer word may have stepped. -/
theorem repeatChecks : Claims.RepeatChecks := by
  intro k d a b gd p pa pb op c imm sh n sd sa sb hn
  have key (lo : Nat) (r : VReg) (bit : Bool) : StepField.ok (vField lo r 1) bit n = true ↔ (bit = true → r.toNat + n ≤ 64) := by
    cases bit <;> simp [StepField.ok, vField]
    omega
  have hnone (bit : Bool) : StepField.ok none bit n = true ↔ bit = false := by cases bit <;> simp [StepField.ok]
  simp only [repOk, stepFields, tStep, daStep, Bool.and_eq_true, key, hnone]
  tauto

end Sys2Proof.Machine

namespace Sys2Proof.Machine

open Sys2Proof.Safety

/-! ### Repeats (R124, R126) -/

/-- The state in which a repeat runs its word: the word has been fetched, and its literal is kept for the repeats to come. -/
def repeatState (s : State) (is : Issuer) (g : Group) (f : Frag) (x : Word) : State :=
  (fetchInstr s g f.clause f.word g.reps.lit).1.modGroup is.gid fun g => { g with reps := { g.reps with lit := some x } }

section
variable {s : State} {is : Issuer} {g : Group} {f : Frag} {w x : Word} {i j : Instr}

theorem repeatState_issues (h : Issues s is g f) (x : Word) :
    Issues (repeatState s is g f x) is { g with reps := { g.reps with lit := some x } } f :=
  have hr := (readOnly_fetchInstr s g f.clause f.word g.reps.lit).issues h
  ⟨hr.who, State.group_modGroup_same hr.group fun _ => rfl, h.frag⟩

theorem repeatState_group_other (s : State) (is : Issuer) (g : Group) (f : Frag) (x : Word) {n : Nat} (hn : n ≠ is.gid) :
    (repeatState s is g f x).group? n = s.group? n :=
  (State.group_modGroup_other (F := fun g => { g with reps := { g.reps with lit := some x } }) (fun _ => rfl) hn).trans
    ((readOnly_fetchInstr s g f.clause f.word g.reps.lit).group n)

/-- A repeat runs the stepped form of the repeated word (R124). -/
theorem exec_repRepeat (h : Issues s is g f) (hfetch : (fetchInstr s g f.clause f.word g.reps.lit).2 = .ok (w, x))
    (hrep : decodeRep w.toNat x.toNat = some i)
    (hstep : decode (stepWord i w.toNat g.reps.index g.reps.stepd g.reps.stepa g.reps.stepb) x.toNat = some j) :
    exec .repRepeat s = exec j (repeatState s is g f x) := by
  have he : fetchInstr s g f.clause f.word g.reps.lit = ((fetchInstr s g f.clause f.word g.reps.lit).1, .ok (w, x)) :=
    Prod.ext rfl hfetch
  rw [← (runWord_issues (encode_ne_nil_of_decode hstep) _).1]
  show execRepRepeat s = _
  unfold execRepRepeat
  simp only [h.who, h.group, h.frag]
  rw [he]
  simp only [hrep, hstep, Option.bind_some, repeatState]

end

/-! ### The stepped forms of two words (R124) -/

/-- One stepped register field. -/
theorem stepField_add (lo : Nat) (r : VReg) (bit : Bool) (j : Nat) :
    StepField.add (vField lo r 1) bit j = (if bit then j else 0) * 2 ^ lo := by
  cases bit <;> simp [StepField.add, vField]

/-- A register n registers on. -/
def stepReg (r : VReg) (n : Nat) : VReg := BitVec.ofNat 6 (r.toNat + n)

theorem toNat_stepReg {r : VReg} {n : Nat} (h : r.toNat + n < 64) : (stepReg r n).toNat = r.toNat + n := by
  simp [stepReg, Nat.mod_eq_of_lt h]

theorem stepWord_movi (d : VReg) (imm : BitVec 12) (w j : Nat) :
    stepWord (.movi d imm) w j true false false = w + j * 2 ^ 18 := by
  show w + StepField.add (vField 18 d 1) true j + 0 + 0 = _
  rw [stepField_add]
  rfl

theorem stepWord_iadd (k : SatKind) (d a b : VReg) (gd : Guard) (w j : Nat) (sd sa sb : Bool) :
    stepWord (.iadd k d a b gd) w j sd sa sb =
      w + (if sd then j else 0) * 2 ^ 18 + (if sa then j else 0) * 2 ^ 12 + (if sb then j else 0) * 2 ^ 6 := by
  show w + StepField.add (vField 18 d 1) sd j + StepField.add (vField 12 a 1) sa j + StepField.add (vField 6 b 1) sb j = _
  rw [stepField_add, stepField_add, stepField_add]

theorem decode_stepWord_movi {d : VReg} {imm : BitVec 12} {j : Nat} (h : d.toNat + j < 64) :
    decode (stepWord (.movi d imm) (fmtI 0x1A d.toNat 0 imm.toNat) j true false false) 0 = some (.movi (stepReg d j) imm) := by
  refine decode_of_encode (i := .movi (stepReg d j) imm) ?_ rfl
  show [fmtI 0x1A (stepReg d j).toNat 0 imm.toNat] = _
  rw [stepWord_movi, toNat_stepReg h, fmtI, fmtI, List.singleton_inj]
  omega

theorem decode_stepWord_iadd {d a b : VReg} {gd : Guard} {j : Nat} {sd sa sb : Bool}
    (hd : d.toNat + (if sd then j else 0) < 64) (ha : a.toNat + (if sa then j else 0) < 64) (hb : b.toNat + (if sb then j else 0) < 64) :
    decode (stepWord (.iadd .wrap d a b gd) (fmtT 0x01 d.toNat a.toNat b.toNat gd (codeOf satKinds .wrap)) j sd sa sb) 0 =
      some (.iadd .wrap (stepReg d (if sd then j else 0)) (stepReg a (if sa then j else 0)) (stepReg b (if sb then j else 0)) gd) := by
  refine decode_of_encode (i := .iadd .wrap (stepReg d _) (stepReg a _) (stepReg b _) gd) ?_ rfl
  show [fmtT 0x01 (stepReg d _).toNat (stepReg a _).toNat (stepReg b _).toNat gd (codeOf satKinds .wrap)] = _
  rw [stepWord_iadd, toNat_stepReg hd, toNat_stepReg ha, toNat_stepReg hb, fmtT, fmtT, List.singleton_inj]
  omega

/-- A result without conditions raises none (R96). -/
theorem enabled_none (m : BitVec 5) : Conds.none.enabled m = 0 := by
  simp [Conds.enabled, Conds.bits, Conds.none, b2n]

theorem val_into (d : VReg) (w : Word) (own : Bool) (t : Thread) : (TRes.val d w).into own t = t.setV d.toNat w := by
  cases own <;> rfl

/-- Wrapping addition of the signed values is addition modulo 2^32 (R97). -/
theorem satOp_wrap_add (x y : Word) : satOp .wrap (fun x y _ => x + y) x y 0 = x + y := by
  show BitVec.ofInt 32 (x.toInt + y.toInt) = x + y
  rw [BitVec.ofInt_add, BitVec.ofInt_toInt, BitVec.ofInt_toInt]

/-- What a thread word that writes one register of each slot leaves: the values V, and all else as before (R93). -/
def WritesOne (is : Issuer) (g : Group) (run : Nat → Bool) (d : Nat) (V : Nat → Word) (o : Outcome) : Prop :=
  ∃ t g', o = .next (advance t is 1) ∧ t.group? is.gid = some g' ∧
    (∀ slot, slot < 16 → g'.thread slot = if run slot then (g.thread slot).setV d (V slot) else g.thread slot) ∧
    { g' with threads := g.threads } = g

section
variable {s : State} {is : Issuer} {g : Group} {f : Frag}

/-- A word with the result V of the slot that is read writes it to each slot that runs. -/
theorem writesOne_threadWord (hi : Issues s is g f) {gd : Guard} {reads : List Nat} {d : VReg}
    (hr : Ready g f gd reads [d.toNat]) (V : Thread → Word) :
    WritesOne is g (runsIn g f gd) d.toNat (fun slot => V (g.thread (source f slot)))
      (issue s true fun x => threadWord x gd 1 reads [d.toNat] fun _ _ t => .val d (V t)) := by
  obtain ⟨t, g', ht, hg', hthreads, hframe, -⟩ :=
    threadWord_ready hi.group hr 1 (fun _ _ t => .val d (V t)) fun _ _ _ _ _ => enabled_none _
  refine ⟨t, g', (issue_inWave hi _).trans (congrArg _ ht), hg', fun slot h => ?_, hframe⟩
  rw [hthreads slot h, val_into]

theorem writesOne_movi (hi : Issues s is g f) {d : VReg} (imm : BitVec 12)
    (hbusy : ∀ slot, slot < 16 → f.mask.getLsbD slot = true → g.vbusy slot d.toNat = false) :
    WritesOne is g f.mask.getLsbD d.toNat (fun _ => imm.signExtend 32) (exec (.movi d imm) s) := by
  have hr : Ready g f .all [] [d.toNat] := ⟨nofun, fun slot h hrun n hn => by
    rw [List.mem_singleton.1 hn]
    exact hbusy slot h ((runsIn_seven g f slot).symm.trans hrun)⟩
  rw [← funext (runsIn_seven g f)]
  exact writesOne_threadWord hi hr fun _ => simm imm

theorem writesOne_iadd (hi : Issues s is g f) {d a b : VReg} {gd : Guard} (hr : Ready g f gd [a.toNat, b.toNat] [d.toNat]) :
    WritesOne is g (runsIn g f gd) d.toNat
      (fun slot => (g.thread (source f slot)).v a.toNat + (g.thread (source f slot)).v b.toNat) (exec (.iadd .wrap d a b gd) s) := by
  simp only [← satOp_wrap_add]
  exact writesOne_threadWord hi hr fun t => satOp .wrap (fun x y _ => x + y) (t.v a.toNat) (t.v b.toNat) 0

end

theorem repeatRunsSteppedWord : Claims.RepeatRunsSteppedWord := by
  intro s is g f w x i j hi hw hfetch hrep hstep g1
  have hexec := exec_repRepeat hi hfetch hrep hstep
  have hi1 : Issues (repeatState s is g f x) is g1 f := repeatState_issues hi x
  have hhead := headD_of_decodeRep hrep
  have hx (hop : w.toNat / 2 ^ 24 = 0x1A ∨ w.toNat / 2 ^ 24 = 0x01) : x = 0 :=
    fetchInstr_literal hfetch (by rcases hop with h | h <;> rw [h] <;> rfl)
  refine ⟨?_, ?_, ?_⟩
  · obtain ⟨t, ht⟩ := exec_next_of_issues hi1 hw (encode_ne_nil_of_decode hstep)
    exact ⟨t, _, hexec.trans ht, ht, hi1, fun n hn => repeatState_group_other s is g f x hn⟩
  · rintro d imm rfl hsd hsa hsb hd hbusy
    have hword : fmtI 0x1A d.toNat 0 imm.toNat = w.toNat := hhead
    have hx0 := hx (.inl (by rw [← hword, fmtI]; omega))
    rw [hsd, hsa, hsb, ← hword, hx0] at hstep
    obtain rfl := Option.some.inj ((decode_stepWord_movi hd).symm.trans hstep)
    rw [hexec, ← toNat_stepReg hd]
    exact writesOne_movi hi1 imm (by rwa [toNat_stepReg hd])
  · rintro d a b gd rfl n d' a' b' hd ha hb hready
    have hword : fmtT 0x01 d.toNat a.toNat b.toNat gd (codeOf satKinds .wrap) = w.toNat := hhead
    have hk : codeOf satKinds .wrap < 4 := by decide
    have hx0 := hx (.inr (by
      rw [← hword, opcode_eq, fmtT_hi _ _ _ _ _ _ d.isLt a.isLt b.isLt hk, fmtT_lo _ _ _ _ _ _ d.isLt a.isLt b.isLt hk]))
    rw [← hword, hx0] at hstep
    obtain rfl := Option.some.inj ((decode_stepWord_iadd hd ha hb).symm.trans hstep)
    let inc (bit : Bool) : Nat := if bit then g.reps.index else 0
    have h := writesOne_iadd hi1 (d := stepReg d (inc g.reps.stepd)) (a := stepReg a (inc g.reps.stepa))
      (b := stepReg b (inc g.reps.stepb)) (gd := gd)
    rw [toNat_stepReg hd, toNat_stepReg ha, toNat_stepReg hb] at h
    rw [hexec]
    exact h ⟨hready.sources, hready.results⟩

/-- Settles O21: REP passes to the word after it, and a repeat is that word's stepped form. -/
theorem repeatWords : Obligations.RepeatWords := ⟨repWord, repRefuses, repeatRunsSteppedWord, repeatChecks⟩

end Sys2Proof.Machine

namespace Sys2Proof.Machine

open Sys2Proof.Safety

/-! ### The fields of a clause header (R37) -/

theorem bitOf_toNat {n : Nat} (x : BitVec n) (i : Nat) : bitOf x.toNat i = x.getLsbD i := by
  rw [BitVec.getLsbD, Nat.testBit_eq_decide_div_mod_eq]
  rfl

theorem headerBar_def (h : Word) : BitVec.ofNat 5 (h.toNat / 2 ^ 15) = headerBar h := rfl

theorem headerBar_eq (h : Word) : headerBar h = (h >>> 15).setWidth 5 := by
  apply BitVec.eq_of_toNat_eq
  simp [headerBar, Nat.shiftRight_eq_div_pow]

/-! ### The waits of a clause header (R38, R150) -/

theorem pwaitMet_iff (g : Group) (h : Word) : g.pwaitMet h = true ↔ ∀ p, p < 8 → h.getLsbD (7 + p) = true → g.path p = 0 := by
  simp only [Group.pwaitMet, List.all_eq_true, mem_upTo, bitOf_toNat, Bool.or_eq_true, Bool.not_eq_true', beq_iff_eq,
    ← Bool.not_eq_true, ← imp_iff_not_or]

section
variable {s : State} {g : Group} {tm : Team} {h : Word}

/-- A header without BWAIT waits for path counters alone. -/
theorem headerWait_of_noBar (hb : h.getLsbD 20 = false) : headerWait s g h = if g.pwaitMet h then .met else .unmet := by
  simp only [headerWait, bitOf_toNat, hb, Bool.false_eq_true, if_false]

/-- A header with BWAIT whose barrier is broken (R38). -/
theorem headerWait_of_broken (hb : h.getLsbD 20 = true) (ht : s.team? g.tid = some tm)
    (hbar : (tm.bar (headerBar h).toNat).broken = true) : headerWait s g h = .broken := by
  have hw : barWait tm g (headerBar h) = .broken := by simp [barWait, hbar]
  simp only [headerWait, bitOf_toNat, hb, if_true, ht, headerBar_def, hw]

/-- A header with BWAIT whose barrier has changed phase waits for path counters alone. -/
theorem headerWait_of_phase_ne (hb : h.getLsbD 20 = true) (ht : s.team? g.tid = some tm)
    (hbar : (tm.bar (headerBar h).toNat).broken = false)
    (hp : (tm.bar (headerBar h).toNat).phase ≠ g.seen.getLsbD (headerBar h).toNat) :
    headerWait s g h = if g.pwaitMet h then .met else .unmet := by
  have hw : barWait tm g (headerBar h) = .met := by simp [barWait, hbar, hp]
  simp only [headerWait, bitOf_toNat, hb, if_true, ht, headerBar_def, hw]

/-- A header with BWAIT waits while its barrier has not changed phase. -/
theorem headerWait_of_phase_eq (hb : h.getLsbD 20 = true) (ht : s.team? g.tid = some tm)
    (hbar : (tm.bar (headerBar h).toNat).broken = false)
    (hp : (tm.bar (headerBar h).toNat).phase = g.seen.getLsbD (headerBar h).toNat) : headerWait s g h = .unmet := by
  have hw : barWait tm g (headerBar h) = .unmet := by simp [barWait, hbar, hp]
  simp only [headerWait, bitOf_toNat, hb, if_true, ht, headerBar_def, hw]

end

/-- Header waits that are met: the group has seen the phase of the barrier, and the fragment is in its clause (R38, R150). -/
theorem enterClause_of_met {s : State} {is : Issuer} {g : Group} {h : Word} (hg : s.group? is.gid = some g)
    (hmet : headerWait s g h = .met) :
    Becomes s (enterClause s is g h) is.gid
      ((if h.getLsbD 20 then g.see (headerBar h) else g).modFrag is.entry fun f =>
        { f with hdr := some h, st := .ready, wait := none }) := by
  have hsee := becomes_modGroup (F := fun g => if h.getLsbD 20 then g.see (headerBar h) else g) hg fun x => by
    split <;> rfl
  have hin := becomes_modGroup (F := fun g => g.modFrag is.entry fun f => { f with hdr := some h, st := .ready, wait := none })
    hsee.1 fun _ => rfl
  simp only [enterClause, hmet, inClause, bitOf_toNat]
  exact ⟨hin.1, onlyGroup_trans hsee.2 hin.2⟩

/-- CLAUSE_START after its fetches: the checks of R45, and then the waits. -/
theorem exec_clauseStart {s u w : State} {is : Issuer} {g : Group} {f : Frag} {h : Word} {body : List Word} (hi : Issues s is g f)
    (hw : g.wave = none) (hh : fetchWord s g f.clause.toNat = (u, .ok h))
    (hb : fetchBody u g f.clause (h.toNat % 16) = (w, .ok body)) :
    exec .clauseStart s = .next (if clauseFault h body ≠ 0 then takeTrap w is 1 ⟨clauseFault h body, 0, 0⟩
      else enterClause (if h.getLsbD 12 then drainGroup w g else w) is g h) := by
  have hcount : bitsOf h.toNat 0 4 = h.toNat % 16 := by simp [bitsOf]
  show execClauseStart s = _
  simp only [execClauseStart, issue_of_issues hi hw, hh, hcount, hb, hw, bitOf_toNat, bne_iff_ne]

theorem clauseEntry : Claims.ClauseEntry := by
  intro s u w v is g f tm h body hi hw hh hb
  have hexec := exec_clauseStart hi hw hh hb
  refine ⟨fun hbad => by rw [hexec, if_pos hbad], fun hok hv hg ht => ?_⟩
  rw [if_neg (not_not.2 hok), ← hv] at hexec
  intro paths b bar
  have hbar : tm.bar (headerBar h).toNat = bar := by rw [headerBar_eq]; rfl
  have hpaths : g.pwaitMet h = true ↔ paths := pwaitMet_iff g h
  refine ⟨fun hp h20 => ?_, fun hp h20 hnb hph => ?_, fun h20 hbr => ?_, fun hun => ?_⟩
  · have hmet : headerWait v g h = .met := by rw [headerWait_of_noBar h20, if_pos (hpaths.2 hp)]
    have he := enterClause_of_met hg hmet
    rw [h20] at he
    exact ⟨_, hexec, he⟩
  · have hmet : headerWait v g h = .met := by
      rw [headerWait_of_phase_ne h20 ht (hbar ▸ hnb) (by rwa [hbar, headerBar_eq])]
      exact if_pos (hpaths.2 hp)
    have he := enterClause_of_met hg hmet
    rw [h20, if_pos rfl, headerBar_eq] at he
    exact ⟨_, hexec, he⟩
  · have hbroken : headerWait v g h = .broken := headerWait_of_broken h20 ht (hbar ▸ hbr)
    rw [hexec]
    simp only [enterClause, hbroken, headerBar_eq, barD, tinfoOf]
    simp [b]
  · have hunmet : headerWait v g h = .unmet := by
      rcases hun with ⟨hp, hnb⟩ | ⟨h20, hnb, hph⟩
      · have hp' : ¬g.pwaitMet h = true := fun h => hp (hpaths.1 h)
        cases h20 : h.getLsbD 20 with
        | false => rw [headerWait_of_noBar h20, if_neg hp']
        | true =>
          have hnb := hbar ▸ hnb h20
          by_cases hph : (tm.bar (headerBar h).toNat).phase = g.seen.getLsbD (headerBar h).toNat
          · exact headerWait_of_phase_eq h20 ht hnb hph
          · rw [headerWait_of_phase_ne h20 ht hnb hph, if_neg hp']
      · exact headerWait_of_phase_eq h20 ht (hbar ▸ hnb) (by rwa [hbar, headerBar_eq])
    rw [hexec]
    simp only [enterClause, hunmet]

/-! ### The checks of a clause header (R45) -/

/-- The four checks that the header alone decides, and then the four of the body. -/
theorem clauseFault_eq (h : Word) (body : List Word) :
    ∃ r, (r = 0 ∨ 5 ≤ r ∧ r ≤ 8) ∧ clauseFault h body =
      if h.toNat % 16 = 0 then 1
      else if h.toNat / 2 ^ 23 ≠ 0 then 2
      else if h.getLsbD 20 = false ∧ h.toNat / 2 ^ 15 % 32 ≠ 0 then 3
      else if h.getLsbD 22 = true ∧ (h.toNat / 2 ^ 4 % 8 = 3 ∨ h.toNat / 2 ^ 4 % 8 = 4 ∨ h.toNat / 2 ^ 4 % 8 = 6) then 4
      else r := by
  have hres : bitsOf h.toNat 23 9 = h.toNat / 2 ^ 23 := by have := h.isLt; unfold bitsOf; omega
  have hcount : bitsOf h.toNat 0 4 = h.toNat % 16 := by simp [bitsOf]
  have hcls : bitsOf h.toNat 4 3 = h.toNat / 2 ^ 4 % 8 := rfl
  have hbar : bitsOf h.toNat 15 5 = h.toNat / 2 ^ 15 % 32 := rfl
  simp only [clauseFault, hcount, hres, hcls, hbar, bitOf_toNat, beq_iff_eq, bne_iff_ne, Bool.and_eq_true, Bool.not_eq_true',
    Bool.or_eq_true, or_assoc]
  refine ⟨_, ?_, rfl⟩
  split
  · exact .inr ⟨by decide, by decide⟩
  split
  · exact .inr ⟨by decide, by decide⟩
  split
  · exact .inr ⟨by decide, by decide⟩
  split
  · exact .inr ⟨by decide, by decide⟩
  · exact .inl rfl

theorem clauseHeaderChecks : Claims.ClauseHeaderChecks := by
  intro h body cls c1 c2 c3 c4
  obtain ⟨r, hr, heq⟩ := clauseFault_eq h body
  have hr' : r ≠ 1 ∧ r ≠ 2 ∧ r ≠ 3 ∧ r ≠ 4 ∧ r ≤ 8 := by omega
  rw [heq]
  by_cases h1 : c1
  · rw [if_pos h1]; simp [h1]
  rw [if_neg h1]
  by_cases h2 : c2
  · rw [if_pos h2]; simp [h1, h2]
  rw [if_neg h2]
  by_cases h3 : c3
  · rw [if_pos h3]; simp [h1, h2, h3]
  rw [if_neg h3]
  by_cases h4 : c4
  · rw [if_pos h4]; simp [h1, h2, h3, h4]
  rw [if_neg h4]
  simp [h1, h2, h3, h4, hr']

/-- Settles O22: after its fetches a clause is checked, and its waits are those of the header alone. -/
theorem clauseStart : Obligations.ClauseStart := ⟨clauseEntry, clauseHeaderChecks⟩

end Sys2Proof.Machine

namespace Sys2Proof.Machine

open Sys2Proof.Safety

/-! ### Bytes when packages change (R222) -/

/-- What of a package holds bytes: HBM, its window, the tier as written and as stored, and its cached lines. -/
def Pkg.memories (p : Pkg) : Ram × Ram × Ram × Ram × List CLine :=
  (p.hbm, p.window, p.tier.view, p.tier.store, p.cache)

/-- Every package holds the memories that it held. -/
def SamePkgMemories (s t : State) : Prop := ∀ r, (t.pkg? r).map Pkg.memories = (s.pkg? r).map Pkg.memories

theorem samePkgMemories_modPkg (s : State) (r : Nat) {F : Pkg → Pkg} (hr : ∀ p, (F p).rank = p.rank)
    (hm : ∀ p, (F p).memories = p.memories) : SamePkgMemories s (s.modPkg r F) := s.map_pkg_modPkg r hr hm

/-- Every byte is as before when host memory, the memories of the packages and of the teams, and the spill buffers are. -/
theorem sameBytes_of_pkgMemories {s t : State} (hh : t.host = s.host) (hp : SamePkgMemories s t) (ht : t.teams = s.teams)
    (hs : t.segs = s.segs) (hc : ∀ c, (t.core c).spill = (s.core c).spill) : SameBytes s t := by
  have hread {α : Type} (r : Nat) (F : Ram × Ram × Ram × Ram × List CLine → α) :
      (t.pkg? r).map (fun p => F p.memories) = (s.pkg? r).map fun p => F p.memories := by
    simpa only [Option.map_map, Function.comp_def] using congrArg (Option.map F) (hp r)
  intro p
  cases p with
  | hbm r a => exact hread r fun m => m.1.bytes.read a
  | window r a => exact hread r fun m => m.2.1.bytes.read a
  | tier r a => exact hread r fun m => m.2.2.1.bytes.read a
  | stored r a => exact hread r fun m => m.2.2.2.1.bytes.read a
  | cached r ctx va =>
    have hbind (o : Option Pkg) : (o.bind fun p => p.cached ctx va) = (o.map fun p => p.cached ctx va).join := by cases o <;> rfl
    have h := hread r fun m => m.2.2.2.2.find? fun c => c.ctx == ctx && c.va == lineBase va
    simp only [byteAt, hbind]
    exact congrArg (fun o => (Option.join o).map fun c : CLine => c.bytes.getD (va % 256) 0) h
  | _ => simp [byteAt, State.team?, hh, ht, hs, hc]

/-! ### A combiner method's budget (R301) -/

/-- A word outside waves spends nothing. -/
theorem spendBudget_of_noWave (s : State) {g : Group} (hw : g.wave = none) : spendBudget s g = s := by
  simp only [spendBudget, hw]

/-- What a word spends of a method's budget changes no byte and no other group. -/
theorem spendBudget_frame (s : State) (g : Group) :
    (∀ n, n ≠ g.gid → (spendBudget s g).group? n = s.group? n) ∧ SameBytes s (spendBudget s g) := by
  have hgroup (n : Nat) (hn : n ≠ g.gid) : (s.modGroup g.gid fun g => { g with budget := g.budget + 1 }).group? n = s.group? n :=
    State.group_modGroup_other (fun _ => rfl) hn
  unfold spendBudget
  split
  · exact ⟨fun _ _ => rfl, fun _ => rfl⟩
  · dsimp only
    split
    next sl _ _ =>
      refine ⟨fun n hn => by simpa [waveFault] using hgroup n hn, sameBytes_of_pkgMemories rfl ?_ rfl rfl fun _ => rfl⟩
      exact samePkgMemories_modPkg _ sl.rank (fun _ => rfl) fun _ => rfl
    · exact ⟨hgroup, (onlyGroup_modGroup s g.gid (F := fun g => { g with budget := g.budget + 1 }) fun _ => rfl).bytes⟩

/-! ### What SRW writes leave as it was (R32, R418) -/

/-- A group without what SRW writes, queued or made, can change. -/
def Group.lessSys (g : Group) : Group :=
  { g with nbv := 0, srwq := [], timer := 0, deadline := 0, arithen := 0, rseq := 0, rstpt := 0, rstseq := 0, trap := TrapState.zero }

theorem Group.lessSys_writeSys (g : Group) (i : Nat) (x : DWord) : (g.writeSys i x).lessSys = g.lessSys := by
  unfold Group.writeSys
  split
  · split <;> rfl
  all_goals rfl

theorem Group.lessSys_flushSrw (g : Group) (e : Nat) : (g.flushSrw e).lessSys = g.lessSys := by
  have hfold (l : List SrwPend) (h : Group) : (l.foldl (fun g w => g.writeSys w.index w.value) h).lessSys = h.lessSys := by
    induction l generalizing h with
    | nil => rfl
    | cons w l ih => exact (ih _).trans (h.lessSys_writeSys w.index w.value)
  exact hfold _ _

theorem Group.lessSys_parkSrw (g : Group) (e : Nat) (f : Frag) : (g.parkSrw e f).lessSys = g.lessSys := by
  unfold Group.parkSrw
  split
  · rfl
  · exact g.lessSys_flushSrw e

theorem Group.lessSys_unparkSrw (g : Group) (made : List Nat) : (g.unparkSrw made).lessSys = g.lessSys := by
  cases made with
  | nil => exact g.lessSys_flushSrw 8
  | cons => rfl

/-- The fields of a group that SRW writes leave as they were. -/
structure SysOnly (g h : Group) : Prop where
  gid : h.gid = g.gid
  threads : h.threads = g.threads
  k : h.k = g.k
  q : h.q = g.q
  t : h.t = g.t
  exited : h.exited = g.exited
  frags : h.frags = g.frags
  recs : h.recs = g.recs
  spilled : h.spilled = g.spilled
  jmask : h.jmask = g.jmask

theorem sysOnly_of_lessSys {g h : Group} (e : h.lessSys = g.lessSys) : SysOnly g h :=
  ⟨(congrArg Group.gid e :), (congrArg Group.threads e :), (congrArg Group.k e :), (congrArg Group.q e :), (congrArg Group.t e :),
    (congrArg Group.exited e :), (congrArg Group.frags e :), (congrArg Group.recs e :), (congrArg Group.spilled e :),
    (congrArg Group.jmask e :)⟩

theorem Group.parkSrw_sysOnly (g : Group) (e : Nat) (f : Frag) : SysOnly g (g.parkSrw e f) :=
  sysOnly_of_lessSys (g.lessSys_parkSrw e f)

theorem Group.unparkSrw_sysOnly (g : Group) (made : List Nat) : SysOnly g (g.unparkSrw made) :=
  sysOnly_of_lessSys (g.lessSys_unparkSrw made)

/-! ### Groups with nothing to fuse and nothing to reload (R136 to R141) -/

/-- Whether a record is complete rests on the records and on EXITED alone. -/
theorem Group.completeRec_congr {g h : Group} (hr : h.recs = g.recs) (he : h.exited = g.exited) : h.completeRec = g.completeRec := by
  have hrec (i : Nat) : h.rec? i = g.rec? i := by rw [Group.rec?, hr, Group.rec?]
  have hdepth (n i : Nat) : h.recDepth n i = g.recDepth n i := by
    induction n generalizing i with
    | zero => rfl
    | succ n ih => simp only [Group.recDepth, hrec, ih]
  have hcomplete (r : RRec) : h.complete r = g.complete r := by rw [Group.complete, he, Group.complete]
  simp only [Group.completeRec, hrec, hdepth, hcomplete]

section
variable {s : State} {gid : Nat} {g : Group}

theorem fuse_of_noneComplete (hg : s.group? gid = some g) (hc : g.completeRec = none) (n : Nat) : fuse s gid n = s := by
  cases n with
  | zero => rfl
  | succ n => simp only [fuse, hg, hc]

theorem reload_of_noneSpilled (hg : s.group? gid = some g) (hs : g.spilled = []) (n : Nat) : reload s gid n = s := by
  cases n with
  | zero => rfl
  | succ n => cases hf : g.freeEntry <;> simp only [reload, hg, hs, hf]

/-- No JOIN completes while the join register is empty or a slot neither is parked nor has exited (R138). -/
theorem joinComplete_of_open (hg : s.group? gid = some g) (h : g.jmask = 0 ∨ g.jmask ||| g.exited ≠ 0xFFFF) :
    joinComplete s gid = s := by
  simp only [joinComplete, hg]
  refine if_pos ?_
  simp only [Bool.or_eq_true, beq_iff_eq, bne_iff_ne]
  exact .inl h

end

/-! ### JOIN (R118, R138) -/

/-- The address of a fragment's word, that of its JOIN (R36, R138). -/
def Frag.wordAddr (f : Frag) : DWord := BitVec.ofNat 64 (bitsOf (wordVa f.clause f.word) 0 57)

theorem Frag.wordAddr_eq (f : Frag) : f.wordAddr = BitVec.ofNat 64 (wordVa f.clause f.word % 2 ^ 57) := by
  rw [Frag.wordAddr, bitsOf, Nat.pow_zero, Nat.div_one]

/-- A group whose fragment leaves entry e for the join register. -/
def Group.park (g : Group) (e : Nat) (a : DWord) (m : Mask) (pc : JoinPc) : Group :=
  { g.setFrag e none with jaddr := a, jmask := m, jpc := pc }

/-- The group after its fragment f, in entry e, has parked at its JOIN. -/
def Group.parked (g : Group) (e : Nat) (f : Frag) : Group := (g.parkSrw e f).park e f.wordAddr (g.jmask ||| f.mask) f.after

theorem Group.completeRec_park (g : Group) (e : Nat) (a : DWord) (m : Mask) (pc : JoinPc) :
    (g.park e a m pc).completeRec = g.completeRec := Group.completeRec_congr rfl rfl

theorem Group.parked_gid (g : Group) (e : Nat) (f : Frag) : (g.parked e f).gid = g.gid := (g.parkSrw_sysOnly e f).gid

theorem Group.parked_completeRec (g : Group) (e : Nat) (f : Frag) : (g.parked e f).completeRec = g.completeRec :=
  (Group.completeRec_park _ _ _ _ _).trans (Group.completeRec_congr (g.parkSrw_sysOnly e f).recs (g.parkSrw_sysOnly e f).exited)

section
variable {s : State} {is : Issuer} {g : Group} {f : Frag}

theorem exec_join_waits (hi : Issues s is g f) (hm : g.jmask ≠ 0) (hne : g.jaddr ≠ f.wordAddr) :
    exec .join s = .next (s.modGroup is.gid fun g => g.modFrag is.entry fun f => { f with st := .joinwait }) := by
  show execJoin s = _
  rw [execJoin, issue_inWave hi]
  refine congrArg _ (if_pos ?_)
  simp only [Bool.and_eq_true, bne_iff_ne]
  exact ⟨hm, hne⟩

theorem exec_join_parks (hi : Issues s is g f) (h : g.jmask = 0 ∨ g.jaddr = f.wordAddr) :
    exec .join s = .next (settle (spendBudget (s.modGroup is.gid fun g => g.parked is.entry f) g) is.gid) := by
  show execJoin s = _
  rw [execJoin, issue_inWave hi]
  refine congrArg _ (Eq.trans (if_neg ?_) rfl)
  simp only [Bool.and_eq_true, bne_iff_ne, not_and_or, not_not]
  exact h

end

theorem joinParks : Claims.JoinParks := by
  intro s is g f hi hw hrec hsp
  rw [← f.wordAddr_eq]
  intro a m
  refine ⟨fun hm hne => ⟨_, exec_join_waits hi hm hne, becomes_modGroup hi.group fun _ => rfl⟩, fun hj hopen => ?_⟩
  have hpark := becomes_modGroup (F := fun g => g.parked is.entry f) hi.group fun x => x.parked_gid _ _
  have hsys := g.parkSrw_sysOnly is.entry f
  have hopen' : m = 0 ∨ m ||| (g.parkSrw is.entry f).exited ≠ 0xFFFF := by rwa [hsys.exited]
  refine ⟨_, exec_join_parks hi hj, ?_⟩
  rw [spendBudget_of_noWave _ hw, settle, fuse_of_noneComplete hpark.1 ((g.parked_completeRec _ f).trans hrec),
    joinComplete_of_open hpark.1 hopen', reload_of_noneSpilled hpark.1 (hsys.spilled.trans hsp)]
  exact hpark

theorem afterJoin : Claims.AfterJoin := fun f =>
  ⟨fun h => by rw [Frag.after, if_pos h], fun h => by rw [Frag.after, if_neg (Nat.not_lt.2 h), Frag.nextClause]⟩

end Sys2Proof.Machine

namespace Sys2Proof.Machine

open Sys2Proof.Safety

/-! ### The fragments that go on after a JOIN (R138) -/

theorem perm_insertLe {α : Type} (le : α → α → Bool) (x : α) (l : List α) : (List.insertLe le x l).Perm (x :: l) := by
  induction l with
  | nil => exact .refl _
  | cons y l ih =>
    unfold List.insertLe
    split
    · exact .refl _
    · exact (ih.cons y).trans (.swap x y l)

theorem perm_sortLe {α : Type} (le : α → α → Bool) (l : List α) : (l.sortLe le).Perm l := by
  induction l with
  | nil => exact .refl _
  | cons x l ih => exact (perm_insertLe le x _).trans (ih.cons x)

/-- The fragment that goes on at `pc` with the slots of `m`. -/
def JoinPc.frag (pc : JoinPc) (m : Mask) : Frag := { Frag.at m pc.clause 31 with word := pc.word, hdr := pc.hdr }

/-- Fragments for the masks of a list in the entries from n on. -/
def Group.placeFrags (g : Group) (pc : JoinPc) : Nat → List Mask → Group
  | _, [] => g
  | n, m :: r => (g.setFrag n (some (pc.frag m))).placeFrags pc (n + 1) r

theorem Group.placeFrags_frame (g : Group) (pc : JoinPc) (n : Nat) (l : List Mask) :
    { g.placeFrags pc n l with frags := g.frags } = g := by
  induction l generalizing g n with
  | nil => rfl
  | cons m l ih => exact congrArg (fun h : Group => { h with frags := g.frags }) (ih (g.setFrag n (some (pc.frag m))) (n + 1))

/-- With the entries from n on free, each of them holds the fragment of its mask. -/
theorem Group.placeFrags_frag {g : Group} (pc : JoinPc) {n : Nat} {l : List Mask} (hfree : ∀ k, n ≤ k → g.frag k = none)
    (hlen : n + l.length ≤ 8) (k : Nat) :
    (g.placeFrags pc n l).frag k = if k < n then g.frag k else l[k - n]?.map pc.frag := by
  induction l generalizing g n with
  | nil =>
    split
    · rfl
    next h => exact hfree k (Nat.not_lt.1 h)
  | cons m l ih =>
    have hn : n < 8 := by simp at hlen; omega
    have hset := fun i => g.setFrag_frag i (some (pc.frag m)) hn
    rw [Group.placeFrags, ih (fun i hi => by rw [hset, if_neg (by omega), hfree i (by omega)]) (by simp at hlen; omega), hset]
    rcases Nat.lt_trichotomy k n with h | rfl | h
    · rw [if_pos (by omega), if_neg (by omega), if_pos h]
    · simp
    · rw [if_neg (by omega), if_neg (by omega), show k - n = k - (n + 1) + 1 by omega, List.getElem?_cons_succ]

/-- The lowest free entry, when the entries below it are taken. -/
theorem Group.freeEntry_eq {g : Group} {n : Nat} (hn : n < 8) (htaken : ∀ k, k < n → (g.frag k).isSome) (hfree : g.frag n = none) :
    g.freeEntry = some n := by
  have hget (k : Nat) (h : k < 8) : g.frag k = g.frags.toList[k]'(by simpa using h) := by simp [Group.frag, h]
  refine List.findIdx?_eq_some_iff_getElem.2 ⟨by simpa using hn, by rw [← hget n hn, hfree]; rfl, fun k hk => ?_⟩
  rw [← hget k (by omega)]
  simpa [Option.isSome_iff_ne_none] using htaken k hk

theorem takeEntry_of_free {s : State} {gid n : Nat} {g : Group} (keep : List Nat) (hg : s.group? gid = some g)
    (hfree : g.freeEntry = some n) : takeEntry s gid keep = (s, .ok n) := by
  simp only [takeEntry, hg, hfree]

/-- With free entries enough, no fragment is spilled. -/
theorem joinFrags_placed {gid : Nat} (pc : JoinPc) (l : List Mask) {s : State} {g : Group} {n : Nat} (made : List Nat)
    (hg : s.group? gid = some g) (htaken : ∀ k, k < n → (g.frag k).isSome) (hfree : ∀ k, n ≤ k → g.frag k = none)
    (hlen : n + l.length ≤ 8) :
    ∃ t made', joinFrags s gid pc l made = (t, made', none) ∧ Becomes s t gid (g.placeFrags pc n l) := by
  induction l generalizing s g n made with
  | nil => exact ⟨s, made, rfl, hg, onlyGroup_refl s gid⟩
  | cons m l ih =>
    have hn : n < 8 := by simp at hlen; omega
    have hset := fun i => g.setFrag_frag i (some (pc.frag m)) hn
    have hbec := becomes_modGroup (F := fun g => g.setFrag n (some (pc.frag m))) hg fun _ => rfl
    obtain ⟨t, made', hrun, ht⟩ := ih (n := n + 1) (made ++ [n]) hbec.1
      (fun k hk => by
        rw [hset]
        split
        · rfl
        · exact htaken k (by omega))
      (fun k hk => by rw [hset, if_neg (by omega), hfree k (by omega)]) (by simp at hlen; omega)
    refine ⟨t, made', ?_, ht.1, onlyGroup_trans hbec.2 ht.2⟩
    simp only [joinFrags, takeEntry_of_free [] hg (Group.freeEntry_eq hn htaken (hfree n (Nat.le_refl n)))]
    exact hrun

/-- The slots of a completed JOIN that go on (R138). -/
def Group.joined (g : Group) : Mask := g.jmask &&& ~~~g.exited

/-- The CDEPTHs among the slots that go on, in rising order. -/
def Group.joinDepths (g : Group) : List Nat := ((maskSlots g.joined).map fun x => (g.thread x).cdepth).dedup.sortLe (· ≤ ·)

/-- The slots of each fragment that goes on: those of one CDEPTH. -/
def Group.joinParts (g : Group) : List Mask :=
  g.joinDepths.map fun d => maskOf fun x => g.joined.getLsbD x && (g.thread x).cdepth == d

theorem Group.mem_joinDepths {g : Group} {d : Nat} :
    d ∈ g.joinDepths ↔ ∃ x, g.joined.getLsbD x = true ∧ (g.thread x).cdepth = d := by
  simp [Group.joinDepths, (perm_sortLe _ _).mem_iff]

/-- What the completion of a JOIN makes of its group, once the fragments stand in the entries `made`. -/
def Group.leaveJoin (g : Group) (made : List Nat) : Group :=
  { g.unparkSrw made with
    recs := Vector.replicate 16 none, jmask := 0
    frags := g.frags.map fun f => f.map fun f => if f.st == .joinwait then { f with st := .ready } else f }

theorem Group.leaveJoin_gid (g : Group) (made : List Nat) : (g.leaveJoin made).gid = g.gid := (g.unparkSrw_sysOnly made).gid

/-- A JOIN completes when every slot is parked or has exited and the split table is empty (R138). -/
theorem joinComplete_of_full {s : State} {gid : Nat} {g : Group} (hg : s.group? gid = some g) (hm : g.jmask ≠ 0)
    (hall : g.jmask ||| g.exited = 0xFFFF) (hfrags : ∀ k, g.frag k = none) (hlen : g.joinDepths.length ≤ 8) :
    ∃ made, Becomes s (joinComplete s gid) gid ((g.placeFrags g.jpc 0 g.joinParts).leaveJoin made) := by
  obtain ⟨t, made, hrun, ht⟩ := joinFrags_placed g.jpc g.joinParts [] hg (fun k hk => absurd hk (Nat.not_lt_zero k))
    (fun k _ => hfrags k) (by simpa [Group.joinParts] using hlen)
  have hleave := becomes_modGroup (F := fun g => g.leaveJoin made) ht.1 fun x => x.leaveJoin_gid made
  have hfree := Group.freeEntry_eq (g := g) (n := 0) (by decide) nofun (hfrags 0)
  have hcond : (g.jmask == 0 || (g.jmask ||| g.exited) != 0xFFFF || (g.freeEntry.isNone && g.trap.tpend.getLsbD 5)) = false := by
    simp only [hall, hfree, beq_eq_false_iff_ne.2 hm, bne_self_eq_false, Option.isNone_some, Bool.false_and, Bool.or_self]
  have heq : joinComplete s gid = t.modGroup gid fun g => g.leaveJoin made := by
    simp only [Group.joinParts, Group.joinDepths, Group.joined] at hrun
    simp only [joinComplete, hg, hcond, Bool.false_eq_true, if_false, hrun]
    rfl
  exact ⟨made, heq ▸ hleave.1, heq ▸ onlyGroup_trans ht.2 hleave.2⟩

end Sys2Proof.Machine

namespace Sys2Proof.Machine

open Sys2Proof.Safety

/-! ### The completion of a JOIN (R138) -/

theorem Group.thread_congr {g h : Group} (e : h.threads = g.threads) (i : Nat) : h.thread i = g.thread i := by
  rw [Group.thread, e, Group.thread]

/-- The group G is g after the fragment f, in entry e, has parked at its JOIN, SRW writes and the budget apart. -/
structure Parked (g : Group) (e : Nat) (f : Frag) (G : Group) : Prop where
  threads : G.threads = g.threads
  k : G.k = g.k
  q : G.q = g.q
  t : G.t = g.t
  exited : G.exited = g.exited
  recs : G.recs = g.recs
  spilled : G.spilled = g.spilled
  jmask : G.jmask = g.jmask ||| f.mask
  jpc : G.jpc = f.after
  frag : ∀ i, G.frag i = if i = e then none else g.frag i

theorem parked_of_sysOnly {g h : Group} (e : Nat) (f : Frag) (a : DWord) (b : Nat) (hs : SysOnly g h) (he : e < 8) :
    Parked g e f { h.park e a (g.jmask ||| f.mask) f.after with budget := b } :=
  ⟨hs.threads, hs.k, hs.q, hs.t, hs.exited, hs.recs, hs.spilled, rfl, rfl, fun i =>
    (h.setFrag_frag i none he).trans (by rw [Group.frag, hs.frags, Group.frag])⟩

section
variable {g : Group}

theorem Group.leaveJoin_rec (made : List Nat) (i : Nat) : (g.leaveJoin made).rec? i = none := by
  show ((Vector.replicate 16 (none : Option RRec))[i]?).join = none
  rw [Vector.getElem?_replicate]
  split <;> rfl

theorem Group.leaveJoin_frag (made : List Nat) (i : Nat) :
    (g.leaveJoin made).frag i = (g.frag i).map fun f => if f.st == .joinwait then { f with st := .ready } else f :=
  g.frag_map_frags (fun f => if f.st == .joinwait then { f with st := .ready } else f) i

/-- What the completion of a JOIN leaves of its group. -/
theorem Group.leaveJoin_keeps (pc : JoinPc) (l : List Mask) (made : List Nat) {h : Group}
    (hh : h = (g.placeFrags pc 0 l).leaveJoin made) :
    h.threads = g.threads ∧ h.k = g.k ∧ h.q = g.q ∧ h.t = g.t ∧ h.exited = g.exited ∧ h.spilled = g.spilled := by
  subst hh
  have hsys := (g.placeFrags pc 0 l).unparkSrw_sysOnly made
  have hframe := g.placeFrags_frame pc 0 l
  exact ⟨hsys.threads.trans (congrArg Group.threads hframe :), hsys.k.trans (congrArg Group.k hframe :),
    hsys.q.trans (congrArg Group.q hframe :), hsys.t.trans (congrArg Group.t hframe :),
    hsys.exited.trans (congrArg Group.exited hframe :), hsys.spilled.trans (congrArg Group.spilled hframe :)⟩

/-- The fragments after a JOIN that has completed with the split table empty: one for each CDEPTH, in the order of the entries. -/
theorem Group.joined_frag (hfrags : ∀ k, g.frag k = none) (hlen : g.joinDepths.length ≤ 8) (made : List Nat) (k : Nat) :
    ((g.placeFrags g.jpc 0 g.joinParts).leaveJoin made).frag k =
      g.joinDepths[k]?.map fun d => g.jpc.frag (maskOf fun x => g.joined.getLsbD x && (g.thread x).cdepth == d) := by
  rw [Group.leaveJoin_frag, Group.placeFrags_frag g.jpc (fun k _ => hfrags k) (by simpa [Group.joinParts] using hlen),
    if_neg (Nat.not_lt_zero k), Nat.sub_zero, Group.joinParts, List.getElem?_map, Option.map_map, Option.map_map]
  rfl

end

/-- A slot goes on after a JOIN when it is parked and has not exited. -/
theorem Group.getLsbD_joined (g : Group) (i : Nat) :
    g.joined.getLsbD i = (decide (i < 16) && g.jmask.getLsbD i && !g.exited.getLsbD i) := by
  rw [Group.joined, BitVec.getLsbD_and, BitVec.getLsbD_not]
  cases decide (i < 16) <;> simp

theorem Group.joinDepths_length (g : Group) (on : Nat → Bool) (hon : ∀ i, g.joined.getLsbD i = on i) :
    g.joinDepths.length = (((List.range 16).filter on).map fun x => (g.thread x).cdepth).dedup.length := by
  have hslots : maskSlots g.joined = (List.range 16).filter on := by
    rw [← funext hon]
    rfl
  rw [Group.joinDepths, (perm_sortLe _ _).length_eq, hslots]

theorem joinCompletes : Claims.JoinCompletes := by
  intro s is g f hi he hrec hsp
  rw [← f.wordAddr_eq]
  intro hj m on hall hm hothers hdepths
  have hgid := State.gid_of_group hi.group
  have hpark := becomes_modGroup (F := fun g => g.parked is.entry f) hi.group fun x => x.parked_gid _ _
  obtain ⟨b, hb⟩ := spendBudget_group (g := g) (hgid.symm ▸ hpark.1)
  have hspend := spendBudget_frame (s.modGroup is.gid fun g => g.parked is.entry f) g
  rw [hgid] at hb hspend
  have hp : Parked g is.entry f { g.parked is.entry f with budget := b } :=
    parked_of_sysOnly is.entry f f.wordAddr b (g.parkSrw_sysOnly is.entry f) he
  generalize { g.parked is.entry f with budget := b } = G at hb hp
  have hfrags (k : Nat) : G.frag k = none := by
    rw [hp.frag]
    split
    · rfl
    next h => exact hothers k h
  have hon (i : Nat) : G.joined.getLsbD i = on i := by
    rw [G.getLsbD_joined, hp.jmask, hp.exited]
  have hthread := Group.thread_congr hp.threads
  have hlen : G.joinDepths.length ≤ 8 := by
    rw [G.joinDepths_length on hon]
    simpa only [hthread] using hdepths
  obtain ⟨made, hjoin⟩ := joinComplete_of_full hb (by rwa [hp.jmask]) (by rwa [hp.jmask, hp.exited]) hfrags hlen
  obtain ⟨hthreads, hk, hq, ht, hexited, hsp'⟩ := G.leaveJoin_keeps G.jpc G.joinParts made rfl
  have hfrag := G.joined_frag hfrags hlen made
  have hspilled := hsp'.trans (hp.spilled.trans hsp)
  have hc : G.completeRec = none := (Group.completeRec_congr hp.recs hp.exited).trans hrec
  have hexec := exec_join_parks hi hj
  rw [settle, fuse_of_noneComplete hb hc, reload_of_noneSpilled hjoin.1 hspilled] at hexec
  refine ⟨_, _, hexec, hjoin.1, rfl, Group.leaveJoin_rec made, hthreads.trans hp.threads, hk.trans hp.k, hq.trans hp.q,
    ht.trans hp.t, hexited.trans hp.exited, hspilled, fun k h hk => ?_, fun slot hslot => ?_,
    fun n hn => ?_, ?_⟩
  · rw [hfrag] at hk
    obtain ⟨d, hd, rfl⟩ := Option.map_eq_some_iff.1 hk
    obtain ⟨x, hx, rfl⟩ := Group.mem_joinDepths.1 (List.mem_of_getElem? hd)
    exact ⟨x, hon x ▸ hx, by simp [JoinPc.frag, Frag.at, hx, BitVec.lt_of_getLsbD hx]⟩
  · obtain ⟨k, hk, hd⟩ := List.getElem_of_mem (Group.mem_joinDepths.2 ⟨slot, (hon slot).trans hslot, rfl⟩)
    refine ⟨k, _, hk.trans_le hlen, by rw [hfrag, List.getElem?_eq_getElem hk, hd]; rfl, fun y hy => ?_, ?_⟩
    · simp only [JoinPc.frag, Frag.at, getLsbD_maskOf, hy, decide_true, Bool.true_and, hon, hthread, Bool.and_eq_true, beq_iff_eq]
    · rw [hp.jpc]
      exact ⟨rfl, rfl, rfl, rfl, rfl, rfl⟩
  · rw [hjoin.2.groups n hn, hspend.1 n hn, hpark.2.groups n hn]
  · exact fun p => (hjoin.2.bytes p).trans ((hspend.2 p).trans (hpark.2.bytes p))

/-- Settles O26: a JOIN parks its fragment, and completes when the table is empty. -/
theorem joinWord : Obligations.JoinWord := ⟨joinParks, joinCompletes, afterJoin⟩

end Sys2Proof.Machine

namespace Sys2Proof.Machine

open Sys2Proof.Safety

/-! ### The checks of asynchronous words only read (R317) -/

/-- The check of an asynchronous word changes translations, caches and the device's copies of tables alone. -/
def OnlyReads (check : State → Group → Nat → QWord → QWord → QWord → DWord → State × Chk) : Prop :=
  ∀ s g die td ta tn param, ReadOnly s (check s g die td ta tn param).1

theorem readOnly_devRead (s : State) (rank die ctx va n : Nat) : ReadOnly s (devRead s rank die ctx va n).1 := by
  have h := readOnly_gRead s rank die ctx va n .read
  unfold devRead
  split <;> next e => rw [e] at h; exact h

theorem readOnly_loadGt (s : State) (rank die ctx e : Nat) : ReadOnly s (loadGt s rank die ctx e).1 := by
  unfold loadGt
  split
  · exact .refl s
  · have h := readOnly_devRead s rank die ctx (gtAddr s rank ctx e) 256
    dsimp only
    split
    next he => rw [he] at h; exact h
    next he => rw [he] at h; exact h
    next he => rw [he] at h; exact h.trans (readOnly_modPkg _ rank (fun _ => rfl) fun _ => rfl)

theorem readOnly_loadRw (s : State) (rank die ctx w : Nat) : ReadOnly s (loadRw s rank die ctx w).1 := by
  unfold loadRw
  split
  · exact .refl s
  · have h := readOnly_devRead s rank die ctx (rwAddr s rank ctx w) 64
    dsimp only
    split
    next he => rw [he] at h; exact h
    next he => rw [he] at h; exact h
    next he => rw [he] at h; exact h.trans (readOnly_modPkg _ rank (fun _ => rfl) fun _ => rfl)

theorem readOnly_withGt (s : State) (g : Group) (die : Nat) (param : DWord) {k : State → GtEntry → State × Chk}
    (hk : ∀ u e, (k u e).1 = u) : ReadOnly s (withGt s g die param k).1 := by
  have h := readOnly_loadGt s g.rank die g.ctx (bitsOf param.toNat 0 8)
  unfold withGt
  split
  next he => rw [he] at h; exact h
  next he => rw [he] at h; exact h
  next he =>
    rw [he] at h
    split
    · rw [hk]; exact h
    · exact h

/-- A check that reads no memory. -/
theorem onlyReads_of_pure {check : State → Group → Nat → QWord → QWord → QWord → DWord → State × Chk}
    (h : ∀ s g die td ta tn param, (check s g die td ta tn param).1 = s) : OnlyReads check :=
  fun s g die td ta tn param => (h s g die td ta tn param).symm ▸ .refl s

/-- A check of the parameter word, and then of its group-table entry. -/
theorem readOnly_paramGt (s : State) (g : Group) (die : Nat) (param : DWord) (c : Prop) [Decidable c] (sub : Nat)
    {k : State → GtEntry → State × Chk} (hk : ∀ u e, (k u e).1 = u) :
    ReadOnly s (if c then (s, Chk.bad sub) else withGt s g die param k).1 := by
  split
  · exact .refl s
  · exact readOnly_withGt s g die param hk

theorem onlyReads_collCheck (f : CollForm) : OnlyReads (collCheck f) := fun s g die _ _ _ param =>
  readOnly_paramGt s g die param _ _ fun _ _ => rfl
theorem onlyReads_rotOpenCheck (b : BReg) : OnlyReads (rotOpenCheck b) := fun s g die _ _ _ param =>
  readOnly_paramGt s g die param _ _ fun _ _ => rfl
theorem onlyReads_rotRunCheck : OnlyReads rotRunCheck := fun s g die _ _ _ param =>
  readOnly_paramGt s g die param _ _ fun _ _ => rfl
theorem onlyReads_rotCloseCheck : OnlyReads rotCloseCheck := fun s g die _ _ _ param =>
  readOnly_paramGt s g die param _ _ fun _ _ => rfl
theorem onlyReads_xchgCheck : OnlyReads xchgCheck := fun s g die _ _ _ param =>
  readOnly_paramGt s g die param _ _ fun _ _ => rfl

theorem onlyReads_rstoCheck : OnlyReads rstoCheck := by
  intro s g die td ta tn param
  have h := readOnly_loadRw s g.rank die g.ctx (bitsOf param.toNat 0 6)
  unfold rstoCheck
  dsimp only
  split
  · exact .refl s
  · split <;> next he => rw [he] at h; exact h

theorem onlyReads_snapCheck : OnlyReads snapCheck := by
  intro s g die td ta tn param
  have h := readOnly_loadGt s g.rank die g.ctx (bitsOf param.toNat 8 8)
  unfold snapCheck
  dsimp only
  split
  · exact .refl s
  · split <;> next he => rw [he] at h; exact h

/-! ### What an asynchronous word keeps of its own at issue (R375, R378, R380, R387) -/

/-- What a form prepares at issue: it fills its own fields of the operation, and changes no more of a package than STEP's arrival. -/
structure Prepares (init : State → Op → State × Op) : Prop where
  op : ∀ s o, ∃ st pass status results extra bound,
    (init s o).2 = { o with st := st, pass := pass, status := status, results := results, extra := extra, bound := bound }
  rest : ∀ s o, { (init s o).1 with pkgs := s.pkgs } = s
  memories : ∀ s o, SamePkgMemories s (init s o).1
  tables : ∀ s o r, ((init s o).1.pkg? r).map (·.gt) = (s.pkg? r).map (·.gt)

theorem prepares_of_pure {init : State → Op → State × Op} (h : ∀ s o, (init s o).1 = s)
    (hop : ∀ s o, ∃ st pass status results extra bound,
      (init s o).2 = { o with st := st, pass := pass, status := status, results := results, extra := extra, bound := bound }) :
    Prepares init :=
  ⟨hop, fun s o => by rw [h], fun s o _ => by rw [h], fun s o _ => by rw [h]⟩

theorem prepares_noInit : Prepares noInit := prepares_of_pure (fun _ _ => rfl) fun _ _ => ⟨_, _, _, _, _, _, rfl⟩

theorem prepares_xchgInit : Prepares xchgInit := prepares_of_pure (fun _ _ => rfl) fun _ _ => ⟨_, _, _, _, _, _, rfl⟩

theorem prepares_rstoInit : Prepares rstoInit := prepares_of_pure (fun _ _ => rfl) fun _ _ => ⟨_, _, _, _, _, _, rfl⟩

theorem prepares_rotOpenInit : Prepares rotOpenInit := by
  refine prepares_of_pure (fun s o => ?_) fun s o => ?_ <;> unfold rotOpenInit <;> dsimp only <;> split
  · rfl
  · split <;> rfl
  · exact ⟨_, _, _, _, _, _, rfl⟩
  · split <;> exact ⟨_, _, _, _, _, _, rfl⟩

theorem prepares_stepInit : Prepares stepInit where
  op _ _ := ⟨_, _, _, _, _, _, rfl⟩
  rest _ _ := rfl
  memories s o := samePkgMemories_modPkg s o.rank (fun _ => rfl) fun _ => rfl
  tables s o r := by refine State.map_pkg_modPkg s o.rank ?_ ?_ r <;> exact fun _ => rfl

/-- Each asynchronous word is posted with the check and the preparation of its form (R365). -/
theorem exec_engineWord {i : Instr} {form : OpForm} {td ta kn : XReg} {bar : Option BReg} {foe : Bool}
    {check : State → Group → Nat → QWord → QWord → QWord → DWord → State × Chk}
    (hi : engineOf i = some (form, td, ta, kn, bar, foe)) (hc : checkOf i = some check) :
    OnlyReads check ∧ ∃ init, Prepares init ∧ ∀ s, exec i s = engineWord s i form td ta kn bar foe check init := by
  cases i with
  | cpy f =>
    cases hi; cases hc
    exact ⟨onlyReads_of_pure fun _ _ _ _ _ _ _ => rfl, noInit, prepares_noInit, fun _ => rfl⟩
  | coll f =>
    cases hi; cases hc
    exact ⟨onlyReads_collCheck f, noInit, prepares_noInit, fun _ => rfl⟩
  | rotOpen td n b =>
    cases hi; cases hc
    exact ⟨onlyReads_rotOpenCheck b, rotOpenInit, prepares_rotOpenInit, fun _ => rfl⟩
  | rotRun =>
    cases hi; cases hc
    exact ⟨onlyReads_rotRunCheck, noInit, prepares_noInit, fun _ => rfl⟩
  | rotClose =>
    cases hi; cases hc
    exact ⟨onlyReads_rotCloseCheck, noInit, prepares_noInit, fun _ => rfl⟩
  | xchg =>
    cases hi; cases hc
    exact ⟨onlyReads_xchgCheck, xchgInit, prepares_xchgInit, fun _ => rfl⟩
  | rsto =>
    cases hi; cases hc
    exact ⟨onlyReads_rstoCheck, rstoInit, prepares_rstoInit, fun _ => rfl⟩
  | upd =>
    cases hi; cases hc
    exact ⟨onlyReads_of_pure fun _ _ _ _ _ _ _ => rfl, noInit, prepares_noInit, fun _ => rfl⟩
  | pairst =>
    cases hi; cases hc
    exact ⟨onlyReads_of_pure fun _ _ _ _ _ _ _ => rfl, noInit, prepares_noInit, fun _ => rfl⟩
  | place =>
    cases hi; cases hc
    exact ⟨onlyReads_of_pure fun _ _ _ _ _ _ _ => rfl, noInit, prepares_noInit, fun _ => rfl⟩
  | step =>
    cases hi; cases hc
    exact ⟨onlyReads_of_pure fun _ _ _ _ _ _ _ => rfl, stepInit, prepares_stepInit, fun _ => rfl⟩
  | snap =>
    cases hi; cases hc
    exact ⟨onlyReads_snapCheck, noInit, prepares_noInit, fun _ => rfl⟩
  | _ => cases hi

end Sys2Proof.Machine

namespace Sys2Proof.Machine

open Sys2Proof.Safety

/-! ### What the posting of an operation changes (R241, R317) -/

/-- Beyond the group `gid`, t is s but for the operations, the tables that packages hold, the fabric and the moves to come. -/
structure Posts (s t : State) (gid : Nat) : Prop where
  rest : { t with ops := s.ops, groups := s.groups, pkgs := s.pkgs, agenda := s.agenda, fresh := s.fresh, fab := s.fab } = s
  groups : ∀ n, n ≠ gid → t.group? n = s.group? n
  memories : SamePkgMemories s t

theorem Posts.trans {s t u : State} {gid : Nat} (h : Posts s t gid) (k : Posts t u gid) : Posts s u gid where
  rest := (congrArg (fun x : State =>
    { x with ops := s.ops, groups := s.groups, pkgs := s.pkgs, agenda := s.agenda, fresh := s.fresh, fab := s.fab }) k.rest).trans h.rest
  groups n hn := (k.groups n hn).trans (h.groups n hn)
  memories r := (k.memories r).trans (h.memories r)

/-- Posting changes no byte. -/
theorem Posts.bytes {s t : State} {gid : Nat} (h : Posts s t gid) : SameBytes s t :=
  sameBytes_of_pkgMemories (congrArg State.host h.rest :) h.memories (congrArg State.teams h.rest :) (congrArg State.segs h.rest :)
    fun c => (congrArg (fun x : State => (x.core c).spill) h.rest :)

/-- A change beyond groups and packages. -/
theorem posts_of_rest {s t : State} (gid : Nat)
    (h : { t with ops := s.ops, agenda := s.agenda, fresh := s.fresh, fab := s.fab } = s) : Posts s t gid where
  rest := (congrArg (fun x : State => { x with groups := s.groups, pkgs := s.pkgs }) h :)
  groups n _ := (congrArg (fun x : State => x.group? n) h :)
  memories r := (congrArg (fun x : State => (x.pkg? r).map Pkg.memories) h :)

theorem posts_modGroup (s : State) (gid : Nat) {F : Group → Group} (hF : ∀ x, (F x).gid = x.gid) :
    Posts s (s.modGroup gid F) gid where
  rest := rfl
  groups _ hn := State.group_modGroup_other hF hn
  memories _ := rfl

theorem posts_modPkg (s : State) (r gid : Nat) {F : Pkg → Pkg} (hr : ∀ p, (F p).rank = p.rank)
    (hm : ∀ p, (F p).memories = p.memories) : Posts s (s.modPkg r F) gid where
  rest := rfl
  groups _ _ := rfl
  memories := samePkgMemories_modPkg s r hr hm

/-! ### Notices (R317) -/

/-- Members are told of the operation `id`: its list of those told may grow, and packets may leave. -/
structure Tells (s t : State) (id : Nat) : Prop where
  rest : { t with ops := s.ops, agenda := s.agenda, fresh := s.fresh, fab := s.fab } = s
  agenda : ∀ m ∈ s.agenda, m ∈ t.agenda
  ops : ∃ F : Op → Op, t.ops = s.ops.map F ∧ ∀ x, (∃ l, F x = { x with told := l }) ∧ (x.id ≠ id → F x = x)

theorem Tells.refl (s : State) (id : Nat) : Tells s s id :=
  ⟨rfl, fun _ h => h, fun x => x, (List.map_id s.ops).symm, fun x => ⟨⟨x.told, rfl⟩, fun _ => rfl⟩⟩

theorem Tells.trans {s t u : State} {id : Nat} (h : Tells s t id) (k : Tells t u id) : Tells s u id where
  rest := (congrArg (fun x : State => { x with ops := s.ops, agenda := s.agenda, fresh := s.fresh, fab := s.fab }) k.rest).trans h.rest
  agenda m hm := k.agenda m (h.agenda m hm)
  ops := by
    obtain ⟨F, hF, hFx⟩ := h.ops
    obtain ⟨G, hG, hGx⟩ := k.ops
    refine ⟨fun x => G (F x), by rw [hG, hF, List.map_map]; rfl, fun x => ⟨?_, fun hx => ?_⟩⟩
    · obtain ⟨l, hl⟩ := (hFx x).1
      obtain ⟨l', hl'⟩ := (hGx (F x)).1
      exact ⟨l', by dsimp only; rw [hl', hl]⟩
    · dsimp only
      rw [(hFx x).2 hx, (hGx x).2 hx]

theorem tells_of_sameOps {s t : State} (id : Nat) (hops : t.ops = s.ops) (hagenda : ∀ m ∈ s.agenda, m ∈ t.agenda)
    (hrest : { t with ops := s.ops, agenda := s.agenda, fresh := s.fresh, fab := s.fab } = s) : Tells s t id :=
  ⟨hrest, hagenda, fun x => x, hops.trans (List.map_id s.ops).symm, fun x => ⟨⟨x.told, rfl⟩, fun _ => rfl⟩⟩

theorem tells_owe (s : State) (ms : List Move) (id : Nat) : Tells s (s.owe ms) id :=
  tells_of_sameOps id rfl (fun _ hm => List.mem_append_left _ hm) rfl

theorem tells_fab (s : State) (fab : Fabric) (fresh id : Nat) : Tells s { s with fab := fab, fresh := fresh } id :=
  tells_of_sameOps id rfl (fun _ hm => hm) rfl

theorem tells_enqueue (s : State) (n : NodeId) (i pk id : Nat) : Tells s (enqueue s n i pk) id := by
  have h (F : Node → Node) (G : Packet → Packet) : Tells s ((s.modNode n F).modPacket pk G) id := tells_fab s _ s.fresh id
  unfold enqueue
  dsimp only
  split
  · exact (h _ _).trans (tells_owe _ _ id)
  · exact h _ _

theorem tells_sendFrom (s : State) (n : NodeId) (i src dest : Nat) (body : PktBody) (id : Nat) :
    Tells s (sendFrom s n i src dest body) id :=
  ((tells_fab s _ (s.fresh + 1) id).trans (tells_enqueue _ n i s.fresh id)).trans (tells_owe _ _ id)

theorem tells_modOp (s : State) (id r : Nat) : Tells s (s.modOp id fun o => { o with told := r :: o.told }) id := by
  refine ⟨rfl, fun _ h => h, fun o => if o.id == id then { o with told := r :: o.told } else o, rfl, fun x => ⟨?_, fun hx => ?_⟩⟩
  · by_cases hx : x.id == id
    · exact ⟨r :: x.told, if_pos hx⟩
    · exact ⟨x.told, if_neg hx⟩
  · exact if_neg (by simpa using hx)

theorem tells_notify (s : State) (o : Op) (r : Nat) : Tells s (notify s o r) o.id := by
  unfold notify travel
  dsimp only
  split
  · split
    · exact tells_sendFrom _ _ _ _ _ _ _
    · exact tells_modOp s o.id r
  · exact tells_modOp s o.id r

theorem tells_tellMembers (s : State) (o : Op) : Tells s (tellMembers s o) o.id := by
  unfold tellMembers
  generalize (opMembers s o).filter _ = l
  induction l generalizing s with
  | nil => exact .refl s o.id
  | cons r l ih => exact (tells_notify s o r).trans (ih _)

theorem tells_announce (s : State) (o : Op) : Tells s (announce s o) o.id := by
  unfold announce
  have hall := tells_tellMembers s o
  have hnone := Tells.refl s o.id
  split
  case h_5 =>
    split
    · exact hall
    · exact hnone
  all_goals assumption

/-! ### The number of an operation (R317, R325) -/

theorem AL.get_put_same {κ α : Type} [BEq κ] [LawfulBEq κ] (m : AL κ α) (k : κ) (a : α) : (m.put k a).get k = some a := by
  simp [AL.put, AL.get]

/-- What an operation's number takes: the entry of the group table that it names, or RSEQ of its group. -/
structure Numbered (s : State) (g : Group) (o : Op) (t : State) (n : Nat) : Prop where
  posts : Posts s t g.gid
  ops : t.ops = s.ops
  agenda : t.agenda = s.agenda
  group : s.group? g.gid = some g → t.group? g.gid = some { g with rseq := if o.form = .rsto then g.rseq + 1 else g.rseq }
  rseq : o.form = .rsto → n = g.rseq.toNat
  entry : ∀ p e, o.form.numbered = true → s.pkg? g.rank = some p → p.gt.get (g.ctx, o.entry) = some e →
    n = e.seq ∧ ((t.pkg? g.rank).bind fun p => p.gt.get (g.ctx, o.entry)) = some { e with seq := (e.seq + 1) % 2 ^ 32 }

theorem numbered_of_noNumber {s : State} {g : Group} {o : Op} (n : Nat) (hr : o.form ≠ .rsto)
    (he : ∀ p e, o.form.numbered = true → s.pkg? g.rank = some p → p.gt.get (g.ctx, o.entry) ≠ some e) : Numbered s g o s n where
  posts := posts_of_rest _ rfl
  ops := rfl
  agenda := rfl
  group h := by rw [if_neg hr]; exact h
  rseq h := absurd h hr
  entry p e hn hp hg := absurd hg (he p e hn hp)

theorem takeNumber_numbered (s : State) (g : Group) (o : Op) :
    ∃ n, (takeNumber s g o).2 = { o with seqno := n } ∧ Numbered s g o (takeNumber s g o).1 n := by
  unfold takeNumber
  split
  next hnum =>
    have hr : o.form ≠ .rsto := fun h => by rw [h] at hnum; exact absurd hnum (by decide)
    split
    next hnone =>
      refine ⟨o.seqno, rfl, numbered_of_noNumber _ hr fun p e _ hp hg => ?_⟩
      rw [hp] at hnone
      exact absurd (hg.symm.trans hnone) (by simp)
    next e' he' =>
      refine ⟨e'.seq, rfl, posts_modPkg s g.rank g.gid (fun _ => rfl) fun _ => rfl, rfl, rfl, fun h => ?_, fun h => absurd h hr,
        fun p e _ hp hg => ?_⟩
      · rw [if_neg hr]; exact h
      · rw [hp] at he'
        obtain rfl : e' = e := Option.some.inj (he'.symm.trans hg)
        have hpkg := s.pkg_modPkg g.rank g.rank
          (fun p => { p with gt := p.gt.put (g.ctx, o.entry) { e' with seq := (e'.seq + 1) % 2 ^ 32 } }) fun _ => rfl
        rw [hp, Option.map_some, if_pos (beq_self_eq_true _)] at hpkg
        exact ⟨rfl, (congrArg (fun q : Option Pkg => q.bind fun p => p.gt.get (g.ctx, o.entry)) hpkg).trans (AL.get_put_same _ _ _)⟩
  next hnum =>
    split
    next hr =>
      have hr : o.form = .rsto := by simpa using hr
      refine ⟨g.rseq.toNat, rfl, posts_modGroup s g.gid fun _ => rfl, rfl, rfl, fun h => ?_, fun _ => rfl,
        fun p e hn _ _ => absurd hn hnum⟩
      rw [if_pos hr]
      exact State.group_modGroup_same h fun _ => rfl
    next hr => exact ⟨o.seqno, rfl, numbered_of_noNumber _ (by simpa using hr) fun p e hn _ => absurd hn hnum⟩

end Sys2Proof.Machine

namespace Sys2Proof.Machine

open Sys2Proof.Safety

/-! ### The posting of an asynchronous word (R241, R364 to R369) -/

/-- The group whose word is posted: its path counts the word, k[n] is held, and its kind counts the operation (R59, R214, R389). -/
def Group.enters (g : Group) (form : OpForm) (fl : Flight) (n : Nat) : Group :=
  { (g.raise fl).holdK n with eng := g.eng.setIfInBounds form.kind ((g.summary form.kind).issue g.nextSeq) }

/-- Beyond the fields that posting a word writes, its group is as before. -/
theorem Group.enters_frame (g : Group) (r : Word) (form : OpForm) (fl : Flight) (n : Nat) :
    { ({ g with rseq := r } : Group).enters form fl n with
      flights := g.flights, nextSeq := g.nextSeq, kbusy := g.kbusy, rseq := g.rseq, eng := g.eng } = g := by
  simp only [Group.enters, Group.raise, Group.holdK]

/-- The entry of its path that a word posted by the fragment f takes, for the operation `id` (R214). -/
def Frag.engineFlight (f : Frag) (form : OpForm) (id : Nat) (word : Word) : Flight :=
  { Flight.plain form.path .engine f.mask f.mask id with word := word }

/-- The operation joins those in flight, its step is due, and the members of its entry are told (R317). -/
def enlist (s : State) (gid : Nat) (form : OpForm) (fl : Flight) (n : Nat) (o : Op) : State :=
  announce (({ s with ops := s.ops ++ [o] }.modGroup gid fun g => g.enters form fl n).owe o.go) o

/-- The operation is numbered and prepared, and then joins those in flight. -/
def postWord (u : State) (gid : Nat) (g : Group) (form : OpForm) (fl : Flight) (n : Nat)
    (init : State → Op → State × Op) (o : Op) : State :=
  let r := takeNumber { u with fresh := u.fresh + 1 } g o
  let q := init r.1 r.2
  enlist q.1 gid form fl n q.2

theorem enlist_spec {s : State} {gid : Nat} {h : Group} (form : OpForm) (fl : Flight) (n : Nat) (o : Op) (hg : s.group? gid = some h) :
    Posts s (enlist s gid form fl n o) gid ∧ (enlist s gid form fl n o).group? gid = some (h.enters form fl n) ∧
      (∀ r, (enlist s gid form fl n o).pkg? r = s.pkg? r) ∧ (∀ m ∈ o.go, m ∈ (enlist s gid form fl n o).agenda) ∧
      ∃ F : Op → Op, (enlist s gid form fl n o).ops = (s.ops ++ [o]).map F ∧
        ∀ x, (∃ l, F x = { x with told := l }) ∧ (x.id ≠ o.id → F x = x) := by
  have hpost : Posts s (({ s with ops := s.ops ++ [o] }.modGroup gid fun g => g.enters form fl n).owe o.go) gid :=
    ((posts_of_rest gid rfl).trans (posts_modGroup (F := fun g => g.enters form fl n) _ gid fun _ => rfl)).trans (posts_of_rest gid rfl)
  have hgroup : (({ s with ops := s.ops ++ [o] }.modGroup gid fun g => g.enters form fl n).owe o.go).group? gid =
      some (h.enters form fl n) := (State.group_owe _ _ _).trans (State.group_modGroup_same hg fun _ => rfl)
  have htell := tells_announce (({ s with ops := s.ops ++ [o] }.modGroup gid fun g => g.enters form fl n).owe o.go) o
  exact ⟨hpost.trans (posts_of_rest gid htell.rest), (congrArg (fun x : State => x.group? gid) htell.rest :).trans hgroup,
    fun r => (congrArg (fun x : State => x.pkg? r) htell.rest :), fun m hm => htell.agenda m (List.mem_append_right _ hm), htell.ops⟩

section
variable {s u : State} {is : Issuer} {g : Group} {f : Frag} {i : Instr} {form : OpForm} {td ta kn : XReg} {bar : Option BReg} {foe : Bool}
  {check : State → Group → Nat → QWord → QWord → QWord → DWord → State × Chk} {init : State → Op → State × Op}

/-- What a posted word comes to by its check. -/
def afterCheck (i : Instr) (is : Issuer) (g : Group) (f : Frag) (form : OpForm) (td ta kn : XReg) (bar : Option BReg) (foe : Bool)
    (init : State → Op → State × Op) (s u : State) : Chk → State
  | .bad sub => takeTrap u is 2 ⟨sub, 0, 0⟩
  | .xf x => takeTrap u is 5 (faultD x 0)
  | .wait => s
  | .ok spans =>
    if engineStall u g form foe then u
    else
      advance (postWord u is.gid g form (f.engineFlight form u.fresh (issuedWords i).1) kn.toNat init
        (newOp { u with fresh := u.fresh + 1 } g u.fresh form (issuedWords i).1 (g.tr td) (g.tr ta) (g.tr kn) (g.kr kn.toNat) kn bar
          foe spans)) is 1

/-- A word that waits neither for k[n], nor for a fence, nor for a synchronisation goes by its check (R59, R252, R281, R316). -/
theorem engineWord_checked {c : Chk} (hi : Issues s is g f) (hw : g.wave = none) (hk : g.kbusy.getLsbD kn.toNat = false)
    (hgt : ∀ p, s.pkg? g.rank = some p → p.gtBusy = false) (hpf : g.anyWait Wait.pfences = false)
    (hfence : form.kind = 0 → g.fenced = false)
    (hc : check s g g.core.die (g.tr td) (g.tr ta) (g.tr kn) (g.kr kn.toNat) = (u, c)) :
    engineWord s i form td ta kn bar foe check init = .next (afterCheck i is g f form td ta kn bar foe init s u c) := by
  have hbusy : ((s.pkg? g.rank).any fun p => p.gtBusy) = false := by
    cases hp : s.pkg? g.rank with
    | none => rfl
    | some p => exact hgt p hp
  have hfence' : (form.kind == 0 && g.fenced) = false := by
    by_cases h : form.kind = 0
    · rw [hfence h, Bool.and_false]
    · rw [beq_eq_false_iff_ne.2 h, Bool.false_and]
  rw [engineWord, issue_of_issues hi hw]
  simp only [Group.ksBusy_singleton, hk, hpf, hfence', hbusy, hc, Bool.or_self, Bool.and_false, Bool.false_eq_true, if_false]
  cases c <;> rfl

/-- A word with its resources does not wait at issue (R214, R306, R312, R316). -/
theorem engineStall_eq_false (hgt : ∀ p, u.pkg? g.rank = some p → p.gtBusy = false) (hpath : g.path form.path < 255)
    (hunit : foe = true → (unitEntries u g.core).length < 64)
    (hqueue : form.queued = true → (dieQueue u g.rank g.core.die).length < 1024) :
    engineStall u g form foe = false := by
  have hbusy : ((u.pkg? g.rank).any fun p => p.gtBusy) = false := by
    cases hp : u.pkg? g.rank with
    | none => rfl
    | some p => exact hgt p hp
  have hfull : g.pathFull form.path = false := by simpa [Group.pathFull] using hpath
  have hunit' : (foe && unitFull u g.core) = false := by
    cases foe with
    | false => rfl
    | true => simpa [unitFull] using hunit rfl
  have hqueue' : (form.queued && decide (1024 ≤ (dieQueue u g.rank g.core.die).length)) = false := by
    cases hq : form.queued with
    | false => rfl
    | true => simpa using hqueue hq
  simp only [engineStall, hbusy, hfull, hunit', hqueue', Bool.and_false, Bool.or_self]

end

/-! ### What a posted word leaves (R59, R214, R317, R325, R389) -/

/-- The operation o of the group g has been posted, in the entry of its path that `fl` describes. -/
structure Posted (u t : State) (gid : Nat) (g : Group) (form : OpForm) (fl : Flight) (k : Nat) (o : Op) : Prop where
  posts : Posts u t gid
  group : t.group? gid = some (({ g with rseq := if o.form = .rsto then g.rseq + 1 else g.rseq } : Group).enters form fl k)
  go : ∀ m ∈ o.go, m ∈ t.agenda
  ops : ∃ F : Op → Op, t.ops = (u.ops ++ [o]).map F ∧ ∀ x, (∃ l, F x = { x with told := l }) ∧ (x.id ≠ o.id → F x = x)
  rseq : o.form = .rsto → o.seqno = g.rseq.toNat
  entry : ∀ p e, o.form.numbered = true → u.pkg? g.rank = some p → p.gt.get (g.ctx, o.entry) = some e →
    o.seqno = e.seq ∧ ((t.pkg? g.rank).bind fun p => p.gt.get (g.ctx, o.entry)) = some { e with seq := (e.seq + 1) % 2 ^ 32 }

theorem postWord_posted {u : State} {g : Group} (hg : u.group? g.gid = some g) (form : OpForm) (fl : Flight) (k : Nat)
    {init : State → Op → State × Op} (hinit : Prepares init) (o : Op) :
    ∃ p : Op, { p with seqno := o.seqno, st := o.st, pass := o.pass, status := o.status, results := o.results, extra := o.extra
                       bound := o.bound } = o ∧ Posted u (postWord u g.gid g form fl k init o) g.gid g form fl k p := by
  obtain ⟨n, hn, hnum⟩ := takeNumber_numbered { u with fresh := u.fresh + 1 } g o
  generalize hv : (takeNumber { u with fresh := u.fresh + 1 } g o).1 = v at hnum
  obtain ⟨st, pass, status, results, extra, bound, hq⟩ := hinit.op v { o with seqno := n }
  have hrest := hinit.rest v { o with seqno := n }
  have hmem := hinit.memories v { o with seqno := n }
  have htab := hinit.tables v { o with seqno := n }
  have hpost : postWord u g.gid g form fl k init o = enlist (init v { o with seqno := n }).1 g.gid form fl k
      { o with seqno := n, st := st, pass := pass, status := status, results := results, extra := extra, bound := bound } := by
    simp only [postWord, hn, hv, hq]
  generalize (init v { o with seqno := n }).1 = w at hrest hmem htab hpost
  have hgroups (m : Nat) : w.group? m = v.group? m := (congrArg (fun x : State => x.group? m) hrest :)
  have hw : Posts v w g.gid := ⟨(congrArg (fun x : State =>
    { x with ops := v.ops, groups := v.groups, pkgs := v.pkgs, agenda := v.agenda, fresh := v.fresh, fab := v.fab }) hrest :),
    fun m _ => hgroups m, hmem⟩
  obtain ⟨hposts, hgroup, hpkg, hgo, F, hF, hFx⟩ := enlist_spec form fl k
    { o with seqno := n, st := st, pass := pass, status := status, results := results, extra := extra, bound := bound }
    ((hgroups g.gid).trans (hnum.group hg))
  refine ⟨{ o with seqno := n, st := st, pass := pass, status := status, results := results, extra := extra, bound := bound },
    rfl, ?_⟩
  rw [hpost]
  refine ⟨(((posts_of_rest g.gid rfl).trans hnum.posts).trans hw).trans hposts, hgroup, hgo, ⟨F, ?_, hFx⟩, hnum.rseq,
    fun p e hform hp he => ?_⟩
  · rw [hF, (congrArg State.ops hrest :).trans hnum.ops]
  · obtain ⟨hseq, hentry⟩ := hnum.entry p e hform hp he
    refine ⟨hseq, ?_⟩
    have hgt := congrArg (fun m : Option (AL (Nat × Nat) GtEntry) => m.bind fun m => m.get (g.ctx, o.entry)) (htab g.rank)
    simp only [Option.bind_map, Function.comp_def] at hgt
    rw [hpkg]
    exact hgt.trans hentry

/-- Settles O45: the check only reads, and what passes it is numbered, prepared and enlisted. -/
theorem engineWords : Obligations.EngineWords := by
  intro i form td ta kn bar foe check s u is g f hform hcheck hi hw hk hgt hpf hfence param checked
  obtain ⟨hreads, init, hinit, hexec⟩ := exec_engineWord hform hcheck
  have hread {c : Chk} (hc : checked c) : ReadOnly s u := by
    have h := hreads s g g.core.die (g.tr td) (g.tr ta) (g.tr kn) param
    rwa [show check s g g.core.die (g.tr td) (g.tr ta) (g.tr kn) param = (u, c) from hc] at h
  have hrun {c : Chk} (hc : checked c) : exec i s = .next (afterCheck i is g f form td ta kn bar foe init s u c) :=
    (hexec s).trans (engineWord_checked hi hw hk hgt hpf hfence hc)
  refine ⟨fun sub hc => hrun hc, fun x hc => ⟨_, hrun hc, rfl, rfl⟩, fun spans hc hpath hunit hqueue => ?_⟩
  have hgt' (p : Pkg) (hp : u.pkg? g.rank = some p) : p.gtBusy = false := by
    have h := (hread hc).busy g.rank
    rw [hp, Option.map_some] at h
    obtain ⟨q, hq, hqp⟩ := Option.map_eq_some_iff.1 h.symm
    exact hqp ▸ hgt q hq
  have hstall := engineStall_eq_false hgt' hpath hunit hqueue
  have hgid := State.gid_of_group hi.group
  have hg : u.group? g.gid = some g := by rw [hgid]; exact ((hread hc).issues hi).group
  obtain ⟨o, ho, hp⟩ := postWord_posted hg form
    (f.engineFlight form u.fresh (issuedWords i).1) kn.toNat hinit
    (newOp { u with fresh := u.fresh + 1 } g u.fresh form (issuedWords i).1 (g.tr td) (g.tr ta) (g.tr kn) param kn bar foe spans)
  have hrun' := hrun hc
  simp only [afterCheck, hstall, Bool.false_eq_true, if_false, ← hgid] at hrun'
  generalize postWord u g.gid g form _ kn.toNat init _ = t at hp hrun'
  have hoform : o.form = form := (congrArg Op.form ho :)
  have hoid : o.id = u.fresh := (congrArg Op.id ho :)
  have hoparam : o.param = param := (congrArg Op.param ho :)
  obtain ⟨F, hF, hFx⟩ := hp.ops
  obtain ⟨told, htold⟩ := (hFx o).1
  rw [hgid] at hp
  have hentry : o.entry = param.toNat % 2 ^ 8 := by rw [Op.entry, hoparam, bitsOf, Nat.pow_zero, Nat.div_one]
  have howord : o.word = (issuedWords i).1 := (congrArg Op.word ho :)
  refine ⟨t, o, _,
    { f.engineFlight form u.fresh (issuedWords i).1 with seq := g.nextSeq }, told,
    u.ops.map F, hrun', ?_, List.length_map .., fun m x hx hne => ?_, ?_, hp.group, rfl, rfl,
    by rw [howord, Frag.engineFlight], rfl, ?_, rfl, g.enters_frame .., fun p e hnum hu he => ?_, hp.go, hp.posts.groups, hp.posts.rest, hp.posts.bytes⟩
  · rw [hF, List.map_append, List.map_singleton, htold]
  · rw [List.getElem?_map, hx, Option.map_some, (hFx x).2 (hoid ▸ hne)]
  · exact ⟨hoid, (congrArg Op.rank ho :), (congrArg Op.die ho :), (congrArg Op.ctx ho :), (congrArg Op.gid ho :),
      (congrArg Op.tid ho :), (congrArg Op.grid ho :), hoform, (congrArg Op.kind ho :), howord, hoparam, (congrArg Op.td ho :),
      (congrArg Op.ta ho :), (congrArg Op.tn ho :), (congrArg Op.kn ho :), (congrArg Op.bar ho :), (congrArg Op.foe ho :),
      (congrArg Op.level ho :), (congrArg Op.flight ho :), (congrArg Op.spans ho :), (congrArg Op.preds ho :),
      (congrArg Op.pidx ho :), (congrArg Op.chunks ho :)⟩
  · split
    next h =>
      rw [← hoform] at h
      exact ⟨hp.rseq h, if_pos h⟩
    next h => exact if_neg (by rwa [hoform])
  · have h := hp.entry p e (by rwa [hoform]) hu (by rwa [hentry])
    rwa [hentry] at h

end Sys2Proof.Machine

namespace Sys2Proof

open Sys2Proof.Safety

/-! ### Values as rational numbers (R76) -/

/-- A value that is neither a NaN nor an infinity is a number. -/
theorem Val.exists_num {v : Val} (hn : v.isNan = false) (hi : v.isInf = false) : ∃ n m e, v = .num n m e := by
  cases v with
  | nan q => simp [Val.isNan] at hn
  | inf n => simp [Val.isInf] at hi
  | num n m e => exact ⟨n, m, e, rfl⟩

theorem Val.snan_of_not_nan {v : Val} (h : v.isNan = false) : v.snan = false := by
  cases v with
  | nan q => simp [Val.isNan] at h
  | inf n => rfl
  | num n m e => rfl

/-- A NaN is neither an infinity nor a zero. -/
theorem Val.plain_of_nan {v : Val} (h : v.isNan = true) : v.isInf = false ∧ v.isZero = false := by
  cases v with
  | nan q => exact ⟨rfl, rfl⟩
  | inf n => simp [Val.isNan] at h
  | num n m e => simp [Val.isNan] at h

/-- An integer is its magnitude with its sign. -/
theorem signedMag_natAbs (x : Int) : signedMag (decide (x < 0)) x.natAbs = x := by
  by_cases h : x < 0 <;> simp only [signedMag, h, decide_true, decide_false, Bool.false_eq_true, if_true, if_false] <;> omega

theorem ratOf_num (n : Bool) (m : Nat) (e : Int) : ratOf (.num n m e) = (signedMag n m : ℚ) * (2 : ℚ) ^ e := by
  cases n <;> simp [ratOf, signedMag]

/-- A number does not change when its significand is scaled to a lower exponent. -/
theorem ratOf_num_scaled (n : Bool) (m : Nat) {d e : Int} (h : d ≤ e) :
    ratOf (.num n m e) = (signedMag n (m * 2 ^ (e - d).toNat) : ℚ) * (2 : ℚ) ^ d := by
  have hpow : (2 : ℚ) ^ e = 2 ^ (e - d).toNat * (2 : ℚ) ^ d := by
    rw [← zpow_natCast, ← zpow_add₀ two_ne_zero]
    congr 1
    omega
  rw [ratOf_num, hpow]
  cases n <;> simp [signedMag] <;> ring

theorem abs_ratOf_num (n : Bool) (m : Nat) (e : Int) : |ratOf (.num n m e)| = m * (2 : ℚ) ^ e := by
  have h : (0 : ℚ) ≤ m * (2 : ℚ) ^ e := by positivity
  cases n <;> simp [ratOf, abs_of_nonneg h]

theorem ratOf_num_eq_zero {n : Bool} {m : Nat} {e : Int} : ratOf (.num n m e) = 0 ↔ m = 0 := by
  cases n <;> simp [ratOf, zpow_ne_zero]

/-- A common positive scale keeps the order. -/
theorem compare_scaled (x y e : Int) : compare ((x : ℚ) * (2 : ℚ) ^ e) (y * (2 : ℚ) ^ e) = compare x y := by
  have hmono : StrictMono fun z : Int => (z : ℚ) * (2 : ℚ) ^ e := (Int.cast_strictMono (R := ℚ)).mul_const (by positivity)
  rw [← cmp_eq_compare, hmono.cmp_map_eq, cmp_eq_compare]

/-- The order of two numbers is that of the rational numbers that they stand for. -/
theorem cmpVal_num (n₁ n₂ : Bool) (m₁ m₂ : Nat) (e₁ e₂ : Int) :
    cmpVal (.num n₁ m₁ e₁) (.num n₂ m₂ e₂) = compare (ratOf (.num n₁ m₁ e₁)) (ratOf (.num n₂ m₂ e₂)) := by
  rw [ratOf_num_scaled n₁ m₁ (min_le_left e₁ e₂), ratOf_num_scaled n₂ m₂ (min_le_right e₁ e₂), compare_scaled]
  rfl

/-! ### Sums and products (R76, R107, R110) -/

/-- The sign that IEEE 754 gives to a sum that is exactly zero. -/
def zeroSumSign (rm : Rm) (a b : Val) : Bool := if a.isZero && b.isZero && a.sign == b.sign then a.sign else rm == .rdn

/-- The value v is a number equal to x, and has the sign z when it is zero. -/
def Val.IsExact (v : Val) (x : ℚ) (z : Bool) : Prop := ∃ n m e, v = .num n m e ∧ ratOf v = x ∧ (m = 0 → n = z)

theorem sumVal_exact (rm : Rm) (n₁ n₂ : Bool) (m₁ m₂ : Nat) (e₁ e₂ : Int) :
    (sumVal rm (.num n₁ m₁ e₁) (.num n₂ m₂ e₂)).IsExact (ratOf (.num n₁ m₁ e₁) + ratOf (.num n₂ m₂ e₂))
      (zeroSumSign rm (.num n₁ m₁ e₁) (.num n₂ m₂ e₂)) := by
  rw [ratOf_num_scaled n₁ m₁ (min_le_left e₁ e₂), ratOf_num_scaled n₂ m₂ (min_le_right e₁ e₂), ← add_mul, ← Int.cast_add]
  simp only [sumVal]
  generalize signedMag n₁ _ + signedMag n₂ _ = v
  by_cases hv : v = 0
  · subst hv
    exact ⟨_, _, _, rfl, by simp [ratOf_num, signedMag], fun _ => rfl⟩
  · rw [if_neg (by simpa using hv)]
    exact ⟨_, _, _, rfl, by rw [ratOf_num, signedMag_natAbs], fun h => absurd (Int.natAbs_eq_zero.1 h) hv⟩

theorem mulVal_exact (n₁ n₂ : Bool) (m₁ m₂ : Nat) (e₁ e₂ : Int) :
    (mulVal (.num n₁ m₁ e₁) (.num n₂ m₂ e₂)).IsExact (ratOf (.num n₁ m₁ e₁) * ratOf (.num n₂ m₂ e₂)) (n₁ != n₂) := by
  refine ⟨_, _, _, rfl, ?_, fun _ => rfl⟩
  cases n₁ <;> cases n₂ <;> simp [mulVal, ratOf, zpow_add₀] <;> ring

theorem faddF_num (f : CvtFmt) (rm : Rm) (n₁ n₂ : Bool) (m₁ m₂ : Nat) (e₁ e₂ : Int) :
    faddF f rm (.num n₁ m₁ e₁) (.num n₂ m₂ e₂) = toFmt f rm (sumVal rm (.num n₁ m₁ e₁) (.num n₂ m₂ e₂)) := rfl

theorem fmulF_num (f : CvtFmt) (rm : Rm) (n₁ n₂ : Bool) (m₁ m₂ : Nat) (e₁ e₂ : Int) :
    fmulF f rm (.num n₁ m₁ e₁) (.num n₂ m₂ e₂) = toFmt f rm (mulVal (.num n₁ m₁ e₁) (.num n₂ m₂ e₂)) := by
  simp [fmulF, invalidOr, Val.snan, Val.isNan, zeroInf, Val.isInf]

theorem ffmaF_num (f : CvtFmt) (rm : Rm) (n₁ n₂ n₃ : Bool) (m₁ m₂ m₃ : Nat) (e₁ e₂ e₃ : Int) :
    ffmaF f rm (.num n₁ m₁ e₁) (.num n₂ m₂ e₂) (.num n₃ m₃ e₃) =
      toFmt f rm (sumVal rm (mulVal (.num n₁ m₁ e₁) (.num n₂ m₂ e₂)) (.num n₃ m₃ e₃)) := by
  simp [ffmaF, invalidOr, Val.snan, Val.isNan, zeroInf, infMinusInf, Val.isInf, mulVal]

/-- A NaN operand of a sum gives the canonical NaN, and is invalid when it is signalling (R71). -/
theorem faddF_nan (f : CvtFmt) (rm : Rm) {a b : Val} (h : a.isNan = true ∨ b.isNan = true) :
    faddF f rm a b = (f.nan, Conds.invIf (a.snan || b.snan)) := by
  have hsub : infMinusInf a b = false := by
    rcases h with h | h <;> simp [infMinusInf, Val.plain_of_nan h]
  have hnan : (a.isNan || b.isNan) = true := by simpa using h
  simp only [faddF, invalidOr, hsub, hnan, Bool.or_false, Bool.or_true, if_true]

/-- A NaN operand of a product gives the canonical NaN, and is invalid when it is signalling (R71). -/
theorem fmulF_nan (f : CvtFmt) (rm : Rm) {a b : Val} (h : a.isNan = true ∨ b.isNan = true) :
    fmulF f rm a b = (f.nan, Conds.invIf (a.snan || b.snan)) := by
  have hzero : zeroInf a b = false := by
    rcases h with h | h <;> simp [zeroInf, Val.plain_of_nan h]
  have hnan : (a.isNan || b.isNan) = true := by simpa using h
  simp only [fmulF, invalidOr, hzero, hnan, Bool.or_false, Bool.or_true, if_true]

/-- Zero times an infinity is invalid, in a product and beside any third operand of a multiply-add (R107). -/
theorem zero_times_inf (f : CvtFmt) (rm : Rm) {a : Val} (d : Val) (n : Bool) (h : a.isZero = true) :
    fmulF f rm a (.inf n) = (f.nan, Conds.inv) ∧ ffmaF f rm a (.inf n) d = (f.nan, Conds.inv) := by
  have hz : zeroInf a (.inf n) = true := by simp [zeroInf, h, Val.isInf]
  exact ⟨by simp [fmulF, invalidOr, hz, Conds.invIf, Conds.inv], by simp [ffmaF, invalidOr, hz, Conds.invIf, Conds.inv]⟩

/-- A number plus an infinity is the infinity. -/
theorem faddF_num_inf (f : CvtFmt) (rm : Rm) (s n : Bool) (m : Nat) (e : Int) :
    faddF f rm (.num s m e) (.inf n) = toFmt f rm (.inf n) := rfl

/-- A number that is not zero times an infinity is an infinity. -/
theorem fmulF_num_inf (f : CvtFmt) (rm : Rm) (s n : Bool) {m : Nat} (e : Int) (hm : m ≠ 0) :
    fmulF f rm (.num s m e) (.inf n) = toFmt f rm (.inf (s != n)) := by
  simp [fmulF, invalidOr, Val.snan, Val.isNan, zeroInf, Val.isInf, Val.isZero, mulVal, hm]

/-- Sums, products and multiply-adds round the exact value once. -/
theorem exactArithmetic : Claims.ExactArithmetic := by
  intro f rm a b d _ _ _ fin rounds zsum
  have hnum {v : Val} (h : fin v) : ∃ n m e, v = .num n m e := Val.exists_num h.1 h.2
  have hrounds {v : Val} {x : ℚ} {z : Bool} (h : v.IsExact x z) : rounds (toFmt f rm v) x z := by
    obtain ⟨n, m, e, rfl, hx, hz⟩ := h
    exact ⟨n, m, e, hx, hz, rfl⟩
  refine ⟨fun ha hb => ?_, fun ha hb hd => ?_, fun h => ⟨faddF_nan f rm h, fmulF_nan f rm h⟩, rfl, rfl,
    fun ha n => ?_, fun ha n => ?_⟩
  · obtain ⟨n₁, m₁, e₁, rfl⟩ := hnum ha
    obtain ⟨n₂, m₂, e₂, rfl⟩ := hnum hb
    exact ⟨hrounds (sumVal_exact rm n₁ n₂ m₁ m₂ e₁ e₂),
      fmulF_num f rm n₁ n₂ m₁ m₂ e₁ e₂ ▸ hrounds (mulVal_exact n₁ n₂ m₁ m₂ e₁ e₂)⟩
  · obtain ⟨n₁, m₁, e₁, rfl⟩ := hnum ha
    obtain ⟨n₂, m₂, e₂, rfl⟩ := hnum hb
    obtain ⟨n₃, m₃, e₃, rfl⟩ := hnum hd
    obtain ⟨n, m, e, hp, hprod, -⟩ := mulVal_exact n₁ n₂ m₁ m₂ e₁ e₂
    rw [ffmaF_num, ← hprod, hp]
    exact hrounds (sumVal_exact rm n n₃ m m₃ e e₃)
  · obtain ⟨hmul, hfma⟩ := zero_times_inf f rm d n ha
    rw [hmul, hfma]
    exact ⟨rfl, rfl, rfl, rfl⟩
  · obtain ⟨s, m, e, rfl⟩ := hnum ha
    exact ⟨faddF_num_inf f rm s n m e, fun hz => fmulF_num_inf f rm s n e (by simpa [Val.isZero] using hz)⟩

/-! ### Comparisons and signs (R103, R108) -/

/-- Beside a NaN only ne and un hold, and the ordering comparisons are invalid (R103). -/
theorem fcmpF_nan (c : FCond) {a b : Val} (h : a.isNan = true ∨ b.isNan = true) :
    ((fcmpF c a b).1 = true ↔ c = .ne ∨ c = .un) ∧
    ((fcmpF c a b).2.invalid = true ↔ (c = .lt ∨ c = .le ∨ c = .gt ∨ c = .ge) ∨ a.snan = true ∨ b.snan = true) := by
  have hnan : (a.isNan || b.isNan) = true := by simpa using h
  simp only [fcmpF, hnan]
  cases c <;> simp [Conds.invIf]

/-- Without a NaN no comparison raises a condition. -/
theorem fcmpF_conds (c : FCond) {a b : Val} (ha : a.isNan = false) (hb : b.isNan = false) : (fcmpF c a b).2 = Conds.none := by
  cases c <;> simp [fcmpF, ha, hb, Val.snan_of_not_nan, Conds.invIf, Conds.none]

/-- What a comparison says of two rational numbers; that they are ordered always holds (R103). -/
def FCond.Holds (c : FCond) (x y : ℚ) : Prop :=
  match c with
  | .eq => x = y
  | .ne => x ≠ y
  | .lt => x < y
  | .le => x ≤ y
  | .gt => y < x
  | .ge => y ≤ x
  | .un => False
  | .ord => True

/-- A comparison of two numbers is that of the rational numbers that they stand for. -/
theorem fcmpF_num (c : FCond) (n₁ n₂ : Bool) (m₁ m₂ : Nat) (e₁ e₂ : Int) :
    (fcmpF c (.num n₁ m₁ e₁) (.num n₂ m₂ e₂)).1 = true ↔ c.Holds (ratOf (.num n₁ m₁ e₁)) (ratOf (.num n₂ m₂ e₂)) := by
  simp only [fcmpF, cmpVal_num, Val.isNan]
  cases c <;> simp [FCond.Holds, compare_lt_iff_lt, compare_gt_iff_gt]

/-- An FP32 code is a sign bit above 31 bits of magnitude. -/
theorem toNat_sign_magnitude (w : Word) : w.toNat = w.toNat % 2 ^ 31 + b2n (w.getLsbD 31) * 2 ^ 31 := by
  have hbit : b2n (w.getLsbD 31) = w.toNat / 2 ^ 31 % 2 := by
    rw [← Machine.bitOf_toNat, bitOf]
    rcases Nat.mod_two_eq_zero_or_one (w.toNat / 2 ^ 31) with h | h <;> rw [h] <;> rfl
  omega

/-- fabs, fneg and fcopysign of a number act on the sign bit alone (R108). -/
theorem fsignF_of_number (x y : Word) (h : (valOf .f32 x.toNat).isNan = false) :
    (fsignF .abs x.toNat y.toNat).1 = (x &&& 0x7FFFFFFF).toNat ∧
    (fsignF .neg x.toNat y.toNat).1 = (x ^^^ 0x80000000).toNat ∧
    (fsignF .copysign x.toNat y.toNat).1 = ((x &&& 0x7FFFFFFF) ||| (y &&& 0x80000000)).toNat := by
  have hlow : x.toNat % 2 ^ 31 &&& 2 ^ 31 - 1 = x.toNat % 2 ^ 31 := by rw [Nat.and_two_pow_sub_one_eq_mod, Nat.mod_mod]
  have hmask : (0x7FFFFFFF : Word).toNat % 2 ^ 31 = 2 ^ 31 - 1 ∧ (0x7FFFFFFF : Word).getLsbD 31 = false := by decide
  have hsign : (0x80000000 : Word).toNat % 2 ^ 31 = 0 ∧ (0x80000000 : Word).getLsbD 31 = true := by decide
  rw [toNat_sign_magnitude (x &&& _), toNat_sign_magnitude (x ^^^ _), toNat_sign_magnitude (_ ||| _)]
  simp only [fsignF, h, Bool.false_eq_true, if_false, Machine.bitOf_toNat, BitVec.toNat_and, BitVec.toNat_xor, BitVec.toNat_or,
    Nat.and_mod_two_pow, Nat.or_mod_two_pow, Nat.xor_mod_two_pow, BitVec.getLsbD_and, BitVec.getLsbD_or, BitVec.getLsbD_xor,
    hmask, hsign, hlow, Nat.and_zero, Nat.or_zero, Nat.xor_zero, Bool.and_true, Bool.and_false, Bool.false_or, Bool.xor_true]
  simp only [b2n, Bool.false_eq_true, if_false, Nat.zero_mul, Nat.add_zero, and_self]

/-- fabs, fneg and fcopysign of a NaN give the canonical NaN (R71). -/
theorem fsignF_of_nan (op : FSignOp) {x : Nat} (y : Nat) (h : (valOf .f32 x).isNan = true) :
    (fsignF op x y).1 = 0x7FC00000 ∧ (fsignF op x y).2.invalid = (valOf .f32 x).snan := by
  simp only [fsignF, h, if_true, ofNan, Conds.invIf, Bool.not_not]
  exact ⟨rfl, trivial⟩

/-- Comparisons are those of rational numbers, and the sign operations change one bit. -/
theorem comparisonsAndSigns : Claims.ComparisonsAndSigns := by
  refine ⟨fun c a b ha hb => ⟨fcmpF_conds c ha hb, fun hai hbi => ?_⟩, fun c a b h => fcmpF_nan c h, fsignF_of_number,
    fun op x y h => fsignF_of_nan op y.toNat h⟩
  obtain ⟨n₁, m₁, e₁, rfl⟩ := Val.exists_num ha hai
  obtain ⟨n₂, m₂, e₂, rfl⟩ := Val.exists_num hb hbi
  exact fcmpF_num c n₁ n₂ m₁ m₂ e₁ e₂

/-- Settles O13: sums and products are exact before their one rounding, and comparisons are those of rational numbers. -/
theorem arithmeticIsExact : Obligations.ArithmeticIsExact := ⟨exactArithmetic, comparisonsAndSigns⟩

/-! ### The codes of FP32 in their order (R69, R70) -/

/-- A finite FP32 magnitude in units of 2^−149, from its code; the code of the infinity stands one binade above the finite ones. -/
def f32Units (k : Nat) : Nat := if k < 2 ^ 23 then k else (k % 2 ^ 23 + 2 ^ 23) * 2 ^ (k / 2 ^ 23 - 1)

/-- Within a binade the significand grows by one; at its end the exponent takes over. -/
theorem f32Units_strictMono : StrictMono f32Units := by
  refine strictMono_nat_of_lt_succ fun k => ?_
  by_cases hk : k + 1 < 2 ^ 23
  · simp only [f32Units, hk, if_true, show k < 2 ^ 23 by omega]
    omega
  · by_cases hk' : k < 2 ^ 23
    · have hlast : k = 2 ^ 23 - 1 := by omega
      subst hlast
      decide
    · simp only [f32Units, hk, hk', if_false]
      by_cases hfr : k % 2 ^ 23 + 1 < 2 ^ 23
      · rw [show (k + 1) / 2 ^ 23 = k / 2 ^ 23 by omega, show (k + 1) % 2 ^ 23 = k % 2 ^ 23 + 1 by omega]
        exact Nat.mul_lt_mul_of_pos_right (by omega) (by positivity)
      · rw [show (k + 1) / 2 ^ 23 - 1 = k / 2 ^ 23 - 1 + 1 by omega, show (k + 1) % 2 ^ 23 = 0 by omega, pow_succ 2 (_ - 1)]
        have hpos : 0 < 2 ^ (k / 2 ^ 23 - 1) := by positivity
        nlinarith [show k % 2 ^ 23 < 2 ^ 23 by omega]

section
variable {w : Word}

/-- What an FP32 code stands for, by the binade that its magnitude lies in (R69, R70). -/
theorem valOf_f32_binade : valOf .f32 w.toNat =
    if w.toNat % 2 ^ 31 / 2 ^ 23 = 255 then
      if w.toNat % 2 ^ 23 = 0 then .inf (w.getLsbD 31) else .nan (bitOf (w.toNat % 2 ^ 23) 22)
    else if w.toNat % 2 ^ 31 / 2 ^ 23 = 0 then .num (w.getLsbD 31) (w.toNat % 2 ^ 23) (-149)
    else .num (w.getLsbD 31) (w.toNat % 2 ^ 23 + 2 ^ 23) ((w.toNat % 2 ^ 31 / 2 ^ 23 : Nat) - 150) := by
  have hex : bitsOf w.toNat 23 8 = w.toNat % 2 ^ 31 / 2 ^ 23 := by unfold bitsOf; omega
  have hfr : bitsOf w.toNat 0 23 = w.toNat % 2 ^ 23 := by unfold bitsOf; omega
  have hexp (n : Nat) : (n : Int) - (127 : Nat) - (23 : Nat) = n - 150 := by omega
  simp only [valOf, CvtFmt.width, CvtFmt.fb, CvtFmt.eb, CvtFmt.bias, hex, hfr, Machine.bitOf_toNat, hexp]
  generalize w.toNat % 2 ^ 31 / 2 ^ 23 = ex
  generalize w.toNat % 2 ^ 23 = fr
  simp

theorem valOf_f32_inf (h : w.toNat % 2 ^ 31 = 255 * 2 ^ 23) : valOf .f32 w.toNat = .inf (w.getLsbD 31) := by
  rw [valOf_f32_binade, if_pos (by omega), if_pos (by omega)]

theorem valOf_f32_isNan : (valOf .f32 w.toNat).isNan = decide (255 * 2 ^ 23 < w.toNat % 2 ^ 31) := by
  rw [valOf_f32_binade]
  split_ifs <;> simp [Val.isNan] <;> omega

/-- A finite FP32 code stands for its units of 2^−149, with its sign. -/
theorem valOf_f32_finite (h : w.toNat % 2 ^ 31 < 255 * 2 ^ 23) : ∃ m e, valOf .f32 w.toNat = .num (w.getLsbD 31) m e ∧
    (m : ℚ) * 2 ^ e = f32Units (w.toNat % 2 ^ 31) * 2 ^ (-149 : Int) := by
  rw [valOf_f32_binade, if_neg (by omega)]
  by_cases hsub : w.toNat % 2 ^ 31 / 2 ^ 23 = 0
  · refine ⟨_, _, if_pos hsub, ?_⟩
    rw [f32Units, if_pos (by omega), show w.toNat % 2 ^ 31 = w.toNat % 2 ^ 23 by omega]
  · refine ⟨_, _, if_neg hsub, ?_⟩
    have hexp : ((w.toNat % 2 ^ 31 / 2 ^ 23 : Nat) : Int) - 150 = (w.toNat % 2 ^ 31 / 2 ^ 23 - 1 : Nat) + (-149) := by omega
    rw [f32Units, if_neg (by omega), hexp, zpow_add₀ two_ne_zero, zpow_natCast,
      show w.toNat % 2 ^ 31 % 2 ^ 23 = w.toNat % 2 ^ 23 by omega]
    push_cast
    ring

end

/-- A code that is neither a NaN nor an infinity is below that of the infinity. -/
theorem valOf_f32_finite_iff {w : Word} :
    ((valOf .f32 w.toNat).isNan = false ∧ (valOf .f32 w.toNat).isInf = false) ↔ w.toNat % 2 ^ 31 < 255 * 2 ^ 23 := by
  constructor
  · rintro ⟨hn, hi⟩
    rw [valOf_f32_isNan, decide_eq_false_iff_not, not_lt] at hn
    refine hn.lt_of_ne fun h => ?_
    rw [valOf_f32_inf h] at hi
    exact absurd hi (by simp [Val.isInf])
  · intro h
    obtain ⟨m, e, hval, -⟩ := valOf_f32_finite h
    rw [hval]
    exact ⟨rfl, rfl⟩

/-- The magnitude of an FP32 number with its sign, in units of 2^−149; that of an infinity is above all finite ones. -/
def f32Signed (w : Word) : Int := signedMag (w.getLsbD 31) (f32Units (w.toNat % 2 ^ 31))

theorem ratOf_valOf_f32 {w : Word} (h : w.toNat % 2 ^ 31 < 255 * 2 ^ 23) :
    ratOf (valOf .f32 w.toNat) = f32Signed w * (2 : ℚ) ^ (-149 : Int) := by
  obtain ⟨m, e, hval, hunits⟩ := valOf_f32_finite h
  rw [hval, f32Signed]
  cases w.getLsbD 31 <;> simp [ratOf, signedMag, hunits, neg_mul]

/-- Of two signed magnitudes the greater magnitude decides the order. -/
theorem compare_signedMag (s n : Bool) {u p : Nat} (h : u < p) :
    compare (signedMag s u) (signedMag n p) = (if n then .gt else .lt) ∧
      compare (signedMag n p) (signedMag s u) = (if n then .lt else .gt) := by
  cases s <;> cases n <;> simp [signedMag, compare_lt_iff_lt, compare_gt_iff_gt] <;> omega

/-- FP32 numbers, infinities included, are in the order of their signed units. -/
theorem cmpVal_f32 {x y : Word} (hx : (valOf .f32 x.toNat).isNan = false) (hy : (valOf .f32 y.toNat).isNan = false) :
    cmpVal (valOf .f32 x.toNat) (valOf .f32 y.toNat) = compare (f32Signed x) (f32Signed y) := by
  rw [valOf_f32_isNan, decide_eq_false_iff_not, not_lt] at hx hy
  rcases hx.lt_or_eq with hxf | hxi <;> rcases hy.lt_or_eq with hyf | hyi
  · have hrat : compare (ratOf (valOf .f32 x.toNat)) (ratOf (valOf .f32 y.toNat)) = compare (f32Signed x) (f32Signed y) := by
      rw [ratOf_valOf_f32 hxf, ratOf_valOf_f32 hyf, compare_scaled]
    obtain ⟨m₁, e₁, hx', -⟩ := valOf_f32_finite hxf
    obtain ⟨m₂, e₂, hy', -⟩ := valOf_f32_finite hyf
    rw [← hrat, hx', hy', cmpVal_num]
  · obtain ⟨m, e, hval, -⟩ := valOf_f32_finite hxf
    rw [hval, valOf_f32_inf hyi, f32Signed, f32Signed, hyi, (compare_signedMag _ _ (f32Units_strictMono hxf)).1]
    rfl
  · obtain ⟨m, e, hval, -⟩ := valOf_f32_finite hyf
    rw [hval, valOf_f32_inf hxi, f32Signed, f32Signed, hxi, (compare_signedMag _ _ (f32Units_strictMono hyf)).2]
    rfl
  · have hpos : 0 < f32Units (255 * 2 ^ 23) := (Nat.zero_le _).trans_lt (f32Units_strictMono (show 0 < 255 * 2 ^ 23 by decide))
    rw [valOf_f32_inf hxi, valOf_f32_inf hyi, f32Signed, f32Signed, hxi, hyi]
    generalize f32Units (255 * 2 ^ 23) = p at hpos
    cases x.getLsbD 31 <;> cases y.getLsbD 31
    · simp [cmpVal]
    · exact (compare_gt_iff_gt.2 (by simp [signedMag]; omega)).symm
    · exact (compare_lt_iff_lt.2 (by simp [signedMag]; omega)).symm
    · simp [cmpVal]

theorem sign_valOf_f32 {w : Word} (h : (valOf .f32 w.toNat).isNan = false) : (valOf .f32 w.toNat).sign = w.getLsbD 31 := by
  rw [valOf_f32_isNan, decide_eq_false_iff_not, not_lt] at h
  rcases h.lt_or_eq with hf | hi
  · obtain ⟨m, e, hval, -⟩ := valOf_f32_finite hf
    rw [hval]; rfl
  · rw [valOf_f32_inf hi]; rfl

/-- The place of an FP32 number in the order of minimumNumber and maximumNumber, where −0 stands below +0 (R87). -/
def f32Key (w : Word) : Int := if w.getLsbD 31 then -((w.toNat : Int) - 2 ^ 31) - 1 else w.toNat

theorem f32Key_eq (w : Word) :
    f32Key w = if w.getLsbD 31 then -((w.toNat % 2 ^ 31 : Nat) : Int) - 1 else (w.toNat % 2 ^ 31 : Nat) := by
  have h := toNat_sign_magnitude w
  rw [f32Key]
  split <;> rename_i hs <;> simp only [hs, b2n, if_true, Bool.false_eq_true, if_false] at h <;> omega

/-- A code above another in value is above it in its key. -/
theorem f32Key_lt_of_signed {x y : Word} (h : f32Signed x < f32Signed y) : f32Key x < f32Key y := by
  have hlt := f32Units_strictMono.lt_iff_lt (a := x.toNat % 2 ^ 31) (b := y.toNat % 2 ^ 31)
  have hgt := f32Units_strictMono.lt_iff_lt (a := y.toNat % 2 ^ 31) (b := x.toNat % 2 ^ 31)
  revert h
  rw [f32Key_eq, f32Key_eq, f32Signed, f32Signed]
  cases x.getLsbD 31 <;> cases y.getLsbD 31 <;> simp only [signedMag, Bool.false_eq_true, if_true, if_false] <;> omega

/-- Codes of equal value differ in their sign alone, and −0 has the lower key. -/
theorem compare_f32Key_of_signed_eq {x y : Word} (h : f32Signed x = f32Signed y) :
    compare (f32Key x) (f32Key y) =
      if x.getLsbD 31 && !y.getLsbD 31 then .lt else if !x.getLsbD 31 && y.getLsbD 31 then .gt else .eq := by
  have hinj := f32Units_strictMono.injective.eq_iff (a := x.toNat % 2 ^ 31) (b := y.toNat % 2 ^ 31)
  revert h
  rw [f32Key_eq, f32Key_eq, f32Signed, f32Signed]
  generalize x.toNat % 2 ^ 31 = k at hinj
  generalize y.toNat % 2 ^ 31 = l at hinj
  cases x.getLsbD 31 <;> cases y.getLsbD 31 <;> intro h <;>
    simp only [signedMag, Bool.not_true, Bool.not_false, Bool.and_true, Bool.and_false, Bool.false_eq_true, if_true, if_false] at h ⊢
  · exact compare_eq_iff_eq.2 (by omega)
  · exact compare_gt_iff_gt.2 (by omega)
  · exact compare_lt_iff_lt.2 (by omega)
  · exact compare_eq_iff_eq.2 (by omega)

/-- minimumNumber and maximumNumber order FP32 numbers by their keys. -/
theorem cmpTotal_f32 {x y : Word} (hx : (valOf .f32 x.toNat).isNan = false) (hy : (valOf .f32 y.toNat).isNan = false) :
    cmpTotal (valOf .f32 x.toNat) (valOf .f32 y.toNat) = compare (f32Key x) (f32Key y) := by
  rw [cmpTotal, cmpVal_f32 hx hy, sign_valOf_f32 hx, sign_valOf_f32 hy]
  rcases lt_trichotomy (f32Signed x) (f32Signed y) with h | h | h
  · rw [compare_lt_iff_lt.2 h, compare_lt_iff_lt.2 (f32Key_lt_of_signed h)]
  · rw [compare_eq_iff_eq.2 h, compare_f32Key_of_signed_eq h]
  · rw [compare_gt_iff_gt.2 h, compare_gt_iff_gt.2 (f32Key_lt_of_signed h)]

/-! ### The steps of a reduction (R87) -/

theorem signed_f32_lt (n : Bool) {c : Nat} (h : c < 2 ^ 31) : CvtFmt.signed .f32 n c < 2 ^ 32 := by
  have := Machine.b2n_le n
  simp only [CvtFmt.signed, CvtFmt.width]
  omega

theorem overflowed_f32_lt (rm : Rm) (n : Bool) : (overflowed .f32 rm n).1 < 2 ^ 32 := by
  cases rm <;> cases n <;> decide

/-- A value rounded to FP32 has 32 bits. -/
theorem toFmt_f32_lt (rm : Rm) (v : Val) : (toFmt .f32 rm v).1 < 2 ^ 32 := by
  cases v with
  | nan q => exact (by decide : CvtFmt.nan .f32 < 2 ^ 32)
  | inf n => exact signed_f32_lt n (by decide)
  | num n m e =>
    simp only [toFmt, roundTo, roundFloat]
    split
    · exact signed_f32_lt n (by decide)
    · split
      · exact overflowed_f32_lt rm n
      next h => exact signed_f32_lt n ((not_lt.1 h).trans_lt (by decide))

theorem redStep_addF_toNat {x y : Word} (hx : x.toNat % 2 ^ 31 < 255 * 2 ^ 23) (hy : y.toNat % 2 ^ 31 < 255 * 2 ^ 23) :
    (redStep .addF x y).toNat = (toFmt .f32 .rne (sumVal .rne (valOf .f32 x.toNat) (valOf .f32 y.toNat))).1 := by
  obtain ⟨m₁, e₁, hx', -⟩ := valOf_f32_finite hx
  obtain ⟨m₂, e₂, hy', -⟩ := valOf_f32_finite hy
  rw [redStep, BitVec.toNat_ofNat, hx', hy', faddF_num, Nat.mod_eq_of_lt (toFmt_f32_lt _ _)]

/-- The one negative zero of FP32. -/
theorem valOf_f32_negative_zero {w : Word} :
    ((valOf .f32 w.toNat).isZero = true ∧ (valOf .f32 w.toNat).sign = true) ↔ w = 0x80000000 := by
  constructor
  · rintro ⟨hz, hs⟩
    have hn : (valOf .f32 w.toNat).isNan = false := Bool.eq_false_iff.2 fun h => by simp [Val.plain_of_nan h] at hz
    have hi : (valOf .f32 w.toNat).isInf = false := Bool.eq_false_iff.2 fun h => by
      cases hv : valOf .f32 w.toNat <;> simp [hv, Val.isInf, Val.isZero] at h hz
    obtain ⟨m, e, hval, hunits⟩ := valOf_f32_finite (valOf_f32_finite_iff.1 ⟨hn, hi⟩)
    have hm : m = 0 := by simpa [hval, Val.isZero] using hz
    have hzero : f32Units (w.toNat % 2 ^ 31) = f32Units 0 := by
      rw [hm, Nat.cast_zero, zero_mul, eq_comm, mul_eq_zero_iff_right (by positivity)] at hunits
      exact_mod_cast hunits
    have hbits := toNat_sign_magnitude w
    rw [f32Units_strictMono.injective hzero, ← sign_valOf_f32 hn, hs] at hbits
    exact BitVec.eq_of_toNat_eq hbits
  · rintro rfl
    decide

theorem zeroSumSign_rne (a b : Val) :
    zeroSumSign .rne a b = true ↔ (a.isZero = true ∧ a.sign = true) ∧ (b.isZero = true ∧ b.sign = true) := by
  rw [zeroSumSign, show (Rm.rne == Rm.rdn) = false from rfl]
  cases a.isZero <;> cases b.isZero <;> cases a.sign <;> cases b.sign <;> decide

/-- A step of a sum rounds the exact sum to nearest even; it is −0 when both terms are. -/
theorem redStep_addF (x y : Word) (hx : x.toNat % 2 ^ 31 < 255 * 2 ^ 23) (hy : y.toNat % 2 ^ 31 < 255 * 2 ^ 23) :
    ∃ n m e, ratOf (.num n m e) = ratOf (valOf .f32 x.toNat) + ratOf (valOf .f32 y.toNat) ∧
      (m = 0 → (n = true ↔ x = 0x80000000 ∧ y = 0x80000000)) ∧
      (redStep .addF x y).toNat = (toFmt .f32 .rne (.num n m e)).1 := by
  obtain ⟨m₁, e₁, hx', -⟩ := valOf_f32_finite hx
  obtain ⟨m₂, e₂, hy', -⟩ := valOf_f32_finite hy
  obtain ⟨n, m, e, hsum, hrat, hzero⟩ := sumVal_exact .rne (x.getLsbD 31) (y.getLsbD 31) m₁ m₂ e₁ e₂
  rw [← hx', ← hy'] at hsum hrat hzero
  refine ⟨n, m, e, hsum ▸ hrat, fun hm => ?_, hsum ▸ redStep_addF_toNat hx hy⟩
  rw [hzero hm, zeroSumSign_rne, valOf_f32_negative_zero, valOf_f32_negative_zero]

/-- A step of a maximum or minimum keeps the operand that is a number beside a NaN, and makes two NaNs canonical. -/
theorem redStep_minmax_nan {op : RedOp} (hop : op = .maxF ∨ op = .minF) (x y : Word) :
    ((valOf .f32 x.toNat).isNan = true → (valOf .f32 y.toNat).isNan = false → redStep op x y = y) ∧
    ((valOf .f32 x.toNat).isNan = false → (valOf .f32 y.toNat).isNan = true → redStep op x y = x) ∧
    ((valOf .f32 x.toNat).isNan = true → (valOf .f32 y.toNat).isNan = true → redStep op x y = 0x7FC00000) := by
  have hword (w : Word) : BitVec.ofNat 32 (w.toNat % 2 ^ CvtFmt.width .f32) = w := by
    rw [CvtFmt.width, Nat.mod_eq_of_lt w.isLt, BitVec.ofNat_toNat, BitVec.setWidth_eq]
  obtain ⟨mm, hstep⟩ : ∃ mm : MinMax, redStep op x y = BitVec.ofNat 32 (fminmaxF .f32 mm x.toNat y.toNat).1 := by
    rcases hop with rfl | rfl
    exacts [⟨.max, rfl⟩, ⟨.min, rfl⟩]
  refine ⟨fun hx hy => ?_, fun hx hy => ?_, fun hx hy => ?_⟩ <;>
    simp only [hstep, fminmaxF, hx, hy, Bool.and_true, Bool.and_false, Bool.and_self, Bool.false_eq_true, if_true, if_false, hword]
  rfl

/-- A step of a maximum or minimum of two numbers takes the one whose key is the larger or smaller. -/
theorem redStep_minmax {x y : Word} (hx : (valOf .f32 x.toNat).isNan = false) (hy : (valOf .f32 y.toNat).isNan = false) :
    redStep .maxF x y = (if f32Key x < f32Key y then y else x) ∧ redStep .minF x y = (if f32Key y < f32Key x then y else x) := by
  simp only [redStep, fminmaxF, hx, hy, cmpTotal_f32 hx hy, Bool.false_eq_true, if_false, CvtFmt.width, Bool.and_self, beq_iff_eq,
    compare_lt_iff_lt, compare_gt_iff_gt, Nat.mod_eq_of_lt x.isLt, Nat.mod_eq_of_lt y.isLt]
  constructor <;> split <;> simp

/-! ### The tree of REDT (R87) -/

/-- A level of the tree combines neighbours. -/
theorem redLevel_range (op : RedOp) (n : Nat) (x : Nat → Word) :
    redLevel op ((List.range (2 * n)).map x) = (List.range n).map fun i => redStep op (x (2 * i)) (x (2 * i + 1)) := by
  induction n generalizing x with
  | zero => rfl
  | succ n ih =>
    rw [show 2 * (n + 1) = 2 * n + 1 + 1 by omega, List.range_succ_eq_map, List.range_succ_eq_map, List.range_succ_eq_map (n := n)]
    simp only [List.map_cons, List.map_map, redLevel]
    rw [ih (x ∘ Nat.succ ∘ Nat.succ)]
    rfl

/-- The value at a position of REDT, the identity where the position is inactive. -/
def redAt (op : RedOp) (xs : Vector (Option Word) 16) (i : Nat) : Word := ((xs[i]?).join).getD op.ident

theorem redAt_range (op : RedOp) (xs : Vector (Option Word) 16) :
    xs.toList.map (fun o => o.getD op.ident) = (List.range (2 * 8)).map (redAt op xs) := by
  apply List.ext_getElem
  · simp
  · intro i h _
    have hi : i < 16 := by simpa using h
    simp [redAt, hi]

/-- Settles O18: the tree is four levels of neighbours, and a step is exact addition rounded once, or the order of the keys. -/
theorem reductionOrder : Obligations.ReductionOrder := by
  refine ⟨fun op xs => ⟨fun nbv h => ?_, fun h a r hr => ?_⟩, rfl, rfl, rfl, rfl,
    fun x y => ⟨BitVec.toNat_add x y, fun hx hy hxi hyi => ?_, fun hx hy => ?_, fun op hop => redStep_minmax_nan hop x y⟩⟩
  · have hfix : (nbv == 1 && op != .addI) = false := by rcases h with h | h <;> simp [h]
    rw [redTree, hfix, if_neg Bool.false_ne_true, redAt_range]
    dsimp only
    rw [redLevel_range op 8, redLevel_range op 4, redLevel_range op 2, redLevel_range op 1]
    rfl
  · have hslots : ((1 : Nat) == 1 && op != .addI) = true := by simpa using h
    rw [redTree, hslots, if_pos rfl, hr]
  · exact redStep_addF x y (valOf_f32_finite_iff.1 ⟨hx, hxi⟩) (valOf_f32_finite_iff.1 ⟨hy, hyi⟩)
  · obtain ⟨hmax, hmin⟩ := redStep_minmax hx hy
    rw [hmax, hmin]
    constructor
    · show f32Key _ = max (f32Key x) (f32Key y)
      split <;> omega
    · show f32Key _ = min (f32Key x) (f32Key y)
      split <;> omega

end Sys2Proof

namespace Sys2Proof.Machine

open Sys2Proof.Safety

/-! ### The products of a chunk (R82, R83) -/

/-- floor(log2 |p|) of a product p that is not zero: |p| lies in the binade from 2^top. -/
theorem valTop_binade (n : Bool) {m : Nat} (e : Int) (hm : m ≠ 0) :
    (2 : ℚ) ^ valTop (.num n m e) ≤ |ratOf (.num n m e)| ∧ |ratOf (.num n m e)| < (2 : ℚ) ^ (valTop (.num n m e) + 1) := by
  have hlo : ((2 ^ Nat.log2 m : Nat) : ℚ) ≤ m := Nat.cast_le.2 (Nat.log2_self_le hm)
  have hhi : (m : ℚ) < ((2 ^ (Nat.log2 m + 1) : Nat) : ℚ) := Nat.cast_lt.2 Nat.lt_log2_self
  rw [abs_ratOf_num, valTop, add_right_comm, zpow_add₀ two_ne_zero, zpow_add₀ two_ne_zero, ← Nat.cast_add_one,
    zpow_natCast, zpow_natCast]
  push_cast at hlo hhi
  exact ⟨by gcongr, by gcongr⟩

/-- A product truncated to a multiple of 2^lsb (R83). -/
theorem valAlign_eq (lsb : Int) (n : Bool) (m : Nat) (e : Int) :
    valAlign lsb (.num n m e) =
      (if ratOf (.num n m e) < 0 then -1 else 1) * ⌊|ratOf (.num n m e)| / (2 : ℚ) ^ lsb⌋ := by
  have hfloor : ⌊|ratOf (.num n m e)| / (2 : ℚ) ^ lsb⌋ =
      ((if lsb ≤ e then m * 2 ^ (e - lsb).toNat else m / 2 ^ (lsb - e).toNat : Nat) : Int) := by
    rw [abs_ratOf_num, mul_div_assoc, ← zpow_sub₀ two_ne_zero]
    split
    next h =>
      rw [show e - lsb = ((e - lsb).toNat : Int) by omega, zpow_natCast, Int.toNat_natCast]
      exact_mod_cast Int.floor_natCast (R := ℚ) (m * 2 ^ (e - lsb).toNat)
    next h =>
      rw [show e - lsb = -((lsb - e).toNat : Int) by omega, zpow_neg, zpow_natCast, ← div_eq_mul_inv]
      exact_mod_cast Rat.floor_natCast_div_natCast m (2 ^ (lsb - e).toNat)
  have hneg : ratOf (.num n m e) < 0 ↔ n = true ∧ m ≠ 0 := by
    have hpow : (0 : ℚ) < 2 ^ e := by positivity
    cases n
    · simpa [ratOf] using by positivity
    · simp [ratOf, hpow, Nat.pos_iff_ne_zero]
  rw [hfloor, valAlign]
  generalize hk : (if lsb ≤ e then m * 2 ^ (e - lsb).toNat else m / 2 ^ (lsb - e).toNat) = k
  have hzero : m = 0 → k = 0 := by rintro rfl; simpa using hk.symm
  cases n
  · simp [hneg, signedMag]
  · by_cases hm : m = 0
    · simp [signedMag, hm, hzero hm]
    · simp [hneg, signedMag, hm]

/-- A left fold of maxima is the greatest of its terms. -/
theorem foldl_max_greatest {α : Type} (f : α → Int) (l : List α) (a : α) :
    (∃ q ∈ a :: l, l.foldl (fun m q => max m (f q)) (f a) = f q) ∧
      ∀ q ∈ a :: l, f q ≤ l.foldl (fun m q => max m (f q)) (f a) := by
  induction l generalizing a with
  | nil => simp
  | cons b l ih =>
    rw [List.foldl_cons]
    rcases le_total (f a) (f b) with h | h
    · obtain ⟨⟨q, hq, hmax⟩, hle⟩ := ih b
      rw [max_eq_right h]
      refine ⟨⟨q, List.mem_cons_of_mem a hq, hmax⟩, fun p hp => ?_⟩
      rcases List.mem_cons.1 hp with rfl | hp
      · exact h.trans (hle b List.mem_cons_self)
      · exact hle p hp
    · obtain ⟨⟨q, hq, hmax⟩, hle⟩ := ih a
      rw [max_eq_left h]
      have hsub {p : α} (hp : p ∈ a :: l) : p ∈ a :: b :: l := by
        simp only [List.mem_cons] at hp ⊢
        tauto
      refine ⟨⟨q, hsub hq, hmax⟩, fun p hp => ?_⟩
      simp only [List.mem_cons] at hp
      rcases hp with rfl | rfl | hp
      · exact hle p List.mem_cons_self
      · exact h.trans (hle a List.mem_cons_self)
      · exact hle p (List.mem_cons_of_mem a hp)

/-! ### The sum of a chunk (R83, R84) -/

theorem any_beq_inf (ps : List Val) (b : Bool) : (ps.any fun p => p == .inf b) = decide (.inf b ∈ ps) := by
  rw [Bool.eq_iff_iff]
  simp

/-- The places from the largest product down to the unit of the window: W − 2 − log2(n) (R83, R86). -/
theorem window_places (nbv : Nat) : ((nbvWidth nbv - 2 - Nat.log2 (nbvChunk nbv) : Nat) : Int) =
    (if nbv = 3 then 25 else 22) - 2 - (Nat.log2 (if nbv = 1 then 8 else 16) : Nat) := by
  by_cases h1 : nbv = 1
  · subst h1; decide
  · by_cases h3 : nbv = 3
    · subst h3; decide
    · simp only [nbvWidth, nbvChunk, beq_iff_eq, h1, h3, if_false]
      decide

/-- A NaN, or infinities of both signs. -/
theorem chunkSum_nan (nbv : Nat) {ps : List Val} (h : (∃ p ∈ ps, p.isNan = true) ∨ (.inf true ∈ ps ∧ .inf false ∈ ps)) :
    chunkSum nbv ps = .nan := by
  refine if_pos ?_
  simpa [any_beq_inf, and_comm] using h

/-- Infinities of one sign. -/
theorem chunkSum_inf (nbv : Nat) {ps : List Val} {b : Bool} (hn : ∀ p ∈ ps, p.isNan = false) (hb : .inf b ∈ ps)
    (hnb : .inf (!b) ∉ ps) : chunkSum nbv ps = .inf b := by
  have hnan : ps.any Val.isNan = false := by simpa using hn
  cases b <;> simp only [Bool.not_true, Bool.not_false] at hnb <;> simp [chunkSum, any_beq_inf, hnan, hb, hnb]

section
variable {ps : List Val} (h : ∀ p ∈ ps, p.isNan = false ∧ p.isInf = false)
include h

/-- Without a NaN and an infinity there is no special case. -/
theorem chunk_not_special : ps.any Val.isNan = false ∧ ∀ b, (ps.any fun p => p == .inf b) = false := by
  refine ⟨by simpa using fun p hp => (h p hp).1, fun b => ?_⟩
  rw [any_beq_inf, decide_eq_false_iff_not]
  exact fun hb => absurd (h _ hb).2 (by simp [Val.isInf])

theorem chunkSum_zeros (nbv : Nat) (hz : (ps.filter fun p => !p.isZero) = []) : chunkSum nbv ps = .sum 0 0 := by
  obtain ⟨hnan, hinf⟩ := chunk_not_special h
  simp only [chunkSum, hnan, hinf, hz, Bool.and_self, Bool.or_self, Bool.false_eq_true, if_false]

/-- The products are truncated at a fixed distance below the first of the largest. -/
theorem chunkSum_aligned (nbv : Nat) {p : Val} {r : List Val} (hz : (ps.filter fun p => !p.isZero) = p :: r) :
    let lsb := r.foldl (fun m q => max m (valTop q)) (valTop p) - ((nbvWidth nbv - 2 - Nat.log2 (nbvChunk nbv) : Nat) : Int)
    chunkSum nbv ps = .sum ((ps.map fun q => valAlign lsb q).sum) lsb := by
  obtain ⟨hnan, hinf⟩ := chunk_not_special h
  simp only [chunkSum, hnan, hinf, hz, Bool.and_self, Bool.or_self, Bool.false_eq_true, if_false]

/-- A chunk of numbers that are not all zero: the largest lies in the binade from 2^top, and each is truncated to 2^lsb. -/
theorem chunkSum_finite (nbv : Nat) (hne : ∃ p ∈ ps, ratOf p ≠ 0) :
    ∃ top lsb : Int, lsb = top - ((nbvWidth nbv - 2 - Nat.log2 (nbvChunk nbv) : Nat) : Int) ∧
      (∃ p ∈ ps, (2 : ℚ) ^ top ≤ |ratOf p|) ∧ (∀ p ∈ ps, |ratOf p| < (2 : ℚ) ^ (top + 1)) ∧
      chunkSum nbv ps = .sum (ps.map fun p => (if ratOf p < 0 then -1 else 1) * ⌊|ratOf p| / (2 : ℚ) ^ lsb⌋).sum lsb := by
  have hnum {p : Val} (hp : p ∈ ps) : ∃ n m e, p = .num n m e := Val.exists_num (h p hp).1 (h p hp).2
  cases hz : ps.filter fun p => !p.isZero with
  | nil =>
    obtain ⟨p, hp, hp0⟩ := hne
    obtain ⟨n, m, e, rfl⟩ := hnum hp
    have hm : m ≠ 0 := fun hm => hp0 (ratOf_num_eq_zero.2 hm)
    exact absurd (List.filter_eq_nil_iff.1 hz _ hp) (by simpa [Val.isZero] using hm)
  | cons p r =>
    have hmem {q : Val} : q ∈ p :: r ↔ q ∈ ps ∧ q.isZero = false := by rw [← hz]; simp
    obtain ⟨⟨q, hq, hqtop⟩, hle⟩ := foldl_max_greatest valTop r p
    refine ⟨r.foldl (fun m q => max m (valTop q)) (valTop p), _, rfl, ⟨q, (hmem.1 hq).1, ?_⟩, fun q hq => ?_, ?_⟩
    · obtain ⟨hqps, hq0⟩ := hmem.1 hq
      obtain ⟨n, m, e, rfl⟩ := hnum hqps
      rw [hqtop]
      exact (valTop_binade n e (by simpa [Val.isZero] using hq0)).1
    · obtain ⟨n, m, e, rfl⟩ := hnum hq
      by_cases hm : m = 0
      · rw [ratOf_num_eq_zero.2 hm, abs_zero]
        positivity
      · refine (valTop_binade n e hm).2.trans_le (zpow_le_zpow_right₀ one_le_two ?_)
        exact Int.add_le_add_right (hle _ (hmem.2 ⟨hq, by simpa [Val.isZero] using hm⟩)) 1
    · rw [chunkSum_aligned h nbv hz]
      congr 2
      refine List.map_congr_left fun q hq => ?_
      obtain ⟨n, m, e, rfl⟩ := hnum hq
      exact valAlign_eq _ n m e

end

/-! ### The accumulator (R83, R84) -/

/-- A finite chunk leaves an accumulator that is special, and a zero sum leaves any (R84). -/
theorem accumulate_unchanged {acc : Word} {x : Int} (scale : Option Int) (lsb : Int)
    (h : (valOf .f32 acc.toNat).isNan = true ∨ (valOf .f32 acc.toNat).isInf = true ∨ x = 0) :
    accumulate acc scale (.sum x lsb) = acc := by
  refine if_pos ?_
  simp only [Bool.or_eq_true, beq_iff_eq]
  tauto

/-- A chunk's sum is added to a finite accumulator exactly, and rounded once. -/
theorem accumulate_sum {acc : Word} {x : Int} (lsb : Int) (hn : (valOf .f32 acc.toNat).isNan = false)
    (hi : (valOf .f32 acc.toNat).isInf = false) (hx : x ≠ 0) :
    ∃ v : Val, ratOf v = ratOf (valOf .f32 acc.toNat) + x * (2 : ℚ) ^ lsb ∧ v.isNan = false ∧ v.isInf = false ∧
      accumulate acc none (.sum x lsb) = BitVec.ofNat 32 (toFmt .f32 .rne v).1 := by
  obtain ⟨n, m, e, hacc⟩ := Val.exists_num hn hi
  obtain ⟨n', m', e', hsum, hrat, -⟩ := sumVal_exact .rne n (decide (x < 0)) m x.natAbs e lsb
  have hsigned : ratOf (.num (decide (x < 0)) x.natAbs lsb) = x * (2 : ℚ) ^ lsb := by
    rw [ratOf_num, signedMag_natAbs]
  refine ⟨_, by rw [hacc, ← hsigned, ← hrat, hsum], rfl, rfl, ?_⟩
  rw [← hsum, ← hacc]
  refine if_neg ?_
  simp [hx, hn, hi]

/-- Settles O38: a chunk is special, or its products are truncated below the largest, and its sum is rounded once. -/
theorem matrixSums : Obligations.MatrixSums := by
  refine ⟨?_, fun acc x lsb h => accumulate_unchanged none lsb h, fun acc x lsb hn hi hx => accumulate_sum lsb hn hi hx⟩
  intro nbv ps hnbv n w
  refine ⟨chunkSum_nan nbv, fun b hn hb hnb => chunkSum_inf nbv hn hb hnb, fun h hne => ?_, fun h => ?_⟩
  · obtain ⟨top, lsb, hlsb, hlo, hhi, hsum⟩ := chunkSum_finite h nbv hne
    refine ⟨top, lsb, _, hsum, by rw [hlsb, window_places], hlo, hhi, rfl⟩
  · refine chunkSum_zeros (fun p hp => (h p hp).imp_right And.left) nbv (List.filter_eq_nil_iff.2 fun p hp => ?_)
    obtain ⟨hn, hi, hz⟩ := h p hp
    obtain ⟨n, m, e, rfl⟩ := Val.exists_num hn hi
    simpa [Val.isZero] using ratOf_num_eq_zero.1 hz

end Sys2Proof.Machine

namespace Sys2Proof.Machine

/-! ### Words read as integers (R3, R6) -/

theorem toInt_modEq_toNat (x : Word) : x.toInt ≡ x.toNat [ZMOD 2 ^ 32] := by
  rw [BitVec.toInt_eq_toNat_bmod]
  exact Int.bmod_emod

theorem cast_toNat_ofInt (i : Int) : ((BitVec.ofInt 32 i).toNat : Int) = i % 2 ^ 32 := by
  rw [BitVec.toNat_ofInt]
  exact Int.toNat_of_nonneg (Int.emod_nonneg _ (by decide))

theorem toNat_ofInt_of_modEq {i : Int} {n : Nat} (h : i ≡ n [ZMOD 2 ^ 32]) : (BitVec.ofInt 32 i).toNat = n % 2 ^ 32 := by
  have := (cast_toNat_ofInt i).trans h
  omega

theorem toInt_ofInt_of_bounds {i : Int} (h : -2 ^ 31 ≤ i) (h' : i < 2 ^ 31) : (BitVec.ofInt 32 i).toInt = i :=
  BitVec.toInt_ofInt_eq_self (by decide) h h'

theorem toInt_bounds (x : Word) : -2 ^ 31 ≤ x.toInt ∧ x.toInt < 2 ^ 31 := ⟨x.le_toInt, BitVec.toInt_lt⟩

/-! ### Sums, differences and products (R98) -/

theorem toInt_satI32 (i : Int) : (satI32 i).toInt = max (-(2 ^ 31)) (min (2 ^ 31 - 1) i) :=
  toInt_ofInt_of_bounds (by omega) (by omega)

theorem cast_toNat_satN32 (i : Int) : ((satN32 i).toNat : Int) = max 0 (min (2 ^ 32 - 1) i) := by
  rw [satN32, cast_toNat_ofInt]
  omega

theorem toNat_wrapAdd (x y : Word) : (satOp .wrap (fun x y _ => x + y) x y 0).toNat = (x.toNat + y.toNat) % 2 ^ 32 :=
  toNat_ofInt_of_modEq <| by
    push_cast
    exact (toInt_modEq_toNat x).add (toInt_modEq_toNat y)

theorem toNat_wrapSub (x y : Word) :
    ((satOp .wrap (fun x y _ => x - y) x y 0).toNat : Int) = ((x.toNat : Int) - y.toNat) % 2 ^ 32 :=
  (cast_toNat_ofInt _).trans ((toInt_modEq_toNat x).sub (toInt_modEq_toNat y))

theorem toNat_wrapMulAdd (x y z : Word) :
    (satOp .wrap (fun x y z => x * y + z) x y z).toNat = (x.toNat * y.toNat + z.toNat) % 2 ^ 32 :=
  toNat_ofInt_of_modEq <| by
    push_cast
    exact ((toInt_modEq_toNat x).mul (toInt_modEq_toNat y)).add (toInt_modEq_toNat z)

/-- The high half of a signed product is that of the exact product, rounded down (R98). -/
theorem toInt_mulOp_hiI (x y : Word) : (mulOp .hiI x y).toInt = x.toInt * y.toInt / 2 ^ 32 := by
  have hle : |x.toInt * y.toInt| ≤ 2 ^ 31 * 2 ^ 31 := by
    rw [abs_mul]
    have bound (w : Word) : |w.toInt| ≤ 2 ^ 31 := abs_le.2 ⟨(toInt_bounds w).1, (toInt_bounds w).2.le⟩
    exact mul_le_mul (bound x) (bound y) (abs_nonneg _) (by norm_num)
  have hp := abs_le.1 hle
  exact toInt_ofInt_of_bounds (by omega) (by omega)

theorem toNat_mulOp_hiN (x y : Word) : (mulOp .hiN x y).toNat = x.toNat * y.toNat / 2 ^ 32 := by
  have hlt : x.toNat * y.toNat < 2 ^ 32 * 2 ^ 32 := Nat.mul_lt_mul'' x.isLt y.isLt
  exact Nat.mod_eq_of_lt (Nat.div_lt_of_lt_mul hlt)

/-! ### Minima, maxima and magnitudes (R98) -/

theorem toInt_minMaxOp_minI (x y : Word) : (minMaxOp .minI x y).toInt = min x.toInt y.toInt := by
  simp only [minMaxOp, BitVec.slt_iff_toInt_lt]
  split <;> omega

theorem toInt_minMaxOp_maxI (x y : Word) : (minMaxOp .maxI x y).toInt = max x.toInt y.toInt := by
  simp only [minMaxOp, BitVec.slt_iff_toInt_lt]
  split <;> omega

theorem toNat_minMaxOp_minN (x y : Word) : (minMaxOp .minN x y).toNat = min x.toNat y.toNat := by
  simp only [minMaxOp, BitVec.ult_iff_lt, BitVec.lt_def]
  split <;> omega

theorem toNat_minMaxOp_maxN (x y : Word) : (minMaxOp .maxN x y).toNat = max x.toNat y.toNat := by
  simp only [minMaxOp, BitVec.ult_iff_lt, BitVec.lt_def]
  split <;> omega

theorem toNat_absOp_abs (x : Word) : (absOp .abs x).toNat = x.toInt.natAbs % 2 ^ 32 := by
  have hx := x.isLt
  have hsign : x.slt 0 = true ↔ x.toInt < 0 := by simp [BitVec.slt_iff_toInt_lt]
  simp only [absOp, hsign]
  have hcond := x.toInt_eq_toNat_cond
  split
  · rw [BitVec.toNat_neg]
    omega
  · omega

theorem cast_toNat_neg (x : Word) : ((-x).toNat : Int) = -x.toInt % 2 ^ 32 := by
  rw [(toInt_modEq_toNat x).neg, BitVec.toNat_neg]
  have := x.isLt
  omega

theorem toNat_absOp_absSat (x : Word) : (absOp .absSat x).toNat = min x.toInt.natAbs (2 ^ 31 - 1) := by
  have hmag : (if x.toInt < 0 then -x.toInt else x.toInt) = x.toInt.natAbs := by omega
  have hsat : (absOp .absSat x).toInt = (min x.toInt.natAbs (2 ^ 31 - 1) : Nat) := by
    rw [absOp, hmag, toInt_satI32]
    omega
  have := (absOp .absSat x).toInt_eq_toNat_cond
  omega

/-! ### Bits (R98) -/

theorem upTo_eq_range (n : Nat) : upTo n = List.range n := by
  induction n with
  | zero => rfl
  | succ n ih => rw [upTo, ih, List.range_succ]

/-- A fold that sets, of the bits of a list, those that satisfy `p`. -/
theorem getLsbD_foldl_or_twoPow {w : Nat} (p : Nat → Bool) (l : List Nat) (x : BitVec w) {j : Nat} (hj : j < w) :
    (l.foldl (fun x i => if p i then x ||| BitVec.ofNat w (2 ^ i) else x) x).getLsbD j =
      (x.getLsbD j || (decide (j ∈ l) && p j)) := by
  induction l generalizing x with
  | nil => simp
  | cons i l ih =>
    have hstep : (if p i then x ||| BitVec.ofNat w (2 ^ i) else x).getLsbD j = (x.getLsbD j || (decide (j = i) && p j)) := by
      split
      next h =>
        rw [getLsbD_or_twoPow x i hj]
        by_cases hji : j = i <;> simp [hji, h]
      next h => by_cases hji : j = i <;> simp [hji, h]
    rw [List.foldl_cons, ih, hstep]
    simp [Bool.and_or_distrib_right, Bool.or_assoc]

theorem getLsbD_not_word (x : Word) {j : Nat} (hj : j < 32) : (~~~x).getLsbD j = !x.getLsbD j := by
  rw [BitVec.getLsbD_not, decide_eq_true hj, Bool.true_and]

theorem getLsbD_logicFn_andn (x y : Word) {j : Nat} (hj : j < 32) :
    (logicFn .andn x y).getLsbD j = (x.getLsbD j && !y.getLsbD j) := by
  rw [logicFn, BitVec.getLsbD_and, getLsbD_not_word y hj]

theorem getLsbD_brevOf (x : Word) {j : Nat} (hj : j < 32) : (brevOf x).getLsbD j = x.getLsbD (31 - j) := by
  rw [brevOf, getLsbD_foldl_or_twoPow (fun i => x.getLsbD (31 - i)) _ _ hj]
  simp [mem_upTo, hj]

theorem toNat_bitFn_popc (x : Word) : (bitFn .popc x).toNat = ((List.range 32).filter fun j => x.getLsbD j).length := by
  have hle : ((List.range 32).filter fun j => x.getLsbD j).length ≤ 32 := by
    simpa using List.length_filter_le (fun j => x.getLsbD j) (List.range 32)
  rw [bitFn, popcount, upTo_eq_range, BitVec.toNat_ofNat]
  exact Nat.mod_eq_of_lt (by omega)

/-- A word whose bits from n on are clear. -/
theorem toNat_lt_of_high_bits {x : Word} {n : Nat} (h : ∀ i, n ≤ i → i < 32 → x.getLsbD i = false) : x.toNat < 2 ^ n := by
  refine Nat.lt_pow_two_of_testBit _ fun i hi => ?_
  rw [BitVec.testBit_toNat]
  by_cases h32 : i < 32
  · exact h i hi h32
  · exact BitVec.getLsbD_of_ge x i (by omega)

theorem clzOf_bounds (x : Word) :
    clzOf x ≤ 32 ∧ x.toNat < 2 ^ (32 - clzOf x) ∧ (clzOf x < 32 → 2 ^ (31 - clzOf x) ≤ x.toNat) := by
  unfold clzOf
  rw [upTo_eq_range]
  cases e : (List.range 32).find? fun i => x.getLsbD (31 - i) with
  | none =>
    have hzero : ∀ i, i < 32 → x.getLsbD (31 - i) = false := by simpa using e
    refine ⟨le_rfl, toNat_lt_of_high_bits fun i _ hi => ?_, fun h => absurd h (lt_irrefl _)⟩
    have := hzero (31 - i) (by omega)
    rwa [show 31 - (31 - i) = i by omega] at this
  | some n =>
    obtain ⟨hn, hlt, hfirst⟩ := List.find?_range_eq_some.1 e
    have hlt : n < 32 := by simpa using hlt
    refine ⟨hlt.le, toNat_lt_of_high_bits fun i hi h32 => ?_, fun _ => Nat.ge_two_pow_of_testBit ?_⟩
    · have := hfirst (31 - i) (by simp only [Option.getD_some] at hi; omega)
      rw [show 31 - (31 - i) = i by omega] at this
      simpa using this
    · rw [BitVec.testBit_toNat]
      exact hn

/-- The leading zeros of a word lie above its highest 1 (R98). -/
theorem toNat_bitFn_clz_bounds (x : Word) :
    (bitFn .clz x).toNat ≤ 32 ∧ x.toNat < 2 ^ (32 - (bitFn .clz x).toNat) ∧
      ((bitFn .clz x).toNat < 32 → 2 ^ (31 - (bitFn .clz x).toNat) ≤ x.toNat) := by
  have hclz : (bitFn .clz x).toNat = clzOf x := Nat.mod_eq_of_lt (by have := (clzOf_bounds x).1; omega)
  rw [hclz]
  exact clzOf_bounds x

/-! ### Shifts (R98) -/

theorem toNat_shiftFn_shl (x : Word) (n : Nat) : (shiftFn .shl x n).toNat = x.toNat * 2 ^ (n % 32) % 2 ^ 32 := by
  rw [shiftFn, BitVec.toNat_shiftLeft, Nat.shiftLeft_eq]

theorem toNat_shiftFn_shr (x : Word) (n : Nat) : (shiftFn .shr x n).toNat = x.toNat / 2 ^ (n % 32) := by
  rw [shiftFn, BitVec.toNat_ushiftRight, Nat.shiftRight_eq_div_pow]

theorem toInt_shiftFn_sar (x : Word) (n : Nat) : (shiftFn .sar x n).toInt = x.toInt / 2 ^ (n % 32) := by
  rw [shiftFn, BitVec.toInt_sshiftRight, Int.shiftRight_eq_div_pow]
  norm_cast

/-- A rotation moves bit j to bit j + n, modulo 32. -/
theorem getLsbD_shiftFn_rotl (x : Word) (n : Nat) {j : Nat} (hj : j < 32) :
    (shiftFn .rotl x n).getLsbD ((j + n) % 32) = x.getLsbD j := by
  rw [shiftFn, BitVec.getLsbD_rotateLeft]
  by_cases h : (j + n) % 32 < n % 32 % 32
  · simp only [h, decide_true, cond_true]
    congr 1
    omega
  · have hlt : (j + n) % 32 < 32 := Nat.mod_lt _ (by decide)
    simp only [h, hlt, decide_true, decide_false, cond_false, Bool.true_and]
    congr 1
    omega

end Sys2Proof.Machine

namespace Sys2Proof.Machine

/-! ### Bit fields (R99) -/

theorem testBit_bitsOf (x lo n j : Nat) : (bitsOf x lo n).testBit j = (decide (j < n) && x.testBit (lo + j)) := by
  rw [bitsOf, Nat.testBit_mod_two_pow, Nat.testBit_div_two_pow, Nat.add_comm]

theorem fieldPos_eq (y : Word) : fieldPos y = y.toNat % 32 := by simp [fieldPos, bitsOf]

theorem fieldLen_eq (y : Word) : fieldLen y = min (y.toNat / 2 ^ 8 % 64) 32 := rfl

theorem getLsbD_bfeFn_nat (x y : Word) {j : Nat} (hj : j < 32) :
    (bfeFn .nat x y).getLsbD j = (decide (j < fieldLen y) && x.getLsbD (fieldPos y + j)) := by
  by_cases h : fieldLen y = 0
  · simp [bfeFn, h]
  · have hfield : bfeFn .nat x y = BitVec.ofNat 32 (bitsOf x.toNat (fieldPos y) (fieldLen y)) := by simp [bfeFn, h]
    rw [hfield, BitVec.getLsbD_ofNat, decide_eq_true hj, Bool.true_and, testBit_bitsOf, BitVec.testBit_toNat]

/-- A word extended to 64 bits repeats its sign bit (R6). -/
theorem testBit_sext64 (x : Word) {i : Nat} (hi : i < 64) : (sext64 x).toNat.testBit i = x.getLsbD (min i 31) := by
  rw [BitVec.testBit_toNat]
  show (x.signExtend 64).getLsbD i = _
  rw [BitVec.getLsbD_signExtend, decide_eq_true hi, Bool.true_and]
  split
  next h => rw [Nat.min_eq_left (by omega)]
  next h => rw [Nat.min_eq_right (by omega)]; rfl

/-- A field read as a signed number is that of its low bits. -/
theorem toSigned_eq_toInt {n : Nat} (hn : 0 < n) (x : Nat) : toSigned n x = (BitVec.ofNat n x).toInt := by
  have hpow : 2 ^ n = 2 * 2 ^ (n - 1) := by rw [← Nat.pow_succ']; congr 1; omega
  rw [toSigned, BitVec.toInt_eq_toNat_cond, BitVec.toNat_ofNat]
  split <;> split <;> omega

/-- A signed field repeats its highest bit. -/
theorem getLsbD_ofInt_toSigned {n j : Nat} (hn : 0 < n) (hj : j < 32) (x : Nat) :
    (BitVec.ofInt 32 (toSigned n x)).getLsbD j = x.testBit (min j (n - 1)) := by
  rw [toSigned_eq_toInt hn]
  show ((BitVec.ofNat n x).signExtend 32).getLsbD j = _
  rw [BitVec.getLsbD_signExtend, decide_eq_true hj, Bool.true_and]
  split
  next h => rw [BitVec.getLsbD_ofNat, decide_eq_true h, Bool.true_and, Nat.min_eq_left (by omega)]
  next h =>
    rw [BitVec.msb_eq_getLsbD_last, BitVec.getLsbD_ofNat, decide_eq_true (by omega : n - 1 < n), Bool.true_and,
      Nat.min_eq_right (by omega)]

theorem getLsbD_bfeFn_int (x y : Word) {j : Nat} (hj : j < 32) :
    (bfeFn .int x y).getLsbD j =
      (decide (0 < fieldLen y) && x.getLsbD (min (fieldPos y + min j (fieldLen y - 1)) 31)) := by
  have hpos : fieldPos y < 32 := Nat.mod_lt _ (by decide)
  have hlen : fieldLen y ≤ 32 := Nat.min_le_right _ _
  by_cases h : fieldLen y = 0
  · simp [bfeFn, h]
  · have hfield : bfeFn .int x y =
        BitVec.ofInt 32 (toSigned (fieldLen y) (bitsOf (sext64 x).toNat (fieldPos y) (fieldLen y))) := by simp [bfeFn, h]
    rw [hfield, getLsbD_ofInt_toSigned (by omega) hj, testBit_bitsOf, testBit_sext64 x (by omega),
      decide_eq_true (by omega : min j (fieldLen y - 1) < fieldLen y), decide_eq_true (by omega : 0 < fieldLen y)]

/-- The bits of a field of n bits at `pos`, put one after the other. -/
theorem getLsbD_insertBits (old x : Word) (pos n : Nat) {j : Nat} (hj : j < 32) :
    ((upTo n).foldl (fun w i =>
      if pos + i ≤ 31 then
        if x.getLsbD i then w ||| BitVec.ofNat 32 (2 ^ (pos + i)) else w &&& ~~~(BitVec.ofNat 32 (2 ^ (pos + i)))
      else w) old).getLsbD j = if pos ≤ j ∧ j < pos + n then x.getLsbD (j - pos) else old.getLsbD j := by
  induction n with
  | zero => rw [if_neg (by omega)]; rfl
  | succ n ih =>
    rw [upTo, List.foldl_append, List.foldl_cons, List.foldl_nil]
    by_cases h : j = pos + n
    · subst h
      have hin : pos ≤ pos + n ∧ pos + n < pos + (n + 1) := by omega
      rw [if_pos (by omega : pos + n ≤ 31), if_pos hin, Nat.add_sub_cancel_left]
      split
      next hb => rw [getLsbD_or_twoPow _ _ hj, hb, decide_eq_true rfl, Bool.or_true]
      next hb => rw [getLsbD_andNot_twoPow _ _ hj, decide_eq_false (by simp), Bool.and_false, Bool.eq_false_iff.2 hb]
    · have hiff : (pos ≤ j ∧ j < pos + n) ↔ pos ≤ j ∧ j < pos + (n + 1) := by omega
      rw [← if_congr hiff rfl rfl, ← ih]
      split
      · split
        · rw [getLsbD_or_twoPow _ _ hj, decide_eq_false h, Bool.or_false]
        · rw [getLsbD_andNot_twoPow _ _ hj, decide_eq_true h, Bool.and_true]
      · rfl

theorem getLsbD_bfiFn (old x y : Word) {j : Nat} (hj : j < 32) :
    (bfiFn old x y).getLsbD j =
      if fieldPos y ≤ j ∧ j < fieldPos y + fieldLen y then x.getLsbD (j - fieldPos y) else old.getLsbD j :=
  getLsbD_insertBits old x (fieldPos y) (fieldLen y) hj

/-! ### Immediates (R49, R100) -/

theorem toInt_simm (i : BitVec 12) : (simm i).toInt = i.toInt := BitVec.toInt_signExtend_of_le (by decide)

theorem simm_modEq_toInt (i : BitVec 12) : ((simm i).toNat : Int) ≡ i.toInt [ZMOD 2 ^ 32] := by
  rw [← toInt_simm]
  exact (toInt_modEq_toNat (simm i)).symm

theorem cast_toNat_add_simm (x : Word) (i : BitVec 12) : ((x + simm i).toNat : Int) = (x.toNat + i.toInt) % 2 ^ 32 := by
  rw [BitVec.toNat_add]
  push_cast
  exact (simm_modEq_toInt i).add_left _

theorem cast_toNat_mul_simm (x : Word) (i : BitVec 12) : ((x * simm i).toNat : Int) = (x.toNat * i.toInt) % 2 ^ 32 := by
  rw [BitVec.toNat_mul]
  push_cast
  exact (simm_modEq_toInt i).mul_left _

theorem toNat_zimm (i : BitVec 12) : (zimm i).toNat = i.toNat := by
  have := i.isLt
  rw [zimm, BitVec.zeroExtend_eq_setWidth, BitVec.toNat_setWidth]
  exact Nat.mod_eq_of_lt (by omega)

theorem getLsbD_zimm (i : BitVec 12) {j : Nat} (hj : j < 32) : (zimm i).getLsbD j = i.getLsbD j := by
  simp [zimm, hj]

/-! ### 64-bit addresses (R6, R101) -/

theorem cast_toNat_ofInt64 (i : Int) : ((BitVec.ofInt 64 i).toNat : Int) = i % 2 ^ 64 := by
  rw [BitVec.toNat_ofInt]
  exact Int.toNat_of_nonneg (Int.emod_nonneg _ (by decide))

theorem cast_toNat_sub64 (x y : DWord) : ((x - y).toNat : Int) = ((x.toNat : Int) - y.toNat) % 2 ^ 64 := by
  have hx := x.isLt
  have hy := y.isLt
  rw [BitVec.toNat_sub]
  omega

/-- An address and a signed number, modulo 2^64. -/
theorem cast_toNat_add_ofInt (x : DWord) (i : Int) : ((x + BitVec.ofInt 64 i).toNat : Int) = (x.toNat + i) % 2 ^ 64 := by
  rw [BitVec.toNat_add]
  push_cast
  rw [cast_toNat_ofInt64]
  exact Int.add_emod_emod ..

/-- An address and a scaled word, modulo 2^64. -/
theorem toNat_add_zext_shift (x : DWord) (y : Word) (n : Nat) :
    (x + zext64 y <<< n).toNat = (x.toNat + y.toNat * 2 ^ n) % 2 ^ 64 := by
  have hy : y.toNat % 2 ^ 64 = y.toNat := Nat.mod_eq_of_lt (by have := y.isLt; omega)
  rw [BitVec.toNat_add, BitVec.toNat_shiftLeft, Nat.shiftLeft_eq, zext64, BitVec.toNat_ofNat, hy, Nat.add_mod_mod]

theorem loOf_eq (x : DWord) : loOf x = x.setWidth 32 := BitVec.ofNat_toNat 32 x

theorem hiOf_eq (x : DWord) : hiOf x = (x >>> 32).setWidth 32 := by
  rw [← BitVec.ofNat_toNat, BitVec.toNat_ushiftRight, Nat.shiftRight_eq_div_pow, hiOf]

end Sys2Proof.Machine

namespace Sys2Proof.Machine

open Sys2Proof.Safety

/-! ### Words that compute one result from the registers of the slot that they read (R44, R93) -/

/-- A result without a random state changes a slot as `apply` says, the slot that was read like the others. -/
theorem TRes.into_of_noRng {r : TRes} (h : r.rng = none) (own : Bool) (t : Thread) : r.into own t = r.apply t := by
  cases own <;> simp [TRes.into, TRes.applyRng, h]

theorem Conds.enabled_none (arithen : BitVec 5) : Conds.none.enabled arithen = 0 := by
  simp [Conds.enabled, Conds.bits, Conds.none, b2n]

section
variable {i : Instr} {gd : Guard} {len : Nat} {reads writes : List Nat} {F : Thread → TRes}

/-- A word whose result rests on the registers that it reads completes when its registers are ready and it raises no enabled
condition. -/
theorem threadDone_of_exec (hexec : ∀ s, exec i s = issue s true fun x => threadWord x gd len reads writes fun _ _ t => F t)
    (hrng : ∀ t, (F t).rng = none) {s : State} {is : Issuer} {g : Group} {f : Frag} (hi : Issues s is g f)
    (hr : Ready g f gd reads writes)
    (hc : ∀ slot, slot < 16 → runsIn g f gd slot = true → source f slot = slot →
      (F (g.thread slot)).conds.enabled g.arithen = 0) :
    ThreadDone i s is g f gd len fun slot old new => new = (F (g.thread (source f slot))).apply old := by
  obtain ⟨t, g', hword, hg', hthreads, hframe, honly⟩ := threadWord_ready hi.group hr len (fun _ _ t => F t)
    fun slot h hrun hsrc _ => hc slot h hrun hsrc
  refine ⟨t, g', by rw [hexec, issue_inWave hi, hword], hg', fun slot h => ?_, hframe, honly⟩
  rw [hthreads slot h, TRes.into_of_noRng (hrng _)]
  cases runsIn g f gd slot <;> rfl

theorem threadDone_imp {s : State} {is : Issuer} {g : Group} {f : Frag} {R R' : Nat → Thread → Thread → Prop}
    (hR : ∀ slot old new, R slot old new → R' slot old new) (h : ThreadDone i s is g f gd len R) :
    ThreadDone i s is g f gd len R' := by
  obtain ⟨t, g', hexec, hg', hthreads, hframe, honly⟩ := h
  refine ⟨t, g', hexec, hg', fun slot hs => ?_, hframe, honly⟩
  have hslot := hthreads slot hs
  cases hrun : runsIn g f gd slot with
  | false => simpa only [hrun, Bool.false_eq_true, if_false] using hslot
  | true => exact hR _ _ _ (by simpa only [hrun, if_true] using hslot)

end

section
variable {i : Instr} {gd : Guard} {len : Nat} {reads : List Nat}

/-- A word that writes v d. -/
theorem threadWord_writesV {d : VReg} {F : Thread → Word}
    (hexec : ∀ s, exec i s = issue s true fun x => threadWord x gd len reads [d.toNat] fun _ _ t => .val d (F t))
    {P : Thread → Word → Prop} (hP : ∀ t, P t (F t)) :
    ThreadWord i gd len reads [d.toNat] fun g f slot old new => WritesV g f d P slot old new := fun _ _ _ _ hi hr =>
  threadDone_imp (fun _ _ _ h => ⟨_, h, hP _⟩)
    (threadDone_of_exec hexec (fun _ => rfl) hi hr fun _ _ _ _ => Conds.enabled_none _)

/-- A word that writes the pair v d, v d + 1. -/
theorem threadWord_writesPair {d : VReg} {F : Thread → DWord}
    (hexec : ∀ s, exec i s = issue s true fun x => threadWord x gd len reads (regsFrom d.toNat 2) fun _ _ t => .val64 d (F t))
    {P : Thread → DWord → Prop} (hP : ∀ t, P t (F t)) :
    ThreadWord i gd len reads [d.toNat, d.toNat + 1] fun g f slot old new => WritesPair g f d P slot old new :=
  fun s is g f hi hr =>
    threadDone_imp (fun slot _ _ h => ⟨F (g.thread (source f slot)), by rw [h, ← loOf_eq, ← hiOf_eq]; rfl, hP _⟩)
      (threadDone_of_exec hexec (fun _ => rfl) hi hr fun _ _ _ _ => Conds.enabled_none _)

/-- A word that writes the predicate p. -/
theorem threadWord_writesP {p : PReg} {F : Thread → Bool}
    (hexec : ∀ s, exec i s = issue s true fun x => threadWord x gd len reads [] fun _ _ t => .pred p (F t))
    {P : Thread → Bool → Prop} (hP : ∀ t, P t (F t)) :
    ThreadWord i gd len reads [] fun g f slot old new => WritesP g f p P slot old new := fun _ _ _ _ hi hr =>
  threadDone_imp (fun _ _ _ h => ⟨_, h, hP _⟩)
    (threadDone_of_exec hexec (fun _ => rfl) hi hr fun _ _ _ _ => Conds.enabled_none _)

end

/-! ### The integer words (R98) -/

/-- Settles O7, result by result: each word is its value function on the registers that it reads. -/
theorem integerWords : Obligations.IntegerWords := by
  intro d a b gd V U M satI satN
  refine ⟨threadWord_writesV (fun _ => rfl) fun t => toNat_wrapAdd _ _,
    threadWord_writesV (fun _ => rfl) fun t => toInt_satI32 _,
    threadWord_writesV (fun _ => rfl) fun t => cast_toNat_satN32 _,
    threadWord_writesV (fun _ => rfl) fun t => toNat_wrapSub _ _,
    threadWord_writesV (fun _ => rfl) fun t => toInt_satI32 _,
    threadWord_writesV (fun _ => rfl) fun t => cast_toNat_satN32 _,
    threadWord_writesV (fun _ => rfl) fun t => BitVec.toNat_mul _ _,
    threadWord_writesV (fun _ => rfl) fun t => toInt_mulOp_hiI _ _,
    threadWord_writesV (fun _ => rfl) fun t => toNat_mulOp_hiN _ _,
    threadWord_writesV (fun _ => rfl) fun t => toNat_wrapMulAdd _ _ _,
    threadWord_writesV (fun _ => rfl) fun t => toInt_satI32 _,
    threadWord_writesV (fun _ => rfl) fun t => cast_toNat_satN32 _,
    threadWord_writesV (fun _ => rfl) fun t => toInt_minMaxOp_minI _ _,
    threadWord_writesV (fun _ => rfl) fun t => toInt_minMaxOp_maxI _ _,
    threadWord_writesV (fun _ => rfl) fun t => toNat_minMaxOp_minN _ _,
    threadWord_writesV (fun _ => rfl) fun t => toNat_minMaxOp_maxN _ _,
    threadWord_writesV (fun _ => rfl) fun t => toNat_absOp_abs _,
    threadWord_writesV (fun _ => rfl) fun t => cast_toNat_neg _,
    threadWord_writesV (fun _ => rfl) fun t => toNat_absOp_absSat _,
    threadWord_writesV (fun _ => rfl) fun t j _ => BitVec.getLsbD_and,
    threadWord_writesV (fun _ => rfl) fun t j _ => BitVec.getLsbD_or,
    threadWord_writesV (fun _ => rfl) fun t j _ => BitVec.getLsbD_xor,
    threadWord_writesV (fun _ => rfl) fun t j h => getLsbD_logicFn_andn _ _ h,
    threadWord_writesV (fun _ => rfl) fun t j h => getLsbD_not_word _ h,
    threadWord_writesV (fun _ => rfl) fun t => toNat_bitFn_popc _,
    threadWord_writesV (fun _ => rfl) fun t => toNat_bitFn_clz_bounds _,
    threadWord_writesV (fun _ => rfl) fun t j h => getLsbD_brevOf _ h,
    threadWord_writesV (fun _ => rfl) fun t => toNat_shiftFn_shl _ _,
    threadWord_writesV (fun _ => rfl) fun t => toNat_shiftFn_shr _ _,
    threadWord_writesV (fun _ => rfl) fun t => toInt_shiftFn_sar _ _,
    threadWord_writesV (fun _ => rfl) fun t j h => getLsbD_shiftFn_rotl _ _ h⟩

end Sys2Proof.Machine

namespace Sys2Proof.Machine

open Sys2Proof.Safety

/-! ### Bit fields, immediates and addresses (R99 to R101) -/

theorem bitFieldWords : Claims.BitFieldWords := by
  intro d a b gd V
  simp only [← fieldPos_eq, ← fieldLen_eq, V]
  exact ⟨threadWord_writesV (fun _ => rfl) fun t j h => getLsbD_bfeFn_nat _ _ h,
    threadWord_writesV (fun _ => rfl) fun t j h => getLsbD_bfeFn_int _ _ h,
    threadWord_writesV (fun _ => rfl) fun t j h => getLsbD_bfiFn _ _ _ h⟩

theorem shortImmediateWords : Claims.ShortImmediateWords := by
  intro d a i n x V
  have hn : n.toNat % 32 = n.toNat := Nat.mod_eq_of_lt n.isLt
  refine ⟨threadWord_writesV (fun _ => rfl) fun t => cast_toNat_add_simm _ _,
    threadWord_writesV (fun _ => rfl) fun t => cast_toNat_mul_simm _ _,
    threadWord_writesV (fun _ => rfl) fun t j h => by rw [BitVec.getLsbD_and, getLsbD_zimm _ h],
    threadWord_writesV (fun _ => rfl) fun t j h => by rw [BitVec.getLsbD_or, getLsbD_zimm _ h],
    threadWord_writesV (fun _ => rfl) fun t j h => by rw [← getLsbD_zimm i h]; exact BitVec.getLsbD_xor,
    threadWord_writesV (fun _ => rfl) fun t => (toNat_shiftFn_shl _ _).trans (by rw [hn]),
    threadWord_writesV (fun _ => rfl) fun t => (toNat_shiftFn_shr _ _).trans (by rw [hn]),
    threadWord_writesV (fun _ => rfl) fun t => (toInt_shiftFn_sar _ _).trans (by rw [hn]),
    threadWord_writesV (fun _ => rfl) fun t => toInt_simm i,
    threadWord_writesV (fun _ => rfl) fun t => rfl⟩

theorem addressWords : Claims.AddressWords := by
  intro d a b gd i sh D
  exact ⟨threadWord_writesPair (fun _ => rfl) fun t => BitVec.toNat_add _ _,
    threadWord_writesPair (fun _ => rfl) fun t => cast_toNat_sub64 _ _,
    threadWord_writesPair (fun _ => rfl) fun t => cast_toNat_add_ofInt _ _,
    threadWord_writesPair (fun _ => rfl) fun t => toNat_add_zext_shift _ _ _,
    threadWord_writesPair (fun _ => rfl) fun t => cast_toNat_add_ofInt _ _⟩

/-- Settles O8, table by table: a field bit by bit, an immediate extended, an address modulo 2^64. -/
theorem immediateWords : Obligations.ImmediateWords := ⟨bitFieldWords, shortImmediateWords, addressWords⟩

/-! ### Comparisons, selection and predicates (R102, R104 to R106) -/

/-- Settles O9, word by word. -/
theorem predicateWords : Obligations.PredicateWords := by
  intro d a b p pa pb gd i c holds P V wide
  have hc (x y : Int) : condHolds c x y = true ↔ holds x y := by
    cases c <;> simp [condHolds, holds]
  refine ⟨threadWord_writesP (fun _ => rfl) fun t => hc _ _,
    threadWord_writesP (fun _ => rfl) fun t => hc _ _,
    threadWord_writesP (fun _ => rfl) fun t => hc _ _,
    threadWord_writesP (fun _ => rfl) fun t => hc _ _,
    threadWord_writesP (fun _ => rfl) fun t => by rw [hc, toInt_simm],
    threadWord_writesP (fun _ => rfl) fun t => by rw [hc, toNat_zimm],
    threadWord_writesV (fun _ => rfl) fun t => by rw [bne_comm],
    threadWord_writesP (fun _ => rfl) fun t => rfl,
    threadWord_writesP (fun _ => rfl) fun t => rfl,
    threadWord_writesP (fun _ => rfl) fun t => rfl,
    threadWord_writesP (fun _ => rfl) fun t => rfl,
    threadWord_writesP (fun _ => rfl) fun t => rfl,
    threadWord_writesP (fun _ => rfl) fun t => rfl,
    threadWord_writesP (fun _ => rfl) fun t => rfl,
    threadWord_writesP (fun _ => rfl) fun t => rfl,
    threadWord_writesV (fun _ => rfl) fun t => by split <;> rfl,
    threadWord_writesP (fun _ => rfl) fun t => bne_iff_ne⟩

/-! ### ENTER (R17, R123) -/

/-- The sizes that ENTER allows (R123). -/
theorem enterSize_iff (n : BitVec 12) :
    (n.toNat % 8 != 0 || n.toNat == 0 || decide (64 < n.toNat)) = false ↔
      n = 8 ∨ n = 16 ∨ n = 24 ∨ n = 32 ∨ n = 40 ∨ n = 48 ∨ n = 56 ∨ n = 64 := by
  simp only [Bool.or_eq_false_iff, bne_eq_false_iff_eq, beq_eq_false_iff_ne, decide_eq_false_iff_not]
  bv_omega

section
variable {n : BitVec 12} {s : State} {is : Issuer} {g : Group} {f : Frag}

/-- ENTER with a size that R123 allows sets FRAME of the active threads. -/
theorem exec_enter_sets (hi : Issues s is g f) (h : (n.toNat % 8 != 0 || n.toNat == 0 || decide (64 < n.toNat)) = false) :
    exec (.enter n) s = .next (advance (s.modGroup is.gid fun g =>
      g.modThreads (fun i => f.mask.getLsbD i) fun _ t => { t with frame := n.toNat }) is 1) := by
  show execEnter n s = _
  rw [execEnter, issue_inWave hi]
  exact congrArg _ (if_neg (by rw [h]; decide))

theorem exec_enter_refuses (hi : Issues s is g f) (h : (n.toNat % 8 != 0 || n.toNat == 0 || decide (64 < n.toNat)) = true) :
    exec (.enter n) s = .next (takeTrap s is 2 ⟨causeWindow, 0, 0⟩) := by
  show execEnter n s = _
  rw [execEnter, issue_inWave hi]
  exact congrArg _ (if_pos h)

end

theorem encode_enter (n : BitVec 12) : encode (.enter n) = [0x1D000000 + n.toNat] := by
  show [fmtI 0x1D 0 0 n.toNat] = _
  simp [fmtI]

/-- Settles O10: the eight sizes are the multiples of 8 from 8 to 64. -/
theorem enterWord : Obligations.EnterWord := by
  refine ⟨fun n => ⟨encode_enter n, decode_of_encode (encode_enter n) rfl⟩, decode_of_encode (encode_enter 48) rfl, ?_⟩
  intro n s is g f hi
  rw [← enterSize_iff]
  refine ⟨fun h => ⟨_, _, exec_enter_sets hi h, State.group_modGroup_same hi.group fun _ => rfl, fun slot hs => ?_, rfl,
    onlyGroup_modGroup _ _ fun _ => rfl⟩, fun h => exec_enter_refuses hi (Bool.of_not_eq_false h)⟩
  rw [Group.thread_modThreads _ _ _ hs]

end Sys2Proof.Machine

namespace Sys2Proof.Machine

open Sys2Proof.Safety

/-! ### Values of floating-point operands (R68, R69, R110) -/

theorem val_f32 (t : Thread) (n : VReg) : t.val .f32 n = f32 t n :=
  congrArg (valOf .f32) (Nat.mod_eq_of_lt (t.v n.toNat).isLt)

theorem halfCode_zero (t : Thread) (n : VReg) : t.halfCode n 0 = (t.v n.toNat).toNat % 2 ^ 16 := by
  simp [Thread.halfCode, bitsOf]

theorem halfCode_one (t : Thread) (n : VReg) : t.halfCode n 1 = (t.v n.toNat).toNat / 2 ^ 16 := by
  have := (t.v n.toNat).isLt
  simp only [Thread.halfCode, bitsOf]
  omega

theorem roundFloat_invalid (f : CvtFmt) (rm : Rm) (neg : Bool) (m : Nat) (e : Int) :
    (roundFloat f rm neg m e).2.invalid = false := by
  simp only [roundFloat]
  split <;> rfl

/-- A number rounded to FP32 raises no invalid (R72, R77). -/
theorem toFmt_f32_num_invalid (rm : Rm) (neg : Bool) (m : Nat) (e : Int) : (toFmt .f32 rm (.num neg m e)).2.invalid = false := by
  simp only [toFmt, roundTo]
  split
  · rfl
  · exact roundFloat_invalid .f32 rm neg m e

/-- UNPK of an element of L6, which is a number, raises nothing (R73, R113). -/
theorem convert_l6_invalid (x : Nat) : (convert .l6 .f32 .rne x).2.invalid = false := by
  simp only [convert, valOf]
  split <;> exact toFmt_f32_num_invalid ..

/-! ### Floating-point words (R103, R107 to R114) -/

/-- The word is a thread word that gives a slot the result and the conditions of the operation. -/
def RunsFloat (i : Instr) (o : FloatOp) : Prop :=
  ∃ F : Thread → TRes,
    (∀ s, exec i s = issue s true fun x => threadWord x o.guard 1 o.reads o.writes fun _ _ t => F t) ∧
    ∀ t, (F t).rng = none ∧ (F t).conds = o.conds t ∧ ∀ old, (F t).apply old = o.result t old

/-- A word that writes v d with a value and its conditions. -/
theorem runsFloat_toV {i : Instr} {o : FloatOp} {gd : Guard} {d : VReg} {regs : List VReg} {G G' : Thread → Nat × Conds}
    (ho : toV gd d regs G = some o)
    (hexec : ∀ s, exec i s = issue s true fun x => threadWord x gd 1 (regs.map (·.toNat)) [d.toNat] fun _ _ t => .valC d (G' t))
    (hG : ∀ t, G' t = G t) : RunsFloat i o := by
  obtain rfl := Option.some.inj ho
  exact ⟨_, hexec, fun t => ⟨rfl, by rw [hG]; rfl, fun old => by rw [hG]; rfl⟩⟩

/-- An element of a group of L6, as its three registers hold it (R74). -/
theorem unpkCode_l6 (t : Thread) (j : Nat) (a : VReg) :
    unpkCode t .l6 j a =
      ((t.v a.toNat).toNat + (t.v (a.toNat + 1)).toNat * 2 ^ 32 + (t.v (a.toNat + 2)).toNat * 2 ^ 64) / 2 ^ (6 * j) % 2 ^ 6 := rfl

/-- What UNPK makes of an element of L6 (R113). -/
def unpkL6 (t : Thread) (j : BitVec 6) (a : VReg) : Nat × Conds := convert .l6 .f32 .rne (unpkCode t .l6 j.toNat a)

theorem exec_unpk_l6 (j : BitVec 6) (d a : VReg) (gd : Guard) (s : State) :
    exec (.unpk .l6 j d a gd) s = issue s true fun x =>
      threadWord x gd 1 [a.toNat, a.toNat + 1, a.toNat + 2] [d.toNat] fun _ _ t =>
        .valC d ((unpkL6 t j a).1, Conds.invIf (unpkL6 t j a).2.invalid) := rfl

theorem apply_unpkL6 {t : Thread} {j : BitVec 6} {a : VReg} {q : Nat} (h : unpkCode t .l6 j.toNat a = q) (d : VReg)
    (old : Thread) :
    (TRes.valC d ((unpkL6 t j a).1, Conds.invIf (unpkL6 t j a).2.invalid)).apply old =
      old.setV d.toNat (BitVec.ofNat 32 (toFmt .f32 .rne (valOf .l6 q)).1) := by
  rw [unpkL6, h]
  rfl

theorem runsFloat_unpk_l6 {j : BitVec 6} {d a : VReg} {gd : Guard} {o : FloatOp} (h : floatOp (.unpk .l6 j d a gd) = some o) :
    RunsFloat (.unpk .l6 j d a gd) o := by
  obtain rfl := Option.some.inj h
  exact ⟨_, exec_unpk_l6 j d a gd, fun t =>
    ⟨rfl, congrArg Conds.invIf (convert_l6_invalid _), apply_unpkL6 (unpkCode_l6 t j.toNat a) d⟩⟩

/-- What PACK writes: consecutive registers from v d take the words of the number n (R74, R112). -/
def packRes (d : VReg) (k n : Nat) (c : Conds) : TRes :=
  { v := (regsFrom d.toNat k).mapIdx fun i r => (r, BitVec.ofNat 32 (n / 2 ^ (32 * i))), p := none, rng := none, conds := c }

theorem apply_packRes_one {n m : Nat} (h : n = m) (d : VReg) (c : Conds) (old : Thread) :
    (packRes d 1 n c).apply old = old.setV d.toNat (BitVec.ofNat 32 m) := by
  simp [packRes, TRes.apply, regsFrom, upTo, h]

theorem apply_packRes_three (d : VReg) (n : Nat) (c : Conds) (old : Thread) :
    (packRes d 3 n c).apply old =
      ((old.setV d.toNat (BitVec.ofNat 32 n)).setV (d.toNat + 1) (BitVec.ofNat 32 (n / 2 ^ 32))).setV (d.toNat + 2)
        (BitVec.ofNat 32 (n / 2 ^ 64)) := by
  simp [packRes, TRes.apply, regsFrom, upTo]

theorem runsFloat_pack {k : PackFmt} {d a b : VReg} {gd : Guard} {o : FloatOp} (h : floatOp (.pack k d a b gd) = some o) :
    RunsFloat (.pack k d a b gd) o := by
  cases k <;> obtain rfl := Option.some.inj h
  case bf16 => exact ⟨_, fun _ => rfl, fun t => ⟨rfl, rfl, apply_packRes_one (Nat.add_comm _ _) d _⟩⟩
  case e4m3 => exact ⟨_, fun _ => rfl, fun t => ⟨rfl, rfl, apply_packRes_one rfl d _⟩⟩
  case e5m2 => exact ⟨_, fun _ => rfl, fun t => ⟨rfl, rfl, apply_packRes_one rfl d _⟩⟩
  case l6 => exact ⟨_, fun _ => rfl, fun t => ⟨rfl, rfl, apply_packRes_three d _ _⟩⟩

/-- The words of R103 and R107 to R114 run as their operations. -/
theorem runsFloat_of_floatOp {i : Instr} {o : FloatOp} (h : floatOp i = some o) : RunsFloat i o := by
  cases i with
  | fadd => exact runsFloat_toV h (fun _ => rfl) fun t => by rw [val_f32, val_f32]
  | fsub => exact runsFloat_toV h (fun _ => rfl) fun t => by rw [val_f32, val_f32]
  | fmul => exact runsFloat_toV h (fun _ => rfl) fun t => by rw [val_f32, val_f32]
  | ffma => exact runsFloat_toV h (fun _ => rfl) fun t => by rw [val_f32, val_f32, val_f32]
  | fminmax => exact runsFloat_toV h (fun _ => rfl) fun t => rfl
  | fsign op => cases op <;> exact runsFloat_toV h (fun _ => rfl) fun t => rfl
  | padd2 => exact runsFloat_toV h (fun _ => rfl) fun t => rfl
  | pmul2 => exact runsFloat_toV h (fun _ => rfl) fun t => rfl
  | pfma2 => exact runsFloat_toV h (fun _ => rfl) fun t => rfl
  | pminmax2 =>
    exact runsFloat_toV h (fun _ => rfl) fun t => by simp only [bothHalves, halfCode_zero, halfCode_one]; rfl
  | hadd => exact runsFloat_toV h (fun _ => rfl) fun t => rfl
  | hmul => exact runsFloat_toV h (fun _ => rfl) fun t => rfl
  | hfma => exact runsFloat_toV h (fun _ => rfl) fun t => rfl
  | cvt => exact runsFloat_toV h (fun _ => rfl) fun t => rfl
  | frnd => exact runsFloat_toV h (fun _ => rfl) fun t => rfl
  | fspec => exact runsFloat_toV h (fun _ => rfl) fun t => rfl
  | unpk k =>
    cases k with
    | bf16 => exact runsFloat_toV h (fun _ => rfl) fun t => rfl
    | e4m3 => exact runsFloat_toV h (fun _ => rfl) fun t => rfl
    | e5m2 => exact runsFloat_toV h (fun _ => rfl) fun t => rfl
    | l6 => exact runsFloat_unpk_l6 h
  | pack => exact runsFloat_pack h
  | fcmp =>
    obtain rfl := Option.some.inj h
    exact ⟨_, fun _ => rfl, fun t => ⟨rfl, rfl, fun _ => rfl⟩⟩
  | _ => cases h

end Sys2Proof.Machine

namespace Sys2Proof.Machine

open Sys2Proof.Safety

/-! ### Conditions that are not enabled (R96, R107 to R114) -/

theorem floatResults : Claims.FloatResults := by
  intro i o ho s is g f hi hr hoff
  obtain ⟨F, hexec, hF⟩ := runsFloat_of_floatOp ho
  have hrng := fun t => (hF t).1
  have hconds := fun t => (hF t).2.1
  have happly := fun t => (hF t).2.2
  refine threadDone_imp (fun slot old new h => h.trans (happly _ old)) (threadDone_of_exec hexec hrng hi hr fun slot h hrun hsrc => ?_)
  have := hoff slot h hrun
  rwa [hsrc, ← hconds] at this

/-! ### The arithmetic trap (R96, R404) -/

/-- The conditions that ARITHEN enables, of those that the result of a slot raises (R96). -/
def Iss.raised (x : Iss) (F : Thread → TRes) (i : Nat) : BitVec 5 := (F (x.g.thread (x.from i))).conds.enabled x.g.arithen

/-- The slots, of those that a word under the guard reads, that raise an enabled condition (R96). -/
def Iss.hits (x : Iss) (gd : Guard) (F : Thread → TRes) : Mask :=
  maskOf fun i => (x.sources (x.guarded gd)).getLsbD i && x.raised F i != 0

/-- Nothing holds the word back: its mask is not empty, and no register is pending or poisoned (R48, R58, R416). -/
structure Iss.Free (x : Iss) (gd : Guard) (reads writes : List Nat) : Prop where
  mask : x.guarded gd ≠ 0
  poison : x.poisoned (x.sources (x.guarded gd)) reads = 0
  operands : x.g.vsBusy (x.sources (x.guarded gd)) reads = false
  results : x.g.vsBusy (x.guarded gd) writes = false

/-- A word whose registers are ready is held back by nothing, when a slot runs. -/
theorem free_of_ready {g : Group} {f : Frag} {gd : Guard} {reads writes : List Nat} (hr : Ready g f gd reads writes) (s : State)
    (is : Issuer) (hm : Iss.guarded ⟨s, is, g, f⟩ gd ≠ 0) : Iss.Free ⟨s, is, g, f⟩ gd reads writes := by
  have hsrc {slot : Nat} (h : slot < 16) (hs : (Iss.sources ⟨s, is, g, f⟩ (Iss.guarded ⟨s, is, g, f⟩ gd)).getLsbD slot = true)
      {n : Nat} (hn : n ∈ reads) : g.vbusy slot n = false ∧ (g.thread slot).poisoned n = false := by
    obtain ⟨hrun, he⟩ : runsIn g f gd slot = true ∧ source f slot = slot := by simpa [getLsbD_sources s is g f gd h hm] using hs
    simpa only [he] using hr.sources slot h hrun n hn
  refine ⟨hm, maskOf_eq_zero_iff.2 fun slot h => Bool.eq_false_iff.2 fun hbad => ?_,
    vsBusy_eq_false fun slot h hs n hn => (hsrc h hs hn).1, vsBusy_eq_false fun slot h hs n hn => ?_⟩
  · obtain ⟨hs, hany⟩ := Bool.and_eq_true_iff.1 hbad
    obtain ⟨n, hn, hp⟩ := List.any_eq_true.1 hany
    exact Bool.false_ne_true ((hsrc h hs hn).2.symm.trans hp)
  · exact hr.results slot h (by rwa [getLsbD_guarded s is g f gd h] at hs) n hn

/-- A thread word that raises an enabled condition writes its results, and then traps (R96). -/
theorem threadWord_raises {x : Iss} {gd : Guard} {reads writes : List Nat} (hx : x.Free gd reads writes) (len : Nat)
    {F : Thread → TRes} (hhit : x.hits gd F ≠ 0) :
    threadWord x gd len reads writes (fun _ _ t => F t) =
      trapAfter ((dropLatches x.s x.g writes).modGroup x.is.gid
        (x.written (x.guarded gd) (x.sources (x.guarded gd)) fun _ _ t => F t)) x.is len 10
        (arithD (x.hits gd F) ((maskSlots (x.hits gd F)).foldl (fun c i => c ||| x.raised F i) 0)) := by
  simp only [threadWord, beq_iff_eq, hx.mask, if_false, hx.operands, hx.results, Bool.or_self, Bool.false_eq_true, hx.poison,
    bne_self_eq_false]
  exact if_pos (bne_iff_ne.2 hhit)

section
variable {g : Group} {f : Frag} {gd : Guard} {k : Nat} (s : State) (is : Issuer) (F : Thread → TRes)

/-- A slot that is its own source raises what its own registers give. -/
theorem raised_of_source (he : source f k = k) :
    Iss.raised ⟨s, is, g, f⟩ F k = (F (g.thread k)).conds.enabled g.arithen := by
  have hfrom : Iss.from ⟨s, is, g, f⟩ k = k := he
  rw [Iss.raised, hfrom]

theorem getLsbD_hits (hm : Iss.guarded ⟨s, is, g, f⟩ gd ≠ 0) (h : k < 16) :
    (Iss.hits ⟨s, is, g, f⟩ gd F).getLsbD k =
      (runsIn g f gd k && source f k == k && (F (g.thread k)).conds.enabled g.arithen != 0) := by
  rw [Iss.hits, getLsbD_maskOf, decide_eq_true h, Bool.true_and, getLsbD_sources s is g f gd h hm]
  by_cases he : source f k = k
  · rw [raised_of_source s is F he]
  · rw [beq_eq_false_iff_ne.2 he, Bool.and_false, Bool.false_and, Bool.false_and]

end

/-- The union of some sets of conditions. -/
theorem getLsbD_foldl_or {w : Nat} (p : Nat → BitVec w) (l : List Nat) (k : Nat) :
    (l.foldl (fun c i => c ||| p i) 0).getLsbD k = true ↔ ∃ i ∈ l, (p i).getLsbD k = true := by
  suffices h : ∀ c : BitVec w, (l.foldl (fun c i => c ||| p i) c).getLsbD k = true ↔
      c.getLsbD k = true ∨ ∃ i ∈ l, (p i).getLsbD k = true by simpa using h 0
  induction l with
  | nil => simp
  | cons i l ih => simp [ih, or_assoc]

/-- TINFO of an arithmetic trap, bit by bit: the slots, and above them the conditions (R404). -/
theorem getLsbD_arithD (m : Mask) (c : BitVec 5) {j : Nat} (hj : j < 64) :
    (arithD m c).tinfo.getLsbD j = if j < 16 then m.getLsbD j else c.getLsbD (j - 16) := by
  have hsum : m.toNat + c.toNat * 2 ^ 16 + 0 * 2 ^ 21 + 0 * 2 ^ 26 + 0 * 2 ^ 32 = 2 ^ 16 * c.toNat + m.toNat := by omega
  rw [arithD, tinfoOf, hsum, BitVec.getLsbD_ofNat, decide_eq_true hj, Bool.true_and, Nat.testBit_two_pow_mul_add _ m.isLt]
  rfl

theorem arithmeticTrap : Claims.ArithmeticTrap := by
  intro i o ho s is g f hi hr on hit ⟨slot, hslot, hraised⟩
  obtain ⟨F, hexec, hF⟩ := runsFloat_of_floatOp ho
  have hrng := fun t => (hF t).1
  have hconds := fun t => (hF t).2.1
  have happly := fun t => (hF t).2.2
  have hm : Iss.guarded ⟨s, is, g, f⟩ o.guard ≠ 0 := fun h0 => by
    simp [hit, (guarded_eq_zero_iff s is g f o.guard).1 h0 slot hslot] at hraised
  have hhits {k : Nat} (h : k < 16) : (Iss.hits ⟨s, is, g, f⟩ o.guard F).getLsbD k = hit k := by
    rw [getLsbD_hits s is F hm h, hconds]
    rfl
  have hon {k : Nat} (h : hit k = true) : Iss.raised ⟨s, is, g, f⟩ F k = on k := by
    obtain ⟨⟨-, he⟩, -⟩ : (runsIn g f o.guard k = true ∧ source f k = k) ∧ on k ≠ 0 := by simpa [hit] using h
    rw [raised_of_source s is F he, hconds]
    rfl
  have hne : Iss.hits ⟨s, is, g, f⟩ o.guard F ≠ 0 := fun h0 =>
    Bool.false_ne_true ((mask_eq_zero_iff.1 h0 slot hslot).symm.trans ((hhits hslot).trans hraised))
  have hword := (hexec s).trans
    ((issue_inWave hi _).trans (congrArg Host.Outcome.next (threadWord_raises (free_of_ready hr s is hm) 1 hne)))
  refine ⟨_, _, _, hword, State.group_modGroup_same (by simpa using hi.group) fun _ => rfl, fun k h => ?_, rfl,
    onlyGroup_trans (onlyGroup_dropLatches s g o.writes is.gid) (onlyGroup_modGroup _ _ fun _ => rfl), fun k h => ?_, fun k h => ?_⟩
  · rw [Iss.written, Group.thread_modThreads _ _ _ h, getLsbD_guarded s is g f o.guard h, TRes.into_of_noRng (hrng _), happly]
    rfl
  · rw [getLsbD_arithD _ _ (by omega), if_pos h, hhits h]
  · rw [getLsbD_arithD _ _ (by omega), if_neg (by omega), Nat.add_sub_cancel_left, getLsbD_foldl_or]
    simp only [mem_maskSlots]
    constructor
    · rintro ⟨j, hj, hb⟩
      have h16 := lt_of_getLsbD_mask hj
      rw [hhits h16] at hj
      exact ⟨j, h16, hj, by rwa [hon hj] at hb⟩
    · rintro ⟨j, h16, hj, hb⟩
      exact ⟨j, by rw [hhits h16, hj], by rwa [hon hj]⟩

/-- Settles O14: each word is a thread word with the value and the conditions of its operation, and TINFO is the union of what its
slots raise. -/
theorem floatWords : Obligations.FloatWords := ⟨floatResults, arithmeticTrap⟩

end Sys2Proof.Machine

namespace Sys2Proof.Machine

open Sys2Proof.Safety

/-! ### A fragment changed in its entry -/

theorem Group.modFrag_modFrag (g : Group) (e : Nat) (F G : Frag → Frag) :
    (g.modFrag e F).modFrag e G = g.modFrag e fun f => G (F f) := by
  have hfrags : ((g.modFrag e F).modFrag e G).frags = (g.modFrag e fun f => G (F f)).frags := by
    apply Vector.ext
    intro i hi
    by_cases hie : i = e
    · subst hie; cases h : g.frags[i] <;> simp [Group.modFrag, h]
    · simp [Group.modFrag, hie]
  exact congrArg (fun v => { g with frags := v }) hfrags

/-- Two changes that agree on the fragment of the entry. -/
theorem Group.modFrag_congr {g : Group} {e : Nat} {f : Frag} {F G : Frag → Frag} (h : g.frag e = some f) (hFG : F f = G f) :
    g.modFrag e F = g.modFrag e G := by
  have hfrags : (g.modFrag e F).frags = (g.modFrag e G).frags := by
    apply Vector.ext
    intro i hi
    by_cases hie : i = e
    · subst hie
      have : g.frags[i] = some f := by simpa [Group.frag, hi] using h
      simp [Group.modFrag, this, hFG]
    · simp [Group.modFrag, hie]
  exact congrArg (fun v => { g with frags := v }) hfrags

theorem Group.flushSrw_frag (g : Group) (e i : Nat) : (g.flushSrw e).frag i = g.frag i := by
  rw [Group.frag, (g.flushSrw_tables e).frags, Group.frag]

theorem Group.flushSrw_rec? (g : Group) (e i : Nat) : (g.flushSrw e).rec? i = g.rec? i := by
  rw [Group.rec?, (g.flushSrw_tables e).recs, Group.rec?]

/-! ### The end of a clause (R34, R40, R136, R141) -/

/-- 31 names no record (R135). -/
theorem Group.rec?_31 (g : Group) : g.rec? 31 = none := by simp [Group.rec?]

/-- A fragment without a record reaches none. -/
theorem Group.reached_of_noRec {g : Group} {f : Frag} (h : g.rec? f.recx = none) : g.reached f = false := by
  simp only [Group.reached, h]

/-- YLD of a fragment's clause, by its bit (R37). -/
theorem Frag.yld_eq (f : Frag) : f.yld = f.hdr.any fun h => h.getLsbD 21 := by
  unfold Frag.yld
  split
  next h => rw [h]; rfl
  next h e => rw [e, bitOf_toNat]; rfl

/-- The end of a clause where no record is reached and no fragment is spilled: YLD alone has an effect (R40, R144). -/
theorem clauseEnd_of_unreached {s : State} {is : Issuer} {g h : Group} (hs : s.group? is.gid = some h)
    (hreach : ∀ x, h.frag is.entry = some x → h.reached x = false) (hsp : h.spilled = []) :
    clauseEnd s is g =
      if (g.frag is.entry).any Frag.yld then s.modGroup is.gid fun g => g.modFrag is.entry fun f => { f with age := 0 } else s := by
  have hstay {u : State} {k : Group} (hk : ∀ x, k.frag is.entry = some x → k.reached x = false) (hsp' : k.spilled = []) :
      (if (k.frag is.entry).any k.reached then arrive u is.gid is.entry
        else if k.exchangeDue then { u with agenda := .event (.fragmentExchange is.gid is.entry) :: u.agenda } else u) = u := by
    have hany : (k.frag is.entry).any k.reached = false := by
      cases hf : k.frag is.entry with
      | none => rfl
      | some x => exact hk x hf
    simp [hany, Group.exchangeDue, hsp']
  unfold clauseEnd
  split
  next =>
    have hu := State.group_modGroup_same (F := fun g => g.modFrag is.entry fun f => { f with age := 0 }) hs fun _ => rfl
    simp only [hu]
    refine hstay (fun x hx => ?_) hsp
    rw [Group.modFrag_frag, if_pos rfl] at hx
    obtain ⟨y, hy, rfl⟩ := Option.map_eq_some_iff.1 hx
    exact hreach y hy
  next =>
    simp only [hs]
    exact hstay hreach hsp

/-! ### Where a fragment goes when its word has completed (R26, R34, R116, R126) -/

/-- The group whose fragment in entry e stands at word 0 of a clause: the SRW writes of the clause that it leaves have taken effect,
and its AGE is 0 when that clause has YLD (R32, R40, R144). -/
def Group.atClause (g : Group) (e : Nat) (c : DWord) : Group :=
  (g.flushSrw e).modFrag e fun f =>
    { f with clause := c, word := 0, hdr := none, age := if (f.hdr.any fun h => h.getLsbD 21) then 0 else f.age }

section
variable {s : State} {is : Issuer} {g : Group} {f : Frag} (hg : s.group? is.gid = some g) (hf : g.frag is.entry = some f)

include hg hf in
theorem advance_of_noWave (hw : g.wave = none) (len : Nat) :
    advance s is len =
      if g.endsClause f len then clauseEnd (s.modGroup is.gid fun g => g.past is.entry f len) is g
      else s.modGroup is.gid fun g => g.past is.entry f len := by
  simp only [advance, passWord, hg, hf, spendBudget_of_noWave _ hw]

include hg in
theorem goTo_of_noWave (hw : g.wave = none) (c : DWord) :
    goTo s is c = clauseEnd (s.modGroup is.gid fun g => g.toClause is.entry c) is g := by
  simp only [goTo, hg, spendBudget_of_noWave _ hw, toNext]

include hf in
/-- A fragment without a record that has left its clause stands at word 0 of the next when the clause has ended. -/
theorem becomes_clauseEnd (hrec : f.recx = 31) (hsp : g.spilled = []) {u : State} {c : DWord}
    (hleft : Becomes s u is.gid (g.toClause is.entry c)) : Becomes s (clauseEnd u is g) is.gid (g.atClause is.entry c) := by
  have hflush : (g.flushSrw is.entry).frag is.entry = some f := (g.flushSrw_frag _ _).trans hf
  have hreach : ∀ x, (g.toClause is.entry c).frag is.entry = some x → (g.toClause is.entry c).reached x = false := by
    intro x hx
    rw [Group.toClause, Group.modFrag_frag, if_pos rfl, hflush, Option.map_some, Option.some.injEq] at hx
    subst hx
    exact Group.reached_of_noRec (by rw [hrec, Group.rec?_31])
  rw [clauseEnd_of_unreached hleft.1 hreach ((g.flushSrw_tables is.entry).spilled.trans hsp), hf, Option.any_some, f.yld_eq]
  cases hy : f.hdr.any fun h => h.getLsbD 21 with
  | false =>
    have hat : g.atClause is.entry c = g.toClause is.entry c := Group.modFrag_congr hflush (by rw [hy]; rfl)
    rw [if_neg Bool.false_ne_true, hat]
    exact hleft
  | true =>
    have hat : g.atClause is.entry c = (g.toClause is.entry c).modFrag is.entry fun f => { f with age := 0 } := by
      rw [Group.toClause, Group.modFrag_modFrag]
      exact Group.modFrag_congr hflush (by rw [hy]; rfl)
    obtain ⟨haged, honly⟩ := becomes_modGroup (F := fun g => g.modFrag is.entry fun f => { f with age := 0 }) hleft.1 fun _ => rfl
    rw [if_pos rfl, hat]
    exact ⟨haged, onlyGroup_trans hleft.2 honly⟩

include hg in
/-- A word makes of its group what `past` says. -/
theorem becomes_past (f : Frag) (len : Nat) :
    Becomes s (s.modGroup is.gid fun g => g.past is.entry f len) is.gid (g.past is.entry f len) :=
  becomes_modGroup (F := fun g => g.past is.entry f len) hg fun x => x.gid_past _ f len

end

section
variable {g : Group} {f : Frag} {len : Nat} (e : Nat)

/-- Between repeats INDEX and REMAIN step (R126). -/
theorem Group.past_repeat (ha : g.reps.active = true) (hr : g.reps.remain ≠ 0) :
    g.past e f len = { g with reps := { g.reps with index := g.reps.index + 1, remain := g.reps.remain - 1 } } := by
  simp [Group.past, ha, hr]

/-- After the last repeat REPS is zero, and the next word follows (R126). -/
theorem Group.past_lastRepeat (ha : g.reps.active = true) (hr : g.reps.remain = 0) (hlt : f.word + len < f.count) :
    g.past e f len = { g.modFrag e (fun f => { f with word := f.word + len }) with reps := Reps.zero } := by
  simp [Group.past, ha, hr, Nat.not_le.2 hlt]
  rfl

/-- Outside repeats the next word follows (R26). -/
theorem Group.past_word (ha : g.reps.active = false) (hlt : f.word + len < f.count) :
    g.past e f len = g.modFrag e fun f => { f with word := f.word + len } := by
  simp [Group.past, ha, Nat.not_le.2 hlt]

/-- At its end the clause that follows (R34). -/
theorem Group.past_clause (ha : g.reps.active = false) (hle : f.count ≤ f.word + len) :
    g.past e f len = g.toClause e f.nextClause := by
  simp [Group.past, ha, hle]

end

/-- Settles O20, by the cases of `past`: the next repeat, the next word, the next clause. -/
theorem movingOn : Obligations.MovingOn := by
  intro s is g f len c hg hf hw word0
  rw [advance_of_noWave hg hf hw, goTo_of_noWave hg hw]
  have hpast := becomes_past hg f len
  refine ⟨fun ha hr => ?_, fun ha hr hlt => ?_, fun ha hlt => ?_, fun ha hle hrec hsp => ?_, fun hrec hsp =>
    becomes_clauseEnd hf hrec hsp (becomes_modGroup hg fun x => x.toClause_gid _ c)⟩
  · rw [if_neg (by simp [Group.endsClause, ha, hr])]
    rwa [Group.past_repeat is.entry ha hr] at hpast
  · rw [if_neg (by simp [Group.endsClause, Nat.not_le.2 hlt])]
    rwa [Group.past_lastRepeat is.entry ha hr hlt] at hpast
  · rw [if_neg (by simp [Group.endsClause, Nat.not_le.2 hlt])]
    rwa [Group.past_word is.entry ha hlt] at hpast
  · rw [if_pos (by simp [Group.endsClause, ha, hle])]
    rw [Group.past_clause is.entry ha hle] at hpast
    exact becomes_clauseEnd hf hrec hsp hpast

end Sys2Proof.Machine

namespace Sys2Proof.Machine

open Sys2Proof.Safety

/-! ### Free entries and records of the split table (R135) -/

theorem Group.frag_lt {g : Group} {e : Nat} {f : Frag} (h : g.frag e = some f) : e < 8 := by
  by_contra hn
  simp [Group.frag, Vector.getElem?_eq_none (Nat.not_lt.1 hn)] at h

/-- The lowest free entry is one of the 8, and holds no fragment. -/
theorem Group.freeEntry_some {g : Group} {e : Nat} (h : g.freeEntry = some e) : e < 8 ∧ g.frag e = none := by
  obtain ⟨hlt, hnone, -⟩ := List.findIdx?_eq_some_iff_getElem.1 h
  have he : e < 8 := by simpa using hlt
  exact ⟨he, by simpa [Group.frag, he] using hnone⟩

/-- The lowest free record is one of the 16. -/
theorem Group.freeRec_lt {g : Group} {i : Nat} (h : g.freeRec = some i) : i < 16 := by
  obtain ⟨hlt, -, -⟩ := List.findIdx?_eq_some_iff_getElem.1 h
  simpa using hlt

theorem Group.setRec_rec?_same (g : Group) {i : Nat} (r : Option RRec) (hi : i < 16) : (g.setRec i r).rec? i = r := by
  simp [Group.setRec, Group.rec?, hi]

theorem Group.setRec_frag (g : Group) (i k : Nat) (r : Option RRec) : (g.setRec i r).frag k = g.frag k := rfl

theorem Group.setFrag_rec? (g : Group) (e i : Nat) (f : Option Frag) : (g.setFrag e f).rec? i = g.rec? i := rfl

/-- A system register write leaves the wave that a group runs. -/
theorem Group.flushSrw_wave (g : Group) (e : Nat) : (g.flushSrw e).wave = g.wave := by
  have := congrArg Group.wave (g.lessSys_flushSrw e)
  exact this

/-! ### Splits (R135) -/

/-- The parts of a split: `taken` keeps entry k and goes to `target`, the other slots of `f` go on at `other` in entry e, and both
name record i. -/
def Group.parts (g : Group) (k e i : Nat) (f : Frag) (taken : Mask) (target other : DWord) (r : RRec) : Group :=
  ((g.setRec i (some r)).setFrag k (some (Frag.at taken target i))).setFrag e (some (Frag.at (f.mask &&& ~~~taken) other i))

theorem Group.parts_frag (g : Group) {k e : Nat} (i : Nat) (f : Frag) (taken : Mask) (target other : DWord) (r : RRec) (hk : k < 8)
    (he : e < 8) (n : Nat) :
    (g.parts k e i f taken target other r).frag n =
      if n = e then some (Frag.at (f.mask &&& ~~~taken) other i) else if n = k then some (Frag.at taken target i) else g.frag n := by
  rw [Group.parts, Group.setFrag_frag _ _ _ he, Group.setFrag_frag _ _ _ hk, Group.setRec_frag]

theorem Group.parts_wave (g : Group) (k e i : Nat) (f : Frag) (taken : Mask) (target other : DWord) (r : RRec) :
    (g.parts k e i f taken target other r).wave = g.wave := rfl

theorem Group.parts_spilled (g : Group) (k e i : Nat) (f : Frag) (taken : Mask) (target other : DWord) (r : RRec) :
    (g.parts k e i f taken target other r).spilled = g.spilled := rfl

theorem Group.parts_rec? (g : Group) {k e i : Nat} (f : Frag) (taken : Mask) (target other : DWord) (r : RRec) (hi : i < 16) :
    (g.parts k e i f taken target other r).rec? i = some r := by
  rw [Group.parts, Group.setFrag_rec?, Group.setFrag_rec?, Group.setRec_rec?_same _ _ hi]

/-- A fragment in another clause than its record's has not reached it (R136). -/
theorem Group.reached_of_ne {g : Group} {f : Frag} {r : RRec} (hr : g.rec? f.recx = some r) (hne : f.clause ≠ r.rcv) :
    g.reached f = false := by
  simp [Group.reached, hr, hne]

/-- A fragment that has not reached its record's clause does not arrive (R136). -/
theorem arrive_of_unreached {s : State} {gid e : Nat} {g : Group} {f : Frag} (hg : s.group? gid = some g) (hf : g.frag e = some f)
    (hr : g.reached f = false) : arrive s gid e = s := by
  simp [arrive, hg, hf, hr]

/-- The group that a fragment f, in entry k, has split: the SRW writes of its clause have taken effect, and its parts name the lowest
free record (R32, R135). -/
def Group.split (g : Group) (k e : Nat) (f : Frag) (taken : Mask) (target other rcv : DWord) (depth : Nat) : Group :=
  (g.flushSrw k).parts k e (g.freeRec.getD 0) f taken target other
    { rcv := rcv, omask := f.mask, arrived := 0, cdepth := depth, parent := f.recx }

theorem Group.split_gid (g : Group) (k e : Nat) (f : Frag) (taken : Mask) (target other rcv : DWord) (depth : Nat) :
    (g.split k e f taken target other rcv depth).gid = g.gid := (g.flushSrw_tables k).gid

section
variable {s : State} {is : Issuer} {g : Group} {f : Frag} {e : Nat} (hi : Issues s is g f) (he : g.freeEntry = some e) (taken : Mask)
  (target other rcv : DWord) (depth : Nat)

include hi he in
/-- A fragment that splits while an entry is free takes it for the other slots, and either part may then arrive (R135, R136). -/
theorem splitFrag_of_freeEntry :
    splitFrag s is f taken target other rcv depth id =
      arrive (clauseEnd (spendBudget (s.modGroup is.gid fun g => g.split is.entry e f taken target other rcv depth)
          (g.split is.entry e f taken target other rcv depth)) is (g.split is.entry e f taken target other rcv depth)) is.gid e := by
  have htake : takeEntry s is.gid [is.entry] = (s, .ok e) := by simp only [takeEntry, hi.group, he]
  have hsplit := State.group_modGroup_same (F := fun g => g.split is.entry e f taken target other rcv depth) hi.group fun x =>
    x.split_gid _ _ _ _ _ _ _ _
  show (match takeEntry s is.gid [is.entry] with | (s, .error x) => _ | (s, .ok e) => _) = _
  rw [htake]
  show (match (s.modGroup is.gid fun g => g.split is.entry e f taken target other rcv depth).group? is.gid with
    | none => _ | some g => _) = _
  rw [hsplit]
  rfl

variable {target other rcv}

include hi he in
/-- A split with a free entry and a free record, of which neither part stands at the reconvergence clause. -/
theorem becomes_splitFrag {i : Nat} (hw : g.wave = none) (hr : g.freeRec = some i) (hsp : g.spilled = []) (ht : target ≠ rcv)
    (ho : other ≠ rcv) :
    Becomes s (splitFrag s is f taken target other rcv depth id) is.gid
      ((g.flushSrw is.entry).parts is.entry e i f taken target other
        { rcv := rcv, omask := f.mask, arrived := 0, cdepth := depth, parent := f.recx }) := by
  obtain ⟨he8, hfree⟩ := Group.freeEntry_some he
  have hne : is.entry ≠ e := fun h => by rw [← h, hi.frag] at hfree; cases hfree
  have hparts : g.split is.entry e f taken target other rcv depth = (g.flushSrw is.entry).parts is.entry e i f taken target other
      { rcv := rcv, omask := f.mask, arrived := 0, cdepth := depth, parent := f.recx } := by
    rw [Group.split, hr, Option.getD_some]
  have hsplit := becomes_modGroup (F := fun g => g.split is.entry e f taken target other rcv depth) hi.group fun x =>
    x.split_gid _ _ _ _ _ _ _ _
  have hfrag := (g.flushSrw is.entry).parts_frag i f taken target other
    { rcv := rcv, omask := f.mask, arrived := 0, cdepth := depth, parent := f.recx } (Group.frag_lt hi.frag) he8
  have hrec := (g.flushSrw is.entry).parts_rec? (k := is.entry) (e := e) f taken target other
    { rcv := rcv, omask := f.mask, arrived := 0, cdepth := depth, parent := f.recx } (Group.freeRec_lt hr)
  have hwave : (g.split is.entry e f taken target other rcv depth).wave = none := by
    rw [hparts, Group.parts_wave, Group.flushSrw_wave, hw]
  have hspilled : (g.split is.entry e f taken target other rcv depth).spilled = [] := by
    rw [hparts, Group.parts_spilled, (g.flushSrw_tables is.entry).spilled, hsp]
  rw [splitFrag_of_freeEntry hi he]
  rw [← hparts] at hfrag hrec ⊢
  generalize g.split is.entry e f taken target other rcv depth = h at *
  have hkept : h.frag is.entry = some (Frag.at taken target i) := by rw [hfrag, if_neg hne, if_pos rfl]
  have hnew : h.frag e = some (Frag.at (f.mask &&& ~~~taken) other i) := by rw [hfrag, if_pos rfl]
  have hreach : ∀ x, h.frag is.entry = some x → h.reached x = false := by
    intro x hx
    rw [hkept, Option.some.injEq] at hx
    subst hx
    exact Group.reached_of_ne hrec ht
  rw [spendBudget_of_noWave _ hwave, clauseEnd_of_unreached hsplit.1 hreach hspilled, hkept,
    if_neg (show ¬(some (Frag.at taken target i)).any Frag.yld = true from Bool.false_ne_true),
    arrive_of_unreached hsplit.1 hnew (Group.reached_of_ne hrec ho)]
  exact hsplit

end

/-! ### BR (R116, R117) -/

/-- A mask leaves out no slot of another exactly when it holds them all. -/
theorem sdiff_eq_zero_iff {m e : Mask} : m &&& ~~~e = 0 ↔ ∀ i, i < 16 → m.getLsbD i = true → e.getLsbD i = true := by
  rw [mask_eq_zero_iff]
  exact forall₂_congr fun i hi => by simp [hi]

section
variable (s : State) (is : Issuer) (g : Group) (f : Frag) (gd : Guard)

/-- The execution set is not empty when some slot runs. -/
theorem guarded_ne_zero_iff : Iss.guarded ⟨s, is, g, f⟩ gd ≠ 0 ↔ ∃ slot, slot < 16 ∧ runsIn g f gd slot = true := by
  rw [Ne, guarded_eq_zero_iff]
  simp

/-- Some active slot is outside the execution set. -/
theorem rest_ne_zero_iff : f.mask &&& ~~~Iss.guarded ⟨s, is, g, f⟩ gd ≠ 0 ↔
    ∃ slot, slot < 16 ∧ f.mask.getLsbD slot = true ∧ runsIn g f gd slot = false := by
  rw [Ne, sdiff_eq_zero_iff]
  simp only [not_forall, exists_prop, Bool.not_eq_true]
  exact exists_congr fun i => and_congr_right fun hi => by rw [getLsbD_guarded s is g f gd hi]

/-- The execution set is a part of the active slots. -/
theorem guarded_and_mask : f.mask &&& Iss.guarded ⟨s, is, g, f⟩ gd = Iss.guarded ⟨s, is, g, f⟩ gd := by
  refine mask_ext fun i hi => ?_
  rw [BitVec.getLsbD_and, getLsbD_guarded s is g f gd hi]
  cases h : runsIn g f gd i with
  | false => exact Bool.and_false _
  | true => rw [getLsbD_of_runsIn h, Bool.and_true]

end

/-- The parts of a split hold its slots, each once. -/
theorem splitPartition : Claims.SplitPartition := by
  intro g f gd s is e
  have hsub := guarded_and_mask s is g f gd
  refine ⟨fun slot h => getLsbD_guarded s is g f gd h, mask_eq_zero_iff.2 fun i hi => ?_, mask_ext fun i hi => ?_⟩
  · cases h : e.getLsbD i <;> simp [h]
  · have hbit := congrArg (fun m : Mask => m.getLsbD i) hsub
    simp only [BitVec.getLsbD_and] at hbit
    change (f.mask.getLsbD i && e.getLsbD i) = e.getLsbD i at hbit
    cases h : e.getLsbD i with
    | false => rw [BitVec.getLsbD_or, BitVec.getLsbD_and, BitVec.getLsbD_not, h]; simp [hi]
    | true => rw [h, Bool.and_true] at hbit; simp [h, hbit]

section
variable {rcv : BitVec 18} {gd : Guard} {disp : Word} {s : State} {is : Issuer} {g : Group} {f : Frag} (hi : Issues s is g f)

include hi

theorem exec_br_any : exec (.br rcv gd .any disp) s =
    .next (goTo s is (if Iss.guarded ⟨s, is, g, f⟩ gd != 0 then f.target disp.toInt else f.nextClause)) := by
  show execBr rcv gd .any disp s = _
  rw [execBr, issue_inWave hi]

theorem exec_br_all : exec (.br rcv gd .all disp) s =
    .next (goTo s is (if f.mask &&& ~~~Iss.guarded ⟨s, is, g, f⟩ gd == 0 then f.target disp.toInt else f.nextClause)) := by
  show execBr rcv gd .all disp s = _
  rw [execBr, issue_inWave hi]

theorem exec_br_thread : exec (.br rcv gd .thread disp) s = .next (
    if Iss.guarded ⟨s, is, g, f⟩ gd == 0 then goTo s is f.nextClause
    else if f.mask &&& ~~~Iss.guarded ⟨s, is, g, f⟩ gd == 0 then goTo s is (f.target disp.toInt)
    else splitFrag s is f (Iss.guarded ⟨s, is, g, f⟩ gd) (f.target disp.toInt) f.nextClause (f.target rcv.toInt)
      (g.thread (lowest f.mask)).cdepth id) := by
  show execBr rcv gd .thread disp s = _
  rw [execBr, issue_inWave hi]
  rfl

end

theorem branchTable : Claims.BranchTable := by
  intro rcv gd disp s is g f hi target meet next E someE someN
  have hE : Iss.guarded ⟨s, is, g, f⟩ gd ≠ 0 ↔ someE := guarded_ne_zero_iff s is g f gd
  have hN : f.mask &&& ~~~Iss.guarded ⟨s, is, g, f⟩ gd ≠ 0 ↔ someN := rest_ne_zero_iff s is g f gd
  rw [exec_br_any hi, exec_br_all hi, exec_br_thread hi]
  refine ⟨fun h => ?_, fun h => ?_, fun h => ?_, fun h => ?_, fun h h' => ?_, fun h => ?_, fun h h' e i hw he hr hsp ht hn => ?_⟩
  · rw [if_pos (bne_iff_ne.2 (hE.2 h))]; rfl
  · rw [if_neg (by simpa using mt hE.1 h)]; rfl
  · rw [if_pos (beq_iff_eq.2 (not_ne_iff.1 (mt hN.1 h)))]; rfl
  · rw [if_neg (by simpa using hN.2 h)]; rfl
  · rw [if_neg (by simpa using hE.2 h), if_pos (beq_iff_eq.2 (not_ne_iff.1 (mt hN.1 h')))]; rfl
  · rw [if_pos (beq_iff_eq.2 (not_ne_iff.1 (mt hE.1 h)))]; rfl
  · rw [if_neg (by simpa using hE.2 h), if_neg (by simpa using hN.2 h')]
    exact ⟨_, _, rfl, fun slot hs => getLsbD_guarded s is g f gd hs, becomes_splitFrag hi he _ _ hw hr hsp ht hn⟩

/-- Settles O23, by the two masks that the execution set cuts the active slots into. -/
theorem branchWord : Obligations.BranchWord := ⟨branchTable, splitPartition⟩

end Sys2Proof.Machine

namespace Sys2Proof.Machine

open Sys2Proof.Safety

/-! ### What the free contents of a spill window leave (R201, R231, R284) -/

/-- Beyond the packages, host memory, the numbers used and the moves to come, t is s: what a write of memory can change. -/
structure BeyondMemory (s t : State) : Prop where
  rest : { t with pkgs := s.pkgs, host := s.host, fresh := s.fresh, agenda := s.agenda } = s

theorem BeyondMemory.refl (s : State) : BeyondMemory s s := ⟨rfl⟩

theorem BeyondMemory.trans {s t u : State} (h : BeyondMemory s t) (k : BeyondMemory t u) : BeyondMemory s u where
  rest := (congrArg (fun x : State => { x with pkgs := s.pkgs, host := s.host, fresh := s.fresh, agenda := s.agenda }) k.rest).trans
    h.rest

theorem BeyondMemory.groups {s t : State} (h : BeyondMemory s t) : t.groups = s.groups := (congrArg State.groups h.rest :)

theorem BeyondMemory.teams {s t : State} (h : BeyondMemory s t) : t.teams = s.teams := (congrArg State.teams h.rest :)

theorem BeyondMemory.segs {s t : State} (h : BeyondMemory s t) : t.segs = s.segs := (congrArg State.segs h.rest :)

theorem BeyondMemory.cores {s t : State} (h : BeyondMemory s t) : t.cores = s.cores := (congrArg State.cores h.rest :)

theorem ReadOnly.beyondMemory {s t : State} (h : ReadOnly s t) : BeyondMemory s t where
  rest := (congrArg (fun x : State => { x with fresh := s.fresh, agenda := s.agenda }) h.rest :)

theorem beyondMemory_modPkg (s : State) (r : Nat) (F : Pkg → Pkg) : BeyondMemory s (s.modPkg r F) := ⟨rfl⟩

theorem beyondMemory_foldl {α : Type} {F : State → α → State} (hF : ∀ s a, BeyondMemory s (F s a)) (l : List α) (s : State) :
    BeyondMemory s (l.foldl F s) := by
  induction l generalizing s with
  | nil => exact .refl s
  | cons a l ih => exact (hF s a).trans (ih _)

/-- A write to one line changes memory alone (R231, R279, R284). -/
theorem beyondMemory_lineStoreMask {s t : State} {h : Phys} {ctx va : Nat} {bytes : AL Nat PByte}
    (ht : lineStoreMask s h ctx va bytes = some t) : BeyondMemory s t := by
  unfold lineStoreMask at ht
  dsimp only at ht
  split at ht
  · rw [← Option.some.inj ht]
    refine beyondMemory_foldl (fun s r => ?_) _ s
    split
    · exact .refl s
    · exact beyondMemory_modPkg s _ _
  · split at ht
    · split at ht
      · cases ht
      · split at ht
        · cases ht
        · rw [← Option.some.inj ht]; exact ⟨rfl⟩
    · rw [← Option.some.inj ht]
      exact (readOnly_fetchLine s h ctx va).beyondMemory.trans (beyondMemory_modPkg _ _ _)

/-- A line that takes free contents changes memory alone. -/
theorem beyondMemory_freeLine (s : State) (g : Group) (va : Nat) : BeyondMemory s (freeLine s g va) := by
  have hx := (readOnly_xlate s g.rank g.core.die g.ctx va .read).beyondMemory
  unfold freeLine
  split
  next u f e => rw [e] at hx; exact hx
  next u h e =>
    rw [e] at hx
    have hfree : BeyondMemory u (u.freeBytes 64).2 := ⟨rfl⟩
    refine hx.trans (hfree.trans ?_)
    dsimp only
    split
    · cases hl : lineStore (u.freeBytes 64).2 h g.ctx va (sound (u.freeBytes 64).1) with
      | none => exact .refl _
      | some t => exact beyondMemory_lineStoreMask hl
    · exact (beyondMemory_modPkg _ _ _).trans (readOnly_rawWrite _ _ _ _).beyondMemory

theorem beyondMemory_freeWindow (s : State) (g : Group) : BeyondMemory s (freeWindow s g) :=
  beyondMemory_foldl (fun s _ => beyondMemory_freeLine s g _) _ s

/-- A context without spill windows has none to give free contents. -/
theorem freeWindow_of_noStride {s : State} {g : Group} (h : ((s.ctx? g.rank g.ctx).map (·.spstride)).getD 0 = 0) :
    freeWindow s g = s := by
  unfold freeWindow
  rw [h]
  rfl

/-! ### The matrix entries of a team after a change of a core (R183) -/

/-- A change of a core that leaves its matrix entries leaves those of every core. -/
theorem any_fifo_modCore (s : State) (id : CoreId) {F : Core → Core} (hF : ∀ c, (F c).fifo = c.fifo) (p : MEntry → Bool) :
    ((s.modCore id F).cores.any fun c => c.fifo.any p) = s.cores.any fun c => c.fifo.any p := by
  unfold State.modCore
  split
  · simp only [modWhere, List.any_map, Function.comp_def]
    congr 1
    funext c
    split <;> simp [hF]
  · simp [hF, Core.empty]

/-! ### A group that retires (R122, R153, R201, R294) -/

/-- A change of packages that keeps their ranks and their memories. -/
theorem samePkgMemories_modWhere (s : State) (p : Pkg → Bool) {F : Pkg → Pkg} (hr : ∀ x, (F x).rank = x.rank)
    (hm : ∀ x, (F x).memories = x.memories) : SamePkgMemories s { s with pkgs := modWhere p F s.pkgs } := by
  intro r
  simp only [State.pkg?]
  rw [find_modWhere _ _ _ _ fun x => by rw [hr], Option.map_map]
  refine congrArg (fun G => (s.pkgs.find? fun x => x.rank == r).map G) (funext fun x => ?_)
  rw [Function.comp_apply]
  split
  · exact hm x
  · rfl

/-- The monitors that a group frees hold no byte. -/
theorem samePkgMemories_freeReplied (s : State) (gid : Nat) (seq : Option Nat) : SamePkgMemories s (freeReplied s gid seq) :=
  samePkgMemories_modWhere s _ (fun _ => rfl) fun _ => rfl

/-- The state in which the spill lines of a group, its window and the monitors that it was replied to are given back. -/
def State.freed (s : State) (g : Group) : State := freeReplied (freeWindow (spillDrop s g) g) g.gid none

/-- The state that a group has left. -/
def State.without (s : State) (g : Group) : State :=
  let s := (s.freed g).modCore g.core fun c =>
    { c with latches := c.latches.filter fun l => l.gid != g.gid, acqs := c.acqs.filter fun a => a.gid != g.gid }
  { s with groups := s.groups.filter fun x => x.gid != g.gid, sliceWaits := s.sliceWaits.filter fun w => w.gid != g.gid }

section
variable (s : State) (g : Group)

theorem State.freed_beyondMemory : BeyondMemory (spillDrop s g) (s.freed g) :=
  (beyondMemory_freeWindow (spillDrop s g) g).trans ⟨rfl⟩

theorem State.without_groups : (s.without g).groups = s.groups.filter fun x => x.gid != g.gid := by
  show ((s.freed g).modCore _ _).groups.filter _ = _
  rw [State.modCore_groups, (s.freed_beyondMemory g).groups, spillDrop, State.modCore_groups]

theorem State.without_teams : (s.without g).teams = s.teams := by
  show ((s.freed g).modCore _ _).teams = _
  rw [State.modCore_teams, (s.freed_beyondMemory g).teams, spillDrop, State.modCore_teams]

theorem State.without_segs : (s.without g).segs = s.segs := by
  show ((s.freed g).modCore _ _).segs = _
  rw [State.modCore_segs, (s.freed_beyondMemory g).segs, spillDrop, State.modCore_segs]

/-- The matrix entries of the cores stay posted (R183). -/
theorem State.without_fifo (p : MEntry → Bool) :
    ((s.without g).cores.any fun c => c.fifo.any p) = s.cores.any fun c => c.fifo.any p := by
  calc ((s.without g).cores.any fun c => c.fifo.any p)
      = (s.freed g).cores.any fun c => c.fifo.any p := any_fifo_modCore _ _ (by intro c; rfl) p
    _ = (spillDrop s g).cores.any fun c => c.fifo.any p := by rw [(s.freed_beyondMemory g).cores]
    _ = s.cores.any fun c => c.fifo.any p := any_fifo_modCore _ _ (by intro c; rfl) p

theorem State.without_shared (tid a : Nat) : byteAt (s.without g) (.shared tid a) = byteAt s (.shared tid a) := by
  simp only [byteAt, State.team?, s.without_teams]

theorem State.without_tile (tid a : Nat) : byteAt (s.without g) (.tile tid a) = byteAt s (.tile tid a) := by
  simp only [byteAt, State.team?, s.without_teams]

theorem State.without_scratch (seg a : Nat) : byteAt (s.without g) (.scratch seg a) = byteAt s (.scratch seg a) := by
  simp only [byteAt, s.without_segs]

/-- Where no spill window takes free contents, every byte outside the spill buffers is as before. -/
theorem State.without_bytes (h : ((s.ctx? g.rank g.ctx).map (·.spstride)).getD 0 = 0) {p : Place} (hp : ∀ c x a, p ≠ .spill c x a) :
    byteAt (s.without g) p = byteAt s p := by
  have hctx : (spillDrop s g).ctxs = s.ctxs := by rw [spillDrop, State.modCore_ctxs]
  have hwindow : freeWindow (spillDrop s g) g = spillDrop s g := freeWindow_of_noStride (by rw [State.ctx?, hctx]; exact h)
  have hfreed : s.freed g = freeReplied (spillDrop s g) g.gid none := by rw [State.freed, hwindow]
  have hmem : SamePkgMemories s { s.without g with cores := s.cores } := fun r => by
    have h := samePkgMemories_freeReplied (spillDrop s g) g.gid none r
    rw [← hfreed] at h
    simpa [State.pkg?, State.without, spillDrop] using h
  have hhost : (s.without g).host = s.host := by
    show ((s.freed g).modCore _ _).host = _
    rw [State.modCore_host, hfreed]
    show (spillDrop s g).host = _
    rw [spillDrop, State.modCore_host]
  have hcores : byteAt (s.without g) p = byteAt { s.without g with cores := s.cores } p := by
    cases p with
    | spill c x a => exact absurd rfl (hp c x a)
    | _ => rfl
  rw [hcores]
  exact sameBytes_of_pkgMemories (t := { s.without g with cores := s.cores }) hhost hmem (s.without_teams g) (s.without_segs g)
    (fun _ => rfl) p

/-- A group that is gone is found no more, and every other is as before. -/
theorem State.without_group (n : Nat) : (s.without g).group? n = if n = g.gid then none else s.group? n := by
  rw [State.group?, s.without_groups, List.find?_filter]
  by_cases hn : n = g.gid
  · rw [if_pos hn, List.find?_eq_none]
    intro x _
    simp [hn]
  · rw [if_neg hn, State.group?]
    refine congrArg (fun q => s.groups.find? q) (funext fun x => ?_)
    by_cases hx : x.gid = n <;> simp [hx, hn]

end

/-- A retiring group leaves, and its team is over if that empties it (R153). -/
theorem retireGroup_of_noWave {s : State} {gid : Nat} {g : Group} (hg : s.group? gid = some g) (hw : g.wave = none) :
    retireGroup s gid = match s.team? g.tid with
      | none => s.without g
      | some t => teamOver (s.without g) t := by
  have hgid := State.gid_of_group hg
  subst hgid
  have hteam : (s.without g).team? g.tid = s.team? g.tid := by rw [State.team?, s.without_teams, State.team?]
  rw [← hteam, retireGroup, hg]
  simp only [hw]
  rfl

end Sys2Proof.Machine

namespace Sys2Proof.Machine

open Sys2Proof.Safety

/-! ### A team that is over (R153) -/

/-- A change of a team that leaves its memories leaves every byte. -/
theorem sameBytes_modTeam (s : State) (tid : Nat) {F : Team → Team} (hid : ∀ x, (F x).tid = x.tid)
    (hshared : ∀ x, (F x).shared = x.shared) (hacc : ∀ x, (F x).acc = x.acc) : SameBytes s (s.modTeam tid F) := by
  have hread {α : Type} (φ : Team → α) (hφ : ∀ x, φ (F x) = φ x) (n : Nat) :
      ((s.modTeam tid F).team? n).map φ = (s.team? n).map φ := by
    rw [State.team_modTeam s tid n F hid, Option.map_map]
    refine congrArg (fun G => (s.team? n).map G) (funext fun x => ?_)
    rw [Function.comp_apply]
    split
    · exact hφ x
    · rfl
  intro p
  cases p with
  | shared n a => exact hread (fun x => x.shared.bytes.read a) (fun x => by rw [hshared]) n
  | tile n a => exact hread (fun x => x.acc.bytes.read a) (fun x => by rw [hacc]) n
  | _ => rfl

theorem teamOver_sameBytes (s : State) (t : Team) : SameBytes s (teamOver s t) := by
  unfold teamOver
  split
  · exact sameBytes_modTeam s t.tid (fun _ => rfl) (fun _ => rfl) fun _ => rfl
  · exact fun _ => rfl

theorem teamOver_group (s : State) (t : Team) (n : Nat) : (teamOver s t).group? n = s.group? n := by
  unfold teamOver
  split <;> simp

/-- A team that has become empty has exited. -/
theorem teamOver_team {s : State} {t : Team} {tid : Nat} (ht : s.team? tid = some t) :
    ((teamOver s t).team? tid).map (·.st) = some (if teamEmpty s tid then .exited else t.st) := by
  have htid : t.tid = tid := by simpa using List.find?_some ht
  subst htid
  unfold teamOver
  split
  · show ((s.modTeam t.tid _).team? t.tid).map _ = _
    rw [State.team_modTeam _ _ _ _ (by intro x; rfl), ht]
    simp
  · show (s.team? t.tid).map _ = _
    rw [ht]
    rfl

/-! ### The retirement of a group (R153, R199, R201) -/

section
variable {s : State} {gid : Nat} {g : Group} (hg : s.group? gid = some g) (hw : g.wave = none)

include hg hw

theorem retireGroup_group (n : Nat) : (retireGroup s gid).group? n = if n = gid then none else s.group? n := by
  rw [retireGroup_of_noWave hg hw, ← State.gid_of_group hg, ← s.without_group]
  split
  · rfl
  · rw [teamOver_group]

theorem retireGroup_bytes (p : Place) : byteAt (retireGroup s gid) p = byteAt (s.without g) p := by
  rw [retireGroup_of_noWave hg hw]
  split
  · rfl
  · exact teamOver_sameBytes _ _ p

/-- The team ends with its last group, once no core holds a posted matrix entry of it (R153, R183). -/
theorem retireGroup_team {t : Team} (ht : s.team? g.tid = some t)
    (hlast : ∀ x ∈ s.groups, x.tid = g.tid → x.gid = g.gid ∨ x.wave ≠ none) :
    ((retireGroup s gid).team? g.tid).map (·.st) =
      if ∃ c ∈ s.cores, ∃ e ∈ c.fifo, e.tid = g.tid then some t.st else some .exited := by
  have hteam : (s.without g).team? g.tid = some t := by rw [State.team?, s.without_teams]; exact ht
  have halone : ((s.without g).groups.any fun x => x.tid == g.tid && x.wave.isNone) = false := by
    rw [s.without_groups, List.any_eq_false]
    intro x hx
    obtain ⟨hmem, hne⟩ := List.mem_filter.1 hx
    simp only [Bool.and_eq_true, beq_iff_eq, Option.isNone_iff_eq_none, not_and]
    exact fun htid => (hlast x hmem htid).resolve_left (bne_iff_ne.1 hne)
  have hempty : teamEmpty (s.without g) g.tid = !(s.cores.any fun c => c.fifo.any fun e => e.tid == g.tid) := by
    rw [teamEmpty, halone, s.without_fifo]
    rfl
  have hposted : (s.cores.any fun c => c.fifo.any fun e => e.tid == g.tid) = true ↔
      ∃ c ∈ s.cores, ∃ e ∈ c.fifo, e.tid = g.tid := by simp
  rw [retireGroup_of_noWave hg hw, ht]
  show ((teamOver (s.without g) t).team? g.tid).map _ = _
  rw [teamOver_team hteam, hempty]
  by_cases hp : ∃ c ∈ s.cores, ∃ e ∈ c.fifo, e.tid = g.tid
  · rw [if_pos hp, hposted.2 hp]; rfl
  · rw [if_neg hp, Bool.eq_false_iff.2 (mt hposted.1 hp)]; rfl

end

/-! ### Slots that exit (R122, R137) -/

/-- The fragment without the slots of m; none when it has no other. -/
def Frag.without (f : Frag) (m : Mask) : Option Frag :=
  if f.mask &&& ~~~m == 0 then none else some { f with mask := f.mask &&& ~~~m }

theorem Frag.without_of_subset {f : Frag} {m : Mask} (h : ∀ i, i < 16 → f.mask.getLsbD i = true → m.getLsbD i = true) :
    f.without m = none := if_pos (beq_iff_eq.2 (sdiff_eq_zero_iff.2 h))

theorem Frag.without_of_stays {f : Frag} {m : Mask} {i : Nat} (hi : i < 16) (hf : f.mask.getLsbD i = true)
    (hm : m.getLsbD i = false) : f.without m = some { f with mask := f.mask &&& ~~~m } :=
  if_neg fun h => Bool.false_ne_true (hm.symm.trans (sdiff_eq_zero_iff.1 (beq_iff_eq.1 h) i hi hf))

/-- The group after the slots of m have exited. -/
def Group.exit (g : Group) (m : Mask) : Group :=
  { g with exited := g.exited ||| m, frags := g.frags.map fun f => f.bind fun f => f.without m }

theorem Group.exit_frag (g : Group) (m : Mask) (k : Nat) : (g.exit m).frag k = (g.frag k).bind fun f => f.without m := by
  cases h : g.frags[k]? <;> simp [Group.exit, Group.frag, h]

theorem Group.exit_quiet {g : Group} (h : g.Quiet) (m : Mask) : (g.exit m).Quiet := ⟨h.recs, h.jmask, h.spilled⟩

/-- Slots of a group exit: it retires when all have (R122). -/
theorem exitSlots_of_quiet {s : State} {gid : Nat} {g : Group} (hg : s.group? gid = some g) (hq : g.Quiet) (m : Mask) :
    exitSlots s gid m =
      if g.exited ||| m == 0xFFFF then retireGroup (s.modGroup gid fun g => g.exit m) gid else s.modGroup gid fun g => g.exit m := by
  have hexit : (s.modGroup gid fun g => g.exit m).group? gid = some (g.exit m) := State.group_modGroup_same hg fun _ => rfl
  show (match (settle (s.modGroup gid fun g => g.exit m) gid).group? gid with
    | none => settle (s.modGroup gid fun g => g.exit m) gid
    | some h =>
      if h.exited == 0xFFFF then retireGroup (settle (s.modGroup gid fun g => g.exit m) gid) gid
      else settle (s.modGroup gid fun g => g.exit m) gid) = _
  rw [settle_quiet hexit (g.exit_quiet hq m), hexit]
  rfl

/-- A mask is full when it holds every slot. -/
theorem mask_eq_full_iff {m : Mask} : m = 0xFFFF ↔ ∀ i, i < 16 → m.getLsbD i = true := by
  have hfull : (0xFFFF : Mask) = BitVec.allOnes 16 := rfl
  rw [hfull]
  have hbit (i : Nat) (hi : i < 16) : (BitVec.allOnes 16).getLsbD i = true := by rw [BitVec.getLsbD_allOnes, decide_eq_true hi]
  exact ⟨fun h i hi => by rw [h, hbit i hi], fun h => mask_ext fun i hi => by rw [h i hi, hbit i hi]⟩

/-- With nothing queued no SRW write takes effect (R32). -/
theorem Group.flushSrw_of_none {g : Group} (h : g.srwq = []) (e : Nat) : g.flushSrw e = g := by
  simp only [Group.flushSrw, h, List.filter_nil, List.foldl_nil]
  rw [← h]

/-- A group that is not the one updated was there before. -/
theorem State.mem_groups_of_modGroup {s : State} {gid : Nat} {F : Group → Group} (hF : ∀ x, (F x).gid = x.gid) {x : Group}
    (hx : x ∈ (s.modGroup gid F).groups) (hne : x.gid ≠ gid) : x ∈ s.groups := by
  obtain ⟨y, hy, rfl⟩ := List.mem_map.1 hx
  by_cases h : y.gid = gid
  · simp [h, hF] at hne
  · simpa [h] using hy

/-! ### EXIT (R122) -/

/-- The state in which the slots of m of the issuer's group have exited: the SRW writes of its clause have taken effect (R32). -/
def State.exited (s : State) (is : Issuer) (m : Mask) : State :=
  (s.modGroup is.gid fun g => g.flushSrw is.entry).modGroup is.gid fun g => g.exit m

theorem State.mem_groups_of_exited {s : State} {is : Issuer} {m : Mask} {x : Group} (hx : x ∈ (s.exited is m).groups)
    (hne : x.gid ≠ is.gid) : x ∈ s.groups :=
  State.mem_groups_of_modGroup (F := fun g => g.flushSrw is.entry) (fun x => (x.flushSrw_tables is.entry).gid)
    (State.mem_groups_of_modGroup (F := fun g => g.exit m) (fun _ => rfl) hx hne) hne

section
variable {s : State} {is : Issuer} {g : Group} {f : Frag} {gd : Guard} {m : Mask} (hi : Issues s is g f) (hw : g.wave = none)
  (hm : Iss.guarded ⟨s, is, g, f⟩ gd = m)

include hi in
theorem becomes_exited (hsrw : g.srwq = []) (m : Mask) : Becomes s (s.exited is m) is.gid (g.exit m) := by
  obtain ⟨hgroup, honly⟩ := becomes_modGroup (F := fun g => g.flushSrw is.entry) hi.group fun x => (x.flushSrw_tables is.entry).gid
  rw [Group.flushSrw_of_none hsrw] at hgroup
  obtain ⟨hgroup', honly'⟩ := becomes_modGroup (F := fun g => g.exit m) hgroup fun _ => rfl
  exact ⟨hgroup', onlyGroup_trans honly honly'⟩

include hi hm in
theorem exec_exit_none (h0 : m = 0) : exec (.exit gd) s = .next (goTo s is f.nextClause) := by
  show execExit gd s = _
  rw [execExit, issue_inWave hi]
  exact congrArg _ (if_pos (by rw [hm, h0]; rfl))

section
variable (hq : g.Quiet) (hsrw : g.srwq = []) (h0 : m ≠ 0)

include hi hw hm h0 in
theorem exec_exit : exec (.exit gd) s = .next (
    if f.mask &&& ~~~m == 0 then exitSlots (s.modGroup is.gid fun g => g.flushSrw is.entry) is.gid m
    else toNext (exitSlots (s.modGroup is.gid fun g => g.flushSrw is.entry) is.gid m) is f.nextClause) := by
  show execExit gd s = _
  rw [execExit, issue_inWave hi]
  refine congrArg _ ?_
  dsimp only
  rw [hm, if_neg (by simpa using h0), spendBudget_of_noWave _ hw, if_neg (by simp [waveEnded, hw])]

include hi hq hsrw in
theorem exitSlots_flushed : exitSlots (s.modGroup is.gid fun g => g.flushSrw is.entry) is.gid m =
    if g.exited ||| m == 0xFFFF then retireGroup (s.exited is m) is.gid else s.exited is m := by
  have hgroup := State.group_modGroup_same (F := fun g => g.flushSrw is.entry) hi.group fun x => (x.flushSrw_tables is.entry).gid
  rw [Group.flushSrw_of_none hsrw] at hgroup
  exact exitSlots_of_quiet hgroup hq m

include hi hw hm hq hsrw h0

/-- Some slots exit, and those of the fragment that stay go on at the next clause (R122). -/
theorem exec_exit_stay (hstay : f.mask &&& ~~~m ≠ 0) (hfull : g.exited ||| m ≠ 0xFFFF) :
    exec (.exit gd) s = .next (goTo (s.exited is m) is f.nextClause) := by
  have hgroup := (becomes_exited hi hsrw m).1
  rw [exec_exit hi hw hm h0, if_neg (by simpa using hstay), exitSlots_flushed hi hq hsrw, if_neg (by simpa using hfull)]
  simp only [goTo, hgroup, spendBudget_of_noWave _ (show (g.exit m).wave = none from hw)]

/-- The last slots exit, and the group retires (R122, R153). -/
theorem exec_exit_last (hfull : g.exited ||| m = 0xFFFF) : exec (.exit gd) s = .next (retireGroup (s.exited is m) is.gid) := by
  have hgone : (retireGroup (s.exited is m) is.gid).group? is.gid = none := by
    rw [retireGroup_group (becomes_exited hi hsrw m).1 hw, if_pos rfl]
  have hnext : toNext (retireGroup (s.exited is m) is.gid) is f.nextClause = retireGroup (s.exited is m) is.gid := by
    simp only [toNext, hgone]
  rw [exec_exit hi hw hm h0, exitSlots_flushed hi hq hsrw, if_pos (beq_iff_eq.2 hfull), hnext, ite_self]

end

end

/-- Settles O25: with no slot of the execution set it goes on; with some the group changes; with the last it retires. -/
theorem exitWord : Obligations.ExitWord := by
  intro gd s is g f hi hw hrec hj hsp hsrw E next
  have hq : g.Quiet := ⟨Vector.ext fun i h => by simpa [Group.rec?, h] using hrec i, hj, hsp⟩
  have hbits (slot : Nat) (h : slot < 16) : (Iss.guarded ⟨s, is, g, f⟩ gd).getLsbD slot = E slot := getLsbD_guarded s is g f gd h
  have hsome := guarded_ne_zero_iff s is g f gd
  have hrest := rest_ne_zero_iff s is g f gd
  have hnone := guarded_eq_zero_iff s is g f gd
  generalize hm : Iss.guarded ⟨s, is, g, f⟩ gd = m at *
  have hor (slot : Nat) (hs : slot < 16) : (g.exited ||| m).getLsbD slot = (g.exited.getLsbD slot || E slot) := by
    rw [BitVec.getLsbD_or, hbits slot hs]
  obtain ⟨hgroup, honly⟩ := becomes_exited hi hsrw m
  refine ⟨fun h => exec_exit_none hi hm (hnone.2 h), fun hE hN hleft => ?_, fun hE hall => ?_⟩
  · have hfull : g.exited ||| m ≠ 0xFFFF := by
      obtain ⟨slot, hs, hout, hstay⟩ := hleft
      intro h
      have hbit := mask_eq_full_iff.1 h slot hs
      rw [hor slot hs, hout, hstay] at hbit
      cases hbit
    refine ⟨s.exited is m, g.exit m, exec_exit_stay hi hw hm hq hsrw (hsome.2 hE) (hrest.2 hN) hfull, ⟨hgroup, honly⟩, rfl, hor,
      fun k _ => ?_⟩
    rw [Group.exit_frag]
    cases g.frag k with
    | none => rfl
    | some h =>
      rw [Option.bind_some]
      refine ⟨fun hin => Frag.without_of_subset fun i hi hb => (hbits i hi).trans (hin i hi hb), fun hout => ?_⟩
      obtain ⟨slot, hs, hb, hE⟩ := hout
      refine ⟨h.mask &&& ~~~m, Frag.without_of_stays hs hb ((hbits slot hs).trans hE), fun i hi => ?_⟩
      rw [BitVec.getLsbD_and, BitVec.getLsbD_not, hbits i hi, decide_eq_true hi, Bool.true_and]
  · have hfull : g.exited ||| m = 0xFFFF := mask_eq_full_iff.2 fun slot hs => by rw [hor slot hs]; simpa using hall slot hs
    have hbytes := retireGroup_bytes hgroup hw
    refine ⟨_, exec_exit_last hi hw hm hq hsrw (hsome.2 hE) hfull, (retireGroup_group hgroup hw _).trans (if_pos rfl),
      fun n hn => ?_, fun tm htm hlast => ?_, fun tid a => ⟨?_, ?_⟩, fun seg a => ?_, fun hstride p hp => ?_⟩
    · rw [retireGroup_group hgroup hw, if_neg hn, honly.groups n hn]
    · refine retireGroup_team hgroup hw htm fun x hx htid => ?_
      by_cases hgid : x.gid = is.gid
      · exact .inl (hgid.trans (State.gid_of_group hi.group).symm)
      · exact hlast x (State.mem_groups_of_exited hx hgid) htid
    · rw [hbytes, State.without_shared, honly.bytes]
    · rw [hbytes, State.without_tile, honly.bytes]
    · rw [hbytes, State.without_scratch, honly.bytes]
    · exact ((hbytes p).trans ((s.exited is m).without_bytes (g.exit m) hstride hp)).trans (honly.bytes p)

end Sys2Proof.Machine

namespace Sys2Proof.Machine

/-! ### The events of a barrier (R149) -/

/-- A broken barrier answers no event but a new start. -/
theorem Barrier.event_broken {b : Barrier} (hb : b.broken = true) (n : Nat) :
    b.event (.expect n) = b ∧ b.event (.deliver n) = b ∧ b.event .arrive = b := by
  simp [Barrier.event, hb]

/-- An expect completes no phase. -/
theorem Barrier.event_expect_phase (b : Barrier) (n : Nat) : (b.event (.expect n)).phase = b.phase := by
  simp only [Barrier.event]
  split
  · rfl
  · split <;> rfl

section
variable {b : Barrier} (hb : b.broken = false)
include hb

theorem Barrier.event_expect {n : Nat} (h : b.pend + n ≤ 2 ^ 39 - 1) : b.event (.expect n) = { b with pend := b.pend + n } := by
  simp only [Barrier.event, hb, Bool.false_eq_true, if_false, if_neg (not_lt.2 h)]

theorem Barrier.event_expect_over {n : Nat} (h : b.pend + n > 2 ^ 39 - 1) : b.event (.expect n) = { b with broken := true } := by
  simp only [Barrier.event, hb, Bool.false_eq_true, if_false, if_pos h]

theorem Barrier.event_deliver {n : Nat} (hmin : b.pend - n ≥ -(2 ^ 39)) (h : b.count < b.target ∨ b.pend - n > 0) :
    b.event (.deliver n) = { b with pend := b.pend - n } := by
  have hover : ¬((b.count = b.target ∧ b.pend - n < 0) ∨ b.pend - n < -(2 ^ 39)) := by omega
  have hlast : ¬(b.count = b.target ∧ b.pend - n = 0) := by omega
  simp only [Barrier.event, hb, Bool.false_eq_true, if_false, Bool.or_eq_true, Bool.and_eq_true, beq_iff_eq, decide_eq_true_eq,
    if_neg hover, if_neg hlast]

theorem Barrier.event_deliver_over {n : Nat} (h : (b.count = b.target ∧ b.pend - n < 0) ∨ b.pend - n < -(2 ^ 39)) :
    b.event (.deliver n) = { b with broken := true } := by
  simp only [Barrier.event, hb, Bool.false_eq_true, if_false, Bool.or_eq_true, Bool.and_eq_true, beq_iff_eq, decide_eq_true_eq,
    if_pos h]

/-- The last byte after the last arrival completes the phase. -/
theorem Barrier.event_deliver_last {n : Nat} (hc : b.count = b.target) (h : b.pend - n = 0) : b.event (.deliver n) = b.flip := by
  simp [Barrier.event, hb, hc, h]

theorem Barrier.event_arrive (hc : b.count + 1 < b.target) : b.event .arrive = { b with count := b.count + 1 } := by
  simp [Barrier.event, hb, hc, show ¬b.target ≤ b.count by omega]

/-- The last arrival: the phase completes when nothing is pending. -/
theorem Barrier.event_arrive_last (hc : b.count + 1 = b.target) : b.event .arrive =
    if b.pend > 0 then { b with count := b.target } else if b.pend < 0 then { b with broken := true } else b.flip := by
  simp [Barrier.event, hb, ← hc]

theorem Barrier.event_arrive_over (hc : b.count = b.target) : b.event .arrive = { b with broken := true } := by
  simp [Barrier.event, hb, hc]

end

/-- Settles O27: an event at an open barrier keeps, breaks or completes it by its bounds; a broken one takes none. -/
theorem barrierEvents : Obligations.BarrierEvents := by
  intro b n m _
  refine ⟨rfl, fun hb => Barrier.event_broken hb n, fun hb => ⟨Barrier.event_expect hb, Barrier.event_expect_over hb,
    Barrier.event_deliver hb, Barrier.event_deliver_over hb, Barrier.event_deliver_last hb, Barrier.event_arrive hb,
    fun hc hp => ?_, fun hc hp => ?_, fun hc hp => ?_, Barrier.event_arrive_over hb⟩⟩
  · rw [Barrier.event_arrive_last hb hc, if_pos hp]
  · rw [Barrier.event_arrive_last hb hc, if_neg (by omega), if_pos hp]
  · rw [Barrier.event_arrive_last hb hc, if_neg (by omega), if_neg (by omega), Barrier.flip, ← hp]

end Sys2Proof.Machine

namespace Sys2Proof.Machine

/-! ### One phase of a barrier (R149) -/

/-- Arrivals before the last are counted. -/
theorem Barrier.foldl_arrive {b : Barrier} (hb : b.broken = false) {k : Nat} (hk : b.count + k < b.target) :
    (List.replicate k BEv.arrive).foldl Barrier.event b = { b with count := b.count + k } := by
  induction k generalizing b with
  | zero => rfl
  | succ k ih =>
    rw [List.replicate_succ, List.foldl_cons, Barrier.event_arrive hb (by omega), Nat.add_comm k 1, ← Nat.add_assoc]
    exact ih (b := { b with count := b.count + 1 }) hb (show b.count + 1 + k < b.target by omega)

/-- All arrivals of a phase, with p bytes pending. -/
theorem Barrier.foldl_arrive_all {b : Barrier} (hb : b.broken = false) (hc : b.count = 0) (ht : 1 ≤ b.target) (hp : 0 ≤ b.pend) :
    (List.replicate b.target BEv.arrive).foldl Barrier.event b = if b.pend > 0 then { b with count := b.target } else b.flip := by
  obtain ⟨k, hk⟩ : ∃ k, b.target = k + 1 := ⟨b.target - 1, by omega⟩
  have hlast : ({ b with count := b.count + k } : Barrier).event .arrive = if b.pend > 0 then { b with count := b.target } else b.flip := by
    rw [Barrier.event_arrive_last (b := { b with count := b.count + k }) hb (show b.count + k + 1 = b.target by omega),
      if_neg (show ¬b.pend < 0 by omega)]
    rfl
  rw [hk, List.replicate_succ', List.foldl_append, Barrier.foldl_arrive hb (by omega), ← hk]
  exact hlast

/-- Deliveries of no bytes at a barrier that is ready for its phase leave it. -/
theorem Barrier.foldl_deliver_zero {b : Barrier} (hb : b.broken = false) (hc : b.count < b.target) (hp : b.pend = 0) {ds : List Nat}
    (hds : ds.sum = 0) : (ds.map BEv.deliver).foldl Barrier.event b = b := by
  induction ds with
  | nil => rfl
  | cons d ds ih =>
    rw [List.sum_cons] at hds
    obtain rfl : d = 0 := by omega
    rw [List.map_cons, List.foldl_cons, Barrier.event_deliver hb (by omega) (.inl hc)]
    simpa using ih (by omega)

/-- Deliveries of all the pending bytes, after the last arrival, complete the phase once. -/
theorem Barrier.foldl_deliver_all {b : Barrier} (hb : b.broken = false) (hc : b.count = b.target) (ht : 1 ≤ b.target)
    {ds : List Nat} (hp : 0 < b.pend) (hds : (ds.sum : Int) = b.pend) :
    (ds.map BEv.deliver).foldl Barrier.event b = b.flip := by
  induction ds generalizing b with
  | nil => simp at hds; omega
  | cons d ds ih =>
    rw [List.sum_cons, Nat.cast_add] at hds
    rw [List.map_cons, List.foldl_cons]
    by_cases hlast : b.pend - d = 0
    · rw [Barrier.event_deliver_last hb hc hlast]
      exact Barrier.foldl_deliver_zero (b := b.flip) hb (show 0 < b.target by omega) rfl (by omega)
    · rw [Barrier.event_deliver hb (by omega) (.inr (by omega))]
      exact ih (b := { b with pend := b.pend - d }) hb hc ht (show 0 < b.pend - d by omega) (show (ds.sum : Int) = b.pend - d by omega)

theorem barrierPhase : Claims.BarrierPhase := by
  intro b n ds hb hc hp ht hn hds arrived
  have hexpect : b.event (.expect n) = { b with pend := n } := by rw [Barrier.event_expect hb (by omega), hp, Int.zero_add]
  have harrived : arrived = if (n : Int) > 0 then { b with pend := n, count := b.target } else { b with pend := n }.flip := by
    show (List.replicate b.target BEv.arrive).foldl Barrier.event _ = _
    rw [hexpect]
    exact Barrier.foldl_arrive_all (b := { b with pend := n }) hb hc ht (Int.natCast_nonneg n)
  have hflip : b.flip = { b with phase := !b.phase } := by rw [Barrier.flip, ← hc, ← hp]
  rcases Nat.eq_zero_or_pos n with h0 | hpos
  · subst h0
    rw [harrived, if_neg (by simp)]
    exact ⟨fun h => absurd h (Nat.lt_irrefl 0), (Barrier.foldl_deliver_zero (b := b.flip) hb ht rfl hds).trans hflip⟩
  · rw [harrived, if_pos (by omega)]
    exact ⟨fun _ => rfl, (Barrier.foldl_deliver_all (b := { b with pend := n, count := b.target }) hb rfl ht (Int.natCast_pos.2 hpos)
      (congrArg Nat.cast hds)).trans hflip⟩

end Sys2Proof.Machine

namespace Sys2Proof.Machine

/-! ### What an event of a barrier does to the waits of a group (R149, R150) -/

/-- A fragment after the waits on a barrier are over. -/
def Frag.onBar (g : Group) (b : BReg) (broken : Bool) (f : Frag) : Frag := { f with wait := f.wait.map (Wait.onBar g b broken) }

/-- The waits of a group after those on a barrier are over. -/
def Group.endWaits (g : Group) (b : BReg) (broken : Bool) : Group :=
  { g with
    frags := g.frags.map fun f => f.map (Frag.onBar g b broken)
    spilled := g.spilled.map fun n => { n with wait := n.wait.map (Wait.onBar g b broken) } }

theorem Group.barRelease_eq (g : Group) (b : BReg) (broken : Bool) :
    g.barRelease b broken = if !broken && (g.endWaits b broken).waits != g.waits then (g.endWaits b broken).see b
      else g.endWaits b broken := rfl

theorem Group.endWaits_frag (g : Group) (b : BReg) (broken : Bool) (e : Nat) :
    (g.endWaits b broken).frag e = (g.frag e).map (Frag.onBar g b broken) :=
  Group.frag_map_frags g (Frag.onBar g b broken) e

/-- Every wait of the group has had the event. -/
theorem Group.endWaits_waits (g : Group) (b : BReg) (broken : Bool) :
    (g.endWaits b broken).waits = g.waits.map (Wait.onBar g b broken) := by
  have hres : (g.endWaits b broken).resident = g.resident.map fun x => (x.1, Frag.onBar g b broken x.2) := by
    simp only [Group.resident, Group.endWaits_frag, List.map_filterMap, Option.map_map, Function.comp_def]
  simp only [Group.waits, hres, List.map_append, List.map_filterMap, List.filterMap_map, Function.comp_def, Frag.onBar]
  simp only [Group.endWaits, List.filterMap_map, Function.comp_def]

theorem Group.mem_waits {g : Group} {e : Nat} {f : Frag} {w : Wait} (hf : g.frag e = some f) (hw : f.wait = some w) : w ∈ g.waits := by
  have he : e < 8 := Group.frag_lt hf
  refine List.mem_append_left _ (List.mem_filterMap.2 ⟨(e, f), List.mem_filterMap.2 ⟨e, mem_upTo.2 he, ?_⟩, hw⟩)
  rw [hf]
  rfl

theorem Wait.onBar_barw (g : Group) (b : BReg) (broken : Bool) (kd : Option KReg) :
    Wait.onBar g b broken (.barw kd b) = .barOver kd b broken := by
  simp [Wait.onBar]

/-- No wait is a BARW on the barrier any more. -/
theorem Wait.onBar_ne_barw (g : Group) (b : BReg) (broken : Bool) (kd : Option KReg) (w : Wait) :
    Wait.onBar g b broken w ≠ .barw kd b := by
  intro h
  cases w with
  | barw k c =>
    by_cases hc : c = b
    · rw [hc, Wait.onBar_barw] at h; cases h
    · simp [Wait.onBar, hc] at h
  | header x => simp only [Wait.onBar] at h; split at h <;> cases h
  | _ => cases h

/-- The waits of a group that waits on the barrier are not as they were. -/
theorem Group.endWaits_waits_ne {g : Group} {e : Nat} {f : Frag} {kd : Option KReg} {b : BReg} (broken : Bool) (hf : g.frag e = some f)
    (hw : f.wait = some (.barw kd b)) : (g.endWaits b broken).waits ≠ g.waits := by
  intro h
  have hmem := Group.mem_waits hf hw
  rw [← h, Group.endWaits_waits] at hmem
  obtain ⟨w, _, hw⟩ := List.mem_map.1 hmem
  exact Wait.onBar_ne_barw g b broken kd w hw

/-- The seen bit of one barrier turns, and no other (R150). -/
theorem Group.see_seen (g : Group) (b : BReg) {c : Nat} (hc : c < 32) :
    (g.see b).seen.getLsbD c = if c = b.toNat then !g.seen.getLsbD c else g.seen.getLsbD c := by
  rw [Group.see, BitVec.getLsbD_xor, getLsbD_twoPow hc]
  by_cases h : c = b.toNat <;> simp [h]

theorem Group.wakeIdle_frag (g : Group) (e : Nat) : g.wakeIdle.frag e = (g.frag e).map Frag.wake := Group.frag_map_frags g Frag.wake e

theorem barrierWaiters : Claims.BarrierWaiters := by
  intro g b old new e f kd hf hw h
  have hfrag (broken : Bool) : (g.endWaits b broken).frag e = some { f with wait := some (.barOver kd b broken) } := by
    rw [Group.endWaits_frag, hf, Option.map_some, Frag.onBar, hw, Option.map_some, Wait.onBar_barw]
  refine ⟨fun hbr hph => ?_, fun hold hnew => ?_, fun hbr hph hseen => ?_⟩
  · show g.barNotify b old new = g
    simp [Group.barNotify, hbr, hph]
  · have hh : h = g.endWaits b true := by
      show g.barNotify b old new = _
      simp [Group.barNotify, hold, hnew, Group.barRelease_eq]
    rw [hh]
    exact ⟨rfl, hfrag true⟩
  · have hh : h = ((g.endWaits b false).see b).wakeIdle := by
      show g.barNotify b old new = _
      simp [Group.barNotify, hbr, hph, hseen, Group.barRelease_eq, Group.endWaits_waits_ne false hf hw]
    have hturn {c : Nat} (hc : c < 32) : h.seen.getLsbD c = if c = b.toNat then !g.seen.getLsbD c else g.seen.getLsbD c := by
      rw [hh]
      exact Group.see_seen (g.endWaits b false) b hc
    refine ⟨?_, ?_, fun c hc hne => by rw [hturn hc, if_neg hne]⟩
    · rw [hh, Group.wakeIdle_frag]
      exact congrArg (Option.map Frag.wake) (hfrag false)
    · rw [hturn b.isLt, if_pos rfl]
      exact (Bool.eq_not_of_ne (Ne.symm hseen)).symm

end Sys2Proof.Machine

namespace Sys2Proof.Machine

open Sys2Proof.Safety

/-! ### An event on a barrier of a team (R149, R150, R332, R421) -/

/-- An event on a barrier changes of a group its waits and its seen bits alone. -/
theorem Group.barNotify_frame (g : Group) (b : BReg) (old new : Barrier) :
    { g.barNotify b old new with frags := g.frags, spilled := g.spilled, seen := g.seen } = g := by
  simp only [Group.barNotify, Group.barRelease_eq]
  split
  · split <;> rfl
  · split
    · split
      · split <;> rfl
      · rfl
    · rfl

theorem Group.barNotify_self (g : Group) (b : BReg) (x : Barrier) : g.barNotify b x x = g := by
  simp [Group.barNotify]

theorem Group.barNotify_gid (g : Group) (b : BReg) (old new : Barrier) : (g.barNotify b old new).gid = g.gid :=
  (congrArg Group.gid (g.barNotify_frame b old new) :)

theorem Group.barNotify_tid (g : Group) (b : BReg) (old new : Barrier) : (g.barNotify b old new).tid = g.tid :=
  (congrArg Group.tid (g.barNotify_frame b old new) :)

/-- A team with another barrier. -/
def Team.setBar (b : Nat) (x : Barrier) (t : Team) : Team := { t with bars := t.bars.setIfInBounds b x }

theorem Team.setBar_bar (t : Team) (b : BReg) (x : Barrier) : (t.setBar b.toNat x).bar b.toNat = x := by
  simp [Team.setBar, Team.bar, b.isLt]

theorem Team.setBar_setBar (t : Team) (b : Nat) (x y : Barrier) : (t.setBar b x).setBar b y = t.setBar b y := by
  simp only [Team.setBar]
  congr 1
  ext i hi
  simp only [Vector.getElem_setIfInBounds]
  split <;> rfl

/-- A package whose rings see a phase of a barrier of a team (R332). -/
def Pkg.seePhase (tid b : Nat) (p : Pkg) : Pkg := { p with rings := modWhere (fun r => r.tid == tid) (fun r => r.seePhase b) p.rings }

/-- Barrier b of a team becomes another, and the groups of the team learn of it. -/
def State.setBar (s : State) (tid : Nat) (b : BReg) (old new : Barrier) : State :=
  { s.modTeam tid (Team.setBar b.toNat new) with
    groups := modWhere (fun g => g.tid == tid) (fun g => g.barNotify b old new) s.groups }

/-- An event sets the barrier; the rings learn of a phase at once, and of the rest by moves to come (R332). -/
theorem barEvent_eq {s : State} {tid : Nat} {tm : Team} (ht : s.team? tid = some tm) (b : BReg) {ev : BEv} {old new : Barrier}
    (hold : tm.bar b.toNat = old) (hnew : old.event ev = new) :
    ∃ ms, barEvent s tid b ev = (if new.phase = old.phase then s.setBar tid b old new
        else (s.setBar tid b old new).modPkg tm.rank (Pkg.seePhase tm.tid b.toNat)).owe ms ∧
      (new.phase = old.phase → new.broken = old.broken → ms = []) := by
  have he : barEvent s tid b ev = ringNotify (s.setBar tid b old new) tm b.toNat old new := by
    unfold barEvent
    rw [ht]
    simp only [hold, hnew]
    rfl
  rw [he]
  unfold ringNotify
  simp only [beq_iff_eq, Bool.and_eq_true]
  by_cases hp : new.phase = old.phase
  · by_cases hb : new.broken = old.broken
    · exact ⟨[], by simp [hp, hb, State.owe], fun _ _ => rfl⟩
    · exact ⟨_, if_neg fun h => hb h.2, fun _ h => absurd h hb⟩
  · exact ⟨_, if_neg fun h => hp h.1, fun h => absurd h hp⟩

theorem State.setBar_group (s : State) (tid : Nat) (b : BReg) (old new : Barrier) (n : Nat) :
    (s.setBar tid b old new).group? n = (s.group? n).map fun g => if g.tid = tid then g.barNotify b old new else g := by
  unfold State.group? State.setBar
  rw [find_modWhere _ _ _ _ fun g => by rw [Group.barNotify_gid]]
  simp only [beq_iff_eq]

theorem State.setBar_team (s : State) (tid : Nat) (b : BReg) (old new : Barrier) (n : Nat) :
    (s.setBar tid b old new).team? n = (s.team? n).map fun t => if n = tid then t.setBar b.toNat new else t := by
  refine (s.team_modTeam tid n (Team.setBar b.toNat new) fun _ => rfl).trans ?_
  simp only [beq_iff_eq]

theorem State.setBar_bytes (s : State) (tid : Nat) (b : BReg) (old new : Barrier) : SameBytes s (s.setBar tid b old new) := fun p =>
  (sameBytes_of_memories (s := s.modTeam tid (Team.setBar b.toNat new)) rfl rfl rfl rfl (fun _ => rfl) p).trans
    (sameBytes_modTeam s tid (F := Team.setBar b.toNat new) (fun _ => rfl) (fun _ => rfl) (fun _ => rfl) p)

/-- An event of a barrier does to the state what R149, R150, R332 and R421 say. -/
theorem barEvent_becomes {s : State} {tid : Nat} {tm : Team} (ht : s.team? tid = some tm) (b : BReg) (ev : BEv) :
    BarrierBecomes s (barEvent s tid b ev) tid tm b ((tm.bar b.toNat).event ev) := by
  generalize hold : tm.bar b.toNat = old
  generalize hnew : old.event ev = new
  obtain ⟨ms, he, hms⟩ := barEvent_eq ht b hold hnew
  have hteam (n : Nat) : (barEvent s tid b ev).team? n = (s.setBar tid b old new).team? n := by rw [he]; split <;> rfl
  have hpkg {α : Type} (r : Nat) {φ : Pkg → α} (hφ : ∀ p, φ (Pkg.seePhase tm.tid b.toNat p) = φ p) :
      ((barEvent s tid b ev).pkg? r).map φ = (s.pkg? r).map φ := by
    rw [he]
    split
    · rfl
    · exact s.map_pkg_modPkg tm.rank (F := Pkg.seePhase tm.tid b.toNat) (fun _ => rfl) hφ r
  refine ⟨?_, fun n hn => ?_, fun n => ?_, fun r => hpkg r fun _ => rfl, fun hp => ?_, ?_, fun hp hb => ?_, fun p => ?_⟩
  · rw [hteam, State.setBar_team, ht, Option.map_some, if_pos rfl]
    rfl
  · rw [hteam, State.setBar_team]
    simp only [if_neg hn, Option.map_id']
  · rw [hold, ← State.setBar_group, he]
    split <;> rfl
  · rw [hold] at hp
    rw [he, if_pos hp]
    rfl
  · rw [he]; split <;> rfl
  · rw [hold] at hp hb
    rw [he, hms hp hb, if_pos hp]
    exact List.append_nil _
  · refine Eq.trans ?_ (s.setBar_bytes tid b old new p)
    rw [he]
    split
    · exact sameBytes_of_memories rfl rfl rfl rfl (fun _ => rfl) p
    · have hmem := samePkgMemories_modPkg (s.setBar tid b old new) tm.rank (F := Pkg.seePhase tm.tid b.toNat) (fun _ => rfl) fun _ => rfl
      exact sameBytes_of_pkgMemories (s := s.setBar tid b old new)
        (t := ((s.setBar tid b old new).modPkg tm.rank (Pkg.seePhase tm.tid b.toNat)).owe ms) rfl hmem rfl rfl (fun _ => rfl) p

/-- Two events, of which the first completes no phase and, where it breaks the barrier, is the last that it takes. -/
theorem barrierBecomes_trans {s t u : State} {tid : Nat} {tm : Team} {b : BReg} {x y : Barrier} (h : BarrierBecomes s t tid tm b x)
    (k : BarrierBecomes t u tid (tm.setBar b.toNat x) b y) (hphase : x.phase = (tm.bar b.toNat).phase)
    (hbroken : x.broken = (tm.bar b.toNat).broken ∨ y = x) : BarrierBecomes s u tid tm b y := by
  have hx : (tm.setBar b.toNat x).bar b.toNat = x := tm.setBar_bar b x
  have htwice (g : Group) : (g.barNotify b (tm.bar b.toNat) x).barNotify b x y = g.barNotify b (tm.bar b.toNat) y := by
    rcases hbroken with hb | rfl
    · have hone : g.barNotify b (tm.bar b.toNat) x = g := by simp [Group.barNotify, hb, hphase]
      rw [hone]
      simp only [Group.barNotify, hb, hphase]
    · exact Group.barNotify_self _ b y
  have hquiet (hy : y.broken = (tm.bar b.toNat).broken) : x.broken = (tm.bar b.toNat).broken := by
    rcases hbroken with hb | rfl
    · exact hb
    · exact hy
  refine ⟨k.team.trans ?_, fun n hn => (k.teams n hn).trans (h.teams n hn), fun n => ?_, fun r => (k.pkgs r).trans (h.pkgs r),
    fun hp => (k.rings (by rw [hx, hp, hphase])).trans (h.rings hphase), ?_,
    fun hp hb => (k.quiet (by rw [hx, hp, hphase]) (by rw [hx, hb, hquiet hb])).trans (h.quiet hphase (hquiet hb)),
    fun p => (k.bytes p).trans (h.bytes p)⟩
  · exact congrArg some (tm.setBar_setBar b.toNat x y)
  · rw [k.groups n, h.groups n, Option.map_map, hx]
    refine congrArg (fun F => (s.group? n).map F) (funext fun g => ?_)
    by_cases hg : g.tid = tid
    · simp only [Function.comp_apply, if_pos hg, Group.barNotify_tid, htwice]
    · simp only [Function.comp_apply, if_neg hg]
  · have := congrArg (fun x : State => { x with teams := s.teams, groups := s.groups, pkgs := s.pkgs, agenda := s.agenda }) k.rest
    exact this.trans h.rest

/-- An expect and then an arrival (R149, R175). -/
theorem barEvent_expect_arrive {s : State} {tid : Nat} {tm : Team} (ht : s.team? tid = some tm) (b : BReg) (n : Nat) :
    BarrierBecomes s (barEvent (barEvent s tid b (.expect n)) tid b .arrive) tid tm b
      (((tm.bar b.toNat).event (.expect n)).event .arrive) := by
  have h := barEvent_becomes ht b (.expect n)
  have k := barEvent_becomes h.team b .arrive
  rw [show ({ tm with bars := tm.bars.setIfInBounds b.toNat ((tm.bar b.toNat).event (.expect n)) } : Team) =
    tm.setBar b.toNat ((tm.bar b.toNat).event (.expect n)) from rfl, Team.setBar_bar] at k
  refine barrierBecomes_trans h k ?_ ?_
  · exact Barrier.event_expect_phase (tm.bar b.toNat) n
  · cases hb : ((tm.bar b.toNat).event (.expect n)).broken with
    | true => exact .inr (Barrier.event_broken hb n).2.2
    | false =>
      refine .inl ?_
      cases ho : (tm.bar b.toNat).broken with
      | false => rfl
      | true => rw [(Barrier.event_broken ho n).1, ho] at hb; cases hb

end Sys2Proof.Machine

namespace Sys2Proof.Machine

open Sys2Proof.Safety

/-! ### The barrier words (R150, R175) -/

section
variable {s : State} {is : Issuer} {g : Group} {f : Frag} {ug : UGuard} (hi : Issues s is g f) (hw : g.wave = none)
  (hon : uniformOn g ug = true)
include hon

/-- A uniform word whose guard holds and whose registers are free executes (R50, R58). -/
theorem uniIssue_on (s : State) (is : Issuer) (f : Frag) (len : Nat) {regs : List Nat} (hk : g.ksBusy regs = false) (t : State) :
    uniIssue ⟨s, is, g, f⟩ ug len regs t = t := by
  have huok : Iss.uok ⟨s, is, g, f⟩ ug = true := hon
  simp only [uniIssue, huok, hk, Bool.not_true, Bool.false_eq_true, if_false]

include hi hw

/-- A uniform word of a fragment that issues, executed. -/
theorem issue_uniIssue {len : Nat} {regs : List Nat} (hk : g.ksBusy regs = false) (F : Iss → State) :
    (issue s false fun x => uniIssue x ug len regs (F x)) = .next (F ⟨s, is, g, f⟩) := by
  rw [issue_of_issues hi hw, uniIssue_on hon s is f len hk]

end

theorem Iss.releasing_iff (s : State) (is : Issuer) (g : Group) (f : Frag) : Iss.releasing ⟨s, is, g, f⟩ = true ↔
    ¬∀ x ∈ g.flights, (x.path = 5 ∨ x.path = 6) → x.fmask &&& f.mask ≠ 0 → x.done = true := by
  have hflight (x : Flight) : (!x.done && (x.path == 5 || x.path == 6) && (x.fmask &&& f.mask) != 0) = true ↔
      ¬((x.path = 5 ∨ x.path = 6) → x.fmask &&& f.mask ≠ 0 → x.done = true) := by
    cases x.done <;> simp
  simp only [Iss.releasing, List.any_eq_true, hflight, not_forall, exists_prop]

theorem barrierEventWords : Claims.BarrierEventWords := by
  intro b kb ug s is g f tm hi hw ht hon hk n o makes free
  have hks : g.ksBusy [kb.toNat] = false := by rw [Group.ksBusy_singleton, hk]
  have hinit : exec (.barinit b kb ug) s = .next (if n < 1 || 1023 < n then illegal ⟨s, is, g, f⟩ causeOperand
      else advance (barEvent s g.tid b (.init n)) is 1) := by
    show execBarinit b kb ug s = _
    exact issue_uniIssue hi hw hon hks _
  have hbarx (arr : Bool) : exec (.barx arr b kb ug) s = .next (if arr && Iss.releasing ⟨s, is, g, f⟩ then block s is .scoreboard
      else advance (Iss.barEv ⟨s, is, g, f⟩ b (if arr then [barxExpect n, .arrive] else [barxExpect n])) is 1) := by
    show execBarx arr b kb ug s = _
    exact issue_uniIssue hi hw hon hks _
  have hbara : exec (.bara b ug) s = .next (if Iss.releasing ⟨s, is, g, f⟩ then block s is .scoreboard
      else advance (barEvent s g.tid b .arrive) is 1) := by
    show execBara b ug s = _
    exact issue_uniIssue hi hw hon (regs := []) rfl _
  have hfree (h : free) : Iss.releasing ⟨s, is, g, f⟩ = false := by
    rw [Bool.eq_false_iff, ne_eq, Iss.releasing_iff, not_not]
    exact h
  have hexpect (h : n ≤ 2 ^ 39 - 1) : barxExpect n = .expect n := by rw [barxExpect, if_neg (by omega)]
  refine ⟨fun h1 h2 => ⟨_, ?_, barEvent_becomes ht b (.init n)⟩, fun h => ?_, fun h => ⟨_, ?_, barEvent_becomes ht b (.expect n)⟩,
    fun h hb hp => ⟨barEvent s g.tid b (.expect (2 ^ 64)), ?_, ?_⟩, fun hf h => ⟨_, ?_, barEvent_expect_arrive ht b n⟩,
    fun hf => ⟨_, ?_, barEvent_becomes ht b .arrive⟩, fun hf => ?_⟩
  · rw [hinit, if_neg (by simp; omega)]
  · rw [hinit, if_pos (by simp; omega)]
    rfl
  · rw [hbarx, hexpect h]
    rfl
  · rw [hbarx, barxExpect, if_pos h]
    rfl
  · rw [← Barrier.event_expect_over hb (n := 2 ^ 64) (by omega)]
    exact barEvent_becomes ht b _
  · rw [hbarx, hfree hf, hexpect h]
    rfl
  · rw [hbara, hfree hf]
    rfl
  · have hr : Iss.releasing ⟨s, is, g, f⟩ = true := (Iss.releasing_iff s is g f).2 hf
    rw [hbara, hbarx, hr]
    exact ⟨rfl, rfl⟩

/-! The fields of a barrier object (R148). -/

theorem Barrier.num_fields (o : Barrier) (hc : o.count < 2 ^ 10) (ht : o.target < 2 ^ 10) (hmin : -(2 ^ 39) ≤ o.pend)
    (hmax : o.pend < 2 ^ 39) :
    (o.num.setWidth 40).toInt = o.pend ∧ o.num.toNat / 2 ^ 40 % 2 ^ 10 = o.count ∧ o.num.toNat / 2 ^ 50 % 2 ^ 10 = o.target ∧
      o.num.getLsbD 60 = o.phase ∧ o.num.getLsbD 61 = o.broken ∧ o.num.getLsbD 62 = false ∧ o.num.getLsbD 63 = false := by
  have hw : wrapTo 40 o.pend < 2 ^ 40 := by unfold wrapTo; omega
  have hphase := b2n_le o.phase
  have hbroken := b2n_le o.broken
  have hnum : o.num = BitVec.ofNat 64
      (wrapTo 40 o.pend + o.count * 2 ^ 40 + o.target * 2 ^ 50 + b2n o.phase * 2 ^ 60 + b2n o.broken * 2 ^ 61) := by
    rw [Barrier.num, Nat.mod_eq_of_lt (show o.count < 1024 from hc), Nat.mod_eq_of_lt (show o.target < 1024 from ht)]
  rw [hnum]
  have hlow : ((BitVec.ofNat 64 (wrapTo 40 o.pend + o.count * 2 ^ 40 + o.target * 2 ^ 50 + b2n o.phase * 2 ^ 60 +
      b2n o.broken * 2 ^ 61)).setWidth 40).toNat = wrapTo 40 o.pend := by
    rw [BitVec.toNat_setWidth, BitVec.toNat_ofNat]; omega
  refine ⟨?_, ?_, ?_, getLsbD_ofNat_eq (by decide) (by omega), getLsbD_ofNat_eq (by decide) (by omega),
    getLsbD_ofNat_eq (b := false) (by decide) (show _ = 0 by omega), getLsbD_ofNat_eq (b := false) (by decide) (show _ = 0 by omega)⟩
  · rw [BitVec.toInt_eq_toNat_cond, hlow]
    unfold wrapTo
    split <;> omega
  · rw [BitVec.toNat_ofNat]; omega
  · rw [BitVec.toNat_ofNat]; omega

section
variable {s : State} {is : Issuer} {g : Group} {f : Frag} {ug : UGuard} {tm : Team} {b : BReg} (hi : Issues s is g f)
  (hw : g.wave = none) (ht : s.team? g.tid = some tm) (hon : uniformOn g ug = true)
include hi hw ht hon

/-- BARW, by what it finds of its barrier (R150, R175). -/
theorem exec_barw {kd : Option KReg} (hk : ∀ k, kd = some k → g.kbusy.getLsbD k.toNat = false) :
    exec (.barw kd b ug) s = .next (match barWait tm g b with
      | .unmet => block s is (.barw kd b)
      | .met => advance (s.modGroup is.gid fun g => (g.see b).setStatus kd stOk) is 1
      | .broken => barwBroken s is kd b) := by
  have hks : g.ksBusy (kd.toList.map fun k => k.toNat) = false := by
    cases kd with
    | none => rfl
    | some k => exact (Group.ksBusy_singleton g k.toNat).trans (hk k rfl)
  show execBarw kd b ug s = _
  rw [execBarw, issue_of_issues hi hw, uniIssue_on hon s is f 1 hks]
  simp only [barwTry, ht]
  cases barWait tm g b <;> rfl

/-- BART reads the barrier and goes on (R150, R175). -/
theorem exec_bart {op : BartOp} {d : KReg} (hk : g.kbusy.getLsbD d.toNat = false) :
    exec (.bart op d b ug) s = .next (advance (s.modGroup is.gid (bartFn op d b tm)) is 1) := by
  have hks : g.ksBusy (if op == .word then [d.toNat] else []) = false := by
    cases op with
    | word => exact (Group.ksBusy_singleton g d.toNat).trans hk
    | _ => rfl
  show execBart op d b ug s = _
  rw [execBart, issue_of_issues hi hw, uniIssue_on hon s is f 1 hks]
  simp only [ht]

end

theorem Group.setStatus_gid (g : Group) (kd : Option KReg) (n : Nat) : (g.setStatus kd n).gid = g.gid := by cases kd <;> rfl

theorem Group.setStatus_seen (g : Group) (kd : Option KReg) (n : Nat) : (g.setStatus kd n).seen = g.seen := by cases kd <;> rfl

theorem bartFn_gid (op : BartOp) (d : KReg) (b : BReg) (t : Team) (g : Group) : (bartFn op d b t g).gid = g.gid := by
  cases op with
  | take => simp only [bartFn]; split <;> rfl
  | _ => rfl

/-- The seen bit turns to the phase that the group had not seen (R150). -/
theorem Group.see_of_ne {g : Group} {b : BReg} {x : Bool} (h : (x != g.seen.getLsbD b.toNat) = true) {c : Nat} (hc : c < 32) :
    (g.see b).seen.getLsbD c = if c = b.toNat then x else g.seen.getLsbD c := by
  rw [Group.see_seen g b hc]
  split
  next he => subst he; exact (Bool.eq_not_of_ne (by simpa using h)).symm
  next => rfl

theorem barD_eq (b : BReg) : barD b = ⟨0, BitVec.ofNat 64 (b.toNat * 2 ^ 21), 0⟩ := by simp [barD, tinfoOf]

theorem barrierWaitWords : Claims.BarrierWaitWords := by
  intro kd d b ug s is g f tm hi hw ht hon hkd hd o differs status
  have hbecomes {F : Group → Group} (hF : ∀ x, (F x).gid = x.gid) : Becomes s (s.modGroup is.gid F) is.gid (F g) :=
    becomes_modGroup hi.group hF
  have hbart (op : BartOp) := hbecomes (bartFn_gid op d b tm)
  refine ⟨fun hb hdiff => ?_, fun hb hdiff => ?_, fun hb => ?_, ?_, fun _ => ?_, fun _ => ?_⟩
  · refine ⟨_, (g.see b).setStatus kd stOk, ?_, hbecomes fun x => Group.setStatus_gid (x.see b) kd stOk, ?_, ?_, fun c hc hne => ?_⟩
    · rw [exec_barw hi hw ht hon hkd, show barWait tm g b = .met by simp [barWait, o, hb, hdiff, differs]]
    · cases kd <;> rfl
    · rw [Group.setStatus_seen, Group.see_of_ne hdiff b.isLt, if_pos rfl]
    · rw [Group.setStatus_seen, Group.see_of_ne hdiff hc, if_neg hne]
  · rw [exec_barw hi hw ht hon hkd, show barWait tm g b = .unmet by simp [barWait, o, hb, hdiff, differs]]
  · refine ⟨_, hbecomes fun x => Group.setStatus_gid x kd stError, ?_⟩
    rw [exec_barw hi hw ht hon hkd, show barWait tm g b = .broken by simp [barWait, o, hb], ← barD_eq]
    rfl
  · exact ⟨_, _, exec_bart hi hw ht hon hd, hbart .word, Barrier.num_fields o⟩
  · exact ⟨_, exec_bart hi hw ht hon hd, hbart .q⟩
  · have htake : bartFn .take d b tm g = (if differs then g.see b else g).setQ d.toNat differs := rfl
    refine ⟨_, bartFn .take d b tm g, exec_bart hi hw ht hon hd, hbart .take, ?_, fun c hc => ?_⟩ <;> rw [htake]
    · cases differs <;> rfl
    · cases hdiff : differs with
      | true => exact Group.see_of_ne hdiff hc
      | false =>
        have hsame : o.phase = g.seen.getLsbD b.toNat := by simpa [differs] using hdiff
        show g.seen.getLsbD c = _
        split
        next he => rw [he, hsame]
        next => rfl

/-- Settles O28: each word makes its events through `barEvent`, and a wait ends by what its barrier holds. -/
theorem barrierWords : Obligations.BarrierWords := ⟨barrierPhase, barrierWaiters, barrierEventWords, barrierWaitWords⟩

end Sys2Proof.Machine

namespace Sys2Proof.Machine

/-! ### A queue whose header has another PRIO than when it was mapped (R158, R444, R445) -/

/-- Host memory: a queue header at 64 with RING 4,096, SIZE 1, PRIO 3 and TAIL 1, and at 4,096 a LAUNCH descriptor of one team of one
group on one core, with PRIORITY 3. -/
def raisedHeader : Mem :=
  [(65, 0x10), (72, 1), (76, 3), (92, 1), (4096, 1), (4120, 1), (4124, 1), (4128, 1), (4134, 1), (4135, 1), (4136, 1), (4137, 1),
    (4139, 3), (4140, 1)]

/-- The queue of that header as it was mapped, while PRIO was 0. -/
def raisedQueue : Queue := { hdr := 64, ctx := 0, prio := 0, head := 0, next := 0, round := 0, served := 0, since := 0 }

/-- A context with one spill window. -/
def raisedCtx : Ctx :=
  { rank := 0, id := 0, ptroot := 0, spbase := 0, spstride := 66 * 2 ^ 20, spcount := 1, gtbase := 0, rwbase := 0, rankmap := 0
    trapvec := 0, csave := 0, tsave := 0, fenced := false }

/-- A package whose one mapped queue is that queue. -/
def raisedPkg : Pkg := { Pkg.reset 0 with qslots := [(0, raisedQueue)] }

/-- The state from reset with that package, context and host memory. -/
def raisedState : State :=
  { State.reset with pkgs := [raisedPkg], ctxs := [raisedCtx], host := { mem := { bytes := raisedHeader, poison := [] }, events := [] } }

/-- The priorities of the grids after a step. -/
def prioritiesAfter (o : Outcome) : List Nat :=
  match o with
  | .next t => t.grids.map (·.priority)
  | .fault _ => []
  | .refused _ => []

/-- The dispatcher starts the descriptor's grid with the PRIO that the queue was mapped with. -/
theorem prioritiesAfter_gridDispatch : prioritiesAfter (exec (.gridDispatch 0) raisedState) = [0] := by
  decide +kernel

/-- Refutes O50: a host that raises PRIO in the header of a mapped queue is not heard by GRID_DISPATCH, which takes the grid's
priority from the PRIO read when the queue was mapped (0 here), where `GridDispatches` asks for the minimum of the header's
PRIO (3) and the descriptor's (3). -/
theorem not_gridSteps : ¬ Obligations.GridSteps := by
  intro h
  obtain ⟨_, _, _, hdispatch, _, _⟩ := h
  have hstarts := (hdispatch 0 raisedState raisedPkg 0 raisedQueue raisedCtx rfl rfl rfl rfl (fun _ hg => nomatch hg)
    (by decide +kernel) (by decide +kernel)).1 (by decide +kernel) (by decide +kernel) (by decide +kernel) (by decide +kernel)
    (fun _ _ hg => nomatch hg) (by decide +kernel)
  obtain ⟨t, g, tm, ht, hg, _, _, _, _, _, _, _, _, _, _, _, _, _, _, _, hprio, _⟩ := hstarts
  have hmem : g.priority ∈ prioritiesAfter (exec (.gridDispatch 0) raisedState) := by
    rw [ht]
    exact List.mem_map_of_mem hg
  rw [prioritiesAfter_gridDispatch, List.mem_singleton, hprio] at hmem
  exact absurd hmem (by decide +kernel)

end Sys2Proof.Machine

namespace Sys2Proof.Machine

open Sys2Proof.Safety

/-! ### Uniform words (R50, R131, R170) -/

section
variable {i : Instr} {ug : UGuard} {len : Nat} {regs : List Nat}

/-- A uniform word that changes its group by `F` does so when its guard holds, and only moves on when it does not (R50). -/
theorem uniformWord_of_exec {F : Group → Group} (hexec : ∀ s, exec i s = issue s true fun x => uniWord x ug len regs F)
    (hF : ∀ g, (F g).gid = g.gid) {R : Group → Group → Prop} (hR : ∀ g, R g (F g)) : UniformWord i ug len regs R := by
  intro s is g f hi hk
  have hword : exec i s = .next (uniWord ⟨s, is, g, f⟩ ug len regs F) := by rw [hexec, issue_inWave hi]
  have huok : Iss.uok ⟨s, is, g, f⟩ ug = uniformOn g ug := rfl
  cases hon : uniformOn g ug with
  | false =>
    refine ⟨s, g, ?_, hi.group, rfl, onlyGroup_refl s is.gid⟩
    rw [hword]
    simp only [uniWord, huok, hon, Bool.not_false, if_true]
  | true =>
    refine ⟨_, F g, ?_, State.group_modGroup_same hi.group hF, hR g, onlyGroup_modGroup s is.gid hF⟩
    rw [hword]
    simp only [uniWord, huok, hon, hk hon, Bool.not_true, Bool.false_eq_true, if_false]

/-- A uniform word that writes k d. -/
theorem uniformWord_writesK {d : KReg} {F : Group → DWord}
    (hexec : ∀ s, exec i s = issue s true fun x => uniWord x ug len regs fun g => g.setK d.toNat (F g))
    {P : Group → DWord → Prop} (hP : ∀ g, P g (F g)) : UniformWord i ug len regs (WritesK d P) :=
  uniformWord_of_exec hexec (fun _ => rfl) fun g => ⟨F g, rfl, hP g⟩

/-- A uniform word that writes q n. -/
theorem uniformWord_writesQ {n : Nat} {F : Group → Bool}
    (hexec : ∀ s, exec i s = issue s true fun x => uniWord x ug len regs fun g => g.setQ n (F g))
    {P : Group → Bool → Prop} (hP : ∀ g, P g (F g)) : UniformWord i ug len regs (WritesQ n P) :=
  uniformWord_of_exec hexec (fun _ => rfl) fun g => ⟨F g, rfl, hP g⟩

end

/-! ### The results of UALU (R171) -/

theorem toNat_ualuFn_ushl (x y : DWord) : (ualuFn .ushl x y).toNat = x.toNat * 2 ^ (y.toNat % 64) % 2 ^ 64 := by
  simp [ualuFn, bitsOf, Nat.shiftLeft_eq]

theorem toNat_ualuFn_ushr (x y : DWord) : (ualuFn .ushr x y).toNat = x.toNat / 2 ^ (y.toNat % 64) := by
  simp [ualuFn, bitsOf, Nat.shiftRight_eq_div_pow]

theorem toInt_ualuFn_usar (x y : DWord) : (ualuFn .usar x y).toInt = x.toInt / 2 ^ (y.toNat % 64) := by
  simp [ualuFn, bitsOf, Int.shiftRight_eq_div_pow]

theorem toInt_ualuFn_uminI (x y : DWord) : (ualuFn .uminI x y).toInt = min x.toInt y.toInt := by
  simp only [ualuFn, BitVec.slt, decide_eq_true_eq]; split <;> omega

theorem toInt_ualuFn_umaxI (x y : DWord) : (ualuFn .umaxI x y).toInt = max x.toInt y.toInt := by
  simp only [ualuFn, BitVec.slt, decide_eq_true_eq]; split <;> omega

theorem toNat_ualuFn_uminN (x y : DWord) : (ualuFn .uminN x y).toNat = min x.toNat y.toNat := by
  simp only [ualuFn, BitVec.ult, decide_eq_true_eq]; split <;> omega

theorem toNat_ualuFn_umaxN (x y : DWord) : (ualuFn .umaxN x y).toNat = max x.toNat y.toNat := by
  simp only [ualuFn, BitVec.ult, decide_eq_true_eq]; split <;> omega

/-! ### The conditions of UCMP (R64, R172) -/

section
variable (x y : DWord)

theorem ucmpFn_ltI : ucmpFn .ltI x y = true ↔ x.toInt < y.toInt := by simp [ucmpFn, BitVec.slt]
theorem ucmpFn_leI : ucmpFn .leI x y = true ↔ x.toInt ≤ y.toInt := by simp [ucmpFn, BitVec.slt]
theorem ucmpFn_gtI : ucmpFn .gtI x y = true ↔ y.toInt < x.toInt := by simp [ucmpFn, BitVec.slt]
theorem ucmpFn_geI : ucmpFn .geI x y = true ↔ y.toInt ≤ x.toInt := by simp [ucmpFn, BitVec.slt]
theorem ucmpFn_ltN : ucmpFn .ltN x y = true ↔ x.toNat < y.toNat := by simp only [ucmpFn, BitVec.ult, decide_eq_true_eq]
theorem ucmpFn_leN : ucmpFn .leN x y = true ↔ x.toNat ≤ y.toNat := by simp [ucmpFn, BitVec.ult]
theorem ucmpFn_gtN : ucmpFn .gtN x y = true ↔ y.toNat < x.toNat := by simp only [ucmpFn, BitVec.ult, decide_eq_true_eq]
theorem ucmpFn_geN : ucmpFn .geN x y = true ↔ y.toNat ≤ x.toNat := by simp [ucmpFn, BitVec.ult]

end

/-! ### The literals of UMOVL and UADDL (R173) -/

theorem toNat_pairOf (lo hi : Word) : (pairOf lo hi).toNat = lo.toNat + 2 ^ 32 * hi.toNat := by
  rw [pairOf, BitVec.toNat_ofNat]; omega

theorem toNat_umovlFn_hi (old : DWord) (x : Word) : (umovlFn .hi old x).toNat = old.toNat % 2 ^ 32 + 2 ^ 32 * x.toNat := by
  rw [umovlFn, toNat_pairOf, loOf_eq, BitVec.toNat_setWidth]

/-- Settles O19, table by table: a uniform word changes its group once, or only moves on. -/
theorem uniformWords : Obligations.UniformWords := by
  intro d a b q qa qb x ug K A C L
  exact ⟨uniformWord_writesK (fun _ => rfl) fun g => BitVec.toNat_add _ _,
    uniformWord_writesK (fun _ => rfl) fun g => cast_toNat_sub64 _ _,
    uniformWord_writesK (fun _ => rfl) fun g => BitVec.toNat_mul _ _,
    uniformWord_writesK (fun _ => rfl) fun g => rfl,
    uniformWord_writesK (fun _ => rfl) fun g => rfl,
    uniformWord_writesK (fun _ => rfl) fun g => rfl,
    uniformWord_writesK (fun _ => rfl) fun g => toNat_ualuFn_ushl _ _,
    uniformWord_writesK (fun _ => rfl) fun g => toNat_ualuFn_ushr _ _,
    uniformWord_writesK (fun _ => rfl) fun g => toInt_ualuFn_usar _ _,
    uniformWord_writesK (fun _ => rfl) fun g => toInt_ualuFn_uminI _ _,
    uniformWord_writesK (fun _ => rfl) fun g => toInt_ualuFn_umaxI _ _,
    uniformWord_writesK (fun _ => rfl) fun g => toNat_ualuFn_uminN _ _,
    uniformWord_writesK (fun _ => rfl) fun g => toNat_ualuFn_umaxN _ _,
    uniformWord_writesK (fun _ => rfl) fun g => rfl,
    uniformWord_writesQ (fun _ => rfl) fun g => beq_iff_eq,
    uniformWord_writesQ (fun _ => rfl) fun g => bne_iff_ne,
    uniformWord_writesQ (fun _ => rfl) fun g => ucmpFn_ltI _ _,
    uniformWord_writesQ (fun _ => rfl) fun g => ucmpFn_leI _ _,
    uniformWord_writesQ (fun _ => rfl) fun g => ucmpFn_gtI _ _,
    uniformWord_writesQ (fun _ => rfl) fun g => ucmpFn_geI _ _,
    uniformWord_writesQ (fun _ => rfl) fun g => ucmpFn_ltN _ _,
    uniformWord_writesQ (fun _ => rfl) fun g => ucmpFn_leN _ _,
    uniformWord_writesQ (fun _ => rfl) fun g => ucmpFn_gtN _ _,
    uniformWord_writesQ (fun _ => rfl) fun g => ucmpFn_geN _ _,
    uniformWord_writesQ (fun _ => rfl) fun g => rfl,
    uniformWord_writesQ (fun _ => rfl) fun g => rfl,
    uniformWord_writesQ (fun _ => rfl) fun g => rfl,
    uniformWord_writesQ (fun _ => rfl) fun g => rfl,
    uniformWord_writesQ (fun _ => rfl) fun g => rfl,
    uniformWord_writesQ (fun _ => rfl) fun g => rfl,
    uniformWord_writesQ (fun _ => rfl) fun g => rfl,
    uniformWord_writesQ (fun _ => rfl) fun g => rfl,
    uniformWord_writesK (fun _ => rfl) fun g => rfl,
    uniformWord_writesK (fun _ => rfl) fun g => BitVec.ofNat_toNat 64 x,
    uniformWord_writesK (fun _ => rfl) fun g => toNat_umovlFn_hi _ x,
    uniformWord_writesK (fun _ => rfl) fun g => cast_toNat_add_ofInt _ _⟩

end Sys2Proof.Machine

namespace Sys2Proof.Machine

open Sys2Proof.Safety

/-! ### Words that read the slots of their execution mask together (R163) -/

section
variable {i : Instr} {s : State} {is : Issuer} {g : Group} {f : Frag} {gd : Guard} {reads writes : List Nat}

/-- A mask holds the slots that a word reads: those of its execution mask that are their own source (R44, R163). -/
def ReadsSlots (g : Group) (f : Frag) (gd : Guard) (src : Mask) : Prop :=
  ∀ i, i < 16 → src.getLsbD i = (runsIn g f gd i && source f i == i)

/-- A thread word whose result rests on the slots that it reads completes when its registers are ready. -/
theorem threadDone_of_sources {F : Iss → Mask → Nat → Thread → TRes} {R : Nat → Thread → Thread → Prop}
    (hexec : exec i s = issue s true fun x => threadWord x gd 1 reads writes (F x)) (hi : Issues s is g f) (hr : Ready g f gd reads writes)
    (hplain : ∀ src slot t, (F ⟨s, is, g, f⟩ src slot t).rng = none ∧ (F ⟨s, is, g, f⟩ src slot t).conds = Conds.none)
    (hR : ∀ src slot old, ReadsSlots g f gd src → source f slot < 16 →
      R slot old ((F ⟨s, is, g, f⟩ src (source f slot) (g.thread (source f slot))).apply old)) :
    ThreadDone i s is g f gd 1 R := by
  obtain ⟨t, g', hword, hg', hthreads, hframe, honly⟩ := threadWord_ready hi.group hr 1 (F ⟨s, is, g, f⟩)
    fun slot _ _ _ src => by rw [(hplain src _ _).2, Conds.enabled_none]
  refine ⟨t, g', by rw [hexec, issue_inWave hi, hword], hg', fun slot h => ?_, hframe, honly⟩
  rw [hthreads slot h, TRes.into_of_noRng (hplain _ _ _).1]
  cases hrun : runsIn g f gd slot with
  | false => rfl
  | true =>
    have hm : Iss.guarded ⟨s, is, g, f⟩ gd ≠ 0 := fun h0 => by
      simpa [hrun] using (guarded_eq_zero_iff s is g f gd).1 h0 slot h
    exact hR _ slot _ (fun j hj => getLsbD_sources s is g f gd hj hm) (source_lt f h)

theorem ready_nil (g : Group) (f : Frag) (gd : Guard) : Ready g f gd [] [] :=
  ⟨fun _ _ _ _ h => (nomatch h), fun _ _ _ _ h => (nomatch h)⟩

end

/-! ### SHFL (R164) -/

/-- What a slot takes when its source slot is i: the value there when the word reads that slot, else its own. -/
theorem shflFrom_eq {src : Mask} {inp : Nat → Bool} (h : ∀ i, i < 16 → src.getLsbD i = inp i) (i : Int) (x y : Word) :
    (if 0 ≤ i && i ≤ 15 && src.getLsbD i.toNat then x else y) = if 0 ≤ i ∧ i ≤ 15 ∧ inp i.toNat = true then x else y := by
  by_cases hi : 0 ≤ i ∧ i ≤ 15
  · obtain ⟨h0, h15⟩ := hi
    rw [h i.toNat (by omega)]
    simp [h0, h15]
  · rw [if_neg (by simp only [Bool.and_eq_true, decide_eq_true_eq]; exact fun hc => hi hc.1), if_neg fun hc => hi ⟨hc.1, hc.2.1⟩]

/-! ### VOTE and BALLOT (R165, R166) -/

section
variable {src : Mask} {inp : Nat → Bool} (h : ∀ i, i < 16 → src.getLsbD i = inp i) (p : Nat → Bool)
include h

theorem mem_maskSlots_iff {i : Nat} : i ∈ maskSlots src ↔ i < 16 ∧ inp i = true := by
  rw [mem_maskSlots]
  exact ⟨fun hs => ⟨lt_of_getLsbD_mask hs, (h i (lt_of_getLsbD_mask hs)).symm.trans hs⟩, fun ⟨hi, hs⟩ => (h i hi).trans hs⟩

theorem voteFn_any : voteFn .any ((maskSlots src).map p) = true ↔ ∃ i, i < 16 ∧ inp i = true ∧ p i = true := by
  simp only [voteFn, List.any_map, List.any_eq_true, mem_maskSlots_iff h, and_assoc, Function.comp, id]

theorem voteFn_all : voteFn .all ((maskSlots src).map p) = true ↔ ∀ i, i < 16 → inp i = true → p i = true := by
  simp only [voteFn, List.all_map, List.all_eq_true, mem_maskSlots_iff h, and_imp, Function.comp, id]

theorem voteFn_eq : voteFn .eq ((maskSlots src).map p) = true ↔
    ∀ i j, i < 16 → j < 16 → inp i = true → inp j = true → p i = p j := by
  simp only [voteFn, Bool.or_eq_true, List.all_map, List.all_eq_true, mem_maskSlots_iff h, and_imp, Function.comp, Bool.not_eq_true']
  constructor
  · rintro (ht | hf) i j hi hj hii hij
    · rw [ht i hi hii, ht j hj hij]
    · rw [hf i hi hii, hf j hj hij]
  · intro heq
    by_cases hex : ∃ i, i < 16 ∧ inp i = true ∧ p i = true
    · obtain ⟨i, hi, hii, hp⟩ := hex
      exact .inl fun j hj hij => (heq j i hj hi hij hii).trans hp
    · exact .inr fun j hj hij => Bool.eq_false_iff.2 fun hp => hex ⟨j, hj, hij, hp⟩

theorem getLsbD_ballot (i : Nat) (hi : i < 32) : ((maskOf fun i => src.getLsbD i && p i).zeroExtend 32).getLsbD i =
    (decide (i < 16) && inp i && p i) := by
  rw [BitVec.getLsbD_setWidth, getLsbD_maskOf, decide_eq_true hi, Bool.true_and, Bool.and_assoc]
  by_cases h16 : i < 16
  · rw [h i h16]
  · simp [h16]

end

/-! ### REDT and SCAN (R87, R88, R167) -/

theorem positions_eq (x : Iss) {src : Mask} {inp : Nat → Bool} (h : ∀ i, i < 16 → src.getLsbD i = inp i) (a : VReg) :
    positions x src a = (List.range 16).map fun i => if inp i then some ((x.g.thread i).v a.toNat) else none := by
  rw [positions, upTo_eq_range]
  exact List.map_congr_left fun i hi => by rw [h i (List.mem_range.1 hi)]

theorem scanFrom_succ (op : RedOp) {r : List (Option Word)} (acc : Word) {i : Nat} (hi : i < r.length) :
    (acc :: scanFrom op acc r).getD (i + 1) 0 =
      redStep op ((acc :: scanFrom op acc r).getD i 0) ((r.getD i none).getD op.ident) := by
  induction r generalizing acc i with
  | nil => exact absurd hi (Nat.not_lt_zero i)
  | cons o r ih =>
    cases i with
    | zero => rfl
    | succ i => exact ih (redStep op acc (o.getD op.ident)) (Nat.lt_of_succ_lt_succ hi)

/-- The prefixes of SCAN, one after the other (R88). -/
theorem scanAll_range (op : RedOp) (inp : Nat → Bool) (x : Nat → Word) {n : Nat} {xs : List (Option Word)}
    (hxs : xs = (List.range (n + 1)).map fun i => if inp i then some (x i) else none) :
    (scanAll op xs).getD 0 0 = (if inp 0 then x 0 else op.ident) ∧
    ∀ i, i < n → (scanAll op xs).getD (i + 1) 0 =
      redStep op ((scanAll op xs).getD i 0) (if inp (i + 1) then x (i + 1) else op.ident) := by
  have hident (i : Nat) : (if inp i then some (x i) else none).getD op.ident = if inp i then x i else op.ident := by
    cases inp i <;> rfl
  rw [List.range_succ_eq_map, List.map_cons, List.map_map] at hxs
  subst hxs
  refine ⟨hident 0, fun i hi => ?_⟩
  rw [← hident (i + 1)]
  refine (scanFrom_succ op _ (by simpa using hi)).trans (congrArg _ ?_)
  simp [List.getD, hi]

/-! ### FRAGQ (R169) -/

theorem Group.frags_toList (g : Group) : g.frags.toList = (List.range 8).map g.frag :=
  List.ext_getElem (by simp) fun i h _ => by
    have hi : i < 8 := by simpa using h
    simp [Group.frag, hi]

theorem Group.resident_length (g : Group) : g.resident.length = (g.frags.toList.filter (·.isSome)).length := by
  rw [Group.resident, upTo_eq_range, List.length_filterMap_eq_countP, Group.frags_toList, ← List.countP_eq_length_filter,
    List.countP_map]
  exact List.countP_congr fun e _ => by simp

/-! ### The thread combiners (R163 to R169) -/

theorem groupCombiners : Claims.GroupCombiners := by
  intro s is g f d a b pd pa gd hi inp x V Q shfl
  have hnil := ready_nil g f gd
  have hshfl {m : ShflMode} {from_ : Nat → Nat → Int} (hm : shflSrc m = from_) : shfl m from_ := by
    subst hm
    intro hr
    exact threadDone_of_sources (show execShfl m d a b gd s = _ from rfl) hi hr (fun _ _ _ => ⟨rfl, rfl⟩) fun _ _ _ hsrc _ =>
      ⟨_, rfl, shflFrom_eq hsrc _ _ _⟩
  refine ⟨hshfl rfl, hshfl rfl, hshfl rfl, hshfl rfl, ?_, ?_, ?_, fun hr => ?_, fun op hr => ?_, fun op hr => ?_, fun hr => ?_,
    fun hr => ?_, fun hr => ?_, fun hr => ?_⟩
  · exact threadDone_of_sources (show execVote .any pd pa gd s = _ from rfl) hi hnil (fun _ _ _ => ⟨rfl, rfl⟩) fun _ _ _ hsrc _ =>
      ⟨_, rfl, voteFn_any hsrc _⟩
  · exact threadDone_of_sources (show execVote .all pd pa gd s = _ from rfl) hi hnil (fun _ _ _ => ⟨rfl, rfl⟩) fun _ _ _ hsrc _ =>
      ⟨_, rfl, voteFn_all hsrc _⟩
  · exact threadDone_of_sources (show execVote .eq pd pa gd s = _ from rfl) hi hnil (fun _ _ _ => ⟨rfl, rfl⟩) fun _ _ _ hsrc _ =>
      ⟨_, rfl, voteFn_eq hsrc _⟩
  · exact threadDone_of_sources (show execBallot d pa gd s = _ from rfl) hi hr (fun _ _ _ => ⟨rfl, rfl⟩) fun _ _ _ hsrc _ =>
      ⟨_, rfl, getLsbD_ballot hsrc _⟩
  · exact threadDone_of_sources (show execRedt op d a gd s = _ from rfl) hi hr (fun _ _ _ => ⟨rfl, rfl⟩) fun _ _ _ hsrc _ =>
      ⟨_, rfl, congrArg (redTree op g.nbv) (positions_eq ⟨s, is, g, f⟩ hsrc a)⟩
  · refine threadDone_of_sources (show execScan op d a gd s = _ from rfl) hi hr (fun _ _ _ => ⟨rfl, rfl⟩) fun src _ _ hsrc _ => ?_
    obtain ⟨hzero, hsucc⟩ := scanAll_range op inp x (n := 15) (positions_eq ⟨s, is, g, f⟩ hsrc a)
    exact ⟨_, rfl, fun i => (scanAll op (positions ⟨s, is, g, f⟩ src a)).getD i 0, hzero, hsucc, rfl⟩
  · exact threadDone_of_sources (show execFragq .mask d gd s = _ from rfl) hi hr (fun _ _ _ => ⟨rfl, rfl⟩) fun _ _ _ _ _ => ⟨_, rfl, rfl⟩
  · refine threadDone_of_sources (show execFragq .count d gd s = _ from rfl) hi hr (fun _ _ _ => ⟨rfl, rfl⟩) fun _ _ _ _ _ => ⟨_, rfl, ?_⟩
    rw [← Group.resident_length]
    rfl
  · refine threadDone_of_sources (show execFragq .occ d gd s = _ from rfl) hi hr (fun _ _ _ => ⟨rfl, rfl⟩) fun _ _ _ _ _ => ⟨_, rfl, ?_⟩
    rw [← Group.resident_length]
    rfl
  · exact threadDone_of_sources (show execFragq .spill d gd s = _ from rfl) hi hr (fun _ _ _ => ⟨rfl, rfl⟩) fun _ _ _ _ _ => ⟨_, rfl, rfl⟩

/-! ### BCAST (R168) -/

theorem getLsbD_of_lt_lowest {m : Mask} {j : Nat} (h : j < lowest m) : m.getLsbD j = false := by
  cases e : (upTo 16).find? fun s => m.getLsbD s with
  | none => simp [lowest, e] at h
  | some i =>
    have hi : lowest m = i := by simp [lowest, e]
    rw [upTo_eq_range, List.find?_range_eq_some] at e
    simpa using e.2.2 j (hi ▸ h)

theorem slotBit_ne_zero {i : Nat} (h : i < 16) : slotBit i ≠ 0 := fun h0 => by
  simpa [h0] using getLsbD_slotBit (s := i) h

/-- The slot that BCAST reads, of those that the word reads. -/
def bcastFrom (src : Option (BitVec 4)) (sm : Mask) : Nat :=
  match src with
  | some i => i.toNat
  | none => lowest sm

/-- The slot i alone, when the word reads it. -/
def bcastMask (sm : Mask) (i : Nat) : Mask := if sm.getLsbD i then slotBit i else 0

/-- The value that BCAST writes: that of the slot i, 0 when the word does not read it (R168). -/
def bcastValue (g : Group) (a : VReg) (w64 : Bool) (sm : Mask) (i : Nat) : DWord :=
  if sm.getLsbD i then (if w64 then (g.thread i).v64 a.toNat else ((g.thread i).v a.toNat).setWidth 64) else 0

theorem bcastMask_subset {sm : Mask} {i j : Nat} (h : j < 16) (hb : (bcastMask sm i).getLsbD j = true) : sm.getLsbD j = true := by
  unfold bcastMask at hb
  split at hb
  next hs => rw [getLsbD_slotBit h, decide_eq_true_eq] at hb; rwa [hb]
  next => simp at hb

theorem bcastMask_value (g : Group) (a : VReg) (w64 : Bool) (sm : Mask) (i : Nat) :
    (if bcastMask sm i == 0 then 0 else if w64 then (g.thread i).v64 a.toNat else zext64 ((g.thread i).v a.toNat)) =
      bcastValue g a w64 sm i := by
  unfold bcastMask bcastValue
  cases hb : sm.getLsbD i with
  | false => rfl
  | true =>
    have hne := slotBit_ne_zero (lt_of_getLsbD_mask hb)
    rw [if_pos rfl, if_neg (by simpa using hne), if_pos rfl, zext64, BitVec.ofNat_toNat]

section
variable {s : State} {is : Issuer} {g : Group} {f : Frag} {gd : Guard} {sm : Mask} (hsm : ReadsSlots g f gd sm)
include hsm

theorem bcastMask_ready {regs : List Nat} (hr : Ready g f gd regs []) (i : Nat) :
    g.vsBusy (bcastMask sm i) regs = false ∧ Iss.poisoned ⟨s, is, g, f⟩ (bcastMask sm i) regs = 0 := by
  have hread {j : Nat} (h : j < 16) (hb : (bcastMask sm i).getLsbD j = true) {n : Nat} (hn : n ∈ regs) :
      g.vbusy j n = false ∧ (g.thread j).poisoned n = false := by
    have hrun := bcastMask_subset h hb
    rw [hsm j h, Bool.and_eq_true, beq_iff_eq] at hrun
    simpa only [hrun.2] using hr.sources j h hrun.1 n hn
  refine ⟨vsBusy_eq_false fun j h hb n hn => (hread h hb hn).1, maskOf_eq_zero_iff.2 fun j h => Bool.eq_false_iff.2 fun hbad => ?_⟩
  obtain ⟨hb, hbad⟩ := Bool.and_eq_true_iff.1 hbad
  obtain ⟨n, hn, hp⟩ := List.any_eq_true.1 hbad
  exact absurd hp (by simp [(hread h hb hn).2])

/-- BCAST whose registers are ready writes k[KD] once. -/
theorem exec_bcast {kd : KReg} {a : VReg} {w64 : Bool} (src : Option (BitVec 4)) (hi : Issues s is g f)
    (hm : Iss.guarded ⟨s, is, g, f⟩ gd ≠ 0) (hsrc : Iss.sources ⟨s, is, g, f⟩ (Iss.guarded ⟨s, is, g, f⟩ gd) = sm)
    (hr : Ready g f gd (if w64 then [a.toNat, a.toNat + 1] else [a.toNat]) []) (hk : g.kbusy.getLsbD kd.toNat = false) :
    exec (.bcast kd a w64 src gd) s =
      .next (advance (s.modGroup is.gid fun h => h.setK kd.toNat (bcastValue g a w64 sm (bcastFrom src sm))) is 1) := by
  have hregs : regsFrom a.toNat (if w64 then 2 else 1) = if w64 then [a.toNat, a.toNat + 1] else [a.toNat] := by
    cases w64 <;> rfl
  have hready (i : Nat) := bcastMask_ready (s := s) (is := is) hsm (hregs ▸ hr) i
  simp only [bcastMask] at hready
  have hks : g.ksBusy [kd.toNat] = false := by rw [Group.ksBusy_singleton, hk]
  show execBcast kd a w64 src gd s = _
  rw [execBcast, issue_inWave hi, ← bcastMask_value]
  cases src <;>
    simp only [hsrc, beq_eq_false_iff_ne.2 hm, if_false, hready, hks, Bool.or_self, Bool.false_eq_true, bne_self_eq_false, bcastFrom, bcastMask] <;>
    rfl

end

theorem broadcastWord : Claims.BroadcastWord := by
  intro kd a w64 src gd s is g f hi hr hk inp hex
  have hm : Iss.guarded ⟨s, is, g, f⟩ gd ≠ 0 := fun h0 => by
    obtain ⟨i, h, hrun⟩ := hex
    simpa [hrun] using (guarded_eq_zero_iff s is g f gd).1 h0 i h
  obtain ⟨sm, hsrc⟩ : ∃ sm, Iss.sources ⟨s, is, g, f⟩ (Iss.guarded ⟨s, is, g, f⟩ gd) = sm := ⟨_, rfl⟩
  have hsm : ReadsSlots g f gd sm := fun i h => hsrc ▸ getLsbD_sources s is g f gd h hm
  refine ⟨_, _, exec_bcast hsm src hi hm hsrc hr hk, State.group_modGroup_same hi.group fun _ => rfl,
    onlyGroup_modGroup _ _ fun _ => rfl, ?_, ?_⟩
  · rintro n rfl
    show bcastValue g a w64 sm n.toNat = _
    rw [bcastValue, hsm n.toNat n.isLt]
  · rintro rfl
    have hne : sm ≠ 0 := by
      obtain ⟨i, h, hrun⟩ := hex
      intro h0
      have hbit := hsm (source f i) (source_lt f h)
      simp [h0, runsIn_source hrun, source_source] at hbit
    have hlow := getLsbD_lowest hne
    refine ⟨lowest sm, lowest_lt sm, (hsm _ (lowest_lt sm)).symm.trans hlow, fun j hj => ?_, if_pos hlow⟩
    exact (hsm j (hj.trans (lowest_lt sm))).symm.trans (getLsbD_of_lt_lowest hj)

/-- Settles O17: what a combiner reads it takes from the slots of its execution mask before it writes any. -/
theorem combinerWords : Obligations.CombinerWords := ⟨groupCombiners, broadcastWord⟩

end Sys2Proof.Machine

namespace Sys2Proof.Machine

open Sys2Proof.Safety

/-! ### The numbers that memory holds (R2) -/

theorem ofBytesLE_lt (bs : List Byte) : ofBytesLE bs < 256 ^ bs.length := by
  induction bs with
  | nil => decide
  | cons b bs ih =>
    have hb := b.isLt
    rw [ofBytesLE, List.length_cons, Nat.pow_succ]
    omega

@[simp] theorem Mem.length_readN (m : Mem) (a n : Nat) : (m.readN a n).length = n := by
  induction n generalizing a with
  | zero => rfl
  | succ n ih => rw [Mem.readN, List.length_cons, ih]

theorem Mem.num_lt (m : Mem) (a n : Nat) : m.num a n < 256 ^ n := by
  simpa [Mem.num] using ofBytesLE_lt (m.readN a n)

/-! ### The record of LAUNCH (R156, R176) -/

/-- The first row of the rectangle that a record names. -/
def LaunchRec.row0 (r : LaunchRec) (core : CoreId) : Int := (core.row : Int) + toSigned 4 (bitsOf r.place 5 4)

/-- The first column of the rectangle that a record names. -/
def LaunchRec.col0 (r : LaunchRec) (core : CoreId) : Int := (core.col : Int) + toSigned 5 (bitsOf r.place 0 5)

theorem LaunchRec.col0_eq (r : LaunchRec) (core : CoreId) : r.col0 core = (core.col : Int) + toSigned 5 (r.place % 32) := by
  rw [LaunchRec.col0, bitsOf, Nat.pow_zero, Nat.div_one]
  rfl

/-- The alignment, the bounds or a field of the record at an address are refused with cause OPERAND. -/
def launchBad (tm : Team) (a : Nat) : Bool :=
  a % 16 != 0 || decide (tm.holding * 4096 < a + 64) || !(launchRec tm.shared.bytes a).ok

/-- The rectangle of a record is refused with cause PLACE. -/
def LaunchRec.outside (r : LaunchRec) (core : CoreId) : Bool :=
  bitsOf r.place 23 9 != 0 || decide (r.row0 core < 0) || decide (8 < r.row0 core + r.rows) || decide (r.col0 core < 0) ||
    decide (16 < r.col0 core + r.cols)

theorem LaunchRec.ok_iff (r : LaunchRec) : r.ok = true ↔
    r.entry % 4 = 0 ∧ r.entry < 2 ^ 57 ∧ 1 ≤ r.nx ∧ 1 ≤ r.ny ∧ 1 ≤ r.nz ∧ r.nx * r.ny * r.nz ≤ 2 ^ 32 ∧ r.place / 2 ^ 11 % 2 ^ 12 = 0 ∧
      1 ≤ r.rows ∧ r.rows ≤ 8 ∧ 1 ≤ r.cols ∧ r.cols ≤ 16 ∧ 1 ≤ r.dies ∧ r.dies < 16 ∧ 1 ≤ r.groups ∧ r.groups ≤ 64 ∧ r.tiles ≤ 16 ∧
      r.prio ≤ 7 ∧ r.nbv ≤ 3 ∧ r.flags < 2 ∧ r.smem ≤ 128 ∧ r.rsvd1 = 0 ∧ r.rsvd2 = 0 := by
  simp only [LaunchRec.ok, LaunchRec.sizesOk, bitsOf, Bool.and_eq_true, beq_iff_eq, decide_eq_true_eq, bne_iff_ne, ne_eq, and_assoc,
    ← Nat.one_le_iff_ne_zero]
  tauto

theorem LaunchRec.outside_eq_false_iff (r : LaunchRec) (core : CoreId) (h : r.place < 2 ^ 32) : r.outside core = false ↔
    r.place / 2 ^ 23 = 0 ∧ 0 ≤ r.row0 core ∧ r.row0 core + r.rows ≤ 8 ∧ 0 ≤ r.col0 core ∧ r.col0 core + r.cols ≤ 16 := by
  have hplace : bitsOf r.place 23 9 = r.place / 2 ^ 23 := Nat.mod_eq_of_lt (by omega)
  simp only [LaunchRec.outside, hplace, Bool.or_eq_false_iff, bne_eq_false_iff_eq, decide_eq_false_iff_not, not_lt, and_assoc]

theorem launchBad_eq_false_iff (tm : Team) (a : Nat) : launchBad tm a = false ↔
    a % 16 = 0 ∧ a + 64 ≤ tm.holding * 4096 ∧ (launchRec tm.shared.bytes a).ok = true := by
  simp only [launchBad, Bool.or_eq_false_iff, bne_eq_false_iff_eq, decide_eq_false_iff_not, not_lt, Bool.not_eq_false', and_assoc]

/-! ### Child slots (R152) -/

/-- One of the first n + 1 numbers is no key of n pairs. -/
theorem AL.exists_free {α : Type} (m : AL Nat α) : ∃ n, n ≤ m.length ∧ m.get n = none := by
  by_contra hn
  have hsub : List.range (m.length + 1) ⊆ m.map (·.1) := fun n h => by
    by_contra hmem
    refine hn ⟨n, Nat.le_of_lt_succ (List.mem_range.1 h), ?_⟩
    rw [AL.get, List.find?_eq_none.2 fun e he hk => hmem (List.mem_map.2 ⟨e, he, by simpa using hk⟩), Option.map_none]
  have hlen := (List.subperm_of_subset List.nodup_range hsub).length_le
  simp at hlen

theorem Pkg.childSlot_full {p : Pkg} (h : 4096 ≤ p.children.length) : p.childSlot = none := if_pos h

theorem Pkg.childSlot_free {p : Pkg} (h : p.children.length < 4096) :
    ∃ slot, p.childSlot = some slot ∧ slot < 4096 ∧ p.children.get slot = none := by
  obtain ⟨n, hn, hfree⟩ := AL.exists_free p.children
  rw [Pkg.childSlot, if_neg (Nat.not_le.2 h)]
  cases e : (upTo (p.children.length + 1)).find? fun n => (p.children.get n).isNone with
  | none => exact absurd (by rw [hfree]; rfl) (List.find?_eq_none.1 e n (mem_upTo.2 (Nat.lt_succ_of_le hn)))
  | some slot =>
    have hlt := mem_upTo.1 (List.mem_of_find?_eq_some e)
    exact ⟨slot, rfl, by omega, Option.isNone_iff_eq_none.1 (List.find?_some (p := fun n => (p.children.get n).isNone) e)⟩

/-! ### LAUNCH (R176) -/

theorem bitOf_zero_iff {n : Nat} (h : n < 2) : bitOf n 0 = true ↔ n = 1 := by
  rw [bitOf, beq_iff_eq]
  omega

/-- The child grid of a record enters the dispatcher under a child slot of its package (R152, R176). -/
def State.enterChild (s : State) (g : Group) (gr : Grid) (p : Pkg) (r : LaunchRec) (slot : Nat) : State :=
  let u := s.gensym.2.modPkg g.rank fun q =>
    { q with children := q.children.put slot (s.fresh, q.launchSeq), childSeq := q.childSeq.put slot q.launchSeq
             launchSeq := q.launchSeq + 1 }
  State.owe { u with grids := u.grids ++
    [childGrid gr g r s.fresh (slot + p.launchSeq % 2 ^ 52 * 2 ^ 12) (r.row0 g.core).toNat (r.col0 g.core).toNat] }
    [.event (.gridDispatch g.rank)]

section
variable (s : State) (g : Group) (gr : Grid) {p : Pkg} (r : LaunchRec) (slot : Nat)

theorem State.enterChild_group (n : Nat) : (s.enterChild g gr p r slot).group? n = s.group? n := rfl

theorem State.enterChild_pkg (hp : s.pkg? g.rank = some p) :
    ((s.enterChild g gr p r slot).pkg? g.rank).map (fun q => (q.launchSeq, q.children.get slot, q.childSeq.get slot)) =
      some (p.launchSeq + 1, some (s.fresh, p.launchSeq), some p.launchSeq) := by
  have hpkg := s.gensym.2.pkg_modPkg g.rank g.rank (fun q =>
    { q with children := q.children.put slot (s.fresh, q.launchSeq), childSeq := q.childSeq.put slot q.launchSeq
             launchSeq := q.launchSeq + 1 }) fun _ => rfl
  rw [show s.gensym.2.pkg? g.rank = some p from hp, Option.map_some, if_pos (beq_self_eq_true _)] at hpkg
  refine (congrArg _ hpkg).trans ?_
  rw [Option.map_some, AL.get_put_same, AL.get_put_same]

theorem State.enterChild_bytes : SameBytes s (s.enterChild g gr p r slot) :=
  sameBytes_of_pkgMemories rfl (samePkgMemories_modPkg s.gensym.2 g.rank (fun _ => rfl) fun _ => rfl) rfl rfl fun _ => rfl

/-- The dies of a child grid (R156, R176). -/
theorem mem_childGrid_dies (id handle row0 col0 : Nat) {d : Nat} :
    d ∈ (childGrid gr g r id handle row0 col0).dies ↔
      ∃ j, j < 4 ∧ r.dies / 2 ^ j % 2 = 1 ∧ d = (g.core.die + r.place / 2 ^ 9 % 4 + j) % 4 := by
  simp only [childGrid, List.mem_map, List.mem_filter, mem_upTo, bitOf, beq_iff_eq, dieAt, bitsOf, and_assoc, ← Nat.add_assoc]
  exact exists_congr fun j => and_congr_right fun _ => and_congr_right fun _ => eq_comm

end

theorem Group.releasing_iff (g : Group) : g.releasing = true ↔ ∃ x ∈ g.flights, (x.path = 5 ∨ x.path = 6) ∧ x.done = false := by
  simp only [Group.releasing, List.any_eq_true, Bool.and_eq_true, Bool.or_eq_true, Bool.not_eq_true', beq_iff_eq, and_comm]

theorem Group.releasing_eq_false_iff (g : Group) : g.releasing = false ↔ ∀ x ∈ g.flights, (x.path = 5 ∨ x.path = 6) → x.done = true := by
  rw [Bool.eq_false_iff, ne_eq, Group.releasing_iff]
  simp

section
variable {kd ka : KReg} {ug : UGuard} {s : State} {is : Issuer} {g : Group} {f : Frag} {tm : Team} {gr : Grid} {p : Pkg}
  (hi : Issues s is g f) (hw : g.wave = none) (ht : s.team? g.tid = some tm) (hgr : s.grid? g.grid = some gr)
  (hp : s.pkg? g.rank = some p) (hon : uniformOn g ug = true) (hkd : g.kbusy.getLsbD kd.toNat = false)
  (hka : g.kbusy.getLsbD ka.toNat = false)
include hi hw ht hgr hp hon hkd hka

/-- LAUNCH, check by check (R176). -/
theorem exec_launch : exec (.launch kd ka ug) s = .next (
    if g.num != 0 then takeTrap s is 2 ⟨causeLeader, 0, 0⟩
    else if 10 ≤ gr.depth then takeTrap s is 4 ⟨0, 0, 0⟩
    else if launchBad tm (g.kr ka.toNat).toNat then takeTrap s is 2 ⟨causeOperand, 0, 0⟩
    else if (launchRec tm.shared.bytes (g.kr ka.toNat).toNat).outside g.core then takeTrap s is 2 ⟨causePlace, 0, 0⟩
    else if g.releasing then block s is .scoreboard
    else match p.childSlot with
      | none => s
      | some slot => done1 (s.enterChild g gr p (launchRec tm.shared.bytes (g.kr ka.toNat).toNat) slot) is kd
          (BitVec.ofNat 64 (slot + p.launchSeq % 2 ^ 52 * 2 ^ 12))) := by
  have hks : g.ksBusy [kd.toNat, ka.toNat] = false := by simp [Group.ksBusy, hkd, hka]
  show execLaunch kd ka ug s = _
  rw [execLaunch, issue_of_issues hi hw, uniIssue_on hon s is f 1 hks]
  simp only [ht, hgr, hp]
  rfl

end

/-- Settles O29, check by check: the record's checks are its fields' limits, and a child slot is free while fewer than 4,096 are taken. -/
theorem launchWord : Obligations.LaunchWord := by
  intro kd ka ug s is g f tm gr p hi hw ht hgr hp hon hkd hka a num dx dy x0 y0 inside legal record
  have hexec := exec_launch hi hw ht hgr hp hon hkd hka
  have hlead (h : g.num = 0) : (g.num != 0) = false := by simp [h]
  have hbad : launchBad tm a = false ↔ record := by
    rw [launchBad_eq_false_iff, LaunchRec.ok_iff]
    exact Iff.rfl
  have hcol : (launchRec tm.shared.bytes a).col0 g.core = x0 := LaunchRec.col0_eq _ _
  have hout : (launchRec tm.shared.bytes a).outside g.core = false ↔ inside := by
    rw [LaunchRec.outside_eq_false_iff _ g.core (Mem.num_lt _ _ 4), hcol]
    exact Iff.rfl
  have hchecked (hnum : g.num = 0) (hdepth : gr.depth < 10) (hrec : record) (hin : inside) := by
    rw [hlead hnum, hbad.2 hrec, hout.2 hin, if_neg Bool.false_ne_true, if_neg (Nat.not_le.2 hdepth), if_neg Bool.false_ne_true,
      if_neg Bool.false_ne_true] at hexec
    exact hexec
  refine ⟨fun hnum => ?_, fun hnum hdepth => ?_, fun hnum hdepth hrec => ?_, fun hnum hdepth hrec hin => ?_,
    fun hnum hdepth hrec hin hfull hfree => ?_, fun hnum hdepth hrec hin hrel => ?_, fun hnum hdepth hrec hin hroom hfree => ?_⟩
  · rw [hexec, if_pos (by simpa using hnum)]
  · rw [hexec, hlead hnum, if_neg Bool.false_ne_true, if_pos hdepth]
  · rw [hexec, hlead hnum, if_neg Bool.false_ne_true, if_neg (Nat.not_le.2 hdepth), if_pos (by simpa using mt hbad.1 hrec)]
  · rw [hexec, hlead hnum, hbad.2 hrec, if_neg Bool.false_ne_true, if_neg (Nat.not_le.2 hdepth), if_neg Bool.false_ne_true,
      if_pos (by simpa using mt hout.1 hin)]
  · rw [hchecked hnum hdepth hrec hin, (g.releasing_eq_false_iff).2 hfree, Pkg.childSlot_full hfull]
    rfl
  · rw [hchecked hnum hdepth hrec hin, (g.releasing_iff).2 hrel]
    rfl
  · obtain ⟨slot, hslot, hlt, hget⟩ := Pkg.childSlot_free hroom
    rw [hchecked hnum hdepth hrec hin, (g.releasing_eq_false_iff).2 hfree, hslot]
    obtain ⟨hplace, hy, hy8, hx, hx16⟩ := hin
    have honly := onlyGroup_modGroup (s.enterChild g gr p (launchRec tm.shared.bytes a) slot) is.gid
      (F := fun h => h.setBusyK kd.toNat (BitVec.ofNat 64 (slot + p.launchSeq % 2 ^ 52 * 2 ^ 12))) fun _ => rfl
    refine ⟨_, _, slot, rfl, State.group_modGroup_same hi.group fun _ => rfl, hlt, hget, rfl, rfl, rfl, rfl, rfl, rfl, rfl, rfl, rfl, rfl,
      Int.toNat_of_nonneg hy, (Int.toNat_of_nonneg (hcol ▸ hx)).trans hcol, rfl, rfl, rfl, rfl, rfl, rfl, ?_, ?_, ?_, ?_, ?_,
      State.enterChild_pkg s g gr (launchRec tm.shared.bytes a) slot hp, honly.groups, rfl, fun q =>
        (honly.bytes q).trans (State.enterChild_bytes s g gr (launchRec tm.shared.bytes a) slot q)⟩
    · exact if_congr beq_iff_eq rfl rfl
    · exact (BitVec.toNat_ofNat _ _).trans (Nat.mod_eq_of_lt (Mem.num_lt _ _ 8))
    · exact (BitVec.toNat_ofNat _ _).trans (Nat.mod_eq_of_lt (Mem.num_lt _ _ 8))
    · obtain ⟨-, -, hrec⟩ := hrec
      obtain ⟨-, -, -, -, -, -, -, -, -, -, -, -, -, -, -, -, -, -, hflags, -⟩ := hrec
      exact bitOf_zero_iff hflags
    · exact fun d => mem_childGrid_dies g gr (launchRec tm.shared.bytes a) _ _ _ _

end Sys2Proof.Machine

namespace Sys2Proof.Machine

open Sys2Proof.Safety

/-! ### A core changed alone -/

theorem State.modCore_cores_restored (s : State) (id : CoreId) (F : Core → Core) :
    { s.modCore id F with cores := s.cores } = s := by
  unfold State.modCore
  split <;> rfl

section
variable (s : State) (id : CoreId) {F : Core → Core} (hF : ∀ x, (F x).id = x.id)
include hF

theorem State.core_modCore_same : (s.modCore id F).core id = F (s.core id) := by
  rw [State.core_modCore s id id F hF, if_pos rfl]

theorem State.core_modCore_other {c : CoreId} (hc : c ≠ id) : (s.modCore id F).core c = s.core c := by
  rw [State.core_modCore s id c F hF, if_neg hc]

end

section
variable (s : State) (r : Nat) {F : Pkg → Pkg} (hF : ∀ p, (F p).rank = p.rank)
include hF

theorem State.pkg_modPkg_same {p : Pkg} (h : s.pkg? r = some p) : (s.modPkg r F).pkg? r = some (F p) := by
  simp [s.pkg_modPkg r r F hF, h]

theorem State.pkg_modPkg_other {n : Nat} (h : n ≠ r) : (s.modPkg r F).pkg? n = s.pkg? n := by
  simp [s.pkg_modPkg r n F hF, h]

end

/-! ### The ramp's windows (R194 to R197) -/

@[simp] theorem Core.cycle_id (c : Core) (t : Nat) : (c.cycle t).id = c.id := by
  simp only [Core.cycle, apply_ite Core.id, ite_self]

/-- One cycle accounted for: it is worked, and the window may end with it (R196). -/
def Core.workedThrough (c : Core) (t : Nat) : Core :=
  let d := { c.cycle t with lag := c.lag - 1 }
  if t % 1000 != 999 then d else if d.rampIdle then { d with began := false } else { d with ended := true }

@[simp] theorem Core.workedThrough_id (c : Core) (t : Nat) : (c.workedThrough t).id = c.id := by
  simp only [Core.workedThrough, apply_ite Core.id, Core.cycle_id, ite_self]

theorem Core.account_succ (cyc n : Nat) (c : Core) : Core.account cyc (n + 1) c =
    if c.ended || c.lag == 0 then c else Core.account cyc n (c.workedThrough ((cyc + 2 ^ 64 - c.lag) % 2 ^ 64)) := rfl

@[simp] theorem Core.account_id (cyc fuel : Nat) (c : Core) : (Core.account cyc fuel c).id = c.id := by
  induction fuel generalizing c with
  | zero => rfl
  | succ n ih =>
    rw [Core.account_succ, apply_ite Core.id, ih, Core.workedThrough_id, ite_self]

@[simp] theorem Core.pass_id (cyc dt : Nat) (c : Core) : (c.pass cyc dt).id = c.id := Core.account_id ..

/-- With no cycle to account for, no cycle is accounted for. -/
theorem Core.pass_zero {c : Core} (cyc : Nat) (h : c.lag = 0) : c.pass cyc 0 = c := by
  rw [Core.pass, h]
  exact congrArg (fun n => { c with lag := n }) h.symm

/-! ### The energy of a package (R447) -/

/-- The first element that meets a condition, after a change by place that keeps the condition. -/
theorem find_mapIdx {α : Type} (q : α → Bool) (F : Nat → α → α) (l : List α) (h : ∀ i a, q (F i a) = q a) :
    ∃ i, (l.mapIdx F).find? q = (l.find? q).map (F i) := by
  induction l generalizing F with
  | nil => exact ⟨0, rfl⟩
  | cons a r ih =>
    rw [List.mapIdx_cons, List.find?_cons, List.find?_cons, h]
    cases q a with
    | true => exact ⟨0, rfl⟩
    | false =>
      obtain ⟨i, hi⟩ := ih (fun i => F (i + 1)) fun i => h (i + 1)
      exact ⟨i + 1, hi⟩

/-- The cores and grids of a package gain energy, each a value of its own. -/
def State.gainEnergy (s : State) (rank : Nat) : State :=
  { s with
    fresh := s.fresh + 1 + s.cores.length + s.grids.length
    cores := s.cores.mapIdx fun i (c : Core) =>
      if c.id.rank == rank then { c with ecore := (c.ecore + Config.energy (s.fresh + 1 + i)) % 2 ^ 64 } else c
    grids := s.grids.mapIdx fun i (g : Grid) =>
      if g.rank == rank then { g with egrid := (g.egrid + Config.energy (s.fresh + 1 + s.cores.length + i)) % 2 ^ 64 } else g }

/-- The counter of a package gains energy. -/
def Pkg.gainEnergy (p : Pkg) (e : Nat) : Pkg := { p with epkg := (p.epkg + e) % 2 ^ 64 }

theorem Pkg.gainEnergy_rank (p : Pkg) (e : Nat) : (p.gainEnergy e).rank = p.rank := rfl

theorem exec_energyUpdate (rank : Nat) (s : State) : exec (.energyUpdate rank) s =
    .next ((s.gainEnergy rank).modPkg rank (Pkg.gainEnergy · (Config.energy s.fresh))) := rfl

theorem State.core_gainEnergy (s : State) (rank : Nat) (c : CoreId) :
    ∃ e, (s.gainEnergy rank).core c = { s.core c with ecore := e } ∧ (c.rank ≠ rank → e = (s.core c).ecore) := by
  obtain ⟨i, hi⟩ := find_mapIdx (fun x : Core => x.id == c) (fun i (c : Core) =>
    if c.id.rank == rank then { c with ecore := (c.ecore + Config.energy (s.fresh + 1 + i)) % 2 ^ 64 } else c) s.cores
    fun _ _ => by split <;> rfl
  have hcore : (s.gainEnergy rank).core c = (Option.map _ _).getD (Core.empty c) := congrArg (Option.getD · _) hi
  rw [hcore, State.core]
  cases hx : s.cores.find? fun x => x.id == c with
  | none => exact ⟨_, rfl, fun _ => rfl⟩
  | some x =>
    have hid : x.id = c := by simpa using List.find?_some hx
    rw [Option.map_some, Option.getD_some, Option.getD_some]
    by_cases hr : c.rank = rank
    · rw [if_pos (by simpa [hid] using hr)]
      exact ⟨_, rfl, absurd hr⟩
    · rw [if_neg (by simpa [hid] using hr)]
      exact ⟨_, rfl, fun _ => rfl⟩

theorem State.grid_gainEnergy (s : State) (rank n : Nat) {x : Grid} (h : s.grid? n = some x) :
    ∃ e, (s.gainEnergy rank).grid? n = some { x with egrid := e } ∧ (x.rank ≠ rank → e = x.egrid) := by
  obtain ⟨i, hi⟩ := find_mapIdx (fun x : Grid => x.id == n) (fun i (g : Grid) =>
    if g.rank == rank then { g with egrid := (g.egrid + Config.energy (s.fresh + 1 + s.cores.length + i)) % 2 ^ 64 } else g) s.grids
    fun _ _ => by split <;> rfl
  have hgrid : (s.gainEnergy rank).grid? n = Option.map _ (s.grid? n) := hi
  rw [hgrid, h, Option.map_some]
  by_cases hr : x.rank = rank
  · rw [if_pos (by simpa using hr)]
    exact ⟨_, rfl, absurd hr⟩
  · rw [if_neg (by simpa using hr)]
    exact ⟨_, rfl, fun _ => rfl⟩

/-! ### THROTTLE_WINDOW (R446) -/

/-- A core after a window of its sensors (R446). -/
def Core.throttled (c : Core) (temp droop : Bool) : Core :=
  let d := { c with temp := temp, droop := droop, thcyc := if c.step == 0 then c.thcyc else (c.thcyc + 1000) % 2 ^ 32 }
  if temp || droop then { d with step := min 7 (d.step + 1), cool := 0 }
  else if 9 ≤ d.cool then { d with step := d.step - 1, cool := 0 }
  else { d with cool := d.cool + 1 }

theorem exec_throttleWindow (c : CoreId) (temp droop : Bool) (s : State) :
    exec (.throttleWindow c temp droop) s = .next (s.modCore c (Core.throttled · temp droop)) := rfl

section
variable (c : Core) (temp droop : Bool)

theorem Core.throttled_id : (c.throttled temp droop).id = c.id := by
  simp only [Core.throttled, apply_ite Core.id, ite_self]

theorem Core.throttled_temp : (c.throttled temp droop).temp = temp := by
  simp only [Core.throttled, apply_ite Core.temp, ite_self]

theorem Core.throttled_droop : (c.throttled temp droop).droop = droop := by
  simp only [Core.throttled, apply_ite Core.droop, ite_self]

theorem Core.throttled_step : (c.throttled temp droop).step =
    if temp || droop then min 7 (c.step + 1) else if 9 ≤ c.cool then c.step - 1 else c.step := by
  simp only [Core.throttled, apply_ite Core.step]

theorem Core.throttled_thcyc :
    (c.throttled temp droop).thcyc = if c.step = 0 then c.thcyc else (c.thcyc + 1000) % 2 ^ 32 := by
  simp only [Core.throttled, apply_ite Core.thcyc, ite_self, beq_iff_eq]

theorem Core.throttled_cool :
    (c.throttled temp droop).cool = if temp || droop || decide (9 ≤ c.cool) then 0 else c.cool + 1 := by
  simp only [Core.throttled, apply_ite Core.cool]
  by_cases hs : (temp || droop) = true <;> simp [hs]

theorem Core.throttled_restored : { c.throttled temp droop with
    temp := c.temp, droop := c.droop, step := c.step, thcyc := c.thcyc, cool := c.cool } = c := by
  by_cases hs : (temp || droop) = true
  · rw [Core.throttled, if_pos hs]
  · by_cases hc : 9 ≤ c.cool
    · rw [Core.throttled, if_neg hs, if_pos hc]
    · rw [Core.throttled, if_neg hs, if_neg hc]

end

/-! ### The windows of a core -/

/-- DRAIN_MERGE: a fault of translation, poison, and the maximum written (R193). -/
theorem drainMergeSteps (c : CoreId) (s : State) (e : MEntry) (r : List MEntry) (m n va : Nat) (hq : (s.core c).fifo = e :: r)
    (hp : e.phase = .merging m n) (hva : e.work.amx = va) :
    (∀ u x, xlate s c.rank c.die (teamCtx s e.tid) va .atomic = (u, .error x) → exec (.drainMerge c) s =
      .next (completeEntry (pendTrap u e.gid 5 ⟨x.cause, tinfoOf 0 0 0 x.level 0, BitVec.ofNat 64 va⟩) c e)) ∧
    (∀ u h v w b, xlate s c.rank c.die (teamCtx s e.tid) va .atomic = (u, .ok h) → wordAt u h (teamCtx s e.tid) va = (v, w, b) →
      (b = true → exec (.drainMerge c) s = .next (completeEntry v c e)) ∧
      (b = false → ∀ x, lineWrite v h (teamCtx s e.tid) va (sound (bytesLE 4 (max m w.toNat))) = some x →
        exec (.drainMerge c) s = .next (completeEntry x c e))) := by
  subst hva
  have hexec : exec (.drainMerge c) s = execDrainMerge c s := rfl
  rw [hexec, execDrainMerge, hq]
  refine ⟨fun u x hx => ?_, fun u h v w b hx hword => ⟨fun hb => ?_, fun hb x hwrite => ?_⟩⟩
  · simp only [hp, hx]
    rfl
  · simp only [hp, hx, hword, hb, if_pos]
  · simp only [hp, hx, hword, hb, hwrite, if_neg Bool.false_ne_true]

/-- RAMP_WINDOW_END at the end of a window: the next begins, and no cycle waits to be accounted for (R196, R197). -/
theorem exec_rampWindowEnd {c : CoreId} {s : State} (he : (s.core c).ended = true) (hl : (s.core c).lag = 0) :
    ∃ t, exec (.rampWindowEnd c) s = .next (if (s.core c).roll.quiet == 64 && (s.core c).ramp != 0
        then { t with agenda := .event (.rampTargetExpire c) :: s.agenda } else t) ∧
      t.core c = (s.core c).roll ∧ (∀ d, d ≠ c → t.core d = s.core d) ∧ { t with cores := s.cores } = s := by
  have hid (x : Core) : (Core.pass s.cyc 0 x.roll).id = x.id := Core.pass_id ..
  have hcore := (s.core_modCore_same c hid).trans (Core.pass_zero (c := (s.core c).roll) s.cyc hl)
  refine ⟨s.modCore c fun x => Core.pass s.cyc 0 x.roll, ?_, hcore, fun d hd => s.core_modCore_other c hid hd, s.modCore_cores_restored c _⟩
  show execRampWindowEnd c s = _
  simp only [execRampWindowEnd, he, hcore, State.modCore_agenda]
  rfl

/-- ENERGY_UPDATE: each counter of the package gains a value, and nothing else changes (R447). -/
theorem energyUpdateStep (rank : Nat) (s : State) (p : Pkg) (hp : s.pkg? rank = some p) :
    ∃ t, exec (.energyUpdate rank) s = .next t ∧
      t.pkg? rank = some { p with epkg := (p.epkg + Config.energy s.fresh) % 2 ^ 64 } ∧
      (∀ r, r ≠ rank → t.pkg? r = s.pkg? r) ∧ (∀ c, c.rank ≠ rank → t.core c = s.core c) ∧
      (∀ c, { t.core c with ecore := 0 } = { s.core c with ecore := 0 }) ∧
      (∀ n x, s.grid? n = some x → ∃ e, t.grid? n = some { x with egrid := e } ∧ (x.rank ≠ rank → e = x.egrid)) ∧
      { t with cores := s.cores, grids := s.grids, pkgs := s.pkgs, fresh := s.fresh } = s ∧ SameBytes s t := by
  have hrank (p : Pkg) := p.gainEnergy_rank (Config.energy s.fresh)
  refine ⟨_, exec_energyUpdate rank s, (s.gainEnergy rank).pkg_modPkg_same rank hrank hp,
    fun r hr => (s.gainEnergy rank).pkg_modPkg_other rank hrank hr, fun c hc => ?_, fun c => ?_,
    fun n x hx => s.grid_gainEnergy rank n hx, rfl,
    sameBytes_of_pkgMemories rfl (samePkgMemories_modPkg (s.gainEnergy rank) rank hrank fun _ => rfl) rfl rfl fun c => ?_⟩
  · obtain ⟨e, he, hsame⟩ := s.core_gainEnergy rank c
    exact he.trans (by rw [hsame hc])
  · obtain ⟨e, he, -⟩ := s.core_gainEnergy rank c
    exact congrArg (fun k : Core => { k with ecore := 0 }) he
  · obtain ⟨e, he, -⟩ := s.core_gainEnergy rank c
    exact (congrArg Core.spill he :)

/-- Settles O39, a clause for each of the five moves. -/
theorem matrixWindows : Obligations.MatrixWindows := by
  refine ⟨fun c s e r m n va hq hp hwork => ?_, fun c s he => ?_, fun c s he hl => ?_, fun c s => ?_, fun c temp droop s _ => ?_,
    energyUpdateStep⟩
  · obtain ⟨f, q, z, clr, hwork⟩ := hwork
    exact drainMergeSteps c s e r m n va hq hp (by rw [hwork]; rfl)
  · exact if_pos (by simp [he])
  · obtain ⟨t, hexec, hcore, hother, hrest⟩ := exec_rampWindowEnd he hl
    have hagenda : t.agenda = s.agenda := (congrArg State.agenda hrest :)
    rw [hexec]
    by_cases hdue : (s.core c).roll.quiet = 64 ∧ (s.core c).ramp ≠ 0
    · rw [if_pos (by simpa using hdue)]
      refine ⟨_, rfl, hcore, hother, ?_, ?_⟩
      · exact congrArg (fun u : State => { u with agenda := s.agenda }) hrest
      · exact (if_pos hdue ▸ rfl)
    · rw [if_neg (by simpa using hdue)]
      refine ⟨_, rfl, hcore, hother, ?_, ?_⟩
      · exact congrArg (fun u : State => { u with agenda := s.agenda }) hrest
      · exact hagenda.trans (if_neg hdue ▸ rfl)
  · have hid (x : Core) : ({ x with ramp := 0 } : Core).id = x.id := rfl
    by_cases hq : 64 ≤ (s.core c).quiet
    · refine ⟨s.modCore c fun x => { x with ramp := 0 }, congrArg _ (if_pos hq), ?_, fun d hd => s.core_modCore_other c hid hd,
        s.modCore_cores_restored c _⟩
      rw [s.core_modCore_same c hid, if_pos hq]
    · exact ⟨s, congrArg _ (if_neg hq), by rw [if_neg hq], fun _ _ => rfl, rfl⟩
  · have hid (x : Core) := x.throttled_id temp droop
    refine ⟨_, exec_throttleWindow c temp droop s, ?_⟩
    simp only [s.core_modCore_same c hid]
    exact ⟨Core.throttled_temp _ _ _, Core.throttled_droop _ _ _, Core.throttled_step _ _ _, Core.throttled_thcyc _ _ _,
      Core.throttled_cool _ _ _, Core.throttled_restored _ _ _, fun d hd => s.core_modCore_other c hid hd,
      s.modCore_cores_restored c _⟩

end Sys2Proof.Machine

namespace Sys2Proof.Machine

open Sys2Proof.Safety

/-! ### CWAIT (R177) -/

section
variable {ug : UGuard} {s : State} {is : Issuer} {g : Group} {f : Frag} (hi : Issues s is g f) (hw : g.wave = none)
  (hon : uniformOn g ug = true)

/-- What CWAIT does with the status that it finds. -/
def cwaitOutcome (s : State) (is : Issuer) (kd : KReg) (h : Option DWord) : Option Nat → State
  | none => block s is (.cwait kd h)
  | some st => done1 s is kd (BitVec.ofNat 64 st)

section
include hi hw hon

theorem exec_cwait {kd : KReg} {ka : Option KReg} {h : Option DWord} (hh : ka.map (fun k => g.kr k.toNat) = h)
    (hks : g.ksBusy (kd.toNat :: ka.toList.map fun k => k.toNat) = false) :
    exec (.cwait kd ka ug) s = .next (cwaitOutcome s is kd h (cwaitStatus s g h)) := by
  subst hh
  show execCwait kd ka ug s = _
  rw [execCwait, issue_uniIssue hi hw hon hks]
  simp only [cwaitTry]
  cases cwaitStatus s g (ka.map fun k => g.kr k.toNat) <;> rfl

end

include hi in
/-- A uniform word with one result that has completed: the group takes it, and beyond it nothing changes. -/
theorem done1_becomes {o : Outcome} {kd : KReg} {x : DWord} (h : o = .next (done1 s is kd x)) :
    ∃ t, o = .next (advance t is 1) ∧ Becomes s t is.gid (g.setBusyK kd.toNat x) :=
  ⟨_, h, becomes_modGroup (F := fun h => h.setBusyK kd.toNat x) hi.group fun _ => rfl⟩

theorem cwaitStatus_none_of_child (h : ∃ c ∈ s.grids, c.parent = some g.tid) : cwaitStatus s g none = none :=
  if_pos (by simpa [List.any_eq_true] using h)

theorem cwaitStatus_of_noChild (h : ∀ c ∈ s.grids, c.parent ≠ some g.tid) : cwaitStatus s g none = some stOk :=
  if_neg (by simpa [List.any_eq_true] using h)

section
variable {p : Pkg} {h : DWord} (hp : s.pkg? g.rank = some p)
include hp

theorem cwaitStatus_unknown (hs : p.childSeq.get (h.toNat % 2 ^ 12) = none) : cwaitStatus s g (some h) = some stError := by
  have hslot : bitsOf h.toNat 0 12 = h.toNat % 2 ^ 12 := by rw [bitsOf, Nat.pow_zero, Nat.div_one]
  simp only [cwaitStatus, hp, hslot, hs]

theorem cwaitStatus_known {last : Nat} (hs : p.childSeq.get (h.toNat % 2 ^ 12) = some last) : cwaitStatus s g (some h) =
    if last < h.toNat / 2 ^ 12 then some stError
    else if last = h.toNat / 2 ^ 12 ∧ p.children.get (h.toNat % 2 ^ 12) ≠ none then none
    else some stOk := by
  have hslot : bitsOf h.toNat 0 12 = h.toNat % 2 ^ 12 := by rw [bitsOf, Nat.pow_zero, Nat.div_one]
  have hseq : bitsOf h.toNat 12 52 = h.toNat / 2 ^ 12 := Nat.mod_eq_of_lt (by have := h.isLt; omega)
  simp only [cwaitStatus, hp, hslot, hseq, hs, Bool.and_eq_true, beq_iff_eq, Option.isSome_iff_ne_none]

end

/-! ### TSET and TGET (R180) -/

theorem Group.setT_eq (g : Group) (n : XReg) (lo hi : DWord) :
    g.setT n lo hi = { g with t := g.t.setIfInBounds n.toNat (hi.append lo) } := by
  have hword : BitVec.ofNat 128 (lo.toNat + 2 ^ 64 * hi.toNat) = hi.append lo := by
    refine BitVec.eq_of_toNat_eq ?_
    have happ : (hi.append lo).toNat = hi.toNat <<< 64 ||| lo.toNat := BitVec.toNat_append ..
    have hl := lo.isLt
    have hh := hi.isLt
    rw [happ, ← Nat.shiftLeft_add_eq_or_of_lt hl, BitVec.toNat_ofNat, Nat.shiftLeft_eq, Nat.mod_eq_of_lt (by omega)]
    omega
  rw [Group.setT, hword]

theorem tget_low (t : QWord) : BitVec.ofNat 64 (t.toNat / 2 ^ (64 * b2n false)) = t.setWidth 64 := by
  refine BitVec.eq_of_toNat_eq ?_
  simp [b2n]

theorem tget_high (t : QWord) : BitVec.ofNat 64 (t.toNat / 2 ^ (64 * b2n true)) = (t >>> 64).setWidth 64 := by
  refine BitVec.eq_of_toNat_eq ?_
  simp [b2n, Nat.shiftRight_eq_div_pow]

include hi hw hon in
/-- A uniform word on its group alone whose guard holds and whose registers are free executes (R50, R58). -/
theorem uniWord_becomes {len : Nat} {regs : List Nat} (hk : g.ksBusy regs = false) {F : Group → Group}
    (hF : ∀ x, (F x).gid = x.gid) :
    ∃ t, (issue s false fun x => uniWord x ug len regs F) = .next (advance t is len) ∧ Becomes s t is.gid (F g) := by
  refine ⟨_, ?_, becomes_modGroup hi.group hF⟩
  rw [issue_of_issues hi hw]
  exact congrArg Host.Outcome.next (uniIssue_on hon s is f len hk (advance (s.modGroup is.gid F) is len))

end

/-- The handles of children are waited for as R177 says, and halves of tile registers moved as R180 says. -/
theorem childWaitAndTileWords : Claims.ChildWaitAndTileWords := by
  intro kd ka kb tn ug s is g f p hi hw hp hon hkd hka hkb h slot n writes gets
  have hall := exec_cwait hi hw hon (kd := kd) (ka := none) (h := none) rfl (by simpa using hkd)
  have hone := exec_cwait hi hw hon (kd := kd) (ka := some ka) (h := some h) rfl (by simp [Group.ksBusy, hkd, hka])
  have hwrites {o : Outcome} {h' : Option DWord} {st : Nat} (ho : o = .next (cwaitOutcome s is kd h' (cwaitStatus s g h')))
      (hst : cwaitStatus s g h' = some st) := done1_becomes hi (kd := kd) (x := BitVec.ofNat 64 st) (ho.trans (by rw [hst]; rfl))
  have hknown {last : Nat} (hseq : p.childSeq.get slot = some last) : cwaitStatus s g (some h) = _ := cwaitStatus_known hp hseq
  refine ⟨fun hno => hwrites hall (cwaitStatus_of_noChild hno), fun hchild => ?_,
    fun hseq => hwrites hone (cwaitStatus_unknown hp hseq), fun last hseq => ⟨fun hlt => ?_, fun hlt => ?_, fun heq hgone => ?_,
    fun heq hthere => ?_⟩, ?_, ?_, ?_⟩
  · rw [hall, cwaitStatus_none_of_child hchild]
    rfl
  · exact hwrites hone ((hknown hseq).trans (if_pos hlt))
  · exact hwrites hone ((hknown hseq).trans ((if_neg (by omega)).trans (if_neg fun hc => absurd hc.1 (by omega))))
  · exact hwrites hone ((hknown hseq).trans ((if_neg (by omega)).trans (if_neg fun hc => hc.2 hgone)))
  · rw [hone, hknown hseq, if_neg (by omega), if_pos ⟨heq.symm, hthere⟩]
    rfl
  · have htset := uniWord_becomes hi hw hon (len := 1) (regs := [ka.toNat, kb.toNat]) (by simp [Group.ksBusy, hka, hkb])
      (F := fun g => g.setT tn (g.kr ka.toNat) (g.kr kb.toNat)) fun _ => rfl
    rwa [g.setT_eq] at htset
  · have htget := uniWord_becomes hi hw hon (len := 1) (regs := [kd.toNat]) (by simpa using hkd)
      (F := fun g => g.setK kd.toNat (BitVec.ofNat 64 ((g.tr tn).toNat / 2 ^ (64 * b2n false)))) fun _ => rfl
    rwa [tget_low] at htget
  · have htget := uniWord_becomes hi hw hon (len := 1) (regs := [kd.toNat]) (by simpa using hkd)
      (F := fun g => g.setK kd.toNat (BitVec.ofNat 64 ((g.tr tn).toNat / 2 ^ (64 * b2n true)))) fun _ => rfl
    rwa [tget_high] at htget

/-! ### ACQ and REL (R154, R178) -/

/-- The bytes that stay below an address (R178). -/
theorem Ram.read_below (r : Ram) (n a : Nat) : (r.below n).bytes.read a = if a < n then r.bytes.read a else 0 := by
  have hfilter (m : Mem) : Mem.read (m.filter fun c => c.1 < n) a = if a < n then m.read a else 0 := by
    induction m with
    | nil => exact (ite_self _).symm
    | cons c m ih =>
      by_cases hc : c.1 < n
      · rw [List.filter_cons_of_pos (by simpa using hc)]
        simp only [Mem.read, ih, beq_iff_eq]
        split <;> simp_all
      · rw [List.filter_cons_of_neg (by simpa using hc), ih]
        simp only [Mem.read, beq_iff_eq]
        split <;> simp_all; omega
  exact hfilter r.bytes

/-- A request joins the queue of a core, and the fragment blocks for its grant (R178). -/
def State.askResource (s : State) (is : Issuer) (g : Group) (what : Res) (n : Nat) (kd : KReg) : State :=
  (block (s.gensym.2.modCore g.core fun c => { c with acqs := c.acqs ++ [⟨s.fresh, g.gid, is.entry, g.tid, what, n, kd⟩] }) is
    (.acq s.fresh kd)).owe [.event (.acqGrant g.core)]

/-- The team of a group gives back n units from the top (R178). -/
def State.giveBack (s : State) (g : Group) (what : Res) (n : Nat) : State :=
  (s.modTeam g.tid fun t => t.release what n).owe [.event (.acqGrant g.core), .event (.teamPlace g.rank g.core.die)]

section
variable {what : Res} {kd ka : KReg} {ug : UGuard} {s : State} {is : Issuer} {g : Group} {f : Frag} {tm : Team}
  (hi : Issues s is g f) (hw : g.wave = none) (ht : s.team? g.tid = some tm) (hon : uniformOn g ug = true)
  (hka : g.kbusy.getLsbD ka.toNat = false)
include hi hw ht hon hka

theorem exec_acq (hkd : g.kbusy.getLsbD kd.toNat = false) : exec (.acq what kd ka ug) s = .next (
    if resAll what < tm.has what + (g.kr ka.toNat).toNat then takeTrap s is 2 ⟨causeResource, 0, 0⟩
    else if (g.kr ka.toNat).toNat == 0 then done1 s is kd (tm.top what)
    else s.askResource is g what (g.kr ka.toNat).toNat kd) := by
  show execAcq what kd ka ug s = _
  rw [execAcq, issue_uniIssue hi hw hon (by simp [Group.ksBusy, hkd, hka])]
  simp only [ht]
  rfl

theorem exec_rel : exec (.rel what ka ug) s = .next (
    if tm.has what < (g.kr ka.toNat).toNat then takeTrap s is 2 ⟨causeResource, 0, 0⟩
    else if relBusy s g tm what (g.kr ka.toNat).toNat then s
    else advance (s.giveBack g what (g.kr ka.toNat).toNat) is 1) := by
  show execRel what ka ug s = _
  rw [execRel, issue_uniIssue hi hw hon (by simpa using hka)]
  simp only [ht]
  rfl

end

section
variable (s : State) (is : Issuer) (g : Group) (what : Res) (n : Nat) (kd : KReg)

theorem State.core_askResource (c : CoreId) : (s.askResource is g what n kd).core c =
    if c = g.core then { s.core g.core with acqs := (s.core g.core).acqs ++ [⟨s.fresh, g.gid, is.entry, g.tid, what, n, kd⟩] }
    else s.core c :=
  s.gensym.2.core_modCore g.core c _ fun _ => rfl

theorem State.askResource_teams : (s.askResource is g what n kd).teams = s.teams :=
  s.gensym.2.modCore_teams g.core _

theorem State.askResource_bytes : SameBytes s (s.askResource is g what n kd) :=
  sameBytes_of_memories (s.gensym.2.modCore_host g.core _) (s.gensym.2.modCore_pkgs g.core _) (s.askResource_teams is g what n kd)
    (s.gensym.2.modCore_segs g.core _) fun c => by
      rw [s.core_askResource]
      split
      next h => rw [h]
      next => rfl

theorem State.askResource_agenda : .event (.acqGrant g.core) ∈ (s.askResource is g what n kd).agenda :=
  List.mem_append_right _ (List.mem_singleton_self _)

theorem State.group_askResource {h : Group} (hg : s.group? is.gid = some h) : (s.askResource is g what n kd).group? is.gid =
    some ((h.holdK kd.toNat).modFrag is.entry fun f => { f with st := .blocked, wait := some (.acq s.fresh kd) }) :=
  State.group_modGroup_same (F := fun h => (h.holdK kd.toNat).modFrag is.entry fun f =>
    { f with st := .blocked, wait := some (.acq s.fresh kd) }) ((s.gensym.2.group_modCore g.core _ is.gid).trans hg) fun _ => rfl

end

theorem Team.release_tid (t : Team) (what : Res) (n : Nat) : (t.release what n).tid = t.tid := by
  cases what <;> rfl

section
variable (s : State) (tid : Nat) {F : Team → Team} (hF : ∀ t, (F t).tid = t.tid)
include hF

theorem State.team_modTeam_same {tm : Team} (h : s.team? tid = some tm) : (s.modTeam tid F).team? tid = some (F tm) := by
  simp [s.team_modTeam tid tid F hF, h]

theorem State.team_modTeam_other {n : Nat} (h : n ≠ tid) : (s.modTeam tid F).team? n = s.team? n := by
  simp [s.team_modTeam tid n F hF, h]

/-- One team changed alone, its memories with it. -/
theorem State.onlyTeam_modTeam : OnlyTeam s (s.modTeam tid F) tid where
  teams n hn := s.team_modTeam_other tid hF hn
  rest := rfl
  bytes p hp := by
    cases p with
    | shared n a => simp only [byteAt, s.team_modTeam_other tid hF fun hn => (hp a).1 (hn ▸ rfl)]
    | tile n a => simp only [byteAt, s.team_modTeam_other tid hF fun hn => (hp a).2 (hn ▸ rfl)]
    | host a | hbm r a | window r a | tier r a | stored r a | scratch i a | spill c x va | cached r x va => rfl

end

theorem State.onlyTeam_giveBack (s : State) (g : Group) (what : Res) (n : Nat) : OnlyTeam s (s.giveBack g what n) g.tid :=
  have h := s.onlyTeam_modTeam g.tid fun t => t.release_tid what n
  ⟨h.teams, rfl, h.bytes⟩

/-- What a team has left of a resource that it gives back, and the bytes of it (R178). -/
theorem Team.read_release_smem (t : Team) (n a : Nat) : (t.release .smem n).shared.bytes.read a =
    if a < 4096 * (t.holding - n) then t.shared.bytes.read a else 0 := Ram.read_below ..

theorem Team.read_release_tile (t : Team) (n a : Nat) : (t.release .tile n).acc.bytes.read a =
    if a < 16384 * (t.tiles - n) then t.acc.bytes.read a else 0 := Ram.read_below ..

/-- The resources of a core are asked for, granted and given back as R154 and R178 say. -/
theorem resourceWords : Claims.ResourceWords := by
  intro what kd ka ug s is g f tm hi hw ht hon hkd hka n all has unit top
  have hhas (t : Team) : t.has what = has t := by cases what <;> rfl
  have hacq := exec_acq (what := what) hi hw ht hon hka hkd
  have hrel := exec_rel (what := what) hi hw ht hon hka
  rw [hhas] at hacq hrel
  have hall : resAll what = all := by cases what <;> rfl
  have htop : tm.top what = top := by cases what <;> rfl
  rw [hall, htop] at hacq
  refine ⟨fun h0 hle => ?_, fun hlt => ?_, fun h0 hle => ?_, fun hlt => ?_, fun hle hbusy => ?_, fun hle hbusy => ?_⟩
  · refine done1_becomes hi (hacq.trans ?_)
    rw [if_neg (by omega), if_pos (by simpa using h0)]
  · rw [hacq, if_pos hlt]
  · refine ⟨_, s.fresh, hacq.trans (by rw [if_neg (by omega), if_neg (by simpa using h0)]), ?_, s.group_askResource is g what n kd hi.group,
      s.askResource_teams is g what n kd, s.askResource_agenda is g what n kd, s.askResource_bytes is g what n kd⟩
    rw [s.core_askResource, if_pos rfl]
  · rw [hrel, if_pos hlt]
  · rw [hrel, if_neg (by omega), if_pos hbusy]
  · rw [if_neg (by omega), hbusy, if_neg Bool.false_ne_true] at hrel
    refine ⟨_, tm.release what n, hrel, s.team_modTeam_same g.tid (fun t => t.release_tid what n) ht, ?_,
      s.onlyTeam_giveBack g what n, hi.group, ?_⟩
    · cases what <;> rfl
    · cases what with
      | smem => exact ⟨tm.read_release_smem n, ⟨rfl, rfl⟩, rfl⟩
      | tile => exact ⟨tm.read_release_tile n, ⟨rfl, rfl⟩, rfl⟩

/-- Settles O30, the waits for children and the words of tiles beside those of holdings. -/
theorem holdingWords : Obligations.HoldingWords := ⟨childWaitAndTileWords, resourceWords⟩

end Sys2Proof.Machine

namespace Sys2Proof.Machine

open Sys2Proof.Safety

/-! ### The tiles that matrix words take (R179, R187, R192) -/

theorem Tile.matrixOk_iff (d : Tile) (t : Team) : d.matrixOk t = true ↔ MatrixTile d t := by
  simp only [Tile.matrixOk, Tile.ok, Tile.inShared, Tile.endOf, MatrixTile, Bool.and_eq_true, Bool.or_eq_true, beq_iff_eq, bne_iff_ne,
    decide_eq_true_eq]
  constructor
  · rintro ⟨⟨⟨⟨⟨⟨⟨⟨⟨⟨-, hfmt⟩, hrsvd⟩, -⟩, hspace⟩, hcols⟩, hmax⟩, hplanes⟩, hbase⟩, hpitch⟩, hend⟩
    exact ⟨hfmt, hrsvd, hspace, hcols, hmax, hplanes, hbase, hpitch, of_decide_eq_true hend⟩
  · rintro ⟨hfmt, hrsvd, hspace, hcols, hmax, hplanes, hbase, hpitch, hend⟩
    exact ⟨⟨⟨⟨⟨⟨⟨⟨⟨⟨by omega, hfmt⟩, hrsvd⟩, .inr hcols⟩, hspace⟩, hcols⟩, hmax⟩, hplanes⟩, hbase⟩, hpitch⟩, decide_eq_true hend⟩

theorem moveOk_iff (d : Tile) (t : Team) (fmts : List Nat) :
    moveOk d t fmts = true ↔ MatrixTile d t ∧ d.rows = 16 ∧ d.fmt ∈ fmts := by
  simp only [moveOk, Bool.and_eq_true, d.matrixOk_iff, beq_iff_eq, List.contains_iff_mem, and_assoc]

/-! ### Posting an entry (R182, R183, R214) -/

/-- Beyond the operand latches of one core, u is s. -/
structure Latched (s u : State) (c : CoreId) : Prop where
  core : { u.core c with latches := [] } = { s.core c with latches := [] }
  others : ∀ d, d ≠ c → u.core d = s.core d
  rest : { u with cores := s.cores } = s

theorem latched_refl (s : State) (c : CoreId) : Latched s s c := ⟨rfl, fun _ _ => rfl, rfl⟩

theorem latched_modCore (s : State) (c : CoreId) {F : Core → Core} (hF : ∀ k, { F k with latches := [] } = { k with latches := [] }) :
    Latched s (s.modCore c F) c :=
  have hid (k : Core) : (F k).id = k.id := (congrArg Core.id (hF k) :)
  { core := (congrArg (fun k : Core => { k with latches := [] }) (s.core_modCore_same c hid)).trans (hF _)
    others := fun _ hd => s.core_modCore_other c hid hd
    rest := s.modCore_cores_restored c F }

/-- The entry that a matrix word posts. -/
def matrixEntry (s : State) (is : Issuer) (g : Group) (work : MWork) (bar : Option BReg) (foe : Bool) (spans : List Span) : MEntry :=
  { id := s.fresh, gid := is.gid, tid := g.tid, seq := g.nextSeq, work := work, bar := bar, foe := foe
    level := g.level.toNat, spans := spans, preds := if foe then unitPreds s g.core spans else [], phase := .posted }

/-- An entry joins the FIFO of the group's core, and path 7 of the group counts its word. -/
def State.postEntry (u : State) (is : Issuer) (g : Group) (f : Frag) (e : MEntry) : State :=
  ((u.gensym.2.modCore g.core fun c => { c with fifo := c.fifo ++ [e] }).modGroup is.gid fun g =>
    g.raise (.plain 7 .matrix f.mask f.mask e.id)).owe [.event (.matrixEntryStart g.core)]

section
variable {s u : State} {is : Issuer} {g : Group} {f : Frag} {work : MWork} {bar : Option BReg} {foe : Bool} {spans : List Span}
  (hl : Latched s u g.core)
include hl

theorem Latched.fifo : (u.core g.core).fifo = (s.core g.core).fifo := (congrArg Core.fifo hl.core :)

theorem Latched.unitEntries : unitEntries u g.core = unitEntries s g.core := by
  have hops : u.ops = s.ops := (congrArg State.ops hl.rest :)
  rw [Machine.unitEntries, hl.fifo, hops, Machine.unitEntries]

theorem Latched.matrixEntry : matrixEntry u is g work bar foe spans = matrixEntry s is g work bar foe spans := by
  have hfresh : u.fresh = s.fresh := (congrArg State.fresh hl.rest :)
  simp only [Machine.matrixEntry, unitPreds, hl.unitEntries, hfresh]

theorem postMatrix_of_room (hroom : FifoRoom s g foe) : postMatrix ⟨s, is, g, f⟩ u work bar foe spans =
    advance (u.postEntry is g f (matrixEntry s is g work bar foe spans)) is 1 := by
  obtain ⟨hfifo, hpath, hunit⟩ := hroom
  have hfull : (decide (32 ≤ (u.core g.core).fifo.length) || g.pathFull 7 || (foe && unitFull u g.core)) = false := by
    rw [hl.fifo, decide_eq_false (by omega), Group.pathFull, decide_eq_false (by omega), unitFull, hl.unitEntries]
    cases foe with
    | false => rfl
    | true => simpa using hunit rfl
  have hpost : postMatrix ⟨s, is, g, f⟩ u work bar foe spans =
      if decide (32 ≤ (u.core g.core).fifo.length) || g.pathFull 7 || (foe && unitFull u g.core) then s
      else advance (u.postEntry is g f (Machine.matrixEntry u is g work bar foe spans)) is 1 := rfl
  rw [hpost, hfull, if_neg Bool.false_ne_true, hl.matrixEntry]

/-- A word that reaches its posting with room for its entry posts it. -/
theorem posts_of_exec {i : Instr} (hi : Issues s is g f) (hroom : FifoRoom s g foe)
    (hexec : exec i s = .next (postMatrix ⟨s, is, g, f⟩ u work bar foe spans)) : Safety.Posts i s is g f work bar foe spans := by
  let e := Machine.matrixEntry s is g work bar foe spans
  have hid (c : Core) : ({ c with fifo := c.fifo ++ [e] } : Core).id = c.id := rfl
  have hcore : (u.postEntry is g f e).core g.core = { u.core g.core with fifo := (u.core g.core).fifo ++ [e] } :=
    u.gensym.2.core_modCore_same g.core hid
  have hothers (d : CoreId) (hd : d ≠ g.core) : (u.postEntry is g f e).core d = s.core d :=
    (u.gensym.2.core_modCore_other g.core hid hd).trans (hl.others d hd)
  have hgroup : (u.gensym.2.modCore g.core fun c => { c with fifo := c.fifo ++ [e] }).group? is.gid = some g :=
    (State.group_modCore ..).trans ((congrArg (fun x : State => x.group? is.gid) hl.rest :).trans hi.group)
  have hrest : { u.postEntry is g f e with cores := s.cores, groups := s.groups, agenda := s.agenda, fresh := s.fresh } = s :=
    (congrArg (fun x : State => { x with cores := s.cores, groups := s.groups, agenda := s.agenda, fresh := s.fresh })
      (u.gensym.2.modCore_cores_restored g.core fun c => { c with fifo := c.fifo ++ [e] }) :).trans
      (congrArg (fun x : State => { x with groups := s.groups, agenda := s.agenda, fresh := s.fresh }) hl.rest :)
  have hspill (d : CoreId) : ((u.postEntry is g f e).core d).spill = (s.core d).spill := by
    by_cases hd : d = g.core
    · rw [hd, hcore]
      exact (congrArg Core.spill hl.core :)
    · rw [hothers d hd]
  refine ⟨u.postEntry is g f e, hexec.trans (congrArg _ (postMatrix_of_room hl hroom)), ?_, ?_, ?_, ?_, ?_, hothers, fun n hn => ?_,
    hrest, sameBytes_of_memories (congrArg State.host hrest :) (congrArg State.pkgs hrest :) (congrArg State.teams hrest :)
      (congrArg State.segs hrest :) hspill⟩
  · rw [hcore, ← hl.fifo]
    rfl
  · rw [hcore]
    exact (congrArg (fun k : Core => { k with fifo := [] }) hl.core :)
  · exact State.group_modGroup_same (F := fun g => g.raise (.plain 7 .matrix f.mask f.mask e.id)) hgroup fun _ => rfl
  · exact congrArg (· ++ _) ((State.modCore_agenda ..).trans (congrArg State.agenda hl.rest :))
  · exact (State.modCore_fresh ..).trans (congrArg (·.fresh + 1) hl.rest :)
  · exact (State.group_modGroup_other (F := fun g => g.raise (.plain 7 .matrix f.mask f.mask e.id)) (fun _ => rfl) hn).trans
      ((State.group_modCore ..).trans (congrArg (fun x : State => x.group? n) hl.rest :))

end

/-! ### MMA (R186 to R189) -/

theorem getD_map_upTo {α : Type} (n i : Nat) (F : Nat → α) (d : α) (h : i < n) : ((upTo n).map F).getD i d = F i := by
  simp [upTo_eq_range, List.getD_eq_getElem?_getD, h]

/-- The registers of an MMA in every slot, counted up from the first of each operand (R80, R186). -/
def mmaReads (regs : Nat) (va : VReg) (scl : Option (VReg × BitVec 2)) : List Nat :=
  (List.range regs).map (va.toNat + ·) ++ match scl with
    | none => []
    | some (vs, _) => (List.range 5).map (vs.toNat + ·)

theorem mmaRegs_eq (f : MmaFmt) (va : VReg) (scl : Option (VReg × BitVec 2)) : mmaRegs f va scl = mmaReads f.aregs va scl := by
  cases scl <;> simp only [mmaRegs, mmaReads, regsFrom, upTo_eq_range]

theorem mmaScales_row (g : Group) (vs : VReg) (sb : BitVec 2) (n : Nat) {i : Nat} (h : i < 16) :
    (mmaScales g (some (vs, sb)) n).1.getD i 0 = ((g.thread i).v (vs.toNat + 4)).toNat / 2 ^ (8 * sb.toNat) % 2 ^ 8 := by
  simp only [mmaScales, getD_map_upTo 16 i _ _ h, bitsOf]

theorem mmaScales_col (g : Group) (vs : VReg) (sb : BitVec 2) {n c : Nat} (h : c < n) :
    (mmaScales g (some (vs, sb)) n).2.getD c 0 =
      ((g.thread (c % 16)).v (vs.toNat + c / 64)).toNat / 2 ^ (8 * (c / 16 % 4)) % 2 ^ 8 := by
  simp only [mmaScales, getD_map_upTo n c _ _ h, bitsOf]

theorem getLsbD_full {slot : Nat} (h : slot < 16) : (0xFFFF : Mask).getLsbD slot = true := by
  interval_cases slot <;> rfl

theorem Iss.poisoned_full_iff (x : Iss) (regs : List Nat) : (x.poisoned 0xFFFF regs != 0) = true ↔
    ∃ slot n, slot < 16 ∧ n ∈ regs ∧ (x.g.thread slot).poisoned n = true := by
  rw [bne_iff_ne, ne_eq, Iss.poisoned, maskOf_eq_zero_iff]
  constructor
  · intro h
    by_contra hno
    refine h fun slot hs => ?_
    rw [getLsbD_full hs, Bool.true_and, List.any_eq_false]
    exact fun n hn hp => hno ⟨slot, n, hs, hn, hp⟩
  · rintro ⟨slot, n, hs, hn, hp⟩ h
    have := h slot hs
    rw [getLsbD_full hs, Bool.true_and] at this
    exact List.any_eq_false.1 this n hn hp

theorem useLatch_latches (c : Core) (gid va n : Nat) (vals : List (List Word)) (ru : Bool) :
    { useLatch c gid va n vals ru with latches := [] } = { c with latches := [] } := by
  have h : ∃ l, useLatch c gid va n vals ru = { c with latches := l } := by
    dsimp only [useLatch]
    split
    · exact ⟨_, rfl⟩
    · split <;> exact ⟨_, rfl⟩
  obtain ⟨l, h⟩ := h
  rw [h]

/-- The shape that an MMA needs of its descriptor (R187). -/
def mmaShape (d : Tile) (t : Team) (fmt : MmaFmt) : Bool :=
  d.matrixOk t && d.fmt == fmt.tile && d.rows == fmt.depth && d.rowBytes ≤ d.pitch

theorem mmaShape_iff (d : Tile) (t : Team) (fmt : MmaFmt) : mmaShape d t fmt = true ↔
    MatrixTile d t ∧ d.fmt = fmt.tile ∧ (d.fmt = 6 → d.cols % 16 = 0) ∧ d.rows = fmt.depth ∧ d.rowBytes ≤ d.pitch := by
  simp only [mmaShape, Bool.and_eq_true, d.matrixOk_iff, beq_iff_eq, decide_eq_true_eq, and_assoc]
  constructor
  · rintro ⟨ht, hfmt, hrows, hbytes⟩
    have ⟨_, _, _, hcols, _⟩ := ht
    exact ⟨ht, hfmt, fun _ => hcols, hrows, hbytes⟩
  · rintro ⟨ht, hfmt, -, hrows, hbytes⟩
    exact ⟨ht, hfmt, hrows, hbytes⟩

/-- The operand that an MMA captures from its A registers (R186). -/
def mmaOperand (g : Group) (fmt : MmaFmt) (va : VReg) : List (List Word) :=
  (upTo 16).map fun i => (upTo fmt.aregs).map fun r => (g.thread i).v (va.toNat + r)

/-- What an MMA posts (R186 to R188). -/
def mmaWork (x : Iss) (fmt : MmaFmt) (z tb : XReg) (va : VReg) (scl : Option (VReg × BitVec 2)) : MWork :=
  let sc := mmaScales x.g scl (tileOf (x.g.tr tb)).cols
  .mma fmt z.toNat (x.g.tr tb) x.g.nbv (mmaOperand x.g fmt va) sc.1 sc.2 scl.isSome (x.poisoned 0xFFFF (mmaRegs fmt va scl) != 0)

section
variable {s : State} {is : Issuer} {g : Group} {f : Frag} {tm : Team} (hi : Issues s is g f) (hw : g.wave = none)
  (ht : s.team? g.tid = some tm)
include hi hw ht

theorem mma_eq (fmt : MmaFmt) (z tb : XReg) (va : VReg) (scl : Option (VReg × BitVec 2)) (ru : Bool) :
    mma fmt z tb va scl ru s = .next (
      if f.mask != 0xFFFF then takeTrap s is 3 ⟨0, 0, 0⟩
      else if tm.tiles ≤ z.toNat then takeTrap s is 2 ⟨causeResource, 0, 0⟩
      else if !mmaShape (tileOf (g.tr tb)) tm fmt then takeTrap s is 2 ⟨causeTile, 0, 0⟩
      else if g.vsBusy 0xFFFF (mmaRegs fmt va scl) then block s is .scoreboard
      else postMatrix ⟨s, is, g, f⟩ (s.modCore g.core fun c => useLatch c is.gid va.toNat fmt.aregs (mmaOperand g fmt va) ru)
        (mmaWork ⟨s, is, g, f⟩ fmt z tb va scl) none true [(tileOf (g.tr tb)).sharedSpan g.tid false]) := by
  rw [mma, issue_of_issues hi hw]
  simp only [ht]
  rfl

/-- The checks of an MMA, and what it captures and posts (R186 to R188). -/
theorem matrixMultiplyWord {i : Instr} {fmt : MmaFmt} {z tb : XReg} {va : VReg} {scl : Option (VReg × BitVec 2)} {ru : Bool}
    (hexec : exec i s = mma fmt z tb va scl ru s) :
    let d := tileOf (g.tr tb)
    let reads := mmaReads fmt.aregs va scl
    let shape : Prop := MatrixTile d tm ∧ d.fmt = fmt.tile ∧ (d.fmt = 6 → d.cols % 16 = 0) ∧ d.rows = fmt.depth ∧ d.rowBytes ≤ d.pitch
    (f.mask ≠ 0xFFFF → exec i s = .next (takeTrap s is 3 ⟨0, 0, 0⟩)) ∧
    (f.mask = 0xFFFF → tm.tiles ≤ z.toNat → exec i s = .next (takeTrap s is 2 ⟨causeResource, 0, 0⟩)) ∧
    (f.mask = 0xFFFF → z.toNat < tm.tiles → ¬shape → exec i s = .next (takeTrap s is 2 ⟨causeTile, 0, 0⟩)) ∧
    (f.mask = 0xFFFF → z.toNat < tm.tiles → shape → (∀ slot, slot < 16 → ∀ n ∈ reads, g.vbusy slot n = false) →
      FifoRoom s g true → ∃ a ca cb bad,
        (∀ i r, i < 16 → r < fmt.aregs → ((a : List (List Word)).getD i []).getD r 0 = (g.thread i).v (va.toNat + r)) ∧
        (∀ (vs : VReg) (sb : BitVec 2) (i : Nat), scl = some (vs, sb) → i < 16 → ca.getD i 0 =
          ((g.thread i).v (vs.toNat + 4)).toNat / 2 ^ (8 * sb.toNat) % 2 ^ 8) ∧
        (∀ (vs : VReg) (sb : BitVec 2) (c : Nat), scl = some (vs, sb) → c < d.cols → cb.getD c 0 =
          ((g.thread (c % 16)).v (vs.toNat + c / 64)).toNat / 2 ^ (8 * (c / 16 % 4)) % 2 ^ 8) ∧
        (bad = true ↔ ∃ slot n, slot < 16 ∧ n ∈ reads ∧ (g.thread slot).poisoned n = true) ∧
        Safety.Posts i s is g f (.mma fmt z.toNat (g.tr tb) g.nbv a ca cb scl.isSome bad) none true
          [⟨(0, g.tid), d.base / 256, (d.base + (d.rows - 1) * d.pitch + d.rowBytes - 1) / 256, false⟩]) := by
  intro d reads shape
  have hreads : mmaRegs fmt va scl = reads := mmaRegs_eq fmt va scl
  have hshape : mmaShape d tm fmt = true ↔ shape := mmaShape_iff d tm fmt
  have hexec := hexec.trans (mma_eq hi hw ht fmt z tb va scl ru)
  have hfull (h : f.mask = 0xFFFF) : ¬(f.mask != 0xFFFF) = true := by simp [h]
  refine ⟨fun h => ?_, fun h hz => ?_, fun h hz hno => ?_, fun h hz hs hfree hroom => ?_⟩
  · rw [hexec, if_pos (by simpa using h)]
  · rw [hexec, if_neg (hfull h), if_pos hz]
  · rw [hexec, if_neg (hfull h), if_neg (by omega), if_pos (by simpa using mt hshape.1 hno)]
  · have hbusy : g.vsBusy 0xFFFF (mmaRegs fmt va scl) = false := vsBusy_eq_false fun slot hlt _ n hn => hfree slot hlt n (hreads ▸ hn)
    rw [if_neg (hfull h), if_neg (by omega), hshape.2 hs, Bool.not_true, if_neg Bool.false_ne_true, hbusy,
      if_neg Bool.false_ne_true] at hexec
    refine ⟨mmaOperand g fmt va, (mmaScales g scl d.cols).1, (mmaScales g scl d.cols).2, _, fun i r hi hr => ?_,
      fun vs sb i hscl hi => ?_, fun vs sb c hscl hc => ?_, ?_,
      posts_of_exec (latched_modCore s g.core fun k => useLatch_latches k is.gid va.toNat fmt.aregs _ ru) hi hroom hexec⟩
    · rw [mmaOperand, getD_map_upTo 16 i _ _ hi, getD_map_upTo _ r _ _ hr]
    · rw [hscl, mmaScales_row g vs sb _ hi]
    · rw [hscl, mmaScales_col g vs sb hc]
    · rw [Iss.poisoned_full_iff, hreads]

end

/-- Each of the six formats of MMA is the word of its own depth, format code and registers. -/
theorem matrixMultiplyWords : Claims.MatrixMultiplyWords := by
  intro z tb va scl ru s is g f tm hi hw ht d word
  have hword {i : Instr} (fmt : MmaFmt) {k code regs : Nat} {scl : Option (VReg × BitVec 2)} (hk : fmt.depth = k)
      (hcode : fmt.tile = code) (hregs : fmt.aregs = regs) (hexec : exec i s = mma fmt z tb va scl ru s) :
      word i fmt k code regs scl := by
    subst hk hcode hregs
    exact matrixMultiplyWord hi hw ht hexec
  refine ⟨?_, ?_, ?_, ?_, ?_, ?_⟩
  · exact hword .e4m3 rfl rfl rfl rfl
  · exact hword .e5m2 rfl rfl rfl rfl
  · exact hword .l6 rfl rfl rfl rfl
  · exact hword (scl := none) .i8 rfl rfl rfl rfl
  · exact hword (scl := none) .bf16 rfl rfl rfl rfl
  · exact hword (scl := none) .f16 rfl rfl rfl rfl

/-! ### MZERO, MLD, MST and MDRAIN (R191 to R193) -/

section
variable {s : State} {is : Issuer} {g : Group} {f : Frag} {tm : Team} (hi : Issues s is g f) (hw : g.wave = none)
  (ht : s.team? g.tid = some tm) {i : Instr} {z : XReg}
include hi hw ht

theorem tileWord_eq (k : Iss → Team → State) : tileWord s z k =
    .next (if tm.tiles ≤ z.toNat then takeTrap s is 2 ⟨causeResource, 0, 0⟩ else k ⟨s, is, g, f⟩ tm) := by
  rw [tileWord, issue_of_issues hi hw]
  simp only [ht]
  rfl

/-- A word on a z register that the team does not hold (R181). -/
theorem tileWord_unheld {k : Iss → Team → State} (hexec : exec i s = tileWord s z k) (hz : tm.tiles ≤ z.toNat) :
    exec i s = .next (takeTrap s is 2 ⟨causeResource, 0, 0⟩) := by
  rw [hexec, tileWord_eq hi hw ht, if_pos hz]

theorem tileWord_held {k : Iss → Team → State} (hexec : exec i s = tileWord s z k) (hz : z.toNat < tm.tiles) :
    exec i s = .next (k ⟨s, is, g, f⟩ tm) := by
  rw [hexec, tileWord_eq hi hw ht, if_neg (Nat.not_le.2 hz)]

variable {ta : XReg} {fmts : List Nat} {k : Iss → State}

/-- A word that moves a tile, after the check of its descriptor. -/
theorem moveWord_refused (hexec : exec i s = tileWord s z fun x t =>
      if !moveOk (tileOf (x.g.tr ta)) t fmts then illegal x causeTile else k x) :
    (tm.tiles ≤ z.toNat → exec i s = .next (takeTrap s is 2 ⟨causeResource, 0, 0⟩)) ∧
    (z.toNat < tm.tiles → ¬(MatrixTile (tileOf (g.tr ta)) tm ∧ (tileOf (g.tr ta)).rows = 16 ∧ (tileOf (g.tr ta)).fmt ∈ fmts) →
      exec i s = .next (takeTrap s is 2 ⟨causeTile, 0, 0⟩)) := by
  refine ⟨tileWord_unheld hi hw ht hexec, fun hz hbad => (tileWord_held hi hw ht hexec hz).trans ?_⟩
  rw [if_pos (by simpa using mt (moveOk_iff _ _ _).1 hbad)]
  rfl

theorem moveWord_checked (hexec : exec i s = tileWord s z fun x t =>
      if !moveOk (tileOf (x.g.tr ta)) t fmts then illegal x causeTile else k x) (hz : z.toNat < tm.tiles)
    (hgood : MatrixTile (tileOf (g.tr ta)) tm ∧ (tileOf (g.tr ta)).rows = 16 ∧ (tileOf (g.tr ta)).fmt ∈ fmts) :
    exec i s = .next (k ⟨s, is, g, f⟩) := by
  refine (tileWord_held hi hw ht hexec hz).trans ?_
  rw [(moveOk_iff _ _ _).2 hgood]
  rfl

end

/-- MDRAIN once its descriptor is checked: it waits for k[KX], checks the address, and posts (R193). -/
def drainWord (fmt : DrainFmt) (ta z : XReg) (kx : Option XReg) (clr : Bool) (c : Compl) (x : Iss) : State :=
  let amx := kx.map fun k => x.g.kr k.toNat
  if x.g.ksBusy (kx.toList.map fun k => k.toNat) then block x.s x.is .scoreboard
  else if amx.any fun a => a.toNat % 4 != 0 || !canonical a then illegal x causeOperand
  else postMatrix x x.s (.mdrain fmt (x.g.tr ta) z.toNat (amx.map fun a => a.toNat) clr) c.bar c.foe
    [(tileOf (x.g.tr ta)).sharedSpan x.g.tid true]

section
variable {fmt : DrainFmt} {ta z : XReg} {kx : Option XReg} {clr : Bool} {c : Compl} {x : Iss}
  (hfree : ∀ k, kx = some k → x.g.kbusy.getLsbD k.toNat = false)
include hfree

theorem drainWord_badAddress (hbad : ∃ k, kx = some k ∧ ((x.g.kr k.toNat).toNat % 4 ≠ 0 ∨ canonical (x.g.kr k.toNat) = false)) :
    drainWord fmt ta z kx clr c x = illegal x causeOperand := by
  obtain ⟨k, rfl, hbad⟩ := hbad
  simp [drainWord, Group.ksBusy, hfree k rfl, hbad]

theorem drainWord_goodAddress (hgood : ∀ k, kx = some k → (x.g.kr k.toNat).toNat % 4 = 0 ∧ canonical (x.g.kr k.toNat) = true) :
    drainWord fmt ta z kx clr c x =
      postMatrix x x.s (.mdrain fmt (x.g.tr ta) z.toNat (kx.map fun k => (x.g.kr k.toNat).toNat) clr) c.bar c.foe
        [(tileOf (x.g.tr ta)).sharedSpan x.g.tid true] := by
  cases kx with
  | none => rfl
  | some k => simp [drainWord, Group.ksBusy, hfree k rfl, hgood k rfl]

end

/-- MRAMP: the core alone takes its target (R197). -/
theorem exec_mramp {n : BitVec 5} {ug : UGuard} {s : State} {is : Issuer} {g : Group} {f : Frag} (hi : Issues s is g f)
    (hw : g.wave = none) (hon : uniformOn g ug = true) : exec (.mramp n ug) s =
      .next (advance (s.modCore g.core fun c => { c with ramp := 100 * n.toNat, quiet := 0, began := true }) is 1) := by
  show execMramp n ug s = _
  rw [execMramp, issue_uniIssue hi hw hon rfl]

/-- A core changed alone, its spill buffer apart. -/
theorem onlyCore_modCore (s : State) (c : CoreId) (gid : Nat) {F : Core → Core} (hid : ∀ k, (F k).id = k.id)
    (hspill : ∀ k, (F k).spill = k.spill) : OnlyCore s (s.modCore c F) c gid where
  cores d hd := s.core_modCore_other c hid hd
  groups n _ := State.group_modCore ..
  rest := (congrArg (fun x : State => { x with groups := s.groups, agenda := s.agenda, fresh := s.fresh }) (s.modCore_cores_restored c F) :)
  bytes := sameBytes_of_memories (s.modCore_host c F) (s.modCore_pkgs c F) (s.modCore_teams c F) (s.modCore_segs c F) fun d => by
    rw [s.core_modCore c d F hid]
    split
    next h => rw [hspill, h]
    next => rfl

/-- The words that move tiles post their entries, and MRAMP sets its target (R191 to R193, R197). -/
theorem matrixMoveWords : Claims.MatrixMoveWords := by
  intro z ta c bar s is g f tm hi hw ht q d span good checks
  have hl := latched_refl s g.core
  have hmzero : exec (.mzero z bar) s = tileWord s z fun x _ => postMatrix x x.s (.mzero z.toNat) bar false [] := rfl
  have hmld : exec (.mld z ta c) s = tileWord s z fun x t => if !moveOk (tileOf (x.g.tr ta)) t [1, 9, 10] then illegal x causeTile
    else postMatrix x x.s (.mld z.toNat (x.g.tr ta)) c.bar c.foe [(tileOf (x.g.tr ta)).sharedSpan x.g.tid false] := rfl
  have hmst : exec (.mst ta z c) s = tileWord s z fun x t => if !moveOk (tileOf (x.g.tr ta)) t [1, 9, 10] then illegal x causeTile
    else postMatrix x x.s (.mst (x.g.tr ta) z.toNat) c.bar c.foe [(tileOf (x.g.tr ta)).sharedSpan x.g.tid true] := rfl
  refine ⟨tileWord_unheld hi hw ht hmzero, fun hz hroom => posts_of_exec hl hi hroom (tileWord_held hi hw ht hmzero hz),
    moveWord_refused hi hw ht hmld, moveWord_refused hi hw ht hmst, fun hz hgood hroom => ⟨?_, ?_⟩, fun fmt kx clr => ?_,
    fun n ug hon => ?_⟩
  · exact posts_of_exec hl hi hroom (moveWord_checked hi hw ht hmld hz hgood)
  · exact posts_of_exec hl hi hroom (moveWord_checked hi hw ht hmst hz hgood)
  · have hdrain : exec (.mdrain fmt ta z kx clr c) s = tileWord s z fun x t =>
        if !moveOk (tileOf (x.g.tr ta)) t [drainTile fmt] then illegal x causeTile else drainWord fmt ta z kx clr c x := rfl
    intro code
    have hcode : drainTile fmt = code := by cases fmt <;> rfl
    rw [hcode] at hdrain
    refine ⟨moveWord_refused hi hw ht hdrain, fun hz hgood hfree => ?_⟩
    have hexec := moveWord_checked hi hw ht hdrain hz hgood
    refine ⟨fun hbad => ?_, fun hok hroom => posts_of_exec hl hi hroom ?_⟩
    · rw [hexec, drainWord_badAddress hfree hbad]
      rfl
    · rw [hexec, drainWord_goodAddress hfree hok]
      rfl
  · have hid (k : Core) : ({ k with ramp := 100 * n.toNat, quiet := 0, began := true } : Core).id = k.id := rfl
    exact ⟨_, exec_mramp hi hw hon, s.core_modCore_same g.core hid, State.modCore_agenda .., (State.group_modCore ..).trans hi.group,
      onlyCore_modCore s g.core is.gid hid fun _ => rfl⟩

/-- Settles O36, the multiplications beside the words that move tiles. -/
theorem matrixWords : Obligations.MatrixWords := ⟨matrixMultiplyWords, matrixMoveWords⟩

end Sys2Proof.Machine

namespace Sys2Proof.Machine

open Sys2Proof.Safety

/-! ### The start of a matrix entry (R182, R190, R313) -/

theorem MEntry.works_iff (e : MEntry) : e.works = true ↔ ∃ n, e.phase = .running n := by
  cases h : e.phase <;> simp [MEntry.works, h]

theorem Core.works_iff (c : Core) : c.works = true ↔ ∃ x ∈ c.fifo, ∃ n, x.phase = .running n := by
  simp only [Core.works, List.any_eq_true, MEntry.works_iff]

/-- A posted entry of a core that starts occupies its engine. -/
def State.startEntry (s : State) (c : CoreId) (e : MEntry) : State :=
  (s.modCore c fun k => { k with
    began := true
    fifo := modWhere (fun x => x.id == e.id) (fun x => { x with phase := .running e.work.cycles }) k.fifo }).owe
    [.event (.matrixEntryComplete c), .event (.matrixEntryStart c)]

theorem exec_matrixEntryStart {c : CoreId} {s : State} {e : MEntry} (hfind : (s.core c).fifo.find? (fun e => e.phase == .posted) = some e) :
    exec (.matrixEntryStart c) s = .next (
      if (s.core c).works || (e.preds.any fun p => inFlight s p) then s.owe [.event (.matrixEntryStart c)] else s.startEntry c e) := by
  show execMatrixEntryStart c s = _
  simp only [execMatrixEntryStart, hfind]
  cases (s.core c).works || (e.preds.any fun p => inFlight s p) <;> rfl

theorem matrixEntryStarts : Claims.MatrixEntryStart := by
  intro c s e k busy hfind
  have hexec := exec_matrixEntryStart hfind
  have hbusy : (s.core c).works = true ↔ busy := (s.core c).works_iff
  refine ⟨fun hwait => ?_, fun hidle hfree => ?_⟩
  · have hheld : ((s.core c).works || e.preds.any fun p => inFlight s p) = true := by
      rw [Bool.or_eq_true, hbusy, List.any_eq_true]
      exact hwait
    rw [hexec, if_pos hheld]
    rfl
  · have hstarts : ((s.core c).works || e.preds.any fun p => inFlight s p) = false := by
      rw [Bool.or_eq_false_iff, List.any_eq_false, Bool.eq_false_iff, ne_eq, hbusy]
      exact ⟨hidle, fun p hp => by simp [hfree p hp]⟩
    rw [hstarts, if_neg Bool.false_ne_true] at hexec
    have hid (x : Core) : ({ x with
      began := true
      fifo := modWhere (fun x => x.id == e.id) (fun x => { x with phase := .running e.work.cycles }) x.fifo } : Core).id = x.id := rfl
    have honly := onlyCore_modCore s c 0 hid fun _ => rfl
    refine ⟨_, hexec, ?_, congrArg (· ++ _) (State.modCore_agenda ..), honly.cores,
      (congrArg (fun x : State => { x with agenda := s.agenda }) (s.modCore_cores_restored c _) :), honly.bytes⟩
    refine (s.core_modCore_same c hid).trans ?_
    simp only [modWhere, beq_iff_eq]
    rfl

/-! ### The cycles of the engine (R186, R190, R191, R194 to R196) -/

/-- A run of 8 cycles begins in a cycle that is a multiple of 8, with STEP as it is then (R195). -/
def Core.beginRun (c : Core) (t : Nat) : Core := if t % 8 == 0 then { c with run := 0, rstep := c.step } else c

/-- A cycle of the engine: idle, of an entry, or a filler cycle, and what each of the last two needs (R194 to R196). -/
theorem Core.cycle_cases (k : Core) (t : Nat) :
    let r := k.beginRun t
    k.cycle t = r ∨
    (r.run < 8 - r.rstep ∧ r.busy + r.fill < r.active + 100 ∧
      k.cycle t = { r with busy := r.busy + 1, run := r.run + 1, fifo := workOne t r.fifo }) ∨
    (r.run < 8 - r.rstep ∧ r.busy + r.fill < r.active + 100 ∧ k.cycle t = { r with fill := r.fill + 1, run := r.run + 1 }) := by
  intro r
  have hcycle : k.cycle t = if 8 - r.rstep ≤ r.run then r
      else if r.works then
        if r.busy + r.fill < r.active + 100 then { r with busy := r.busy + 1, run := r.run + 1, fifo := workOne t r.fifo } else r
      else if r.busy + r.fill + (999 - t % 1000) * (8 - r.rstep) / 8 < r.want then { r with fill := r.fill + 1, run := r.run + 1 }
      else r := rfl
  have hwant : r.want ≤ r.active + 100 := by
    rw [Core.want]
    omega
  rw [hcycle]
  split
  · exact .inl rfl
  · split
    · split
      · exact .inr (.inl ⟨by omega, by omega, rfl⟩)
      · exact .inl rfl
    · split
      · exact .inr (.inr ⟨by omega, by omega, rfl⟩)
      · exact .inl rfl

theorem Core.beginRun_counts (k : Core) (t : Nat) : (k.beginRun t).busy = k.busy ∧ (k.beginRun t).fill = k.fill ∧
    (k.beginRun t).active = k.active ∧ (k.beginRun t).fifo = k.fifo := by
  unfold Core.beginRun
  split <;> exact ⟨rfl, rfl, rfl, rfl⟩

theorem Core.beginRun_at {k : Core} {t : Nat} (h : t % 8 = 0) : k.beginRun t = { k with run := 0, rstep := k.step } :=
  if_pos (by simpa using h)

theorem Core.beginRun_within {k : Core} {t : Nat} (h : t % 8 ≠ 0) : k.beginRun t = k := if_neg (by simpa using h)

theorem Core.cycle_rstep (k : Core) (t : Nat) : (k.cycle t).rstep = (k.beginRun t).rstep := by
  obtain h | ⟨-, -, h⟩ | ⟨-, -, h⟩ := k.cycle_cases t <;> rw [h]

theorem Core.cycle_run_le {k : Core} (t : Nat) (h : k.run ≤ 8 - k.rstep) : (k.cycle t).run ≤ 8 - (k.cycle t).rstep := by
  have hbegin : (k.beginRun t).run ≤ 8 - (k.beginRun t).rstep := by
    by_cases ht : t % 8 = 0
    · rw [Core.beginRun_at ht]
      exact Nat.zero_le _
    · rwa [Core.beginRun_within ht]
  obtain h | ⟨hrun, -, h⟩ | ⟨hrun, -, h⟩ := k.cycle_cases t <;> rw [h]
  · exact hbegin
  · exact hrun
  · exact hrun

/-- The cycles worked in a window grow by one at most, and not beyond 100 more than in the window before (R196). -/
theorem Core.cycle_window (k : Core) (t : Nat) :
    (k.busy + k.fill ≤ k.active + 100 → (k.cycle t).busy + (k.cycle t).fill ≤ (k.cycle t).active + 100) ∧
    (k.cycle t).active = k.active ∧ k.busy + k.fill ≤ (k.cycle t).busy + (k.cycle t).fill ∧
    (k.cycle t).busy + (k.cycle t).fill ≤ k.busy + k.fill + 1 := by
  obtain ⟨hbusy, hfill, hactive, -⟩ := k.beginRun_counts t
  obtain h | ⟨-, hroom, h⟩ | ⟨-, hroom, h⟩ := k.cycle_cases t <;> rw [h]
  · exact ⟨by omega, by omega, by omega, by omega⟩
  · exact ⟨fun _ => by dsimp only; omega, hactive, by dsimp only; omega, by dsimp only; omega⟩
  · exact ⟨fun _ => by dsimp only; omega, hactive, by dsimp only; omega, by dsimp only; omega⟩

/-- The entry that occupies the engine is the first that runs. -/
theorem workOne_append (t : Nat) {e : MEntry} {n : Nat} (pre post : List MEntry) (he : e.phase = .running n)
    (hpre : ∀ x ∈ pre, ∀ m, x.phase ≠ .running m) : workOne t (pre ++ e :: post) =
      pre ++ { e with phase := if n ≤ 1 then .drained (t + 13) else .running (n - 1) } :: post := by
  induction pre with
  | nil => simp only [List.nil_append, workOne, he]
  | cons x pre ih =>
    have hrest := ih fun y hy => hpre y (List.mem_cons_of_mem _ hy)
    cases hx : x.phase with
    | running m => exact absurd hx (hpre x List.mem_cons_self m)
    | posted => simp only [List.cons_append, workOne, hx, hrest]
    | drained m => simp only [List.cons_append, workOne, hx, hrest]
    | merging m m' => simp only [List.cons_append, workOne, hx, hrest]

theorem Core.cycle_works {k : Core} {t : Nat} (hworks : k.works = true) (hroom : k.busy + k.fill < k.active + 100) (ht : t % 8 ≠ 0)
    (hrun : k.run < 8 - k.rstep) : (k.cycle t).fifo = workOne t k.fifo := by
  have h8 : (t % 8 == 0) = false := by simpa using ht
  simp only [Core.cycle, h8, Bool.false_eq_true, if_false, if_neg (Nat.not_le.2 hrun), hworks, if_true, if_pos hroom]

theorem matrixCycles : Claims.MatrixCycles := by
  refine ⟨fun f z q nbv a ca cb scl bad => ?_, fun z q => ⟨rfl, rfl, rfl⟩, fun f q z x clr => rfl, fun k t => ?_,
    fun k t n e pre post hfifo he hpre hroom ht hrun => ?_⟩
  · simp only [MWork.cycles, beq_iff_eq]
  · refine ⟨fun ht => ?_, fun ht => ?_, k.cycle_run_le t, k.cycle_window t⟩
    · rw [k.cycle_rstep, Core.beginRun_at ht]
    · rw [k.cycle_rstep, Core.beginRun_within ht]
  · have hworks : k.works = true := k.works_iff.2 ⟨e, by simp [hfifo], n, he⟩
    rw [Core.cycle_works hworks hroom ht hrun, hfifo, workOne_append t pre post he hpre]

end Sys2Proof.Machine

namespace Sys2Proof.Machine

open Sys2Proof.Safety

/-! ### Bytes read together (R2) -/

theorem Mem.getElem_readN (m : Mem) (a n i : Nat) (h : i < (m.readN a n).length) : (m.readN a n)[i] = m.read (a + i) := by
  induction n generalizing a i with
  | zero => exact absurd h (Nat.not_lt_zero i)
  | succ n ih =>
    cases i with
    | zero => rfl
    | succ i => exact (ih (a + 1) i (by simpa [Mem.readN] using h)).trans (congrArg m.read (by omega))

theorem Mem.readN_add (m : Mem) (a p q : Nat) : m.readN a (p + q) = m.readN a p ++ m.readN (a + p) q := by
  induction p generalizing a with
  | zero => rw [Nat.zero_add]; rfl
  | succ p ih => rw [Nat.succ_add, Mem.readN, ih, Mem.readN, List.cons_append, Nat.add_assoc, Nat.add_comm 1 p]

/-- The bytes read are those of a list when each is. -/
theorem Mem.readN_eq {m : Mem} {a : Nat} {bs : List Byte} (h : ∀ i (hi : i < bs.length), m.read (a + i) = bs[i]) :
    m.readN a bs.length = bs :=
  List.ext_getElem (m.length_readN a _) fun i _ hi => (m.getElem_readN a _ i _).trans (h i hi)

theorem Ram.readP_bytes (r : Ram) (a n : Nat) : (r.readP a n).map (·.1) = r.bytes.readN a n := by
  induction n generalizing a with
  | zero => rfl
  | succ n ih => rw [Ram.readP, List.map_cons, ih, Mem.readN]

theorem sound_bytes (bs : List Byte) : (sound bs).map (·.1) = bs := by
  rw [sound, List.map_map]
  exact List.map_id' bs

/-! ### Words and their bytes (R2) -/

@[simp] theorem bytesLE_length (n x : Nat) : (bytesLE n x).length = n := by
  induction n generalizing x with
  | zero => rfl
  | succ n ih => rw [bytesLE, List.length_cons, ih]

@[simp] theorem wordBytes_length (w : Word) : (wordBytes w).length = 4 := bytesLE_length 4 _

theorem ofBytesLE_bytesLE (n x : Nat) : ofBytesLE (bytesLE n x) = x % 256 ^ n := by
  induction n generalizing x with
  | zero => rw [Nat.pow_zero, Nat.mod_one]; rfl
  | succ n ih =>
    have hbyte : (BitVec.ofNat 8 x).toNat = x % 256 := BitVec.toNat_ofNat ..
    rw [bytesLE, ofBytesLE, ih, hbyte, Nat.pow_succ', Nat.mod_mul]

theorem bytesLE_ofBytesLE (bs : List Byte) : bytesLE bs.length (ofBytesLE bs) = bs := by
  induction bs with
  | nil => rfl
  | cons b bs ih =>
    have hb := b.isLt
    have hlow : BitVec.ofNat 8 (b.toNat + 256 * ofBytesLE bs) = b := by
      refine BitVec.eq_of_toNat_eq ?_
      rw [BitVec.toNat_ofNat]
      omega
    rw [List.length_cons, ofBytesLE, bytesLE, hlow, show (b.toNat + 256 * ofBytesLE bs) / 256 = ofBytesLE bs by omega, ih]

/-- The bytes of the word at an address are the bytes there. -/
theorem wordBytes_word (m : Mem) (a : Nat) : wordBytes (m.word a) = m.readN a 4 := by
  have hlt : m.num a 4 < 2 ^ 32 := m.num_lt a 4
  rw [wordBytes, Mem.word, BitVec.toNat_ofNat, Nat.mod_eq_of_lt hlt, Mem.num]
  exact (congrArg (bytesLE · _) (m.length_readN a 4).symm).trans (bytesLE_ofBytesLE _)

/-- A word whose bytes are at an address is the word there. -/
theorem Mem.word_eq {m : Mem} {a : Nat} {w : Word} (h : m.readN a 4 = wordBytes w) : m.word a = w := by
  refine BitVec.eq_of_toNat_eq ?_
  have hw := w.isLt
  rw [Mem.word, Mem.num, h, wordBytes, ofBytesLE_bytesLE, BitVec.toNat_ofNat]
  omega

/-- The words of a row are its bytes. -/
theorem flatMap_words (m : Mem) (a n : Nat) : ((upTo n).flatMap fun c => wordBytes (m.word (a + 4 * c))) = m.readN a (4 * n) := by
  induction n with
  | zero => rfl
  | succ n ih => rw [upTo, List.flatMap_append, ih, Nat.mul_succ, Mem.readN_add, List.flatMap_singleton, wordBytes_word]

/-! ### Rows written in turn -/

section
variable {α : Type} (place : α → Nat) (row : α → List Byte)

/-- The bytes of a memory after writes that choose only their marks from it. -/
theorem Ram.foldl_writes_bytes {step : Ram → α → Ram} (h : ∀ m x, (step m x).bytes = m.bytes.writeL (place x) (row x)) (l : List α)
    (r : Ram) : (l.foldl step r).bytes = l.foldl (fun m x => m.writeL (place x) (row x)) r.bytes := by
  induction l generalizing r with
  | nil => rfl
  | cons x l ih => rw [List.foldl_cons, ih, h, List.foldl_cons]

theorem Mem.read_foldl_other (l : List α) (m : Mem) {a : Nat} (h : ∀ x ∈ l, a < place x ∨ place x + (row x).length ≤ a) :
    (l.foldl (fun m x => m.writeL (place x) (row x)) m).read a = m.read a := by
  induction l generalizing m with
  | nil => rfl
  | cons x l ih =>
    rw [List.foldl_cons, ih _ fun y hy => h y (List.mem_cons_of_mem _ hy), Mem.read_writeL_other _ _ _ _ (h x List.mem_cons_self)]

/-- A byte of one row, which no other row covers. -/
theorem Mem.read_foldl_in (l : List α) (m : Mem) (hm : m.wf = true) {x : α} {i : Nat} (hx : x ∈ l) (hi : i < (row x).length)
    (h : ∀ y ∈ l, y ≠ x → place x + i < place y ∨ place y + (row y).length ≤ place x + i) :
    (l.foldl (fun m x => m.writeL (place x) (row x)) m).read (place x + i) = (row x)[i] := by
  induction l generalizing m with
  | nil => cases hx
  | cons y l ih =>
    have hrest := fun z hz => h z (List.mem_cons_of_mem y hz)
    rw [List.foldl_cons]
    by_cases hxl : x ∈ l
    · exact ih _ (Mem.wf_writeL _ _ _ hm) hxl hrest
    · obtain rfl : x = y := (List.mem_cons.1 hx).resolve_right hxl
      rw [Mem.read_foldl_other place row l _ fun z hz => hrest z hz fun hzx => hxl (hzx ▸ hz), Mem.read_writeL_in _ _ _ _ hm hi]

end

/-! ### Numbered rows of one length -/

/-- A memory after rows 0 to n − 1, each of the same length, are written at a pitch from an address. -/
def Mem.writeRows (m : Mem) (base pitch n : Nat) (row : Nat → List Byte) : Mem :=
  (upTo n).foldl (fun m i => m.writeL (base + i * pitch) (row i)) m

section
variable (m : Mem) {base pitch n len : Nat} {row : Nat → List Byte} (hlen : ∀ i, i < n → (row i).length = len)
include hlen

theorem Mem.read_writeRows_other {a : Nat} (h : ∀ i o, i < n → o < len → a ≠ base + i * pitch + o) :
    (m.writeRows base pitch n row).read a = m.read a := by
  refine Mem.read_foldl_other (fun i => base + i * pitch) row _ m fun i hi => ?_
  by_contra hc
  have hi := mem_upTo.1 hi
  rw [hlen i hi] at hc
  exact h i (a - (base + i * pitch)) hi (by omega) (by omega)

/-- Rows no longer than their pitch do not cover each other. -/
theorem Mem.read_writeRows (hm : m.wf = true) (hp : len ≤ pitch) {i o : Nat} (hi : i < n) (ho : o < len) :
    (m.writeRows base pitch n row).read (base + i * pitch + o) = (row i).getD o 0 := by
  have hrow := hlen i hi
  have hin := Mem.read_foldl_in (fun i => base + i * pitch) row (upTo n) m hm (mem_upTo.2 hi) (i := o) (by omega) fun j hj hji => by
    rw [hlen j (mem_upTo.1 hj)]
    rcases Nat.lt_or_gt_of_ne hji with h | h
    · have := Nat.mul_le_mul_right pitch (Nat.succ_le_of_lt h)
      rw [Nat.succ_mul] at this
      omega
    · have := Nat.mul_le_mul_right pitch (Nat.succ_le_of_lt h)
      rw [Nat.succ_mul] at this
      omega
  rw [List.getD_eq_getElem _ _ (by omega)]
  exact hin

end

/-- The rows of a memory that are written from rows that carry marks. -/
theorem Ram.foldl_rows_bytes (base pitch n : Nat) (row : Nat → List PByte) (r : Ram) :
    ((upTo n).foldl (fun m i => m.writeP (base + i * pitch) (row i)) r).bytes =
      r.bytes.writeRows base pitch n fun i => (row i).map (·.1) :=
  Ram.foldl_writes_bytes (fun i => base + i * pitch) (fun i => (row i).map (·.1)) (fun m _ => m.writeP_bytes _ _) _ r

end Sys2Proof.Machine

namespace Sys2Proof.Machine

open Sys2Proof.Safety

/-! ### What the entries of each kind do to their team (R181, R188, R192) -/

theorem accAddr_row (z i : Nat) : accAddr z i 0 = 16384 * z + i * 1024 := by
  rw [accAddr]
  omega

theorem accAddr_cell (z i c : Nat) : accAddr z i c = 16384 * z + i * 1024 + 4 * c := by
  rw [accAddr]
  omega

section
variable {t : Team} {z : Nat} (hw : t.acc.bytes.wf = true)
include hw

theorem read_runMzero (a : Nat) : (runMzero t z).acc.bytes.read a =
    if 16384 * z ≤ a ∧ a < 16384 * (z + 1) then 0 else t.acc.bytes.read a := by
  have hbytes : (runMzero t z).acc.bytes = t.acc.bytes.writeL (16384 * z) (List.replicate 16384 0) := by
    rw [runMzero, Ram.writeP_bytes, sound_bytes]
  have hlen : (List.replicate 16384 (0 : Byte)).length = 16384 := List.length_replicate
  rw [hbytes]
  split
  next h =>
    have hin := Mem.read_writeL_in t.acc.bytes (16384 * z) (a - 16384 * z) (List.replicate 16384 0) hw (by omega)
    rwa [List.getElem_replicate, Nat.add_sub_cancel' h.1] at hin
  next h => rw [Mem.read_writeL_other _ _ _ _ (by omega)]

end

theorem runMld_bytes (t : Team) (z : Nat) (d : Tile) : (runMld t z d).acc.bytes =
    t.acc.bytes.writeRows (16384 * z) 1024 16 fun i => t.shared.bytes.readN (d.base + i * d.pitch) d.rowBytes := by
  simp only [runMld, accAddr_row, Ram.foldl_rows_bytes, Tile.row, Ram.readP_bytes]

theorem runMst_bytes (t : Team) (z : Nat) (d : Tile) : (runMst t z d).shared.bytes =
    t.shared.bytes.writeRows d.base d.pitch 16 fun i => t.acc.bytes.readN (16384 * z + i * 1024) d.rowBytes := by
  simp only [runMst, accAddr_row, Ram.foldl_rows_bytes, Ram.readP_bytes]

theorem drainBytes_f32 (w : Word) (bad : Bool) : (drainBytes .f32 w bad).map (·.1) = wordBytes w := by
  rw [drainBytes, List.map_map]
  exact List.map_id' _

theorem runDrain_shared_bytes (t : Team) (z : Nat) (d : Tile) (clr : Bool) : (runDrain t .f32 z d clr).1.shared.bytes =
    t.shared.bytes.writeRows d.base d.pitch 16 fun i => t.acc.bytes.readN (16384 * z + i * 1024) (4 * d.cols) := by
  simp only [runDrain, Ram.foldl_rows_bytes, List.map_flatMap, List.flatMap_map, drainBytes_f32, accAddr_cell, flatMap_words]

theorem runDrain_kept (t : Team) (f : DrainFmt) (z : Nat) (d : Tile) : (runDrain t f z d false).1.acc = t.acc := rfl

theorem read_runDrain_cleared {t : Team} (hw : t.acc.bytes.wf = true) (f : DrainFmt) (z : Nat) {d : Tile} (hc : d.cols ≤ 256) (a : Nat) :
    (runDrain t f z d true).1.acc.bytes.read a =
      if 16384 * z ≤ a ∧ a < 16384 * (z + 1) ∧ (a - 16384 * z) % 1024 < 4 * d.cols then 0 else t.acc.bytes.read a := by
  have hbytes : (runDrain t f z d true).1.acc.bytes =
      t.acc.bytes.writeRows (16384 * z) 1024 16 fun _ => List.replicate (4 * d.cols) 0 := by
    simp only [runDrain, accAddr_row, if_true, Ram.foldl_rows_bytes, sound_bytes]
  have hlen (i : Nat) (_ : i < 16) : (List.replicate (4 * d.cols) (0 : Byte)).length = 4 * d.cols := List.length_replicate
  rw [hbytes]
  split
  next h =>
    obtain ⟨hlo, hhi, hcol⟩ := h
    have hread := t.acc.bytes.read_writeRows (base := 16384 * z) (pitch := 1024) hlen hw (by omega)
      (i := (a - 16384 * z) / 1024) (o := (a - 16384 * z) % 1024) (by omega) hcol
    rw [show 16384 * z + (a - 16384 * z) / 1024 * 1024 + (a - 16384 * z) % 1024 = a by omega] at hread
    rw [hread, List.getD_eq_getElem _ _ (by simpa using hcol), List.getElem_replicate]
  next h => exact t.acc.bytes.read_writeRows_other hlen fun i o hi ho ha => h (by omega)

/-- The largest of a list's values, or 0. -/
theorem foldl_max_spec {α : Type} (v : α → Nat) (l : List α) (b : Nat) :
    b ≤ l.foldl (fun m w => max m (v w)) b ∧ (∀ w ∈ l, v w ≤ l.foldl (fun m w => max m (v w)) b) ∧
      (l.foldl (fun m w => max m (v w)) b = b ∨ ∃ w ∈ l, l.foldl (fun m w => max m (v w)) b = v w) := by
  induction l generalizing b with
  | nil => exact ⟨Nat.le_refl b, fun _ h => absurd h List.not_mem_nil, .inl rfl⟩
  | cons w l ih =>
    obtain ⟨hle, hall, hex⟩ := ih (max b (v w))
    rw [List.foldl_cons]
    refine ⟨(Nat.le_max_left ..).trans hle, fun y hy => ?_, ?_⟩
    · rcases List.mem_cons.1 hy with rfl | hy
      · exact (Nat.le_max_right ..).trans hle
      · exact hall y hy
    · rcases hex with h | ⟨y, hy, h⟩
      · rcases Nat.le_total b (v w) with hb | hb
        · exact .inr ⟨w, List.mem_cons_self, h.trans (Nat.max_eq_right hb)⟩
        · exact .inl (h.trans (Nat.max_eq_left hb))
      · exact .inr ⟨y, List.mem_cons_of_mem w hy, h⟩

/-- The magnitude that a drain merges is the largest of its region's, or 0 (R193). -/
theorem runDrain_magnitude (t : Team) (f : DrainFmt) (z : Nat) (d : Tile) (clr : Bool) :
    (∀ i c, i < 16 → c < d.cols → (t.acc.bytes.word (16384 * z + 1024 * i + 4 * c)).toNat % 2 ^ 31 ≤ (runDrain t f z d clr).2) ∧
    ((runDrain t f z d clr).2 = 0 ∨ ∃ i c, i < 16 ∧ c < d.cols ∧
      (runDrain t f z d clr).2 = (t.acc.bytes.word (16384 * z + 1024 * i + 4 * c)).toNat % 2 ^ 31) := by
  let words (i : Nat) : List (Word × Bool) := (upTo d.cols).map fun c =>
    (t.acc.bytes.word (accAddr z i c), t.acc.bad 4 (accAddr z i c) 4)
  have hmem (w : Word × Bool) : w ∈ (upTo 16).flatMap words ↔ ∃ i, i < 16 ∧ ∃ c, c < d.cols ∧
      (t.acc.bytes.word (accAddr z i c), t.acc.bad 4 (accAddr z i c) 4) = w := by
    simp only [words, List.mem_flatMap, List.mem_map, mem_upTo]
  have hbits (x : Nat) : bitsOf x 0 31 = x % 2 ^ 31 := by rw [bitsOf, Nat.pow_zero, Nat.div_one]
  have hm : (runDrain t f z d clr).2 = ((upTo 16).flatMap words).foldl (fun m w => max m (w.1.toNat % 2 ^ 31)) 0 := by
    simp only [runDrain, hbits]
    rfl
  obtain ⟨-, hall, hex⟩ := foldl_max_spec (fun w : Word × Bool => w.1.toNat % 2 ^ 31) ((upTo 16).flatMap words) 0
  rw [hm]
  refine ⟨fun i c hi hc => hall _ ((hmem _).2 ⟨i, hi, c, hc, rfl⟩), hex.imp_right fun ⟨w, hw, h⟩ => ?_⟩
  obtain ⟨i, hi, c, hc, rfl⟩ := (hmem w).1 hw
  exact ⟨i, c, hi, hc, h⟩

/-! ### MMA.i8 (R81, R85, R188) -/

theorem getD_bytesLE {n j : Nat} (x : Nat) (h : j < n) : (bytesLE n x).getD j 0 = BitVec.ofNat 8 (x / 2 ^ (8 * j)) := by
  induction n generalizing x j with
  | zero => exact absurd h (Nat.not_lt_zero j)
  | succ n ih =>
    cases j with
    | zero => rw [bytesLE, Nat.mul_zero, Nat.pow_zero, Nat.div_one]; rfl
    | succ j =>
      rw [bytesLE, List.getD_cons_succ, ih _ (Nat.lt_of_succ_lt_succ h), Nat.div_div_eq_div_mul, Nat.mul_succ, Nat.add_comm (8 * j),
        Nat.pow_add]

theorem getD_bytesOf (ws : List Word) (k : Nat) :
    (bytesOf ws).getD k 0 = BitVec.ofNat 8 ((ws.getD (k / 4) 0).toNat / 2 ^ (8 * (k % 4))) := by
  induction ws generalizing k with
  | nil => simp [bytesOf]
  | cons w ws ih =>
    have hcons : bytesOf (w :: ws) = wordBytes w ++ bytesOf ws := List.flatMap_cons
    rw [hcons]
    by_cases hk : k < 4
    · rw [List.getD_append _ _ _ _ (by simpa using hk), Nat.div_eq_of_lt hk, Nat.mod_eq_of_lt hk]
      exact getD_bytesLE _ hk
    · rw [List.getD_append_right _ _ _ _ (by simpa using hk), wordBytes_length, ih,
        show k / 4 = (k - 4) / 4 + 1 by omega, show (k - 4) % 4 = k % 4 by omega, List.getD_cons_succ]

theorem elemOf_i8 (bs : List Byte) (k : Nat) : elemOf .i8 bs k = (bs.getD k 0).toNat := by
  have hone (l : List Byte) : ofBytesLE (l.take 1) = (l.headD 0).toNat := by
    cases l with
    | nil => rfl
    | cons b l => rfl
  show ofBytesLE ((bs.drop (k * 1)).take 1) = _
  rw [hone, Nat.mul_one, List.headD_eq_head?_getD, List.head?_drop, List.getD_eq_getElem?_getD]

theorem toSigned_byte (b : Byte) : toSigned 8 b.toNat = b.toInt := by
  rw [toSigned_eq_toInt (by decide), BitVec.ofNat_toNat, BitVec.setWidth_eq]

/-- The word that MMA.i8 leaves in a cell of the tile (R85, R188). -/
def i8Cell (t : Team) (z : Nat) (d : Tile) (a : List (List Word)) (i c : Nat) : Word :=
  t.acc.bytes.word (accAddr z i c) + BitVec.ofInt 32 (((List.range 64).map fun k =>
    ((bytesOf (a.getD i [])).getD k 0).toInt * ((t.shared.bytes.readN (d.base + k * d.pitch) d.rowBytes).getD c 0).toInt).sum)

theorem mem_cells {n : Nat} {x : Nat × Nat} : x ∈ cells n ↔ x.1 < 16 ∧ x.2 < n := by
  obtain ⟨i, c⟩ := x
  simp [cells]

/-- Row k of the region that an MMA reads (R187). -/
theorem getD_regionRows (t : Team) (d : Tile) {k : Nat} (h : k < 64) :
    ((((upTo 64).map fun k => d.row t.shared k).map fun r => r.map (·.1)).getD k []) =
      t.shared.bytes.readN (d.base + k * d.pitch) d.rowBytes := by
  rw [List.map_map, getD_map_upTo 64 k _ _ h, Function.comp_apply, Tile.row, Ram.readP_bytes]

theorem mmaWord_i8 (t : Team) (z nbv : Nat) (d : Tile) (scale : Option Int) (a : List (List Word)) (i c : Nat) :
    mmaWord .i8 nbv scale (t.acc.bytes.word (accAddr z i c)) ((upTo 64).map fun k => (elemOf .i8 (bytesOf (a.getD i [])) k,
      elemOf .i8 ((((upTo 64).map fun k => d.row t.shared k).map fun r => r.map (·.1)).getD k []) c)) = i8Cell t z d a i c := by
  rw [i8Cell, ← upTo_eq_range]
  refine congrArg (fun l : List Int => t.acc.bytes.word (accAddr z i c) + BitVec.ofInt 32 l.sum) ?_
  rw [List.map_map]
  refine List.map_congr_left fun k hk => ?_
  rw [Function.comp_apply, elemOf_i8, elemOf_i8, getD_regionRows t d (mem_upTo.1 hk), toSigned_byte, toSigned_byte]

theorem runMma_i8_bytes (t : Team) (z : Nat) (b : QWord) (nbv : Nat) (a : List (List Word)) (ca cb : List Nat) (scl bad : Bool) :
    (runMma t .i8 z b nbv a ca cb scl bad).acc.bytes = (cells (tileOf b).cols).foldl
      (fun m x => m.writeL (accAddr z x.1 x.2) (wordBytes (i8Cell t z (tileOf b) a x.1 x.2))) t.acc.bytes := by
  refine Ram.foldl_writes_bytes (fun x : Nat × Nat => accAddr z x.1 x.2) (fun x => wordBytes (i8Cell t z (tileOf b) a x.1 x.2))
    (fun m x => ?_) _ _
  have hmarks (bs : List Byte) (mark : Bool) : (bs.map fun y => ((y, mark) : PByte)).map (·.1) = bs := by
    rw [List.map_map]
    exact List.map_id' bs
  rw [Ram.writeP_bytes, hmarks]
  exact congrArg (fun w => m.bytes.writeL (accAddr z x.1 x.2) (wordBytes w)) (mmaWord_i8 t z nbv (tileOf b) _ a x.1 x.2)

section
variable {t : Team} {z : Nat} {b : QWord} {nbv : Nat} {a : List (List Word)} {ca cb : List Nat} {scl bad : Bool}

/-- Every word of the region takes its sum (R85, R188). -/
theorem word_runMma_i8 (hc : (tileOf b).cols ≤ 256) (hw : t.acc.bytes.wf = true) {i c : Nat} (hi : i < 16) (hcol : c < (tileOf b).cols) :
    (runMma t .i8 z b nbv a ca cb scl bad).acc.bytes.word (accAddr z i c) = i8Cell t z (tileOf b) a i c := by
  refine Mem.word_eq ?_
  have hlen := wordBytes_length (i8Cell t z (tileOf b) a i c)
  rw [runMma_i8_bytes, ← hlen]
  refine Mem.readN_eq fun o ho => ?_
  refine Mem.read_foldl_in (fun x : Nat × Nat => accAddr z x.1 x.2) (fun x => wordBytes (i8Cell t z (tileOf b) a x.1 x.2)) _ _ hw
    (x := (i, c)) (mem_cells.2 ⟨hi, hcol⟩) ho fun y hy hne => ?_
  obtain ⟨hi', hcol'⟩ := mem_cells.1 hy
  have hdiff : y.1 ≠ i ∨ y.2 ≠ c := by
    by_contra h
    exact hne (Prod.ext (by omega) (by omega))
  simp only [accAddr, wordBytes_length]
  omega

/-- Every byte outside the region stays (R188). -/
theorem read_runMma_i8_other {x : Nat} (h : ∀ i col o, i < 16 → col < (tileOf b).cols → o < 4 → x ≠ 16384 * z + 1024 * i + 4 * col + o) :
    (runMma t .i8 z b nbv a ca cb scl bad).acc.bytes.read x = t.acc.bytes.read x := by
  rw [runMma_i8_bytes]
  refine Mem.read_foldl_other (fun x : Nat × Nat => accAddr z x.1 x.2) (fun x => wordBytes (i8Cell t z (tileOf b) a x.1 x.2)) _ _
    fun y hy => ?_
  obtain ⟨hi, hcol⟩ := mem_cells.1 hy
  have hy := h y.1 y.2 (x - accAddr z y.1 y.2) hi hcol
  simp only [accAddr, wordBytes_length] at hy ⊢
  omega

end

end Sys2Proof.Machine

namespace Sys2Proof.Machine

open Sys2Proof.Safety

/-! ### The completion of a matrix entry (R183, R190) -/

theorem Group.ret_frame (g : Group) (seq : Nat) :
    { g.ret seq with frags := g.frags, spilled := g.spilled, flights := g.flights } = g := by
  unfold Group.ret
  split <;> rfl

theorem Group.ret_gid (g : Group) (seq : Nat) : (g.ret seq).gid = g.gid := (congrArg Group.gid (g.ret_frame seq) :)
theorem Group.ret_tid (g : Group) (seq : Nat) : (g.ret seq).tid = g.tid := (congrArg Group.tid (g.ret_frame seq) :)
theorem Group.ret_wave (g : Group) (seq : Nat) : (g.ret seq).wave = g.wave := (congrArg Group.wave (g.ret_frame seq) :)

theorem teamEmpty_of_group {s : State} {n : Nat} {g : Group} (hg : s.group? n = some g) (hw : g.wave = none) :
    teamEmpty s g.tid = false := by
  have hmem : g ∈ s.groups := List.mem_of_find?_eq_some hg
  have hany : (s.groups.any fun x => x.tid == g.tid && x.wave.isNone) = true := List.any_eq_true.2 ⟨g, hmem, by simp [hw]⟩
  rw [teamEmpty, hany]
  rfl

/-- An engine's event on a barrier leaves a group in its team, and out of a wave as it was. -/
theorem engEvent_group {s : State} {n : Nat} {g : Group} (hg : s.group? n = some g) (op : Nat) (stopped : Bool) (tid : Nat) (b : BReg)
    (ev : BEv) : ∃ h, (engEvent s op stopped tid b ev).group? n = some h ∧ h.tid = g.tid ∧ h.wave = g.wave := by
  unfold engEvent
  cases ht : s.team? tid with
  | none => exact ⟨g, hg, rfl, rfl⟩
  | some t =>
    dsimp only
    split
    · exact ⟨g, (State.group_modTeam ..).trans hg, rfl, rfl⟩
    · have hb := (barEvent_becomes ht b ev).groups n
      rw [hg, Option.map_some] at hb
      refine ⟨_, hb, ?_⟩
      split
      · exact ⟨Group.barNotify_tid .., (congrArg Group.wave (Group.barNotify_frame ..) :)⟩
      · exact ⟨rfl, rfl⟩

/-- An entry leaves the FIFO of its core, and its word returns (R183, R190). -/
def State.finishEntry (s : State) (c : CoreId) (e : MEntry) : State :=
  (s.modCore c fun k => { k with fifo := k.fifo.filter fun x => x.id != e.id }).modGroup e.gid fun g => g.ret e.seq

theorem State.group_finishEntry {s : State} (c : CoreId) {e : MEntry} {g : Group} (hg : s.group? e.gid = some g) :
    (s.finishEntry c e).group? e.gid = some (g.ret e.seq) :=
  State.group_modGroup_same (F := fun g => g.ret e.seq) ((State.group_modCore ..).trans hg) fun g => g.ret_gid e.seq

/-- A team with a group that is no wave is not empty when its entry completes; what is left is the arrival that the entry names. -/
theorem completeEntry_of_group {s : State} {c : CoreId} {e : MEntry} {g : Group} (hg : s.group? e.gid = some g) (ht : g.tid = e.tid)
    (hw : g.wave = none) : completeEntry s c e = match e.bar with
      | none => s.finishEntry c e
      | some b => engEvent (s.finishEntry c e) e.id false e.tid b .arrive := by
  have hfin := s.group_finishEntry c hg
  have hstays {u : State} {h : Group} (hu : u.group? e.gid = some h) (htid : h.tid = e.tid) (hwave : h.wave = none) :
      (match u.team? e.tid with
        | none => u
        | some t => if teamEmpty u e.tid then teamOver u t else u) = u := by
    rw [← htid, teamEmpty_of_group hu hwave]
    cases u.team? h.tid <;> rfl
  cases hb : e.bar with
  | none =>
    have heq := hstays hfin ((g.ret_tid _).trans ht) ((g.ret_wave _).trans hw)
    unfold completeEntry
    rw [hb]
    exact heq
  | some b =>
    obtain ⟨h, hh, htid, hwave⟩ := engEvent_group hfin e.id false e.tid b .arrive
    have heq := hstays hh (htid.trans ((g.ret_tid _).trans ht)) (hwave.trans ((g.ret_wave _).trans hw))
    unfold completeEntry
    rw [hb]
    exact heq

/-! ### The team of an entry -/

theorem State.modTeam_const (s : State) (tid : Nat) (t : Team) :
    (s.modTeam tid fun _ => t) = s.modTeam tid fun x => if x.tid = tid then t else x := by
  unfold State.modTeam modWhere
  congr 1
  refine List.map_congr_left fun x _ => ?_
  by_cases h : x.tid = tid
  · rw [if_pos (beq_iff_eq.2 h), if_pos (beq_iff_eq.2 h)]
    exact (if_pos h).symm
  · rw [if_neg (mt beq_iff_eq.1 h), if_neg (mt beq_iff_eq.1 h)]

section
variable (s : State) {tid : Nat} {tm t : Team} (ht : t.tid = tid)
include ht

theorem State.team_modTeam_const (h : s.team? tid = some tm) : (s.modTeam tid fun _ => t).team? tid = some t := by
  have hid (x : Team) : (if x.tid = tid then t else x).tid = x.tid := by
    split
    next h => rw [h, ht]
    next => rfl
  rw [s.modTeam_const, s.team_modTeam_same tid hid h, if_pos (by simpa using List.find?_some h)]

theorem State.onlyTeam_modTeam_const : OnlyTeam s (s.modTeam tid fun _ => t) tid := by
  rw [s.modTeam_const]
  refine s.onlyTeam_modTeam tid fun x => ?_
  split
  next h => rw [h, ht]
  next => rfl

end

theorem Team.memories_restored (t : Team) (sh acc : Ram) :
    { ({ t with shared := sh, acc := acc } : Team) with shared := t.shared, acc := t.acc } = t := rfl

/-- An entry's effect is on the memories of its team alone. -/
theorem MWork.run_frame (w : MWork) (t : Team) : { (w.run t).1 with shared := t.shared, acc := t.acc } = t := by
  cases w with
  | mma f z b nbv a ca cb scl bad => exact t.memories_restored t.shared _
  | mzero z => exact t.memories_restored t.shared _
  | mld z d => exact t.memories_restored t.shared _
  | mst d z => exact t.memories_restored _ t.acc
  | mdrain f d z amx clr => exact t.memories_restored _ _

theorem teamOk_of_memoriesOk {s : State} {tid : Nat} {tm : Team} (h : memoriesOk s = true) (ht : s.team? tid = some tm) :
    tm.shared.bytes.wf = true ∧ tm.acc.bytes.wf = true := by
  simp only [memoriesOk, Bool.and_eq_true] at h
  obtain ⟨⟨-, hteams⟩, -⟩ := h
  have := List.all_eq_true.1 hteams tm (List.mem_of_find?_eq_some ht)
  simpa only [teamOk, ramOk, Bool.and_eq_true] using this

/-- What the effect of an entry of core c leaves unchanged, beside its FIFO, its group and the memories of its team, which becomes tm'. -/
def EntryActs (s : State) (c : CoreId) (e : MEntry) (tm : Team) (t : State) (tm' : Team) : Prop :=
  t.team? e.tid = some tm' ∧ { tm' with shared := tm.shared, acc := tm.acc } = tm ∧
    (∀ d, d ≠ c → t.core d = s.core d) ∧ (∀ m, m ≠ e.gid → t.group? m = s.group? m) ∧
    (∀ m, m ≠ e.tid → t.team? m = s.team? m) ∧
    (∀ p, (∀ a, p ≠ .shared e.tid a ∧ p ≠ .tile e.tid a) → byteAt t p = byteAt s p)

/-- An entry whose effect makes tm' of its team has completed. -/
def EntryDone (s : State) (c : CoreId) (e : MEntry) (r : List MEntry) (tm : Team) (g : Group) (t : State) (tm' : Team) : Prop :=
  exec (.matrixEntryComplete c) s = .next (match e.bar with
    | none => t
    | some b => engEvent t e.id false e.tid b .arrive) ∧
  (t.core c).fifo = r ∧ t.group? e.gid = some (g.ret e.seq) ∧
  { t with cores := s.cores, groups := s.groups, teams := s.teams } = s ∧ EntryActs s c e tm t tm'

section
variable {c : CoreId} {s : State} {e : MEntry} {r : List MEntry} {n : Nat} {tm : Team} {g : Group}
  (hq : (s.core c).fifo = e :: r) (hphase : e.phase = .drained n) (hdue : n ≤ s.cyc) (hids : ∀ x ∈ r, x.id ≠ e.id)
  (ht : s.team? e.tid = some tm) (hg : s.group? e.gid = some g) (hgt : g.tid = e.tid) (hwave : g.wave = none)
include hq hphase hdue ht

theorem exec_matrixEntryComplete : exec (.matrixEntryComplete c) s =
    let u := s.modTeam e.tid fun _ => (e.work.run tm).1
    match (e.work.run tm).2 with
    | none => .next (completeEntry u c e)
    | some m => .next ((u.modCore c fun k =>
        { k with fifo := modWhere (fun x => x.id == e.id) (fun x => { x with phase := .merging m n }) k.fifo }).owe
          [.event (.drainMerge c)]) := by
  show execMatrixEntryComplete c s = _
  rw [execMatrixEntryComplete, hq]
  simp only [hphase, if_neg (Nat.not_lt.2 hdue), ht] <;> rfl

omit hq hphase hdue in
/-- A team that becomes tm' and a core that changes its FIFO: what R181 leaves of the rest. -/
theorem entryActs_of_changes {F : Core → Core} (hid : ∀ k, (F k).id = k.id) (hspill : ∀ k, (F k).spill = k.spill) {G : Group → Group}
    (hG : ∀ h, (G h).gid = h.gid) {ms : List Move} :
    EntryActs s c e tm (State.owe (((s.modTeam e.tid fun _ => (e.work.run tm).1).modCore c F).modGroup e.gid G) ms)
      (e.work.run tm).1 := by
  have hframe := e.work.run_frame tm
  have htid : (e.work.run tm).1.tid = e.tid := (congrArg Team.tid hframe :).trans (by simpa using List.find?_some ht)
  let u := s.modTeam e.tid fun _ => (e.work.run tm).1
  have honly := s.onlyTeam_modTeam_const htid
  have hcore := onlyCore_modCore u c 0 hid hspill
  refine ⟨(State.team_modCore ..).trans (s.team_modTeam_const htid ht), hframe, fun d hd => hcore.cores d hd, fun m hm => ?_,
    fun m hm => (State.team_modCore ..).trans (honly.teams m hm), fun p hp => (hcore.bytes p).trans (honly.bytes p hp)⟩
  exact (State.group_modGroup_other hG hm).trans (State.group_modCore ..)

include hids hg hgt hwave

/-- An entry without a merge completes (R183, R190). -/
theorem entryDone (hrun : (e.work.run tm).2 = none) : ∃ t, EntryDone s c e r tm g t (e.work.run tm).1 := by
  let u := s.modTeam e.tid fun _ => (e.work.run tm).1
  have hexec := exec_matrixEntryComplete hq hphase hdue ht
  rw [hrun] at hexec
  have hgu : u.group? e.gid = some g := hg
  have hid (k : Core) : ({ k with fifo := k.fifo.filter fun x => x.id != e.id } : Core).id = k.id := rfl
  have hfifo : (u.finishEntry c e).core c = { u.core c with fifo := (u.core c).fifo.filter fun x => x.id != e.id } :=
    u.core_modCore_same c hid
  refine ⟨u.finishEntry c e, hexec.trans (congrArg _ (completeEntry_of_group hgu hgt hwave)), ?_, u.group_finishEntry c hgu,
    (congrArg (fun x : State => { x with groups := s.groups, teams := s.teams }) (u.modCore_cores_restored c _) :),
    entryActs_of_changes (ms := []) ht hid (fun _ => rfl) fun h => h.ret_gid e.seq⟩
  have hq' : (u.core c).fifo = e :: r := hq
  refine (congrArg Core.fifo hfifo).trans ?_
  show (u.core c).fifo.filter (fun x => x.id != e.id) = r
  rw [hq', List.filter_cons_of_neg (by simp), List.filter_eq_self.2 fun x hx => by simpa using hids x hx]

end

end Sys2Proof.Machine

namespace Sys2Proof.Machine

open Sys2Proof.Safety

section
variable {c : CoreId} {s : State} {e : MEntry} {r : List MEntry} {n : Nat} {tm : Team} {g : Group}
  (hq : (s.core c).fifo = e :: r) (hphase : e.phase = .drained n) (hdue : n ≤ s.cyc) (hids : ∀ x ∈ r, x.id ≠ e.id)
  (ht : s.team? e.tid = some tm) (hg : s.group? e.gid = some g)
include hq hphase hdue hids ht hg

/-- A drain with AMX goes on with its merge (R193). -/
theorem entryMerges {m : Nat} (hrun : (e.work.run tm).2 = some m) :
    ∃ t, exec (.matrixEntryComplete c) s = .next t ∧ EntryActs s c e tm t (e.work.run tm).1 ∧
      (t.core c).fifo = { e with phase := .merging m n } :: r ∧ t.group? e.gid = some g ∧
      t.agenda = s.agenda ++ [.event (.drainMerge c)] := by
  let u := s.modTeam e.tid fun _ => (e.work.run tm).1
  have hexec := exec_matrixEntryComplete hq hphase hdue ht
  rw [hrun] at hexec
  have hid (k : Core) : ({ k with
    fifo := modWhere (fun x => x.id == e.id) (fun x => { x with phase := .merging m n }) k.fifo } : Core).id = k.id := rfl
  have hgroups (v : State) : v.modGroup e.gid (fun h => h) = v := by
    have hsame : modWhere (fun h : Group => h.gid == e.gid) (fun h => h) v.groups = v.groups := by
      simp only [modWhere, ite_self, List.map_id']
    rw [State.modGroup, hsame]
  have hacts := entryActs_of_changes (c := c) (e := e) ht hid (fun _ => rfl) (G := fun h => h) (fun _ => rfl)
    (ms := [.event (.drainMerge c)])
  rw [hgroups] at hacts
  refine ⟨_, hexec, hacts, ?_, (State.group_modCore ..).trans hg, congrArg (· ++ _) (State.modCore_agenda ..)⟩
  refine (congrArg Core.fifo (u.core_modCore_same c hid)).trans ?_
  show modWhere _ _ (s.core c).fifo = _
  rw [hq, modWhere, List.map_cons, if_pos (beq_self_eq_true _)]
  refine congrArg _ ((List.map_congr_left fun x hx => ?_).trans (List.map_id' r))
  rw [if_neg (by simpa using hids x hx)]

end

/-! ### Each kind of entry, at its completion (R188, R192, R193) -/

/-- What mdrain.f32 does to the memories of its team (R192). -/
def Drains (tm : Team) (q : QWord) (z : Nat) (clr : Bool) (tm' : Team) : Prop :=
  let d := tileOf q
  d.rowBytes = 4 * d.cols → d.cols ≤ 256 → d.rowBytes ≤ d.pitch →
    (∀ i o, i < 16 → o < d.rowBytes →
      tm'.shared.bytes.read (d.base + i * d.pitch + o) = tm.acc.bytes.read (16384 * z + 1024 * i + o)) ∧
    (∀ a, (∀ i o, i < 16 → o < d.rowBytes → a ≠ d.base + i * d.pitch + o) → tm'.shared.bytes.read a = tm.shared.bytes.read a) ∧
    (clr = false → tm'.acc = tm.acc) ∧
    (clr = true → ∀ a, tm'.acc.bytes.read a =
      if (16384 * z ≤ a ∧ a < 16384 * (z + 1) ∧ (a - 16384 * z) % 1024 < 4 * d.cols) then 0 else tm.acc.bytes.read a)

section
variable {tm : Team} (hs : tm.shared.bytes.wf = true) (ha : tm.acc.bytes.wf = true) (q : QWord) (z : Nat)

/-- A byte of a row that was read from a memory. -/
theorem getD_readN (m : Mem) (a : Nat) {n o : Nat} (h : o < n) : (m.readN a n).getD o 0 = m.read (a + o) := by
  rw [List.getD_eq_getElem _ _ (by simpa using h), Mem.getElem_readN]

include hs in
/-- Rows of a tile written to a region of shared memory. -/
theorem read_storedRows {d : Tile} {len : Nat} (hp : len ≤ d.pitch) :
    let m := tm.shared.bytes.writeRows d.base d.pitch 16 fun i => tm.acc.bytes.readN (16384 * z + i * 1024) len
    (∀ i o, i < 16 → o < len → m.read (d.base + i * d.pitch + o) = tm.acc.bytes.read (16384 * z + 1024 * i + o)) ∧
    (∀ a, (∀ i o, i < 16 → o < len → a ≠ d.base + i * d.pitch + o) → m.read a = tm.shared.bytes.read a) := by
  intro m
  have hlen (i : Nat) (_ : i < 16) : (tm.acc.bytes.readN (16384 * z + i * 1024) len).length = len := Mem.length_readN ..
  refine ⟨fun i o hi ho => ?_, fun a h => tm.shared.bytes.read_writeRows_other hlen h⟩
  rw [tm.shared.bytes.read_writeRows hlen hs hp hi ho, getD_readN _ _ ho, Nat.mul_comm i]

include hs ha in
theorem drains_runDrain (clr : Bool) : Drains tm q z clr (runDrain tm .f32 z (tileOf q) clr).1 := by
  unfold Drains
  intro d hrow hcols hpitch
  obtain ⟨hin, hout⟩ := read_storedRows hs z (hrow ▸ hpitch)
  refine ⟨fun i o hi ho => ?_, fun a h => ?_, fun hc => ?_, fun hc a => ?_⟩
  · rw [runDrain_shared_bytes]
    exact hin i o hi (hrow ▸ ho)
  · rw [runDrain_shared_bytes]
    exact hout a fun i o hi ho => h i o hi (hrow ▸ ho)
  · rw [hc, runDrain_kept]
  · rw [hc, read_runDrain_cleared ha .f32 z hcols]

include ha in
/-- MLD: the rows of the region lie in the tile (R192). -/
theorem read_runMld (hcols : (tileOf q).cols ≤ 256) (hrow : (tileOf q).rowBytes = 4 * (tileOf q).cols) :
    (∀ i o, i < 16 → o < (tileOf q).rowBytes → (runMld tm z (tileOf q)).acc.bytes.read (16384 * z + 1024 * i + o) =
      tm.shared.bytes.read ((tileOf q).base + i * (tileOf q).pitch + o)) ∧
    (∀ a, (∀ i o, i < 16 → o < (tileOf q).rowBytes → a ≠ 16384 * z + 1024 * i + o) →
      (runMld tm z (tileOf q)).acc.bytes.read a = tm.acc.bytes.read a) := by
  have hlen (i : Nat) (_ : i < 16) :
      (tm.shared.bytes.readN ((tileOf q).base + i * (tileOf q).pitch) (tileOf q).rowBytes).length = (tileOf q).rowBytes :=
    Mem.length_readN ..
  rw [runMld_bytes]
  refine ⟨fun i o hi ho => ?_, fun a h => tm.acc.bytes.read_writeRows_other hlen fun i o hi ho => ?_⟩
  · rw [Nat.mul_comm 1024, tm.acc.bytes.read_writeRows hlen ha (by omega) hi ho, getD_readN _ _ ho]
  · rw [Nat.mul_comm i]
    exact h i o hi ho

/-- The word that MMA.i8 leaves in a cell is the sum of the exact products (R81, R85). -/
theorem i8Cell_eq {d : Tile} (hrow : d.rowBytes = d.cols) (a : List (List Word)) (i : Nat) {c : Nat} (hc : c < d.cols) :
    i8Cell tm z d a i c = tm.acc.bytes.word (16384 * z + 1024 * i + 4 * c) + BitVec.ofInt 32 (((List.range 64).map fun k =>
      (BitVec.ofNat 8 (((a.getD i []).getD (k / 4) 0).toNat / 2 ^ (8 * (k % 4)))).toInt *
        (tm.shared.bytes.read (d.base + k * d.pitch + c)).toInt).sum) := by
  rw [i8Cell]
  refine congrArg (fun l : List Int => tm.acc.bytes.word (accAddr z i c) + BitVec.ofInt 32 l.sum) (List.map_congr_left fun k _ => ?_)
  rw [getD_bytesOf, getD_readN _ _ (hrow ▸ hc)]

end

theorem MWork.run_mzero (z : Nat) (t : Team) : (MWork.mzero z).run t = (runMzero t z, none) := rfl

theorem Team.acc_changed (t : Team) (acc : Ram) : ({ t with acc := acc } : Team).shared = t.shared := rfl

/-- The effects of the entries, each on the memories of its team (R181 to R193). -/
theorem matrixEntryCompletes : Claims.MatrixEntryComplete := by
  intro c s e r n tm g hq hphase hdue hids ht hg hgt hwave hmem acts done drains
  obtain ⟨hs, ha⟩ := teamOk_of_memoriesOk hmem ht
  have hdone {tm' : Team} (hrun : e.work.run tm = (tm', none)) : ∃ t, done t tm' := by
    obtain ⟨t, h⟩ := entryDone hq hphase hdue hids ht hg hgt hwave (congrArg Prod.snd hrun)
    rw [hrun] at h
    exact ⟨t, h⟩
  refine ⟨fun q z clr hwork => ?_, fun q z x clr hwork => ?_, fun z hwork => ?_, fun z q hwork => ?_, fun q z hwork => ?_,
    fun z q nbv a ca cb scl bad hwork => ?_⟩
  · obtain ⟨t, h⟩ := hdone (tm' := (runDrain tm .f32 z (tileOf q) clr).1) (by rw [hwork]; rfl)
    exact ⟨t, _, h, drains_runDrain hs ha q z clr⟩
  · have hrun : e.work.run tm = ((runDrain tm .f32 z (tileOf q) clr).1, some (runDrain tm .f32 z (tileOf q) clr).2) := by
      rw [hwork]
      rfl
    obtain ⟨t, hexec, hacts, hfifo, hgroup, hagenda⟩ := entryMerges hq hphase hdue hids ht hg (congrArg Prod.snd hrun)
    rw [hrun] at hacts
    exact ⟨t, _, _, hexec, hacts, drains_runDrain hs ha q z clr, hfifo, hgroup, hagenda,
      runDrain_magnitude tm .f32 z (tileOf q) clr⟩
  · obtain ⟨t, h⟩ := hdone (hwork ▸ MWork.run_mzero z tm)
    exact ⟨t, _, h, tm.acc_changed _, read_runMzero ha⟩
  · intro d hrow hcols
    obtain ⟨t, h⟩ := hdone (tm' := runMld tm z d) (by rw [hwork]; rfl)
    exact ⟨t, _, h, rfl, read_runMld ha q z hcols hrow⟩
  · intro d hrow hcols hpitch
    obtain ⟨t, h⟩ := hdone (tm' := runMst tm z d) (by rw [hwork]; rfl)
    have hrows := read_storedRows hs z hpitch
    rw [← runMst_bytes] at hrows
    exact ⟨t, _, h, rfl, hrows⟩
  · intro d x y hrow hcols _
    obtain ⟨t, h⟩ := hdone (tm' := runMma tm .i8 z q nbv a ca cb scl bad) (by rw [hwork]; rfl)
    refine ⟨t, _, h, rfl, fun i col hi hcol => ?_, fun w hw => read_runMma_i8_other hw⟩
    exact (word_runMma_i8 hcols ha hi hcol).trans (i8Cell_eq z hrow a i hcol)

/-- Settles O37, from the start of an entry to its completion. -/
theorem matrixEntries : Obligations.MatrixEntries := ⟨matrixEntryStarts, matrixCycles, matrixEntryCompletes⟩

end Sys2Proof.Machine
